-- ==== Sys2Proof/Word.lean ====
section
/-! DEFINITION. The words of the machine and the sparse table that holds a family of like things. -/
namespace Sys2Proof

/-- A byte (00 R4). -/
abbrev Byte := BitVec 8
/-- A scalar register, an address, a 64-bit field. -/
abbrev Word := BitVec 64
/-- A 128-bit type word (02 R17). -/
abbrev TypeWord := BitVec 128
/-- A scalar register number s0 to s63 (06 R107). -/
abbrev SReg := BitVec 6
/-- A predicate number p0 to p7. -/
abbrev PReg := BitVec 3
/-- A token number k0 to k31; 0 names none. -/
abbrev Tok := BitVec 5
/-- A tile register number t0 to t31. -/
abbrev TReg := BitVec 5
/-- A bobbin number b0 to b15. -/
abbrev BReg := BitVec 4
/-- A family of values by number: pairs with rising numbers; an unlisted number holds the family's default. -/
abbrev Mp (α : Type) := List (Nat × α)

end Sys2Proof
end

