-- ==== Sys2Proof/Syntax.lean ====
section
/-! DEFINITION. The instructions: one constructor for each row of spec/opcode_table.json, the slot instructions of a bundle
(06 Tables 06-9 to 06-11) and the device's own events (95). -/
namespace Sys2Proof

/-- The slots of a bundle in slot order (06 R98). -/
inductive Slot where
  | x | g | v0 | v1 | m | c
deriving DecidableEq, Repr

/-- Which vector pipe a V slot issues to (06 R112). -/
inductive Pipe where
  | p0 | p1
deriving DecidableEq, Repr

/-- The fields of a G slot (06 Table 06-5). -/
structure GSlot where
  sd : SReg := 0
  sa : SReg := 0
  sb : SReg := 0
  hint : BitVec 8 := 0
  stride : BitVec 6 := 0
  disp : BitVec 24 := 0
deriving DecidableEq, Repr

/-- The fields of a V slot (06 Table 06-6). -/
structure VSlot where
  op2 : BitVec 5 := 0
  op3 : BitVec 5 := 0
  td : TReg := 0
  ta : TReg := 0
  tb : TReg := 0
  tc : TReg := 0
  sx : SReg := 0
  rnd : BitVec 2 := 0
  kd : Tok := 0
  kw0 : Tok := 0
  kw1 : Tok := 0
  kw2 : Tok := 0
deriving DecidableEq, Repr

/-- The fields of an M slot (06 Table 06-7). -/
structure MSlot where
  td : TReg := 0
  ta : TReg := 0
  tb : TReg := 0
  tx : TReg := 0
  sx : SReg := 0
  flags : BitVec 4 := 0
  kd : Tok := 0
  kw0 : Tok := 0
  kw1 : Tok := 0
  kw2 : Tok := 0
  imm : BitVec 8 := 0
deriving DecidableEq, Repr

/-- The fields of a C slot (06 Table 06-7). -/
structure CSlot where
  t : TReg := 0
  w : BitVec 8 := 0
  sa : SReg := 0
  sb : SReg := 0
  hint : BitVec 8 := 0
  kd : Tok := 0
  kw0 : Tok := 0
  kw1 : Tok := 0
  kw2 : Tok := 0
  stride : BitVec 5 := 0
deriving DecidableEq, Repr

/-- Source, destination and number of a link message (16 R305). -/
structure MsgHdr where
  src : BitVec 10
  dst : BitVec 10
  tag : BitVec 12
deriving DecidableEq, Repr

/-- The send-ready payload (16 Table 16-5, class 0x03). -/
structure ReadyMsg where
  word : TypeWord
  tag : BitVec 32
  image : Nat
  endpoint : Word
  sender : BitVec 10
  core : Nat
  entry : Nat
  gtag : Nat
deriving DecidableEq, Repr

/-- A steal request or the request part of the token (16 Table 16-5). -/
structure StealReq where
  thief : BitVec 10
  count : Nat
  jobTag : BitVec 32
deriving DecidableEq, Repr

/-- A load offer of the token (05 R96). -/
structure LoadOffer where
  device : BitVec 10
  jobTag : BitVec 32
  count : Nat
deriving DecidableEq, Repr

/-- The load-summary token (05 R96, 16 Table 16-5). -/
structure LoadToken where
  epoch : BitVec 32
  seq : BitVec 32
  reqs : List StealReq
  offers : List LoadOffer
deriving DecidableEq, Repr

/-- A port of the device: die 0 to 3, port 0 to 3 (16 R304). -/
structure PortId where
  die : BitVec 2
  port : BitVec 2
deriving DecidableEq, Repr

/-- What a training offer or accept carries (16 R310). -/
structure Training where
  version : BitVec 8
  device : BitVec 16
  place : BitVec 8
  chosen : BitVec 8
  serial : Word
deriving DecidableEq, Repr

/-- A fault notice for the host (16 Table 16-5). -/
structure Notice where
  kind : Nat
  cause : BitVec 8
  cx : Nat
  lid : Word
  addr : Word
  info : Word
  time : Word
  device : Nat := 0
deriving DecidableEq, Repr
/-- A fault notice under way to the host bridge (16 R311). -/
structure NoticeMsg where
  hdr : MsgHdr
  notice : Notice
deriving DecidableEq, Repr

/-- What the host does through a window: an atomic carries its operand and then the replacement value, 8 bytes each (16 R313). -/
inductive HostOp where
  | read | write | atomic (op : BitVec 8)
deriving DecidableEq, Repr

/-- Why a received flit is discarded (16 R306, R307, R308). -/
inductive FlitFlaw where
  | badCrc | outOfSequence | reservedClass | unknownControl
deriving DecidableEq, Repr

/-- Where a soft error arises (12 R222, R223). -/
inductive ErrSite where
  | hbm (pa : Nat)
  | scratch (core : Nat) (offset : Nat)
  | tile (cx : Nat) (tile : Nat) (byte : Nat) (scales : Bool)
  | bank (cx : Nat) (bank : Nat)
  | icache (core : Nat) (va : Nat)
  | l1 (core : Nat) (line : Nat)
deriving DecidableEq, Repr

/-- One constructor per row of the opcode table.  Slot instructions carry the fields of their slot; an event carries
the agent it concerns.  A context is named by its device-wide number cx = 8 × CORE_ID + CTX_ID. -/
inductive Instr where
  -- X slot: integer (07 R128 to R135, R147)
  | nop
  | add (sd sa sb : SReg) | sub (sd sa sb : SReg) | and (sd sa sb : SReg) | or (sd sa sb : SReg)
  | xor (sd sa sb : SReg) | shl (sd sa sb : SReg) | shr (sd sa sb : SReg) | sra (sd sa sb : SReg)
  | mul (sd sa sb : SReg) | mulh (sd sa sb : SReg) | mulhu (sd sa sb : SReg)
  | div (sd sa sb : SReg) | divu (sd sa sb : SReg) | rem (sd sa sb : SReg) | remu (sd sa sb : SReg)
  | min (sd sa sb : SReg) | max (sd sa sb : SReg) | minu (sd sa sb : SReg) | maxu (sd sa sb : SReg)
  | clz (sd sa : SReg) | ctz (sd sa : SReg) | popc (sd sa : SReg)
  | sel (sd : SReg) (p : PReg) (sa sb : SReg)
  | addi (sd sa : SReg) (imm : BitVec 12) | andi (sd sa : SReg) (imm : BitVec 12)
  | ori (sd sa : SReg) (imm : BitVec 12) | xori (sd sa : SReg) (imm : BitVec 12)
  | shli (sd sa : SReg) (imm : BitVec 12) | shri (sd sa : SReg) (imm : BitVec 12)
  | srai (sd sa : SReg) (imm : BitVec 12) | muli (sd sa : SReg) (imm : BitVec 12)
  | li (sd : SReg) (imm : BitVec 18) | lih (sd : SReg) (imm : BitVec 18)
  | cmpeq (pd : PReg) (sa sb : SReg) | cmpne (pd : PReg) (sa sb : SReg) | cmplt (pd : PReg) (sa sb : SReg)
  | cmpltu (pd : PReg) (sa sb : SReg) | cmple (pd : PReg) (sa sb : SReg) | cmpleu (pd : PReg) (sa sb : SReg)
  | cmpeqi (pd : PReg) (sa : SReg) (imm : BitVec 12) | cmplti (pd : PReg) (sa : SReg) (imm : BitVec 12)
  | pand (pd pa pb : PReg) | por (pd pa pb : PReg) | pxor (pd pa pb : PReg)
  | pnot (pd pa : PReg) | pmov (pd pa : PReg)
  | lea (sd sa sb : SReg) (n : BitVec 3)
  -- X slot: FP32 (07 R136)
  | fadd (sd sa sb : SReg) | fsub (sd sa sb : SReg) | fmul (sd sa sb : SReg) | fdiv (sd sa sb : SReg)
  | fmin (sd sa sb : SReg) | fmax (sd sa sb : SReg)
  | fcmplt (pd : PReg) (sa sb : SReg) | fcmpeq (pd : PReg) (sa sb : SReg)
  | ftoi (sd sa : SReg) | itof (sd sa : SReg) | fexp2 (sd sa : SReg) | flog2 (sd sa : SReg)
  -- X slot: control and system (07 R137 to R146)
  | br (disp : BitVec 20) | brc (p : PReg) (sense : Bool) (disp : BitVec 20)
  | bdnz (sd : SReg) (imm : BitVec 12) | call (disp : BitVec 20) | ret (sa : SReg) | jmpr (sd sa : SReg)
  | endTask | trap (imm : BitVec 18) | bkpt (imm : BitVec 18)
  | waitk (ka kb kc : Tok) | idleF (sa : SReg) | idleN (sa sb : SReg)
  | sysr (sd : SReg) (sel : BitVec 18) | sysw (sd : SReg) (sel : BitVec 18)
  | tret | tretSkip | ctxr (sd sa : SReg) | ctxw (sa sb : SReg) | eqreplay (sd sa : SReg)
  -- X slot: types (08 R158, R159)
  | tdecl (t : TReg) (idx : BitVec 18) | tdecls (t : TReg) (sa sb : SReg)
  | tget (sd : SReg) (t : TReg) (high resolve : Bool)
  | bind (b : BReg) (sa : SReg) | unbind (mask : BitVec 16) | bget (sd : SReg) (b : BReg)
  | tchk (pd : PReg) (t : TReg) (sb : SReg) (mask : BitVec 4) (assert : Bool)
  | tclear (t : TReg) | text (sd : SReg) (t : TReg) (k : BitVec 2) (frame : Bool)
  -- G slot
  | gNop
  | ld8 (g : GSlot) | ld8u (g : GSlot) | ld16 (g : GSlot) | ld16u (g : GSlot) | ld32 (g : GSlot)
  | ld32u (g : GSlot) | ld64 (g : GSlot)
  | st8 (g : GSlot) | st16 (g : GSlot) | st32 (g : GSlot) | st64 (g : GSlot)
  | ldp (g : GSlot)
  | aadd (g : GSlot) | aand (g : GSlot) | aor (g : GSlot) | axor (g : GSlot) | amin (g : GSlot) | amax (g : GSlot)
  | aminu (g : GSlot) | amaxu (g : GSlot) | aswap (g : GSlot) | acas (g : GSlot) | afadd (g : GSlot)
  | fence (g : GSlot) | drain (g : GSlot) | acq (g : GSlot) | rel (g : GSlot)
  | pref (g : GSlot) | prefw (g : GSlot) | pin (g : GSlot) | unpin (g : GSlot)
  | invl (g : GSlot) | invlAll (g : GSlot) | wback (g : GSlot)
  | binit (g : GSlot) | barrive (g : GSlot) | bexpect (g : GSlot) | bwait (g : GSlot) | btest (g : GSlot)
  | setf (g : GSlot) | sete (g : GSlot) | testf (g : GSlot)
  | qsplit (g : GSlot) | qjoin (g : GSlot) | qret (g : GSlot) | qretQw (g : GSlot) | qwait (g : GSlot)
  | qread (g : GSlot) | spawn (g : GSlot)
  | subscrPush (g : GSlot) | subscrPull (g : GSlot) | subcan (g : GSlot) | slotdone (g : GSlot)
  | rseed (g : GSlot) | rnext (g : GSlot) | escal (g : GSlot) | lrec (g : GSlot) | lcommit (g : GSlot)
  -- V slots
  | vNop (p : Pipe)
  | vadd (p : Pipe) (v : VSlot) | vsub (p : Pipe) (v : VSlot) | vmul (p : Pipe) (v : VSlot) | vfma (p : Pipe) (v : VSlot)
  | vmin (p : Pipe) (v : VSlot) | vmax (p : Pipe) (v : VSlot) | vabs (p : Pipe) (v : VSlot) | vneg (p : Pipe) (v : VSlot)
  | vrcp (p : Pipe) (v : VSlot) | vrsq (p : Pipe) (v : VSlot) | vsqrt (p : Pipe) (v : VSlot) | vexp2 (p : Pipe) (v : VSlot)
  | vlog2 (p : Pipe) (v : VSlot) | vtanh (p : Pipe) (v : VSlot) | vsigm (p : Pipe) (v : VSlot)
  | vand (p : Pipe) (v : VSlot) | vor (p : Pipe) (v : VSlot) | vxor (p : Pipe) (v : VSlot) | vshl (p : Pipe) (v : VSlot)
  | vshr (p : Pipe) (v : VSlot) | vclamp (p : Pipe) (v : VSlot) | vscale (p : Pipe) (v : VSlot)
  | vcmp (p : Pipe) (v : VSlot) | vsel (p : Pipe) (v : VSlot) | vbcast (p : Pipe) (v : VSlot) | viota (p : Pipe) (v : VSlot)
  | vmask (p : Pipe) (v : VSlot) | vmov (p : Pipe) (v : VSlot)
  | vcvt (p : Pipe) (v : VSlot) | vcvtq (p : Pipe) (v : VSlot) | vcvts (p : Pipe) (v : VSlot)
  | vreshape (p : Pipe) (v : VSlot) | vtrans (p : Pipe) (v : VSlot) | vcast (p : Pipe) (v : VSlot)
  | vrsum (p : Pipe) (v : VSlot) | vrmax (p : Pipe) (v : VSlot) | vrmin (p : Pipe) (v : VSlot) | vrargmax (p : Pipe) (v : VSlot)
  | vrdraw (p : Pipe) (v : VSlot) | vrlse (p : Pipe) (v : VSlot) | vscan (p : Pipe) (v : VSlot) | vdmerge (p : Pipe) (v : VSlot)
  | vcompact (p : Pipe) (v : VSlot) | vperm (p : Pipe) (v : VSlot) | vroute (p : Pipe) (v : VSlot) | vhist (p : Pipe) (v : VSlot)
  -- M slot
  | mNop
  | mma (m : MSlot) | mmaz (m : MSlot) | mabsd (m : MSlot) | mmaxp (m : MSlot) | mminp (m : MSlot)
  | mrank (m : MSlot) | mrankc (m : MSlot) | msparse (m : MSlot) | mbload (m : MSlot)
  -- C slot
  | cNop
  | tload (c : CSlot) | tstore (c : CSlot) | tloads (c : CSlot) | tstores (c : CSlot) | cpin (c : CSlot) | cpout (c : CSlot)
  | gather (c : CSlot) | scatter (c : CSlot) | preft (c : CSlot)
  | send (c : CSlot) | recv (c : CSlot) | recvadd (c : CSlot) | recvdraw (c : CSlot) | mcast (c : CSlot) | amsg (c : CSlot)
  | ttset (c : CSlot) | ttfire (c : CSlot) | ctload (c : CSlot)
  -- events of a context and its engines
  | pendingValueWritten (cx uid : Nat)
  | frozenWrite (cx : Nat)
  | translationWalk (die n : Nat)
  | matrixOpStart (core : Nat) | matrixOpComplete (core : Nat)
  | vectorOpStart (core : Nat) (p : Pipe) | vectorOpComplete (core : Nat) (p : Pipe)
  | copyOpStart (core uid : Nat) | copyOpComplete (core uid : Nat)
  | engineFoundFault (cx : Nat)
  | postCommitError (cx uid : Nat) (subcode : BitVec 4)
  | barrierUpdate (cx : Nat)
  -- roots, launches, watchdog
  | rootReturn (die n : Nat)
  | launchCompletion (lid : Word)
  | forcedRelease (cx : Nat)
  | failureInterval (lid : Word)
  | watchdogTick (lid : Word)
  -- queues and scheduling
  | notifyRegisterWrite (die : BitVec 2) (offset size : Nat) (value : Word)
  | queueMap (die : BitVec 2) (q : BitVec 12)
  | queueUnmap (die : BitVec 2) (q : BitVec 12)
  | launchPacket (die : BitVec 2) (q : BitVec 12)
  | noOp (die : BitVec 2) (q : BitVec 12)
  | tileRecord (die : BitVec 2) (q : BitVec 12)
  | dealTask (lid : Word)
  | claimSeat (lid : Word)
  | schedulerReceipt (die n : Nat)
  -- pre-emption and management requests
  | preemptLaunch (lid : Word) | saveEntry (lid : Word)
  | restoreLaunch (lid : Word) | restoreSeatClaim (lid : Word) (core : Nat)
  | cancelLaunch (lid : Word)
  | invalidateInstructionCaches | invalidateTranslationCaches
  | resumeParked (cx : Nat) | failParked (cx : Nat)
  | clearQueueFrozen (q : Word)
  | setRoutingEntry (dst port : Word)
  | loadFirmware (addr bytes : Word)
  | clearCounters
  | retrainLinks
  | powerLimitWrite (v : Word)
  | mgmtRegisterWrite (offset : Nat) (v : Word)
  | governorSample (average : Nat)
  | powerGate (core : Nat) | coreWake (core : Nat)
  | deviceReset (brgSel : Bool) (grpPos : BitVec 4)
  -- subscription engines
  | pushSlotFilling (cx : Nat) (ring : BitVec 4) | pushSlotFull (cx : Nat) (ring : BitVec 4)
  | pullSlotDraining (cx : Nat) (ring : BitVec 4) | pullSlotDrained (cx : Nat) (ring : BitVec 4)
  -- link messages
  | read (h : MsgHdr) (space : BitVec 8) (size : Nat) (addr : Word)
  | readAnswer (h : MsgHdr) (status : BitVec 3) (size : Nat) (addr : Word) (data : List Byte)
  | write (h : MsgHdr) (space : BitVec 8) (size : Nat) (addr mask : Word) (data : List Byte)
  | writeAnswer (h : MsgHdr) (status : BitVec 3) (size : Nat) (addr : Word)
  | atomic (h : MsgHdr) (op scope : BitVec 8) (addr operand swap : Word)
  | atomicAnswer (h : MsgHdr) (status : BitVec 3) (addr old : Word)
  | sendReady (h : MsgHdr) (r : ReadyMsg)
  | pull (h : MsgHdr) (refusal : Bool) (sender : BitVec 10) (core entry gtag : Nat) (endpoint : Word) (tag : BitVec 32)
  | pullData (h : MsgHdr) (sender : BitVec 10) (core entry gtag : Nat) (endpoint : Word) (image : List Byte)
  | weightReturn (h : MsgHdr) (device : BitVec 16) (domain : BitVec 8) (gtag : Nat) (w : Word)
  | faultNotice (n : NoticeMsg)
  | activeMessage (h : MsgHdr) (template : List Byte) (endpoint : Word) (sender : BitVec 10) (gtag : Nat) (kernel : Word)
  | loadSummaryToken (h : MsgHdr) (t : LoadToken)
  | tokenHoldExpiry
  | tokenLossTimeout
  | stealRequest (h : MsgHdr) (r : StealReq)
  | stealGrant (h : MsgHdr) (victim : BitVec 10) (jobTag : BitVec 32) (records : List (List Byte))
  | tileRecordMessage (h : MsgHdr) (victim : BitVec 10) (record : List Byte)
  | laneLock (p : PortId)
  | trainingOfferTimer (p : PortId)
  | trainingOffer (p : PortId) (o : Training)
  | trainingAccept (p : PortId) (o : Training)
  | linkIdle (p : PortId) (ackValid : Bool) (ack : BitVec 12)
  | replayTimeout (p : PortId)
  -- host bridge, errors and resets
  | hostBar0Access (write : Bool) (offset size : Nat) (value : Word)
  | hostBar2Access (op : HostOp) (offset size : Nat) (data : List Byte)
  | attestationRequest (nonce : List Byte)
  | doeDiscovery (index : Nat)
  | softError (site : ErrSite) (correctable : Bool)
  | coreReset (core : Nat) (leave : Bool)
  | discardedFlit (p : PortId) (why : FlitFlaw)
  | hostBar4Access (write : Bool) (offset size : Nat) (value : Word)
deriving DecidableEq, Repr

end Sys2Proof
end

