-- ==== Sys2Proof/WellFormed.lean ====
section
/-! DEFINITION. Which instructions the encoding rules allow: unused fields zero (06 R108), upper bits of wide register fields
zero (R107), scopes (R14, R114), hint bytes (Table 06-8), chains (R112, R151, R178) and the per-opcode cases of R103. -/
namespace Sys2Proof

/-- A predicate index in a 6-bit field: the upper three bits are zero (06 R107). -/
def predField (r : SReg) : Bool := r.toNat < 8

/-- A scope byte: scope 0 to 6 in [2:0], [7:3] zero (01 R14, 06 R114). -/
def scopeByte (h : BitVec 8) : Bool := h.toNat < 7

/-- A hint byte: bit [7] is zero (06 Table 06-8). -/
def hintByte (h : BitVec 8) : Bool := h.toNat < 128

/-- The selectors of Table 07-8. -/
def knownSelector (sel : BitVec 18) : Bool :=
  sel.toNat ∈ [0x0, 0x1, 0x2, 0x3, 0x4, 0x5, 0x6, 0x10, 0x11, 0x20, 0x21, 0x22, 0x23, 0x24, 0x25, 0x30, 0x31, 0x32, 0x33, 0x34]

namespace GSlot
/-- No field but the ones named is used: 06 R108 for the G slot. -/
def onlyUses (g : GSlot) (sd sa sb hint stride disp : Bool) : Bool :=
  (sd || g.sd == 0) && (sa || g.sa == 0) && (sb || g.sb == 0) && (hint || g.hint == 0) &&
  (stride || g.stride == 0) && (disp || g.disp == 0)
/-- A load, store or prefetch form with a hint byte. -/
def wfMem (g : GSlot) : Bool := hintByte g.hint
/-- A memory form of access size 0 with a hint byte and no register (PREF, PREFW). -/
def wfPref (g : GSlot) : Bool := hintByte g.hint && g.onlyUses false true true true false true
/-- An atomic (13 R241): scope byte. -/
def wfAtomic (g : GSlot) : Bool := scopeByte g.hint
/-- A memory form of access size 0 with a scope (ACQ, REL, BARRIVE, BWAIT). -/
def wfScoped (g : GSlot) : Bool := scopeByte g.hint && g.stride == 0
/-- A memory form of access size 0 with no hint (BINIT, BEXPECT, LREC). -/
def wfPlain (g : GSlot) : Bool := g.onlyUses true true true false false true
end GSlot

namespace VSlot
/-- Chain codes 1 to 5, 13 and 14 are binary (06 R112). -/
def binaryCode (c : BitVec 5) : Bool := (1 ≤ c.toNat && c.toNat ≤ 5) || c.toNat == 13 || c.toNat == 14
/-- The chain rules of 06 R112 and 10 R178 for an op1 that may take a chain; `tri`: tc belongs to op1. -/
def wfChain (v : VSlot) (tri : Bool) : Bool :=
  v.op2.toNat < 16 && v.op3.toNat < 16 &&
  (v.op3 == 0 || v.op2 != 0) &&
  (v.op2 != 15 || v.op3 == 0) &&
  (!tri || !binaryCode v.op3) &&
  (tri || binaryCode v.op2 || v.tc == 0) &&
  ((if tri then binaryCode v.op2 else binaryCode v.op3) || v.sx == 0)
/-- No chain, and tc zero: the forms that take none (10 R178, 11 R194, 08 R151). -/
def noChain (v : VSlot) : Bool := v.op2 == 0 && v.op3 == 0 && v.tc == 0
/-- A two-source chained form. -/
def wfBin (v : VSlot) : Bool := v.wfChain false
/-- A three-source chained form. -/
def wfTri (v : VSlot) : Bool := v.wfChain true
/-- A one-source chained form. -/
def wfUn (v : VSlot) : Bool := v.wfChain false && v.tb == 0
/-- A form without chain that uses the named fields beside td. -/
def wfFixed (v : VSlot) (ta tb sx : Bool) : Bool :=
  v.noChain && (ta || v.ta == 0) && (tb || v.tb == 0) && (sx || v.sx == 0)
end VSlot

namespace MSlot
/-- Unused M fields are zero; `flag` is the only flag bit the opcode uses (09 Table 09-3). -/
def wfFields (m : MSlot) (td ta tb tx : Bool) (flag : BitVec 4) : Bool :=
  (td || m.td == 0) && (ta || m.ta == 0) && (tb || m.tb == 0) && (tx || m.tx == 0) && m.sx == 0 && m.imm == 0 &&
  (m.flags == 0 || m.flags == flag)
end MSlot

namespace CSlot
/-- A copy form of 13 Table 13-2. -/
def wfCopy (c : CSlot) (t : Bool) : Bool := hintByte c.hint && (t || c.t == 0)
/-- A fabric form of 16 Table 16-4: no hint, stride zero. -/
def wfFabric (c : CSlot) (t w : Bool) : Bool :=
  c.hint == 0 && c.stride == 0 && (t || c.t == 0) && (w || c.w == 0)
end CSlot

/-- The encoding rules, instruction by instruction; for an event, its agent exists. -/
def wellFormed : Instr → Bool
  | .shli _ _ imm | .shri _ _ imm | .srai _ _ imm => imm.toNat < 64
  | .sysr _ sel | .sysw _ sel => knownSelector sel
  | .ld8 g | .ld8u g | .ld16 g | .ld16u g | .ld32 g | .ld32u g | .ld64 g
  | .st8 g | .st16 g | .st32 g | .st64 g => g.wfMem
  | .ldp g => g.sb.toNat < 8
  | .aadd g | .aand g | .aor g | .axor g | .amin g | .amax g | .aminu g | .amaxu g | .aswap g | .afadd g => g.wfAtomic
  | .acas g => g.wfAtomic && g.sd.toNat % 2 == 0
  | .fence g | .drain g => scopeByte g.hint && g.onlyUses false false false true false false
  | .acq g | .rel g | .barrive g | .bwait g => g.wfScoped
  | .pref g | .prefw g => g.wfPref
  | .pin g => predField g.sd && g.stride == 0
  | .unpin g => g.onlyUses false true true true false true
  | .invl g | .wback g => g.onlyUses false true true false false true
  | .invlAll g => g.sd == 1 && g.onlyUses true false false false false false
  | .binit g | .bexpect g => g.wfPlain
  | .lrec g => g.wfPlain && predField g.sd
  | .btest g => g.wfScoped && predField g.sd
  | .setf g | .sete g => g.onlyUses false true true false true true
  | .testf g => predField g.sd && g.onlyUses true true true false true true
  | .qsplit g => g.sd != 0 && g.onlyUses true false false false false false
  | .qjoin g => predField g.sd && g.onlyUses true true false false false false
  | .qret g => g.onlyUses false true false false false false
  | .qretQw g => g.sd == 1 && g.onlyUses true false false false false false
  | .qwait g => predField g.sd && g.onlyUses true false false false false false
  | .qread g => g.disp.toNat < 3 && g.onlyUses true false false false false true
  | .spawn g => g.disp.toNat < 16 && g.onlyUses true true true false false true
  | .lcommit g => g.onlyUses false true false false false false
  | .subscrPush g => g.sd.toNat < 16 && g.stride == 0 && 0 < g.disp.toInt
  | .subscrPull g => 16 ≤ g.sd.toNat && g.sd.toNat < 32 && g.stride == 0 && 0 < g.disp.toInt
  | .subcan g => g.sd.toNat < 16 && g.onlyUses true false false false false false
  | .slotdone g => g.sd.toNat < 16 && g.onlyUses true true false false false false
  | .rseed g => g.onlyUses false true true false false false
  | .rnext g | .escal g => g.onlyUses true false false false false false
  | .vadd _ v | .vsub _ v | .vmul _ v | .vmin _ v | .vmax _ v | .vscale _ v => v.wfBin
  | .vfma _ v | .vclamp _ v | .vsel _ v => v.wfTri
  | .vabs _ v | .vneg _ v | .vrcp _ v | .vrsq _ v | .vsqrt _ v | .vexp2 _ v | .vlog2 _ v | .vtanh _ v | .vsigm _ v => v.wfUn
  | .vand _ v | .vor _ v | .vxor _ v | .vshl _ v | .vshr _ v => v.wfFixed true true false
  | .vcmp _ v | .vroute _ v => v.wfFixed true true true
  | .vbcast _ v | .viota _ v | .vmask _ v => v.wfFixed false false true
  | .vmov _ v | .vcvt _ v | .vtrans _ v | .vrsum _ v | .vrmax _ v | .vrmin _ v | .vrargmax _ v | .vrlse _ v | .vscan _ v =>
      v.wfFixed true false false
  | .vcvtq _ v | .vcvts _ v | .vdmerge _ v | .vcompact _ v | .vperm _ v => v.wfFixed true true false
  | .vreshape _ v | .vcast _ v | .vrdraw _ v | .vhist _ v => v.wfFixed true false true
  | .mma m | .mmaz m | .mabsd m | .mmaxp m | .mminp m => m.wfFields true true true false 1
  | .mrank m | .mrankc m => m.wfFields true true false false 2
  | .msparse m => m.wfFields true true true true 1
  | .mbload m => m.wfFields false false true false 1
  | .tload c | .tstore c | .tloads c | .tstores c | .gather c | .scatter c => c.wfCopy true
  | .cpin c | .cpout c | .preft c => c.wfCopy false
  | .ctload c => c.t == 0 && c.sa == 0 && c.sb == 0 && c.hint.toNat < 2 && c.stride == 0
  | .send c | .recv c | .recvadd c | .recvdraw c => c.wfFabric true false
  | .mcast c => c.wfFabric true true && c.w != 0
  | .ttset c => c.wfFabric true true
  | .amsg c => c.wfFabric false false
  | .ttfire c => c.wfFabric false true
  | .pendingValueWritten cx _ | .frozenWrite cx | .engineFoundFault cx | .postCommitError cx _ _ | .barrierUpdate cx
  | .forcedRelease cx | .resumeParked cx | .failParked cx | .pushSlotFilling cx _ | .pushSlotFull cx _
  | .pullSlotDraining cx _ | .pullSlotDrained cx _ => cx < 1280
  | .matrixOpStart core | .matrixOpComplete core | .vectorOpStart core _ | .vectorOpComplete core _ | .copyOpStart core _
  | .copyOpComplete core _ | .restoreSeatClaim _ core | .powerGate core | .coreWake core | .coreReset core _ => core < 160
  | .translationWalk die _ | .rootReturn die _ | .schedulerReceipt die _ => die < 4
  | _ => true

end Sys2Proof
end

