-- ==== Sys2Proof/Decode.lean ====
section
/-! DEFINITION. The bundle decoder (06 R98 to R115), total on any bytes and rejecting by name, and the encoder. -/
namespace Sys2Proof

/-- The two encoding faults a slot can have (06 R115). -/
inductive EncFault where
  | illegalEncoding | illegalOp
deriving DecidableEq, Repr

/-- The slot of a pipe. -/
def Pipe.slot : Pipe → Slot
  | .p0 => .v0
  | .p1 => .v1

/-- The bit of a slot in FAULT_SLOTS and in the header masks, in slot order (06 Table 06-1, 07 Table 07-8). -/
def Slot.bit : Slot → Nat
  | .x => 0 | .g => 1 | .v0 => 2 | .v1 => 3 | .m => 4 | .c => 5

/-- Accept an instruction when its unused fields are zero (06 R108). -/
def okIf (b : Bool) (i : Instr) : Except EncFault Instr := if b then .ok i else .error .illegalEncoding

/-- The low bits of a register field. -/
def lo3 (r : BitVec 6) : BitVec 3 := r.extractLsb' 0 3
def lo4 (r : BitVec 6) : BitVec 4 := r.extractLsb' 0 4
def lo5 (r : BitVec 6) : BitVec 5 := r.extractLsb' 0 5

/-- The X slot cut at the field borders that its four formats share (06 Table 06-4). -/
structure XFields where
  op : BitVec 8
  sd : BitVec 6
  sa : BitVec 6
  sb : BitVec 6
  fn : BitVec 6
deriving DecidableEq, Repr

namespace XFields
/-- imm12 of format XI. -/
def imm12 (f : XFields) : BitVec 12 := f.sb ++ f.fn
/-- imm18 of format XL. -/
def imm18 (f : XFields) : BitVec 18 := f.sa ++ f.sb ++ f.fn
/-- disp20, p and sense of format XB. -/
def disp20 (f : XFields) : BitVec 20 := f.sd.extractLsb' 0 2 ++ f.sa ++ f.sb ++ f.fn
def bp (f : XFields) : BitVec 3 := f.sd.extractLsb' 3 3
def bsense (f : XFields) : Bool := f.sd.getLsbD 2
end XFields

/-- The fields of a slot word: 06 R110 to R113. -/
def xFields (w : BitVec 32) : XFields :=
  ⟨w.extractLsb' 24 8, w.extractLsb' 18 6, w.extractLsb' 12 6, w.extractLsb' 6 6, w.extractLsb' 0 6⟩
def gFields (w : BitVec 64) : BitVec 8 × GSlot :=
  (w.extractLsb' 56 8, ⟨w.extractLsb' 50 6, w.extractLsb' 44 6, w.extractLsb' 38 6, w.extractLsb' 30 8, w.extractLsb' 24 6,
    w.extractLsb' 0 24⟩)
def vFields (w : BitVec 64) : BitVec 6 × VSlot :=
  (w.extractLsb' 58 6, ⟨w.extractLsb' 53 5, w.extractLsb' 48 5, w.extractLsb' 43 5, w.extractLsb' 38 5, w.extractLsb' 33 5,
    w.extractLsb' 28 5, w.extractLsb' 22 6, w.extractLsb' 20 2, w.extractLsb' 15 5, w.extractLsb' 10 5, w.extractLsb' 5 5,
    w.extractLsb' 0 5⟩)
def mFields (w : BitVec 64) : BitVec 6 × MSlot :=
  (w.extractLsb' 58 6, ⟨w.extractLsb' 53 5, w.extractLsb' 48 5, w.extractLsb' 43 5, w.extractLsb' 38 5, w.extractLsb' 32 6,
    w.extractLsb' 28 4, w.extractLsb' 23 5, w.extractLsb' 18 5, w.extractLsb' 13 5, w.extractLsb' 8 5, w.extractLsb' 0 8⟩)
def cFields (w : BitVec 64) : BitVec 6 × CSlot :=
  (w.extractLsb' 58 6, ⟨w.extractLsb' 53 5, w.extractLsb' 45 8, w.extractLsb' 39 6, w.extractLsb' 33 6, w.extractLsb' 25 8,
    w.extractLsb' 20 5, w.extractLsb' 15 5, w.extractLsb' 10 5, w.extractLsb' 5 5, w.extractLsb' 0 5⟩)

/-- The X instruction of an opcode and its fields: the format of Table 06-4 with its unused fields checked zero (06 R108). -/
def xOfFields (f : XFields) : Except EncFault Instr :=
  match f.op.toNat with
  | 0x00 => okIf (f.sd == 0 && f.sa == 0 && f.sb == 0 && f.fn == 0) .nop
  | 0x01 => okIf (f.fn == 0) (.add f.sd f.sa f.sb)
  | 0x02 => okIf (f.fn == 0) (.sub f.sd f.sa f.sb)
  | 0x03 => okIf (f.fn == 0) (.and f.sd f.sa f.sb)
  | 0x04 => okIf (f.fn == 0) (.or f.sd f.sa f.sb)
  | 0x05 => okIf (f.fn == 0) (.xor f.sd f.sa f.sb)
  | 0x06 => okIf (f.fn == 0) (.shl f.sd f.sa f.sb)
  | 0x07 => okIf (f.fn == 0) (.shr f.sd f.sa f.sb)
  | 0x08 => okIf (f.fn == 0) (.sra f.sd f.sa f.sb)
  | 0x09 => okIf (f.fn == 0) (.mul f.sd f.sa f.sb)
  | 0x0A => okIf (f.fn == 0) (.mulh f.sd f.sa f.sb)
  | 0x0B => okIf (f.fn == 0) (.mulhu f.sd f.sa f.sb)
  | 0x0C => okIf (f.fn == 0) (.div f.sd f.sa f.sb)
  | 0x0D => okIf (f.fn == 0) (.divu f.sd f.sa f.sb)
  | 0x0E => okIf (f.fn == 0) (.rem f.sd f.sa f.sb)
  | 0x0F => okIf (f.fn == 0) (.remu f.sd f.sa f.sb)
  | 0x10 => okIf (f.fn == 0) (.min f.sd f.sa f.sb)
  | 0x11 => okIf (f.fn == 0) (.max f.sd f.sa f.sb)
  | 0x12 => okIf (f.fn == 0) (.minu f.sd f.sa f.sb)
  | 0x13 => okIf (f.fn == 0) (.maxu f.sd f.sa f.sb)
  | 0x14 => okIf (f.sb == 0 && f.fn == 0) (.clz f.sd f.sa)
  | 0x15 => okIf (f.sb == 0 && f.fn == 0) (.ctz f.sd f.sa)
  | 0x16 => okIf (f.sb == 0 && f.fn == 0) (.popc f.sd f.sa)
  | 0x17 => okIf (f.fn.toNat < 8) (.sel f.sd (lo3 f.fn) f.sa f.sb)
  | 0x20 => okIf (true) (.addi f.sd f.sa f.imm12)
  | 0x21 => okIf (true) (.andi f.sd f.sa f.imm12)
  | 0x22 => okIf (true) (.ori f.sd f.sa f.imm12)
  | 0x23 => okIf (true) (.xori f.sd f.sa f.imm12)
  | 0x24 => okIf (true) (.shli f.sd f.sa f.imm12)
  | 0x25 => okIf (true) (.shri f.sd f.sa f.imm12)
  | 0x26 => okIf (true) (.srai f.sd f.sa f.imm12)
  | 0x27 => okIf (true) (.muli f.sd f.sa f.imm12)
  | 0x28 => okIf (true) (.li f.sd f.imm18)
  | 0x29 => okIf (true) (.lih f.sd f.imm18)
  | 0x30 => okIf (predField f.sd && f.fn == 0) (.cmpeq (lo3 f.sd) f.sa f.sb)
  | 0x31 => okIf (predField f.sd && f.fn == 0) (.cmpne (lo3 f.sd) f.sa f.sb)
  | 0x32 => okIf (predField f.sd && f.fn == 0) (.cmplt (lo3 f.sd) f.sa f.sb)
  | 0x33 => okIf (predField f.sd && f.fn == 0) (.cmpltu (lo3 f.sd) f.sa f.sb)
  | 0x34 => okIf (predField f.sd && f.fn == 0) (.cmple (lo3 f.sd) f.sa f.sb)
  | 0x35 => okIf (predField f.sd && f.fn == 0) (.cmpleu (lo3 f.sd) f.sa f.sb)
  | 0x36 => okIf (predField f.sd) (.cmpeqi (lo3 f.sd) f.sa f.imm12)
  | 0x37 => okIf (predField f.sd) (.cmplti (lo3 f.sd) f.sa f.imm12)
  | 0x38 => okIf (predField f.sd && predField f.sa && predField f.sb && f.fn == 0) (.pand (lo3 f.sd) (lo3 f.sa) (lo3 f.sb))
  | 0x39 => okIf (predField f.sd && predField f.sa && predField f.sb && f.fn == 0) (.por (lo3 f.sd) (lo3 f.sa) (lo3 f.sb))
  | 0x3A => okIf (predField f.sd && predField f.sa && predField f.sb && f.fn == 0) (.pxor (lo3 f.sd) (lo3 f.sa) (lo3 f.sb))
  | 0x3B => okIf (predField f.sd && predField f.sa && f.sb == 0 && f.fn == 0) (.pnot (lo3 f.sd) (lo3 f.sa))
  | 0x3C => okIf (predField f.sd && predField f.sa && f.sb == 0 && f.fn == 0) (.pmov (lo3 f.sd) (lo3 f.sa))
  | 0x40 => okIf (f.fn.toNat < 8) (.lea f.sd f.sa f.sb (lo3 f.fn))
  | 0x48 => okIf (f.fn == 0) (.fadd f.sd f.sa f.sb)
  | 0x49 => okIf (f.fn == 0) (.fsub f.sd f.sa f.sb)
  | 0x4A => okIf (f.fn == 0) (.fmul f.sd f.sa f.sb)
  | 0x4B => okIf (f.fn == 0) (.fdiv f.sd f.sa f.sb)
  | 0x4C => okIf (f.fn == 0) (.fmin f.sd f.sa f.sb)
  | 0x4D => okIf (f.fn == 0) (.fmax f.sd f.sa f.sb)
  | 0x4E => okIf (predField f.sd && f.fn == 0) (.fcmplt (lo3 f.sd) f.sa f.sb)
  | 0x4F => okIf (predField f.sd && f.fn == 0) (.fcmpeq (lo3 f.sd) f.sa f.sb)
  | 0x50 => okIf (f.sb == 0 && f.fn == 0) (.ftoi f.sd f.sa)
  | 0x51 => okIf (f.sb == 0 && f.fn == 0) (.itof f.sd f.sa)
  | 0x52 => okIf (f.sb == 0 && f.fn == 0) (.fexp2 f.sd f.sa)
  | 0x53 => okIf (f.sb == 0 && f.fn == 0) (.flog2 f.sd f.sa)
  | 0x60 => okIf (f.sd.toNat < 4) (.br f.disp20)
  | 0x61 => okIf (true) (.brc f.bp f.bsense f.disp20)
  | 0x62 => okIf (f.sa == 0) (.bdnz f.sd f.imm12)
  | 0x63 => okIf (f.sd.toNat < 4) (.call f.disp20)
  | 0x64 => okIf (f.sd == 0 && f.sb == 0 && f.fn == 0) (.ret f.sa)
  | 0x65 => okIf (f.sb == 0 && f.fn == 0) (.jmpr f.sd f.sa)
  | 0x66 => okIf (f.sd == 0 && f.sa == 0 && f.sb == 0 && f.fn == 0) (.endTask)
  | 0x67 => okIf (f.sd == 0) (.trap f.imm18)
  | 0x68 => okIf (f.sd == 0) (.bkpt f.imm18)
  | 0x69 => okIf (f.sd.toNat < 32 && f.sa.toNat < 32 && f.sb.toNat < 32 && f.fn == 0) (.waitk (lo5 f.sd) (lo5 f.sa) (lo5 f.sb))
  | 0x6A => if f.fn == 0 then okIf (f.sd == 0 && f.sb == 0) (.idleF f.sa) else okIf (f.fn == 1 && f.sd == 0) (.idleN f.sa f.sb)
  | 0x70 => okIf (true) (.sysr f.sd f.imm18)
  | 0x71 => okIf (true) (.sysw f.sd f.imm18)
  | 0x72 => okIf (f.sd == 0 && f.sa == 0 && f.sb == 0 && f.fn.toNat < 2) (if f.fn == 0 then .tret else .tretSkip)
  | 0x73 => okIf (f.sb == 0 && f.fn == 0) (.ctxr f.sd f.sa)
  | 0x74 => okIf (f.sd == 0 && f.fn == 0) (.ctxw f.sa f.sb)
  | 0x75 => okIf (f.sb == 0 && f.fn == 0) (.eqreplay f.sd f.sa)
  | 0x80 => okIf (f.sd.toNat < 32) (.tdecl (lo5 f.sd) f.imm18)
  | 0x81 => okIf (f.sd.toNat < 32 && f.fn == 0) (.tdecls (lo5 f.sd) f.sa f.sb)
  | 0x82 => okIf (f.sa.toNat < 32 && f.sb == 0 && f.fn.toNat < 4) (.tget f.sd (lo5 f.sa) (f.fn.getLsbD 0) (f.fn.getLsbD 1))
  | 0x83 => okIf (f.sd.toNat < 16 && f.sb == 0 && f.fn == 0) (.bind (lo4 f.sd) f.sa)
  | 0x84 => okIf (f.sd == 0 && f.imm18.toNat < 65536) (.unbind (f.imm18.extractLsb' 0 16))
  | 0x85 => okIf (f.sa.toNat < 16 && f.sb == 0 && f.fn == 0) (.bget f.sd (lo4 f.sa))
  | 0x86 => okIf (predField f.sd && f.sa.toNat < 32 && f.fn.toNat < 32) (.tchk (lo3 f.sd) (lo5 f.sa) f.sb (lo4 f.fn) (f.fn.getLsbD 4))
  | 0x87 => okIf (f.sd.toNat < 32 && f.sa == 0 && f.sb == 0 && f.fn == 0) (.tclear (lo5 f.sd))
  | 0x88 => okIf (f.sa.toNat < 32 && f.sb == 0 && f.fn.toNat < 8) (.text f.sd (lo5 f.sa) (f.fn.extractLsb' 0 2) (f.fn.getLsbD 2))
  | _ => .error .illegalOp

/-- The G instruction of an opcode and its fields (06 Table 06-9). -/
def gOfFields (op : BitVec 8) (g : GSlot) : Except EncFault Instr :=
  match op.toNat with
  | 0x00 => okIf (g == GSlot.mk 0 0 0 0 0 0) .gNop
  | 0x01 => .ok (.ld8 g)
  | 0x02 => .ok (.ld8u g)
  | 0x03 => .ok (.ld16 g)
  | 0x04 => .ok (.ld16u g)
  | 0x05 => .ok (.ld32 g)
  | 0x06 => .ok (.ld32u g)
  | 0x07 => .ok (.ld64 g)
  | 0x08 => .ok (.st8 g)
  | 0x09 => .ok (.st16 g)
  | 0x0A => .ok (.st32 g)
  | 0x0B => .ok (.st64 g)
  | 0x0C => .ok (.ldp g)
  | 0x10 => .ok (.aadd g)
  | 0x11 => .ok (.aand g)
  | 0x12 => .ok (.aor g)
  | 0x13 => .ok (.axor g)
  | 0x14 => .ok (.amin g)
  | 0x15 => .ok (.amax g)
  | 0x16 => .ok (.aminu g)
  | 0x17 => .ok (.amaxu g)
  | 0x18 => .ok (.aswap g)
  | 0x19 => .ok (.acas g)
  | 0x1A => .ok (.afadd g)
  | 0x20 => .ok (.fence g)
  | 0x21 => .ok (.drain g)
  | 0x22 => .ok (.acq g)
  | 0x23 => .ok (.rel g)
  | 0x28 => .ok (.pref g)
  | 0x29 => .ok (.prefw g)
  | 0x2A => .ok (.pin g)
  | 0x2B => .ok (.unpin g)
  | 0x2D => .ok (.wback g)
  | 0x30 => .ok (.binit g)
  | 0x31 => .ok (.barrive g)
  | 0x32 => .ok (.bexpect g)
  | 0x33 => .ok (.bwait g)
  | 0x34 => .ok (.btest g)
  | 0x38 => .ok (.setf g)
  | 0x39 => .ok (.sete g)
  | 0x3A => .ok (.testf g)
  | 0x40 => .ok (.qsplit g)
  | 0x41 => .ok (.qjoin g)
  | 0x43 => .ok (.qwait g)
  | 0x44 => .ok (.qread g)
  | 0x48 => .ok (.spawn g)
  | 0x51 => .ok (.subcan g)
  | 0x52 => .ok (.slotdone g)
  | 0x58 => .ok (.rseed g)
  | 0x59 => .ok (.rnext g)
  | 0x60 => .ok (.escal g)
  | 0x68 => .ok (.lrec g)
  | 0x69 => .ok (.lcommit g)
  | 0x2C => .ok (if g.sd == 1 then .invlAll g else .invl g)
  | 0x42 => .ok (if g.sd == 1 then .qretQw g else .qret g)
  | 0x50 => .ok (if 16 ≤ g.sd.toNat then .subscrPull g else .subscrPush g)
  | _ => .error .illegalOp

/-- The V instruction of an opcode and its fields (06 Table 06-10). -/
def vOfFields (p : Pipe) (op : BitVec 6) (v : VSlot) : Except EncFault Instr :=
  match op.toNat with
  | 0x00 => okIf (v == VSlot.mk 0 0 0 0 0 0 0 0 0 0 0 0) (.vNop p)
  | 0x01 => .ok (.vadd p v)
  | 0x02 => .ok (.vsub p v)
  | 0x03 => .ok (.vmul p v)
  | 0x04 => .ok (.vfma p v)
  | 0x05 => .ok (.vmin p v)
  | 0x06 => .ok (.vmax p v)
  | 0x07 => .ok (.vabs p v)
  | 0x08 => .ok (.vneg p v)
  | 0x09 => .ok (.vrcp p v)
  | 0x0A => .ok (.vrsq p v)
  | 0x0B => .ok (.vsqrt p v)
  | 0x0C => .ok (.vexp2 p v)
  | 0x0D => .ok (.vlog2 p v)
  | 0x0E => .ok (.vtanh p v)
  | 0x0F => .ok (.vsigm p v)
  | 0x10 => .ok (.vand p v)
  | 0x11 => .ok (.vor p v)
  | 0x12 => .ok (.vxor p v)
  | 0x13 => .ok (.vshl p v)
  | 0x14 => .ok (.vshr p v)
  | 0x15 => .ok (.vclamp p v)
  | 0x16 => .ok (.vscale p v)
  | 0x17 => .ok (.vcmp p v)
  | 0x18 => .ok (.vsel p v)
  | 0x19 => .ok (.vbcast p v)
  | 0x1A => .ok (.viota p v)
  | 0x1B => .ok (.vmask p v)
  | 0x1C => .ok (.vmov p v)
  | 0x20 => .ok (.vcvt p v)
  | 0x21 => .ok (.vcvtq p v)
  | 0x22 => .ok (.vcvts p v)
  | 0x23 => .ok (.vreshape p v)
  | 0x24 => .ok (.vtrans p v)
  | 0x25 => .ok (.vcast p v)
  | 0x28 => .ok (.vrsum p v)
  | 0x29 => .ok (.vrmax p v)
  | 0x2A => .ok (.vrmin p v)
  | 0x2B => .ok (.vrargmax p v)
  | 0x2C => .ok (.vrdraw p v)
  | 0x2D => .ok (.vrlse p v)
  | 0x2E => .ok (.vscan p v)
  | 0x2F => .ok (.vdmerge p v)
  | 0x30 => .ok (.vcompact p v)
  | 0x31 => .ok (.vperm p v)
  | 0x32 => .ok (.vroute p v)
  | 0x33 => .ok (.vhist p v)
  | _ => .error .illegalOp

/-- The M instruction of an opcode and its fields (06 Table 06-11). -/
def mOfFields (op : BitVec 6) (m : MSlot) : Except EncFault Instr :=
  match op.toNat with
  | 0x00 => okIf (m == MSlot.mk 0 0 0 0 0 0 0 0 0 0 0) .mNop
  | 0x01 => .ok (.mma m)
  | 0x02 => .ok (.mmaz m)
  | 0x03 => .ok (.mabsd m)
  | 0x04 => .ok (.mmaxp m)
  | 0x05 => .ok (.mminp m)
  | 0x06 => .ok (.mrank m)
  | 0x07 => .ok (.mrankc m)
  | 0x08 => .ok (.msparse m)
  | 0x09 => .ok (.mbload m)
  | _ => .error .illegalOp

/-- The C instruction of an opcode and its fields (06 Table 06-11). -/
def cOfFields (op : BitVec 6) (c : CSlot) : Except EncFault Instr :=
  match op.toNat with
  | 0x00 => okIf (c == CSlot.mk 0 0 0 0 0 0 0 0 0 0) .cNop
  | 0x01 => .ok (.tload c)
  | 0x02 => .ok (.tstore c)
  | 0x03 => .ok (.tloads c)
  | 0x04 => .ok (.tstores c)
  | 0x05 => .ok (.cpin c)
  | 0x06 => .ok (.cpout c)
  | 0x07 => .ok (.gather c)
  | 0x08 => .ok (.scatter c)
  | 0x09 => .ok (.preft c)
  | 0x10 => .ok (.send c)
  | 0x11 => .ok (.recv c)
  | 0x12 => .ok (.recvadd c)
  | 0x13 => .ok (.recvdraw c)
  | 0x14 => .ok (.mcast c)
  | 0x15 => .ok (.amsg c)
  | 0x16 => .ok (.ttset c)
  | 0x17 => .ok (.ttfire c)
  | 0x20 => .ok (.ctload c)
  | _ => .error .illegalOp
/-- The encoding rules that need the whole instruction (06 R115): `wellFormed`. -/
def checked (r : Except EncFault Instr) : Except EncFault Instr :=
  match r with
  | .ok i => okIf (wellFormed i) i
  | .error e => .error e

/-- Chain codes 16 to 31 fault with ILLEGAL_OP (06 R112). -/
def chainCodesKnown (v : VSlot) : Bool := v.op2.toNat < 16 && v.op3.toNat < 16

/-- The decoder of one slot word.  A V slot with an unknown chain code is ILLEGAL_OP, whatever else is wrong with it (06 R112) (DESIGN CHOICE, log 95). -/
def decodeSlot (k : Slot) (w : BitVec 64) : Except EncFault Instr :=
  match k with
  | .x => checked (xOfFields (xFields (w.setWidth 32)))
  | .g => checked (gOfFields (gFields w).1 (gFields w).2)
  | .v0 =>
    if chainCodesKnown (vFields w).2 then checked (vOfFields .p0 (vFields w).1 (vFields w).2) else .error .illegalOp
  | .v1 =>
    if chainCodesKnown (vFields w).2 then checked (vOfFields .p1 (vFields w).1 (vFields w).2) else .error .illegalOp
  | .m => checked (mOfFields (mFields w).1 (mFields w).2)
  | .c => checked (cOfFields (cFields w).1 (cFields w).2)

/-- The bundle header (06 Table 06-1). -/
structure Header where
  reserved : BitVec 15
  sense : Bool
  guard : PReg
  yield : Bool
  rep : BitVec 6
  pres : BitVec 6
deriving DecidableEq, Repr

def decodeHeader (w : BitVec 32) : Header :=
  ⟨w.extractLsb' 17 15, w.getLsbD 16, w.extractLsb' 13 3, w.getLsbD 12, w.extractLsb' 6 6, w.extractLsb' 0 6⟩

/-- All slots in slot order (06 R98). -/
def allSlots : List Slot := [.x, .g, .v0, .v1, .m, .c]

/-- Bytes a present slot takes. -/
def Slot.bytes : Slot → Nat
  | .x => 4 | .g => 8 | .v0 => 8 | .v1 => 8 | .m => 8 | .c => 8

/-- The slots a header mask names, in slot order. -/
def slotsOf (mask : BitVec 6) : List Slot := allSlots.filter fun k => mask.getLsbD k.bit

/-- The bundle length in bytes (06 R98). -/
def bundleLength (h : Header) : Nat := 4 + ((slotsOf h.pres).map Slot.bytes).sum

/-- A little-endian number from its bytes (00 R4). -/
def leNat : List Byte → Nat
  | [] => 0
  | b :: bs => b.toNat + 256 * leNat bs

/-- The `n` low bytes of a number, lowest first (00 R4). -/
def leBytes : Nat → Nat → List Byte
  | 0, _ => []
  | n + 1, v => BitVec.ofNat 8 v :: leBytes n (v / 256)

/-- The present slots' words, from the bytes after the header. -/
def slotWords : List Slot → List Byte → List (Slot × BitVec 64)
  | [], _ => []
  | k :: ks, bs => (k, BitVec.ofNat 64 (leNat (bs.take k.bytes))) :: slotWords ks (bs.drop k.bytes)

/-- A bundle as fetched: header, length, and the present slots' words. -/
structure RawBundle where
  header : Header
  length : Nat
  words : List (Slot × BitVec 64)
deriving DecidableEq, Repr

/-- Cut a bundle from bytes that start at its header; none when they are too few. -/
def rawBundle (bs : List Byte) : Option RawBundle :=
  let h := decodeHeader (BitVec.ofNat 32 (leNat (bs.take 4)))
  let n := bundleLength h
  if 4 ≤ bs.length ∧ n ≤ bs.length then some ⟨h, n, slotWords (slotsOf h.pres) (bs.drop 4)⟩ else none

/-- An X word from its fields, one function per format (06 Table 06-4). -/
def xr (op : BitVec 8) (sd sa sb fn : BitVec 6) : BitVec 32 := op ++ sd ++ sa ++ sb ++ fn
def xi (op : BitVec 8) (sd sa : BitVec 6) (imm : BitVec 12) : BitVec 32 := op ++ sd ++ sa ++ imm
def xl (op : BitVec 8) (sd : BitVec 6) (imm : BitVec 18) : BitVec 32 := op ++ sd ++ imm
def xb (op : BitVec 8) (p : BitVec 3) (sense : Bool) (d : BitVec 20) : BitVec 32 := op ++ p ++ BitVec.ofBool sense ++ d
/-- A G, V, M or C word from its fields (06 Tables 06-5 to 06-7). -/
def gWord (op : BitVec 8) (g : GSlot) : BitVec 64 := op ++ g.sd ++ g.sa ++ g.sb ++ g.hint ++ g.stride ++ g.disp
def vWord (op : BitVec 6) (v : VSlot) : BitVec 64 :=
  op ++ v.op2 ++ v.op3 ++ v.td ++ v.ta ++ v.tb ++ v.tc ++ v.sx ++ v.rnd ++ v.kd ++ v.kw0 ++ v.kw1 ++ v.kw2
def mWord (op : BitVec 6) (m : MSlot) : BitVec 64 :=
  op ++ m.td ++ m.ta ++ m.tb ++ m.tx ++ m.sx ++ m.flags ++ m.kd ++ m.kw0 ++ m.kw1 ++ m.kw2 ++ m.imm
def cWord (op : BitVec 6) (c : CSlot) : BitVec 64 :=
  op ++ c.t ++ c.w ++ c.sa ++ c.sb ++ c.hint ++ c.kd ++ c.kw0 ++ c.kw1 ++ c.kw2 ++ c.stride

/-- The slot and the slot word of a slot instruction, from the same tables; an event has none. -/
def encode : Instr → Option (Slot × BitVec 64)
  | .nop => some (.x, (xr 0 0 0 0 0).setWidth 64)
  | .add sd sa sb => some (.x, (xr 0x01 sd sa sb 0).setWidth 64)
  | .sub sd sa sb => some (.x, (xr 0x02 sd sa sb 0).setWidth 64)
  | .and sd sa sb => some (.x, (xr 0x03 sd sa sb 0).setWidth 64)
  | .or sd sa sb => some (.x, (xr 0x04 sd sa sb 0).setWidth 64)
  | .xor sd sa sb => some (.x, (xr 0x05 sd sa sb 0).setWidth 64)
  | .shl sd sa sb => some (.x, (xr 0x06 sd sa sb 0).setWidth 64)
  | .shr sd sa sb => some (.x, (xr 0x07 sd sa sb 0).setWidth 64)
  | .sra sd sa sb => some (.x, (xr 0x08 sd sa sb 0).setWidth 64)
  | .mul sd sa sb => some (.x, (xr 0x09 sd sa sb 0).setWidth 64)
  | .mulh sd sa sb => some (.x, (xr 0x0A sd sa sb 0).setWidth 64)
  | .mulhu sd sa sb => some (.x, (xr 0x0B sd sa sb 0).setWidth 64)
  | .div sd sa sb => some (.x, (xr 0x0C sd sa sb 0).setWidth 64)
  | .divu sd sa sb => some (.x, (xr 0x0D sd sa sb 0).setWidth 64)
  | .rem sd sa sb => some (.x, (xr 0x0E sd sa sb 0).setWidth 64)
  | .remu sd sa sb => some (.x, (xr 0x0F sd sa sb 0).setWidth 64)
  | .min sd sa sb => some (.x, (xr 0x10 sd sa sb 0).setWidth 64)
  | .max sd sa sb => some (.x, (xr 0x11 sd sa sb 0).setWidth 64)
  | .minu sd sa sb => some (.x, (xr 0x12 sd sa sb 0).setWidth 64)
  | .maxu sd sa sb => some (.x, (xr 0x13 sd sa sb 0).setWidth 64)
  | .clz sd sa => some (.x, (xr 0x14 sd sa 0 0).setWidth 64)
  | .ctz sd sa => some (.x, (xr 0x15 sd sa 0 0).setWidth 64)
  | .popc sd sa => some (.x, (xr 0x16 sd sa 0 0).setWidth 64)
  | .sel sd p sa sb => some (.x, (xr 0x17 sd sa sb (p.setWidth 6)).setWidth 64)
  | .addi sd sa imm => some (.x, (xi 0x20 sd sa imm).setWidth 64)
  | .andi sd sa imm => some (.x, (xi 0x21 sd sa imm).setWidth 64)
  | .ori sd sa imm => some (.x, (xi 0x22 sd sa imm).setWidth 64)
  | .xori sd sa imm => some (.x, (xi 0x23 sd sa imm).setWidth 64)
  | .shli sd sa imm => some (.x, (xi 0x24 sd sa imm).setWidth 64)
  | .shri sd sa imm => some (.x, (xi 0x25 sd sa imm).setWidth 64)
  | .srai sd sa imm => some (.x, (xi 0x26 sd sa imm).setWidth 64)
  | .muli sd sa imm => some (.x, (xi 0x27 sd sa imm).setWidth 64)
  | .li sd imm => some (.x, (xl 0x28 sd imm).setWidth 64)
  | .lih sd imm => some (.x, (xl 0x29 sd imm).setWidth 64)
  | .cmpeq pd sa sb => some (.x, (xr 0x30 (pd.setWidth 6) sa sb 0).setWidth 64)
  | .cmpne pd sa sb => some (.x, (xr 0x31 (pd.setWidth 6) sa sb 0).setWidth 64)
  | .cmplt pd sa sb => some (.x, (xr 0x32 (pd.setWidth 6) sa sb 0).setWidth 64)
  | .cmpltu pd sa sb => some (.x, (xr 0x33 (pd.setWidth 6) sa sb 0).setWidth 64)
  | .cmple pd sa sb => some (.x, (xr 0x34 (pd.setWidth 6) sa sb 0).setWidth 64)
  | .cmpleu pd sa sb => some (.x, (xr 0x35 (pd.setWidth 6) sa sb 0).setWidth 64)
  | .cmpeqi pd sa imm => some (.x, (xi 0x36 (pd.setWidth 6) sa imm).setWidth 64)
  | .cmplti pd sa imm => some (.x, (xi 0x37 (pd.setWidth 6) sa imm).setWidth 64)
  | .pand pd pa pb => some (.x, (xr 0x38 (pd.setWidth 6) (pa.setWidth 6) (pb.setWidth 6) 0).setWidth 64)
  | .por pd pa pb => some (.x, (xr 0x39 (pd.setWidth 6) (pa.setWidth 6) (pb.setWidth 6) 0).setWidth 64)
  | .pxor pd pa pb => some (.x, (xr 0x3A (pd.setWidth 6) (pa.setWidth 6) (pb.setWidth 6) 0).setWidth 64)
  | .pnot pd pa => some (.x, (xr 0x3B (pd.setWidth 6) (pa.setWidth 6) 0 0).setWidth 64)
  | .pmov pd pa => some (.x, (xr 0x3C (pd.setWidth 6) (pa.setWidth 6) 0 0).setWidth 64)
  | .lea sd sa sb n => some (.x, (xr 0x40 sd sa sb (n.setWidth 6)).setWidth 64)
  | .fadd sd sa sb => some (.x, (xr 0x48 sd sa sb 0).setWidth 64)
  | .fsub sd sa sb => some (.x, (xr 0x49 sd sa sb 0).setWidth 64)
  | .fmul sd sa sb => some (.x, (xr 0x4A sd sa sb 0).setWidth 64)
  | .fdiv sd sa sb => some (.x, (xr 0x4B sd sa sb 0).setWidth 64)
  | .fmin sd sa sb => some (.x, (xr 0x4C sd sa sb 0).setWidth 64)
  | .fmax sd sa sb => some (.x, (xr 0x4D sd sa sb 0).setWidth 64)
  | .fcmplt pd sa sb => some (.x, (xr 0x4E (pd.setWidth 6) sa sb 0).setWidth 64)
  | .fcmpeq pd sa sb => some (.x, (xr 0x4F (pd.setWidth 6) sa sb 0).setWidth 64)
  | .ftoi sd sa => some (.x, (xr 0x50 sd sa 0 0).setWidth 64)
  | .itof sd sa => some (.x, (xr 0x51 sd sa 0 0).setWidth 64)
  | .fexp2 sd sa => some (.x, (xr 0x52 sd sa 0 0).setWidth 64)
  | .flog2 sd sa => some (.x, (xr 0x53 sd sa 0 0).setWidth 64)
  | .br d => some (.x, (xb 0x60 0 false d).setWidth 64)
  | .brc p sense d => some (.x, (xb 0x61 p sense d).setWidth 64)
  | .bdnz sd imm => some (.x, (xi 0x62 sd 0 imm).setWidth 64)
  | .call d => some (.x, (xb 0x63 0 false d).setWidth 64)
  | .ret sa => some (.x, (xr 0x64 0 sa 0 0).setWidth 64)
  | .jmpr sd sa => some (.x, (xr 0x65 sd sa 0 0).setWidth 64)
  | .endTask => some (.x, (xr 0x66 0 0 0 0).setWidth 64)
  | .trap imm => some (.x, (xl 0x67 0 imm).setWidth 64)
  | .bkpt imm => some (.x, (xl 0x68 0 imm).setWidth 64)
  | .waitk ka kb kc => some (.x, (xr 0x69 (ka.setWidth 6) (kb.setWidth 6) (kc.setWidth 6) 0).setWidth 64)
  | .idleF sa => some (.x, (xr 0x6A 0 sa 0 0).setWidth 64)
  | .idleN sa sb => some (.x, (xr 0x6A 0 sa sb 1).setWidth 64)
  | .sysr sd imm => some (.x, (xl 0x70 sd imm).setWidth 64)
  | .sysw sd imm => some (.x, (xl 0x71 sd imm).setWidth 64)
  | .tret => some (.x, (xr 0x72 0 0 0 0).setWidth 64)
  | .tretSkip => some (.x, (xr 0x72 0 0 0 1).setWidth 64)
  | .ctxr sd sa => some (.x, (xr 0x73 sd sa 0 0).setWidth 64)
  | .ctxw sa sb => some (.x, (xr 0x74 0 sa sb 0).setWidth 64)
  | .eqreplay sd sa => some (.x, (xr 0x75 sd sa 0 0).setWidth 64)
  | .tdecl t i => some (.x, (xl 0x80 (t.setWidth 6) i).setWidth 64)
  | .tdecls t sa sb => some (.x, (xr 0x81 (t.setWidth 6) sa sb 0).setWidth 64)
  | .tget sd t h r => some (.x, (xr 0x82 sd (t.setWidth 6) 0 ((BitVec.ofBool r ++ BitVec.ofBool h).setWidth 6)).setWidth 64)
  | .bind b sa => some (.x, (xr 0x83 (b.setWidth 6) sa 0 0).setWidth 64)
  | .unbind m => some (.x, (xl 0x84 0 (m.setWidth 18)).setWidth 64)
  | .bget sd b => some (.x, (xr 0x85 sd (b.setWidth 6) 0 0).setWidth 64)
  | .tchk pd t sb m a => some (.x, (xr 0x86 (pd.setWidth 6) (t.setWidth 6) sb ((BitVec.ofBool a ++ m).setWidth 6)).setWidth 64)
  | .tclear t => some (.x, (xr 0x87 (t.setWidth 6) 0 0 0).setWidth 64)
  | .text sd t k f => some (.x, (xr 0x88 sd (t.setWidth 6) 0 ((BitVec.ofBool f ++ k).setWidth 6)).setWidth 64)
  | .gNop => some (.g, gWord 0 (GSlot.mk 0 0 0 0 0 0))
  | .ld8 g => some (.g, gWord 0x01 g)
  | .ld8u g => some (.g, gWord 0x02 g)
  | .ld16 g => some (.g, gWord 0x03 g)
  | .ld16u g => some (.g, gWord 0x04 g)
  | .ld32 g => some (.g, gWord 0x05 g)
  | .ld32u g => some (.g, gWord 0x06 g)
  | .ld64 g => some (.g, gWord 0x07 g)
  | .st8 g => some (.g, gWord 0x08 g)
  | .st16 g => some (.g, gWord 0x09 g)
  | .st32 g => some (.g, gWord 0x0A g)
  | .st64 g => some (.g, gWord 0x0B g)
  | .ldp g => some (.g, gWord 0x0C g)
  | .aadd g => some (.g, gWord 0x10 g)
  | .aand g => some (.g, gWord 0x11 g)
  | .aor g => some (.g, gWord 0x12 g)
  | .axor g => some (.g, gWord 0x13 g)
  | .amin g => some (.g, gWord 0x14 g)
  | .amax g => some (.g, gWord 0x15 g)
  | .aminu g => some (.g, gWord 0x16 g)
  | .amaxu g => some (.g, gWord 0x17 g)
  | .aswap g => some (.g, gWord 0x18 g)
  | .acas g => some (.g, gWord 0x19 g)
  | .afadd g => some (.g, gWord 0x1A g)
  | .fence g => some (.g, gWord 0x20 g)
  | .drain g => some (.g, gWord 0x21 g)
  | .acq g => some (.g, gWord 0x22 g)
  | .rel g => some (.g, gWord 0x23 g)
  | .pref g => some (.g, gWord 0x28 g)
  | .prefw g => some (.g, gWord 0x29 g)
  | .pin g => some (.g, gWord 0x2A g)
  | .unpin g => some (.g, gWord 0x2B g)
  | .wback g => some (.g, gWord 0x2D g)
  | .binit g => some (.g, gWord 0x30 g)
  | .barrive g => some (.g, gWord 0x31 g)
  | .bexpect g => some (.g, gWord 0x32 g)
  | .bwait g => some (.g, gWord 0x33 g)
  | .btest g => some (.g, gWord 0x34 g)
  | .setf g => some (.g, gWord 0x38 g)
  | .sete g => some (.g, gWord 0x39 g)
  | .testf g => some (.g, gWord 0x3A g)
  | .qsplit g => some (.g, gWord 0x40 g)
  | .qjoin g => some (.g, gWord 0x41 g)
  | .qwait g => some (.g, gWord 0x43 g)
  | .qread g => some (.g, gWord 0x44 g)
  | .spawn g => some (.g, gWord 0x48 g)
  | .subcan g => some (.g, gWord 0x51 g)
  | .slotdone g => some (.g, gWord 0x52 g)
  | .rseed g => some (.g, gWord 0x58 g)
  | .rnext g => some (.g, gWord 0x59 g)
  | .escal g => some (.g, gWord 0x60 g)
  | .lrec g => some (.g, gWord 0x68 g)
  | .lcommit g => some (.g, gWord 0x69 g)
  | .invl g => some (.g, gWord 0x2C g)
  | .invlAll g => some (.g, gWord 0x2C g)
  | .qret g => some (.g, gWord 0x42 g)
  | .qretQw g => some (.g, gWord 0x42 g)
  | .subscrPush g => some (.g, gWord 0x50 g)
  | .subscrPull g => some (.g, gWord 0x50 g)
  | .vNop p => some (p.slot, vWord 0 (VSlot.mk 0 0 0 0 0 0 0 0 0 0 0 0))
  | .vadd p v => some (p.slot, vWord 0x01 v)
  | .vsub p v => some (p.slot, vWord 0x02 v)
  | .vmul p v => some (p.slot, vWord 0x03 v)
  | .vfma p v => some (p.slot, vWord 0x04 v)
  | .vmin p v => some (p.slot, vWord 0x05 v)
  | .vmax p v => some (p.slot, vWord 0x06 v)
  | .vabs p v => some (p.slot, vWord 0x07 v)
  | .vneg p v => some (p.slot, vWord 0x08 v)
  | .vrcp p v => some (p.slot, vWord 0x09 v)
  | .vrsq p v => some (p.slot, vWord 0x0A v)
  | .vsqrt p v => some (p.slot, vWord 0x0B v)
  | .vexp2 p v => some (p.slot, vWord 0x0C v)
  | .vlog2 p v => some (p.slot, vWord 0x0D v)
  | .vtanh p v => some (p.slot, vWord 0x0E v)
  | .vsigm p v => some (p.slot, vWord 0x0F v)
  | .vand p v => some (p.slot, vWord 0x10 v)
  | .vor p v => some (p.slot, vWord 0x11 v)
  | .vxor p v => some (p.slot, vWord 0x12 v)
  | .vshl p v => some (p.slot, vWord 0x13 v)
  | .vshr p v => some (p.slot, vWord 0x14 v)
  | .vclamp p v => some (p.slot, vWord 0x15 v)
  | .vscale p v => some (p.slot, vWord 0x16 v)
  | .vcmp p v => some (p.slot, vWord 0x17 v)
  | .vsel p v => some (p.slot, vWord 0x18 v)
  | .vbcast p v => some (p.slot, vWord 0x19 v)
  | .viota p v => some (p.slot, vWord 0x1A v)
  | .vmask p v => some (p.slot, vWord 0x1B v)
  | .vmov p v => some (p.slot, vWord 0x1C v)
  | .vcvt p v => some (p.slot, vWord 0x20 v)
  | .vcvtq p v => some (p.slot, vWord 0x21 v)
  | .vcvts p v => some (p.slot, vWord 0x22 v)
  | .vreshape p v => some (p.slot, vWord 0x23 v)
  | .vtrans p v => some (p.slot, vWord 0x24 v)
  | .vcast p v => some (p.slot, vWord 0x25 v)
  | .vrsum p v => some (p.slot, vWord 0x28 v)
  | .vrmax p v => some (p.slot, vWord 0x29 v)
  | .vrmin p v => some (p.slot, vWord 0x2A v)
  | .vrargmax p v => some (p.slot, vWord 0x2B v)
  | .vrdraw p v => some (p.slot, vWord 0x2C v)
  | .vrlse p v => some (p.slot, vWord 0x2D v)
  | .vscan p v => some (p.slot, vWord 0x2E v)
  | .vdmerge p v => some (p.slot, vWord 0x2F v)
  | .vcompact p v => some (p.slot, vWord 0x30 v)
  | .vperm p v => some (p.slot, vWord 0x31 v)
  | .vroute p v => some (p.slot, vWord 0x32 v)
  | .vhist p v => some (p.slot, vWord 0x33 v)
  | .mNop => some (.m, mWord 0 (MSlot.mk 0 0 0 0 0 0 0 0 0 0 0))
  | .mma m => some (.m, mWord 0x01 m)
  | .mmaz m => some (.m, mWord 0x02 m)
  | .mabsd m => some (.m, mWord 0x03 m)
  | .mmaxp m => some (.m, mWord 0x04 m)
  | .mminp m => some (.m, mWord 0x05 m)
  | .mrank m => some (.m, mWord 0x06 m)
  | .mrankc m => some (.m, mWord 0x07 m)
  | .msparse m => some (.m, mWord 0x08 m)
  | .mbload m => some (.m, mWord 0x09 m)
  | .cNop => some (.c, cWord 0 (CSlot.mk 0 0 0 0 0 0 0 0 0 0))
  | .tload c => some (.c, cWord 0x01 c)
  | .tstore c => some (.c, cWord 0x02 c)
  | .tloads c => some (.c, cWord 0x03 c)
  | .tstores c => some (.c, cWord 0x04 c)
  | .cpin c => some (.c, cWord 0x05 c)
  | .cpout c => some (.c, cWord 0x06 c)
  | .gather c => some (.c, cWord 0x07 c)
  | .scatter c => some (.c, cWord 0x08 c)
  | .preft c => some (.c, cWord 0x09 c)
  | .send c => some (.c, cWord 0x10 c)
  | .recv c => some (.c, cWord 0x11 c)
  | .recvadd c => some (.c, cWord 0x12 c)
  | .recvdraw c => some (.c, cWord 0x13 c)
  | .mcast c => some (.c, cWord 0x14 c)
  | .amsg c => some (.c, cWord 0x15 c)
  | .ttset c => some (.c, cWord 0x16 c)
  | .ttfire c => some (.c, cWord 0x17 c)
  | .ctload c => some (.c, cWord 0x20 c)
  | _ => none
/-- The header of a true-guarded bundle that holds one present slot and nothing else. -/
def soloHeader (k : Slot) : Nat := 2 ^ k.bit

/-- The bytes of the bundle that holds the one slot instruction. -/
def encodeBundle (i : Instr) : Option (List Byte) :=
  match encode i with
  | some (k, w) => some (leBytes 4 (soloHeader k) ++ leBytes k.bytes w.toNat)
  | none => none

/-- The instruction of a bundle's first present slot. -/
def firstInstr (b : RawBundle) : Option Instr :=
  match b.words with
  | [] => none
  | (k, w) :: _ =>
    match decodeSlot k w with
    | .ok i => some i
    | .error _ => none

/-- What the decoder reads from an instruction whose bits are `w`, the header word first; bits above `nbits` are zero. -/
def decodeTableWord (nbits w : Nat) : Option Instr :=
  match rawBundle (leBytes 48 (w % 2 ^ nbits)) with
  | some b => firstInstr b
  | none => none

end Sys2Proof
end

