-- ==== Sys2Proof/Machine/Map.lean ====
section
/-! DEFINITION. Sparse tables, and byte memory in canonical form: addresses strictly rising, no entry equal to 0. -/
namespace Sys2Proof.Machine
open Host (Cell)

/-- The member `k` of a family whose unlisted members are `d`. -/
def mget {α : Type} (d : α) : Mp α → Nat → α
  | [], _ => d
  | (j, v) :: t, k => if j = k then v else mget d t k

/-- The member `k`, when listed. -/
def mget? {α : Type} : Mp α → Nat → Option α
  | [], _ => none
  | (j, v) :: t, k => if j = k then some v else mget? t k

/-- Set member `k`, keeping the numbers in order. -/
def mset {α : Type} : Mp α → Nat → α → Mp α
  | [], k, v => [(k, v)]
  | (j, w) :: t, k, v => if k < j then (k, v) :: (j, w) :: t else if j = k then (k, v) :: t else (j, w) :: mset t k v

/-- Drop member `k`. -/
def mdel {α : Type} : Mp α → Nat → Mp α
  | [], _ => []
  | (j, w) :: t, k => if j = k then mdel t k else (j, w) :: mdel t k

/-- The byte at an address; an unlisted address reads 0 (DESIGN CHOICE, log 3). -/
def cget : List Cell → Nat → Byte
  | [], _ => 0
  | (j, v) :: t, k => if j = k then v else cget t k

/-- Drop the byte at an address. -/
def cdel : List Cell → Nat → List Cell
  | [], _ => []
  | (j, w) :: t, k => if j = k then cdel t k else (j, w) :: cdel t k

/-- Insert an absent address in order. -/
def cins : List Cell → Nat → Byte → List Cell
  | [], k, v => [(k, v)]
  | (j, w) :: t, k, v => if k < j then (k, v) :: (j, w) :: t else (j, w) :: cins t k v

/-- Write one byte; writing 0 removes the entry. -/
def cput (m : List Cell) (k : Nat) (v : Byte) : List Cell :=
  if v = 0 then cdel m k else cins (cdel m k) k v

/-- Every address of `m` is above `lo` in rising order and no entry is 0. -/
def Memory.above : Option Nat → List Cell → Bool
  | _, [] => true
  | lo, (j, v) :: t => (match lo with | none => true | some l => decide (l < j)) && v != 0 && Memory.above (some j) t

/-- The canonical form of byte memory. -/
def Memory.wf (m : List Cell) : Bool := Memory.above none m

/-- `n` bytes from an address, lowest first. -/
def cgetN (m : List Cell) (a : Nat) : Nat → List Byte
  | 0 => []
  | n + 1 => cget m a :: cgetN m (a + 1) n

/-- Write bytes from an address upward. -/
def cputN (m : List Cell) (a : Nat) : List Byte → List Cell
  | [] => m
  | b :: bs => cputN (cput m a b) (a + 1) bs

/-- Replace by index, leaving a shorter list alone. -/
def lset {α : Type} : List α → Nat → α → List α
  | [], _, _ => []
  | _ :: t, 0, v => v :: t
  | x :: t, n + 1, v => x :: lset t n v

/-- Apply `f` to the elements that meet `p`. -/
def lmod {α : Type} (p : α → Bool) (f : α → α) (l : List α) : List α := l.map fun x => if p x then f x else x

/-- The first index at or above `i`, below `i + fuel`, that meets `p`. -/
def firstNat (p : Nat → Bool) : Nat → Nat → Option Nat
  | _, 0 => none
  | i, n + 1 => if p i then some i else firstNat p (i + 1) n

/-- The numbers from `a`, `n` of them. -/
def upFrom (a : Nat) : Nat → List Nat
  | 0 => []
  | n + 1 => a :: upFrom (a + 1) n

/-- Bits [hi:lo] of a word as a number. -/
def bits {w : Nat} (x : BitVec w) (hi lo : Nat) : Nat := x.toNat / 2 ^ lo % 2 ^ (hi + 1 - lo)

/-- A little-endian word from bytes, and the n-byte fields of a record read by offset. -/
def word64 (bs : List Byte) : Word := BitVec.ofNat 64 (leNat bs)
def fld (bs : List Byte) (off n : Nat) : Nat := leNat ((bs.drop off).take n)

/-- Ceiling division. -/
def ceilDiv (a b : Nat) : Nat := (a + b - 1) / b

/-- The integer that a two's complement number of `w` bits stands for. -/
def sgn (w v : Nat) : Int := if v % 2 ^ w < 2 ^ (w - 1) then (v % 2 ^ w : Nat) else (v % 2 ^ w : Nat) - (2 ^ w : Nat)

/-- The code of an integer in `w` bits. -/
def unsgn (w : Nat) (i : Int) : Nat := (i % (2 ^ w : Nat)).toNat

end Sys2Proof.Machine
end

