-- ==== Sys2Proof/Machine/Num.lean ====
section
/-! DEFINITION. Exact values and rounding (03 R42 to R55): a value is a sign, a number and a power of two; a rounding takes
the exact value, or quotient of values, to the grid of a format. -/
namespace Sys2Proof.Machine

/-- An exact value: NaN, a signed infinity, or (-1)^neg × m × 2^e (zero keeps its sign). -/
inductive FV where
  | nan | inf (neg : Bool) | fin (neg : Bool) (m : Nat) (e : Int)
deriving DecidableEq, Repr

/-- A floating format (03 Table 03-1): width, significand bits, exponent of the smallest subnormal, magnitude codes of the
largest finite value, of infinity and of the canonical NaN. -/
structure FFmt where
  w : Nat
  p : Nat
  emin : Int
  max : Nat
  inf : Option Nat
  nan : Option Nat
deriving DecidableEq, Repr

def fp32 : FFmt := ⟨32, 24, -149, 0x7F7FFFFF, some 0x7F800000, some 0x7FC00000⟩
def bf16 : FFmt := ⟨16, 8, -133, 0x7F7F, some 0x7F80, some 0x7FC0⟩
def fp16 : FFmt := ⟨16, 11, -24, 0x7BFF, some 0x7C00, some 0x7E00⟩
def e4m3 : FFmt := ⟨8, 4, -9, 0x7E, none, some 0x7F⟩
def e5m2 : FFmt := ⟨8, 3, -16, 0x7B, some 0x7C, some 0x7E⟩
def e2m1 : FFmt := ⟨4, 2, -1, 0x7, none, none⟩

/-- A rounding mode (03 R54, R55); `sr` carries the element's coin, `up` is toward +∞ for positive scales (03 R52). -/
inductive RMode where
  | rne | rz | sr (u : Nat) | up
deriving DecidableEq, Repr

namespace FV
def isNan : FV → Bool | .nan => true | _ => false
def isInf : FV → Bool | .inf _ => true | _ => false
def isZero : FV → Bool | .fin _ 0 _ => true | _ => false
def neg? : FV → Bool | .nan => false | .inf s => s | .fin s _ _ => s
def zero : FV := .fin false 0 0
def negate : FV → FV | .nan => .nan | .inf s => .inf (!s) | .fin s m e => .fin (!s) m e
def absv : FV → FV | .nan => .nan | .inf _ => .inf false | .fin _ m e => .fin false m e
def ofInt (i : Int) : FV := .fin (decide (i < 0)) i.natAbs 0
end FV

/-- The number 2^e as a ratio of naturals. -/
def pow2Num (e : Int) : Nat := if 0 ≤ e then 2 ^ e.toNat else 1
def pow2Den (e : Int) : Nat := if 0 ≤ e then 1 else 2 ^ (-e).toNat

/-- floor(log₂(num ÷ den)) for positive numbers. -/
def floorLog2 (num den : Nat) : Int :=
  let l : Int := (Nat.log2 num : Int) - (Nat.log2 den : Int)
  if den * pow2Num l ≤ num * pow2Den l then l else l - 1

/-- The grid value at or beside num ÷ den × 2^e that the mode picks, as m × 2^q.  `p` = 0: an integer grid without top. -/
def gridRound (p : Nat) (emin : Int) (md : RMode) (num den : Nat) (e : Int) : Nat × Int :=
  if num = 0 then (0, emin) else
  let n := num * pow2Num e
  let d := den * pow2Den e
  let l := floorLog2 n d
  let q : Int := if p = 0 then emin else max emin (l - p + 1)
  let n' := n * pow2Den q
  let d' := d * pow2Num q
  let a := n' / d'
  let r := n' % d'
  let b := match md with
    | .rne => if 2 * r < d' then a else if 2 * r > d' then a + 1 else if a % 2 = 0 then a else a + 1
    | .rz => a
    | .up => if r = 0 then a else a + 1
    | .sr u => if u < r * 2 ^ 32 / d' then a + 1 else a
  (b, q)

/-- The magnitude code of m × 2^q on a format's grid; above `max` it lies beyond the format. -/
def FFmt.mag (f : FFmt) (g : Nat × Int) : Nat := (g.2 - f.emin).toNat * 2 ^ (f.p - 1) + g.1

/-- The value of a magnitude code on the continued grid (03 R55). -/
def FFmt.ofMag (f : FFmt) (neg : Bool) (c : Nat) : FV :=
  let ef := c / 2 ^ (f.p - 1)
  let m := c % 2 ^ (f.p - 1)
  if ef = 0 then .fin neg m f.emin else .fin neg (2 ^ (f.p - 1) + m) (f.emin + ef - 1)

/-- The value a code stands for (03 R42). -/
def FFmt.decode (f : FFmt) (c : Nat) : FV :=
  let neg := decide (c % 2 ^ f.w ≥ 2 ^ (f.w - 1))
  let a := c % 2 ^ (f.w - 1)
  if a ≤ f.max then f.ofMag neg a
  else if f.inf = some a then .inf neg
  else if f.nan.isSome then .nan else f.ofMag neg a

/-- The code of a sign and a magnitude. -/
def FFmt.code (f : FFmt) (neg : Bool) (a : Nat) : Nat := if neg then a + 2 ^ (f.w - 1) else a

/-- Round a quotient num ÷ den × 2^e into FP32, BF16 or FP16 with the overflow rule of 03 R44. -/
def FFmt.roundQ (f : FFmt) (md : RMode) (neg : Bool) (num den : Nat) (e : Int) : FV :=
  let g := gridRound f.p f.emin md num den e
  if f.mag g ≤ f.max then .fin neg g.1 g.2
  else match md with
    | .rz => f.ofMag neg f.max
    | _ => .inf neg

/-- Round an exact value. -/
def FFmt.round (f : FFmt) (md : RMode) : FV → FV
  | .nan => .nan
  | .inf s => .inf s
  | .fin s m e => f.roundQ md s m 1 e

/-- The code of a value that is on the format's grid. -/
def FFmt.encode (f : FFmt) : FV → Nat
  | .nan => f.nan.getD 0
  | .inf s => f.code s (f.inf.getD f.max)
  | .fin s m e => f.code s (f.mag (gridRound f.p f.emin .rne m 1 e))

/-- Exact sum; opposite values give +0, and equal signs of zero are kept (IEEE 754 under RNE and RZ). -/
def FV.add : FV → FV → FV
  | .nan, _ => .nan
  | _, .nan => .nan
  | .inf a, .inf b => if a = b then .inf a else .nan
  | .inf a, _ => .inf a
  | _, .inf b => .inf b
  | .fin a m e, .fin b n g =>
    let q := min e g
    let x : Int := ((m * 2 ^ (e - q).toNat : Nat) : Int)
    let y : Int := ((n * 2 ^ (g - q).toNat : Nat) : Int)
    let s := (if a then -x else x) + (if b then -y else y)
    if s = 0 then .fin (a && b) 0 q else .fin (decide (s < 0)) s.natAbs q

/-- Exact product. -/
def FV.mul : FV → FV → FV
  | .nan, _ => .nan
  | _, .nan => .nan
  | .inf a, .inf b => .inf (a != b)
  | .inf a, .fin b n _ => if n = 0 then .nan else .inf (a != b)
  | .fin a m _, .inf b => if m = 0 then .nan else .inf (a != b)
  | .fin a m e, .fin b n g => .fin (a != b) (m * n) (e + g)

/-- Rounded quotient; x ÷ ±0 for nonzero x is an infinity and 0 ÷ 0 is NaN (07 R136). -/
def FFmt.div (f : FFmt) (md : RMode) : FV → FV → FV
  | .nan, _ => .nan
  | _, .nan => .nan
  | .inf a, .inf b => let _ := (a, b); .nan
  | .inf a, .fin b _ _ => .inf (a != b)
  | .fin a _ _, .inf b => .fin (a != b) 0 0
  | .fin a m e, .fin b n g =>
    if n = 0 then (if m = 0 then .nan else .inf (a != b))
    else if m = 0 then .fin (a != b) 0 0
    else f.roundQ md (a != b) m n (e - g)

/-- Exact comparison of numbers that are not NaN; the two zeros are equal. -/
def FV.lt : FV → FV → Bool
  | .nan, _ => false
  | _, .nan => false
  | .inf a, .inf b => a && !b
  | .inf a, .fin _ _ _ => a
  | .fin _ _ _, .inf b => !b
  | .fin a m e, .fin b n g =>
    let q := min e g
    let x : Int := ((m * 2 ^ (e - q).toNat : Nat) : Int)
    let y : Int := ((n * 2 ^ (g - q).toNat : Nat) : Int)
    decide ((if a then -x else x) < (if b then -y else y))
def FV.eqv (x y : FV) : Bool := !x.isNan && !y.isNan && !x.lt y && !y.lt x

/-- Lesser and greater value; −0 is less than +0, NaN if either is NaN (07 R136). -/
def FV.fmin (x y : FV) : FV :=
  if x.isNan || y.isNan then .nan else if x.lt y then x else if y.lt x then y else if x.neg? then x else y
def FV.fmax (x y : FV) : FV :=
  if x.isNan || y.isNan then .nan else if x.lt y then y else if y.lt x then x else if x.neg? then y else x

/-- Integer square root by bits from the top: the largest r with r² ≤ n, r < 2^k. -/
def isqrt (n : Nat) : Nat → Nat → Nat
  | 0, r => r
  | k + 1, r => if (r + 2 ^ k) * (r + 2 ^ k) ≤ n then isqrt n k (r + 2 ^ k) else isqrt n k r

/-- The square root to 200 spare bits with a sticky bit, exact when it is on that grid: any rounding of it is the
rounding of the exact root. -/
def FV.sqrt : FV → FV
  | .nan => .nan
  | .inf s => if s then .nan else .inf false
  | .fin s m e =>
    if m = 0 then .fin s 0 e else if s then .nan else
    let k : Nat := 200 + (if e % 2 = 0 then 0 else 1)
    let n := m * 2 ^ k
    let h := (e - k) / 2
    let r := isqrt n (Nat.log2 n / 2 + 1) 0
    if r * r = n then .fin false r h else .fin false (2 * r + 1) (h - 1)

/-- The nearest integer of a value, saturated to [lo, hi]; NaN gives 0 (07 R136). -/
def FV.toIntSat (lo hi : Int) : FV → Int
  | .nan => 0
  | .inf s => if s then lo else hi
  | .fin s m e =>
    let g := gridRound 0 0 .rne m 1 e
    let i : Int := if s then -(g.1 : Int) else g.1
    max lo (min hi i)

/-- FP32 helpers on codes. -/
def f32 (c : Nat) : FV := fp32.decode (c % 2 ^ 32)
def f32c (v : FV) : Nat := fp32.encode v
def fadd32 (md : RMode) (x y : FV) : FV := fp32.round md (x.add y)
def fmul32 (md : RMode) (x y : FV) : FV := fp32.round md (x.mul y)
def fma32 (md : RMode) (x y z : FV) : FV := fp32.round md ((x.mul y).add z)

/-! Elementary functions in fixed point with `fxBits` fractional bits, correct to a few units of the last of them. -/

def fxBits : Nat := 240
def fxOne : Nat := 2 ^ fxBits

/-- Σ 2 z^(2k+1) ÷ (2k+1) for k below the count: t is the present odd power, zz is z². -/
def atanhSum (zz : Nat) : Nat → Nat → Nat → Nat
  | 0, _, _ => 0
  | n + 1, t, k => 2 * t / (2 * k + 1) + atanhSum zz n (t * zz / fxOne) (k + 1)

/-- ln(a ÷ b) for b ≤ a ≤ 2b. -/
def lnRatio (a b : Nat) : Nat :=
  let z := (a - b) * fxOne / (a + b)
  atanhSum (z * z / fxOne) 90 z 0

/-- ln 2. -/
def ln2 : Nat := lnRatio 2 1

/-- Σ t x^k ÷ k! from the present term t on. -/
def expSum (x : Nat) : Nat → Nat → Nat → Nat
  | 0, _, _ => 0
  | n + 1, t, k => t + expSum x n (t * x / fxOne / (k + 1)) (k + 1)

/-- e^x for 0 ≤ x < 1. -/
def expFx (x : Nat) : Nat := expSum x 64 fxOne 0

/-- floor and fraction of m × 2^e (signed) in fixed point, fraction in [0, 1). -/
def fxSplit (neg : Bool) (m : Nat) (e : Int) : Int × Nat :=
  let x : Int := (m * pow2Num (e + fxBits) / pow2Den (e + fxBits) : Nat)
  let y := if neg then -x else x
  (y / (fxOne : Int), (y % (fxOne : Int)).toNat)

/-- 2^a rounded correctly (07 R136). -/
def FFmt.exp2 (f : FFmt) (md : RMode) : FV → FV
  | .nan => .nan
  | .inf s => if s then .fin false 0 0 else .inf false
  | .fin s m e =>
    if m ≠ 0 ∧ floorLog2 m 1 + e > 12 then (if s then f.roundQ md false 1 1 (-4000) else f.roundQ md false 1 1 4000) else
    let sp := fxSplit s m e
    if sp.2 = 0 then f.roundQ md false 1 1 sp.1
    else f.roundQ md false (2 * expFx (sp.2 * ln2 / fxOne) + 1) 1 (sp.1 - fxBits - 1)

/-- log₂ a rounded correctly (07 R136). -/
def FFmt.log2 (f : FFmt) (md : RMode) : FV → FV
  | .nan => .nan
  | .inf s => if s then .nan else .inf false
  | .fin s m e =>
    if m = 0 then .inf true else if s then .nan else
    let k := Nat.log2 m
    let i : Int := k + e
    if m = 2 ^ k then f.round md (FV.ofInt i) else
    let fr := lnRatio m (2 ^ k) * fxOne / ln2
    let v : Int := i * fxOne + fr
    f.roundQ md (decide (v < 0)) (2 * v.natAbs + 1) 1 (-(fxBits + 1 : Nat))

/-- e^a rounded correctly, for bounds that use it (11 R198): 2^(a ÷ ln 2) in fixed point. -/
def expReal (neg : Bool) (m : Nat) (e : Int) : Nat × Int :=
  let x : Int := (m * pow2Num (e + fxBits) / pow2Den (e + fxBits) : Nat)
  let y := (if neg then -x else x) * (fxOne : Int) / (ln2 : Int)
  let i := y / (fxOne : Int)
  let fr := (y % (fxOne : Int)).toNat
  (expFx (fr * ln2 / fxOne), i - fxBits)

end Sys2Proof.Machine
end

