-- ==== Sys2Proof/Config.lean ====
section
/-! DEFINITION. What one device fixes, and the free values: opaque constants, of which nothing can be proved but what the
model itself checks of them.  Each is named in the assumption log. -/
namespace Sys2Proof.Config

/-- A 64-bit value that an uncorrectable error leaves without one (12 R222, log 96): by a fresh count. -/
opaque freeWord : Nat → Word
/-- Contents of a tile byte nothing has written since task start or restore (02 R26): by filling and byte number. -/
opaque freeTile : Nat → Nat → Byte
/-- Counts of TIME that pass in a step (00 R72): by step number. -/
opaque freeDelay : Nat → Nat
/-- Which agent moves when several may (14 R262, 13 R254, 15 R283): by step number. -/
opaque freeChoice : Nat → Nat
/-- What the spec gives no value of: the code of y ÷ 0 in a conversion by a loaded scale of zero (03 R55), by format and y's parts;
the entry picked from a code table whose entries are all NaN, and whether an input saturates where no entry is finite (03 R50),
by bank (log 85). -/
opaque overZero : Nat → Bool → Nat → Int → Nat
/-- The code of ∞ ÷ ∞ in a conversion by a loaded infinite scale (03 R55, log 85), by format and the signs of the two. -/
opaque infOverInf : Nat → Bool → Bool → Nat
opaque noEntry : List Nat → Nat
opaque noFinite : List Nat → Bool
/-- The FP32 functions that 10 R182 bounds but does not fix; the model keeps a result only when it meets the bound. -/
opaque vrcp : BitVec 32 → BitVec 32
opaque vrsq : BitVec 32 → BitVec 32
opaque vexp2 : BitVec 32 → BitVec 32
opaque vlog2 : BitVec 32 → BitVec 32
opaque vtanh : BitVec 32 → BitVec 32
opaque vsigm : BitVec 32 → BitVec 32
/-- VRLSE of a row of FP32 values, bounded by 11 R198. -/
opaque vrlse : List (BitVec 32) → BitVec 32
/-- The L2 set of a line, 0 to 255 after reduction (12 R222 gives no function). -/
opaque l2Set : Nat → Nat
/-- Which line leaves the L1 or a set of the L2 where the order is not given: by step number. -/
opaque freeVictim : Nat → Nat
/-- Which of several places the scheduler takes where no rule picks one: root, hardware slot, generation tag, context numbers,
spill area (05 R82, R88, 14 R272): by a fresh count. -/
opaque freePick : Nat → Nat
/-- The GRP_POS and BRG_SEL straps of the board (16 R313, R316) (DESIGN CHOICE, log 18). -/
opaque strapGrpPos : BitVec 4
opaque strapBrgSel : Bool
/-- The host bridge of this device's group, and the MSI-X vector that management gives to a kind of notice (16 R313, R314)
(PRESUMED, log 66). -/
opaque bridgeDevice : Nat
opaque noticeVector : Nat → Nat
/-- The devices of the pod, at most 1024 (05 R96). -/
opaque podSize : Nat
/-- The generation tag of a domain of another device, which a steal grant does not carry (05 R97): by device and domain. -/
opaque victimTag : Nat → Nat → Nat
/-- The kernel handle of a domain of another device, which a steal grant does not carry either (05 R97): by device and domain. -/
opaque victimKernel : Nat → Nat → Word
/-- The firmware image in the flash of die 0 (18 R353). -/
opaque flash : List Byte
/-- The vendor and type by which DOE Discovery names the attestation protocol (16 R314). -/
opaque doeProtocol : Nat
/-- The device serial number, fused security version and the boot image digests (18 R353, R354). -/
opaque serial : Word
opaque fusedVersion : BitVec 32
opaque bootDigest : Nat → List Byte
/-- The Ed448 public key in the boot ROM and the device's identity key (18 R353, R354). -/
opaque bootKey : List Byte
opaque identityKey : List Byte
/-- The certificate of the identity key, signed by the maker (18 R354). -/
opaque certificate : List Byte

end Sys2Proof.Config
end

