-- ==== Sys2Proof/Machine/State.lean ====
section
/-! DEFINITION. The state of the device as plain data.  Contexts are named by their device-wide number
cx = 8 × CORE_ID + CTX_ID; a family of like things is a sparse table (`Mp`) whose unlisted members are as after reset. -/
namespace Sys2Proof.Machine
open Host (Cell)

/-- A scalar (0 to 63 the task bank, 64 to 71 the handler bank's s56 to s63, 07 R127) or a predicate. -/
inductive RegRef where
  | s (n : Nat) | p (n : Nat)
deriving DecidableEq, Repr

/-- An outstanding frozen write (07 R122, R123): takes effect when `left` more bundles have retired. -/
structure FrozenW where
  reg : RegRef
  val : Word
  left : Nat
deriving DecidableEq, Repr

/-- A replay latch: its slot word and offset, and whether it is loaded (06 R105, 07 Table 07-10). -/
structure Latch where
  word : BitVec 64 := 0
  offset : BitVec 24 := 0
  loaded : Bool := true
deriving DecidableEq, Repr

/-- A bobbin (02 R28). -/
structure Bobbin where
  bound : Bool := false
  value : BitVec 23 := 0
deriving DecidableEq, Repr

/-- What a fault writes beside FAULT_PC and FAULT_SLOTS (17 R332). -/
structure FaultRec where
  cause : BitVec 8
  field : BitVec 4 := 0
  addr : Word := 0
  info : Word := 0
deriving DecidableEq, Repr

/-- One byte's point of performance (14 R261). -/
inductive Loc where
  | hbm (pa : Nat) | host (pa : Nat) | scratch (key : Nat)
deriving DecidableEq, Repr

/-- What an outstanding G-slot access does when it is performed (13 R239 to R247, 14 R265). -/
inductive AccKind where
  | load (dst : Option RegRef) (signed : Bool) (width : Nat)
  | store (data : List Byte)
  | atomic (op : BitVec 8) (dst : Option RegRef) (operand swap : Word)
  | acquire (dst : Option RegRef)
  | fence
  | notify (die : Nat) (offset size : Nat) (value : Word)
  | setFull (line : Nat) (full : Bool)
  | testFull (line : Nat) (dst : Option RegRef)
  | barrierTest (key : Nat) (dst : Option RegRef)
  | writeBack (line : Nat)
  | prefetch (line : Nat) (l1 l2 : Bool)
  | pin (lines : List Nat) (home : Option Nat) (dst : Option RegRef)
  | unpin (lines : List Nat)
  | invalidate (line : Option Nat)
  | give (dst : Option RegRef) (value : Word)
  | readRoot (n : Nat) (dst : Option RegRef)
deriving DecidableEq, Repr

/-- An outstanding access of a context, in program order of `uid`; `handlerAcc`: a bundle of handler mode issued it. -/
structure Access where
  uid : Nat
  kind : AccKind
  locs : List Loc := []
  addr : Word := 0
  hint : BitVec 8 := 0
  needsEarlier : Bool := false
  blocksLater : Bool := false
  dropL1 : Bool := false
  handlerAcc : Bool := false
deriving DecidableEq, Repr

/-- A tile register: type word, its generation (08 R160), contents and scales.  A byte that nothing has written since
`fill` is a free value (02 R26); `part` holds the bits of a listed byte that nothing has written. -/
structure Tile where
  word : TypeWord := 0
  gen : Nat := 0
  fill : Nat := 0
  data : Mp Byte := []
  part : Mp Byte := []
  scales : Mp Byte := []
deriving DecidableEq, Repr

/-- Where a unit of weight belongs: device, domain byte and generation tag of its root (15 R287). -/
structure RootRef where
  device : Nat := 0
  domain : BitVec 8 := 0
  gtag : Nat := 0
deriving DecidableEq, Repr

/-- An event that waits for a boundary of a context, in order of arrival (17 R330, R331): `found` is the place of an engine-found
fault whose write-out (R329) is still to come, `access` a post-commit error (13 R238) of an access of task or of handler mode. -/
inductive CtxEvent where
  | cancel (why : Nat) (first : BitVec 8)
  | watchdog (interval : Nat)
  | engine (slots : BitVec 6) (f : FaultRec)
  | found (uid : Nat)
  | access (f : FaultRec) (inHandler : Bool := false)
  | preempt
deriving DecidableEq, Repr

/-- Which row of 17 Table 17-2 the present handler entry belongs to. -/
inductive EntryKind where
  | save | restore | leave | other
deriving DecidableEq, Repr

/-- What a context is doing; `leaving` is released, but operations its engines had started still run (17 R337). -/
inductive Life where
  | free | running | draining | parked | leaving
deriving DecidableEq, Repr

/-- The state of a subscription slot (12 Table 12-4); `marked` is a pull slot that SLOTDONE has marked done. -/
inductive SubSlot where
  | empty | busy | full | marked
deriving DecidableEq, Repr

/-- A memory-side subscription (12 R229, R230; 13 R248); `moved` counts the items moved of the slot in progress. -/
structure Sub where
  ring : BitVec 4
  win : BitVec 8
  pull : Bool
  row0 : Nat
  col0 : Nat
  h : Nat
  c : Nat
  dr : Int
  dc : Int
  n : Nat
  next : Nat := 0
  states : List SubSlot
  offset : Nat
  slotBytes : Nat
  base : Nat
  stopped : Bool := false
  erred : Bool := false
  moved : Nat := 0
deriving DecidableEq, Repr

/-- Which engine queue an operation stands in (17 Table 17-3). -/
inductive QKind where
  | m | v0 | v1 | c
deriving DecidableEq, Repr

/-- A queued engine operation with all it captured at issue (02 R33, 03 R49, R56, 11 R201, 15 R285). -/
structure EOp where
  uid : Nat
  cx : Nat
  q : QKind
  instr : Instr
  word : BitVec 64
  pc : Word
  capA : Word := 0
  capB : Word := 0
  weight : Word := 0
  c0 : BitVec 32 := 0
  key : BitVec 32 := 0
  types : List TypeWord := []
  exts : List (List Nat) := []
  banks : Mp (BitVec 16) := []
  kd : Nat := 0
  waits : List Nat := []
  handlerOp : Bool := false
  started : Bool := false
  posted : Bool := false
  gen : Nat := 0
  srcGens : List Nat := []
  reads : List Nat := []
  writes : List Nat := []
  bankWait : List Nat := []
  resume : Option (Nat × Option (BitVec 32 × Word × Word)) := none
  progress : Nat := 0
  index : List Nat := []
  kept : List (Nat × Tile) := []
  moved : List Nat := []
  got : Mp Byte := []
deriving DecidableEq, Repr

/-- A request that waits for its answer (17 R330). -/
inductive Await where
  | asked
  | answered (ok : Bool) (refused : Bool) (value : Word)
  | faulted (f : FaultRec)
deriving DecidableEq, Repr

/-- A slot of a bundle, ready to execute: its instruction, the offset it executes with, and whether it is a replay. -/
structure FSlot where
  k : Slot
  word : BitVec 64
  instr : Instr
  offset : BitVec 24
  replayed : Bool
deriving DecidableEq, Repr

/-- A bundle that waits for an answer to a request it has made: it is not fetched again (17 R330). -/
structure HeldBundle where
  h : Header
  len : Nat
  slots : List FSlot
deriving DecidableEq, Repr

/-- A barrier update under way to its controller (14 R274): the object by its seat of the launch and its offset there. -/
structure BarUpd where
  core : Nat
  seat : Nat := 0
  key : Nat
  regionOff : Nat
  addr : Word
  expect : Bool
  arrivals : Nat
  bytes : Nat
  gtag : Nat
deriving DecidableEq, Repr

/-- A context (07 Table 07-2, Table 07-8). -/
structure Ctx where
  life : Life := .free
  launch : Option Word := none
  pc : Word := 0
  handler : Bool := false
  regs : Mp Word := []
  preds : BitVec 8 := 1
  pend : List RegRef := []
  frozen : List FrozenW := []
  bobbins : Mp Bobbin := []
  latchT : Mp Latch := []
  latchH : Mp Latch := []
  tokens : Mp Nat := []
  drawKey : BitVec 32 := 0
  drawCtr : BitVec 32 := 0
  qw : Word := 0
  qwRoot : RootRef := {}
  banks : Mp (BitVec 16) := []
  tiles : Mp Tile := []
  fill : Nat := 0
  status : Word := 0
  faultCause : BitVec 8 := 0
  faultField : BitVec 4 := 0
  faultSlots : BitVec 6 := 0
  faultPc : Word := 0
  faultAddr : Word := 0
  faultInfo : Word := 0
  precision : Word := 0
  pinLimit : BitVec 32 := 256
  pins : List Nat := []
  tilesPer : Nat := 0
  ctxsPer : Nat := 0
  shadow : Word := 0
  entry : Option EntryKind := none
  drains : Bool := false
  drainPc : Word := 0
  events : List CtxEvent := []
  engFault : List (EOp × FaultRec × Bool) := []
  out : List Access := []
  await : Option Await := none
  awaitX : Option Await := none
  issued : Bool := false
  held : Option HeldBundle := none
  consts : List (Slot × TypeWord) := []
  barrier : Option BarUpd := none
  bwait : Option (Nat × Bool) := none
  qwaits : Bool := false
  idleAt : Option Nat := none
  idleMet : Bool := false
  walkFail : Option (Word × BitVec 4 × Bool) := none
  missed : Bool := false
  subs : List Sub := []
  seatBase : Nat := 0
  reserve : Nat := 0
  stalled : Bool := false
  blocked : Bool := false
  leaveAt : Option Word := none
  replay : Option (Nat × Nat) := none
  replayAt : Word := 0
  wroteOut : Bool := false
deriving DecidableEq, Repr

/-- A posted send (16 R319); `seq` gives the order of posting (R323). -/
structure SendRec where
  entry : Nat
  cx : Nat
  uid : Nat
  word : TypeWord
  tag : BitVec 32
  left : Nat
  image : List Byte
  spill : Option (Nat × Nat) := none
  weight : Word
  root : RootRef
  lid : Word := 0
  seq : Nat := 0
deriving DecidableEq, Repr

/-- An entry of a receive list (16 R320), of a context of launch `lid`: `owner` is the operation that pulls it, 0 for none; `image` what a
pull that changed nothing brought (R322). -/
structure RecvEnt where
  cx : Nat
  ready : ReadyMsg
  owner : Nat := 0
  image : Option (List Byte) := none
  lid : Word := 0
deriving DecidableEq, Repr

/-- A collective tile table entry (16 R325, R326). -/
structure TabEnt where
  cx : Nat
  op : EOp
  tag : BitVec 32
  left : Nat
  k : Nat := 0
  fired : Bool := false
  fire : Option EOp := none
deriving DecidableEq, Repr

/-- A cached leaf of the page table (12 R234). -/
structure TlbEnt where
  base : Nat
  size : Nat
  pte : Word
deriving DecidableEq, Repr

/-- A seat's part of a core (05 R88, 12 R214): its number within the launch, in order of claim (12 R216), and the shadow blocks of its
contexts (17 R343). -/
structure SeatRec where
  no : Nat := 0
  blocks : List Nat := []
  lid : Word
  core : Nat
  ctxs : List Nat
  base : Nat
  size : Nat
  first : Bool
  resident : Bool := true
  home : List Nat := []
deriving DecidableEq, Repr

/-- A core (01 Table 01-2); `waking`: a claim has met it gated, and waits for its wake (18 R356). -/
structure Core where
  cur : Nat := 0
  inRow : Nat := 0
  yielded : Bool := false
  ops : List EOp := []
  waiters : List (QKind × Nat) := []
  staged : Option (Nat × Nat × Bool × TypeWord) := none
  l1 : Mp (List Byte) := []
  icache : Mp (List Byte) := []
  tlb : List TlbEnt := []
  sends : List SendRec := []
  recvs : List RecvEnt := []
  table : Mp (Option TabEnt) := []
  gated : Bool := false
  waking : Bool := false
  inReset : Bool := false
  idleSince : Word := 0
deriving DecidableEq, Repr

/-- A hardware queue slot (05 R82, R87). -/
structure HwSlot where
  q : Nat
  no : Nat := 0
  passed : Nat := 0
  lastNotify : Word := 0
deriving DecidableEq, Repr

/-- A root of a quiet unit (15 R282). -/
structure Root where
  launch : Option Word := none
  gtag : Nat := 0
  acc : Mp Nat := []
  failed : Bool := false
  cause : BitVec 8 := 0
  excess : Bool := false
  waiter : Option Nat := none
  granted : Option Nat := none
  quiet : Bool := false
deriving DecidableEq, Repr

/-- An event on its way to a root (15 R283). -/
inductive RootEv where
  | ret (root : Nat) (gtag : Nat) (w : Word)
  | wait (root : Nat) (cx : Nat) (w : Word)
deriving DecidableEq, Repr

/-- A task to deal (05 R91). -/
structure Task where
  x : BitVec 32
  y : BitVec 32
  z : BitVec 32
  word : Word := 0
  entry : Nat := 0
  weight : Word := 0
  root : RootRef := {}
  binds : List (Nat × Nat) := []
  stealable : Bool := false
  raw : List Byte := []
deriving DecidableEq, Repr

/-- A request at a scheduler (05 R94, 10 R192, 15 R299); `host` is the address of an LREC's template that lies in host memory (R300). -/
inductive SchedReq where
  | escal (cx : Nat) (lid : Word)
  | lrec (cx : Nat) (lid : Word) (q b : Nat) (template : List Byte) (give : Word) (host : Option Word := none)
  | lcommit (cx : Nat) (lid : Word) (b : Nat)
  | spawn (cx : Nat) (lid : Word) (t : Task)
deriving DecidableEq, Repr

/-- A parked translation miss (12 R234): of a bundle, or of the engine operation `uid`. -/
structure Miss where
  cx : Nat
  va : Word
  write : Bool
  fetch : Bool
  uid : Nat := 0
deriving DecidableEq, Repr

/-- An entry of a die's error log (18 Table 18-3). -/
structure ErrEnt where
  addr : Word
  core : BitVec 8
  ctx : BitVec 8
  cause : BitVec 8
  sub : BitVec 8
  time : Word
deriving DecidableEq, Repr

/-- A compute die (01 R8, R10); `booted`: its control core has passed the checks of its image (18 R353). -/
structure Die where
  slots : List HwSlot := []
  rr : Nat := 0
  roots : Mp Root := []
  rootQ : List RootEv := []
  reqs : List SchedReq := []
  misses : List Miss := []
  tlb : List TlbEnt := []
  errlog : Mp ErrEnt := []
  errHead : BitVec 8 := 0
  fw : BitVec 4 := 0
  booted : Bool := false
  image : Option (List Byte) := none
deriving DecidableEq, Repr

/-- A window descriptor as copied at admission (04 Table 04-7). -/
structure Window where
  base : Word := 0
  ty : TypeWord := 0
  s0 : Word := 0
  s1 : Word := 0
  s2 : Word := 0
  bound : Word := 0
  access : Nat := 0
  hint : BitVec 8 := 0
  mask : Nat := 0
deriving DecidableEq, Repr

/-- A ring declaration (04 Table 04-4). -/
structure Ring where
  id : Nat
  fed : Bool
  slots : Nat
  bytes : Nat
deriving DecidableEq, Repr

/-- A kernel header as read at admission (04 Table 04-3). -/
structure Kernel where
  handle : Word := 0
  isa : Nat := 0
  persistent : Bool := false
  features : Word := 0
  contexts : Nat := 0
  tiles : Nat := 0
  entries : List Nat := []
  scratch : Nat := 0
  budget : Nat := 0
  spill : Nat := 0
  handler : Option Nat := none
  codeBase : Word := 0
  mapBase : Word := 0
  typeBase : Word := 0
  codeSize : Nat := 0
  typeCount : Nat := 0
  rings : List Ring := []
  decls : List (Nat × Nat × Nat) := []
deriving DecidableEq, Repr

/-- Where a launch stands (17 R337 to R342). -/
inductive Phase where
  | running | stopping | swapped | restoring | failing
deriving DecidableEq, Repr

/-- A deferred barrier signal (14 R277). -/
structure Deferred where
  core : Nat
  seat : Nat
  expect : Bool
  arrivals : Nat
  bytes : Nat
  offset : Nat
deriving DecidableEq, Repr

/-- A context that was swapped out, to be restored (17 R341), with the QW that its save discarded (R290) and the table entries of it that
had fired (16 R326). -/
structure SavedCtx where
  core : Nat
  ctx : Nat
  shadow : Word
  subs : List Sub
  qwRoot : RootRef
  qw : Word := 0
  events : List CtxEvent := []
  engFault : List (EOp × FaultRec × Bool) := []
  fired : List (Nat × TabEnt) := []
deriving DecidableEq, Repr

/-- An admitted launch (05 R84 to R92). -/
structure Launch where
  lid : Word
  home : Nat
  kernel : Kernel
  windows : Mp Window := []
  masks : Mp (BitVec 128) := []
  gx : Nat := 0
  gy : Nat := 0
  gz : Nat := 0
  next : Nat := 0
  wide : Bool := false
  notify : Bool := false
  podTag : BitVec 32 := 0
  record : Word := 0
  winTable : Word := 0
  root : Nat := 0
  gtag : Nat := 0
  budget : Nat := 0
  horizon : Nat := 0
  dealer : List Word := []
  dealt : Nat := 0
  seats : List SeatRec := []
  lastSeat : Nat := 0
  spawns : List Task := []
  msgs : List Task := []
  records : List Task := []
  spillBase : Nat := 0
  spillUsed : List (Nat × Nat) := []
  phase : Phase := .running
  oldSeats : List SeatRec := []
  recOut : Nat := 0
  failCause : BitVec 8 := 0
  failCore : BitVec 8 := 0
  failCtxs : Nat := 0
  cancelled : Bool := false
  deferred : List Deferred := []
  saved : List SavedCtx := []
  savedSubs : List (Nat × List Sub) := []
  seatNo : Nat := 0
  kept : List RecvEnt := []
  held : List RecvEnt := []
  credits : List Nat := []
  interval : Nat := 0x40000000
  tickAt : Word := 0
  active : Bool := false
  stalledAll : Bool := false
  idleTicks : Nat := 0
  nothing : Bool := false
  stopAt : Word := 0
  lastReturn : Word := 0
deriving DecidableEq, Repr

/-- The state of a line of the L2 (12 R222 to R226): class, remaining read count, valid and dirty sectors, pins, home. -/
structure L2Line where
  cls : Nat := 0
  count : Nat := 0
  valid : BitVec 8 := 0
  dirty : BitVec 8 := 0
  pins : List Nat := []
  home : Nat := 0
  stamp : Nat := 0
deriving DecidableEq, Repr

/-- A link message under way (16 Table 16-5); delivering one is the event of its class. -/
inductive Msg where
  | read (h : MsgHdr) (space : BitVec 8) (size : Nat) (addr : Word)
  | readAnswer (h : MsgHdr) (status : BitVec 3) (size : Nat) (addr : Word) (data : List Byte)
  | write (h : MsgHdr) (space : BitVec 8) (size : Nat) (addr mask : Word) (data : List Byte)
  | writeAnswer (h : MsgHdr) (status : BitVec 3) (size : Nat) (addr : Word)
  | atomic (h : MsgHdr) (op scope : BitVec 8) (addr operand swap : Word)
  | atomicAnswer (h : MsgHdr) (status : BitVec 3) (addr old : Word)
  | sendReady (h : MsgHdr) (r : ReadyMsg)
  | pull (h : MsgHdr) (refusal : Bool) (sender : BitVec 10) (core entry gtag : Nat) (endpoint : Word) (tag : BitVec 32)
  | pullData (h : MsgHdr) (sender : BitVec 10) (core entry gtag : Nat) (endpoint : Word) (image : List Byte)
  | weightReturn (h : MsgHdr) (device : BitVec 16) (domain : BitVec 8) (gtag : Nat) (w : Word)
  | activeMessage (h : MsgHdr) (template : List Byte) (endpoint : Word) (sender : BitVec 10) (gtag : Nat) (kernel : Word)
  | loadSummaryToken (h : MsgHdr) (t : LoadToken)
  | stealRequest (h : MsgHdr) (r : StealReq)
  | stealGrant (h : MsgHdr) (victim : BitVec 10) (jobTag : BitVec 32) (records : List (List Byte))
  | tileRecordMessage (h : MsgHdr) (victim : BitVec 10) (record : List Byte)
  | faultNotice (h : MsgHdr) (n : Notice)
deriving DecidableEq, Repr

/-- Where a port stands in its training (16 R310). -/
inductive PortPhase where
  | down | offering | accepting | up | failed
deriving DecidableEq, Repr

/-- A link port (16 R304 to R310).  `unacked` holds the messages of the replay buffer with the first sequence number not yet
acknowledged and the flits from there on; `rxSeq` counts the flits accepted in sequence, `rxAny` says whether there is one; `life` counts
the links that have come up at the port (DEDUCED, log 60). -/
structure Port where
  phase : PortPhase := .down
  life : Nat := 0
  version : Nat := 0
  partner : Nat := 0
  txSeq : Nat := 0
  rxSeq : Nat := 0
  rxAny : Bool := false
  sentAccept : Bool := false
  gotAccept : Bool := false
  unacked : List (Nat × Nat × Msg) := []
  resends : Nat := 0
deriving DecidableEq, Repr

/-- A link sequence number: the number of a port, which of its links, and the number of a flit there (16 R306, R310). -/
structure LinkSeq where
  port : Nat
  life : Nat
  seq : Nat
deriving DecidableEq, Repr

/-- How a message of another device comes in: the port, the sequence number of its first flit, and the acknowledgement that its flits
carry (16 Table 16-1); `first`, of a message that is sent again after its link failed or was trained again, is the link sequence number with
which an earlier copy came to this device (15 R288) (DEDUCED, log 58). -/
structure Arrival where
  port : PortId
  seq : Nat
  ack : Option Nat := none
  first : Option LinkSeq := none
deriving DecidableEq, Repr

/-- What the bridge completes a host request with (16 R315): 0 done, 1 Completer Abort, 2 Unsupported Request, 3 poisoned; `tag` is
that of the message the request became, 4096 when it needed none. -/
structure Completion where
  tag : Nat
  status : Nat
  data : List Byte
deriving DecidableEq, Repr

/-- The machine itself; `rx` says how the message that comes in with this step arrives, `seen` holds the link sequence numbers of the
weights that came in, `passedAt` the decisions in which the head of a frozen queue without a slot was passed over. -/
structure Mach where
  time : Word := 0
  ctxs : Mp Ctx := []
  cores : Mp Core := []
  dies : Mp Die := []
  launches : List Launch := []
  mem : List Cell := []
  hostMem : List Cell := []
  scratch : List Cell := []
  full : Mp Bool := []
  l2 : Mp L2Line := []
  mgmt : Mp Word := []
  brgSel : Bool := false
  grpPos : BitVec 4 := 0
  eccCorrected : Word := 0
  lostNotifies : BitVec 16 := 0
  lostReturns : BitVec 16 := 0
  lostFlits : BitVec 16 := 0
  notifyAt : Mp Word := []
  passedAt : Mp Nat := []
  recRoots : Mp RootRef := []
  subUsed : Mp Nat := []
  credUsed : Mp Nat := []
  ports : Mp Port := []
  routes : Mp (Option PortId) := []
  wire : List Msg := []
  outbox : List Msg := []
  seen : List LinkSeq := []
  rx : Option Arrival := none
  msgNo : Nat := 0
  lines : List (Nat × List Byte) := []
  token : Option LoadToken := none
  tokenSince : Word := 0
  tokenEpoch : BitVec 32 := 0
  msix : List Cell := []
  msixRaised : List Nat := []
  notices : List Notice := []
  hostNotices : List Notice := []
  hostAnswers : List Completion := []
  hostReqs : List Nat := []
  govK : Nat := 32
  govAt : Word := 0
  errs : List ErrSite := []
  attest : List (List Byte) := []
  steps : Nat := 0
  fresh : Nat := 0
  uid : Nat := 1
deriving DecidableEq, Repr

/-- An event that the device brings about by itself. -/
inductive Auto where
  | walk (die n : Nat) | value (cx uid : Nat) | amsg (core uid : Nat) | start (core : Nat) (q : QKind) (uid : Nat) | complete (core : Nat) (q : QKind) (uid : Nat)
  | engineFault (cx : Nat) | barrier (cx : Nat) | rootReturn (die n : Nat) | completion (lid : Word) | forced (cx : Nat)
  | interval (lid : Word) | watchdog (lid : Word) | queueMap (die : BitVec 2) (q : BitVec 12) | queueUnmap (die : BitVec 2) (q : BitVec 12)
  | packet (die : BitVec 2) (q : BitVec 12) | noOp (die : BitVec 2) (q : BitVec 12) | record (die : BitVec 2) (q : BitVec 12)
  | deal (lid : Word) | claim (lid : Word) | receipt (die n : Nat) | save (lid : Word) | seat (lid : Word) (core : Nat)
  | pushFill (cx : Nat) (ring : BitVec 4) | pushFull (cx : Nat) (ring : BitVec 4)
  | pullDrain (cx : Nat) (ring : BitVec 4) | pullDone (cx : Nat) (ring : BitVec 4)
  | deliver (n : Nat) | notice (n : Nat) | tokenHold | tokenLoss | request | offerTimer (p : PortId) | replay (p : PortId) | lineIdle (p : PortId)
  | gate (core : Nat) | wake (core : Nat) | governor (average : Nat) | boot (die : Nat)
deriving DecidableEq, Repr

/-- One move of one agent.  The agenda holds the moves that come next; inputs from outside the device stand in it too (DESIGN CHOICE, log 1). -/
inductive Act where
  | issue (core : Nat)
  | event (i : Instr)
  | arrive (a : Arrival) (i : Instr)
  | auto (e : Auto)
  | copySome (core uid n : Nat)
  | subSome (cx ring n : Nat)
  | consume (core uid : Nat)
  | dropL1 (core line : Nat)
  | dropTlb (core : Nat) (die : Bool) (n : Nat)
  | dropCode (core line : Nat)
  | idle
deriving DecidableEq, Repr

/-- Why a bundle does not issue now (07 R120, 17 R346): an internal dependency, or a wait that counts as idle. -/
inductive Stall where
  | internal | idle
deriving DecidableEq, Repr

/-- What a stalled bundle still does: it asks, registers or parks. -/
inductive Ask where
  | sched (r : SchedReq) | barrier (u : BarUpd) | miss (v : Miss) | waiter (q : QKind) | bwait (key : Nat) | qwait (w : Word)
  | idleAt (n : Nat) | replay (blk : Word) | hold | subcan (ring : Nat) | load (locs : List Loc)
deriving DecidableEq, Repr

/-- A bobbin bound by a slot of the bundle (02 R35, R38): index, value, and where it was first placed. -/
structure Binding where
  b : Nat
  v : Nat
  ext : Nat
  pos : Nat
deriving DecidableEq, Repr

/-- The bundle being issued by context `cx`.  Between steps it is empty.  `old` is the machine from before the bundle when
the bundle has several slots; `none` stands for the machine itself (DESIGN CHOICE, log 7). -/
structure Issue where
  cx : Nat := 0
  len : Nat := 0
  last : Bool := true
  guarded : Bool := false
  yield : Bool := false
  offset : BitVec 24 := 0
  replayed : Bool := false
  old : Option Mach := none
  faults : List (Slot × FaultRec) := []
  stall : Option Stall := none
  asks : List Ask := []
  binds : List (Slot × List Binding) := []
  bget : List (RegRef × Nat) := []
  seedKey : Option (BitVec 32) := none
  seedCtr : Option (BitVec 32) := none
  target : Option Word := none
  ends : Bool := false
  tret : Option Bool := none
  latches : List (Slot × Latch) := []
  consts : List (Slot × TypeWord) := []
deriving DecidableEq, Repr

/-- The state: the machine, the bundle being issued, and which agent moves next. -/
structure State where
  m : Mach := {}
  issue : Issue := {}
  agenda : List Act := []
deriving DecidableEq, Repr

/-- The device right after reset: every register of 18 Table 18-3 and of the straps at its reset value, nothing admitted,
nothing cached, every context free.  Memory lists nothing (DESIGN CHOICE, log 2). -/
def State.reset : State := { m := { brgSel := Config.strapBrgSel, grpPos := Config.strapGrpPos } }

/-- Why a step stops.  Raised by Step's `perform` only. -/
inductive Fault where
  /-- An event names an agent the device does not have (a core above 159, a context above 1279, a die above 3).  Safe: no
  such agent exists, so the hardware takes no such step. -/
  | noSuchAgent
deriving DecidableEq, Repr

/-- Why an instruction has no meaning. -/
inductive Refusal where
  /-- The model has no meaning for it yet; raised in Dispatch only.  Safe. -/
  | notModelled (mnemonic : String)
deriving DecidableEq, Repr

end Sys2Proof.Machine
end

