-- ==== Sys2Proof/Machine/Ops.lean ====
section
/-! DEFINITION. The named operations over the machine: agents, registers, translation, memory, the queue table and the
management registers. -/
namespace Sys2Proof.Machine

/-! Agents. -/
def Mach.ctx (m : Mach) (cx : Nat) : Ctx := mget {} m.ctxs cx
def Mach.setCtx (m : Mach) (cx : Nat) (c : Ctx) : Mach := { m with ctxs := mset m.ctxs cx c }
def Mach.modCtx (m : Mach) (cx : Nat) (f : Ctx → Ctx) : Mach := m.setCtx cx (f (m.ctx cx))
def Mach.core (m : Mach) (k : Nat) : Core := mget {} m.cores k
def Mach.setCore (m : Mach) (k : Nat) (c : Core) : Mach := { m with cores := mset m.cores k c }
def Mach.modCore (m : Mach) (k : Nat) (f : Core → Core) : Mach := m.setCore k (f (m.core k))
def Mach.die (m : Mach) (d : Nat) : Die := mget {} m.dies d
def Mach.setDie (m : Mach) (d : Nat) (x : Die) : Mach := { m with dies := mset m.dies d x }
def Mach.modDie (m : Mach) (d : Nat) (f : Die → Die) : Mach := m.setDie d (f (m.die d))
/-- CORE_ID of a context, die and cluster position of a core (01 R13). -/
def coreOf (cx : Nat) : Nat := cx / 8
def dieOf (core : Nat) : Nat := core / 40
def posOf (core : Nat) : Nat := core % 4
/-- A context waits for no engine queue any more (01 R12). -/
def Mach.dropWaiter (m : Mach) (cx : Nat) : Mach :=
  m.modCore (coreOf cx) fun c => { c with waiters := c.waiters.filter fun w => w.2 != cx }
def Mach.launch? (m : Mach) (lid : Word) : Option Launch := m.launches.find? fun l => l.lid == lid
def Mach.modLaunch (m : Mach) (lid : Word) (f : Launch → Launch) : Mach :=
  { m with launches := lmod (fun l => l.lid == lid) f m.launches }
/-- The launch whose seat a context runs in. -/
def Mach.launchOf (m : Mach) (cx : Nat) : Option Launch :=
  match (m.ctx cx).launch with | some lid => m.launch? lid | none => none
/-- The seat of a launch that holds a context. -/
def Launch.seatOf (l : Launch) (cx : Nat) : Option SeatRec := l.seats.find? fun s => s.ctxs.contains cx
def Launch.allCtxs (l : Launch) : List Nat := l.seats.flatMap (·.ctxs)
def Launch.domain (l : Launch) : Nat := l.home * 64 + l.root

/-! Registers (06 R107, 07 R127). -/
/-- The register a 6-bit field names: in handler mode 56 to 63 name the handler bank. -/
def regIx (handler : Bool) (r : SReg) : Nat := if handler && 56 ≤ r.toNat then r.toNat + 8 else r.toNat
def Ctx.regAt (c : Ctx) (i : Nat) : Word := if i = 0 then 0 else mget 0 c.regs i
def Ctx.s (c : Ctx) (r : SReg) : Word := c.regAt (regIx c.handler r)
def Ctx.setRegAt (c : Ctx) (i : Nat) (v : Word) : Ctx := if i = 0 then c else { c with regs := mset c.regs i v }
/-- p0 reads true. -/
def Ctx.predAt (c : Ctx) (i : Nat) : Bool := i == 0 || c.preds.getLsbD i
def Ctx.p (c : Ctx) (r : PReg) : Bool := c.predAt r.toNat
def Ctx.setPredAt (c : Ctx) (i : Nat) (v : Bool) : Ctx :=
  if i = 0 || 8 ≤ i then c
  else { c with preds := if v then c.preds ||| BitVec.ofNat 8 (2 ^ i) else c.preds &&& BitVec.ofNat 8 (255 - 2 ^ i) }
/-- Write a scalar or a predicate; s0 and p0 discard. -/
def Ctx.setRef (c : Ctx) (r : RegRef) (v : Word) : Ctx :=
  match r with | .s n => c.setRegAt n v | .p n => c.setPredAt n (v.getLsbD 0)
/-- Write a pending register and clear its pending bit (07 R124). -/
def Ctx.fulfil (c : Ctx) (r : Option RegRef) (v : Word) : Ctx :=
  match r with
  | none => c
  | some r => { c.setRef r v with pend := c.pend.filter (· != r) }
def sref (handler : Bool) (r : SReg) : RegRef := .s (regIx handler r)
def pref (r : PReg) : RegRef := .p r.toNat
/-- A discarding register is no destination: none for s0 and p0. -/
def RegRef.dest? (r : RegRef) : Option RegRef := match r with | .s 0 => none | .p 0 => none | r => some r
/-- The frozen writes that are due in `k` bundles take effect, in order of issue (07 R123). -/
def applyFrozenAt (c : Ctx) (k : Nat) : Ctx := (c.frozen.filter (·.left == k)).foldl (fun c w => c.setRef w.reg w.val) c
/-- Every outstanding frozen write takes effect at one point: the later-issued of two to one register stands (07 R123, R125). -/
def Ctx.applyAllFrozen (c : Ctx) : Ctx := { c.frozen.foldl (fun c w => c.setRef w.reg w.val) c with frozen := [] }
/-- One bundle has retired: every frozen write comes one bundle nearer, and those that are due take effect (07 R122). -/
def Ctx.tickFrozen (c : Ctx) : Ctx :=
  let fs := c.frozen.map fun w => { w with left := w.left - 1 }
  let due := fs.filter fun w => w.left == 0
  { due.foldl (fun c w => c.setRef w.reg w.val) c with frozen := fs.filter fun w => w.left != 0 }
def Ctx.latches (c : Ctx) : Mp Latch := if c.handler then c.latchH else c.latchT
def Ctx.setLatches (c : Ctx) (l : Mp Latch) : Ctx := if c.handler then { c with latchH := l } else { c with latchT := l }
/-- The operation a token waits for, 0 when it is done (07 R126). -/
def Ctx.token (c : Ctx) (k : Nat) : Nat := if k = 0 then 0 else mget 0 c.tokens k
def Ctx.tile (c : Ctx) (t : Nat) : Tile := mget { fill := c.fill * 32 + t } c.tiles t
def Ctx.setTile (c : Ctx) (t : Nat) (x : Tile) : Ctx := { c with tiles := mset c.tiles t x }
/-- A new generation of a type word (08 R160). -/
def Ctx.setWord (c : Ctx) (t : Nat) (w : TypeWord) : Ctx :=
  c.setTile t { c.tile t with word := w, gen := (c.tile t).gen + 1 }
/-- The word an engine slot delivers: the generation stays (08 R160). -/
def Ctx.deliverWord (c : Ctx) (t : Nat) (w : TypeWord) : Ctx := c.setTile t { c.tile t with word := w }

/-! Management registers (18 Table 18-3): an unlisted one holds its reset value.  Offset 0 holds the device number in force. -/
def mgmtReset (grp : BitVec 4) (off : Nat) : Nat :=
  if off = 0x000 || off = 0x008 then grp.toNat
  else if off = 0x038 then 0x100 else if off = 0x040 then 0x10 else if off = 0x048 then 0xE10
  else if 0x090 ≤ off && off ≤ 0x0A8 then
    let p := (off - 0x090) / 2
    (0x8000 + p) + (0x8000 + p + 1) * 2 ^ 16 + (0x8000 + p + 2) * 2 ^ 32 + (0x8000 + p + 3) * 2 ^ 48
  else 0
def Mach.mgmtAt (m : Mach) (off : Nat) : Nat :=
  match mget? m.mgmt off with | some v => v.toNat | none => mgmtReset m.grpPos off
def Mach.setMgmt (m : Mach) (off : Nat) (v : Nat) : Mach := { m with mgmt := mset m.mgmt off (BitVec.ofNat 64 v) }
def Mach.deviceNo (m : Mach) : Nat := m.mgmtAt 0x000

/-! Translation (12 R233 to R235). -/
def globalTop : Nat := 2 ^ 56
def hbmTop : Nat := 2 ^ 40
/-- An entry of a table in HBM. -/
def Mach.pte (m : Mach) (table ix : Nat) : Nat := leNat (cgetN m.mem (table + 8 * ix) 8)
def pteAddr (e : Nat) : Nat := e / 256 % 2 ^ 48 * 256
def pteBit (e i : Nat) : Bool := e / 2 ^ i % 2 == 1
/-- A leaf: its alignment, then whether an HBM page lies below 2^40; the subcode of Table 12-6 on failure. -/
def leafEnt (va e size : Nat) : Except Nat TlbEnt :=
  if pteAddr e % size ≠ 0 then .error 2
  else if !pteBit e 5 && hbmTop < pteAddr e + size then .error 0
  else .ok ⟨va / size * size, size, BitVec.ofNat 64 e⟩
/-- Has an entry of a table an uncorrectable error (R222)? -/
def Mach.pteErr (m : Mach) (table ix : Nat) : Bool := !m.errs.isEmpty && (upFrom (table + 8 * ix) 8).any fun a => m.errs.contains (.hbm a)
/-- The four-level walk of a global address; 6 stands for an entry in error (R222). -/
def Mach.walk (m : Mach) (va : Nat) : Except Nat TlbEnt :=
  let root := m.mgmtAt 0x018 / 4096 * 4096
  let a := m.pte root (va / 2 ^ 39 % 2 ^ 17)
  if m.pteErr root (va / 2 ^ 39 % 2 ^ 17) then .error 6 else
  if !pteBit a 0 then .error 0 else if pteBit a 1 then .error 1 else if pteAddr a % 4096 ≠ 0 then .error 2 else
  let b := m.pte (pteAddr a) (va / 2 ^ 30 % 512)
  if m.pteErr (pteAddr a) (va / 2 ^ 30 % 512) then .error 6 else
  if !pteBit b 0 then .error 0 else if pteBit b 1 then leafEnt va b (2 ^ 30) else if pteAddr b % 4096 ≠ 0 then .error 2 else
  let c := m.pte (pteAddr b) (va / 2 ^ 21 % 512)
  if m.pteErr (pteAddr b) (va / 2 ^ 21 % 512) then .error 6 else
  if !pteBit c 0 then .error 0 else if pteBit c 1 then leafEnt va c (2 ^ 21) else if pteAddr c % 256 ≠ 0 then .error 2 else
  let d := m.pte (pteAddr c) (va / 2 ^ 16 % 32)
  if m.pteErr (pteAddr c) (va / 2 ^ 16 % 32) then .error 6 else
  if !pteBit d 0 then .error 0 else leafEnt va d (2 ^ 16)

def TlbEnt.covers (t : TlbEnt) (va : Nat) : Bool := t.base ≤ va && va < t.base + t.size
/-- The location a leaf maps an address to. -/
def TlbEnt.loc (t : TlbEnt) (va : Nat) : Loc :=
  let pa := pteAddr t.pte.toNat + va % t.size
  if pteBit t.pte.toNat 5 then .host pa else .hbm pa
def tlbFind (l : List TlbEnt) (va : Nat) : Option TlbEnt := l.find? (·.covers va)

/-- Put a leaf into a translation cache of `cap` entries, dropping the oldest (DEDUCED, log 10). -/
def tlbPut (l : List TlbEnt) (cap : Nat) (t : TlbEnt) : List TlbEnt :=
  (t :: l.filter (fun x => x.base != t.base || x.size != t.size)).take cap

/-- The address of a byte for the device's own agents, whatever the permissions. -/
def Mach.sysLoc (m : Mach) (va : Nat) : Option Loc :=
  if va < globalTop then (match m.walk va with | .ok t => some (t.loc va) | .error _ => none) else none

/-! Memory (12 R261's points). -/
/-- The scratchpad byte of a core: 3 MiB each (12 R214). -/
def scratchSize : Nat := 0x300000
def scratchKey (core off : Nat) : Nat := core * scratchSize + off
def Mach.read (m : Mach) : Loc → Byte
  | .hbm pa => cget m.mem pa
  | .host pa => cget m.hostMem pa
  | .scratch k => cget m.scratch k
/-- Write one byte at its point; a write clears an error mark on it (12 R223). -/
def Mach.write (m : Mach) (l : Loc) (b : Byte) : Mach :=
  match l with
  | .hbm pa => { m with mem := cput m.mem pa b, errs := m.errs.filter (· != .hbm pa) }
  | .host pa => { m with hostMem := cput m.hostMem pa b }
  | .scratch k => { m with scratch := cput m.scratch k b,
                           errs := m.errs.filter (· != .scratch (k / scratchSize) (k % scratchSize)) }
/-- Where a soft error of a location is marked (12 R222). -/
def Loc.site? : Loc → Option ErrSite
  | .hbm pa => some (.hbm pa)
  | .scratch k => some (.scratch (k / scratchSize) (k % scratchSize))
  | .host _ => none
/-- Has a location an uncorrectable error (12 R222)? -/
def Mach.errAt (m : Mach) (l : Loc) : Bool :=
  match l with
  | .hbm pa => m.errs.contains (.hbm pa)
  | .scratch k => m.errs.contains (.scratch (k / scratchSize) (k % scratchSize))
  | .host _ => false
def Mach.readLocs (m : Mach) (ls : List Loc) : List Byte := ls.map m.read
def Mach.writeLocs (m : Mach) (ls : List Loc) (bs : List Byte) : Mach := (ls.zip bs).foldl (fun m x => m.write x.1 x.2) m
/-- Write a part of a byte; `whole` says that all of it has been written so.  An error of the byte stays until then (12 R223)
(DESIGN CHOICE, log 96). -/
def Mach.writePart (m : Mach) (ls : List Loc) (b : Byte) (whole : Bool) : Mach :=
  let bad := if whole then [] else (ls.filter m.errAt).filterMap Loc.site?
  let m := m.writeLocs ls [b]
  { m with errs := m.errs ++ bad }
/-- Reads and writes of the device's own agents by virtual address; an untranslated byte reads 0 and takes no write. -/
def Mach.devRead (m : Mach) (va n : Nat) : List Byte :=
  (upFrom va n).map fun a => match m.sysLoc a with | some l => m.read l | none => 0
/-- Has one of the bytes an uncorrectable error? -/
def Mach.devErr (m : Mach) (va n : Nat) : Bool := !m.errs.isEmpty && (upFrom va n).any fun a => (m.sysLoc a).any m.errAt
/-- One address of each 64 KiB page that a range meets. -/
def pageAddrs (a n : Nat) : List Nat :=
  if n = 0 then [] else a :: (upFrom (a / 65536 + 1) ((a + n - 1) / 65536 - a / 65536)).map (· * 65536)
/-- What an access of the device's own agents to a range meets, its address, cause and subcode: a page without translation, or for a read
the first byte with an uncorrectable error (12 R222, R235) (DEDUCED, log 21). -/
def Mach.devFailure (m : Mach) (a n : Nat) (write : Bool) : Option (Nat × Nat × Nat) :=
  ((pageAddrs a n).findSome? fun va =>
    if globalTop ≤ va then some (va, 0x0A, 3)
    else match m.walk va with | .error sub => some (va, if sub = 6 then 0x0A else 0x09, sub) | .ok _ => none).or
  (if write || m.errs.isEmpty then none else ((upFrom a n).find? fun x => (m.sysLoc x).any m.errAt).map fun x => (x, 0x0A, 6))
/-- The first page of a range that the device cannot read, with its cause and subcode, or an uncorrectable error in the range (12 R222)
(DESIGN CHOICE, log 49). -/
def readFailure (m : Mach) (a n : Nat) : Option (Nat × Nat × Nat) :=
  ((pageAddrs a n).findSome? fun va =>
    if globalTop ≤ va then some (va, 0x0A, 3)
    else match m.walk va with
      | .error sub => some (va, if sub = 6 then 0x0A else 0x09, sub)
      | .ok t => if pteBit t.pte.toNat 2 then none else some (va, 0x0A, 2)).or (m.devFailure a n false)
def Mach.devWrite (m : Mach) (va : Nat) (bs : List Byte) : Mach :=
  ((upFrom va bs.length).zip bs).foldl (fun m x => match m.sysLoc x.1 with | some l => m.write l x.2 | none => m) m
def Mach.devNat (m : Mach) (va n : Nat) : Nat := leNat (m.devRead va n)
def Mach.devPut (m : Mach) (va n v : Nat) : Mach := m.devWrite va (leBytes n v)

/-- Does an access of a context reach the scratchpad of another core that is under reset (12 R216)? -/
def underReset (m : Mach) (cx : Nat) (ls : List Loc) : Bool :=
  ls.any fun l => match l with | .scratch k => k / scratchSize != coreOf cx && (m.core (k / scratchSize)).inReset | _ => false

/-- Full bits by device-wide line number (12 R214, R217). -/
def linesPerCore : Nat := 24576
def lineOfKey (k : Nat) : Nat := k / 128
def Mach.fullAt (m : Mach) (line : Nat) : Bool := mget false m.full line
def Mach.setFullAt (m : Mach) (line : Nat) (v : Bool) : Mach :=
  let m := { m with full := mset m.full line v }
  if v then { m with ctxs := m.ctxs.map fun (cx, c) => (cx, if c.idleAt = some line then { c with idleAt := none, idleMet := true } else c) } else m

/-- Record a violation in a die's error log (12 R235, 18 R357). -/
def Mach.logErr (m : Mach) (die : Nat) (addr : Word) (core ctx cause sub : Nat) : Mach :=
  m.modDie die fun d => { d with
    errlog := mset d.errlog (d.errHead.toNat % 64)
      ⟨addr, BitVec.ofNat 8 core, BitVec.ofNat 8 ctx, BitVec.ofNat 8 cause, BitVec.ofNat 8 sub, m.time⟩
    errHead := d.errHead + 1 }
/-- A violation of the device's own agents: its requester is no context (DESIGN CHOICE, log 49). -/
def Mach.logDev (m : Mach) (die : Nat) (f : Option (Nat × Nat × Nat)) : Mach :=
  match f with | some (va, cause, sub) => m.logErr die (BitVec.ofNat 64 va) 0xFF 0xFF cause sub | none => m
/-- The faults of an access: translation, protection, and a target under reset (12 R216, R235). -/
def FaultRec.ofAccess (f : FaultRec) : Bool := f.cause = 0x09 || f.cause = 0x0A || (f.cause = 0x10 && f.info = 0)
/-- The fault of a context whose access meets a failure (12 R222, R235). -/
def devFault (f : Nat × Nat × Nat) : FaultRec := { cause := BitVec.ofNat 8 f.2.1, addr := BitVec.ofNat 64 f.1, info := BitVec.ofNat 64 f.2.2 }
/-- A fault that a context takes for an access stands in the error log of its die (12 R235). -/
def Mach.logFault (m : Mach) (cx : Nat) (f : FaultRec) : Mach :=
  if f.ofAccess then m.logErr (dieOf (coreOf cx)) f.addr (coreOf cx) (cx % 8) f.cause.toNat (f.info.toNat % 16) else m
/-- A write of the device's own agents, on behalf of a die: what finds no translation is logged (12 R235). -/
def Mach.devStore (m : Mach) (die va : Nat) (bs : List Byte) : Mach := (m.logDev die (m.devFailure va bs.length true)).devWrite va bs

/-! The queue table (05 R78), at virtual addresses (DEDUCED, log 21). -/
def Mach.qAddr (m : Mach) (q : Nat) : Nat := m.mgmtAt 0x010 / 4096 * 4096 + 64 * q
def Mach.qGet (m : Mach) (q off n : Nat) : Nat := m.devNat (m.qAddr q + off) n
def Mach.qHome (m : Mach) (q : Nat) : Nat := m.qGet q 11 1 % 4
def Mach.qPut (m : Mach) (q off n v : Nat) : Mach := m.devStore (m.qHome q) (m.qAddr q + off) (leBytes n v)
def Mach.qFlag (m : Mach) (q bit : Nat) : Bool := m.qGet q 9 1 / 2 ^ bit % 2 == 1
def Mach.qCap (m : Mach) (q : Nat) : Nat := m.qGet q 8 1
/-- What a read of a queue's entry meets (12 R222, R235). -/
def Mach.qFailure (m : Mach) (q : Nat) : Option (Nat × Nat × Nat) := m.devFailure (m.qAddr q) 64 false
/-- An entry that cannot be read, as the agent that finds it so logs it (12 R235). -/
def Mach.logQueue (m : Mach) (q : Nat) : Mach := m.logDev (m.qHome q) (m.qFailure q)
/-- Change an entry by what it holds; one that cannot be read is logged and stays as it is (DESIGN CHOICE, log 96). -/
def Mach.qChange (m : Mach) (q : Nat) (f : Mach → Mach) : Mach := if (m.qFailure q).isSome then m.logQueue q else f m
def Mach.qSetFlag (m : Mach) (q bit : Nat) (v : Bool) : Mach :=
  m.qChange q fun m =>
    let f := m.qGet q 9 1
    m.qPut q 9 1 (if v then f ||| 2 ^ bit else f - (f / 2 ^ bit % 2) * 2 ^ bit)
/-- An enabled queue: its flag, and a capacity of 4 to 16 (Table 05-1); one whose entry cannot be read is not (DESIGN CHOICE, log 96). -/
def Mach.qEnabled (m : Mach) (q : Nat) : Bool := m.qFlag q 0 && 4 ≤ m.qCap q && m.qCap q ≤ 16 && (m.qFailure q).isNone
def noFailure : Nat := 2 ^ 64 - 1
/-- Set the failure index if none is set, and freeze (05 R85, R89). -/
def Mach.qFail (m : Mach) (q i : Nat) : Mach :=
  m.qChange q fun m => (if m.qGet q 40 8 = noFailure then m.qPut q 40 8 i else m).qSetFlag q 2 true
def lidQueue (lid : Word) : Nat := lid.toNat / 2 ^ 52
def lidIndex (lid : Word) : Nat := lid.toNat % 2 ^ 52

def sat16 (b : BitVec 16) : BitVec 16 := if b = 0xFFFF then b else b + 1

/-- A notify for queue q (05 R81): a mapped queue is examined, an enabled one is marked pending, any other is counted.  The time of
the last one stays with the queue (R82). -/
def Mach.notify (m : Mach) (q : Nat) : Mach :=
  let wake (m : Mach) : Mach :=
    { m with ctxs := m.ctxs.map fun (cx, c) => (cx, if c.idleAt = some (2 ^ 32 + q) then { c with idleAt := none } else c) }
  if !m.qEnabled q then { m.logQueue q with lostNotifies := sat16 m.lostNotifies }
  else
    let d := m.qHome q
    if (m.die d).slots.any fun s => s.q == q then
      wake (m.modDie d fun x => { x with
        slots := lmod (fun s => s.q == q) (fun s => { s with lastNotify := m.time }) x.slots })
    else wake { m.qSetFlag q 1 true with notifyAt := mset m.notifyAt q m.time }
/-- A write to a notify register: 2, 4 or 8 bytes at offset 0 (05 R81). -/
def Mach.notifyWrite (m : Mach) (offset size : Nat) (v : Word) : Mach :=
  if offset = 0 && (size = 2 || size = 4 || size = 8) then m.notify (v.toNat % 4096)
  else { m with lostNotifies := sat16 m.lostNotifies }

/-! Weight words (15 R280, R281). -/
def wScale (w : Word) : Nat := w.toNat / 2 ^ 60
def wAmount (w : Word) : Nat := w.toNat % 2 ^ 60
def mkWeight (s a : Nat) : Word := if a = 0 then 0 else BitVec.ofNat 64 (s % 16 * 2 ^ 60 + a % 2 ^ 60)
def wholeWeight : Word := mkWeight 0 (2 ^ 59)
/-- `split`: keep and give, or none for QUIET_DEPTH. -/
def splitWeight (w : Word) : Option (Word × Word) :=
  if wAmount w = 0 then none
  else if wAmount w = 1 then
    (if wScale w = 15 then none else some (mkWeight (wScale w + 1) (2 ^ 58), mkWeight (wScale w + 1) (2 ^ 58)))
  else some (mkWeight (wScale w) (wAmount w / 2), mkWeight (wScale w) (wAmount w - wAmount w / 2))

/-- Carry accumulator t into t − 1 for t from the argument down to 1. -/
def carryAcc (acc : Mp Nat) : Nat → Mp Nat
  | 0 => acc
  | t + 1 =>
    let a := mget 0 acc (t + 1)
    carryAcc (mset (mset acc (t + 1) (a % 2 ^ 59)) t (mget 0 acc t + a / 2 ^ 59)) t
/-- `root_return` (R282): accumulate, normalise, then test for excess and quiet (DEDUCED, log 82). -/
def Root.add (r : Root) (w : Word) : Root :=
  let acc := carryAcc (mset r.acc (wScale w) (mget 0 r.acc (wScale w) + wAmount w)) 15
  let a0 := mget 0 acc 0
  let rest := (upFrom 1 15).any fun t => mget 0 acc t != 0
  if r.excess then { r with acc := acc }
  else if 2 ^ 59 < a0 || (a0 == 2 ^ 59 && rest) then
    { r with acc := acc, excess := true, failed := true, cause := if r.failed then r.cause else 0x0D }
  else { r with acc := acc, quiet := a0 == 2 ^ 59 && !rest }
def Mach.root (m : Mach) (dom : Nat) : Root := mget {} (m.die (dom / 64)).roots (dom % 64)
def Mach.setRoot (m : Mach) (dom : Nat) (r : Root) : Mach :=
  m.modDie (dom / 64) fun d => { d with roots := mset d.roots (dom % 64) r }
/-- Weight moved in a domain of this device: activity for its watchdog (15 R303). -/
def Mach.touch (m : Mach) (r : RootRef) : Mach :=
  if r.device = m.deviceNo then
    match (m.root r.domain.toNat).launch with
    | some lid => m.modLaunch lid fun l => { l with active := true }
    | none => m
  else m

/-- The next number for operations, accesses and messages. -/
def Mach.nextUid (m : Mach) : Mach := { m with uid := m.uid + 1 }
/-- A header for a message of ours, with the sender's number for it (16 R305). -/
def Mach.header (m : Mach) (dst : Nat) : MsgHdr := ⟨BitVec.ofNat 10 m.deviceNo, BitVec.ofNat 10 dst, BitVec.ofNat 12 m.msgNo⟩
def Mach.postOut (m : Mach) (i : Msg) : Mach := { m with outbox := m.outbox ++ [i], msgNo := m.msgNo + 1 }.nextUid
def Mach.postWire (m : Mach) (i : Msg) : Mach := { m with wire := m.wire ++ [i], msgNo := m.msgNo + 1 }.nextUid

/-- Return a word to a root (15 R282, R287): queued at the root's die, or sent as a message to its device. -/
def Mach.returnWeight (m : Mach) (r : RootRef) (w : Word) : Mach :=
  if wAmount w = 0 then m
  else if r.device = m.deviceNo then
    m.modDie (r.domain.toNat / 64) fun d => { d with rootQ := d.rootQ ++ [.ret (r.domain.toNat % 64) r.gtag w] }
  else m.postOut (.weightReturn (m.header r.device) (BitVec.ofNat 16 r.device) r.domain r.gtag w)

/-- The root a context's launch belongs to. -/
def Launch.rootRef (m : Mach) (l : Launch) : RootRef := ⟨m.deviceNo, BitVec.ofNat 8 l.domain, l.gtag⟩

/-- A fault notice for the host (16 Table 16-5) (DESIGN CHOICE, log 17). -/
def Mach.postNotice (m : Mach) (kind : Nat) (cause : BitVec 8) (cx : Nat) (lid addr info : Word) : Mach :=
  { m with notices := m.notices ++ [⟨kind, cause, cx, lid, addr, info, m.time, m.deviceNo⟩] }

/-! The events that wait for a boundary of a context. -/
def CtxEvent.isLeave : CtxEvent → Bool
  | .cancel _ _ => true
  | .watchdog _ => true
  | _ => false
/-- A post-commit error (13 R238). -/
def CtxEvent.isAccess : CtxEvent → Bool
  | .access _ _ => true
  | _ => false
/-- A post-commit error of an access that handler mode issued. -/
def CtxEvent.inHandler : CtxEvent → Bool
  | .access _ h => h
  | _ => false
def Access.isPrefetch (a : Access) : Bool := match a.kind with | .prefetch _ _ _ => true | _ => false
/-- Does an access of the context other than a prefetch stand out?  A prefetch holds no later bundle back (13 R242). -/
def Ctx.busyOut (c : Ctx) : Bool := c.out.any (!·.isPrefetch)
/-- A bundle that waits for an answer is not interrupted, QWAIT excepted (17 R330). -/
def Ctx.interruptible (c : Ctx) : Bool := (c.await.isNone || c.qwaits) && c.awaitX.isNone
/-- A pre-emption has begun: its request stands at a task-mode boundary with no fault before it (17 R331, R335, R340) (DEDUCED, log 35). -/
def Ctx.preempting (c : Ctx) : Bool :=
  !c.handler && c.interruptible && c.life != .draining && c.events.head? == some .preempt
/-- Queue a fault found after issue: before a PREEMPT that waits beside it, after one that has begun (17 R331, Table 17-2b). -/
def Ctx.putFault (c : Ctx) (first : Bool) (e : CtxEvent) : Ctx :=
  if first then { c with events := c.events.filter (· != .preempt) ++ [e] ++ c.events.filter (· == .preempt) }
  else { c with events := c.events ++ [e] }
def Ctx.addFault (c : Ctx) (e : CtxEvent) : Ctx := c.putFault (!c.preempting) e

end Sys2Proof.Machine
end

