-- ==== Sys2Proof/Machine/Access.lean ====
section
/-! DEFINITION. Performing an outstanding access at its point (12 R219 to R228, 13 R238 to R247, 14 R261 to R266). -/
namespace Sys2Proof.Machine

/-! The L2 as state of its lines (12 R222 to R226); hints never change a value. -/
structure Hint where
  cls : Nat
  noAlloc : Bool
  count : Nat
deriving DecidableEq, Repr
/-- A hint byte; eviction priority 3 takes the window's default (Table 06-8, R224), which is 0 without a window and where it is itself 3
(DESIGN CHOICE, log 9). -/
def hintOf (h : BitVec 8) (window : Nat := 0) : Hint :=
  ⟨(if bits h 1 0 = 3 then window % 4 else bits h 1 0) % 3, h.getLsbD 2, bits h 6 3⟩

/-- The hash home of a line (R221). -/
def lineHome (n : Nat) : Nat :=
  let stack := (n % 8) ^^^ (n / 2 ^ 10 % 8) ^^^ (n / 2 ^ 20 % 8)
  let slice := (n / 8 % 32) ^^^ (n / 2 ^ 13 % 32) ^^^ (n / 2 ^ 23 % 32)
  32 * (stack / 2) + slice
/-- The lines of the set of line `n` in slice `home`; the index of the set is a free value (DESIGN CHOICE, log 9). -/
def l2Peers (l : Mp L2Line) (home n : Nat) : Mp L2Line :=
  l.filter fun x => x.2.home == home && Config.l2Set x.1 % 256 == Config.l2Set n % 256
/-- The line that makes room in a full set (12 R224). -/
def l2Victim (l : Mp L2Line) (home n : Nat) : Option Nat :=
  let same := l2Peers l home n
  let free := same.filter fun x => x.2.pins.isEmpty
  if same.length < 16 then none
  else
    let rank (x : Nat × L2Line) : Nat := (if x.2.cls = 1 then 0 else if x.2.cls = 0 then 1 else 2) * 2 ^ 64 + x.2.stamp
    (free.foldl (fun b x => match b with | none => some x | some y => if rank x < rank y then some x else b) none).map (·.1)
/-- Allocate a line at a slice, evicting the victim of its set there. -/
def l2Alloc (m : Mach) (home n : Nat) (x : L2Line) : Mach :=
  let l := match l2Victim m.l2 home n with | some v => mdel m.l2 v | none => m.l2
  { m with l2 := mset l n { x with stamp := m.fresh, home := home }, fresh := m.fresh + 1 }
/-- A line moves to another slice as it is (12 R227). -/
def l2Move (m : Mach) (home n : Nat) (x : L2Line) : Mach :=
  if x.home = home then { m with l2 := mset m.l2 n x } else l2Alloc { m with l2 := mdel m.l2 n } home n x
def sectorBit (pa : Nat) : BitVec 8 := BitVec.ofNat 8 (2 ^ (pa / 128 % 8))
/-- A prefetch fills without counting, so a read count N allocates with N remaining: as a read of one more would (R225). -/
def Hint.prefetch (h : Hint) : Hint := if h.count = 0 then h else { h with count := h.count + 1 }
/-- One instruction's access to some sectors of a line at its home slice: a read counts once, whatever the sectors; `counts`
is false for prefetches and the other reads that lower no count (R225).  The read that fills a line is the first of its N (R224). -/
def l2Touch (m : Mach) (n : Nat) (sectors : BitVec 8) (write counts : Bool) (h : Hint) : Mach :=
  match mget? m.l2 n with
  | some x =>
    let x := { x with cls := (if h.noAlloc || !x.pins.isEmpty then x.cls else h.cls), valid := x.valid ||| sectors, stamp := m.fresh }
    let m := { m with fresh := m.fresh + 1 }
    if write then { m with l2 := mset m.l2 n { x with count := 0, dirty := x.dirty ||| sectors } }
    else if counts && x.pins.isEmpty && 0 < x.count then
      (if x.count = 1 then { m with l2 := mdel m.l2 n } else { m with l2 := mset m.l2 n { x with count := x.count - 1 } })
    else { m with l2 := mset m.l2 n x }
  | none =>
    if h.noAlloc || (!write && h.count = 1) then m
    else l2Alloc m (lineHome n) n { cls := h.cls, count := if write then 0 else h.count - 1, valid := sectors, dirty := if write then sectors else 0 }
def l2Access (m : Mach) (pa : Nat) (write counts : Bool) (h : Hint) : Mach := l2Touch m (pa / 1024) (sectorBit pa) write counts h
/-- The lines that some bytes lie in, each with its sectors. -/
def l2Lines (pas : List Nat) : Mp (BitVec 8) := pas.foldl (fun l pa => mset l (pa / 1024) (mget 0 l (pa / 1024) ||| sectorBit pa)) []
/-- All the bytes of one instruction at the L2. -/
def l2Span (m : Mach) (pas : List Nat) (write counts : Bool) (h : Hint) : Mach :=
  (l2Lines pas).foldl (fun m x => l2Touch m x.1 x.2 write counts h) m
/-- An atomic counts as one read of a counted line, and leaves the line it finds dirty (R225, 13 R241). -/
def l2Atomic (m : Mach) (pa : Nat) : Mach :=
  let m := l2Access m pa false true ⟨0, false, 0⟩
  match mget? m.l2 (pa / 1024) with
  | some x => { m with l2 := mset m.l2 (pa / 1024) { x with dirty := x.dirty ||| sectorBit pa } }
  | none => m

/-! L1 (12 R219). -/
def lineBytes (m : Mach) (line : Nat) : List Byte := cgetN m.mem (line * 128) 128
/-- Keep a line; one that holds an uncorrectable error is not kept (R222) (DEDUCED, log 10); a full L1 drops the line listed first
(DESIGN CHOICE, log 9). -/
def l1Fill (m : Mach) (core line : Nat) : Mach :=
  if !m.errs.isEmpty && (upFrom (line * 128) 128).any fun pa => m.errAt (.hbm pa) then m else
  m.modCore core fun c =>
    let l := if 1024 ≤ c.l1.length then c.l1.drop 1 else c.l1
    { c with l1 := mset l line (lineBytes m line) }
def l1Drop (m : Mach) (core : Nat) : Mach := m.modCore core fun c => { c with l1 := [] }
def l1DropLine (m : Mach) (core line : Nat) : Mach := m.modCore core fun c => { c with l1 := mdel c.l1 line }
/-- The core's own store updates a present copy. -/
def l1Store (m : Mach) (core : Nat) (pa : Nat) (b : Byte) : Mach :=
  m.modCore core fun c => match mget? c.l1 (pa / 128) with
    | some l => { c with l1 := mset c.l1 (pa / 128) (lset l (pa % 128) b) }
    | none => c

/-- Does the L1 of a core hold this byte? -/
def l1Has (m : Mach) (core : Nat) (l : Loc) : Bool := match l with | .hbm pa => (mget? (m.core core).l1 (pa / 128)).isSome | _ => false
def isHost (l : Loc) : Bool := match l with | .host _ => true | _ => false
/-- The global bytes of an access. -/
def hbmOf (ls : List Loc) : List Nat := ls.filterMap fun l => match l with | .hbm pa => some pa | _ => none
/-- A byte as a scalar load reads it: the L1 copy where there is one. -/
def l1Byte (m : Mach) (core : Nat) (l : Loc) : Byte :=
  match l with
  | .hbm pa => (match mget? (m.core core).l1 (pa / 128) with | some d => d.getD (pa % 128) 0 | none => m.read l)
  | _ => m.read l
/-- A scalar load's bytes; each line that misses is read at its home slice and kept (R219). -/
def loadBytes (m : Mach) (core : Nat) (ls : List Loc) (hint : BitVec 8) : Mach × List Byte :=
  let miss := hbmOf (ls.filter fun l => !l1Has m core l)
  let m' := l2Span m miss false true (hintOf hint)
  (if hint.getLsbD 2 then m' else (miss.map (· / 128)).eraseDups.foldl (fun m n => l1Fill m core n) m', ls.map (l1Byte m core))
def storeBytes (m : Mach) (core : Nat) (ls : List Loc) (bs : List Byte) (hint : BitVec 8) : Mach :=
  let m := l2Span m (hbmOf ls) true false (hintOf hint)
  (ls.zip bs).foldl (fun m x => match x.1 with | .hbm pa => l1Store (m.write x.1 x.2) core pa x.2 | _ => m.write x.1 x.2) m

/-- The new value of an atomic (13 R241). -/
def atomicNew (op : BitVec 8) (mem x swap : Word) : Word :=
  match op.toNat with
  | 0x10 => mem + x
  | 0x11 => mem &&& x
  | 0x12 => mem ||| x
  | 0x13 => mem ^^^ x
  | 0x14 => if mem.toInt ≤ x.toInt then mem else x
  | 0x15 => if mem.toInt ≤ x.toInt then x else mem
  | 0x16 => if mem.toNat ≤ x.toNat then mem else x
  | 0x17 => if mem.toNat ≤ x.toNat then x else mem
  | 0x18 => x
  | 0x19 => if mem = x then swap else mem
  | _ => BitVec.ofNat 64 (f32c (fadd32 .rne (f32 mem.toNat) (f32 x.toNat)))

def loadValue (signed : Bool) (bs : List Byte) : Word :=
  if signed then BitVec.ofInt 64 (sgn (8 * bs.length) (leNat bs)) else word64 bs

def AccKind.dst : AccKind → Option RegRef
  | .load d _ _ => d
  | .atomic _ d _ _ => d
  | .acquire d => d
  | .testFull _ d => d
  | .barrierTest _ d => d
  | .pin _ _ d => d
  | .give d _ => d
  | .readRoot _ d => d
  | _ => none
def AccKind.isWrite : AccKind → Bool
  | .store _ => true
  | .atomic _ _ _ _ => true
  | _ => false
def Ctx.dropAccess (c : Ctx) (uid : Nat) : Ctx := { c with out := c.out.filter (·.uid != uid) }

/-- An error answered after the bundle committed (13 R238): zero to the destination, the fault at the next boundary; a second
one before that is logged only (DEDUCED, log 56). -/
def postCommit (m : Mach) (cx : Nat) (a : Access) (cause : BitVec 8) (sub : Nat) : Mach :=
  let info := if cause = 0x10 then 0 else BitVec.ofNat 64 (sub + if a.kind.isWrite then 16 else 0)
  let m := m.logErr (dieOf (coreOf cx)) a.addr (coreOf cx) (cx % 8) cause.toNat sub
  m.modCtx cx fun c =>
    let had := c.events.any fun e => e.isAccess
    let c := (c.fulfil a.kind.dst 0).dropAccess a.uid
    if had then c else c.addFault (.access { cause := cause, addr := a.addr, info := info } a.handlerAcc)

/-- The k-th set bit of a slice mask, from bit 0. -/
def nthBit (mask : Nat) : Nat → Nat → Nat → Nat
  | 0, i, _ => i
  | fuel + 1, i, k => if mask / 2 ^ i % 2 = 1 then (if k = 0 then i else nthBit mask fuel (i + 1) (k - 1)) else nthBit mask fuel (i + 1) k
def popCount (n : Nat) (w : Nat) : Nat := ((upFrom 0 w).filter fun i => n / 2 ^ i % 2 == 1).length
def pinHome (mask : Option Nat) (n : Nat) : Nat :=
  match mask with
  | none => lineHome n
  | some k => if popCount k 128 = 0 then lineHome n else nthBit k 128 0 (lineHome n % 32 % popCount k 128)
def Mach.pinned (m : Mach) (n : Nat) : Bool := (mget? m.l2 n).any fun x => !x.pins.isEmpty
/-- May every line of a PIN be pinned (12 R228)?  Only lines that nobody pins yet count against the 12 ways of their set, at
the slice that they move to. -/
def pinFits (m : Mach) (c : Ctx) (mask : Option Nat) (lines : List Nat) : Bool :=
  let new := lines.filter fun n => !c.pins.contains n
  let unpinned := new.filter fun n => !m.pinned n
  new.isEmpty || (c.pins.length + new.length ≤ c.pinLimit.toNat &&
    unpinned.all fun n =>
      ((l2Peers m.l2 (pinHome mask n) n).filter fun x => !x.2.pins.isEmpty).length +
        (unpinned.filter fun k => pinHome mask k == pinHome mask n && Config.l2Set k % 256 == Config.l2Set n % 256).length ≤ 12)
/-- Pin a line at its pinned home; a line already pinned stays where its first pin put it (12 R226, R228). -/
def pinLine (cx : Nat) (mask : Option Nat) (m : Mach) (n : Nat) : Mach :=
  let pin (x : L2Line) : L2Line := { x with pins := (x.pins ++ [cx]).eraseDups, valid := 0xFF, count := 0 }
  match mget? m.l2 n with
  | none => l2Alloc m (pinHome mask n) n (pin {})
  | some x => l2Move m (if x.pins.isEmpty then pinHome mask n else x.home) n (pin x)
/-- Release one context's pin of a line; with its last pin it goes back to its hash home, an ordinary line (13 R246). -/
def unpinLine (cx : Nat) (m : Mach) (n : Nat) : Mach :=
  match mget? m.l2 n with
  | none => m
  | some x =>
    let ps := x.pins.filter (· != cx)
    if ps.isEmpty then l2Move m (lineHome n) n { x with pins := ps, dirty := 0, cls := 0 }
    else { m with l2 := mset m.l2 n { x with pins := ps } }

/-- Barrier objects (14 R271): 16 bytes of scratchpad. -/
structure BarObj where
  expArr : Nat
  arr : Nat
  expBytes : Nat
  bytes : Nat
  phase : Bool
  tag : Nat
deriving DecidableEq, Repr
def Mach.barrier (m : Mach) (key : Nat) : BarObj :=
  let bs := cgetN m.scratch key 16
  ⟨fld bs 0 2, fld bs 2 2, fld bs 4 4, fld bs 8 4, decide (fld bs 12 2 / 2 ^ 15 = 1), fld bs 12 2 % 2 ^ 15⟩
def keyLocs (key : Nat) : List Loc := (upFrom key 16).map .scratch
def BarObj.encode (o : BarObj) : List Byte :=
  leBytes 2 o.expArr ++ leBytes 2 o.arr ++ leBytes 4 o.expBytes ++ leBytes 4 o.bytes ++
    leBytes 2 ((if o.phase then 2 ^ 15 else 0) + o.tag % 2 ^ 15) ++ [0, 0]
def Mach.setBarrier (m : Mach) (key : Nat) (o : BarObj) : Mach := { m with scratch := cputN m.scratch key o.encode }
/-- `advance_if_done` (R274): the phase flips, the counts restart, and every BWAIT on the object wakes. -/
def Mach.advanceBarrier (m : Mach) (key : Nat) (o : BarObj) : Mach :=
  if o.arr = o.expArr ∧ o.bytes = o.expBytes then
    let m := m.setBarrier key { o with phase := !o.phase, arr := 0, bytes := 0 }
    { m with ctxs := m.ctxs.map fun (cx, c) => (cx, if c.bwait = some (key, false) then { c with bwait := some (key, true) } else c) }
  else m.setBarrier key o
/-- One update of an object (R274), or FAULT_INFO of its BARRIER_OVERRUN. -/
def Mach.updateBarrier (m : Mach) (key : Nat) (expect : Bool) (arrivals bytes : Nat) : Except Word Mach :=
  let o := m.barrier key
  if expect then
    if o.bytes > bytes then .error (BitVec.ofNat 64 (1 + o.bytes % 2 ^ 32 * 2 ^ 32)) else .ok (m.advanceBarrier key { o with expBytes := bytes })
  else
    let a := o.arr + arrivals
    let b := o.bytes + bytes
    if a > o.expArr then .error (BitVec.ofNat 64 (a % 2 ^ 32 * 2 ^ 32))
    else if b > o.expBytes then .error (BitVec.ofNat 64 (1 + b % 2 ^ 32 * 2 ^ 32))
    else .ok (m.advanceBarrier key { o with arr := a, bytes := b })

/-- The cores whose scratchpad an access reaches. -/
def Access.targets (a : Access) : List Nat :=
  match a.kind with
  | .setFull line _ => [line / linesPerCore]
  | .testFull line _ => [line / linesPerCore]
  | .barrierTest key _ => [key / scratchSize]
  | _ => a.locs.filterMap fun l => match l with | .scratch k => some (k / scratchSize) | _ => none

/-- Perform one access; its register is written and it leaves the list. -/
def performAccess (m : Mach) (cx : Nat) (a : Access) : Mach :=
  let core := coreOf cx
  let done (m : Mach) (v : Word) : Mach := m.modCtx cx fun c => (c.fulfil a.kind.dst v).dropAccess a.uid
  let m := if a.dropL1 then l1Drop m core else m
  if a.targets.any fun k => k != core && (m.core k).inReset then postCommit m cx a 0x10 0 else
  if a.locs.any (fun l => m.errAt l && match a.kind with | .store _ => false | .load _ _ _ => !l1Has m core l | _ => true) then
    postCommit m cx a 0x0A 6 else
  match a.kind with
  | .load _ signed width =>
    let r := loadBytes m core a.locs a.hint
    done r.1 (loadValue signed (r.2 ++ List.replicate (width - r.2.length) 0))
  | .store data => done (storeBytes m core a.locs data a.hint) 0
  | .atomic op _ x swap =>
    let old := word64 (m.readLocs a.locs)
    let new := leBytes a.locs.length (atomicNew op old x swap).toNat
    let m := match a.locs with | .hbm pa :: _ => l1DropLine (l2Atomic m pa) core (pa / 128) | _ => m
    done (m.writeLocs a.locs new) old
  | .acquire _ => done (l2Span m (hbmOf a.locs) false true ⟨0, false, 0⟩) (word64 (m.readLocs a.locs))
  | .fence => done m 0
  | .notify _ offset size v => done (m.notifyWrite offset size v) 0
  | .setFull line v => done (m.setFullAt line v) 0
  | .testFull line _ => done m (if m.fullAt line then 1 else 0)
  | .barrierTest key _ => done m (if (m.barrier key).phase then 1 else 0)
  | .writeBack line =>
    done (match mget? m.l2 line with | some x => { m with l2 := mset m.l2 line { x with dirty := 0 } } | none => m) 0
  | .prefetch line l1 l2 =>
    let m := if l2 then l2Access m (line * 128) false false (hintOf a.hint).prefetch else m
    done (if l1 then l1Fill m core line else m) 0
  | .pin lines home _ =>
    if pinFits m (m.ctx cx) home lines then
      done ((lines.foldl (pinLine cx home) m).modCtx cx fun c => { c with pins := (c.pins ++ lines).eraseDups }) 1
    else done m 0
  | .unpin lines =>
    let mine := lines.filter fun n => (m.ctx cx).pins.contains n
    done ((mine.foldl (unpinLine cx) m).modCtx cx fun c => { c with pins := c.pins.filter fun n => !mine.contains n }) 0
  | .invalidate line => done (match line with | some n => l1DropLine m core n | none => l1Drop m core) 0
  | .give _ v => done m v
  | .readRoot n _ =>
    match m.launchOf cx with
    | none => done m 0
    | some l =>
      let r := m.root l.domain
      let some13 := (upFrom 1 15).any fun t => mget 0 r.acc t != 0
      done m (if n = 1 then BitVec.ofNat 64 (mget 0 r.acc 0)
        else BitVec.ofNat 64 ((if r.failed then 1 else 0) + (if r.waiter.isSome then 2 else 0) + (if r.excess then 4 else 0) +
          (if some13 then 8 else 0)))

/-- The lines of the L1 that an access reads, fills or discards. -/
def Access.l1Lines (a : Access) : List Nat :=
  match a.kind with
  | .prefetch n true _ => [n]
  | .invalidate (some n) => [n]
  | _ => (hbmOf a.locs).map (· / 128)
/-- Does `a` discard a line of the L1 that `e` touches? -/
def Access.discards (a e : Access) : Bool :=
  match a.kind with
  | .invalidate none => true
  | .invalidate (some n) => e.l1Lines.contains n
  | _ => false
/-- The granules of 128 bytes of the lines that a PIN, an UNPIN, a WBACK or a prefetch acts on. -/
def Access.lineActs (a : Access) : Option (List Nat) :=
  match a.kind with
  | .pin ls _ _ => some (ls.flatMap fun n => upFrom (8 * n) 8)
  | .unpin ls => some (ls.flatMap fun n => upFrom (8 * n) 8)
  | .writeBack n => some (upFrom (8 * n) 8)
  | .prefetch n _ _ => some [n]
  | _ => none
/-- Do both reach a byte of one line, and does one of them act on it as a line (14 R262)?  An earlier prefetch holds nothing back (13 R242). -/
def Access.meetsLine (a e : Access) : Bool :=
  let granules (x : Access) : List Nat := x.lineActs.getD ((hbmOf x.locs).map (· / 128))
  !e.isPrefetch && (a.lineActs.isSome || e.lineActs.isSome) && (granules a).any (granules e).contains
/-- May this access be performed now (14 R262, R264 to R266)?  No order waits for a prefetch (13 R242). -/
def Ctx.accessReady (c : Ctx) (a : Access) : Bool :=
  c.out.all fun e => decide (a.uid ≤ e.uid) ||
    !(e.blocksLater || (a.needsEarlier && !e.isPrefetch) || a.meetsLine e || e.locs.any (fun l => a.locs.contains l) ||
      (match a.kind with
        | .setFull _ _ => e.kind.isWrite && a.targets.any e.targets.contains
        | .testFull _ _ => e.kind.isWrite && a.targets.any e.targets.contains
        | _ => false) ||
      (match a.kind, e.kind with
        | .testFull x _, .setFull y _ => x == y
        | .setFull x _, .setFull y _ => x == y
        | .setFull x _, .testFull y _ => x == y
        | _, _ => false) || a.discards e || e.discards a)

/-- Perform every outstanding access of a context, in program order. -/
def performAll (m : Mach) (cx : Nat) : Mach := (m.ctx cx).out.foldl (fun m a => performAccess m cx a) m

end Sys2Proof.Machine
end

