-- ==== Sys2Proof/Machine/Shape.lean ====
section
/-! DEFINITION. Type words, frames, capacity, unification and storage order (02 R17 to R40). -/
namespace Sys2Proof.Machine

namespace TW
def rank (t : TypeWord) : Nat := bits t 2 0
def fmt (t : TypeWord) : Nat := bits t 7 3
def policy (t : TypeWord) : Nat := bits t 9 8
def layout (t : TypeWord) : Nat := bits t 13 10
def geom (t : TypeWord) : Nat := bits t 17 14
def valid (t : TypeWord) : Bool := t.getLsbD 18
def degraded (t : TypeWord) : Bool := t.getLsbD 19
/-- Extent field k (R18). -/
def ext (t : TypeWord) (k : Nat) : Nat := bits t (24 * k + 47) (24 * k + 24)
/-- Every extent field below the rank, outermost first. -/
def exts (t : TypeWord) : List Nat := (upFrom 0 (rank t)).map (ext t)
end TW

/-- Extent fields packed from field k on. -/
def packExts : List Nat → Nat → Nat
  | [], _ => 0
  | e :: es, k => e % 2 ^ 24 * 2 ^ (24 * k + 24) + packExts es (k + 1)

/-- A valid type word from its fields (R17); reserved fields zero. -/
def mkType (es : List Nat) (fmt lay geom pol : Nat) (deg : Bool) : TypeWord :=
  BitVec.ofNat 128 (es.length % 8 + fmt % 32 * 8 + pol % 4 * 256 + lay % 16 * 1024 + geom % 16 * 16384 + 2 ^ 18 +
    (if deg then 2 ^ 19 else 0) + packExts es 0)

/-- The word as it is written: its reserved fields, and the extents at or above its rank, zero (R17). -/
def TW.canon (t : TypeWord) : TypeWord := BitVec.ofNat 128 (t.toNat % 2 ^ 20 + packExts ((TW.exts t).take 4) 0)
/-- The word with its degraded bit set or cleared. -/
def setDegraded (t : TypeWord) (d : Bool) : TypeWord :=
  if d then t ||| BitVec.ofNat 128 (2 ^ 19) else t &&& BitVec.ofNat 128 (2 ^ 128 - 1 - 2 ^ 19)

/-! Table 02-2 by format code. -/
def fmtBits : Nat → Nat
  | 0x01 => 32 | 0x02 => 16 | 0x03 => 16 | 0x04 => 8 | 0x05 => 8 | 0x06 => 4 | 0x07 => 8 | 0x08 => 4 | 0x09 => 32
  | 0x0A => 16 | 0x0B => 8 | 0x0C => 4 | 0x0D => 2 | 0x0E => 2 | 0x0F => 8 | 0x10 => 4 | 0x11 => 4 | 0x12 => 4 | 0x13 => 64
  | _ => 0
def isCT (f : Nat) : Bool := f == 0x11 || f == 0x12
def isMX (f : Nat) : Bool := f == 0x07 || f == 0x08
def isFloat (f : Nat) : Bool := (1 ≤ f && f ≤ 8) || isCT f
def isInteger (f : Nat) : Bool := 9 ≤ f && f ≤ 0x10
def isNumeric (f : Nat) : Bool := isFloat f || isInteger f
def isSigned (f : Nat) : Bool := 9 ≤ f && f ≤ 0x0E
/-- A narrow destination (03 R58). -/
def isNarrow (f : Nat) : Bool := isNumeric f && fmtBits f ≤ 8
def policyFormat (f : Nat) : Bool := isSigned f

def layoutLegal (f rank lay : Nat) : Bool :=
  if lay = 0 then true
  else if rank < 2 || isMX f || f == 0x13 then false
  else if lay ≤ 3 then true
  else lay == 4 && rank == 2 && fmtBits f ≤ 16

def geomLegal (f rank g : Nat) : Bool :=
  let byFmt :=
    if f == 0x13 then g == 0
    else if isMX f then g == 2
    else if f == 1 || f == 2 || f == 3 || f == 9 then g ≤ 1
    else if isInteger f then g ≤ 5
    else g ≤ 3 || g == 5
  byFmt && (if g ≤ 1 then true else if g ≤ 3 then 1 ≤ rank else 2 ≤ rank)

/-- Bytes of one scale: FP32 for geometry 1, else BF16 or E8M0 (Table 02-2). -/
def scaleE8M0 (f : Nat) : Bool := isMX f || (f == 6) || (0x0C ≤ f && f ≤ 0x0E) || f == 0x10 || isCT f
def scaleBytes (f g : Nat) : Nat := if g = 0 then 0 else if g = 1 then 4 else if scaleE8M0 f then 1 else 2

def prod (l : List Nat) : Nat := l.foldr (· * ·) 1
def up32 (n : Nat) : Nat := ceilDiv n 32 * 32

/-- Element places of a frame with the padding of Table 02-3. -/
def paddedCount (fmt lay : Nat) (d : List Nat) : Nat :=
  match lay, d.reverse with
  | 2, c :: r :: o => prod o * up32 r * up32 c
  | 3, c :: r :: o => prod o * up32 r * up32 c
  | 4, c :: r :: o => let g := 32 / fmtBits fmt; prod o * (ceilDiv r g * g) * c
  | _, _ => prod d

/-- The extents of the grid of scale blocks (Table 02-4). -/
def blockDims (g : Nat) (d : List Nat) : List Nat :=
  match g, d.reverse with
  | 2, c :: o => (ceilDiv c 32 :: o).reverse
  | 3, c :: o => (ceilDiv c 16 :: o).reverse
  | 4, c :: r :: o => (c :: ceilDiv r 32 :: o).reverse
  | 5, c :: r :: o => (ceilDiv c 32 :: ceilDiv r 32 :: o).reverse
  | _, _ => []

/-- The block that holds an element. -/
def blockOf (g : Nat) (ix : List Nat) : List Nat :=
  match g, ix.reverse with
  | 2, c :: o => (c / 32 :: o).reverse
  | 3, c :: o => (c / 16 :: o).reverse
  | 4, c :: r :: o => (c :: r / 32 :: o).reverse
  | 5, c :: r :: o => (c / 32 :: r / 32 :: o).reverse
  | _, _ => []

def scaleCount (g : Nat) (d : List Nat) : Nat := if g = 0 || prod d = 0 then 0 else prod (blockDims g d)

/-- Footprint of a frame: element bytes and scale bytes (R25, R27). -/
def elemBytes (fmt lay : Nat) (d : List Nat) : Nat := ceilDiv (paddedCount fmt lay d * fmtBits fmt) 8
def footScales (fmt g : Nat) (d : List Nat) : Nat := scaleCount g d * scaleBytes fmt g

/-- Row-major place of an index in extents. -/
def linear : List Nat → List Nat → Nat
  | d :: ds, i :: is => i * prod ds + (let _ := d; linear ds is)
  | _, _ => 0

/-- The place of an element in storage order over the frame (Table 02-3). -/
def place (fmt lay : Nat) (d ix : List Nat) : Nat :=
  match lay, d.reverse, ix.reverse with
  | 1, c :: r :: o, j :: i :: p => linear o.reverse p.reverse * (r * c) + j * r + i
  | 2, c :: r :: o, j :: i :: p =>
    linear o.reverse p.reverse * (up32 r * up32 c) + (i / 32 * ceilDiv c 32 + j / 32) * 1024 + i % 32 * 32 + j % 32
  | 3, c :: r :: o, j :: i :: p =>
    linear o.reverse p.reverse * (up32 r * up32 c) + (j / 32 * ceilDiv r 32 + i / 32) * 1024 + j % 32 * 32 + i % 32
  | 4, c :: _ :: _, j :: i :: _ => let g := 32 / fmtBits fmt; (i / g * c + j) * g + i % g
  | _, _, _ => linear d ix

/-- All indices of extents in row-major order. -/
def indices : List Nat → List (List Nat)
  | [] => [[]]
  | d :: ds => (upFrom 0 d).flatMap fun i => (indices ds).map (i :: ·)

/-! Extent fields (R18, R24). -/
def isSym (f : Nat) : Bool := f / 2 ^ 23 % 2 == 1
def symB (f : Nat) : Nat := f % 16
def symL (f : Nat) : Nat := f / 16 % 2 ^ 19

/-- The bobbins a slot sees: committed state B and its own bindings T (R35). -/
structure BEnv where
  bob : Mp Bobbin
  t : List Binding := []
  waddr : Word := 0
deriving DecidableEq, Repr

def BEnv.value (env : BEnv) (i : Nat) : Option Nat :=
  let b := mget ({} : Bobbin) env.bob i
  if b.bound then some b.value.toNat else (env.t.find? fun x => x.b == i).map (·.v)

/-- The frame value of an extent field (R24). -/
def BEnv.frameExt (env : BEnv) (f : Nat) : Option Nat :=
  if !isSym f then some (f % 2 ^ 23) else if symL f ≠ 0 then some (symL f) else env.value (symB f)

/-- All values, when each is known. -/
def allSome {α : Type} : List (Option α) → Option (List α)
  | [] => some []
  | none :: _ => none
  | some x :: t => (allSome t).map (x :: ·)

def BEnv.frame (env : BEnv) (t : TypeWord) : Option (List Nat) := allSome ((TW.exts t).map env.frameExt)

/-! The shape-fault record (R40). -/
def fRANK : Nat := 0
def fEXT0 : Nat := 1
def fFORMAT : Nat := 5
def fLAYOUT : Nat := 6
def fGEOM : Nat := 7
def fCAPACITY : Nat := 8
def fBANK : Nat := 9
def fPOLICY : Nat := 10
def fGROUP : Nat := 11

def sat24 (n : Nat) : Nat := min n 0xFFFFFF

/-- FAULT_INFO of Table 02-6. -/
def shapeInfo (offered expected : Nat) (unbound : Bool) (sym : Option Nat) (pos : Nat) : Word :=
  BitVec.ofNat 64 (sat24 offered * 2 ^ 40 + sat24 expected * 2 ^ 16 + (if unbound then 256 else 0) +
    (match sym with | some b => 128 + b % 16 * 8 | none => 0) + pos % 8)

/-- A shape fault; FAULT_ADDR holds the descriptor's address for position 4 (R40). -/
def BEnv.fault (env : BEnv) (field pos : Nat) (sym : Option Nat) (expected offered : Nat) (unbound : Bool := false) : FaultRec :=
  { cause := 0x04, field := BitVec.ofNat 4 field, addr := if pos = 4 then env.waddr else 0,
    info := shapeInfo offered expected unbound sym pos }

/-- R39. -/
def groupFault (pos n i : Nat) : FaultRec :=
  { cause := 0x05, field := BitVec.ofNat 4 fGROUP, info := shapeInfo i n false none pos }

/-- The capacity check of a complete frame (R25). -/
def BEnv.checkCapacity (env : BEnv) (t : TypeWord) (pos : Nat) : Except FaultRec Unit :=
  match env.frame t with
  | none => .ok ()
  | some d =>
    let eb := elemBytes (TW.fmt t) (TW.layout t) d
    let sb := footScales (TW.fmt t) (TW.geom t) d
    if eb > 65536 then .error (env.fault fCAPACITY pos none 65536 eb)
    else if sb > 4096 then .error (env.fault fCAPACITY pos none 4096 sb)
    else .ok ()

/-- `check_type` (R34). -/
def BEnv.checkType (env : BEnv) (t : TypeWord) (pos : Nat) : Except FaultRec Unit :=
  if !TW.valid t then .error (env.fault fFORMAT pos none 0 0)
  else if fmtBits (TW.fmt t) = 0 then .error (env.fault fFORMAT pos none 0 (TW.fmt t))
  else if TW.rank t > 4 then .error (env.fault fRANK pos none 4 (TW.rank t))
  else if !layoutLegal (TW.fmt t) (TW.rank t) (TW.layout t) then .error (env.fault fLAYOUT pos none 0 (TW.layout t))
  else if !geomLegal (TW.fmt t) (TW.rank t) (TW.geom t) then .error (env.fault fGEOM pos none 0 (TW.geom t))
  else if TW.policy t ≠ 0 && !policyFormat (TW.fmt t) then .error (env.fault fPOLICY pos none 0 (TW.policy t))
  else env.checkCapacity t pos

/-- `resolve` (R35, R31): the constant an extent field stands for, or none while it is symbolic and unbound. -/
def BEnv.resolve (env : BEnv) (f k pos : Nat) : Except FaultRec (Option Nat) :=
  if !isSym f then .ok (some (f % 2 ^ 23))
  else match env.value (symB f) with
    | none => .ok none
    | some v => if symL f ≠ 0 ∧ v > symL f then .error (env.fault (fEXT0 + k) pos (some (symB f)) (symL f) v) else .ok (some v)

/-- R31 for every extent of a word that has a value. -/
def BEnv.checkLimits (env : BEnv) (t : TypeWord) (pos : Nat) : Except FaultRec Unit := do
  let _ ← ((TW.exts t).zip (upFrom 0 4)).mapM fun x => env.resolve x.1 x.2 pos
  .ok ()
/-- Record a binding made by this slot. -/
def BEnv.bindB (env : BEnv) (f v k pos : Nat) : BEnv := { env with t := env.t ++ [⟨symB f, v % 2 ^ 23, k, pos⟩] }

def symOf (fy fx : Nat) : Option Nat := if isSym fy then some (symB fy) else if isSym fx then some (symB fx) else none

/-- An extent field with the operand position and the extent index that hold it (R38). -/
abbrev Fld := Nat × (Nat × Nat)
/-- The extent fields of a word at an operand position. -/
def fieldsOf (t : TypeWord) (pos : Nat) : List Fld := (upFrom 0 (TW.rank t)).map fun k => (TW.ext t k, (pos, k))

/-- `unify_extent` (R35); `ox` and `oy` say where the two fields stand. -/
def BEnv.unifyExtent (env : BEnv) (fx kx fy ky pos : Nat) (ox oy : Nat × Nat) : Except FaultRec BEnv := do
  let x ← env.resolve fx kx pos
  let y ← env.resolve fy ky pos
  match x, y with
  | some vx, some vy => if vx ≠ vy then .error (env.fault (fEXT0 + ky) pos (symOf fy fx) vx vy) else .ok env
  | none, some vy => let env' := env.bindB fx vy ox.2 ox.1; let _ ← env'.resolve fx kx pos; .ok env'
  | some vx, none => let env' := env.bindB fy vx oy.2 oy.1; let _ ← env'.resolve fy ky pos; .ok env'
  | none, none =>
    if symB fx ≠ symB fy then .error (env.fault (fEXT0 + ky) pos (some (symB fy)) fx fy true) else .ok env

/-- Which fields `unify` compares beside rank and extents. -/
structure Mask where
  format : Bool := false
  layout : Bool := false
  geom : Bool := false
  policy : Bool := false
deriving DecidableEq, Repr
def Mask.all : Mask := ⟨true, true, true, true⟩
def Mask.none : Mask := ⟨false, false, false, false⟩
def Mask.fmt : Mask := ⟨true, false, false, false⟩

/-- Extents of equal rank, in order. -/
def BEnv.unifyExts (env : BEnv) (pos : Nat) : List Fld → List Fld → Nat → Except FaultRec BEnv
  | x :: xs, y :: ys, k => do let env' ← env.unifyExtent x.1 k y.1 k pos x.2 y.2; env'.unifyExts pos xs ys (k + 1)
  | _, _, _ => .ok env

/-- `unify` (R35) of x, which stands at position `px`, with y whose fields are `ys`: the environment after it; the type it
returns is x with the OR of the degraded bits. -/
def BEnv.unifyWith (env : BEnv) (x : TypeWord) (px : Nat) (y : TypeWord) (ys : List Fld) (mk : Mask) (pos : Nat) :
    Except FaultRec BEnv := do
  if TW.rank x ≠ TW.rank y then .error (env.fault fRANK pos none (TW.rank x) (TW.rank y))
  let env ← env.unifyExts pos (fieldsOf x px) ys 0
  if mk.format && TW.fmt x ≠ TW.fmt y then
    .error (env.fault (if isCT (TW.fmt x) && isCT (TW.fmt y) then fBANK else fFORMAT) pos none (TW.fmt x) (TW.fmt y))
  if mk.layout && TW.layout x ≠ TW.layout y then .error (env.fault fLAYOUT pos none (TW.layout x) (TW.layout y))
  if mk.geom && TW.geom x ≠ TW.geom y then .error (env.fault fGEOM pos none (TW.geom x) (TW.geom y))
  if mk.policy && TW.policy x ≠ TW.policy y then .error (env.fault fPOLICY pos none (TW.policy x) (TW.policy y))
  .ok env

/-- `unify` with y's own word at position `pos`. -/
def BEnv.unify (env : BEnv) (x : TypeWord) (px : Nat) (y : TypeWord) (mk : Mask) (pos : Nat) : Except FaultRec BEnv :=
  env.unifyWith x px y (fieldsOf y pos) mk pos

/-- `unify_bc` over extent lists (08 R149): the combined extent fields. -/
def BEnv.unifyBcExts (env : BEnv) (pos : Nat) : List Fld → List Fld → Nat → Except FaultRec (BEnv × List Fld)
  | x :: xs, y :: ys, k => do
    let cx ← env.resolve x.1 k pos
    let cy ← env.resolve y.1 k pos
    let (env', r) ← (if cy = some 1 then .ok (env, x) else if cx = some 1 then .ok (env, y)
      else do let e ← env.unifyExtent x.1 k y.1 k pos x.2 y.2; .ok (e, x) : Except FaultRec (BEnv × Fld))
    let (env'', rs) ← env'.unifyBcExts pos xs ys (k + 1)
    .ok (env'', r :: rs)
  | _, _, _ => .ok (env, [])
def BEnv.unifyBc (env : BEnv) (xs ys : List Fld) (pos : Nat) : Except FaultRec (BEnv × List Fld) :=
  if xs.length ≠ ys.length then .error (env.fault fRANK pos none xs.length ys.length) else env.unifyBcExts pos xs ys 0

/-- R37: every extent of a word resolves to a value. -/
def BEnv.resolveAllAux (env : BEnv) (pos : Nat) : List Nat → Nat → Except FaultRec (List Nat)
  | [], _ => .ok []
  | f :: fs, k => do
    match ← env.resolve f k pos with
    | none => .error (env.fault (fEXT0 + k) pos (some (symB f)) 0 f true)
    | some v => let vs ← env.resolveAllAux pos fs (k + 1); .ok (v :: vs)
def BEnv.resolveAll (env : BEnv) (t : TypeWord) (pos : Nat) : Except FaultRec (List Nat) :=
  env.resolveAllAux pos (TW.exts t) 0

/-- R36: the word the destination gets, and the bindings after its unification; `fs` are d's fields (DEDUCED, log 30). -/
def BEnv.deliver (env : BEnv) (dst d : TypeWord) (fs : List Fld) (mk : Mask) : Except FaultRec (BEnv × TypeWord) := do
  if !TW.valid dst then .ok (env, d)
  else
    env.checkType dst 0
    let env ← env.unifyWith dst 0 d fs mk 0
    .ok (env, setDegraded dst (TW.degraded d))

end Sys2Proof.Machine
end

