-- ==== Sys2Proof/Machine/Queue.lean ====
section
/-! DEFINITION. Engine queues: what an operation reads and writes, room for it, and putting it in (01 R11, R12; 03 R49;
14 R267, R268; 15 R285; 17 R343). -/
namespace Sys2Proof.Machine

def QKind.cap : QKind → Nat | .c => 32 | _ => 16
def pipeQueue : Pipe → QKind | .p0 => .v0 | .p1 => .v1
/-- The bit of FAULT_SLOTS of the slot kind that queues to an engine (17 R329), and the queue code of Table 17-3. -/
def QKind.slotBits : QKind → BitVec 6 | .v0 => 4 | .v1 => 8 | .m => 16 | .c => 32
def QKind.code : QKind → Nat | .m => 0 | .v0 => 1 | .v1 => 2 | .c => 3
def Core.inQueue (c : Core) (q : QKind) : List EOp := c.ops.filter fun o => o.q == q && !o.posted
def Core.op? (c : Core) (uid : Nat) : Option EOp := c.ops.find? (·.uid == uid)
def Mach.modOp (m : Mach) (core uid : Nat) (f : EOp → EOp) : Mach :=
  m.modCore core fun c => { c with ops := lmod (·.uid == uid) f c.ops }

/-- A fired TTFIRE, and an armed one that has fired, waits for a send entry: a SEND not yet started (16 R319, R326). -/
def EOp.awaitsEntry (o : EOp) : Bool := o.posted && o.progress == 1 && match o.instr with | .ttfire _ => true | _ => false
/-- The entries of a queue that are in use: a fired TTFIRE that waits for a send entry waits queued (16 R319), and an operation that has
faulted keeps its place until it is written out (17 R329) (DEDUCED, log 37). -/
def Mach.queueUsed (m : Mach) (core : Nat) (q : QKind) : Nat :=
  ((m.core core).ops.filter fun o => o.q == q && (!o.posted || o.awaitsEntry)).length +
  ((upFrom (8 * core) 8).map fun cx => ((m.ctx cx).engFault.filter fun x => x.1.q == q && !x.2.2).length).sum
/-- A free entry of the queue for this context: every earlier waiter gets its entry first (R12). -/
def Mach.queueRoom (m : Mach) (cx : Nat) (q : QKind) : Bool :=
  let ahead := (((m.core (coreOf cx)).waiters.takeWhile fun w => w != (q, cx)).filter fun w => w.1 == q).length
  m.queueUsed (coreOf cx) q + ahead < q.cap

/-! The tiles an operation reads, by position 0 to 3 (08 R148), and those it writes (14 R267). -/
structure Uses where
  reads : List (Nat × Nat) := []
  writes : List Nat := []
  td : Option Nat := none
deriving DecidableEq, Repr
def usesV (v : VSlot) (ta tb tc : Bool) (more : List Nat := []) : Uses :=
  { reads := (if ta then [(1, v.ta.toNat)] else []) ++ (if tb then [(2, v.tb.toNat)] else []) ++ (if tc then [(3, v.tc.toNat)] else []),
    writes := v.td.toNat :: more, td := some v.td.toNat }
/-- A chained form: tc belongs to op1 or to a binary first stage. -/
def chainedV (v : VSlot) (tb tri : Bool) : Uses := usesV v true tb (tri || VSlot.binaryCode v.op2)
def usesMma (m : MSlot) (tx : Bool) : Uses :=
  { reads := [(1, m.ta.toNat), (2, m.tb.toNat)] ++ (if tx then [(3, m.tx.toNat)] else []), writes := [m.td.toNat], td := some m.td.toNat }
def usesRank (m : MSlot) : Uses := { reads := [(1, m.ta.toNat)], writes := [m.td.toNat], td := some m.td.toNat }
def usesSrc (c : CSlot) : Uses := { reads := [(1, c.t.toNat)] }
def usesDst (c : CSlot) : Uses := { writes := [c.t.toNat], td := none }
def usesBoth (c : CSlot) : Uses := { reads := [(1, c.t.toNat)], writes := [c.t.toNat] }
def opUses : Instr → Uses
  | .vadd _ v => chainedV v true false
  | .vsub _ v => chainedV v true false
  | .vmul _ v => chainedV v true false
  | .vmin _ v => chainedV v true false
  | .vmax _ v => chainedV v true false
  | .vscale _ v => chainedV v true false
  | .vfma _ v => chainedV v true true
  | .vclamp _ v => chainedV v true true
  | .vsel _ v => chainedV v true true
  | .vabs _ v => chainedV v false false
  | .vneg _ v => chainedV v false false
  | .vrcp _ v => chainedV v false false
  | .vrsq _ v => chainedV v false false
  | .vsqrt _ v => chainedV v false false
  | .vexp2 _ v => chainedV v false false
  | .vlog2 _ v => chainedV v false false
  | .vtanh _ v => chainedV v false false
  | .vsigm _ v => chainedV v false false
  | .vand _ v => usesV v true true false
  | .vor _ v => usesV v true true false
  | .vxor _ v => usesV v true true false
  | .vshl _ v => usesV v true true false
  | .vshr _ v => usesV v true true false
  | .vcmp _ v => usesV v true true false
  | .vroute _ v => usesV v true true false
  | .vbcast _ v => usesV v false false false
  | .viota _ v => usesV v false false false
  | .vmask _ v => usesV v false false false
  | .vmov _ v => usesV v true false false
  | .vcvt _ v => usesV v true false false
  | .vcvtq _ v => usesV v true true false [v.tb.toNat]
  | .vcvts _ v => usesV v true true false
  | .vreshape _ v => usesV v true false false
  | .vtrans _ v => usesV v true false false
  | .vcast _ v => usesV v true false false
  | .vrsum _ v => usesV v true false false
  | .vrmax _ v => usesV v true false false
  | .vrmin _ v => usesV v true false false
  | .vrargmax _ v => usesV v true false false
  | .vrdraw _ v => usesV v true false false
  | .vrlse _ v => usesV v true false false
  | .vscan _ v => usesV v true false false
  | .vhist _ v => usesV v true false false
  | .vdmerge _ v => usesV v true true false
  | .vcompact _ v => usesV v true true false
  | .vperm _ v => usesV v true true false
  | .mma m => usesMma m false
  | .mmaz m => usesMma m false
  | .mabsd m => usesMma m false
  | .mmaxp m => usesMma m false
  | .mminp m => usesMma m false
  | .msparse m => usesMma m true
  | .mrank m => usesRank m
  | .mrankc m => usesRank m
  | .mbload m => { reads := [(2, m.tb.toNat)] }
  | .tload c => usesDst c
  | .tloads c => usesDst c
  | .gather c => usesDst c
  | .recv c => usesDst c
  | .tstore c => usesSrc c
  | .tstores c => usesSrc c
  | .scatter c => usesSrc c
  | .send c => usesSrc c
  | .mcast c => usesSrc c
  | .recvadd c => usesBoth c
  | .recvdraw c => usesBoth c
  | .ttset c => usesBoth c
  | _ => {}

/-- The code-table banks an operation refers to (03 R48, R49): those of its formats, or the one a CTLOAD fills. -/
def EOp.bankRefs (o : EOp) : List Nat :=
  match o.instr with
  | .ctload c => [c.hint.toNat % 2]
  | _ => (if o.types.any (fun t => TW.fmt t == 0x11) then [0] else []) ++ (if o.types.any (fun t => TW.fmt t == 0x12) then [1] else [])
def EOp.isCtload (o : EOp) : Bool := match o.instr with | .ctload _ => true | _ => false
/-- The copies, which move bytes. -/
def isMover (i : Instr) : Bool :=
  match i with
  | .tload _ => true | .tstore _ => true | .tloads _ => true | .tstores _ => true | .cpin _ => true | .cpout _ => true
  | .gather _ => true | .scatter _ => true | .preft _ => true | .ctload _ => true | _ => false
/-- The receives, whose tile a pull brings. -/
def isReceive (i : Instr) : Bool := match i with | .recv _ => true | .recvadd _ => true | .recvdraw _ => true | _ => false
/-- A started operation that its engine, or the pull it has begun, completes. -/
def EOp.runs (o : EOp) : Bool := o.started && !o.posted && (o.q != .c || isMover o.instr || isReceive o.instr)
/-- A TTFIRE as it was issued, with nothing of the entry that has fired it (16 R326; 17 R343). -/
def EOp.unfired (o : EOp) : EOp :=
  if o.awaitsEntry then { o with posted := false, started := false, progress := 0, reads := [], types := [], exts := [] } else o
/-- An AMSG whose message carries its share (15 R287). -/
def EOp.shareSent (o : EOp) : Bool := o.started && match o.instr with | .amsg _ => true | _ => false
/-- The weight an operation carries, with that of the armed TTFIRE that a replayed TTSET brings along (15 R285; 17 R343). -/
def EOp.weights (o : EOp) : List Word :=
  (if o.shareSent then [] else [o.weight]) ++ (match o.resume with | some (_, some (_, _, w)) => [w] | _ => [])
def overlap (a b : List Nat) : Bool := a.any b.contains

/-- The operations that R49 makes `o` wait for. -/
def bankWaits (ops : List EOp) (o : EOp) : List Nat :=
  (ops.filter fun e => e.cx == o.cx && (o.isCtload || e.isCtload) && overlap e.bankRefs o.bankRefs).map (·.uid)

/-- Put an operation at the end of its queue: its number, its waits and its token (R268); the context waits no more. -/
def Mach.enqueue (m : Mach) (o : EOp) : Mach :=
  let k := coreOf o.cx
  let uid := m.uid
  let o := { o with uid := uid, bankWait := bankWaits (m.core k).ops o }
  let m := m.modCore k fun c => { c with ops := c.ops ++ [o], waiters := c.waiters.filter (· != (o.q, o.cx)) }
  (m.modCtx o.cx fun c => if o.kd = 0 then c else { c with tokens := mset c.tokens o.kd uid }).nextUid

/-- The token fields of an engine slot word: kd, then kw0 to kw2 (06 Tables 06-6, 06-7). -/
def slotTokens (q : QKind) (w : BitVec 64) : Nat × List Nat :=
  match q with
  | .m => let x := (mFields w).2; (x.kd.toNat, [x.kw0.toNat, x.kw1.toNat, x.kw2.toNat])
  | .c => let x := (cFields w).2; (x.kd.toNat, [x.kw0.toNat, x.kw1.toNat, x.kw2.toNat])
  | _ => let x := (vFields w).2; (x.kd.toNat, [x.kw0.toNat, x.kw1.toNat, x.kw2.toNat])
def Ctx.waitsOf (c : Ctx) (kws : List Nat) : List Nat := (kws.map c.token).filter (· != 0)
/-- The tiles an operation reads and writes, and the generations of the words it was issued with (08 R160). -/
def EOp.withUses (o : EOp) (c td : Ctx) : EOp :=
  let u := opUses o.instr
  { o with
    reads := u.reads.map (·.2), writes := u.writes, gen := (u.td.map fun t => (td.tile t).gen).getD 0,
    srcGens := (upFrom 0 4).map fun p => ((u.reads.find? (·.1 == p)).map fun x => (c.tile x.2).gen).getD 0 }

/-! Shadow entries (17 R343, R344). -/
/-- The queue and slot of a queue code; code 4 holds a TTSET of the copy queue. -/
def queueOfCode (n : Nat) : Option (QKind × Slot) :=
  if n = 0 then some (.m, .m) else if n = 1 then some (.v0, .v0) else if n = 2 then some (.v1, .v1) else if n ≤ 4 then some (.c, .c) else none
def isEngineOp (i : Instr) : Bool :=
  match i with
  | .vNop _ => false | .mNop => false | .cNop => false | _ => true
/-- Are an entry's reserved bytes zero (R344)? -/
def shadowEntryZero (e : List Byte) : Bool := fld e 0 1 / 4 % 4 = 0 && fld e 1 7 = 0 && fld e 59 1 = 0 && fld e 58 1 < 2
/-- Is the content of an entry with its valid bit set well-formed (R344)? -/
def shadowEntryOk (e : List Byte) : Bool :=
  let code := fld e 0 1 / 16
  (match queueOfCode code with
    | none => false
    | some (_, sl) =>
      match decodeSlot sl (BitVec.ofNat 64 (fld e 8 8)) with
      | .ok i => isEngineOp i && (code != 4 || (match i with | .ttset _ => true | _ => false))
      | .error _ => false)
/-- The fault of a read of the block that its memory does not answer (12 R222, R235) (DEDUCED, log 57). -/
def shadowRead (m : Mach) (a n : Nat) : Option FaultRec :=
  (m.devFailure a n false).map devFault
def shadowEntry (blk : Word) (n : Nat) : Nat := blk.toNat + 64 + 256 * n
/-- The fault of a block that fails its check, if it does: at `base`, the context's SHADOW_BASE, for its header (R344) (DEDUCED, log 57). -/
def shadowFault (m : Mach) (blk base lid : Word) : Option FaultRec :=
  let h := m.devRead blk.toNat 64
  let bad (a n : Nat) : FaultRec := { cause := 0x01, addr := BitVec.ofNat 64 a, info := BitVec.ofNat 64 n }
  (shadowRead m blk.toNat 64).or
  (if fld h 8 8 ≠ lid.toNat ∨ 112 < fld h 0 2 ∨ fld h 3 5 ≠ 0 ∨ fld h 18 6 ≠ 0 then some (bad base.toNat 0xFF)
  else
    (upFrom 0 (fld h 0 2)).findSome? fun n =>
      let e := m.devRead (shadowEntry blk n) 256
      (shadowRead m (shadowEntry blk n) 256).or
        (if !shadowEntryZero e || fld e 0 1 % 2 = 1 && !shadowEntryOk e then some (bad (shadowEntry blk n) n) else none))
/-- The operation of an entry, queued again in task mode (R146), each word with its reserved bits and its extents at or above its rank zero
(02 R17). -/
def opOfEntry (c : Ctx) (cx : Nat) (e : List Byte) : Option EOp :=
  match queueOfCode (fld e 0 1 / 16) with
  | none => none
  | some (q, sl) =>
    let w := BitVec.ofNat 64 (fld e 8 8)
    match decodeSlot sl w with
    | .error _ => none
    | .ok i =>
      let types := (upFrom 0 4).map fun p => TW.canon (BitVec.ofNat 128 (fld e (80 + 16 * p) 16))
      let exts := (upFrom 0 4).map fun p => (upFrom 0 (TW.rank (types.getD p 0))).map fun k => fld e (208 + 12 * p + 3 * k) 3 % 2 ^ 23
      some (EOp.withUses
        { uid := 0, cx := cx, q := q, instr := i, word := w, pc := BitVec.ofNat 64 (fld e 32 8),
          capA := BitVec.ofNat 64 (fld e 16 8), capB := BitVec.ofNat 64 (fld e 24 8), weight := BitVec.ofNat 64 (fld e 40 8),
          c0 := BitVec.ofNat 32 (fld e 48 4), key := BitVec.ofNat 32 (fld e 52 4), types := types, exts := exts,
          banks := (upFrom 0 32).map fun i => (i, BitVec.ofNat 16 (fld e (144 + 2 * i) 2)),
          kd := (slotTokens q w).1, waits := c.waitsOf (slotTokens q w).2,
          resume := if fld e 0 1 / 16 = 4 then
              some (fld e 56 2, if fld e 58 1 = 1 then some (BitVec.ofNat 32 (fld e 60 4), word64 (e.drop 64 |>.take 8), word64 (e.drop 72 |>.take 8)) else none)
            else none } c c)
/-- What a write-out keeps of a set table entry (16 R327): the contributions left, and the armed TTFIRE. -/
def TabEnt.toResume (t : TabEnt) : Nat × Option (BitVec 32 × Word × Word) :=
  (t.left, t.fire.map fun f => (f.capB.setWidth 32, f.capA, f.weight))
/-- The bytes of an entry. -/
def entryBytes (o : EOp) (faulted : Bool) (tab : Option TabEnt) : List Byte :=
  let tab := (tab.map TabEnt.toResume).or o.resume
  let code := if tab.isSome then 4 else o.q.code
  let bank (i : Nat) : List Byte := leBytes 2 (if o.bankRefs.contains (i / 16) && !o.isCtload then (mget 0 o.banks i).toNat else 0)
  leBytes 8 (1 + (if faulted then 2 else 0) + 16 * code) ++ leBytes 8 o.word.toNat ++ leBytes 8 o.capA.toNat ++ leBytes 8 o.capB.toNat ++
  leBytes 8 o.pc.toNat ++ leBytes 8 o.weight.toNat ++ leBytes 4 o.c0.toNat ++ leBytes 4 o.key.toNat ++
  (match tab with
    | none => leBytes 24 0
    | some (left, fire) => leBytes 2 left ++
      (match fire with
        | none => leBytes 22 0
        | some (tag, ep, w) => leBytes 2 1 ++ leBytes 4 tag.toNat ++ leBytes 8 ep.toNat ++ leBytes 8 w.toNat)) ++
  ((upFrom 0 4).flatMap fun p => leBytes 16 (o.types.getD p 0).toNat) ++ ((upFrom 0 32).flatMap bank) ++
  ((upFrom 0 4).flatMap fun p => (upFrom 0 4).flatMap fun k => leBytes 3 ((o.exts.getD p []).getD k 0))

/-- The weight words of an entry: the one it carries, and its armed TTFIRE's (15 R286; 17 R343, R344). -/
def entryWeights (e : List Byte) : List Word :=
  word64 (e.drop 40 |>.take 8) :: if fld e 0 1 / 16 = 4 ∧ fld e 58 1 % 2 = 1 then [word64 (e.drop 72 |>.take 8)] else []
/-- Return several words to one root. -/
def Mach.returnAll (m : Mach) (r : RootRef) (ws : List Word) : Mach := ws.foldl (fun m w => m.returnWeight r w) m
/-- A context waits for an entry of an engine queue (01 R12). -/
def Mach.addWaiter (m : Mach) (cx : Nat) (q : QKind) : Mach :=
  m.modCore (coreOf cx) fun c => if c.waiters.contains (q, cx) then c else { c with waiters := c.waiters ++ [(q, cx)] }
/-- Queue a replayed operation.  Its td takes the word captured at issue where nothing has written td's word since the restore, as it had
at the issue (R146; 21 R372) (DEDUCED, log 97).  The number after that of a TTSET with an armed TTFIRE is the TTFIRE's (R343). -/
def Mach.requeue (m : Mach) (o : EOp) : Mach :=
  let m := m.enqueue o
  (if (o.resume.bind (·.2)).isSome then m.nextUid else m).modCtx o.cx fun c =>
    match (opUses o.instr).td with
    | some t => if (c.tile t).gen = 0 then c.deliverWord t (o.types.getD 0 0) else c
    | none => c
/-- One step of EQREPLAY: queue entries from `n` on while there is room, else wait in turn for it (01 R12); the next entry and the
number queued (R146).  It stops before an entry that cannot be read. -/
def replayFrom (cx : Nat) (blk : Word) (count : Nat) : Nat → Mach → Nat → Nat → Mach × Nat × Nat
  | 0, m, n, q => (m, n, q)
  | fuel + 1, m, n, q =>
    if count ≤ n ∨ (shadowRead m (shadowEntry blk n) 256).isSome then (m, n, q)
    else
      let e := m.devRead (shadowEntry blk n) 256
      if fld e 0 1 % 2 = 0 then
        replayFrom cx blk count fuel (m.returnAll (m.ctx cx).qwRoot (entryWeights e)) (n + 1) q
      else
        match opOfEntry (m.ctx cx) cx e with
        | none => replayFrom cx blk count fuel m (n + 1) q
        | some o => if m.queueRoom cx o.q then replayFrom cx blk count fuel (m.requeue o) (n + 1) (q + 1) else (m.addWaiter cx o.q, n, q)
/-- The block at `blk` counts no entry any more. -/
def clearShadow (m : Mach) (cx : Nat) (blk : Word) : Mach := m.devStore (dieOf (coreOf cx)) blk.toNat (leBytes 2 0)
/-- Replay what fits now; when the last entry is queued the block's count becomes 0 and the bundle has its answer.  An entry that cannot
be read any more is the bundle's fault (DEDUCED, log 57). -/
def replayStep (m : Mach) (cx : Nat) (blk : Word) : Mach :=
  let (n, q) := (m.ctx cx).replay.getD (0, 0)
  let count := fld (m.devRead blk.toNat 2) 0 2
  let (m, n, q) := replayFrom cx blk count 113 m n q
  if count ≤ n then
    (clearShadow m cx blk).modCtx cx fun c => { c with replay := none, awaitX := some (.answered true false (BitVec.ofNat 64 q)) }
  else m.modCtx cx fun c => { c with
    replay := some (n, q), replayAt := blk,
    awaitX := some (match shadowRead m (shadowEntry blk n) 256 with | some f => .faulted f | none => .asked) }

end Sys2Proof.Machine
end

