-- ==== Sys2Proof/Machine/Launch.lean ====
section
/-! DEFINITION. Releasing a context, entering its handler, returning from it, and the failure of a launch (07 R138, R145; 15 R291;
17 R333 to R338). -/
namespace Sys2Proof.Machine

/-! The shadow block's header and weights (17 R343, R344); what cannot be read counts for none (DESIGN CHOICE, log 96). -/
def shadowCount (m : Mach) (blk : Word) : Nat := m.devNat blk.toNat 2
def shadowOwn (m : Mach) (blk lid : Word) (gtag : Nat) : Bool :=
  m.devNat (blk.toNat + 8) 8 == lid.toNat && m.devNat (blk.toNat + 16) 2 == gtag && (shadowRead m blk.toNat 64).isNone
/-- The weights of the entries from `n` on: those before have been queued again. -/
def shadowWeights (m : Mach) (blk : Word) (n : Nat) : List Word :=
  ((upFrom 0 (min 112 (shadowCount m blk))).filter fun k => decide (n ≤ k) && (shadowRead m (shadowEntry blk k) 256).isNone).flatMap
    fun k => entryWeights (m.devRead (shadowEntry blk k) 256)
/-- The reads of a block's entries from `n` on that its memory does not answer. -/
def shadowFailures (m : Mach) (blk : Word) (n : Nat) : List (Nat × Nat × Nat) :=
  ((upFrom 0 (min 112 (shadowCount m blk))).filter (n ≤ ·)).filterMap fun k => m.devFailure (shadowEntry blk k) 256 false
/-- The entries of a context's block that an EQREPLAY has begun with. -/
def Ctx.replayed (c : Ctx) : Nat := if c.replayAt = c.shadow then (c.replay.map (·.1)).getD 0 else 0

/-- The root a context's weight belongs to (15 R287). -/
def Mach.ctxRoot (m : Mach) (cx : Nat) : RootRef := (m.ctx cx).qwRoot

/-- What a context without a seat keeps until a task starts on it: its bobbins and its tiles with their words (02 R29). -/
def Ctx.left (c : Ctx) : Ctx := { bobbins := c.bobbins, tiles := c.tiles, fill := c.fill }
/-- A context at rest in its seat: it also keeps what the seat gives it, and the pins of one that its launch's failure has released
(18 R352). -/
def Ctx.freed (c : Ctx) : Ctx :=
  { c.left with launch := c.launch, tilesPer := c.tilesPer, ctxsPer := c.ctxsPer, shadow := c.shadow, pinLimit := c.pinLimit, subs := c.subs,
                seatBase := c.seatBase, reserve := c.reserve, pins := c.pins }

/-- Operations that a released context leaves behind, a set table entry or a receive not started, go, and weight that neither a posted send nor
a message carries returns (15 R286); what its engines have started goes on (17 R337). -/
def dropOps (m : Mach) (cx : Nat) (swap : Bool) : Mach :=
  let k := coreOf cx
  let c := m.core k
  let faulted := (m.ctx cx).engFault.filterMap fun x => if x.2.2 then none else some x.1
  let gone := c.ops.filter fun o => o.cx == cx && !o.runs && !c.sends.any fun x => x.uid == o.uid
  let m := if swap then m else m.returnAll (m.ctx cx).qwRoot ((gone ++ faulted).flatMap EOp.weights)
  m.modCore k fun c => { c with
    ops := c.ops.filter fun o => o.cx != cx || (!swap && o.runs)
    table := c.table.filter fun x => match x.2 with | some t => t.cx != cx | none => false
    recvs := lmod (fun e => e.cx == cx && (swap || !c.ops.any fun o => o.uid == e.owner && o.runs)) (fun e => { e with owner := 0 }) c.recvs }

/-- The weight of a block that its context leaves behind returns to a root; what of the block cannot be read is logged (17 R344; 12 R235). -/
def returnShadow (m : Mach) (cx : Nat) (l : Launch) (blk : Word) (root : RootRef) (n : Nat) : Mach :=
  let log (m : Mach) (f : Nat × Nat × Nat) : Mach := m.logDev (dieOf (coreOf cx)) (some f)
  let m := (m.devFailure blk.toNat 64 false).elim m (log m)
  if shadowCount m blk != 0 && shadowOwn m blk l.lid l.gtag then
    clearShadow (((shadowFailures m blk n).foldl log m).returnAll root (shadowWeights m blk n)) cx blk
  else m
/-- Release a context (R138): its accesses are performed first (15 R292), then the weight of its shadow entries and QW return
to the root.  A release to a swap-out discards QW and keeps the block (R290, R340).  Pins are released by an END and to a swap-out; those of a
context that its launch's failure releases at the launch's release (18 R352) (DEDUCED, log 105). -/
def releaseCtx (m : Mach) (cx : Nat) (swap : Bool) : Mach :=
  let m := dropOps ((performAll m cx).dropWaiter cx) cx swap
  let c := m.ctx cx
  let m := if swap || c.life = .draining then (c.pins.foldl (unpinLine cx) m).modCtx cx fun c => { c with pins := [] } else m
  let m := if swap then m else
    match m.launchOf cx with
    | none => m.returnWeight c.qwRoot c.qw
    | some l =>
      (returnShadow m cx l c.shadow c.qwRoot c.replayed).returnWeight c.qwRoot c.qw
  let m := match c.launch with | some lid => m.modLaunch lid fun l => { l with lastReturn := m.time } | none => m
  let left := (m.core (coreOf cx)).ops.any fun o => o.cx == cx
  m.modCtx cx fun c => { c.freed with life := if left then .leaving else .free }
/-- Has a context been released? -/
def Ctx.released (c : Ctx) : Bool := c.life == .free || c.life == .leaving

/-- Set the kd of an operation done (14 R268). -/
def setTokenDone (c : Ctx) (kd uid : Nat) : Ctx :=
  if kd ≠ 0 && c.token kd = uid then { c with tokens := mset c.tokens kd 0 } else c
/-- Discard a context's unstarted operations: their kd is done and their weight returns (R337). -/
def discardOps (m : Mach) (cx : Nat) : Mach :=
  let k := coreOf cx
  let gone := (m.core k).ops.filter fun o => o.cx == cx && !o.started
  let m := m.modCore k fun c => { c with ops := c.ops.filter fun o => o.cx != cx || o.started }
  gone.foldl (fun m o => (m.modCtx cx fun c => setTokenDone c o.kd o.uid).returnAll (m.ctx cx).qwRoot o.weights) m

/-- Write the FAULT registers (17 R332). -/
def Ctx.setFault (c : Ctx) (slots : BitVec 6) (pc : Word) (f : FaultRec) : Ctx :=
  { c with faultCause := f.cause, faultField := f.field, faultSlots := slots, faultPc := pc, faultAddr := f.addr, faultInfo := f.info }

/-- TAKING AN EXCEPTION: the handler entry of R333. -/
def enterHandler (m : Mach) (cx : Nat) (entryPc : Word) (slots : BitVec 6) (pc : Word) (f : FaultRec) (kind : EntryKind) : Mach :=
  (m.dropWaiter cx).modCtx cx fun c =>
    { (c.applyAllFrozen.setFault slots pc f) with
      latchH := [], handler := true, pc := entryPc, entry := some kind, drains := c.life == .draining, drainPc := c.pc, life := .running,
      bwait := none, idleAt := none, idleMet := false, stalled := false, blocked := false, missed := false, walkFail := none,
      await := none, awaitX := none, issued := false, held := none, consts := [], barrier := none, qwaits := false }

/-- RETURNING FROM AN EXCEPTION to `target`: frozen writes apply, the mode is task, the pc is the target; an entry taken during
the drain goes back to it, its pc that of the END bundle (R145, R330, R334). -/
def leaveHandler (m : Mach) (cx : Nat) (target : Word) : Mach :=
  m.modCtx cx fun c =>
    { c.applyAllFrozen with handler := false, pc := if c.drains then c.drainPc else target, entry := none, life := if c.drains then .draining else .running,
                            drains := false, leaveAt := none }

def Launch.handlerPc (l : Launch) : Option Word := l.kernel.handler.map fun off => l.kernel.codeBase + BitVec.ofNat 64 off

/-- The unstarted and pending work of a launch goes back to its root (R291, R337). -/
def drainLaunchWork (m : Mach) (l : Launch) : Mach :=
  let r := l.rootRef m
  let m := (l.spawns ++ l.msgs ++ l.records).foldl (fun m t => m.returnWeight t.root t.weight) m
  let m := l.dealer.foldl (fun m w => m.returnWeight r w) m
  m.modLaunch l.lid fun l => { l with spawns := [], msgs := [], records := [], dealer := [] }

/-- Withdraw the posted sends of a launch, wherever its contexts are: the entries that still hold them go, and each weight returns
(R337; 15 R290).  A receive that had begun to pull one waits again, and goes where its context is released. -/
def withdrawSends (m : Mach) (l : Launch) : Mach :=
  let mine (k : Nat) : List SendRec := (m.core k).sends.filter fun x => x.lid == l.lid
  let cores := (m.cores.map (·.1))
  let m' := cores.foldl (fun m k => (mine k).foldl (fun m x => m.returnWeight x.root x.weight) m) m
  let gone (e : RecvEnt) : Bool := e.ready.sender.toNat == m.deviceNo && (mine e.ready.core).any fun x => x.entry == e.ready.entry
  let waits (k uid : Nat) : Bool := (m.core k).recvs.any fun e => gone e && e.owner == uid && uid != 0
  let m' := cores.foldl (fun m k => (mine k).foldl (fun m x =>
    match (m.core k).ops.find? (·.uid == x.uid) with
    | some o => m.modCtx x.cx fun c => if o.kd ≠ 0 && c.token o.kd = o.uid then { c with tokens := mset c.tokens o.kd 0 } else c
    | none => m) m) m'
  { m' with cores := m'.cores.map fun (k, c) =>
      (k, { c with sends := c.sends.filter fun x => x.lid != l.lid, recvs := c.recvs.filter fun e => !gone e,
                   ops := (c.ops.filter fun o => !((mine k).any (fun x => x.uid == o.uid) || (waits k o.uid && (m.ctx o.cx).released))).map fun o =>
                     if waits k o.uid && !o.posted then { o with started := false } else o }) }

/-- Why a launch fails: a fault of a context, one of its domain that no context takes (15 R282, R288), its watchdog, or the host. -/
inductive FailBy where
  | fault (cause : BitVec 8) | domain (cause : BitVec 8) | watchdog | host
deriving DecidableEq, Repr
def FailBy.event (l : Launch) : FailBy → CtxEvent
  | .fault c => .cancel 1 c
  | .domain c => .cancel 1 c
  | .watchdog => .watchdog l.interval
  | .host => .cancel 0 0
def FailBy.cause : FailBy → BitVec 8
  | .fault c => c
  | .domain c => c
  | .watchdog => 0x14
  | .host => 0x15

/-- A context stands in the QWAIT of this root's launch (15 R297). -/
def Mach.waitsFor (m : Mach) (r : Root) (cx : Nat) : Bool := (m.ctx cx).qwaits && r.launch.isSome && (m.ctx cx).launch == r.launch
/-- Wake the registered waiter of a domain, p as `ok` says (15 R279, R291). -/
def wakeWaiter (m : Mach) (dom : Nat) (ok : Bool) : Mach :=
  let r := m.root dom
  match r.waiter with
  | none => m
  | some cx =>
    let m := m.setRoot dom { r with waiter := none }
    if m.waitsFor r cx then
      m.modCtx cx fun c => { c with await := some (.answered ok false (if ok then wholeWeight else 0)), qwaits := false }
    else m

/-- The number of a saved context. -/
def SavedCtx.cx (x : SavedCtx) : Nat := 8 * x.core + x.ctx
/-- Does a context's fault fail the launch: is it one of Table 05-4's faulting contexts? -/
def FailBy.ofContext : FailBy → Bool
  | .fault _ => true
  | _ => false
/-- A failing launch is not restored: the subscriptions of its saved contexts stay until its release, and what a saved context that is out
holds of another root goes back there (05 R97); the word of one of its own domain is lost, as Table 17-2b says (DEDUCED, log 88). -/
def dropSaved (m : Mach) (l : Launch) : Mach :=
  let out (x : SavedCtx) : Bool := !(l.seats.any fun st => st.ctxs.contains x.cx) || (m.ctx x.cx).released
  let back (m : Mach) (x : SavedCtx) : Mach :=
    if x.qwRoot = l.rootRef m then m else (returnShadow m x.cx l x.shadow x.qwRoot 0).returnWeight x.qwRoot x.qw
  ((l.saved.filter out).foldl back m).modLaunch l.lid fun y => { y with
    saved := [], savedSubs := y.savedSubs ++ (l.saved.filter fun x => !x.subs.isEmpty).map fun x => (x.cx, x.subs) }
/-- A launch fails or is cancelled (R337, R338).  `but` is a context that takes no CANCEL (DEDUCED, log 14). -/
def failLaunch (m : Mach) (lid : Word) (why : FailBy) (core : Nat) (but : Option Nat) : Mach :=
  match m.launch? lid with
  | none => m
  | some l =>
    if l.phase = .failing then m.modLaunch lid fun l => { l with failCtxs := if why.ofContext then min 255 (l.failCtxs + 1) else l.failCtxs }
    else
      let r := m.root l.domain
      let r := if r.granted.isSome then { r.add wholeWeight with granted := none } else r
      let m := m.setRoot l.domain { r with failed := true, cause := if r.failed then r.cause else why.cause }
      let m := m.qSetFlag (lidQueue lid) 2 true
      let m := l.allCtxs.foldl (fun m cx =>
        let m := discardOps m cx
        let m := if (m.ctx cx).subs.isEmpty then m else m.modCtx cx fun c => { c with subs := c.subs.map fun s => { s with stopped := true } }
        if some cx = but || (m.ctx cx).released then m
        else m.modCtx cx fun c =>
          if c.entry = some .leave then c else { c with events := why.event l :: c.events.filter (· != .preempt) }) m
      let m := withdrawSends m l
      let m := dropSaved (drainLaunchWork m l) l
      let m := wakeWaiter m l.domain false
      let m := match why with
        | .watchdog => m.postNotice 4 0x14 (core * 8) lid 0 (BitVec.ofNat 64 l.interval)
        | _ => m
      m.modLaunch lid fun l => { l with phase := .failing, failCause := why.cause, failCore := BitVec.ofNat 8 core,
                                        failCtxs := if why.ofContext then 1 else 0, cancelled := why == .host,
                                        deferred := [], lastReturn := m.time }

/-- A context takes a fault, found at issue or later (17 R328, R333, R335, R336); whichever way it takes it, its bundle waits for no
engine queue any more (DESIGN CHOICE, log 83), and for no condition of an IDLE, BWAIT or QWAIT. -/
def takeFault (m : Mach) (cx : Nat) (slots : BitVec 6) (f : FaultRec) : Mach :=
  let c := m.ctx cx
  match m.launchOf cx with
  | none => m.modCtx cx fun c => c.setFault slots c.pc f
  | some l =>
    if c.handler then
      releaseCtx (failLaunch (m.modCtx cx fun c => c.setFault slots c.pc f) l.lid (.fault f.cause) (coreOf cx) (some cx)) cx false
    else
      match l.handlerPc with
      | some pc =>
        enterHandler m cx pc slots c.pc f (if f.cause = 0x15 && bits f.info 1 0 ≠ 2 || f.cause = 0x14 then .leave else .other)
      | none =>
        if f.cause = 0x09 || f.cause = 0x18 then
          ((m.dropWaiter cx).modCtx cx fun c => { c.setFault slots c.pc f with
            life := .parked, drains := c.life == .draining, drainPc := c.pc, await := none, awaitX := none, issued := false, held := none,
            consts := [], barrier := none, bwait := none, idleAt := none, idleMet := false, qwaits := false }).postNotice 1 f.cause cx l.lid f.addr f.info
        else
          releaseCtx (failLaunch (m.modCtx cx fun c => c.setFault slots c.pc f) l.lid (.fault f.cause) (coreOf cx) (some cx)) cx false

end Sys2Proof.Machine
end

