-- ==== Sys2Proof/Machine/Issue.lean ====
section
/-! DEFINITION. Issuing a bundle: what a slot reads, writes, waits on and faults with, and how the bundle stalls, faults or commits
(06 R103 to R106, 07 R120 to R126, 02 R38, R41). -/
namespace Sys2Proof.Machine

/-! A slot's view. -/
/-- The machine from before the bundle: every operand is read there (R120). -/
def pre (s : State) : Mach := s.issue.old.getD s.m
def preCtx (s : State) : Ctx := (pre s).ctx s.issue.cx
def rs (s : State) (r : SReg) : Word := (preCtx s).s r
def rp (s : State) (r : PReg) : Bool := (preCtx s).p r
def preLaunch (s : State) : Option Launch := (pre s).launchOf s.issue.cx

/-- Change the context as the bundle leaves it. -/
def onCtx (f : Ctx → Ctx) (s : State) : State := { s with m := s.m.modCtx s.issue.cx f }
def onMach (f : Mach → Mach) (s : State) : State := { s with m := f s.m }
def curCtx (s : State) : Ctx := s.m.ctx s.issue.cx

/-- A fault of a slot at issue. -/
def faultAt (k : Slot) (f : FaultRec) (s : State) : State := { s with issue := { s.issue with faults := s.issue.faults ++ [(k, f)] } }
/-- The bundle does not issue now; an internal dependency wins over idleness. -/
def stallOn (st : Stall) (s : State) : State :=
  { s with issue := { s.issue with stall := if s.issue.stall = some .internal then some .internal else some st } }
def askFor (a : Ask) (s : State) : State := { s with issue := { s.issue with asks := s.issue.asks ++ [a] } }

/-- R124: a slot reads these registers. -/
def reads (l : List RegRef) (s : State) : State :=
  if l.any fun r => (preCtx s).pend.contains r then stallOn .internal s else s
/-- R124: a frozen write to a pending register stalls. -/
def writesFrozen (r : RegRef) (s : State) : State := match r.dest? with | none => s | some r => reads [r] s
/-- R124: setting pending on a register that is pending or has an outstanding frozen write stalls. -/
def writesPending (r : RegRef) (s : State) : State :=
  match r.dest? with
  | none => s
  | some r => if (preCtx s).pend.contains r || (preCtx s).frozen.any (fun w => w.reg == r) then stallOn .internal s else s
def sr (s : State) (r : SReg) : RegRef := sref (preCtx s).handler r

/-- Queue a frozen write of latency L (R122); a write to s0 or p0 does not exist. -/
def frozenTo (r : RegRef) (lat : Nat) (v : Word) (s : State) : State :=
  match r.dest? with
  | none => s
  | some r => onCtx (fun c => { c with frozen := c.frozen ++ [⟨r, v, lat⟩] }) (writesFrozen r s)
def wrS (r : SReg) (lat : Nat) (v : Word) (s : State) : State := frozenTo (sr s r) lat v s
def wrP (r : PReg) (lat : Nat) (v : Bool) (s : State) : State := frozenTo (pref r) lat (if v then 1 else 0) s
/-- Set a destination pending (R124). -/
def pendOn (r : RegRef) (s : State) : State :=
  match r.dest? with
  | none => s
  | some r => onCtx (fun c => { c with pend := c.pend ++ [r] }) (writesPending r s)

/-- Queue an outstanding access of the context. -/
def pushAccess (a : Access) (s : State) : State :=
  { s with m := (s.m.modCtx s.issue.cx fun c => { c with out := c.out ++ [{ a with uid := s.m.uid, handlerAcc := c.handler }] }).nextUid }

/-! Retiring. -/

/-- The bindings of every slot together, in slot order (02 R38). -/
def mergeBinds (l : List (Slot × List Binding)) : List Binding := l.flatMap (·.2)
/-- Each slot that binds a bobbin otherwise than an earlier slot faults, with the first such binding of its own; `acc` holds what
the earlier slots bind (02 R38) (DEDUCED, log 73). -/
def bindClashes : List (Slot × List Binding) → List Binding → List (Slot × FaultRec)
  | [], _ => []
  | (k, l) :: t, acc =>
    (match l.findSome? (fun b => (acc.find? fun a => a.b == b.b && a.v != b.v).map fun a => (a, b)) with
      | some (a, b) => [(k, { cause := 0x04, field := BitVec.ofNat 4 (fEXT0 + b.ext), info := shapeInfo b.v a.v false (some b.b) b.pos })]
      | none => []) ++ bindClashes t (acc ++ l)

def Ctx.bindAll (c : Ctx) (l : List Binding) : Ctx :=
  { c with bobbins := l.foldl (fun m b => mset m b.b { bound := true, value := BitVec.ofNat 23 b.v }) c.bobbins }

def slotMask (l : List Slot) : BitVec 6 := l.foldl (fun m k => m ||| BitVec.ofNat 6 (2 ^ k.bit)) 0
/-- The faults of a bundle in slot order: the mask of all, and the first (02 R41). -/
def firstFault (fs : List (Slot × FaultRec)) : Option (Slot × FaultRec) :=
  fs.foldl (fun b x => match b with | none => some x | some y => if x.1.bit < y.1.bit then some x else some y) none

/-- The entries a core's receive list has room for (16 R320). -/
def recvCap : Nat := 256
def recvRoom (m : Mach) (k : Nat) : Nat := recvCap - (m.core k).recvs.length
/-- A restored launch's seat whose contexts are all back in task mode becomes resident: its deferred signals are replayed, a fault of
one goes to the lowest context and waits there for its first bundle, and what was delivered meanwhile enters, as far as the receive list
has room (14 R277, 16 R320, 17 R342). -/
def residentSeat (m : Mach) (lid : Word) (sr : SeatRec) : Mach :=
  match m.launch? lid with
  | none => m
  | some l =>
    let mine := l.deferred.filter fun d => d.seat == sr.no
    let enter := (l.held.filter fun e => sr.ctxs.contains e.cx).take (recvRoom m sr.core)
    let m := m.modLaunch lid fun l => { l with
      seats := lmod (fun x => x.no == sr.no) (fun x => { x with resident := true }) l.seats,
      deferred := l.deferred.filter fun d => d.seat != sr.no,
      held := enter.foldl List.erase l.held,
      phase := if l.phase = .restoring && l.oldSeats.isEmpty && l.seats.all (fun x => x.resident || x.no == sr.no) then .running else l.phase }
    let m := m.modCore sr.core fun c => { c with recvs := c.recvs ++ enter }
    let ap (off : Nat) : Word := BitVec.ofNat 64 (0x01F1000000000000 + posOf sr.core * 0x400000 + off)
    let deliver (m : Mach) (f : FaultRec) : Mach :=
      (m.logFault (sr.ctxs.headD 0) f).modCtx (sr.ctxs.headD 0) fun c => c.addFault (.engine 2 f)
    mine.foldl (fun m d =>
      let key := scratchKey sr.core (sr.base + d.offset)
      if (keyLocs key).any m.errAt then deliver m { cause := 0x0A, addr := ap d.offset, info := 22 }
      else if (m.barrier key).tag ≠ l.gtag then deliver m { cause := 0x10, addr := ap d.offset }
      else match m.updateBarrier key d.expect d.arrivals d.bytes with
        | .ok m => m
        | .error info => deliver m { cause := 0x0B, addr := ap d.offset, info := info }) m

/-- After a context has left its restore entry, its seat may become resident. -/
def afterReturn (m : Mach) (cx : Nat) : Mach :=
  match m.launchOf cx with
  | none => m
  | some l =>
    match l.seatOf cx with
    | none => m
    | some sr =>
      if !sr.resident && sr.ctxs.all (fun c => (m.ctx c).entry != some .restore) then residentSeat m l.lid sr else m

/-- An event of task mode that a save handler leaves untaken, and that the restored context takes at its next task boundary (17 R331). -/
def CtxEvent.deferred (e : CtxEvent) : Bool := !e.isLeave && !e.inHandler && e != .preempt
/-- A context leaves its save entry (17 R340): its accesses are performed, what waits for its task mode stays with its saved context, and
so does the QW that the release discards (15 R290). -/
def leaveSave (m : Mach) (cx : Nat) : Mach :=
  let m := performAll m cx
  let c := m.ctx cx
  let keep (x : SavedCtx) : SavedCtx := { x with qw := c.qw, events := x.events ++ c.events.filter CtxEvent.deferred }
  let m := match c.launch with
    | some lid => m.modLaunch lid fun l => { l with saved := lmod (fun x => 8 * x.core + x.ctx == cx) keep l.saved }
    | none => m
  releaseCtx m cx true
/-- TRET commits: Table 17-2 by the entry being left; a CANCEL or WATCHDOG entry ends as END does, after its drain (07 R138).  A save
entry whose launch failed meanwhile goes back to take its CANCEL or WATCHDOG (Table 17-2b). -/
def doTret (m : Mach) (cx : Nat) (target : Word) : Mach :=
  match (m.ctx cx).entry with
  | some .save => if (m.launchOf cx).any (·.phase == .failing) then leaveHandler m cx target else leaveSave m cx
  | some .leave => m.modCtx cx fun c => { c with life := .draining }
  | _ => afterReturn (leaveHandler m cx target) cx

/-- What BGET reads: bound in bit 23, then the value (08 R159). -/
def bobbinWord (c : Ctx) (b : Nat) : Word :=
  let x := mget ({} : Bobbin) c.bobbins b
  BitVec.ofNat 64 ((if x.bound then 2 ^ 23 else 0) + x.value.toNat)

/-- Weight moves in the domain of a context (15 R303). -/
def moveWeight (s : State) : State := onMach (fun m => m.touch (preCtx s).qwRoot) s

/-- A context that waits for nothing, its bundle done. -/
def Ctx.unblocked (c : Ctx) : Ctx :=
  { c with stalled := false, blocked := false, missed := false, await := none, awaitX := none, issued := false, held := none, consts := [],
           barrier := none, bwait := none, idleAt := none, idleMet := false, walkFail := none, qwaits := false }
/-- A bundle with no fault and no stall commits and retires (R121, R122, R104).  What a CTXW of it writes stands before the frozen writes
that are due, so that an older frozen write of a predicate, due at this bundle, overrides a CTXW of the predicates (DESIGN CHOICE, log 106). -/
def commit (s : State) (binds : List Binding) : State :=
  let cx := s.issue.cx
  let len := s.issue.len
  let m := s.m.modCtx cx fun c =>
    let c := c.bindAll binds
    let c := { c with drawKey := s.issue.seedKey.getD c.drawKey, drawCtr := s.issue.seedCtr.getD c.drawCtr }
    let c := c.setLatches (s.issue.latches.foldl (fun l x => mset l x.1.bit x.2) c.latches)
    let c := { c.tickFrozen.unblocked with pc := (s.issue.target.getD (c.pc + BitVec.ofNat 64 len)) }
    if s.issue.ends then { c with life := .draining, pc := (preCtx s).pc } else c
  let m := match m.launchOf cx with | some l => m.modLaunch l.lid fun l => { l with active := true } | none => m
  let m := m.modCore (coreOf cx) fun c => { c with yielded := s.issue.yield }
  let m := s.issue.bget.foldl (fun m x =>
    if binds.any (·.b == x.2) then
      (m.modCtx cx fun c => { c with
        pend := c.pend ++ [x.1]
        out := c.out ++ [{ uid := m.uid, kind := .give (some x.1) (bobbinWord (m.ctx cx) x.2) }] }).nextUid
    else m.modCtx cx fun c => c.setRef x.1 (bobbinWord (preCtx s) x.2)) m
  let m := if s.issue.tret.isSome then doTret m cx (s.issue.target.getD 0) else m
  { s with m := m, issue := {} }

/-- A request the bundle makes while it stays unissued. -/
def applyAsk (cx : Nat) (m : Mach) (a : Ask) : Mach :=
  match a with
  | .sched r =>
    match m.launchOf cx with
    | none => m
    | some l => (m.modDie l.home fun d => { d with reqs := d.reqs ++ [r] }).modCtx cx fun c => { c with await := some .asked }
  | .barrier u => m.modCtx cx fun c => { c with await := some .asked, barrier := some u }
  | .miss v =>
    let d := dieOf (coreOf cx)
    if (m.ctx cx).missed || 4096 ≤ (m.die d).misses.length then m
    else (m.modDie d fun x => { x with misses := x.misses ++ [v] }).modCtx cx fun c => { c with missed := true }
  | .waiter q => m.addWaiter cx q
  | .bwait key => m.modCtx cx fun c => { c with bwait := some (key, false) }
  | .qwait w =>
    match m.launchOf cx with
    | none => m
    | some l => (m.modDie l.home fun d => { d with rootQ := d.rootQ ++ [.wait l.root cx w] }).modCtx cx
        fun c => { c with await := some .asked, qwaits := true }
  | .idleAt n => m.modCtx cx fun c => { c with idleAt := some n }
  | .replay blk => replayStep m cx blk
  | .hold => m.modCtx cx fun c => { c with await := some .asked }
  | .load l => (loadBytes m (coreOf cx) l 0).1
  | .subcan ring => m.modCtx cx fun c => { c with subs := lmod (fun x => x.ring.toNat == ring) (fun x => { x with stopped := true }) c.subs }
/-- Requests made only when nothing else holds the bundle back (10 R192); an IDLE is tested at the bundle's issue (R141). -/
def Ask.final : Ask → Bool
  | .sched _ => true
  | .load _ => true
  | .idleAt _ => true
  | .barrier _ => true
  | .qwait _ => true
  | .bwait _ => true
  | .replay _ => true
  | .hold => true
  | .subcan _ => true
  | _ => false

/-- A BGET whose bobbin the bundle binds sets pending, so an outstanding frozen write to its register stalls it (R124, R159). -/
def bgetStalls (s : State) (binds : List Binding) : Bool :=
  s.issue.bget.any fun x => binds.any (·.b == x.2) && (preCtx s).frozen.any fun w => w.reg == x.1

def Ask.isIdle : Ask → Bool
  | .idleAt _ => true
  | _ => false
def Ask.isReplay : Ask → Bool
  | .replay _ => true
  | _ => false
/-- A stalled bundle: an IDLE of it is tested anew at its issue (R141). -/
def stallCtx (st : Stall) (idle : Bool) (c : Ctx) : Ctx :=
  { c with stalled := st == .internal, blocked := true, idleMet := c.issued, idleAt := if idle then none else c.idleAt }
/-- What a bundle asks now that nothing but its requests holds it back: an IDLE whose condition does not hold waits before any request is
made (R141), and an EQREPLAY queues its entries once every other request of the bundle has its answer (10 R192). -/
def asksNow (l : List Ask) : List Ask :=
  if l.any Ask.isIdle then l.filter Ask.isIdle
  else if l.all Ask.isReplay then l
  else l.filter fun a => !a.isReplay
/-- The context of a bundle that has asked: one that an IDLE holds back has not issued and waits, idle; any other has issued. -/
def askCtx (i : Issue) (c : Ctx) : Ctx :=
  if i.asks.any Ask.isIdle then { c with stalled := false, blocked := true, idleMet := c.issued }
  else { c with stalled := true, blocked := true, issued := true, idleMet := true,
                consts := if c.issued then c.consts else i.consts }

/-- The end of a bundle: stall, fault, ask or commit.  A stalled or faulting bundle has no effect (R120, R121), a faulting one does
not yield (06 R104); one that has made its request has issued, and waits for the answer alone (17 R330). -/
def finish (s : State) : State :=
  let old := pre s
  let cx := s.issue.cx
  match s.issue.stall with
  | some st =>
    let m := (s.issue.asks.filter fun a => !a.final).foldl (applyAsk cx) old
    { s with m := m.modCtx cx (stallCtx st (s.issue.asks.any Ask.isIdle)), issue := {} }
  | none =>
    let binds := mergeBinds s.issue.binds
    let fs := s.issue.faults ++ bindClashes s.issue.binds []
    match firstFault fs with
    | some (_, f) =>
      { s with m := (takeFault (old.logFault cx f) cx (slotMask (fs.map (·.1))) f).modCore (coreOf cx) fun c => { c with yielded := false }, issue := {} }
    | none =>
      if bgetStalls s binds then { s with m := old.modCtx cx fun c => { c with stalled := true, blocked := true }, issue := {} }
      else if s.issue.asks.isEmpty then commit s binds
      else { s with m := ((asksNow s.issue.asks).foldl (applyAsk cx) old).modCtx cx (askCtx s.issue), issue := {} }

/-- The replay offset that a slot's latch takes (R105, R106). -/
def newLatch (k : Slot) (i : Instr) (s : State) : State :=
  if k = .x then s
  else match encode i with
    | some (_, w) => { s with issue := { s.issue with latches := s.issue.latches ++ [(k, { word := w, offset := s.issue.offset })] } }
    | none => s

/-- Run one slot of the bundle: nothing but its latch under a false guard (R103); the last slot ends the bundle.  A slot that
stands alone is a bundle of its own. -/
def runSlot (k : Slot) (i : Instr) (f : State → State) (s : State) : Host.Outcome State Fault Refusal :=
  let s := { s with issue := { s.issue with
    old := some (pre s), len := if s.issue.len = 0 then 4 + k.bytes else s.issue.len } }
  let s := newLatch k i (if s.issue.guarded then s else f s)
  .next (if s.issue.last then finish s else s)

/-- An X instruction. -/
def runX (i : Instr) (f : State → State) (s : State) : Host.Outcome State Fault Refusal := runSlot .x i f s
def runG (i : Instr) (f : State → State) (s : State) : Host.Outcome State Fault Refusal := runSlot .g i f s

/-- A value read at issue for a register that is pending until it arrives (R124). -/
def giveTo (r : RegRef) (v : Word) (s : State) : State :=
  pushAccess { uid := 0, kind := .give r.dest? v } (pendOn r s)

/-- The answer a bundle waits for: none yet asked, waiting, or here. -/
def awaiting (s : State) : Option Await := (preCtx s).await

end Sys2Proof.Machine
end

