-- ==== Sys2Proof/Machine/Operands.lean ====
section
/-! DEFINITION. Operand forms: the G address and its replay, apertures, translation at issue, and the code map (06 R106, R111;
12 R213 to R216, R233 to R235; 13 R237; 04 R64). -/
namespace Sys2Proof.Machine

def localBase : Nat := 0x01F0000000000000
def peerBase : Nat := 0x01F1000000000000
def notifyBase : Nat := 0x01F8000000000000

/-- What an address names when it is checked. -/
inductive Res where
  | locs (l : List Loc)
  | notifyReg (die : Nat) (offset : Nat)
  | fault (f : FaultRec)
  | miss (va : Word)
  | wait
deriving DecidableEq, Repr

/-- A fault with the fields of R235. -/
def accFault (cause : BitVec 8) (sub : Nat) (write : Bool) (addr : Nat) : FaultRec :=
  { cause := cause, addr := BitVec.ofNat 64 addr,
    info := if cause = 0x10 then 0 else BitVec.ofNat 64 (sub + if write then 16 else 0) }

/-- The fault of a failed walk: an entry in error is a data error, not a translation failure (12 R222) (DEDUCED, log 40). -/
def leafFault (sub : Nat) (write : Bool) (addr : Nat) : FaultRec := accFault (if sub = 6 then 0x0A else 0x09) sub write addr

/-- The seat region that the peer aperture names on a core: the launch's seat claimed first there (R216), be it not yet claimed again
at restore (17 R342). -/
def Launch.seatOn (l : Launch) (core : Nat) : Option SeatRec :=
  ((l.seats ++ l.oldSeats).filter (·.core == core)).foldl
    (fun b x => match b with | none => some x | some y => if x.no < y.no then some x else some y) none

/-- The seat whose region an aperture address names. -/
def seatNamed (m : Mach) (cx a : Nat) : Option SeatRec :=
  let q := (a - peerBase) / 0x400000
  (m.launchOf cx).bind fun l => if a < peerBase || q = posOf (coreOf cx) then l.seatOf cx else l.seatOn (coreOf cx / 4 * 4 + q)
/-- Where an aperture address lies: core, first byte, and whether its region is resident (17 R342), or its fault. -/
def scratchTarget (m : Mach) (cx a n : Nat) (write : Bool) : Except FaultRec (Nat × Nat × Bool) :=
  let c := m.ctx cx
  let core := coreOf cx
  if localBase ≤ a && a < peerBase then
    let o := a - localBase
    if o + n ≤ c.reserve then .ok (core, c.seatBase + o, true) else .error (accFault 0x0A 4 write a)
  else if peerBase ≤ a && a < peerBase + 0x1000000 then
    let o := (a - peerBase) % 0x400000
    let k := core / 4 * 4 + (a - peerBase) / 0x400000
    match seatNamed m cx a with
    | none => .error (accFault 0x0A 5 write a)
    | some st =>
      if o + n ≤ st.size then .ok (k, st.base + o, st.resident || (c.handler && k == core)) else .error (accFault 0x0A 4 write a)
  else .error (accFault 0x0A 3 write a)
/-- Scratchpad bytes of an aperture address, its fault, or a wait while its region is not resident. -/
def scratchAt (m : Mach) (cx a n : Nat) (write : Bool) : Res :=
  match scratchTarget m cx a n write with
  | .error f => .fault f
  | .ok (k, o, true) => .locs ((upFrom (scratchKey k o) n).map .scratch)
  | .ok (_, _, false) => .wait

/-- The leaf in the core's or die's translation cache (R234). -/
def Mach.cached (m : Mach) (core va : Nat) : Option TlbEnt :=
  match tlbFind (m.core core).tlb va with
  | some t => some t
  | none => tlbFind (m.die (dieOf core)).tlb va

/-- Which page permission an access needs. -/
inductive Perm where
  | read | write | exec
deriving DecidableEq, Repr
def Perm.isWrite : Perm → Bool | .write => true | _ => false
def permFault (t : TlbEnt) (p : Perm) : Option Nat :=
  match p with
  | .write => if pteBit t.pte.toNat 3 then none else some 0
  | .exec => if pteBit t.pte.toNat 4 then none else some 1
  | .read => if pteBit t.pte.toNat 2 then none else some 2

/-- Translate the bytes of a global access at issue: every page by a cached leaf, else a parked miss (R234, R237 step 4) (DEDUCED, log 75). -/
def translateAll (m : Mach) (cx : Nat) (ps : List Perm) : List Nat → Except Res (List Loc)
  | [] => .ok []
  | a :: as =>
    match m.cached (coreOf cx) a with
    | none =>
      match (m.ctx cx).walkFail with
      | some (va, sub, _) => if va.toNat = a then .error (.fault (leafFault sub.toNat (ps.any Perm.isWrite) a)) else .error (.miss (BitVec.ofNat 64 a))
      | none => .error (.miss (BitVec.ofNat 64 a))
    | some t =>
      match ps.findSome? (permFault t) with
      | some sub => .error (.fault (accFault 0x0A sub (ps.any Perm.isWrite) a))
      | none => do .ok (t.loc a :: (← translateAll m cx ps as))

/-- The region of an address and its checks (R213, R237 steps 3 and 4). -/
def resolveAt (m : Mach) (cx a n : Nat) (ps : List Perm) : Res :=
  let w := ps.any Perm.isWrite
  if a < globalTop then
    if a + n ≤ globalTop then (match translateAll m cx ps (upFrom a n) with | .ok l => .locs l | .error r => r)
    else .fault (accFault 0x0A 3 w a)
  else if localBase ≤ a && a < peerBase + 0x1000000 then scratchAt m cx a n w
  else if notifyBase ≤ a && a < notifyBase + 0x40000 && a % 0x10000 < 8 then
    (if a % 0x10000 + n ≤ 8 then .notifyReg ((a - notifyBase) / 0x10000) (a % 0x10000) else .fault (accFault 0x0A 3 w a))
  else .fault (accFault 0x0A 3 w a)

/-- The displacement with the replay offset, modulo 2^24 as a signed value (06 R106). -/
def gDisp (s : State) (g : GSlot) : Word := (g.disp + s.issue.offset).signExtend 64
/-- s[sa] + s[sb] + disp24 + offset (R111). -/
def gAddr (s : State) (g : GSlot) : Word := rs s g.sa + rs s g.sb + gDisp s g
def gSources (s : State) (g : GSlot) : List RegRef := [sr s g.sa, sr s g.sb]

/-- Use a checked address: fault, park a miss or wait for residency as it says. -/
def withRes (k : Slot) (r : Res) (write : Bool) (f : List Loc → State → State) (onNotify : Nat → Nat → State → State) (s : State) : State :=
  match r with
  | .locs l => f l s
  | .notifyReg d o => onNotify d o s
  | .fault x => faultAt k x s
  | .miss va => askFor (.miss { cx := s.issue.cx, va := va, write := write, fetch := false }) (stallOn .idle s)
  | .wait => stallOn .internal s

def alignFault (a : Nat) : FaultRec := { cause := 0x08, addr := BitVec.ofNat 64 a }

/-- The code-map bit of an address in a launch's segment; beyond the segment it reads clear (04 R64, 06 R101). -/
def codeBit (m : Mach) (l : Launch) (a : Nat) : Bool :=
  let b := l.kernel.codeBase.toNat
  if b ≤ a && a % 4 = 0 && a - b < l.kernel.codeSize then
    let w := (a - b) / 4
    m.devNat (l.kernel.mapBase.toNat + w / 8) 1 / 2 ^ (w % 8) % 2 == 1
  else false

/-- Has the map byte of an address an uncorrectable error (12 R222)? -/
def codeBitErr (m : Mach) (l : Launch) (a : Nat) : Bool :=
  !m.errs.isEmpty && decide (l.kernel.codeBase.toNat ≤ a) && m.devErr (l.kernel.mapBase.toNat + (a - l.kernel.codeBase.toNat) / 32) 1
/-- Is an address's bundle a legal branch target (R102)?  `rep`: the repeat mask is checked too. -/
def targetFault (m : Mach) (l : Launch) (a : Word) (rep : Bool) : Option FaultRec :=
  if codeBitErr m l a.toNat then some (accFault 0x0A 6 false a.toNat)
  else if !codeBit m l a.toNat then some { cause := 0x03, addr := a, info := 0 }
  else if rep && m.devErr a.toNat 4 then some (accFault 0x0A 6 false a.toNat)
  else if rep && (decodeHeader (BitVec.ofNat 32 (m.devNat a.toNat 4))).rep != 0 then some { cause := 0x03, addr := a, info := 1 }
  else none

/-- Take a branch (R102, R137); a bundle that has issued, and waits for an answer, has passed its check. -/
def branchTo (a : Word) (rep : Bool) (s : State) : State :=
  match if (preCtx s).issued then none else (preLaunch s).bind fun l => targetFault (pre s) l a rep with
  | some f => faultAt .x f s
  | none => { s with issue := { s.issue with target := some a } }
def bundlePc (s : State) : Word := (preCtx s).pc
def linkPc (s : State) : Word := bundlePc s + BitVec.ofNat 64 s.issue.len

/-- The rest of a slot, unless a register it reads or writes is still pending. -/
def whenFree (f : State → State) (s : State) : State := if s.issue.stall = some .internal then s else f s

/-- A tile named by an X instruction (02 R39); position 0 for a destination, 1 for a source. -/
def tileCheck (t : TReg) (pos : Nat) (s : State) : State :=
  let n := (preCtx s).tilesPer
  if t.toNat % 8 < n then s else faultAt .x (groupFault pos n (t.toNat % 8)) s

end Sys2Proof.Machine
end

