-- ==== Sys2Proof/Machine/Fetch.lean ====
section
/-! DEFINITION. Fetching the bundle at a context's pc: the code map, the instruction cache, the header and the encoding checks of
its present and repeated slots (06 R98 to R109, R115; 08 R158; 12 R222, R223, R234, R235). -/
namespace Sys2Proof.Machine

/-- What a fetch of code bytes meets. -/
inductive CodeErr where
  | miss (va : Word)
  | fault (f : FaultRec)
deriving DecidableEq, Repr

/-- One 128-byte line of code through the instruction cache; `lo` to `hi` are the bytes wanted (R213, R223, R234).  The spec gives the
cache's 64 KiB only (01 R11): 512 lines of 128 bytes, the first-listed dropped when it is full (DESIGN CHOICE, log 84). -/
def codeLine (m : Mach) (cx lo hi pc line : Nat) : Except CodeErr (Mach × List Byte) :=
  let k := coreOf cx
  match mget? (m.core k).icache line with
  | some l => .ok (m, l)
  | none =>
    let va := max pc (line * 128)
    if globalTop ≤ va then .error (.fault (accFault 0x0A 3 false va)) else
    match m.cached k va with
    | none =>
      match (m.ctx cx).walkFail with
      | some (a, sub, true) => if a.toNat = va then .error (.fault (leafFault sub.toNat false va)) else .error (.miss (BitVec.ofNat 64 va))
      | _ => .error (.miss (BitVec.ofNat 64 va))
    | some t =>
      match permFault t .exec with
      | some sub => .error (.fault (accFault 0x0A sub false va))
      | none =>
        let ls := (upFrom (line * 128) 128).map t.loc
        let bs := m.readLocs ls
        if !m.errs.isEmpty && ((upFrom lo (hi - lo)).any fun a => a / 128 == line && m.errAt (t.loc a)) then
          .error (.fault (accFault 0x0A 6 false pc))
        else if !m.errs.isEmpty && ls.any m.errAt then .ok (m, bs)
        else .ok (m.modCore k fun c => { c with icache := mset (if 512 ≤ c.icache.length then c.icache.drop 1 else c.icache) line bs }, bs)

/-- The bytes [lo, hi) of code, which span at most two lines. -/
def codeBytes (m : Mach) (cx lo hi pc : Nat) : Except CodeErr (Mach × List Byte) := do
  let a := lo / 128
  let b := (hi - 1) / 128
  let (m, l) ← codeLine m cx lo hi pc a
  let (m, l) ← (if a = b then .ok (m, l) else do
    let (m, l2) ← codeLine m cx lo hi pc b
    .ok (m, l ++ l2) : Except CodeErr (Mach × List Byte))
  .ok (m, (l.drop (lo % 128)).take (hi - lo))

/-! The type-constant table (04 R66, 08 R159). -/
/-- Entry `i` of the launch's type-constant table, read as a code fetch; the all-zero word beyond its count.  The line it reads is not
kept in the instruction cache (DESIGN CHOICE, log 84). -/
def typeRead (s : State) (i : Nat) : Except CodeErr TypeWord :=
  match preLaunch s with
  | some l =>
    if i < l.kernel.typeCount then
      let a := l.kernel.typeBase.toNat + 16 * i
      (codeBytes (pre s) s.issue.cx a (a + 16) a).map fun x => BitVec.ofNat 128 (leNat x.2)
    else .ok 0
  | none => .ok 0
/-- The word that a slot of an issued bundle read. -/
def keptConst (c : Ctx) (k : Slot) : TypeWord := ((c.consts.find? (·.1 == k)).map (·.2)).getD 0
/-- Use an entry of the table in a slot: its fault, its miss, or its word.  A bundle that has issued, and waits for an answer, has
passed this read and keeps the word (17 R330). -/
def withTypeConst (k : Slot) (i : Nat) (f : TypeWord → State → State) (s : State) : State :=
  match if (preCtx s).issued then .ok (keptConst (preCtx s) k) else typeRead s i with
  | .ok w => f w { s with issue := { s.issue with consts := s.issue.consts ++ [(k, w)] } }
  | .error (.fault x) => faultAt k x s
  | .error (.miss va) => askFor (.miss { cx := s.issue.cx, va := va, write := false, fetch := true }) (stallOn .idle s)

/-! Destinations of a slot (R109). -/
/-- The scalar or predicate that an X word writes, by opcode (Table 06-9). -/
def xDest (f : XFields) : Option RegRef :=
  let op := f.op.toNat
  let sc := (1 ≤ op && op ≤ 0x17) || (0x20 ≤ op && op ≤ 0x29) || op == 0x40 || (0x48 ≤ op && op ≤ 0x4D) || (0x50 ≤ op && op ≤ 0x53) ||
    op == 0x62 || op == 0x65 || op == 0x70 || op == 0x73 || op == 0x75 || op == 0x82 || op == 0x85 || op == 0x88
  let pr := (0x30 ≤ op && op ≤ 0x3C) || op == 0x4E || op == 0x4F || op == 0x86
  if sc then (RegRef.s f.sd.toNat).dest? else if op = 0x63 then some (.s 63) else if pr then (RegRef.p (f.sd.toNat % 8)).dest? else none
/-- The scalar or predicate that a G word writes. -/
def gDest (op : BitVec 8) (g : GSlot) : Option RegRef :=
  let o := op.toNat
  let sc := (1 ≤ o && o ≤ 7) || o == 0x0C || (0x10 ≤ o && o ≤ 0x1A) || o == 0x22 || o == 0x40 || o == 0x44 || o == 0x59 || o == 0x60
  let pr := o == 0x2A || o == 0x34 || o == 0x3A || o == 0x41 || o == 0x43 || o == 0x68
  if sc then (RegRef.s g.sd.toNat).dest? else if pr then (RegRef.p (g.sd.toNat % 8)).dest? else none
def slotDest (k : Slot) (w : BitVec 64) : Option RegRef :=
  match k with
  | .x => xDest (xFields (w.setWidth 32))
  | .g => gDest (gFields w).1 (gFields w).2
  | _ => none
/-- The token an engine slot produces, 0 for none. -/
def slotKd (k : Slot) (w : BitVec 64) : Nat :=
  match k with
  | .x => 0
  | .g => 0
  | .v0 => (slotTokens .v0 w).1
  | .v1 => (slotTokens .v1 w).1
  | .m => (slotTokens .m w).1
  | .c => (slotTokens .c w).1
/-- The tile an engine slot names as destination, and the tile whose type word an X slot writes (08 R158). -/
def tileDest (i : Instr) : List Nat := match (opUses i).td with | some t => [t] | none => (opUses i).writes
def typeDest : Instr → Option Nat
  | .tdecl t _ => some t.toNat
  | .tdecls t _ _ => some t.toNat
  | .tclear t => some t.toNat
  | _ => none

/-- The access size of a G word (Table 06-9). -/
def gSize (op : BitVec 8) (g : GSlot) : Nat :=
  let o := op.toNat
  if o = 1 ∨ o = 2 ∨ o = 8 then 1 else if o = 3 ∨ o = 4 ∨ o = 9 then 2 else if o = 5 ∨ o = 6 ∨ o = 0xA then 4
  else if o = 7 ∨ o = 0xB then 8 else if o = 0xC then 2 ^ (g.sb.toNat % 4) else if 0x10 ≤ o ∧ o ≤ 0x19 then 8 else if o = 0x1A then 4
  else if 0x38 ≤ o ∧ o ≤ 0x3A then 128 else 0
/-- How much a replay adds to the offset of a latched word (Table 06-2). -/
def advance (k : Slot) (w : BitVec 64) : BitVec 24 :=
  match k with
  | .g => let g := gFields w; g.2.stride.signExtend 24 * BitVec.ofNat 24 (gSize g.1 g.2)
  | .c =>
    let c := cFields w
    let o := c.1.toNat
    if o = 1 ∨ o = 2 ∨ o = 9 then c.2.stride.signExtend 24 else if 3 ≤ o ∧ o ≤ 8 then c.2.stride.signExtend 24 * 128 else 0
  | _ => 0

/-- A present or repeated slot: none where it is neither; `true` marks a case of R100. -/
def slotAt (c : Ctx) (h : Header) (words : List (Slot × BitVec 64)) (k : Slot) : Option (Except (Bool × EncFault) FSlot) :=
  let pres := h.pres.getLsbD k.bit
  let rep := h.rep.getLsbD k.bit
  let get (w : BitVec 64) (off : BitVec 24) : Except (Bool × EncFault) FSlot :=
    match decodeSlot k w with
    | .ok i => .ok ⟨k, w, i, off, rep⟩
    | .error e => .error (false, e)
  if rep then
    (if k = .x ∨ pres then some (.error (true, .illegalEncoding))
    else match mget? c.latches k.bit with
      | none => some (.error (true, .illegalEncoding))
      | some l => some (if l.loaded then get l.word (l.offset + advance k l.word) else .error (true, .illegalEncoding)))
  else if pres then (words.find? (·.1 == k)).map fun x => get x.2 0
  else none

/-- The slots that write a register, a token, or the tile whose word the X slot writes, a second time (R109, R158). -/
def dupSlots : List FSlot → List FSlot → List Slot
  | [], _ => []
  | f :: fs, seen =>
    let bad := seen.any fun e =>
      ((slotDest f.k f.word).isSome && slotDest f.k f.word == slotDest e.k e.word) ||
      (slotKd f.k f.word != 0 && slotKd f.k f.word == slotKd e.k e.word) ||
      (match typeDest e.instr with | some t => f.k != .g && (tileDest f.instr).contains t | none => false)
    (if bad then [f.k] else []) ++ dupSlots fs (f :: seen)

/-- A fetched bundle, or why there is none: a miss, a pending guard, or an encoding fault. -/
inductive Fetched where
  | nothing
  | miss (va : Word)
  | pendingGuard
  | fault (slots : BitVec 6) (f : FaultRec)
  | bundle (h : Header) (len : Nat) (slots : List FSlot)
deriving DecidableEq, Repr

def encCause : EncFault → BitVec 8 | .illegalEncoding => 0x01 | .illegalOp => 0x02

/-- The encoding checks of a bundle (R100, R115) (DEDUCED, log 33).  R109 compares the slots that have no encoding fault of their own
(DESIGN CHOICE, log 95). -/
def checkBundle (c : Ctx) (h : Header) (len : Nat) (words : List (Slot × BitVec 64)) : Fetched :=
  let all := allSlots.filterMap fun k => (slotAt c h words k).map fun r => (k, r)
  let good := all.filterMap fun x => match x.2 with | .ok f => some f | .error _ => none
  let bad := all.filterMap fun x => match x.2 with | .ok _ => none | .error e => some (x.1, e)
  let dups := (dupSlots good []).map fun k => (k, (false, EncFault.illegalEncoding))
  let errs := bad ++ dups
  if h.reserved = 0 ∧ errs.isEmpty then .bundle h len good
  else
    let r100 := h.reserved != 0 || bad.any (·.2.1)
    let first := allSlots.findSome? fun k => (errs.find? (·.1 == k)).map fun x => encCause x.2.2
    .fault (slotMask (errs.map (·.1))) { cause := if r100 then 0x01 else first.getD 0x01 }

/-- A bundle whose body holds a header bit or passes the segment's end faults, but for the encoding faults that come first (R101, R115);
it does so also where the fetch of its body meets a fault (DESIGN CHOICE, log 95). -/
def bodyChecked (outside : Option FaultRec) (x : Fetched) : Fetched :=
  match x with
  | .bundle h len slots => (match outside with | some f => .fault 0 f | none => .bundle h len slots)
  | x => x
/-- What the code map says of a bundle's body: a bit of it that cannot be read is a code fetch's error (12 R222, R223). -/
def bodyFault (m : Mach) (l : Launch) (pc n : Nat) : Option FaultRec :=
  let body := (upFrom 1 (n / 4 - 1)).map fun i => pc + 4 * i
  if l.kernel.codeBase.toNat + l.kernel.codeSize < pc + n then some { cause := 0x01 }
  else if body.any (codeBitErr m l) then some (accFault 0x0A 6 false pc)
  else if body.any (codeBit m l) then some { cause := 0x01 }
  else none
/-- The bundle at a context's pc: the one it holds while it waits for an answer, else fetched.  The header is decoded before the
slots, and both before every other check (R100, R115). -/
def fetchBundle (m : Mach) (cx : Nat) : Mach × Fetched :=
  let c := m.ctx cx
  match m.launchOf cx with
  | none => (m, .nothing)
  | some l =>
    let pc := c.pc.toNat
    match c.held with
    | some b => (m, .bundle b.h b.len b.slots)
    | none =>
    if codeBitErr m l pc then (m, .fault 0 (accFault 0x0A 6 false pc))
    else if !codeBit m l pc then (m, .fault 0 { cause := 0x01 })
    else match codeBytes m cx pc (pc + 4) pc with
      | .error (.miss va) => (m, .miss va)
      | .error (.fault f) => (m, .fault 0 f)
      | .ok (m, hb) =>
        let h := decodeHeader (BitVec.ofNat 32 (leNat hb))
        let n := bundleLength h
        if c.pend.contains (.p h.guard.toNat) then (m, .pendingGuard)
        else
          let outside := bodyFault m l pc n
          if n = 4 then (m, bodyChecked outside (checkBundle c h n []))
          else match codeBytes m cx (pc + 4) (pc + n) pc with
            | .error (.miss va) => (m, .miss va)
            | .error (.fault f) =>
              (m, match checkBundle c h n [] with
                | .fault slots e => .fault slots e
                | _ => .fault 0 (outside.getD f))
            | .ok (m, bs) => (m, bodyChecked outside (checkBundle c h n (slotWords (slotsOf h.pres) bs)))

end Sys2Proof.Machine
end

