-- ==== Sys2Proof/Machine/Boundary.lean ====
section
/-! DEFINITION. Between two bundles of a context: which event it takes, whether it may issue, and the end of its drain
(07 R138; 17 R328 to R331, R336, R337, R342). -/
namespace Sys2Proof.Machine

/-- The first of the faults and requests that wait, when it is a fault to take. -/
def headFault (l : List CtxEvent) : Option CtxEvent :=
  match l with
  | .engine s f :: _ => some (.engine s f)
  | .access f h :: _ => some (.access f h)
  | _ => none
/-- The event that a context takes at this boundary (R330, R331).  An engine fault that came after a PREEMPT request waits for the
restore (Table 17-2b); in handler mode one waits for TRET (R334), or is met in the drain of an END (07 R138), and so does a post-commit error
of task mode; the drain takes no PREEMPT. -/
def nextEvent (c : Ctx) : Option CtxEvent :=
  if !c.interruptible then none
  else match c.events.find? CtxEvent.isLeave with
    | some e => some e
    | none =>
      if c.life = .draining then headFault (c.events.filter (· != .preempt))
      else if c.handler then c.events.find? CtxEvent.inHandler
      else headFault c.events

/-- Take an event (R333, R335 to R337, R349); a CANCEL or WATCHDOG that a context takes in handler mode releases it at once (R335). -/
def takeEvent (m : Mach) (cx : Nat) (e : CtxEvent) : Mach :=
  let m := m.modCtx cx fun c => { c with events := c.events.erase e }
  let leave (f : FaultRec) : Mach :=
    match if (m.ctx cx).handler then none else (m.launchOf cx).bind Launch.handlerPc with
    | some pc => (enterHandler m cx pc 0 (m.ctx cx).pc f .leave).modCtx cx fun c => { c with leaveAt := some m.time }
    | none => releaseCtx m cx false
  match e with
  | .cancel why first => leave { cause := 0x15, info := BitVec.ofNat 64 (why + 256 * first.toNat) }
  | .watchdog n => leave { cause := 0x14, info := BitVec.ofNat 64 (n % 2 ^ 48) }
  | .engine slots f => takeFault m cx slots f
  | .access f _ => takeFault m cx 2 f
  | .found _ => m
  | .preempt => m

/-- Every engine operation of the context has completed and no register is pending (R138) (DEDUCED, log 74). -/
def drained (m : Mach) (cx : Nat) : Bool :=
  !((m.core (coreOf cx)).ops.any fun o => o.cx == cx) && (m.ctx cx).pend.isEmpty && (m.ctx cx).engFault.isEmpty

/-- A context in task mode does not issue while an engine fault is being written out, a PREEMPT stands before it, or its seat is
not resident (R329, R339, R342); a bundle that waits for an answer goes on (R330). -/
def mayIssue (m : Mach) (cx : Nat) : Bool :=
  let c := m.ctx cx
  c.handler || ((c.engFault.isEmpty || !c.interruptible) && (!c.interruptible || !c.events.contains .preempt) &&
    ((m.launchOf cx).bind fun l => l.seatOf cx).any (·.resident))

/-- A fault met by the fetch (R235, R328); its bundle does not yield (06 R104). -/
def fetchFault (m : Mach) (cx : Nat) (slots : BitVec 6) (f : FaultRec) : Mach :=
  (takeFault (m.logFault cx f) cx slots f).modCore (coreOf cx) fun c => { c with yielded := false }

/-- A context waits: on a pending guard (stalled), or on a fetch (idle) (DEDUCED, log 78). -/
def waitOn (st : Stall) (m : Mach) (cx : Nat) : Mach := m.modCtx cx fun c => { c with stalled := st == .internal, blocked := true }

/-- The contexts of a core in the order of R93. -/
def turnOrder (c : Core) : List Nat :=
  let l := (upFrom 0 8).map fun i => (c.cur + i) % 8
  if c.yielded || 256 ≤ c.inRow then l.drop 1 ++ l.take 1 else l

/-- What a context did with its turn. -/
inductive Turn where
  | blocked | acted | issued
deriving DecidableEq, Repr

/-- The core's selector after a turn (R93); `others`: another context was ready. -/
def afterTurn (m : Mach) (core n : Nat) (t : Turn) (others : Bool) : Mach :=
  match t with
  | .issued => m.modCore core fun c =>
      { c with cur := n, inRow := if !others then 0 else if n = c.cur then c.inRow + 1 else 1 }
  | _ => m

end Sys2Proof.Machine
end

