-- ==== Sys2Proof/Machine/Control.lean ====
section
/-! DEFINITION. Branches, ends, traps and waits of the X slot (07 R137 to R141). -/
namespace Sys2Proof.Machine

def disp20 (d : BitVec 20) : Word := d.signExtend 64 <<< 2
def disp12 (d : BitVec 12) : Word := d.signExtend 64 <<< 2

def execBr (d : BitVec 20) (s : State) : Host.Outcome State Fault Refusal :=
  runX (.br d) (fun s => branchTo (bundlePc s + disp20 d) true s) s
def execBrc (p : PReg) (sense : Bool) (d : BitVec 20) (s : State) : Host.Outcome State Fault Refusal :=
  runX (.brc p sense d) (fun s =>
    let s := reads [pref p] s
    if rp s p != sense then branchTo (bundlePc s + disp20 d) true s else s) s
def execBdnz (sd : SReg) (imm : BitVec 12) (s : State) : Host.Outcome State Fault Refusal :=
  runX (.bdnz sd imm) (fun s =>
    let v := rs s sd - 1
    let s := wrS sd 1 v (reads [sr s sd] s)
    if v ≠ 0 then branchTo (bundlePc s + disp12 imm) true s else s) s
def execCall (d : BitVec 20) (s : State) : Host.Outcome State Fault Refusal :=
  runX (.call d) (fun s => branchTo (bundlePc s + disp20 d) true (wrS 63 1 (linkPc s) s)) s
def execRet (sa : SReg) (s : State) : Host.Outcome State Fault Refusal :=
  runX (.ret sa) (fun s => branchTo (rs s sa) false (reads [sr s sa] s)) s
def execJmpr (sd sa : SReg) (s : State) : Host.Outcome State Fault Refusal :=
  runX (.jmpr sd sa) (fun s => branchTo (rs s sa) true (wrS sd 1 (linkPc s) (reads [sr s sa] s))) s
/-- END (R138): the context drains after its bundle. -/
def execEnd (s : State) : Host.Outcome State Fault Refusal :=
  runX .endTask (fun s => { s with issue := { s.issue with ends := true } }) s
/-- TRAP and BKPT (R139). -/
def execTrap (imm : BitVec 18) (s : State) : Host.Outcome State Fault Refusal :=
  runX (.trap imm) (faultAt .x { cause := 0x17, info := imm.setWidth 64 }) s
def execBkpt (imm : BitVec 18) (s : State) : Host.Outcome State Fault Refusal :=
  runX (.bkpt imm) (faultAt .x { cause := 0x18, info := imm.setWidth 64 }) s
/-- WAITK (R140). -/
def execWaitk (ka kb kc : Tok) (s : State) : Host.Outcome State Fault Refusal :=
  runX (.waitk ka kb kc) (fun s =>
    if [ka, kb, kc].any fun k => (preCtx s).token k.toNat != 0 then stallOn .internal s else s) s
/-- IDLE.F (R141): wait for the full bit of a scratchpad line; tested at issue and whenever the bit is set. -/
def execIdleF (sa : SReg) (s : State) : Host.Outcome State Fault Refusal :=
  runX (.idleF sa) (fun s =>
    whenFree (fun s =>
      if (preCtx s).idleMet then s
      else withRes .x (scratchAt (pre s) s.issue.cx (rs s sa).toNat 1 false) false (fun l s =>
        match l with
        | .scratch k :: _ =>
          let line := lineOfKey k
          if underReset (pre s) s.issue.cx l then faultAt .x { cause := 0x10, addr := rs s sa } s
          else if (preCtx s).out.any (fun a => match a.kind with | .setFull n _ => n == line | _ => false) then stallOn .internal s
          else if (preCtx s).idleAt.isNone && (pre s).fullAt line then s
          else askFor (.idleAt line) s
        | _ => s) (fun _ _ s => s) s) (reads [sr s sa] s)) s
/-- IDLE.N (R141): wait until a queue's write index differs; tested at issue and at each notify for the queue.  An entry of the queue table
that cannot be read faults it (12 R222, R235) (DEDUCED, log 40). -/
def execIdleN (sa sb : SReg) (s : State) : Host.Outcome State Fault Refusal :=
  runX (.idleN sa sb) (fun s =>
    whenFree (fun s =>
      let q := (rs s sa).toNat % 4096
      if (preCtx s).idleMet then s
      else if (preCtx s).idleAt.isSome then askFor (.idleAt (2 ^ 32 + q)) s
      else match (pre s).qFailure q with
        | some f => faultAt .x (devFault f) s
        | none => if (pre s).qGet q 16 8 ≠ (rs s sb).toNat then s else askFor (.idleAt (2 ^ 32 + q)) s) (reads [sr s sa, sr s sb] s)) s

end Sys2Proof.Machine
end

