-- ==== Sys2Proof/Machine/TypeInstr.lean ====
section
/-! DEFINITION. The type instructions of the X slot (08 R158 to R160). -/
namespace Sys2Proof.Machine

/-- The word of a tile as the slots of a bundle see it (02 R17). -/
def wordAt (s : State) (t : TReg) : TypeWord := TW.canon ((preCtx s).tile t.toNat).word
/-- The committed bobbin state that a slot sees (02 R38). -/
def slotEnv (s : State) : BEnv := { bob := (preCtx s).bobbins }
/-- Checks on a word that TDECL or TDECLS installs: R34, then R31 for its bound symbolic fields. -/
def BEnv.checkWord (env : BEnv) (w : TypeWord) : Except FaultRec Unit := do
  env.checkType w 0
  env.checkLimits w 0
/-- Install a word in a tile of the context's share, the all-zero word unchecked (R159; 02 R17, R39). -/
def installWord (t : TReg) (w : TypeWord) (s : State) : State :=
  if t.toNat % 8 < (preCtx s).tilesPer then
    match if w = 0 then .ok () else (slotEnv s).checkWord w with
    | .error f => faultAt .x f s
    | .ok _ => onCtx (fun c => c.setWord t.toNat (TW.canon w)) s
  else tileCheck t 0 s

/-- TDECL (DEDUCED, log 23). -/
def execTdecl (t : TReg) (idx : BitVec 18) (s : State) : Host.Outcome State Fault Refusal :=
  runX (.tdecl t idx) (withTypeConst .x idx.toNat (installWord t)) s
/-- TDECLS. -/
def execTdecls (t : TReg) (sa sb : SReg) (s : State) : Host.Outcome State Fault Refusal :=
  runX (.tdecls t sa sb) (fun s => installWord t (rs s sb ++ rs s sa) (reads [sr s sa, sr s sb] s)) s
/-- TCLEAR. -/
def execTclear (t : TReg) (s : State) : Host.Outcome State Fault Refusal :=
  runX (.tclear t) (fun s => installWord t 0 s) s

/-- A word with its bound symbolic fields replaced by their values (R159, 08 Table 08-3). -/
def resolvedWord (env : BEnv) (w : TypeWord) : TypeWord :=
  ((upFrom 0 (TW.rank w)).foldl (fun x k =>
    let f := TW.ext w k
    if isSym f then match env.value (symB f) with
      | some v => x - BitVec.ofNat 128 (f * 2 ^ (24 * k + 24)) + BitVec.ofNat 128 (v * 2 ^ (24 * k + 24))
      | none => x
    else x) w)
/-- TGET. -/
def execTget (sd : SReg) (t : TReg) (high resolve : Bool) (s : State) : Host.Outcome State Fault Refusal :=
  runX (.tget sd t high resolve) (fun s =>
    let w := wordAt s t
    let w := if resolve then resolvedWord (slotEnv s) w else w
    wrS sd 1 (if high then w.extractLsb' 64 64 else w.extractLsb' 0 64) (tileCheck t 1 s)) s

/-- BIND. -/
def execBind (b : BReg) (sa : SReg) (s : State) : Host.Outcome State Fault Refusal :=
  runX (.bind b sa) (fun s =>
    let v := (rs s sa).toNat
    let s := reads [sr s sa] s
    let old := mget ({} : Bobbin) (preCtx s).bobbins b.toNat
    if v > 0x7FFFFF then faultAt .x ((slotEnv s).fault fEXT0 0 (some b.toNat) 0x7FFFFF v) s
    else if old.bound && old.value.toNat != v then faultAt .x ((slotEnv s).fault fEXT0 0 (some b.toNat) old.value.toNat v) s
    else { s with issue := { s.issue with binds := s.issue.binds ++ [(.x, [⟨b.toNat, v, 0, 0⟩])] } }) s
/-- UNBIND. -/
def execUnbind (mask : BitVec 16) (s : State) : Host.Outcome State Fault Refusal :=
  runX (.unbind mask) (onCtx fun c => { c with bobbins := (upFrom 0 16).foldl (fun m i => if mask.getLsbD i then mset m i {} else m) c.bobbins }) s
/-- BGET: the state before the bundle, or after its merge when a slot of the bundle binds the bobbin. -/
def execBget (sd : SReg) (b : BReg) (s : State) : Host.Outcome State Fault Refusal :=
  runX (.bget sd b) (fun s =>
    match (sr s sd).dest? with
    | none => s
    | some r =>
      let s := writesFrozen r s
      { s with issue := { s.issue with bget := s.issue.bget ++ [(r, b.toNat)] } }) s

/-- TCHK: the target x against the tile's word under a mask. -/
def tchkSeq (env : BEnv) (x w : TypeWord) (mk : BitVec 4) : Except FaultRec BEnv := do
  env.checkType x 0
  env.checkType w 1
  let env ← env.unify x 0 w ⟨mk.getLsbD 0, mk.getLsbD 1, mk.getLsbD 2, mk.getLsbD 3⟩ 1
  env.checkLimits x 0
  env.checkLimits w 1
  env.checkCapacity x 0
  env.checkCapacity w 1
  .ok env
def execTchk (pd : PReg) (t : TReg) (sb : SReg) (mask : BitVec 4) (assert : Bool) (s : State) : Host.Outcome State Fault Refusal :=
  runX (.tchk pd t sb mask assert) (fun s =>
    whenFree (withTypeConst .x (rs s sb).toNat (fun x s =>
      match tchkSeq (slotEnv s) x (wordAt s t) mask, assert with
      | .ok env, true => wrP pd 1 true { s with issue := { s.issue with binds := s.issue.binds ++ [(.x, env.t)] } }
      | .ok _, false => wrP pd 1 true s
      | .error f, true => faultAt .x f (wrP pd 1 true s)
      | .error _, false => wrP pd 1 false s)) (tileCheck t 1 (reads [sr s sb] s))) s

/-- TEXT: an extent field, its frame, or its bobbin's value. -/
def textValue (c : Ctx) (w : TypeWord) (k : Nat) (frame : Bool) : Nat :=
  let f := TW.ext w k
  if !TW.valid w || TW.rank w ≤ k then 0
  else if !isSym f then f % 2 ^ 23
  else if frame && symL f != 0 then symL f
  else
    let b := mget ({} : Bobbin) c.bobbins (symB f)
    if b.bound then b.value.toNat else f
def execText (sd : SReg) (t : TReg) (k : BitVec 2) (frame : Bool) (s : State) : Host.Outcome State Fault Refusal :=
  runX (.text sd t k frame) (fun s =>
    wrS sd 1 (BitVec.ofNat 64 (textValue (preCtx s) (wordAt s t) k.toNat frame)) (tileCheck t 1 s)) s

end Sys2Proof.Machine
end

