-- ==== Sys2Proof/Machine/Typing.lean ====
section
/-! DEFINITION. The typing rules of the vector and matrix engines (08 R148 to R152, 09 R163). -/
namespace Sys2Proof.Machine

/-- The words at positions 0 to 3: destination, ta, tb, tc or tx. -/
structure Words where
  td : TypeWord := 0
  ta : TypeWord := 0
  tb : TypeWord := 0
  tc : TypeWord := 0
deriving DecidableEq, Repr
def Words.at (w : Words) : Nat → TypeWord | 0 => w.td | 1 => w.ta | 2 => w.tb | _ => w.tc

/-- What a rule's row gives: bindings, the result type with its mask, or none when td keeps its own word. -/
structure RuleOut where
  env : BEnv
  d : Option (List Fld × Nat × TypeWord × Bool) := none
  mask : Mask := Mask.none
deriving DecidableEq, Repr

/-- A typing rule: which sources it reads (ta, tb, tc), whether it names td, whether it adds to td's values, and its steps. -/
structure Rule where
  ta : Bool := false
  tb : Bool := false
  tc : Bool := false
  td : Bool := true
  acc : Bool := false
  steps : BEnv → Words → Except FaultRec RuleOut
  limits : BEnv → Words → Except FaultRec Unit := fun _ _ => .ok ()

/-- Admit a format at a position (08: expected 0, offered the format). -/
def BEnv.accept (env : BEnv) (ok : Bool) (t : TypeWord) (pos : Nat) : Except FaultRec Unit :=
  if ok then .ok () else .error (env.fault fFORMAT pos none 0 (TW.fmt t))
def BEnv.numeric (env : BEnv) (t : TypeWord) (pos : Nat) : Except FaultRec Unit := env.accept (isNumeric (TW.fmt t)) t pos
def BEnv.integer (env : BEnv) (t : TypeWord) (pos : Nat) : Except FaultRec Unit := env.accept (isInteger (TW.fmt t)) t pos
def BEnv.format (env : BEnv) (f : Nat) (t : TypeWord) (pos : Nat) : Except FaultRec Unit := env.accept (TW.fmt t == f) t pos
def BEnv.admitGeom (env : BEnv) (ok : Bool) (t : TypeWord) (pos : Nat) : Except FaultRec Unit :=
  if ok then .ok () else .error (env.fault fGEOM pos none 0 (TW.geom t))
def BEnv.admitRank (env : BEnv) (r : Nat) (ok : Bool) (t : TypeWord) (pos : Nat) : Except FaultRec Unit :=
  if ok then .ok () else .error (env.fault fRANK pos none r (TW.rank t))
/-- A destination that the elements are quantised into is numeric (DEDUCED, log 20). -/
def BEnv.tdNumeric (env : BEnv) (w : Words) : Except FaultRec Unit :=
  if TW.valid w.td then env.accept (isNumeric (TW.fmt w.td)) w.td 0 else .ok ()
/-- td's own word, valid. -/
def BEnv.tdValid (env : BEnv) (w : Words) : Except FaultRec Unit := env.checkType w.td 0

/-- d is `fmt` over the shape, layout, geometry and policy 0. -/
def plain (env : BEnv) (s : List Fld) (fmt : Nat) (mask : Mask) : RuleOut := ⟨env, some (s, fmt, 0, false), mask⟩
/-- d is the word of a source. -/
def same (env : BEnv) (t : TypeWord) (mask : Mask) : RuleOut := ⟨env, some (fieldsOf t 1, TW.fmt t, t, true), mask⟩
/-- d is td's own word, which keeps its own degraded bit (03 R59) (DEDUCED, log 30). -/
def keepTd (env : BEnv) : RuleOut := ⟨env, none, Mask.none⟩

/-! Table 08-1. -/
def ruleBin : Rule := { ta := true, tb := true, steps := fun env w => do
  env.numeric w.ta 1; env.numeric w.tb 2
  let (env, s) ← env.unifyBc (fieldsOf w.ta 1) (fieldsOf w.tb 2) 2
  env.tdNumeric w
  .ok (plain env s 1 Mask.none) }
def ruleTri : Rule := { ta := true, tb := true, tc := true, steps := fun env w => do
  env.numeric w.ta 1; env.numeric w.tb 2; env.numeric w.tc 3
  let (env, s) ← env.unifyBc (fieldsOf w.ta 1) (fieldsOf w.tb 2) 2
  let (env, s) ← env.unifyBc s (fieldsOf w.tc 3) 3
  env.tdNumeric w
  .ok (plain env s 1 Mask.none) }
def ruleSel : Rule := { ta := true, tb := true, tc := true, steps := fun env w => do
  env.integer w.ta 1; env.numeric w.tb 2; env.numeric w.tc 3
  let (env, s) ← env.unifyBc (fieldsOf w.tb 2) (fieldsOf w.tc 3) 3
  let (env, s) ← env.unifyBc s (fieldsOf w.ta 1) 1
  env.tdNumeric w
  .ok (plain env s 1 Mask.none) }
def ruleUn : Rule := { ta := true, steps := fun env w => do
  env.numeric w.ta 1; env.tdNumeric w; .ok (plain env (fieldsOf w.ta 1) 1 Mask.none) }
def ruleScale : Rule := { ta := true, tb := true, steps := fun env w => do
  env.numeric w.ta 1; env.format 0x09 w.tb 2
  let (env, s) ← env.unifyBc (fieldsOf w.ta 1) (fieldsOf w.tb 2) 2
  env.tdNumeric w
  .ok (plain env s 1 Mask.none) }
def ruleBits : Rule := { ta := true, tb := true, steps := fun env w => do
  env.accept (TW.fmt w.ta ∈ [0x01, 0x09, 0x0A, 0x0B, 0x0F]) w.ta 1
  env.admitGeom (TW.geom w.ta == 0) w.ta 1
  let env ← env.unify w.ta 1 w.tb Mask.all 2
  .ok (same env w.ta Mask.all) }
def ruleCmp : Rule := { ta := true, tb := true, steps := fun env w => do
  env.numeric w.ta 1; env.numeric w.tb 2
  let (env, s) ← env.unifyBc (fieldsOf w.ta 1) (fieldsOf w.tb 2) 2
  .ok (plain env s 0x0F Mask.fmt) }
def ruleFill (ok : Nat → Bool) : Rule := { steps := fun env w => do
  env.tdValid w; env.accept (ok (TW.fmt w.td)) w.td 0; .ok (keepTd env) }
def ruleMov : Rule := { ta := true, steps := fun env w => .ok (same env w.ta Mask.all) }
def ruleCvt : Rule := { ta := true, steps := fun env w => do
  env.numeric w.ta 1; env.tdValid w; env.numeric w.td 0
  let env ← env.unify w.ta 1 w.td Mask.none 0
  .ok (keepTd env) }
def ruleCvtq : Rule := { ta := true, tb := true, steps := fun env w => do
  env.numeric w.ta 1; env.format 0x01 w.tb 2; env.admitGeom (TW.geom w.tb == 0) w.tb 2
  let env ← env.unify w.ta 1 w.tb Mask.none 2
  env.tdValid w; env.accept (isNarrow (TW.fmt w.td)) w.td 0
  let env ← env.unify w.ta 1 w.td Mask.none 0
  .ok (keepTd env) }
/-- Block counts along each extent against tb's extents (VCVTS). -/
def BEnv.blockExts (env : BEnv) : List Nat → List Fld → Nat → Except FaultRec BEnv
  | b :: bs, y :: ys, k => do let env' ← env.unifyExtent b k y.1 k 2 (0, k) y.2; env'.blockExts bs ys (k + 1)
  | _, _, _ => .ok env
def ruleCvts : Rule := { ta := true, tb := true, steps := fun env w => do
  env.numeric w.ta 1; env.tdValid w; env.admitGeom (TW.geom w.td != 0) w.td 0
  let env ← env.unify w.ta 1 w.td Mask.none 0
  let rk := if TW.geom w.td = 1 then 0 else TW.rank w.td
  env.format 0x01 w.tb 2; env.admitRank rk (TW.rank w.tb == rk) w.tb 2; env.admitGeom (TW.geom w.tb == 0) w.tb 2
  let ext ← env.resolveAll w.td 0
  let bd := if TW.geom w.td = 1 then [] else blockDims (TW.geom w.td) ext
  let env ← env.blockExts bd (fieldsOf w.tb 2) 0
  .ok (keepTd env) }
/-- The innermost extent replaced by 1. -/
def inner1 (l : List Fld) : List Fld := l.dropLast ++ [(1, (0, l.length - 1))]
def ruleRed (ok : Nat → Bool) (fmt : Nat) (mask : Mask) : Rule := { ta := true, steps := fun env w => do
  env.accept (ok (TW.fmt w.ta)) w.ta 1; env.admitRank 1 (TW.rank w.ta != 0) w.ta 1
  if fmt = 1 then env.tdNumeric w
  .ok (plain env (inner1 (fieldsOf w.ta 1)) fmt mask) }
def ruleDmerge : Rule := { ta := true, tb := true, steps := fun env w => do
  env.format 0x13 w.ta 1; env.format 0x13 w.tb 2
  let env ← env.unify w.ta 1 w.tb Mask.all 2
  .ok (plain env (fieldsOf w.ta 1) 0x13 Mask.fmt) }
def ruleCompact : Rule := { ta := true, tb := true, steps := fun env w => do
  env.numeric w.ta 1; env.integer w.tb 2
  let env ← env.unify w.ta 1 w.tb Mask.none 2
  .ok (same env w.ta Mask.all) }
def rulePerm : Rule := { ta := true, tb := true, steps := fun env w => do
  env.numeric w.ta 1; env.format 0x09 w.tb 2; env.admitRank (TW.rank w.ta) (TW.rank w.tb == TW.rank w.ta) w.tb 2
  .ok (plain env (fieldsOf w.tb 2) (TW.fmt w.ta) Mask.fmt) }
def ruleRoute : Rule := { ta := true, tb := true, steps := fun env w => do
  env.format 0x09 w.ta 1; env.format 0x01 w.tb 2
  let env ← env.unify w.ta 1 w.tb Mask.none 2
  env.tdValid w; env.format 0x09 w.td 0
  .ok (keepTd env) }
def ruleHist : Rule := { ta := true, steps := fun env w => do
  env.integer w.ta 1; env.tdValid w; env.format 0x09 w.td 0; env.admitRank 1 (TW.rank w.td == 1) w.td 0
  .ok (keepTd env) }

/-- A chain after op1's rule (R151): `op2` may read tc, CVT takes td's format, the last d is delivered with mask ∅. -/
def withChain (r : Rule) (tri : Bool) (op2 op3 : Nat) : Rule :=
  if op2 = 0 then r else
  let readsTc := !tri && (op2 ≤ 5 || op2 == 13 || op2 == 14)
  { r with
    tc := r.tc || readsTc
    steps := fun env w => do
      let o ← r.steps env w
      let s0 := match o.d with | some d => d.1 | none => []
      let (env, s) ← (if readsTc then do
          o.env.numeric w.tc 3
          o.env.unifyBc s0 (fieldsOf w.tc 3) 3
        else .ok (o.env, s0) : Except FaultRec (BEnv × List Fld))
      if op2 = 15 || op3 = 15 then env.tdValid w
      .ok (plain env s (if op2 = 15 || op3 = 15 then TW.fmt w.td else 1) Mask.none) }

/-! Table 08-2. -/
def macs (f : Nat) : Nat :=
  if f = 2 || f = 3 then 1
  else if f ∈ [0x04, 0x05, 0x07, 0x0B, 0x0F] then 2
  else if f ∈ [0x06, 0x08, 0x0C, 0x10, 0x11, 0x12] then 4
  else if f ∈ [0x0D, 0x0E] then 8 else 0
def pairOk (a b : Nat) : Bool :=
  a == b || (a, b) ∈ [(4, 5), (5, 4), (0x0B, 0x0F), (0x0F, 0x0B), (0x0C, 0x10), (0x10, 0x0C)]

def geomA (g : Nat) : Bool := g ∈ [0, 1, 2, 3, 5]
def geomB (bt : Bool) (g : Nat) : Bool := if bt then g ∈ [0, 1, 2, 3, 5] else g ∈ [0, 1, 4, 5]

/-- The B operand's own checks. -/
def BEnv.admitB (env : BEnv) (w : Words) (bt : Bool) : Except FaultRec Unit := do
  env.admitRank 2 (TW.rank w.tb == 2) w.tb 2
  env.accept (macs (TW.fmt w.tb) != 0) w.tb 2
  env.admitGeom (geomB bt (TW.geom w.tb)) w.tb 2

/-- A limit: extent field k of t at most lim, reported at pos. -/
def BEnv.limit (env : BEnv) (t : TypeWord) (k pos lim : Nat) : Except FaultRec Unit := do
  match ← env.resolve (TW.ext t k) k pos with
  | some v => if v > lim then .error (env.fault (fEXT0 + k) pos (symOf (TW.ext t k) 0) lim v) else .ok ()
  | none => .ok ()

/-- MMA and its relatives.  The FORMAT and CODE_BANK faults of two formats that are no pair name both, as `unify` does (DESIGN CHOICE, log 94). -/
def mmaSteps (bt c floatOnly sparse : Bool) (env : BEnv) (w : Words) : Except FaultRec RuleOut := do
    env.admitRank 2 (TW.rank w.ta == 2) w.ta 1
    env.accept (macs (TW.fmt w.ta) != 0) w.ta 1
    env.admitGeom (geomA (TW.geom w.ta)) w.ta 1
    env.admitRank 2 (TW.rank w.tb == 2) w.tb 2
    env.accept (macs (TW.fmt w.tb) != 0) w.tb 2
    if !pairOk (TW.fmt w.ta) (TW.fmt w.tb) then
      .error (env.fault (if isCT (TW.fmt w.ta) && isCT (TW.fmt w.tb) then fBANK else fFORMAT) 2 none (TW.fmt w.ta) (TW.fmt w.tb))
    env.admitGeom (geomB bt (TW.geom w.tb)) w.tb 2
    let kb := if bt then 1 else 0
    let env ← env.unifyExtent (TW.ext w.ta 1) 1 (TW.ext w.tb kb) kb 2 (1, 1) (2, kb)
    if floatOnly then do env.accept (isFloat (TW.fmt w.ta)) w.ta 1; env.accept (isFloat (TW.fmt w.tb)) w.tb 2
    if c then env.tdValid w
    if sparse then do env.format 0x09 w.tc 3; env.admitRank 1 (TW.rank w.tc == 1) w.tc 3
    let int := isInteger (TW.fmt w.ta) && TW.geom w.ta == 0 && isInteger (TW.fmt w.tb) && TW.geom w.tb == 0
    .ok (plain env [(TW.ext w.ta 0, (1, 0)), (TW.ext w.tb (1 - kb), (2, 1 - kb))] (if int then 0x09 else 0x01) Mask.all)
def mmaLimits (bt : Bool) (env : BEnv) (w : Words) : Except FaultRec Unit := do
    env.limit w.ta 0 1 128
    env.limit w.tb (if bt then 0 else 1) 2 128
    env.limit w.ta 1 1 (256 * macs (TW.fmt w.ta))
def ruleMma (bt c floatOnly sparse : Bool) : Rule :=
  { ta := true, tb := true, tc := sparse, acc := c, steps := mmaSteps bt c floatOnly sparse, limits := mmaLimits bt }
def rankSteps (env : BEnv) (w : Words) : Except FaultRec RuleOut := do
    env.admitRank 2 (TW.rank w.ta == 2) w.ta 1
    env.accept (TW.fmt w.ta ∈ [0x01, 0x02, 0x03, 0x09]) w.ta 1
    .ok (plain env (fieldsOf w.ta 1) 0x09 Mask.all)
def ruleRank : Rule :=
  { ta := true, steps := rankSteps, limits := fun env w => do env.limit w.ta 0 1 128; env.limit w.ta 1 1 128 }
/-- MBLOAD's limits, both of tb's extents: its K extent at position 2, since it names no ta (DESIGN CHOICE, log 94). -/
def bloadLimits (bt : Bool) (env : BEnv) (w : Words) : Except FaultRec Unit := do
    env.limit w.tb (if bt then 1 else 0) 2 (256 * macs (TW.fmt w.tb))
    env.limit w.tb (if bt then 0 else 1) 2 128
def ruleBload (bt : Bool) : Rule :=
  { tb := true, td := false, steps := fun env w => do { env.admitB w bt; .ok (keepTd env) }, limits := bloadLimits bt }

/-- R39 for one named tile. -/
def groupCheck (n tile pos : Nat) : Except FaultRec Unit := if tile % 8 < n then .ok () else .error (groupFault pos n (tile % 8))

/-- R163: distinct bank groups of ta, tb and td. -/
def bankGroups (ta tb td : Nat) : Except FaultRec Unit :=
  let a := ta / 8
  let b := tb / 8
  let d := td / 8
  if b = a then .error { cause := 0x05, field := BitVec.ofNat 4 fGROUP, info := shapeInfo b (15 - 2 ^ a) false none 2 }
  else if d = a || d = b then
    .error { cause := 0x05, field := BitVec.ofNat 4 fGROUP, info := shapeInfo d (15 - 2 ^ a - 2 ^ b) false none 0 }
  else .ok ()

/-- What issue hands to the engine: bindings, the new word of td, and the words and extents captured at positions 0 to 3. -/
structure Typed where
  env : BEnv
  word : Option TypeWord := none
  types : List TypeWord := []
  exts : List (List Nat) := []
deriving DecidableEq, Repr

/-- The steps of R148 for a rule over named tiles (td, ta, tb, tc). -/
def applyRule (r : Rule) (n : Nat) (env : BEnv) (tiles : Nat × Nat × Nat × Nat) (w : Words) (groups : Bool) :
    Except FaultRec Typed := do
  let (td, ta, tb, tc) := tiles
  if r.ta then groupCheck n ta 1
  if r.tb then groupCheck n tb 2
  if r.tc then groupCheck n tc 3
  if r.td then groupCheck n td 0
  if r.ta then env.checkType w.ta 1
  if r.tb then env.checkType w.tb 2
  if r.tc then env.checkType w.tc 3
  let o ← r.steps env w
  if groups then bankGroups ta tb td
  r.limits o.env w
  let deg := (r.ta && TW.degraded w.ta) || (r.tb && TW.degraded w.tb) || (r.tc && TW.degraded w.tc) || (r.acc && TW.degraded w.td)
  let (env, word) ← (match o.d with
    | some (s, f, t, whole) =>
      o.env.deliver w.td (if whole then setDegraded t deg else mkType (s.map (·.1)) f 0 0 0 deg) s o.mask
    | none => .ok (o.env, setDegraded w.td (deg || TW.degraded w.td)) : Except FaultRec (BEnv × TypeWord))
  if r.ta then env.checkCapacity w.ta 1
  if r.tb then env.checkCapacity w.tb 2
  if r.tc then env.checkCapacity w.tc 3
  if r.td then env.checkCapacity word 0
  let ea ← if r.ta then env.resolveAll w.ta 1 else .ok []
  let eb ← if r.tb then env.resolveAll w.tb 2 else .ok []
  let ec ← if r.tc then env.resolveAll w.tc 3 else .ok []
  let ed ← if r.td then env.resolveAll word 0 else .ok []
  .ok { env := env, word := (if r.td then some word else none),
        types := [if r.td then word else 0, if r.ta then w.ta else 0, if r.tb then w.tb else 0, if r.tc then w.tc else 0],
        exts := [ed, ea, eb, ec] }

end Sys2Proof.Machine
end

