-- ==== Sys2Proof/Machine/Engine.lean ====
section
/-! DEFINITION. Issuing an engine slot: its tokens, its typing rule, its queue entry (07 R120, 02 R33 to R39, 08 R148, R154; 14 R268). -/
namespace Sys2Proof.Machine

/-- What an engine slot does once its checks pass: the operation it queues (none for a type-only form), the word td gets,
its bindings, the counter positions it takes and the QW it leaves (03 R56, 11 R201, 15 R285). -/
structure Plan where
  op : Option EOp
  td : Option (Nat × TypeWord) := none
  binds : List Binding := []
  draws : Nat := 0
  qw : Option Word := none
deriving DecidableEq, Repr

/-- The issue of an engine slot (DEDUCED, log 31) (DEDUCED, log 32).  A VRESHAPE, VTRANS or VCAST slot whose queue is full takes its
place among the waiters only once its bundle has no other internal stall (DESIGN CHOICE, log 83). -/
def engineIssue (k : Slot) (q : QKind) (word : BitVec 64) (regs : List RegRef) (mayBeTypeOnly : Bool)
    (plan : State → Except FaultRec Plan) (s : State) : State :=
  let c := preCtx s
  let (kd, kws) := slotTokens q word
  let s := reads regs s
  let s := if c.token kd != 0 then stallOn .internal s else s
  let room := (pre s).queueRoom s.issue.cx q
  let full (s : State) : State := askFor (.waiter q) (stallOn .internal s)
  let done (p : Plan) (s : State) : State :=
    { s with issue := { s.issue with binds := s.issue.binds ++ [(k, p.binds)] } }
  if s.issue.stall = some .internal then (if room || mayBeTypeOnly then s else full s)
  else if !room && !mayBeTypeOnly then full s
  else match plan s with
    | .error f => faultAt k f s
    | .ok p =>
      match p.op with
      | none =>
        if kws.any fun k => c.token k != 0 then stallOn .internal s
        else done p (onCtx (fun c => match p.td with | some (t, w) => c.setWord t w | none => c) s)
      | some o =>
        if !room then full s
        else
          let s := onCtx (fun c => match p.td with | some (t, w) => c.deliverWord t w | none => c) s
          let s := match p.qw with | some w => moveWeight (onCtx (fun c => { c with qw := w }) s) | none => s
          let o := EOp.withUses { o with
            cx := s.issue.cx, q := q, word := word, pc := bundlePc s, kd := kd, waits := c.waitsOf kws, handlerOp := c.handler,
            key := if p.draws = 0 then 0 else c.drawKey, c0 := if p.draws = 0 then 0 else (curCtx s).drawCtr, banks := c.banks } c (curCtx s)
          done p (onMach (fun m => m.enqueue o) (onCtx (fun c => { c with drawCtr := c.drawCtr + BitVec.ofNat 32 p.draws }) s))

/-- The slot word that an instruction stands for. -/
def slotWord (i : Instr) : BitVec 64 := ((encode i).map (·.2)).getD 0
/-- An empty operation of an instruction, to be filled at issue. -/
def newOp (i : Instr) : EOp := { uid := 0, cx := 0, q := .c, instr := i, word := 0, pc := 0 }

/-- A plan from a typing rule. -/
def planOf (i : Instr) (r : Rule) (groups : Bool) (td ta tb tc : TReg) (capA : Word) (draws : Typed → Nat) (s : State) :
    Except FaultRec Plan := do
  let w : Words := ⟨wordAt s td, wordAt s ta, wordAt s tb, wordAt s tc⟩
  let t ← applyRule r (preCtx s).tilesPer (slotEnv s) (td.toNat, ta.toNat, tb.toNat, tc.toNat) w groups
  .ok { op := some { newOp i with capA := capA, types := t.types, exts := t.exts },
        td := t.word.map fun w => (td.toNat, w), binds := t.env.t, draws := draws t }

end Sys2Proof.Machine
end

