-- ==== Sys2Proof/Machine/Flags.lean ====
section
/-! DEFINITION. CTX_STATUS and its sticky flags, the precision counter, and the system registers (03 R58, 07 R142, R143). -/
namespace Sys2Proof.Machine

/-- Bits [7] DRAW_FLAG, [5] PRECISION, [4] PARAM_BOUND are kept; [0] is the mode; the rest read zero (Table 07-9). -/
def Ctx.statusWord (c : Ctx) : Word := (c.status &&& 0xB0) ||| (if c.handler then 1 else 0)
def Ctx.setDrawFlag (c : Ctx) : Ctx := { c with status := c.status ||| 0x80 }
def Ctx.setPrecisionFlag (c : Ctx) : Ctx := { c with status := c.status ||| 0x20 }
def Ctx.setParamBound (c : Ctx) : Ctx := { c with status := c.status ||| 0x10 }
/-- `n` precision events: the counter stops at 2^64 - 1 and the flag is set (03 R58). -/
def Ctx.addEvents (c : Ctx) (n : Nat) : Ctx :=
  if n = 0 then c else { c.setPrecisionFlag with precision := BitVec.ofNat 64 (min (2 ^ 64 - 1) (c.precision.toNat + n)) }

/-- FEATURES: bits [7:0] are set (04 R71). -/
def features : Nat := 0xFF
/-- The pin limit that management sets (18 Table 18-3). -/
def Mach.pinMax (m : Mach) : Nat := m.mgmtAt 0x038 % 2 ^ 32

/-- The value of a system register (Table 07-8). -/
def sysValue (m : Mach) (cx : Nat) (sel : BitVec 18) : Word :=
  let c := m.ctx cx
  let l := m.launchOf cx
  let n (x : Nat) : Word := BitVec.ofNat 64 x
  match sel.toNat with
  | 0x00 => c.statusWord
  | 0x01 => c.faultCause.setWidth 64
  | 0x02 => c.faultField.setWidth 64
  | 0x03 => c.faultSlots.setWidth 64
  | 0x04 => c.faultPc
  | 0x05 => c.faultAddr
  | 0x06 => c.faultInfo
  | 0x10 => n features
  | 0x11 => 1
  | 0x20 => c.precision
  | 0x21 => c.pinLimit.setWidth 64
  | 0x22 => n c.pins.length
  | 0x23 => n ((l.map (·.interval)).getD 0x40000000)
  | 0x24 => n (c.tilesPer % 16 + 16 * (c.ctxsPer % 16))
  | 0x25 => c.shadow &&& ~~~0x3F
  | 0x30 => c.launch.getD 0
  | 0x31 => n ((l.map (·.domain)).getD 0)
  | 0x32 => n (coreOf cx)
  | 0x33 => n (cx % 8)
  | 0x34 => m.time
  | _ => 0

/-- A SYSW in handler mode: HRW fields are written, an RO register is left alone (R142, R143)
(DEDUCED, log 13).  FAULT_INFO takes all 64 bits (Table 07-8), bits [15:9] too, reserved there for shape faults (DEDUCED, log 92). -/
def sysWrite (m : Mach) (cx : Nat) (sel : BitVec 18) (v : Word) : Mach :=
  match sel.toNat with
  | 0x00 => m.modCtx cx fun c => { c with status := v &&& 0xB0 }
  | 0x01 => m.modCtx cx fun c => { c with faultCause := v.setWidth 8 }
  | 0x02 => m.modCtx cx fun c => { c with faultField := v.setWidth 4 }
  | 0x03 => m.modCtx cx fun c => { c with faultSlots := v.setWidth 6 }
  | 0x04 => m.modCtx cx fun c => { c with faultPc := v }
  | 0x05 => m.modCtx cx fun c => { c with faultAddr := v }
  | 0x06 => m.modCtx cx fun c => { c with faultInfo := v }
  | 0x20 => m.modCtx cx fun c => { c with precision := v }
  | 0x21 => m.modCtx cx fun c => { c with pinLimit := BitVec.ofNat 32 (min (v.toNat % 2 ^ 32) m.pinMax) }
  | 0x23 =>
    match (m.ctx cx).launch with
    | some lid => m.modLaunch lid fun l => { l with interval := max 0x100000 (v.toNat % 2 ^ 48) }
    | none => m
  | 0x25 => m.modCtx cx fun c => { c with shadow := v &&& ~~~0x3F }
  | _ => m

end Sys2Proof.Machine
end

