-- ==== Sys2Proof/Machine/GMem.lean ====
section
/-! DEFINITION. Loads, stores, parameter reads, atomics, prefetches, line instructions, pins and full bits of the G slot
(13 R236 to R247). -/
namespace Sys2Proof.Machine

/-! Scopes (01 R14): CORE and wider discard the L1 (14 R265, R266). -/
def coreScope (h : BitVec 8) : Bool := 1 ≤ h.toNat % 8

def gNat (s : State) (g : GSlot) : Nat := (gAddr s g).toNat

/-- The NOP of the G slot (06 R108). -/
def execGNop (s : State) : Host.Outcome State Fault Refusal := runG .gNop id s

/-- A load of `width` bytes (R239). -/
def loadG (i : Instr) (g : GSlot) (signed : Bool) (width : Nat) (s : State) : Host.Outcome State Fault Refusal :=
  runG i (fun s =>
    let r := sr s g.sd
    whenFree (fun s =>
      let a := gNat s g
      if a % width ≠ 0 then faultAt .g (alignFault a) s
      else withRes .g (resolveAt (pre s) s.issue.cx a width [.read]) false
        (fun l s => pushAccess { uid := 0, kind := .load r.dest? signed width, locs := l, addr := gAddr s g, hint := g.hint } (pendOn r s))
        (fun _ _ s => giveTo r 0 s) s) (writesPending r (reads (gSources s g) s))) s
def execLd8 (g : GSlot) (s : State) : Host.Outcome State Fault Refusal := loadG (.ld8 g) g true 1 s
def execLd8u (g : GSlot) (s : State) : Host.Outcome State Fault Refusal := loadG (.ld8u g) g false 1 s
def execLd16 (g : GSlot) (s : State) : Host.Outcome State Fault Refusal := loadG (.ld16 g) g true 2 s
def execLd16u (g : GSlot) (s : State) : Host.Outcome State Fault Refusal := loadG (.ld16u g) g false 2 s
def execLd32 (g : GSlot) (s : State) : Host.Outcome State Fault Refusal := loadG (.ld32 g) g true 4 s
def execLd32u (g : GSlot) (s : State) : Host.Outcome State Fault Refusal := loadG (.ld32u g) g false 4 s
def execLd64 (g : GSlot) (s : State) : Host.Outcome State Fault Refusal := loadG (.ld64 g) g false 8 s

/-- A store of `width` bytes (R239); `rel` performs it after every earlier access (14 R265). -/
def storeG (i : Instr) (g : GSlot) (width : Nat) (rel : Bool) (s : State) : Host.Outcome State Fault Refusal :=
  runG i (fun s =>
    let v := rs s g.sd
    whenFree (fun s =>
      let a := gNat s g
      if a % width ≠ 0 then faultAt .g (alignFault a) s
      else withRes .g (resolveAt (pre s) s.issue.cx a width [.write]) true
        (fun l s => pushAccess { uid := 0, kind := .store (leBytes width v.toNat), locs := l, addr := gAddr s g,
                                 hint := if rel then 0 else g.hint, needsEarlier := rel } s)
        (fun d o s => pushAccess { uid := 0, kind := .notify d o width v, addr := gAddr s g, needsEarlier := rel } s) s)
      (reads (sr s g.sd :: gSources s g) s)) s
def execSt8 (g : GSlot) (s : State) : Host.Outcome State Fault Refusal := storeG (.st8 g) g 1 false s
def execSt16 (g : GSlot) (s : State) : Host.Outcome State Fault Refusal := storeG (.st16 g) g 2 false s
def execSt32 (g : GSlot) (s : State) : Host.Outcome State Fault Refusal := storeG (.st32 g) g 4 false s
def execSt64 (g : GSlot) (s : State) : Host.Outcome State Fault Refusal := storeG (.st64 g) g 8 false s

/-- The window an instruction names. -/
def windowOf (s : State) (w : BitVec 8) : Window := ((preLaunch s).map fun l => mget ({} : Window) l.windows w.toNat).getD {}
/-- LDP (R240, 04 R77). -/
def execLdp (g : GSlot) (s : State) : Host.Outcome State Fault Refusal :=
  runG (.ldp g) (fun s =>
    let r := sr s g.sd
    let w := windowOf s g.hint
    let width := 2 ^ (g.sb.toNat % 4)
    whenFree (fun s =>
      let o := (rs s g.sa + gDisp s g).toNat
      let n := min width (w.bound.toNat - o)
      let a := (w.base.toNat + o) % 2 ^ 64
      if w.access = 0 then faultAt .g { cause := 0x06 } s
      else if w.access ≠ 3 then faultAt .g { cause := 0x07 } s
      else
        let s := if n < width then onCtx Ctx.setParamBound s else s
        if n = 0 then giveTo r 0 s
        else withRes .g (resolveAt (pre s) s.issue.cx a n [.read]) false
          (fun l s => pushAccess { uid := 0, kind := .load r.dest? (g.sb.getLsbD 2 && n == width) width, locs := l, addr := BitVec.ofNat 64 a } (pendOn r s))
          (fun _ _ s => giveTo r 0 s) s) (writesPending r (reads [sr s g.sa] s))) s

/-- An atomic (R241); of scope CORE or wider it is an acquire and a release together (14 R266). -/
def atomicG (i : Instr) (op : BitVec 8) (g : GSlot) (width : Nat) (s : State) : Host.Outcome State Fault Refusal :=
  runG i (fun s =>
    let r := sr s g.sd
    let more := if op = 0x19 then [sr s (g.sd + 1)] else []
    whenFree (fun s =>
      let a := gNat s g
      let ord := coreScope g.hint
      if a % width ≠ 0 then faultAt .g (alignFault a) s
      else withRes .g (resolveAt (pre s) s.issue.cx a width [.write]) true
        (fun l s =>
          if l.any isHost then faultAt .g (accFault 0x0A 10 true a) s
          else pushAccess { uid := 0, kind := .atomic op r.dest? (rs s g.sd) (rs s (g.sd + 1)), locs := l, addr := gAddr s g,
                            needsEarlier := ord, blocksLater := ord, dropL1 := ord } (pendOn r s))
        (fun _ _ s => faultAt .g (accFault 0x0A 11 true a) s) s)
      (writesPending r (reads (r :: more ++ gSources s g) s))) s
def execAadd (g : GSlot) (s : State) : Host.Outcome State Fault Refusal := atomicG (.aadd g) 0x10 g 8 s
def execAand (g : GSlot) (s : State) : Host.Outcome State Fault Refusal := atomicG (.aand g) 0x11 g 8 s
def execAor (g : GSlot) (s : State) : Host.Outcome State Fault Refusal := atomicG (.aor g) 0x12 g 8 s
def execAxor (g : GSlot) (s : State) : Host.Outcome State Fault Refusal := atomicG (.axor g) 0x13 g 8 s
def execAmin (g : GSlot) (s : State) : Host.Outcome State Fault Refusal := atomicG (.amin g) 0x14 g 8 s
def execAmax (g : GSlot) (s : State) : Host.Outcome State Fault Refusal := atomicG (.amax g) 0x15 g 8 s
def execAminu (g : GSlot) (s : State) : Host.Outcome State Fault Refusal := atomicG (.aminu g) 0x16 g 8 s
def execAmaxu (g : GSlot) (s : State) : Host.Outcome State Fault Refusal := atomicG (.amaxu g) 0x17 g 8 s
def execAswap (g : GSlot) (s : State) : Host.Outcome State Fault Refusal := atomicG (.aswap g) 0x18 g 8 s
def execAcas (g : GSlot) (s : State) : Host.Outcome State Fault Refusal := atomicG (.acas g) 0x19 g 8 s
def execAfadd (g : GSlot) (s : State) : Host.Outcome State Fault Refusal := atomicG (.afadd g) 0x1A g 4 s

/-- The HBM line of `unit` bytes that holds a global address, for the instructions that do nothing where a check fails (R237). -/
def quietLine (g : GSlot) (unit : Nat) (f : Nat → State → State) (s : State) : State :=
  let s := reads (gSources s g) s
  whenFree (fun s =>
    if globalTop ≤ gNat s g then s
    else match resolveAt (pre s) s.issue.cx (gNat s g) 1 [.read] with
      | .locs (.hbm pa :: _) => f (pa / unit) s
      | .miss va => askFor (.miss { cx := s.issue.cx, va := va, write := false, fetch := false }) (stallOn .idle s)
      | _ => s) s
/-- PREF and PREFW (R242). -/
def execPref (g : GSlot) (s : State) : Host.Outcome State Fault Refusal :=
  runG (.pref g) (quietLine g 128 fun n s =>
    pushAccess { uid := 0, kind := .prefetch n true (!g.hint.getLsbD 2), addr := gAddr s g, hint := g.hint } s) s
def execPrefw (g : GSlot) (s : State) : Host.Outcome State Fault Refusal :=
  runG (.prefw g) (quietLine g 128 fun n s =>
    if g.hint.getLsbD 2 then s else pushAccess { uid := 0, kind := .prefetch n false true, addr := gAddr s g, hint := g.hint } s) s
/-- INVL and INVL.ALL (R243), in order with the context's accesses of the lines they discard (14 R262). -/
def execInvl (g : GSlot) (s : State) : Host.Outcome State Fault Refusal :=
  runG (.invl g) (quietLine g 128 fun n s => pushAccess { uid := 0, kind := .invalidate (some n), addr := gAddr s g } s) s
def execInvlAll (g : GSlot) (s : State) : Host.Outcome State Fault Refusal :=
  runG (.invlAll g) (fun s => pushAccess { uid := 0, kind := .invalidate none } s) s
/-- WBACK (R244). -/
def execWback (g : GSlot) (s : State) : Host.Outcome State Fault Refusal :=
  runG (.wback g) (quietLine g 1024 fun n s => pushAccess { uid := 0, kind := .writeBack n, addr := gAddr s g } s) s

/-- The physical lines of `unit` bytes that the HBM pages of a global range hold of it. -/
def rangeLines (unit : Nat) (n : Nat) (a : Nat) (pages : List (Nat × Loc)) : List Nat :=
  (pages.flatMap fun x => match x with
    | (va, .hbm pa) =>
      let last := min (a + n) (va / 65536 * 65536 + 65536) - 1 - va
      upFrom (pa / unit) ((pa + last) / unit - pa / unit + 1)
    | _ => []).eraseDups
/-- The issue checks of PIN and UNPIN (R245), then `f` with the lines, and whether the range reaches a host page. -/
def pinRange (g : GSlot) (f : Window → List Nat → Bool → State → State) (s : State) : State :=
  let w := windowOf s g.hint
  whenFree (fun s =>
    let o := (rs s g.sa + g.disp.signExtend 64).toNat
    let len := (rs s g.sb).toNat
    let a := (w.base.toNat + o) % 2 ^ 64
    if w.access = 0 then faultAt .g { cause := 0x06 } s
    else if w.bound.toNat < o + len then faultAt .g { cause := 0x07, addr := BitVec.ofNat 64 a } s
    else if globalTop < a + len then faultAt .g (accFault 0x0A 3 false a) s
    else
      let vs := pageAddrs a len
      withRes .g (match translateAll (pre s) s.issue.cx [.read] vs with | .ok l => .locs l | .error r => r) false
        (fun l s => f w (rangeLines 1024 len a (vs.zip l)) (l.any isHost) s) (fun _ _ s => s) s)
    (reads [sr s g.sa, sr s g.sb] s)
/-- The slice mask of a window, none for the hash homes (04 R73, R74). -/
def maskOf (s : State) (w : Window) : Option Nat :=
  if w.mask = 0 then none else (preLaunch s).map fun l => (mget 0 l.masks (w.mask - 1)).toNat
/-- PIN. -/
def execPin (g : GSlot) (s : State) : Host.Outcome State Fault Refusal :=
  runG (.pin g) (fun s =>
    let r : RegRef := .p (g.sd.toNat % 8)
    pinRange g (fun w ls host s =>
      if host then giveTo r 0 s else pushAccess { uid := 0, kind := .pin ls (maskOf s w) r.dest? } (pendOn r s)) (writesPending r s)) s
/-- UNPIN (R246). -/
def execUnpin (g : GSlot) (s : State) : Host.Outcome State Fault Refusal :=
  runG (.unpin g) (pinRange g fun _ ls _ s => pushAccess { uid := 0, kind := .unpin ls } s) s

/-- The scratchpad line that SETF, SETE and TESTF act on (R247). -/
def bitLine (g : GSlot) (write : Bool) (f : Nat → State → State) (s : State) : State :=
  whenFree (fun s =>
    withRes .g (scratchAt (pre s) s.issue.cx (gNat s g) 1 write) write
      (fun l s => match l with | .scratch k :: _ => f (lineOfKey k) s | _ => s) (fun _ _ s => s) s) (reads (gSources s g) s)
def execSetf (g : GSlot) (s : State) : Host.Outcome State Fault Refusal :=
  runG (.setf g) (bitLine g true fun n s => pushAccess { uid := 0, kind := .setFull n true, addr := gAddr s g } s) s
def execSete (g : GSlot) (s : State) : Host.Outcome State Fault Refusal :=
  runG (.sete g) (bitLine g true fun n s => pushAccess { uid := 0, kind := .setFull n false, addr := gAddr s g } s) s
def execTestf (g : GSlot) (s : State) : Host.Outcome State Fault Refusal :=
  runG (.testf g) (fun s =>
    let r : RegRef := .p (g.sd.toNat % 8)
    bitLine g false (fun n s => pushAccess { uid := 0, kind := .testFull n r.dest?, addr := gAddr s g } (pendOn r s)) (writesPending r s)) s

end Sys2Proof.Machine
end

