-- ==== Sys2Proof/Machine/Tile.lean ====
section
/-! DEFINITION. Tile contents: codes and scales in storage, what a code stands for, and `quantise` with block scales and
precision statistics (02 R22 to R26, 03 R45 to R58, R188). -/
namespace Sys2Proof.Machine

/-! Storage. -/

/-- A byte of a tile register; one that nothing has written is a free value (log 6).  Scale bytes count from 65536. -/
def Tile.byte (t : Tile) (i : Nat) : Byte := (mget? t.data i).getD (Config.freeTile t.fill i)
def Tile.scaleByte (t : Tile) (i : Nat) : Byte := (mget? t.scales i).getD (Config.freeTile t.fill (65536 + i))

def Tile.bytesAt (t : Tile) (i : Nat) : Nat → List Byte
  | 0 => []
  | n + 1 => t.byte i :: t.bytesAt (i + 1) n
def Tile.scaleBytesAt (t : Tile) (i : Nat) : Nat → List Byte
  | 0 => []
  | n + 1 => t.scaleByte i :: t.scaleBytesAt (i + 1) n

def msetN {α : Type} (m : Mp α) (i : Nat) : List α → Mp α
  | [] => m
  | b :: bs => msetN (mset m i b) (i + 1) bs

/-- The `w`-bit code at bit offset `off`. -/
def Tile.code (t : Tile) (off w : Nat) : Nat :=
  if w < 8 then (t.byte (off / 8)).toNat / 2 ^ (off % 8) % 2 ^ w else leNat (t.bytesAt (off / 8) (w / 8))

/-- Replace the `w`-bit code at bit offset `off`; the other bits of a shared byte stay. -/
def putBits (b off w c : Nat) : Nat := b - (b / 2 ^ off % 2 ^ w) * 2 ^ off + (c % 2 ^ w) * 2 ^ off
/-- The bits of a byte, and of the `w`-bit code at bit offset `off`, that nothing has written (02 R26). -/
def Tile.openByte (t : Tile) (i : Nat) : Nat := if (mget? t.data i).isNone then 255 else (mget 0 t.part i).toNat
def Tile.openCode (t : Tile) (off w : Nat) : Nat :=
  if w < 8 then t.openByte (off / 8) / 2 ^ (off % 8) % 2 ^ w
  else leNat ((upFrom (off / 8) (w / 8)).map fun i => BitVec.ofNat 8 (t.openByte i))
/-- The unwritten bits of a byte become `o`. -/
def setPart (p : Mp Byte) (i o : Nat) : Mp Byte := if o = 0 then mdel p i else mset p i (BitVec.ofNat 8 o)
def Tile.setByte (t : Tile) (i : Nat) (b : Byte) : Tile := { t with data := mset t.data i b, part := mdel t.part i }
def Tile.setBytes (t : Tile) (i : Nat) : List Byte → Tile
  | [] => t
  | b :: bs => (t.setByte i b).setBytes (i + 1) bs
def Tile.setCode (t : Tile) (off w c : Nat) : Tile :=
  let i := off / 8
  if w < 8 then
    { t with data := mset t.data i (BitVec.ofNat 8 (putBits (t.byte i).toNat (off % 8) w c)),
             part := setPart t.part i (putBits (t.openByte i) (off % 8) w 0) }
  else t.setBytes i (leBytes (w / 8) c)

/-- A tile operand as an operation reads it: contents, word, bound extents, frame, and the captured code-table bank. -/
structure View where
  tile : Tile
  word : TypeWord
  ext : List Nat
  frame : List Nat
  bank : List Nat := []
deriving DecidableEq, Repr

/-- The frame of a word whose extents resolved to `ext` (R24). -/
def frameOf (t : TypeWord) (ext : List Nat) : List Nat :=
  ((TW.exts t).zip ext).map fun (f, v) => if isSym f && symL f ≠ 0 then symL f else v

namespace View
def fmt (v : View) : Nat := TW.fmt v.word
def geom (v : View) : Nat := TW.geom v.word
def off (v : View) (ix : List Nat) : Nat := place v.fmt (TW.layout v.word) v.frame ix * fmtBits v.fmt
/-- A code with unwritten bits is one the field can legally hold, so under policy 3 never the reserved one: its lowest unwritten bit is
the other one then (00 R6, 03 R47). -/
def legal (v : View) (off c : Nat) : Nat :=
  let w := fmtBits v.fmt
  let o := v.tile.openCode off w
  if TW.policy v.word = 3 && isSigned v.fmt && c == 2 ^ (w - 1) then c ^^^ (o &&& (2 ^ w - o)) else c
def code (v : View) (ix : List Nat) : Nat := v.legal (v.off ix) (v.tile.code (v.off ix) (fmtBits v.fmt))
def scaleOff (v : View) (blk : List Nat) : Nat := linear (blockDims v.geom v.frame) blk * scaleBytes v.fmt v.geom
def scaleCode (v : View) (blk : List Nat) : Nat := leNat (v.tile.scaleBytesAt (v.scaleOff blk) (scaleBytes v.fmt v.geom))
def setCode (v : View) (ix : List Nat) (c : Nat) : View := { v with tile := v.tile.setCode (v.off ix) (fmtBits v.fmt) c }
/-- One byte of a code of whole bytes. -/
def setCodeByte (v : View) (ix : List Nat) (j : Nat) (b : Byte) : View := { v with tile := v.tile.setByte (v.off ix / 8 + j) b }
/-- Has a code unwritten bits? -/
def isOpen (v : View) (ix : List Nat) : Bool := v.tile.openCode (v.off ix) (fmtBits v.fmt) != 0
def setScaleByte (v : View) (blk : List Nat) (j : Nat) (b : Byte) : View :=
  { v with tile := { v.tile with scales := mset v.tile.scales (v.scaleOff blk + j) b } }
def setScale (v : View) (blk : List Nat) (c : Nat) : View :=
  { v with tile := { v.tile with scales := msetN v.tile.scales (v.scaleOff blk) (leBytes (scaleBytes v.fmt v.geom) c) } }
def count (v : View) : Nat := prod v.ext
end View

/-! Meaning of codes. -/

/-- qmax of Table 03-2. -/
def intMax : Nat → Nat
  | 0x09 => 2 ^ 31 - 1 | 0x0A => 32767 | 0x0B => 127 | 0x0C => 7 | 0x0D => 1 | 0x0E => 1 | 0x0F => 255 | 0x10 => 15 | _ => 1
/-- The range a conversion saturates to (R46, Table 03-2). -/
def intLo (f pol : Nat) : Int :=
  if !isSigned f then 0 else if pol = 0 && f ≠ 0x0E then -(intMax f : Int) - 1 else -(intMax f : Int)

/-- The float format behind an element format. -/
def ffmtOf : Nat → Option FFmt
  | 0x01 => some fp32 | 0x02 => some bf16 | 0x03 => some fp16 | 0x04 => some e4m3 | 0x05 => some e5m2 | 0x06 => some e2m1
  | 0x07 => some e4m3 | 0x08 => some e2m1 | _ => none

/-- The integer an integer code stands for; none is the CODE_POLICY fault of R47 (Table 03-3). -/
def intOfCode (f pol c : Nat) : Option Int :=
  let w := fmtBits f
  let c := c % 2 ^ w
  if !isSigned f then some c
  else if c = 2 ^ (w - 1) then
    match pol with
    | 0 => some (if f = 0x0E then 0 else -(2 ^ (w - 1) : Nat))
    | 1 => some 0
    | 2 => some (-(intMax f : Int))
    | _ => none
  else some (sgn w c)

/-- The value a code stands for, unscaled. -/
def valueOfCode (f pol : Nat) (bank : List Nat) (c : Nat) : Option FV :=
  match ffmtOf f with
  | some g => some (g.decode c)
  | none => if isCT f then some (bf16.decode (bank.getD (c % 16) 0)) else (intOfCode f pol c).map FV.ofInt

/-- E8M0 (R42, R53). -/
def e8m0 (c : Nat) : FV := if c % 256 = 255 then .nan else .fin false 1 ((c % 256 : Nat) - 127)
/-- The value of a scale code (Table 02-2). -/
def scaleValue (f g c : Nat) : FV :=
  if g = 0 then .fin false 1 0 else if g = 1 then f32 c else if scaleE8M0 f then e8m0 c else bf16.decode c

/-- A read failed under policy 3: the code read (R47). -/
abbrev Dec (α : Type) := Except Nat α

/-- The integer at an index (conditions, exponents, indices, masks). -/
def View.int (v : View) (ix : List Nat) : Dec Int :=
  match intOfCode v.fmt (TW.policy v.word) (v.code ix) with
  | some i => .ok i
  | none => .error (v.code ix)

/-- decode(code) × scale, exact (R51). -/
def View.exact (v : View) (ix : List Nat) : Dec FV :=
  match valueOfCode v.fmt (TW.policy v.word) v.bank (v.code ix) with
  | none => .error (v.code ix)
  | some x => .ok (if v.geom = 0 then x else x.mul (scaleValue v.fmt v.geom (v.scaleCode (blockOf v.geom ix))))

/-- The FP32 value the vector engine reads (R51, R175). -/
def View.f32 (v : View) (ix : List Nat) : Dec FV := do .ok (fp32.round .rne (← v.exact ix))

/-! Quantisation. -/

/-- The greatest magnitude of the finite inputs (R52). -/
def maxMag (l : List FV) : FV :=
  l.foldl (fun m x => match x with | .fin _ _ _ => if m.lt x.absv then x.absv else m | _ => m) FV.zero

/-- The greatest finite entry magnitude of a bank. -/
def bankMax (bank : List Nat) : FV := maxMag (bank.map fun c => bf16.decode c)

def clampE8M0 (x : Int) : Nat := (max (-127) (min 127 x) + 127).toNat

/-- ceil(log₂(num ÷ den × 2^e)). -/
def ceilLog2 (num den : Nat) (e : Int) : Int :=
  let n := num * pow2Num e
  let d := den * pow2Den e
  let l := floorLog2 n d
  if n * pow2Den l = d * pow2Num l then l else l + 1

/-- The scale code that R52 chooses for inputs of a block; Table 03-4 row by row.  A quotient beyond the scale format's range gives its
largest finite value, as R189 does for VCVTS (DESIGN CHOICE, log 85). -/
def chooseScale (f g : Nat) (bank : List Nat) (ys : List FV) : Nat :=
  if g = 0 then 0 else
  let one := if g = 1 then 0x3F800000 else if scaleE8M0 f then 0x7F else 0x3F80
  if g = 1 && (f = 1 || f = 2 || f = 3) then one else
  match maxMag ys, (if isCT f then bankMax bank else match ffmtOf f with
      | some ff => ff.ofMag false ff.max
      | none => FV.ofInt (intMax f)) with
  | .fin _ m e, .fin _ qm qe =>
    if m = 0 || qm = 0 then one
    else if g ≠ 1 && (isMX f || f = 6) then clampE8M0 (floorLog2 m 1 + e - (if f = 7 then 8 else 2))
    else if g ≠ 1 && scaleE8M0 f then clampE8M0 (ceilLog2 m qm (e - qe))
    else
      let ff := if g = 1 then fp32 else bf16
      min (ff.mag (gridRound ff.p ff.emin .up m qm (e - qe))) ff.max
  | _, _ => one

/-- |x − y| as an exact value. -/
def FV.dist (x y : FV) : FV := (x.add y.negate).absv

/-- The index of the nearest entry, ties to the lower index; NaN entries are never picked (R50).  `i` counts up. -/
def nearest (y s : FV) : List Nat → Nat → Option (Nat × FV) → Option (Nat × FV)
  | [], _, best => best
  | c :: cs, i, best =>
    match bf16.decode c with
    | .nan => nearest y s cs (i + 1) best
    | x =>
      let d := match y, x with
        | .inf a, .inf b => if a = b then FV.zero else .inf false
        | .inf a, _ => if a then (x.mul s).add (.fin false 1 4000) else ((x.mul s).add (.fin true 1 4000)).negate
        | _, .inf _ => .inf false
        | _, _ => FV.dist y (x.mul s)
      match best with
      | none => nearest y s cs (i + 1) (some (i, d))
      | some b => nearest y s cs (i + 1) (if d.lt b.2 then some (i, d) else best)

/-- Does x lie above the greatest finite entry × s, or below the least (R50)?  An infinite input does, also where the bank holds an
equal infinity (DEDUCED, log 93). -/
def beyondBank (bank : List Nat) (s x : FV) : Bool :=
  let es := (bank.map fun c => bf16.decode c).filter fun v => match v with | .fin _ _ _ => true | _ => false
  if es.isEmpty then Config.noFinite bank
  else !es.any (fun v => !(v.mul s).lt x) || !es.any (fun v => !x.lt (v.mul s))
/-- The entry a code table takes for y. -/
def pickEntry (bank : List Nat) (s y : FV) : Nat := ((nearest y s bank 0 none).map (·.1)).getD (Config.noEntry bank % 16)

/-- `quantise` (R55): the code of q, and whether the input counts as rounded to zero or saturated (DEDUCED, log 15).  A scale of zero, and an
infinity by an infinite scale, give free values (DESIGN CHOICE, log 85).  A finite value below an unsigned range saturates to 0, and so
counts as both. -/
def quantise (f pol : Nat) (bank : List Nat) (md : RMode) (s y : FV) : Nat × Bool × Bool :=
  match ffmtOf f with
  | some ff =>
    match y, s with
    | .nan, _ => match ff.nan with | some c => (c, false, false) | none => (0, false, true)
    | .inf a, .inf b => (Config.infOverInf f a b % 2 ^ fmtBits f, false, false)
    | .inf a, s =>
      let a := a != s.neg?
      match ff.inf with | some c => (ff.code a c, false, false) | none => (ff.code a ff.max, false, true)
    | .fin a m e, .fin sa sm se =>
      if sm = 0 then (Config.overZero f a m e % 2 ^ fmtBits f, false, false) else
      let a := a != sa
      let g := gridRound ff.p ff.emin md m sm (e - se)
      let c := ff.mag g
      if c ≤ ff.max then (ff.code a c, decide (m ≠ 0 ∧ c = 0), false)
      else if f = 1 || f = 2 || f = 3 then
        ((match md with | .rz => ff.code a ff.max | _ => ff.code a (ff.inf.getD ff.max)), false, false)
      else (ff.code a ff.max, false, true)
    | .fin a _ _, s => (ff.code (a != s.neg?) 0, false, false)
  | none =>
    if isCT f then
      match y with
      | .nan => (pickEntry bank s FV.zero, false, true)
      | _ =>
        let i := pickEntry bank s y
        (i, !y.isZero && (bf16.decode (bank.getD i 0)).isZero, beyondBank bank s y)
    else
      let w := fmtBits f
      let lo := intLo f pol
      let hi : Int := intMax f
      match y, s with
      | .nan, _ => (0, false, true)
      | .inf a, .inf b => (Config.infOverInf f a b % 2 ^ w, false, false)
      | .inf a, s => (unsgn w (if a != s.neg? then lo else hi), false, true)
      | .fin a m e, .fin sa sm se =>
        if sm = 0 then (Config.overZero f a m e % 2 ^ w, false, false) else
        let a := a != sa
        let g := gridRound 0 0 md m sm (e - se)
        let q : Int := if a then -(g.1 : Int) else g.1
        if q < lo then (unsgn w lo, decide (lo = 0), true) else if hi < q then (unsgn w hi, false, true)
        else (unsgn w q, decide (m ≠ 0 ∧ g.1 = 0), false)
      | .fin _ _ _, _ => (0, false, false)

/-- The draw generator's mixing function (11 R201). -/
def mix (x : BitVec 32) : BitVec 32 :=
  let x := x ^^^ (x >>> 16)
  let x := x * 0x7FEB352D
  let x := x ^^^ (x >>> 15)
  let x := x * 0x846CA68B
  x ^^^ (x >>> 16)

/-- The coin of the element at row-major position j (R56). -/
def coin (key c : BitVec 32) (j : Nat) : Nat := (mix (mix (key ^^^ c) ^^^ BitVec.ofNat 32 j)).toNat

/-- The statistics block of an element (R58): its scale block, or its run of 32 along the innermost extent. -/
def statBlock (g : Nat) (ix : List Nat) : List Nat := if 2 ≤ g then blockOf g ix else blockOf 2 ix

/-- What a conversion writes: a code per element, a scale per block, the values q × s, and its precision events. -/
structure Conv where
  codes : List (List Nat × Nat) := []
  scales : List (List Nat × Nat) := []
  deq : List (List Nat × FV) := []
  events : Nat := 0
deriving DecidableEq, Repr

/-- How an operation rounds its elements: the mode of R54 and, when stochastic, the key and captured counter (R56). -/
structure Rnd where
  mode : Nat
  key : BitVec 32 := 0
  c : BitVec 32 := 0
deriving DecidableEq, Repr
def Rnd.of (r : Rnd) (j : Nat) : RMode := if r.mode = 1 then .rz else if r.mode = 2 then .sr (coin r.key r.c j) else .rne

/-- Convert one block's elements (row-major position, index, value); `sup` is a supplied scale code with `false` when the
block is written as zero (R189).  The q of an integer format that is zero is +0 in y − q × s (R57), whatever y's sign (DESIGN CHOICE, log 85). -/
def convertBlock (d : View) (r : Rnd) (narrow : Bool) (sc : Nat) (dead : Bool) (l : List (Nat × List Nat × FV)) : Conv :=
  let nanBlock := 2 ≤ d.geom && scaleE8M0 d.fmt && l.any (fun x => x.2.2.isNan)
  let sc' := if nanBlock then 0xFF else sc
  let s := scaleValue d.fmt d.geom sc'
  let one (x : Nat × List Nat × FV) : List Nat × Nat × Bool × Bool × FV :=
    if nanBlock || dead then (x.2.1, 0, false, false, if nanBlock || s.isNan then .nan else FV.zero)
    else
      let q := quantise d.fmt (TW.policy d.word) d.bank (r.of x.1) s x.2.2
      (x.2.1, q.1, q.2.1, q.2.2, ((valueOfCode d.fmt (TW.policy d.word) d.bank q.1).getD .nan).mul s)
  let out := l.map one
  let counted := (l.zip out).filter fun x => !x.1.2.2.isNan && !x.1.2.2.isZero
  let trouble := narrow && !nanBlock && !dead && !counted.isEmpty &&
    (counted.all (fun x => x.2.2.2.1) || counted.all (fun x => x.2.2.2.2.1))
  { codes := out.map fun x => (x.1, x.2.1), deq := out.map fun x => (x.1, x.2.2.2.2),
    scales := if 2 ≤ d.geom then (match l with | x :: _ => [(blockOf d.geom x.2.1, sc')] | [] => []) else [],
    events := if trouble then 1 else 0 }

def Conv.append (a b : Conv) : Conv := ⟨a.codes ++ b.codes, a.scales ++ b.scales, a.deq ++ b.deq, a.events + b.events⟩

/-- Convert the elements of a whole operation into the format of `d` (R188 to R190).  `sup` gives supplied scales. -/
def convert (d : View) (r : Rnd) (narrow : Bool) (vals : List (List Nat × FV)) (sup : Option (List Nat → Nat × Bool)) : Conv :=
  let num := (upFrom 0 vals.length).zip vals
  let whole := chooseScale d.fmt d.geom d.bank (vals.map (·.2))
  let keys := (vals.map fun x => statBlock d.geom x.1).eraseDups
  let conv := keys.foldl (fun acc k =>
    let l := num.filter fun x => statBlock d.geom x.2.1 == k
    let sd : Nat × Bool := match sup with
      | some f => f (if 2 ≤ d.geom then k else [])
      | none => (if 2 ≤ d.geom then chooseScale d.fmt d.geom d.bank (l.map (·.2.2)) else whole, false)
    acc.append (convertBlock d r narrow sd.1 sd.2 l)) {}
  if d.geom = 1 && !vals.isEmpty then
    { conv with scales := [([], (match sup with | some f => (f []).1 | none => whole))] }
  else conv

/-- Write a conversion's codes and scales. -/
def View.write (d : View) (c : Conv) : View :=
  let d := c.codes.foldl (fun d x => d.setCode x.1 x.2) d
  c.scales.foldl (fun d x => d.setScale x.1 x.2) d

/-- Codes written exactly, with the scale 1 of R373 in every block they meet. -/
def View.writeExact (d : View) (codes : List (List Nat × Nat)) : View :=
  let d' := codes.foldl (fun d x => d.setCode x.1 x.2) d
  if d.geom = 0 then d'
  else
    let one := if d.geom = 1 then 0x3F800000 else if scaleE8M0 d.fmt then 0x7F else 0x3F80
    ((indices d.ext).map (blockOf d.geom)).eraseDups.foldl (fun d b => d.setScale b one) d'

end Sys2Proof.Machine
end

