-- ==== Sys2Proof/Machine/GSub.lean ====
section
/-! DEFINITION. The draw generator's registers and subscriptions of the G slot (13 R248 to R252; 12 R229 to R231). -/
namespace Sys2Proof.Machine

/-- RSEED: applied when its bundle commits (R252). -/
def execRseed (g : GSlot) (s : State) : Host.Outcome State Fault Refusal :=
  runG (.rseed g) (fun s0 =>
    let s := reads [sr s0 g.sa, sr s0 g.sb] s0
    { s with issue := { s.issue with seedKey := some ((rs s g.sa).setWidth 32), seedCtr := some ((rs s g.sb).setWidth 32) } }) s
/-- RNEXT (R252). -/
def execRnext (g : GSlot) (s : State) : Host.Outcome State Fault Refusal :=
  runG (.rnext g) (fun s =>
    let c := preCtx s
    onCtx (fun c => { c with drawCtr := c.drawCtr + 1 }) (wrS g.sd 1 ((mix (c.drawKey ^^^ c.drawCtr)).setWidth 64) s)) s

/-! Rings and slots. -/
def Kernel.ring? (k : Kernel) (id : Nat) : Option Ring := k.rings.find? (·.id == id)
/-- The offset of a ring's slot 0 in a reservation (12 R215). -/
def Kernel.ringOffset (k : Kernel) (id : Nat) : Nat :=
  k.scratch + ((k.rings.takeWhile fun r => r.id != id).map fun r => r.slots * r.bytes).sum
/-- The lines of slot i of a subscription of a context. -/
def slotLines (cx : Nat) (c : Ctx) (u : Sub) (i : Nat) : List Nat :=
  upFrom (lineOfKey (scratchKey (coreOf cx) (c.seatBase + u.offset + i * u.slotBytes))) (u.slotBytes / 128)
def slotKey (cx : Nat) (c : Ctx) (u : Sub) (i : Nat) : Nat := scratchKey (coreOf cx) (c.seatBase + u.offset + i * u.slotBytes)
def Mach.setLines (m : Mach) (ls : List Nat) (v : Bool) : Mach := ls.foldl (fun m n => m.setFullAt n v) m
def Ctx.sub? (c : Ctx) (ring : Nat) : Option Sub := c.subs.find? (·.ring.toNat == ring)
def Ctx.modSub (c : Ctx) (ring : Nat) (f : Sub → Sub) : Ctx := { c with subs := lmod (fun u => u.ring.toNat == ring) f c.subs }
/-- RING_DECLARED (R250). -/
def ringFault (ring slot : Nat) : FaultRec := { cause := 0x13, info := BitVec.ofNat 64 (ring + slot % 2 ^ 16 * 2 ^ 16) }

/-! Windows of rank 2: the element and scale addresses of a region (13 R255, 04 R74). -/
/-- The virtual address of the byte that holds element (r, c), and the bit offset in it. -/
def Window.elemAt (w : Window) (base : Nat) (ix : List Nat) : Nat × Nat :=
  let f := fmtBits (TW.fmt w.ty)
  let outer := ((ix.dropLast.zip [w.s0.toNat, w.s1.toNat, w.s2.toNat]).map fun x => x.1 * x.2).sum
  let b := ix.getLastD 0 * f
  ((base + outer + b / 8) % 2 ^ 64, b % 8)
/-- Bytes of the window's elements (04 R74, R75): from Base to past the last element of its frame. -/
def Window.elemSpan (w : Window) : Nat :=
  let e := TW.exts w.ty
  let f := fmtBits (TW.fmt w.ty)
  if prod e = 0 then 0
  else ((((e.dropLast.map (· - 1)).zip [w.s0.toNat, w.s1.toNat, w.s2.toNat]).map fun x => x.1 * x.2).sum) + ceilDiv (e.getLastD 1 * f) 8
/-- The scales stand after the frame's element bytes (04 R74). -/
def Window.scaleBase (w : Window) (base : Nat) : Nat := base + elemBytes (TW.fmt w.ty) 0 (TW.exts w.ty)
def Window.scaleAt (w : Window) (base : Nat) (blk : List Nat) : Nat :=
  (w.scaleBase base + linear (blockDims (TW.geom w.ty) (TW.exts w.ty)) blk * scaleBytes (TW.fmt w.ty) (TW.geom w.ty)) % 2 ^ 64

/-- The region of tile k of a walk. -/
def Sub.origin (u : Sub) (k : Nat) : Int × Int := (u.row0 + k * u.dr, u.col0 + k * u.dc)
/-- The fault of a tile that leaves the window, extents visited from the innermost (R248, 02 R32). -/
def walkFault (waddr : Word) (w : Window) (u : Sub) (k : Nat) : Option FaultRec :=
  let e := TW.exts w.ty
  let (r, c) := u.origin k
  let one (i : Nat) (o : Int) (n : Nat) : Option FaultRec :=
    let lim := e.getD i 0
    let off := fun (v : Int) => unsgn 32 v
    if o < 0 ∨ (lim : Int) < o then some (BEnv.fault { bob := [], waddr := waddr } (fEXT0 + i) 4 none lim (off o))
    else if (lim : Int) < o + n then some (BEnv.fault { bob := [], waddr := waddr } (fEXT0 + i) 4 none lim (off (o + n)))
    else none
  (one 1 c u.c).or (one 0 r u.h)
def imageBytes (fmt geom : Nat) (e : List Nat) : Nat := elemBytes fmt 0 e + footScales fmt geom e
/-- The least index of a scale block. -/
def blockStart (g : Nat) (rank : Nat) (blk : List Nat) : List Nat :=
  match g, blk.reverse with
  | 2, c :: o => (c * 32 :: o).reverse
  | 3, c :: o => (c * 16 :: o).reverse
  | 4, c :: r :: o => (c :: r * 32 :: o).reverse
  | 5, c :: r :: o => (c * 32 :: r * 32 :: o).reverse
  | _, _ => List.replicate rank 0
def addIx (a b : List Nat) : List Nat := (a.zip b).map fun x => x.1 + x.2
/-- The address of the scale that a region at origins `o` takes for its block `blk`. -/
def Window.regionScale (w : Window) (base : Nat) (o blk : List Nat) : Nat :=
  let g := TW.geom w.ty
  w.scaleAt base (blockOf g (addIx o (blockStart g o.length blk)))
/-- One address of each page that the tiles of a walk reach, their scales included. -/
def walkPages (w : Window) (u : Sub) : List Nat :=
  let f := TW.fmt w.ty
  let g := TW.geom w.ty
  let blks := if g = 0 then [] else indices (blockDims g [u.h, u.c])
  let reach := (upFrom 0 u.n).flatMap fun k =>
    let (r, c) := u.origin k
    (upFrom 0 u.h).flatMap (fun (i : Nat) =>
      let a := w.elemAt w.base.toNat [(r + (i : Int)).toNat, c.toNat]
      pageAddrs a.1 (ceilDiv (a.2 + u.c * fmtBits f) 8)) ++
    blks.flatMap fun b => pageAddrs (w.regionScale w.base.toNat [r.toNat, c.toNat] b) (scaleBytes f g)
  reach.foldl (fun l a => if l.any fun b => b / 65536 == a / 65536 then l else l ++ [a]) []
/-- The base die whose engine serves a die's context: the even stack's first (R229). -/
def freeEngine (m : Mach) (die : Nat) : Option Nat :=
  if mget 0 m.subUsed (2 * die) < 64 then some (2 * die) else if mget 0 m.subUsed (2 * die + 1) < 64 then some (2 * die + 1) else none

/-- Every page of a walk, translated; the regions above global memory are no memory of a window (12 R213). -/
def walkRes (m : Mach) (cx : Nat) (pull : Bool) (pages : List Nat) : Res :=
  let low := pages.takeWhile (· < globalTop)
  match translateAll m cx [if pull then .write else .read] low, pages.drop low.length with
  | .error e, _ => e
  | .ok l, [] => .locs l
  | .ok _, a :: _ => .fault (accFault 0x0A 3 pull a)
/-- A subscription's instruction stands after a fence or an acquire with all that it puts first (14 R265). -/
def afterFences (f : State → State) (s : State) : State :=
  whenFree f (if (preCtx s).out.any (·.blocksLater) then stallOn .internal s else s)
/-- SUBSCR (R248) (DEDUCED, log 79). -/
def subscrG (i : Instr) (g : GSlot) (pull : Bool) (s : State) : Host.Outcome State Fault Refusal :=
  runG i (fun s =>
    let s := reads [sr s g.sa, sr s g.sb] s
    afterFences (fun s =>
      let cx := s.issue.cx
      let a := rs s g.sa
      let b := rs s g.sb
      let ring := g.sd.toNat % 16
      let w := windowOf s g.hint
      let env : BEnv := { bob := [], waddr := ((preLaunch s).map fun l => l.winTable + BitVec.ofNat 64 (64 * g.hint.toNat)).getD 0 }
      let fmt := TW.fmt w.ty
      let geom := TW.geom w.ty
      match (preLaunch s).map (·.kernel) with
      | none => s
      | some k =>
        let r := k.ring? ring
        let u : Sub := { ring := BitVec.ofNat 4 ring, win := g.hint, pull := pull, row0 := bits a 31 0, col0 := bits a 63 32,
                         h := bits b 15 0, c := bits b 31 16, dr := sgn 16 (bits b 47 32), dc := sgn 16 (bits b 63 48), n := g.disp.toNat,
                         states := [], offset := k.ringOffset ring, slotBytes := (r.map (·.bytes)).getD 0, base := 0 }
        let blk := if geom = 2 then 32 else if geom = 3 then 16 else 1
        let img := imageBytes fmt geom [u.h, u.c]
        if u.h = 0 ∨ u.c = 0 then faultAt .g { cause := 0x01 } s
        else if (r.map (·.fed)) ≠ some true ∨ ((preCtx s).sub? ring).isSome then faultAt .g (ringFault ring 0) s
        else if w.access = 0 then faultAt .g { cause := 0x06 } s
        else if w.access = 3 ∨ (pull ∧ w.access ≠ 2) then faultAt .g { cause := 0x07 } s
        else if TW.rank w.ty ≠ 2 then faultAt .g (env.fault fRANK 4 none 2 (TW.rank w.ty)) s
        else match (upFrom 0 u.n).findSome? (walkFault env.waddr w u) with
          | some f => faultAt .g f s
          | none =>
            if (geom = 2 ∨ geom = 3) ∧ (u.col0 % blk ≠ 0 ∨ u.dc % blk ≠ 0 ∨ u.c % blk ≠ 0) then
              faultAt .g (env.fault fGEOM 4 none 0 (if u.col0 % blk ≠ 0 then u.col0 else if u.dc % blk ≠ 0 then unsgn 16 u.dc else u.c)) s
            else if (geom = 4 ∨ geom = 5) ∧ (u.row0 % 32 ≠ 0 ∨ u.dr % 32 ≠ 0 ∨ u.h % 32 ≠ 0) then
              faultAt .g (env.fault fGEOM 4 none 0 (if u.row0 % 32 ≠ 0 then u.row0 else if u.dr % 32 ≠ 0 then unsgn 16 u.dr else u.h)) s
            else if img > u.slotBytes then faultAt .g (env.fault fCAPACITY 4 none u.slotBytes img) s
            else withRes .g (walkRes (pre s) cx pull (walkPages w u)) pull
              (fun _ s =>
                match freeEngine (pre s) (dieOf (coreOf cx)) with
                | none => askFor .hold s
                | some e =>
                  let c := preCtx s
                  let states := (upFrom 0 ((r.map (·.slots)).getD 0)).map fun j =>
                    if (slotLines cx c u j).all (pre s).fullAt then (if pull then SubSlot.marked else .full) else .empty
                  onMach (fun m => { m with subUsed := mset m.subUsed e (mget 0 m.subUsed e + 1) })
                    (onCtx (fun c => { c with subs := c.subs ++ [{ u with states := states, base := e }] }) s))
              (fun _ _ s => s) s) s) s
def execSubscrPush (g : GSlot) (s : State) : Host.Outcome State Fault Refusal := subscrG (.subscrPush g) g false s
def execSubscrPull (g : GSlot) (s : State) : Host.Outcome State Fault Refusal := subscrG (.subscrPull g) g true s

/-- Return a subscription's engine. -/
def Mach.endSub (m : Mach) (cx ring : Nat) : Mach :=
  match (m.ctx cx).sub? ring with
  | none => m
  | some u =>
    let m := { m with subUsed := mset m.subUsed u.base (mget 0 m.subUsed u.base - 1) }
    m.modCtx cx fun c => { c with subs := c.subs.filter fun x => x.ring.toNat != ring }
/-- SUBCAN (R251): it retires once the slot in progress is complete and the engine is back. -/
def execSubcan (g : GSlot) (s : State) : Host.Outcome State Fault Refusal :=
  runG (.subcan g) (fun s =>
    let ring := g.sd.toNat % 16
    match (preCtx s).sub? ring with
    | none => s
    | some u =>
      if u.states.any (· == .busy) && !u.erred then askFor (.subcan ring) s
      else onMach (fun m => m.endSub s.issue.cx ring) s) s
/-- Does an access of the context to a slot, or to a full bit of it, stand out? -/
def slotBusy (c : Ctx) (lines : List Nat) : Bool :=
  c.out.any fun a => match a.kind with
    | .setFull n _ => lines.contains n
    | .testFull n _ => lines.contains n
    | _ => a.locs.any fun l => match l with | .scratch k => lines.contains (lineOfKey k) | _ => false
/-- SLOTDONE (R250), after the context's earlier accesses to the slot and its full bits (14 R262). -/
def execSlotdone (g : GSlot) (s : State) : Host.Outcome State Fault Refusal :=
  runG (.slotdone g) (fun s =>
    let cx := s.issue.cx
    let ring := g.sd.toNat % 16
    let i := (rs s g.sa).toNat
    let s := reads [sr s g.sa] s
    afterFences (fun s =>
      match (preCtx s).sub? ring with
      | none => faultAt .g (ringFault ring i) s
      | some u =>
        let mark (v : SubSlot) (full : Bool) : State :=
          if slotBusy (preCtx s) (slotLines cx (preCtx s) u i) then stallOn .internal s
          else onMach (fun m => (m.setLines (slotLines cx (m.ctx cx) u i) full).modCtx cx
            fun c => c.modSub ring fun u => { u with states := lset u.states i v }) s
        if u.states.length ≤ i then faultAt .g (ringFault ring i) s
        else if !u.pull && u.states.getD i .empty == .full then mark .empty false
        else if u.pull && u.states.getD i .full == .empty then mark .marked true
        else s) s) s

end Sys2Proof.Machine
end

