-- ==== Sys2Proof/Machine/Copy.lean ====
section
/-! DEFINITION. Issuing the C slot: copies, and the instructions of the fabric (02 R32; 08 R153; 13 R253 to R260; 15 R285;
16 R317 to R326). -/
namespace Sys2Proof.Machine

/-- s[sa] with the replay offset, and s[sb] (06 R106). -/
def cA (s : State) (c : CSlot) : Word := rs s c.sa + s.issue.offset.signExtend 64
def cB (s : State) (c : CSlot) : Word := rs s c.sb

/-- A C slot: residency of the scratchpad range it names at issue is waited for (17 R342); a bundle that has issued, and waits for an answer,
has passed that and its check of the range (10 R192, 17 R330). -/
def issueC (i : Instr) (c : CSlot) (range : State → List (Nat × Nat)) (carrier : Bool) (plan : State → Except FaultRec Plan)
    (s : State) : Host.Outcome State Fault Refusal :=
  runSlot .c i (fun s =>
    let away := !(preCtx s).issued && (range s).any fun x =>
      match scratchTarget (pre s) s.issue.cx x.1 x.2 false with | .ok (_, _, false) => true | _ => false
    let s := if away || (carrier && (preCtx s).busyOut) then stallOn .internal s else s
    engineIssue .c .c (slotWord i) [sr s c.sa, sr s c.sb] false plan s) s
def noRange (_ : State) : List (Nat × Nat) := []

/-! Windows (04 R73 to R76). -/
def copyEnv (s : State) (w : BitVec 8) : BEnv :=
  { slotEnv s with waddr := ((preLaunch s).map fun l => l.winTable + BitVec.ofNat 64 (64 * w.toNat)).getD 0 }
/-- The window of a copy, after the access checks of R76. -/
def copyWindow (s : State) (c : CSlot) (ok : List Nat) : Except FaultRec Window :=
  let w := windowOf s c.w
  if w.access = 0 then .error { cause := 0x06 } else if ok.contains w.access then .ok w else .error { cause := 0x07 }

/-- The origins o0 to o(r−1) (R254); with `scratch` those of R256. -/
def originsOf (scratch : Bool) (r : Nat) (a b : Word) : List Nat :=
  let al := bits a 31 0
  let ah := bits a 63 32
  let bl := bits b 31 0
  let bh := bits b 63 32
  if scratch then (upFrom 0 r).map fun k => if k = r - 2 then bl else 0
  else match r with
    | 0 => []
    | 1 => [al]
    | 2 => [al, bl]
    | 3 => [ah, al, bl]
    | _ => [bh, ah, al, bl]

/-- The footprint of a word with extent k taken as v, other frames as known, 1 where unknown (R32). -/
def BEnv.fits (env : BEnv) (t : TypeWord) (k v : Nat) : Bool :=
  let d := ((TW.exts t).zip (upFrom 0 4)).map fun x => if x.2 = k then v else (env.frameExt x.1).getD 1
  elemBytes (TW.fmt t) (TW.layout t) d ≤ 65536 && footScales (TW.fmt t) (TW.geom t) d ≤ 4096
/-- The largest v in [lo, lo + 2^bits) that meets a downward closed test that lo meets. -/
def largest (p : Nat → Bool) : Nat → Nat → Nat
  | 0, lo => lo
  | b + 1, lo => if p (lo + 2 ^ b) then largest p b (lo + 2 ^ b) else largest p b lo
/-- Bind and check the extents of a region from the innermost outward (R32). -/
def BEnv.bindRegion (env : BEnv) (t wt : TypeWord) (o : List Nat) : Nat → Except FaultRec BEnv
  | 0 => .ok env
  | k + 1 => do
    let f := TW.ext t k
    let lim := TW.ext wt k % 2 ^ 23
    let ok := o.getD k 0
    let v ← env.resolve f k 1
    if lim < ok then .error (env.fault (fEXT0 + k) 4 (symOf f 0) lim ok)
    match v with
    | some v => if lim < ok + v then .error (env.fault (fEXT0 + k) 4 (symOf f 0) lim (ok + v)) else env.bindRegion t wt o k
    | none =>
      let cap := if symL f ≠ 0 then symL f else largest (env.fits t k) 24 0
      (env.bindB f (min (lim - ok) cap) k 1).bindRegion t wt o k

/-- FORMAT, GEOMETRY and POLICY of a tile against its window (R153). -/
def BEnv.sameFields (env : BEnv) (x y : TypeWord) : Except FaultRec Unit := do
  if TW.fmt x ≠ TW.fmt y then
    .error (env.fault (if isCT (TW.fmt x) && isCT (TW.fmt y) then fBANK else fFORMAT) 4 none (TW.fmt x) (TW.fmt y))
  if TW.geom x ≠ TW.geom y then .error (env.fault fGEOM 4 none (TW.geom x) (TW.geom y))
  if TW.policy x ≠ TW.policy y then .error (env.fault fPOLICY 4 none (TW.policy x) (TW.policy y))
/-- The origins of a scaled region stand at block borders (R255). -/
def BEnv.blockOrigins (env : BEnv) (g : Nat) (o : List Nat) : Except FaultRec Unit :=
  let inner := o.getLastD 0
  let outer := o.dropLast.getLastD 0
  if g = 2 ∧ inner % 32 ≠ 0 ∨ g = 3 ∧ inner % 16 ≠ 0 then .error (env.fault fGEOM 4 none 0 inner)
  else if (g = 4 ∨ g = 5) ∧ outer % 32 ≠ 0 then .error (env.fault fGEOM 4 none 0 outer)
  else .ok ()

/-- A scratchpad range at issue: an aperture, its alignment, its region (R253). -/
def scratchRange (s : State) (a n align : Nat) (write : Bool) : Except FaultRec Unit :=
  if (preCtx s).issued then .ok ()
  else match scratchTarget (pre s) s.issue.cx a n write with
  | .error f => if f.info.toNat % 16 ≠ 3 && a % align ≠ 0 then .error (alignFault a) else .error f
  | .ok _ => if a % align ≠ 0 then .error (alignFault a) else .ok ()

/-- The bytes of a region's elements and scales, from `base` on: one past the last, counted from `base` (R256). -/
def regionEnd (w : Window) (fmt geom : Nat) (e o : List Nat) : Nat :=
  if prod e = 0 then 0
  else
    let last := ((o.zip e).map fun x => x.1 + x.2 - 1)
    let x := w.elemAt 0 last
    let el := x.1 + ceilDiv (x.2 + fmtBits fmt) 8
    if geom = 0 then el
    else max el (w.scaleAt 0 (if geom = 1 then [] else blockOf geom last) + scaleBytes fmt geom)

def planC (i : Instr) (s : State) (c : CSlot) (w : TypeWord) (e : List Nat) (binds : List Binding) : Plan :=
  { op := some { newOp i with capA := cA s c, capB := cB s c, types := [0, w, 0, 0], exts := [[], e, [], []] }, binds := binds }

/-- TLOAD, TSTORE, TLOADS and TSTORES (Table 08-3).  The tile is checked before the window's access (DESIGN CHOICE, log 101). -/
def tileCopyPlan (i : Instr) (c : CSlot) (store scratch : Bool) (s : State) : Except FaultRec Plan := do
  groupCheck (preCtx s).tilesPer c.t.toNat 1
  let env := copyEnv s c.w
  let w := wordAt s c.t
  env.checkType w 1
  let win ← copyWindow s c (if store && !scratch then [2] else [1, 2])
  if TW.rank w ≠ TW.rank win.ty then .error (env.fault fRANK 4 none (TW.rank w) (TW.rank win.ty))
  env.sameFields w win.ty
  if store then let _ ← env.resolveAll w 1
  let o := originsOf scratch (TW.rank w) (cA s c) (cB s c)
  let env ← env.bindRegion w win.ty o (TW.rank w)
  env.blockOrigins (TW.geom w) o
  env.checkCapacity w 1
  let e ← env.resolveAll w 1
  if scratch then scratchRange s (cA s c).toNat (regionEnd win (TW.fmt w) (TW.geom w) e o) 128 store
  .ok (planC i s c w e env.t)
def addrRange (c : CSlot) (s : State) : List (Nat × Nat) := [((cA s c).toNat, 0)]

def execCNop (s : State) : Host.Outcome State Fault Refusal := runSlot .c .cNop id s
def execTload (c : CSlot) (s : State) : Host.Outcome State Fault Refusal :=
  issueC (.tload c) c noRange false (tileCopyPlan (.tload c) c false false) s
def execTstore (c : CSlot) (s : State) : Host.Outcome State Fault Refusal :=
  issueC (.tstore c) c noRange false (tileCopyPlan (.tstore c) c true false) s
def execTloads (c : CSlot) (s : State) : Host.Outcome State Fault Refusal :=
  issueC (.tloads c) c (addrRange c) false (tileCopyPlan (.tloads c) c false true) s
def execTstores (c : CSlot) (s : State) : Host.Outcome State Fault Refusal :=
  issueC (.tstores c) c (addrRange c) false (tileCopyPlan (.tstores c) c true true) s

/-- CPIN and CPOUT (R257). -/
def linesPlan (i : Instr) (c : CSlot) (cpin : Bool) (s : State) : Except FaultRec Plan := do
  let win ← copyWindow s c (if cpin then [1, 2] else [2])
  let n := bits (cB s c) 15 0
  let a := (cA s c).toNat
  scratchRange s a 0 128 cpin
  if n ≠ 0 ∧ win.bound.toNat < 128 * (bits (cB s c) 63 16 + n) then .error { cause := 0x07, addr := win.base + win.bound }
  scratchRange s a (128 * n) 128 cpin
  .ok (planC i s c 0 [] [])
def execCpin (c : CSlot) (s : State) : Host.Outcome State Fault Refusal := issueC (.cpin c) c (addrRange c) false (linesPlan (.cpin c) c true) s
def execCpout (c : CSlot) (s : State) : Host.Outcome State Fault Refusal := issueC (.cpout c) c (addrRange c) false (linesPlan (.cpout c) c false) s

/-- GATHER and SCATTER (R258). -/
def gatherPlan (i : Instr) (c : CSlot) (store : Bool) (s : State) : Except FaultRec Plan := do
  groupCheck (preCtx s).tilesPer c.t.toNat 1
  let env := copyEnv s c.w
  let w := wordAt s c.t
  env.checkType w 1
  let win ← copyWindow s c (if store then [2] else [1, 2])
  env.admitRank 2 (TW.rank w == 2) w 1
  env.admitRank 2 (TW.rank win.ty == 2) win.ty 4
  let env ← env.unifyExtent (TW.ext w 1) 1 (TW.ext win.ty 1) 1 4 (1, 1) (4, 1)
  env.sameFields w win.ty
  env.admitGeom (decide (TW.geom w ≤ 3)) w 1
  env.checkCapacity w 1
  let e ← env.resolveAll w 1
  scratchRange s (cA s c).toNat (4 * e.headD 0) 4 false
  .ok (planC i s c w e env.t)
def execGather (c : CSlot) (s : State) : Host.Outcome State Fault Refusal := issueC (.gather c) c (addrRange c) false (gatherPlan (.gather c) c false) s
def execScatter (c : CSlot) (s : State) : Host.Outcome State Fault Refusal := issueC (.scatter c) c (addrRange c) false (gatherPlan (.scatter c) c true) s
/-- PREFT (R259). -/
def execPreft (c : CSlot) (s : State) : Host.Outcome State Fault Refusal :=
  issueC (.preft c) c noRange false (fun s => do let _ ← copyWindow s c [1, 2]; .ok (planC (.preft c) s c 0 [] [])) s
/-- CTLOAD (R260). -/
def execCtload (c : CSlot) (s : State) : Host.Outcome State Fault Refusal :=
  issueC (.ctload c) c noRange false (fun s => do
    let env := copyEnv s c.w
    let win ← copyWindow s c [1, 2]
    env.admitRank 1 (TW.rank win.ty == 1) win.ty 4
    if TW.fmt win.ty ≠ 2 then .error (env.fault fFORMAT 4 none 0 (TW.fmt win.ty))
    if TW.ext win.ty 0 % 2 ^ 23 ≠ 16 then .error (env.fault fEXT0 4 none 16 (TW.ext win.ty 0 % 2 ^ 23))
    .ok (planC (.ctload c) s c 0 [] [])) s

/-! The fabric. -/
/-- An endpoint word with a reserved field or a CORE_ID above 159 (R317). -/
def epBad (e : Word) : Bool := bits e 63 35 != 0 || bits e 15 11 != 0 || decide (159 < bits e 7 0)
/-- DEDUCED, log 52. -/
def epCheck (e : Word) : Except FaultRec Unit := if epBad e then .error { cause := 0x01 } else .ok ()
/-- Split QW for a carrier (R285); the split is judged at issue: once a QWAIT beside it has sent QW to the root, the bundle has
issued, and a QW that comes back empty gives an empty share (DESIGN CHOICE, log 90). -/
def splitFor (s : State) (p : Plan) : Except FaultRec Plan :=
  match splitWeight (curCtx s).qw with
  | none => if (preCtx s).issued then .ok p else .error { cause := 0x0C, info := (curCtx s).qw }
  | some (keep, give) => .ok { p with op := p.op.map fun o => { o with weight := give }, qw := some keep }
/-- The tile of a send, a receive or a TTSET: its extents resolved (Table 08-3). -/
def resolvedTile (s : State) (c : CSlot) (ok : TypeWord → Bool) : Except FaultRec (TypeWord × List Nat) := do
  groupCheck (preCtx s).tilesPer c.t.toNat 1
  let env := slotEnv s
  let w := wordAt s c.t
  env.checkType w 1
  env.accept (ok w) w 1
  let e ← env.resolveAll w 1
  env.checkCapacity w 1
  .ok (w, e)
def anyWord (_ : TypeWord) : Bool := true

/-- SEND (R319). -/
def execSend (c : CSlot) (s : State) : Host.Outcome State Fault Refusal :=
  issueC (.send c) c noRange true (fun s => do
    let (w, e) ← resolvedTile s c anyWord
    epCheck (cA s c)
    splitFor s (planC (.send c) s c w e [])) s
/-- MCAST (R318, R319). -/
def execMcast (c : CSlot) (s : State) : Host.Outcome State Fault Refusal :=
  issueC (.mcast c) c (addrRange c) true (fun s => do
    let (w, e) ← resolvedTile s c anyWord
    scratchRange s (cA s c).toNat (8 * c.w.toNat) 8 false
    splitFor s (planC (.mcast c) s c w e [])) s
/-- RECV, RECVADD and RECVDRAW (R321): the barrier address is checked at issue. -/
def recvPlan (i : Instr) (c : CSlot) (ok : TypeWord → Bool) (draws : List Nat → Nat) (s : State) : Except FaultRec Plan := do
  let (w, e) ← resolvedTile s c ok
  if c.sb ≠ 0 then scratchRange s (cB s c).toNat 16 16 true
  .ok { planC i s c w e [] with draws := draws e }
def execRecv (c : CSlot) (s : State) : Host.Outcome State Fault Refusal :=
  issueC (.recv c) c noRange false (recvPlan (.recv c) c anyWord fun _ => 0) s
def execRecvadd (c : CSlot) (s : State) : Host.Outcome State Fault Refusal :=
  issueC (.recvadd c) c noRange false (recvPlan (.recvadd c) c (fun w => TW.fmt w == 0x01 || TW.fmt w == 0x09) fun _ => 0) s
def execRecvdraw (c : CSlot) (s : State) : Host.Outcome State Fault Refusal :=
  issueC (.recvdraw c) c noRange false (recvPlan (.recvdraw c) c (fun w => TW.fmt w == 0x13) prod) s
/-- A route of version-2 links to a device (R309): its routing entry names a port that is up at version 2. -/
def v2Route (m : Mach) (dev : Nat) : Bool :=
  match mget none m.routes dev with
  | some p => let x := mget ({} : Port) m.ports (p.die.toNat * 4 + p.port.toNat); x.phase == .up && x.version == 2
  | none => false
/-- The device an endpoint names (R317). -/
def epDevice (m : Mach) (e : Word) : Nat := if e.getLsbD 34 then m.deviceNo else bits e 33 24
/-- AMSG (R324). -/
def execAmsg (c : CSlot) (s : State) : Host.Outcome State Fault Refusal :=
  issueC (.amsg c) c (addrRange c) true (fun s => do
    scratchRange s (cA s c).toNat 64 64 false
    epCheck (cB s c)
    let d := epDevice (pre s) (cB s c)
    if d ≠ (pre s).deviceNo ∧ !(preCtx s).issued ∧ !v2Route (pre s) d then .error (accFault 0x0A 9 false 0)
    splitFor s (planC (.amsg c) s c 0 [] [])) s
/-- The entry of a TTSET or TTFIRE belongs to its context (R318). -/
def entryCheck (s : State) (c : CSlot) : Except FaultRec Unit :=
  if c.w.toNat / 32 = s.issue.cx % 8 then .ok () else .error (accFault 0x0A 4 false 0)
/-- TTSET (R325). -/
def execTtset (c : CSlot) (s : State) : Host.Outcome State Fault Refusal :=
  issueC (.ttset c) c noRange false (fun s => do
    let (w, e) ← resolvedTile s c anyWord
    let n := bits (cA s c) 9 0
    if n = 0 then .error { cause := 0x01 }
    entryCheck s c
    .ok { planC (.ttset c) s c w e [] with draws := if TW.fmt w = 0x13 then n * prod e else 0 }) s
/-- TTFIRE (R326). -/
def execTtfire (c : CSlot) (s : State) : Host.Outcome State Fault Refusal :=
  issueC (.ttfire c) c noRange true (fun s => do
    entryCheck s c
    epCheck (cA s c)
    splitFor s (planC (.ttfire c) s c 0 [] [])) s

end Sys2Proof.Machine
end

