-- ==== Sys2Proof/Machine/VecMath.lean ====
section
/-! DEFINITION. Element functions of the vector engine (10 R180 to R182), and draw records with their merge (11 R200 to R204). -/
namespace Sys2Proof.Machine

/-! Approximations to about 2^-230, against which the bounds of 10 R182 and 11 R198 are checked (log 8). -/

/-- 1 ÷ (m × 2^e). -/
def approxRecip (m : Nat) (e : Int) : Nat × Int := let k := fxBits + Nat.log2 m; (2 ^ k / m, -e - k)
/-- 2^x for a finite x below about 2^12 in magnitude. -/
def approxExp2 (s : Bool) (m : Nat) (e : Int) : Nat × Int :=
  let sp := fxSplit s m e
  (expFx (sp.2 * ln2 / fxOne), sp.1 - fxBits)
/-- log₂ of a positive number, signed. -/
def approxLog2 (m : Nat) (e : Int) : FV :=
  let k := Nat.log2 m
  let v : Int := (k + e) * fxOne + (if m = 2 ^ k then 0 else lnRatio m (2 ^ k) * fxOne / ln2 : Nat)
  .fin (decide (v < 0)) v.natAbs (-(fxBits : Int))
/-- Is m × 2^e at least 2^k? -/
def atLeastPow (m : Nat) (e k : Int) : Bool := m != 0 && k ≤ floorLog2 m 1 + e
/-- tanh of a positive number. -/
def approxTanh (m : Nat) (e : Int) : FV :=
  if atLeastPow m e 7 then .fin false (fxOne - 1) (-(fxBits : Int)) else
  let x := expReal false m (e + 1)
  let p : FV := .fin false x.1 x.2
  match p.add (.fin true 1 0), p.add (.fin false 1 0) with
  | .fin _ n1 e1, .fin _ n2 e2 => .fin false (n1 * pow2Num (e1 - e2 + fxBits) / (n2 * pow2Den (e1 - e2 + fxBits))) (-(fxBits : Int))
  | _, _ => .nan
/-- 1 ÷ (1 + e^(−a)). -/
def approxSigm (s : Bool) (m : Nat) (e : Int) : FV :=
  if atLeastPow m e 8 then (if s then .fin false 1 (-(fxBits : Int)) else .fin false (fxOne - 1) (-(fxBits : Int))) else
  let x := expReal (!s) m e
  match (FV.fin false x.1 x.2).add (.fin false 1 0) with
  | .fin _ n2 e2 => let r := approxRecip n2 e2; .fin false r.1 r.2
  | _ => .nan

/-- The spacing of FP32 values at x. -/
def ulp32 (x : FV) : FV :=
  match x with
  | .fin _ m e => if m = 0 then .fin false 1 (-149) else .fin false 1 (max (floorLog2 m 1 + e - 23) (-149))
  | _ => FV.zero

/-- The device's fixed value when it lies within k ulp (or `abs`) of the exact value; otherwise the nearest FP32 value. -/
def bounded (cand : BitVec 32) (exact : FV) (k : Nat) (abs : FV) : FV :=
  let r := fp32.round .rne exact
  let c := f32 cand.toNat
  match r, c with
  | .fin _ _ _, .fin _ _ _ =>
    let d := FV.dist c exact
    if !((FV.ofInt k).mul (ulp32 exact)).lt d || !abs.lt d then c else r
  | _, _ => r

def code32 (v : FV) : BitVec 32 := BitVec.ofNat 32 (f32c v)

/-- Table 10-5, special values first. -/
def vrcpF (a : FV) : FV :=
  match a with
  | .nan => .nan
  | .inf s => .fin s 0 0
  | .fin s m e => if m = 0 then .inf s else let r := approxRecip m e; bounded (Config.vrcp (code32 a)) (.fin s r.1 r.2) 1 (.fin true 1 0)
def vrsqF (a : FV) : FV :=
  match a with
  | .nan => .nan
  | .inf s => if s then .nan else .fin false 0 0
  | .fin s m e =>
    if m = 0 then .inf s else if s then .nan
    else let r := approxRecip m e; bounded (Config.vrsq (code32 a)) (FV.sqrt (.fin false r.1 r.2)) 1 (.fin true 1 0)
def vexp2F (a : FV) : FV :=
  match a with
  | .nan => .nan
  | .inf s => if s then .fin false 0 0 else .inf false
  | .fin s m e =>
    let r := fp32.exp2 .rne a
    if r.isInf || atLeastPow m e 12 || (fxSplit s m e).2 = 0 then r
    else let x := approxExp2 s m e; bounded (Config.vexp2 (code32 a)) (.fin false x.1 x.2) 2 (.fin true 1 0)
def vlog2F (a : FV) : FV :=
  match a with
  | .nan => .nan
  | .inf s => if s then .nan else .inf false
  | .fin s m e =>
    if m = 0 then .inf true else if s then .nan
    else if m = 2 ^ Nat.log2 m then fp32.log2 .rne a
    else bounded (Config.vlog2 (code32 a)) (approxLog2 m e) 2 (.fin true 1 0)
def vtanhF (a : FV) : FV :=
  match a with
  | .nan => .nan
  | .inf s => .fin s 1 0
  | .fin s m e =>
    if m = 0 then a
    else
      let x := approxTanh m e
      bounded (Config.vtanh (code32 a)) (if s then x.negate else x) 2 (if atLeastPow m e (-10) then .fin true 1 0 else .fin false 1 (-24))
def vsigmF (a : FV) : FV :=
  match a with
  | .nan => .nan
  | .inf s => if s then .fin false 0 0 else .fin false 1 0
  | .fin s m e =>
    if m = 0 then .fin false 1 (-1) else bounded (Config.vsigm (code32 a)) (approxSigm s m e) 2 (.fin false 1 (-24))

def vclampF (a b c : FV) : FV := if a.isNan || b.isNan || c.isNan then .nan else (a.fmax b).fmin c
/-- a × 2^n; a power far beyond every format is cut at 2^4096 and 2^-4096, which round the same. -/
def vscaleF (a : FV) (n : Int) : FV :=
  match a with
  | .fin s m e => if m = 0 then a else .fin s m (e + max (-4096) (min 4096 n))
  | x => x

/-- A sum whose zero is +0 when the mode is stochastic (R180). -/
def srZero (sr : Bool) (r : FV) : FV := match r with | .fin s m e => if m = 0 then .fin (s && !sr) 0 e else r | x => x

/-- Chain stages (Table 10-4). -/
def chainStage (code : Nat) (sr : Bool) (x y : FV) : FV :=
  match code with
  | 1 => srZero sr (x.add y)
  | 2 => srZero sr (x.add y.negate)
  | 3 => x.mul y
  | 4 => x.fmin y
  | 5 => x.fmax y
  | 6 => x.absv
  | 7 => x.negate
  | 8 => vrcpF x
  | 9 => vexp2F x
  | 10 => vlog2F x
  | 11 => vtanhF x
  | 12 => vsigmF x
  | 13 => vclampF x y.absv.negate y.absv
  | 14 =>
    match y with
    | .nan => .nan
    | .inf s => vscaleF x (if s then -(2 ^ 31) else 2 ^ 31 - 1)
    | .fin s m e =>
      let t : Int := if atLeastPow m e 31 then 2 ^ 31 - 1 else (m * pow2Num e / pow2Den e : Nat)
      vscaleF x (if s then -t else t)
  | _ => x

/-! Draw records. -/

/-- The fields of a DRAW64 element (Table 11-3). -/
structure Draw where
  l : FV
  g : Bool
  ix : Nat
deriving DecidableEq, Repr
def drawNone : Nat := 0x7FFFFFFF
def Draw.ofCode (c : Nat) : Draw := ⟨f32 (c / 2 ^ 32), decide (c / 2 ^ 31 % 2 = 1), c % 2 ^ 31⟩
def Draw.code (d : Draw) : Nat := f32c d.l * 2 ^ 32 + (if d.g then 2 ^ 31 else 0) + d.ix % 2 ^ 31
def Draw.zeroMass (d : Draw) : Bool := d.ix == drawNone || d.l == .inf true || d.l.isNan
def Draw.zero (g : Bool) : Draw := ⟨.inf true, g, drawNone⟩

/-- log₂(1 + 2^d) for d ≤ 0, rounded to FP32. -/
def logOnePlus (d : FV) : FV :=
  match d with
  | .fin s m e =>
    if m = 0 then .fin false 1 0
    else if atLeastPow m e 8 then .fin false 0 0
    else
      let x := approxExp2 s m e
      match (FV.fin false x.1 x.2).add (.fin false 1 0) with
      | .fin _ n q => fp32.round .rne (approxLog2 n q)
      | _ => .nan
  | _ => .fin false 0 0

/-- floor(2^x × 2^32), at most 2^32. -/
def drawThreshold (x : FV) : Nat :=
  match x with
  | .fin s m e =>
    if m ≠ 0 ∧ !s then 2 ^ 32
    else if atLeastPow m e 8 then 0
    else let r := approxExp2 s m e; min (2 ^ 32) (r.1 * pow2Num (r.2 + 32) / pow2Den (r.2 + 32))
  | .inf s => if s then 0 else 2 ^ 32
  | .nan => 0

/-- `merge_draw` (R202): the record and whether DRAW_FLAG is set; none is DRAW_INVALID. -/
def mergeDraw (key c : BitVec 32) (a b : Draw) : Option (Draw × Bool) :=
  let flag := a.l.isNan || b.l.isNan
  if a.zeroMass && b.zeroMass then some (Draw.zero (a.g && b.g), flag)
  else if a.zeroMass then some (b, flag)
  else if b.zeroMass then some (a, flag)
  else if a.g ≠ b.g then none
  else if a.g then some (if a.l.lt b.l || (a.l.eqv b.l && b.ix < a.ix) then b else a, flag)
  else
    let u := (mix (key ^^^ c)).toNat
    let lt : FV × Nat :=
      if a.l.isInf && b.l.isInf then (.inf false, 2 ^ 31)
      else if b.l.isInf then (.inf false, 2 ^ 32)
      else if a.l.isInf then (.inf false, 0)
      else
        let hi := a.l.fmax b.l
        let lo := a.l.fmin b.l
        let l := fp32.round .rne (hi.add (logOnePlus (lo.add hi.negate)))
        (l, drawThreshold (b.l.add l.negate))
    some (⟨lt.1, false, if u < lt.2 then b.ix else a.ix⟩, flag)

/-- `merge_draw` of two records, `oa` and `ob` saying which of them has bits that nothing has written: such a record takes part with the
G bit that raises no fault (00 R6). -/
def mergeOpen (key c : BitVec 32) (a b : Draw) (oa ob : Bool) : Option (Draw × Bool) :=
  (mergeDraw key c a b).or
    (if oa then mergeDraw key c { a with g := b.g } b else if ob then mergeDraw key c a { b with g := a.g } else none)

/-- One level of the tree: merge neighbours, taking positions from `pos`. -/
def mergeLevel (key : BitVec 32) (pos : Nat) : List Draw → List Draw × Bool
  | a :: b :: t =>
    let r := (mergeDraw key (BitVec.ofNat 32 pos) a b).getD (Draw.zero false, false)
    let x := mergeLevel key (pos + 1) t
    (r.1 :: x.1, r.2 || x.2)
  | l => (l, false)
/-- All levels (R204), `k` of them. -/
def mergeTree (key : BitVec 32) : Nat → Nat → List Draw → Draw × Bool
  | 0, _, l => (l.headD (Draw.zero false), false)
  | k + 1, pos, l =>
    let x := mergeLevel key pos l
    let y := mergeTree key k (pos + l.length / 2) x.1
    (y.1, x.2 || y.2)

/-- The least k with n ≤ 2^k. -/
def log2Up (n : Nat) : Nat := if n ≤ 1 then 0 else Nat.log2 (n - 1) + 1

/-- x × log₂e ÷ T rounded to FP32 (Table 11-4); T positive. -/
def logitScale (x t : FV) : FV :=
  match x, t with
  | .inf s, _ => .inf s
  | .fin s _ _, .inf _ => .fin s 0 0
  | .fin s m e, .fin _ n g => if m = 0 then x else fp32.roundQ .rne s (m * fxOne) (n * ln2) (e - g)
  | _, _ => .nan

/-- A leaf of VRDRAW (R203) and whether it sets DRAW_FLAG. -/
def drawLeaf (t : FV) (ix : Nat) (x : FV) : Draw × Bool :=
  if t.isNan || (t.neg? && !t.isZero) then (Draw.zero false, false)
  else if x.isNan then (Draw.zero t.isZero, true)
  else
    let d : Draw := if t.isZero then ⟨x, true, ix⟩ else ⟨logitScale x t, false, ix⟩
    if d.zeroMass then (Draw.zero t.isZero, false) else (d, false)

/-- The row result of VRDRAW: leaves padded to 2^k. -/
def drawRow (key : BitVec 32) (t : FV) (base pos k : Nat) (xs : List FV) : Draw × Bool :=
  let ls := ((upFrom 0 xs.length).zip xs).map fun (j, x) => drawLeaf t ((base + j) % 2 ^ 31) x
  let pad := List.replicate (2 ^ k - xs.length) (Draw.zero t.isZero)
  let r := mergeTree key k pos (ls.map (·.1) ++ pad)
  (r.1, r.2 || ls.any (·.2))

/-- VRLSE (R198). -/
def rlse (xs : List FV) : FV :=
  if xs.any (·.isNan) then .nan
  else if xs.any (fun x => x == .inf false) then .inf false
  else
    let fs := xs.filter fun x => !x.isInf
    match fs with
    | [] => .inf true
    | x0 :: _ =>
      let m := fs.foldl (fun m x => if m.lt x then x else m) x0
      let sum := fs.foldl (fun acc x =>
        match x.add m.negate with
        | .fin s n e => if atLeastPow n e 9 then acc else let r := approxExp2 s n e; acc.add (.fin false r.1 r.2)
        | _ => acc) FV.zero
      match sum with
      | .fin _ n e => bounded (Config.vrlse (xs.map code32)) (m.add (approxLog2 n e)) 2 (.fin true 1 0)
      | _ => .nan

/-- An exact run sum (R60, R196): NaN and infinities as those rules give; −0 only when every term is −0. -/
def runSum (ts : List FV) : FV :=
  if ts.any (·.isNan) then .nan
  else
    let p := ts.any fun x => x == .inf false
    let n := ts.any fun x => x == .inf true
    if p && n then .nan else if p then .inf false else if n then .inf true
    else match ts with
      | [] => FV.zero
      | t :: r => r.foldl FV.add t

end Sys2Proof.Machine
end

