-- ==== Sys2Proof/Machine/VecCompute.lean ====
section
/-! DEFINITION. What a vector or matrix operation writes when it completes (09 R164 to R171, 10 R175 to R190, 11 R195 to R212,
08 R155 to R157). -/
namespace Sys2Proof.Machine

/-- New tile contents, precision events, whether DRAW_FLAG is set. -/
structure EngOut where
  tiles : List (Nat × Tile) := []
  events : Nat := 0
  drawFlag : Bool := false
deriving DecidableEq, Repr

/-- The CODE_POLICY fault of a code read at a position (03 R47). -/
def policyFault (pos c : Nat) : FaultRec :=
  { cause := 0x11, field := BitVec.ofNat 4 fPOLICY, info := shapeInfo c 0 false none pos }
def rd {α : Type} (pos : Nat) (x : Dec α) : Except FaultRec α := match x with | .ok v => .ok v | .error c => .error (policyFault pos c)

/-- The captured bank a format decodes through (03 R48, R49). -/
def EOp.bank (op : EOp) (f : Nat) : List Nat :=
  if isCT f then (upFrom (if f = 0x12 then 16 else 0) 16).map fun i => (mget 0 op.banks i).toNat else []

/-- The operand at a position, in tile register `t`. -/
def EOp.view (op : EOp) (tiles : Nat → Tile) (pos t : Nat) : View :=
  let w := op.types.getD pos 0
  let e := op.exts.getD pos []
  { tile := tiles t, word := w, ext := e, frame := frameOf w e, bank := op.bank (TW.fmt w) }

/-- The index of a broadcast operand (10 R176). -/
def bix (ext ix : List Nat) : List Nat := (ext.zip ix).map fun (e, i) => if e = 1 then 0 else i

def EOp.vslot (op : EOp) : VSlot := (vFields op.word).2
def EOp.mslot (op : EOp) : MSlot := (mFields op.word).2
def EOp.cslot (op : EOp) : CSlot := (cFields op.word).2

/-- The slot's rounding (03 R54). -/
def EOp.rnd (op : EOp) (default : Nat) : Rnd :=
  let r := op.vslot.rnd.toNat
  { mode := if r = 3 then default else r, key := op.key, c := op.c0 }
def Rnd.inner (r : Rnd) : RMode := if r.mode = 1 then .rz else .rne

/-- s[sx] read as FP32. -/
def EOp.sxF (op : EOp) : FV := f32 op.capA.toNat

/-- Deliver values into td (R177, R195). -/
def deliverVals (d : View) (t : Nat) (r : Rnd) (narrow : Bool) (vals : List (List Nat × FV)) : EngOut :=
  let c := convert d r narrow vals none
  { tiles := [(t, (d.write c).tile)], events := c.events }

/-- Elementwise arithmetic with its chain (R177, R180 to R182).  `f` gets whether its own rounding is stochastic.  Of several reserved codes
that an operation reads, the one of the first element in row-major order is reported, and of one element that of the lowest position the
opcode reads first (DESIGN CHOICE, log 101). -/
def elementwise (tiles : Nat → Tile) (op : EOp) (tri : Bool) (f : Bool → List Nat → Except FaultRec FV) : Except FaultRec EngOut := do
  let v := op.vslot
  let d := op.view tiles 0 v.td.toNat
  let c := op.view tiles 3 v.tc.toNat
  let r := op.rnd 0
  let o2 := v.op2.toNat
  let o3 := v.op3.toNat
  let vals ← (indices d.ext).mapM fun ix => do
    let x ← f (r.mode == 2 && o2 == 0) ix
    if o2 = 0 then .ok (ix, x) else
    let y ← (if tri || !(VSlot.binaryCode v.op2) then .ok op.sxF else rd 3 (c.f32 (bix c.ext ix)) : Except FaultRec FV)
    let x := chainStage o2 (r.mode == 2 && o3 == 0) (fp32.round r.inner x) y
    if o3 = 0 then .ok (ix, x) else
    .ok (ix, chainStage o3 (r.mode == 2) (fp32.round r.inner x) op.sxF)
  .ok (deliverVals d v.td.toNat r (isNarrow d.fmt) vals)

def elem1 (f : FV → FV) (tiles : Nat → Tile) (op : EOp) : Except FaultRec EngOut :=
  let a := op.view tiles 1 op.vslot.ta.toNat
  elementwise tiles op false fun _ ix => do .ok (f (← rd 1 (a.f32 (bix a.ext ix))))
/-- VSQRT: correctly rounded to FP32 in the slot's mode; as the last stage, that value is rounded into td (R182). -/
def elemSqrt (tiles : Nat → Tile) (op : EOp) : Except FaultRec EngOut :=
  let a := op.view tiles 1 op.vslot.ta.toNat
  let d := op.view tiles 0 op.vslot.td.toNat
  elementwise tiles op false fun _ ix => do
    let x := FV.sqrt (← rd 1 (a.f32 (bix a.ext ix)))
    .ok (if op.vslot.op2 = 0 ∧ d.fmt ≠ 1 then fp32.round (op.rnd 0).inner x else x)
def elem2 (f : Bool → FV → FV → FV) (tiles : Nat → Tile) (op : EOp) : Except FaultRec EngOut :=
  let a := op.view tiles 1 op.vslot.ta.toNat
  let b := op.view tiles 2 op.vslot.tb.toNat
  elementwise tiles op false fun sr ix => do .ok (f sr (← rd 1 (a.f32 (bix a.ext ix))) (← rd 2 (b.f32 (bix b.ext ix))))
def elem3 (f : Bool → FV → FV → FV → FV) (tiles : Nat → Tile) (op : EOp) : Except FaultRec EngOut :=
  let a := op.view tiles 1 op.vslot.ta.toNat
  let b := op.view tiles 2 op.vslot.tb.toNat
  let c := op.view tiles 3 op.vslot.tc.toNat
  elementwise tiles op true fun sr ix => do
    .ok (f sr (← rd 1 (a.f32 (bix a.ext ix))) (← rd 2 (b.f32 (bix b.ext ix))) (← rd 3 (c.f32 (bix c.ext ix))))
def elemScale (tiles : Nat → Tile) (op : EOp) : Except FaultRec EngOut :=
  let a := op.view tiles 1 op.vslot.ta.toNat
  let b := op.view tiles 2 op.vslot.tb.toNat
  elementwise tiles op false fun _ ix => do .ok (vscaleF (← rd 1 (a.f32 (bix a.ext ix))) (← rd 2 (b.int (bix b.ext ix))))
def elemSel (tiles : Nat → Tile) (op : EOp) : Except FaultRec EngOut :=
  let a := op.view tiles 1 op.vslot.ta.toNat
  let b := op.view tiles 2 op.vslot.tb.toNat
  let c := op.view tiles 3 op.vslot.tc.toNat
  elementwise tiles op true fun _ ix => do
    let k ← rd 1 (a.int (bix a.ext ix))
    let x ← rd 2 (b.f32 (bix b.ext ix))
    let y ← rd 3 (c.f32 (bix c.ext ix))
    .ok (if k ≠ 0 then x else y)

/-- Bitwise forms on codes (R183). -/
def elemBits (f : (w x y : Nat) → Bool → Nat) (tiles : Nat → Tile) (op : EOp) : Except FaultRec EngOut :=
  let v := op.vslot
  let a := op.view tiles 1 v.ta.toNat
  let b := op.view tiles 2 v.tb.toNat
  let d := op.view tiles 0 v.td.toNat
  let w := fmtBits a.fmt
  let codes := (indices d.ext).map fun ix => (ix, f w (a.code ix) (b.code ix) (isSigned a.fmt) % 2 ^ w)
  .ok { tiles := [(v.td.toNat, (codes.foldl (fun d x => d.setCode x.1 x.2) d).tile)] }
def bitsShr (w x y : Nat) (signed : Bool) : Nat :=
  if signed then unsgn w (sgn w x / (2 ^ (y % w) : Nat)) else x / 2 ^ (y % w)

/-- The relations of VCMP (R184). -/
def cmpRel (c : Nat) (a b : FV) : Bool :=
  let un := a.isNan || b.isNan
  match c with
  | 0 => a.eqv b
  | 1 => !a.eqv b
  | 2 => a.lt b
  | 3 => !un && !b.lt a
  | 4 => b.lt a
  | 5 => !un && !a.lt b
  | 6 => !un
  | _ => un
def elemCmp (tiles : Nat → Tile) (op : EOp) : Except FaultRec EngOut := do
  let v := op.vslot
  let a := op.view tiles 1 v.ta.toNat
  let b := op.view tiles 2 v.tb.toNat
  let d := op.view tiles 0 v.td.toNat
  let codes ← (indices d.ext).mapM fun ix => do
    let x ← rd 1 (a.f32 (bix a.ext ix))
    let y ← rd 2 (b.f32 (bix b.ext ix))
    .ok (ix, if cmpRel (op.capA.toNat % 8) x y then 1 else 0)
  .ok { tiles := [(v.td.toNat, (d.writeExact codes).tile)] }

/-- Fills (R186). -/
def fillBcast (tiles : Nat → Tile) (op : EOp) : Except FaultRec EngOut :=
  let v := op.vslot
  let d := op.view tiles 0 v.td.toNat
  if d.fmt = 0x13 then
    .ok { tiles := [(v.td.toNat, ((indices d.ext).foldl (fun d ix => d.setCode ix op.capA.toNat) d).tile)] }
  else
    let x := if isInteger d.fmt then FV.ofInt (sgn 64 op.capA.toNat) else op.sxF
    .ok (deliverVals d v.td.toNat (op.rnd 0) false ((indices d.ext).map fun ix => (ix, x)))
def fillIota (tiles : Nat → Tile) (op : EOp) : Except FaultRec EngOut :=
  let v := op.vslot
  let d := op.view tiles 0 v.td.toNat
  if d.fmt = 0x09 then
    .ok { tiles := [(v.td.toNat, (d.writeExact ((indices d.ext).map fun ix => (ix, (op.capA.toNat + ix.getLastD 0) % 2 ^ 32))).tile)] }
  else .ok (deliverVals d v.td.toNat (op.rnd 0) false
    ((indices d.ext).map fun ix => (ix, op.sxF.add (FV.ofInt (ix.getLastD 0)))))
def fillMask (tiles : Nat → Tile) (op : EOp) : Except FaultRec EngOut :=
  let v := op.vslot
  let d := op.view tiles 0 v.td.toNat
  .ok { tiles := [(v.td.toNat,
    (d.writeExact ((indices d.ext).map fun ix => (ix, if ix.getLastD 0 < op.capA.toNat then 1 else 0))).tile)] }

/-- The blocks of scales that bound extents meet. -/
def View.blocks (v : View) : List (List Nat) := if v.geom = 0 || prod v.ext = 0 then [] else indices (blockDims v.geom v.ext)

/-- Codes and scales copied bit for bit (R187). -/
def moveAll (a d : View) : View :=
  let d' := (indices a.ext).foldl (fun d ix => d.setCode ix (a.code ix)) d
  a.blocks.foldl (fun d b => d.setScale b (a.scaleCode b)) d'
def moveV (tiles : Nat → Tile) (op : EOp) : Except FaultRec EngOut :=
  let v := op.vslot
  .ok { tiles := [(v.td.toNat, (moveAll (op.view tiles 1 v.ta.toNat) (op.view tiles 0 v.td.toNat)).tile)] }

/-- VCVT (R188). -/
def cvtV (tiles : Nat → Tile) (op : EOp) : Except FaultRec EngOut := do
  let v := op.vslot
  let a := op.view tiles 1 v.ta.toNat
  let d := op.view tiles 0 v.td.toNat
  let vals ← (indices d.ext).mapM fun ix => do .ok (ix, ← rd 1 (a.exact ix))
  .ok (deliverVals d v.td.toNat (op.rnd 0) (isNarrow d.fmt) vals)
/-- The scale VCVTS writes for a supplied value, and whether its block is written as zero (R189). -/
def suppliedScale (f g : Nat) (x : FV) : Nat × Bool :=
  let e8 := g ≠ 1 && scaleE8M0 f
  match x with
  | .fin _ m e =>
    if m = 0 then (if e8 then 0xFF else 0, true)
    else if e8 then (clampE8M0 (ceilLog2 m 1 e), false)
    else let ff := if g = 1 then fp32 else bf16; (min (ff.mag (gridRound ff.p ff.emin .up m 1 e)) ff.max, false)
  | _ => (if e8 then 0xFF else 0, true)
def cvtsV (tiles : Nat → Tile) (op : EOp) : Except FaultRec EngOut := do
  let v := op.vslot
  let a := op.view tiles 1 v.ta.toNat
  let b := op.view tiles 2 v.tb.toNat
  let d := op.view tiles 0 v.td.toNat
  let vals ← (indices d.ext).mapM fun ix => do .ok (ix, ← rd 1 (a.exact ix))
  let sup := fun blk => suppliedScale d.fmt d.geom (f32 (b.code blk))
  let c := convert d (op.rnd 0) (isNarrow d.fmt) vals (some sup)
  .ok { tiles := [(v.td.toNat, (d.write c).tile)], events := c.events }
/-- VCVTQ (R57, R190). -/
def cvtqV (tiles : Nat → Tile) (op : EOp) : Except FaultRec EngOut := do
  let v := op.vslot
  let a := op.view tiles 1 v.ta.toNat
  let b := op.view tiles 2 v.tb.toNat
  let d := op.view tiles 0 v.td.toNat
  let ys ← (indices d.ext).mapM fun ix => do .ok (ix, fadd32 .rne (← rd 1 (a.exact ix)) (f32 (b.code ix)))
  let c := convert d (op.rnd 2) (isNarrow d.fmt) ys none
  let res (ix : List Nat) (y : FV) : Nat :=
    f32c (fp32.round .rne (y.add (((c.deq.find? fun x => x.1 == ix).map (·.2)).getD FV.nan).negate))
  let b' := ys.foldl (fun b x => b.setCode x.1 (res x.1 x.2)) b
  .ok { tiles := [(v.td.toNat, (d.write c).tile), (v.tb.toNat, b'.tile)], events := c.events }

/-- The outer indices of rows, and a row's values. -/
def View.rows (v : View) : List (List Nat) := indices v.ext.dropLast
def View.rowF32 (v : View) (pos : Nat) (o : List Nat) : Except FaultRec (List FV) :=
  (upFrom 0 (v.ext.getLastD 1)).mapM fun j => rd pos (v.f32 (if v.ext.isEmpty then [] else o ++ [j]))

/-- Runs of 32 from the front. -/
def runs32 {α : Type} : Nat → List α → List (List α)
  | 0, _ => []
  | _, [] => []
  | n + 1, l => l.take 32 :: runs32 n (l.drop 32)
/-- VRSUM of a row (R196). -/
def rowSum (xs : List FV) : FV :=
  match (runs32 xs.length xs).map fun r => fp32.round .rne (runSum r) with
  | [] => FV.zero
  | v :: vs => vs.foldl (fun s x => fadd32 .rne s x) v
/-- VRMAX and VRMIN of a row (R197). -/
def rowMax (xs : List FV) : FV := match xs with | [] => .inf true | x :: r => r.foldl FV.fmax (if x.isNan then .nan else x)
def rowMin (xs : List FV) : FV := match xs with | [] => .inf false | x :: r => r.foldl FV.fmin (if x.isNan then .nan else x)
/-- VRARGMAX of a row (R197). -/
def rowArgmax (xs : List FV) : Nat :=
  let best := ((upFrom 0 xs.length).zip xs).foldl (fun (b : Option (Nat × FV)) (x : Nat × FV) =>
    if x.2.isNan then b else match b with | none => some x | some y => if y.2.lt x.2 then some x else b) none
  match best with
  | some b => b.1
  | none => if xs.isEmpty then 0xFFFFFFFF else 0

def reduceV (f : List FV → FV) (tiles : Nat → Tile) (op : EOp) : Except FaultRec EngOut := do
  let v := op.vslot
  let a := op.view tiles 1 v.ta.toNat
  let d := op.view tiles 0 v.td.toNat
  let vals ← a.rows.mapM fun o => do .ok (o ++ [0], f (← a.rowF32 1 o))
  .ok (deliverVals d v.td.toNat (op.rnd 0) (isNarrow d.fmt) vals)
def argmaxV (tiles : Nat → Tile) (op : EOp) : Except FaultRec EngOut := do
  let v := op.vslot
  let a := op.view tiles 1 v.ta.toNat
  let d := op.view tiles 0 v.td.toNat
  let codes ← a.rows.mapM fun o => do .ok (o ++ [0], rowArgmax (← a.rowF32 1 o))
  .ok { tiles := [(v.td.toNat, (d.writeExact codes).tile)] }
/-- Inclusive prefix sums (R199). -/
def scanRow (p : Option FV) : List FV → List FV
  | [] => []
  | x :: xs => let q := match p with | none => x | some s => fadd32 .rne s x; q :: scanRow (some q) xs
def scanV (tiles : Nat → Tile) (op : EOp) : Except FaultRec EngOut := do
  let v := op.vslot
  let a := op.view tiles 1 v.ta.toNat
  let d := op.view tiles 0 v.td.toNat
  let rows ← a.rows.mapM fun o => do
    let xs := scanRow none (← a.rowF32 1 o)
    .ok (((upFrom 0 xs.length).zip xs).map fun (j, x) => (if a.ext.isEmpty then [] else o ++ [j], x))
  .ok (deliverVals d v.td.toNat (op.rnd 0) (isNarrow d.fmt) rows.flatten)
/-- VRDRAW (R203 to R205). -/
def rdrawV (tiles : Nat → Tile) (op : EOp) : Except FaultRec EngOut := do
  let v := op.vslot
  let a := op.view tiles 1 v.ta.toNat
  let d := op.view tiles 0 v.td.toNat
  let t := op.sxF
  let bad := t.isNan || (t.neg? && !t.isZero)
  let k := log2Up (a.ext.getLastD 1)
  let rows ← ((upFrom 0 a.rows.length).zip a.rows).mapM fun (i, o) => do
    let r := drawRow op.key t (op.capA.toNat / 2 ^ 32 % 2 ^ 31) ((op.c0.toNat + i * (2 ^ k - 1)) % 2 ^ 32) k (← a.rowF32 1 o)
    .ok (o ++ [0], r.1.code, r.2)
  .ok { tiles := [(v.td.toNat, (rows.foldl (fun d x => d.setCode x.1 x.2.1) d).tile)]
        drawFlag := bad || rows.any (·.2.2) }
/-- VDMERGE (R206, R207). -/
def dmergeV (tiles : Nat → Tile) (op : EOp) : Except FaultRec EngOut := do
  let v := op.vslot
  let a := op.view tiles 1 v.ta.toNat
  let b := op.view tiles 2 v.tb.toNat
  let d := op.view tiles 0 v.td.toNat
  let ixs := indices a.ext
  let out ← ((upFrom 0 ixs.length).zip ixs).mapM fun (p, ix) =>
    match mergeOpen op.key (op.c0 + BitVec.ofNat 32 p) (Draw.ofCode (a.code ix)) (Draw.ofCode (b.code ix)) (a.isOpen ix) (b.isOpen ix) with
    | none => (.error { cause := 0x0F, info := BitVec.ofNat 64 p } : Except FaultRec (List Nat × Nat × Bool))
    | some r => .ok (ix, r.1.code, r.2)
  .ok { tiles := [(v.td.toNat, (out.foldl (fun d x => d.setCode x.1 x.2.1) d).tile)], drawFlag := out.any (·.2.2) }

/-- VCOMPACT (R208). -/
def compactV (tiles : Nat → Tile) (op : EOp) : Except FaultRec EngOut := do
  let v := op.vslot
  let a := op.view tiles 1 v.ta.toNat
  let b := op.view tiles 2 v.tb.toNat
  let d := op.view tiles 0 v.td.toNat
  let n := a.ext.getLastD 1
  let at' (o : List Nat) (j : Nat) : List Nat := if a.ext.isEmpty then [] else o ++ [j]
  let rows ← a.rows.mapM fun o => do
    let keep ← (upFrom 0 n).mapM fun j => do .ok (j, ← rd 2 (b.int (at' o j)))
    .ok (o, (keep.filter fun x => x.2 ≠ 0).map (·.1))
  if a.geom ≤ 1 then
    let codes := rows.flatMap fun (o, js) => (upFrom 0 n).map fun j =>
      (at' o j, match js[j]? with | some s => a.code (at' o s) | none => 0)
    let d' := codes.foldl (fun d x => d.setCode x.1 x.2) d
    .ok { tiles := [(v.td.toNat, (a.blocks.foldl (fun d k => d.setScale k (a.scaleCode k)) d').tile)] }
  else
    let vals ← rows.mapM fun (o, js) => (upFrom 0 n).mapM fun j => do
      let x ← (match js[j]? with | some s => rd 1 (a.exact (at' o s)) | none => .ok FV.zero : Except FaultRec FV)
      .ok (at' o j, x)
    .ok (deliverVals d v.td.toNat (op.rnd 0) (isNarrow d.fmt) vals.flatten)
/-- The element of ta that VPERM takes for an element of tb, if there is one (R209). -/
def permAt (a b : View) (ix : List Nat) : Dec (Option (List Nat)) := do
  let n : Int := if a.ext.isEmpty then 1 else a.ext.getLastD 1
  let i ← b.int ix
  let o := bix a.ext.dropLast ix.dropLast
  let out := decide (i < 0) || decide (n ≤ i) || (o.zip a.ext).any fun (x, e) => decide (e ≤ x)
  .ok (if out then none else some (if a.ext.isEmpty then [] else o ++ [i.toNat]))
/-- VPERM (R209). -/
def permV (tiles : Nat → Tile) (op : EOp) : Except FaultRec EngOut := do
  let v := op.vslot
  let a := op.view tiles 1 v.ta.toNat
  let b := op.view tiles 2 v.tb.toNat
  let d := op.view tiles 0 v.td.toNat
  let src ← (indices b.ext).mapM fun ix => do .ok (ix, ← rd 2 (permAt a b ix))
  if d.fmt = a.fmt && d.geom = a.geom && a.geom ≤ 1 then
    let d' := src.foldl (fun d x => d.setCode x.1 (match x.2 with | some s => a.code s | none => 0)) d
    .ok { tiles := [(v.td.toNat, (if a.geom = 1 && prod d.ext != 0 then d'.setScale [] (a.scaleCode []) else d').tile)] }
  else
    let vals ← src.mapM fun (ix, s) => do
      let x ← (match s with | some s => rd 1 (a.exact s) | none => .ok FV.zero : Except FaultRec FV)
      .ok (ix, x)
    .ok (deliverVals d v.td.toNat (op.rnd 0) (isNarrow d.fmt) vals)
/-- VHIST (R210). -/
def histV (tiles : Nat → Tile) (op : EOp) : Except FaultRec EngOut := do
  let v := op.vslot
  let a := op.view tiles 1 v.ta.toNat
  let d := op.view tiles 0 v.td.toNat
  let xs ← (indices a.ext).mapM fun ix => rd 1 (a.int ix)
  let codes := (upFrom 0 (d.ext.getLastD 0)).map fun i =>
    ([i], ((if op.capA.toNat % 2 = 1 then d.code [i] else 0) + (xs.filter fun x => x == (i : Int)).length) % 2 ^ 32)
  .ok { tiles := [(v.td.toNat, (d.writeExact codes).tile)] }
/-- The records of VROUTE (R212): counts so far, from record n on. -/
def routeRecs : List (Nat × Int × Nat) → List Int → List (List Nat)
  | [], _ => []
  | (tok, x, w) :: t, seen =>
    if 0 ≤ x ∧ x ≤ 0xFFFE then
      [tok, x.toNat + (seen.filter (· == x)).length * 2 ^ 16, w, 0] :: routeRecs t (x :: seen)
    else [tok, 0xFFFFFFFF, w, 2] :: routeRecs t seen
def routeV (tiles : Nat → Tile) (op : EOp) : Except FaultRec EngOut := do
  let v := op.vslot
  let a := op.view tiles 1 v.ta.toNat
  let b := op.view tiles 2 v.tb.toNat
  let d := op.view tiles 0 v.td.toNat
  let es ← (indices a.ext).mapM fun ix => do
    let x ← rd 1 (a.int ix)
    .ok ((op.capA.toNat + linear a.ext.dropLast ix.dropLast) % 2 ^ 32, x, f32c (← rd 2 (b.f32 ix)))
  let words := (routeRecs es []).flatten
  let fit := (indices d.ext).take (d.count / 4 * 4)
  .ok { tiles := [(v.td.toNat, (d.writeExact (fit.zip words)).tile)] }

/-- Engine forms of VRESHAPE and VCAST, and VTRANS (08 R155 to R157). -/
def reshapeV (tiles : Nat → Tile) (op : EOp) : Except FaultRec EngOut :=
  let v := op.vslot
  let a := op.view tiles 1 v.ta.toNat
  let d := op.view tiles 0 v.td.toNat
  let d1 := ((indices d.ext).zip (indices a.ext)).foldl (fun d x => d.setCode x.1 (a.code x.2)) d
  .ok { tiles := [(v.td.toNat, ((d.blocks.zip a.blocks).foldl (fun d x => d.setScale x.1 (a.scaleCode x.2)) d1).tile)] }
def swapLast {α : Type} (l : List α) : List α := match l.reverse with | c :: r :: o => (r :: c :: o).reverse | _ => l
/-- VTRANS (08 R156): codes unchanged, or each element as the vector engine reads it (03 R51, 10 R175), re-blocked. -/
def transV (tiles : Nat → Tile) (op : EOp) : Except FaultRec EngOut := do
  let v := op.vslot
  let a := op.view tiles 1 v.ta.toNat
  let d := op.view tiles 0 v.td.toNat
  if a.geom = d.geom && a.geom ≤ 1 then
    let d1 := (indices d.ext).foldl (fun d' ix => d'.setCode ix (a.code (swapLast ix))) d
    .ok { tiles := [(v.td.toNat, (d.blocks.foldl (fun d' k => d'.setScale k (a.scaleCode k)) d1).tile)] }
  else
    let vals ← (indices d.ext).mapM fun ix => do .ok (ix, ← rd 1 (a.f32 (swapLast ix)))
    .ok (deliverVals d v.td.toNat { mode := 0 } (isNarrow d.fmt) vals)
/-- The bits of a row as one number, and a number cut into codes. -/
def rowBits (w : Nat) : List Nat → Nat
  | [] => 0
  | c :: cs => c % 2 ^ w + 2 ^ w * rowBits w cs
/-- DEDUCED, log 16. -/
def castV (tiles : Nat → Tile) (op : EOp) : Except FaultRec EngOut :=
  let v := op.vslot
  let a := op.view tiles 1 v.ta.toNat
  let d := op.view tiles 0 v.td.toNat
  let wa := fmtBits a.fmt
  let wd := fmtBits d.fmt
  let d1 :=
    if wa = wd then (indices a.ext).foldl (fun d ix => d.setCode ix (a.code ix)) d
    else a.rows.foldl (fun d o =>
      let n := rowBits wa ((upFrom 0 (a.ext.getLastD 0)).map fun j => a.code (o ++ [j]))
      (upFrom 0 (d.ext.getLastD 0)).foldl (fun d j => d.setCode (o ++ [j]) (n / 2 ^ (j * wd))) d) d
  let sa := scaleBytes a.fmt a.geom
  let d2 :=
    if sa = scaleBytes d.fmt d.geom then a.blocks.foldl (fun d k => d.setScale k (a.scaleCode k)) d1
    else a.blocks.foldl (fun d k =>
      { d with tile := { d.tile with scales := msetN d.tile.scales (a.scaleOff k) (a.tile.scaleBytesAt (a.scaleOff k) sa) } }) d1
  .ok { tiles := [(v.td.toNat, d2.tile)] }

/-! The matrix engine. -/

/-- term, reduce and combine of Table 09-5. -/
structure MForm where
  z : Bool := false
  term : FV → FV → FV
  iterm : Int → Int → Int
  reduce : List FV → FV := runSum
  combine : FV → FV → FV := fun acc x => fadd32 .rne acc x

def mmaForm : MForm := { term := FV.mul, iterm := (· * ·) }
def mmazForm : MForm := { mmaForm with z := true }
def absdForm : MForm := { term := fun a b => (a.add b.negate).absv, iterm := fun a b => ((a - b).natAbs : Int) }
def maxpForm : MForm := { term := FV.add, iterm := (· + ·), reduce := rowMax, combine := FV.fmax }
def minpForm : MForm := { term := FV.add, iterm := (· + ·), reduce := rowMin, combine := FV.fmin }

/-- Runs of 32 consecutive k below K. -/
def kRuns (k : Nat) : List (List Nat) := runs32 (k + 1) (upFrom 0 k)

/-- MMA and its relatives (09 R166, R167).  Of several reserved codes that it reads, the first in row-major order of the results, along k and A
before B, is reported (DESIGN CHOICE, log 101). -/
def mmaV (f : MForm) (tiles : Nat → Tile) (op : EOp) : Except FaultRec EngOut := do
  let m := op.mslot
  let bt := m.flags.getLsbD 0
  let a := op.view tiles 1 m.ta.toNat
  let b := op.view tiles 2 m.tb.toNat
  let d := op.view tiles 0 m.td.toNat
  let k := a.ext.getD 1 0
  let bAt (kk j : Nat) : List Nat := if bt then [j, kk] else [kk, j]
  let acc0 (ix : List Nat) : Nat := if f.z then 0 else d.code ix
  let codes ← (indices d.ext).mapM fun ix => do
    let i := ix.getD 0 0
    let j := ix.getD 1 0
    if d.fmt = 0x09 then
      let ts ← (upFrom 0 k).mapM fun kk => do .ok (f.iterm (← rd 1 (a.int [i, kk])) (← rd 2 (b.int (bAt kk j))))
      .ok (ix, unsgn 32 (acc0 ix + ts.foldl (· + ·) 0))
    else
      let r ← (kRuns k).foldlM (fun acc ks => do
        let ts ← ks.mapM fun kk => do .ok (f.term (← rd 1 (a.exact [i, kk])) (← rd 2 (b.exact (bAt kk j))))
        .ok (f.combine acc (fp32.round .rne (f.reduce ts)))) (f32 (acc0 ix))
      .ok (ix, if k = 0 then acc0 ix else f32c r)
  .ok { tiles := [(m.td.toNat, (codes.foldl (fun d x => d.setCode x.1 x.2) d).tile)] }

/-- MRANK and MRANKC (R168). -/
def rankV (col : Bool) (tiles : Nat → Tile) (op : EOp) : Except FaultRec EngOut := do
  let m := op.mslot
  let asc := m.flags.getLsbD 1
  let a := op.view tiles 1 m.ta.toNat
  let d := op.view tiles 0 m.td.toNat
  let n0 := a.ext.getD 0 0
  let n1 := a.ext.getD 1 0
  let at' (g i : Nat) : List Nat := if col then [i, g] else [g, i]
  let groups ← (upFrom 0 (if col then n1 else n0)).mapM fun g => do
    let xs ← (upFrom 0 (if col then n0 else n1)).mapM fun i => do .ok (i, ← rd 1 (a.exact (at' g i)))
    .ok (xs.map fun (i, v) =>
      let c := xs.filter fun (y : Nat × FV) =>
        if FV.isNan v then !y.2.isNan || decide (y.1 < i)
        else !y.2.isNan && ((if asc then y.2.lt v else FV.lt v y.2) || (y.2.eqv v && decide (y.1 < i)))
      (at' g i, c.length))
  .ok { tiles := [(m.td.toNat, (groups.flatten.foldl (fun d x => d.setCode x.1 x.2) d).tile)] }

/-- Does an entry of the table of an MSPARSE over M × K × N apply (R171)? -/
def sparseApplies (mm nn k w : Nat) : Bool :=
  !(w / 2 ^ 31 % 2 = 1 || mm ≤ 32 * (w / 64 % 4) || nn ≤ 32 * (w / 256 % 4) || k ≤ 32 * (w % 64))
/-- Does an MSPARSE read element `ix` of A, or of B at position 2: does an entry apply whose block holds it? -/
def sparseElem (tiles : Nat → Tile) (op : EOp) (pos : Nat) (ix : List Nat) : Bool :=
  let x := op.view tiles 3 op.mslot.tx.toNat
  let a := op.exts.getD 1 []
  let i := (if pos = 2 && op.mslot.flags.getLsbD 0 then ix.reverse else ix).map (· / 32)
  (upFrom 0 (x.ext.getD 0 0)).any fun e =>
    let w := x.code [e]
    sparseApplies (a.getD 0 0) ((op.exts.getD 0 []).getD 1 0) (a.getD 1 0) w &&
      i == (if pos = 1 then [w / 64 % 4, w % 64] else [w % 64, w / 256 % 4])
/-- MSPARSE (R170, R171), entry by entry: the first reserved code in that order is reported (DESIGN CHOICE, log 101). -/
def sparseV (tiles : Nat → Tile) (op : EOp) : Except FaultRec EngOut := do
  let m := op.mslot
  let bt := m.flags.getLsbD 0
  let a := op.view tiles 1 m.ta.toNat
  let b := op.view tiles 2 m.tb.toNat
  let x := op.view tiles 3 m.tx.toNat
  let d := op.view tiles 0 m.td.toNat
  let mm := a.ext.getD 0 0
  let k := a.ext.getD 1 0
  let nn := d.ext.getD 1 0
  let bAt (kk j : Nat) : List Nat := if bt then [j, kk] else [kk, j]
  let d' ← (upFrom 0 (x.ext.getD 0 0)).foldlM (fun (d : View) e => do
    let w := x.code [e]
    let kb := w % 64
    let mb := w / 64 % 4
    let nb := w / 256 % 4
    if !sparseApplies mm nn k w then .ok d
    else
      let ks := upFrom (32 * kb) (min 32 (k - 32 * kb))
      let ixs := (indices [min 32 (mm - 32 * mb), min 32 (nn - 32 * nb)]).map fun l => (32 * mb + l.getD 0 0, 32 * nb + l.getD 1 0)
      ixs.foldlM (fun (d : View) (ij : Nat × Nat) => do
        if d.fmt = 0x09 then
          let ts ← ks.mapM fun kk => do .ok ((← rd 1 (a.int [ij.1, kk])) * (← rd 2 (b.int (bAt kk ij.2))))
          .ok (d.setCode [ij.1, ij.2] (unsgn 32 (d.code [ij.1, ij.2] + ts.foldl (· + ·) 0)))
        else
          let ts ← ks.mapM fun kk => do .ok ((← rd 1 (a.exact [ij.1, kk])).mul (← rd 2 (b.exact (bAt kk ij.2))))
          .ok (d.setCode [ij.1, ij.2] (f32c (fadd32 .rne (f32 (d.code [ij.1, ij.2])) (fp32.round .rne (runSum ts)))))) d) d
  .ok { tiles := [(m.td.toNat, d'.tile)] }

end Sys2Proof.Machine
end

