-- ==== Sys2Proof/Machine/EngineRun.lean ====
section
/-! DEFINITION. The matrix engine and the vector pipes after issue: when an operation starts, what it writes when it completes, and
the faults an engine finds (03 R49, R59; 09 R165 to R171; 10 R173, R174; 12 R223; 14 R267, R268; 17 R329, R334). -/
namespace Sys2Proof.Machine
open Host (Outcome)

/-! The arithmetic of each operation. -/
def fSum (sr : Bool) (a b : FV) : FV := srZero sr (a.add b)
def fDiff (sr : Bool) (a b : FV) : FV := srZero sr (a.add b.negate)
def fProd (_ : Bool) (a b : FV) : FV := a.mul b
def fMin (_ : Bool) (a b : FV) : FV := a.fmin b
def fMax (_ : Bool) (a b : FV) : FV := a.fmax b
def fFma (sr : Bool) (a b c : FV) : FV := srZero sr ((a.mul b).add c)
def fClamp (_ : Bool) (a b c : FV) : FV := vclampF a b c
def bitAnd (_ x y : Nat) (_ : Bool) : Nat := x &&& y
def bitOr (_ x y : Nat) (_ : Bool) : Nat := x ||| y
def bitXor (_ x y : Nat) (_ : Bool) : Nat := x ^^^ y
def bitShl (w x y : Nat) (_ : Bool) : Nat := x * 2 ^ (y % w)

/-- What a vector or matrix operation writes. -/
def computeOp (i : Instr) (tiles : Nat → Tile) (op : EOp) : Except FaultRec EngOut :=
  match i with
  | .vadd _ _ => elem2 fSum tiles op
  | .vsub _ _ => elem2 fDiff tiles op
  | .vmul _ _ => elem2 fProd tiles op
  | .vmin _ _ => elem2 fMin tiles op
  | .vmax _ _ => elem2 fMax tiles op
  | .vfma _ _ => elem3 fFma tiles op
  | .vclamp _ _ => elem3 fClamp tiles op
  | .vscale _ _ => elemScale tiles op
  | .vsel _ _ => elemSel tiles op
  | .vabs _ _ => elem1 FV.absv tiles op
  | .vneg _ _ => elem1 FV.negate tiles op
  | .vrcp _ _ => elem1 vrcpF tiles op
  | .vrsq _ _ => elem1 vrsqF tiles op
  | .vsqrt _ _ => elemSqrt tiles op
  | .vexp2 _ _ => elem1 vexp2F tiles op
  | .vlog2 _ _ => elem1 vlog2F tiles op
  | .vtanh _ _ => elem1 vtanhF tiles op
  | .vsigm _ _ => elem1 vsigmF tiles op
  | .vand _ _ => elemBits bitAnd tiles op
  | .vor _ _ => elemBits bitOr tiles op
  | .vxor _ _ => elemBits bitXor tiles op
  | .vshl _ _ => elemBits bitShl tiles op
  | .vshr _ _ => elemBits bitsShr tiles op
  | .vcmp _ _ => elemCmp tiles op
  | .vbcast _ _ => fillBcast tiles op
  | .viota _ _ => fillIota tiles op
  | .vmask _ _ => fillMask tiles op
  | .vmov _ _ => moveV tiles op
  | .vcvt _ _ => cvtV tiles op
  | .vcvtq _ _ => cvtqV tiles op
  | .vcvts _ _ => cvtsV tiles op
  | .vreshape _ _ => reshapeV tiles op
  | .vtrans _ _ => transV tiles op
  | .vcast _ _ => castV tiles op
  | .vrsum _ _ => reduceV rowSum tiles op
  | .vrmax _ _ => reduceV rowMax tiles op
  | .vrmin _ _ => reduceV rowMin tiles op
  | .vrlse _ _ => reduceV rlse tiles op
  | .vrargmax _ _ => argmaxV tiles op
  | .vrdraw _ _ => rdrawV tiles op
  | .vscan _ _ => scanV tiles op
  | .vdmerge _ _ => dmergeV tiles op
  | .vcompact _ _ => compactV tiles op
  | .vperm _ _ => permV tiles op
  | .vroute _ _ => routeV tiles op
  | .vhist _ _ => histV tiles op
  | .mma _ => mmaV mmaForm tiles op
  | .mmaz _ => mmaV mmazForm tiles op
  | .mabsd _ => mmaV absdForm tiles op
  | .mmaxp _ => mmaV maxpForm tiles op
  | .mminp _ => mmaV minpForm tiles op
  | .mrank _ => rankV false tiles op
  | .mrankc _ => rankV true tiles op
  | .msparse _ => sparseV tiles op
  | _ => .ok {}

/-! Starting. -/
/-- The engines start no task-mode operation of a context that has met an engine fault, or that a PREEMPT has stopped (R329, R334,
R340). -/
def engineStopped (c : Ctx) : Bool := !c.engFault.isEmpty || (!c.handler && c.life != .draining && c.events.contains .preempt)
/-- The tile interlock (R267): no earlier operation of the context still writes what this one touches, or reads what it writes. -/
def interlockFree (ops : List EOp) (o : EOp) : Bool :=
  ops.all fun e => e.cx != o.cx || decide (o.uid ≤ e.uid) || !(overlap e.writes (o.reads ++ o.writes) || overlap e.reads o.writes)
/-- May this operation start: its tokens, its code-table banks, the interlock, and no fence before it (R49, R254, R267, R268). -/
def opReady (m : Mach) (o : EOp) : Bool :=
  let ops := (m.core (coreOf o.cx)).ops
  let c := m.ctx o.cx
  !o.started && !o.posted && !((o.waits ++ o.bankWait).any fun u => ops.any (·.uid == u)) &&
  !c.out.any (fun a => a.blocksLater && decide (a.uid < o.uid)) && (o.handlerOp || !engineStopped c) && interlockFree ops o
def startOp (m : Mach) (o : EOp) : Mach := m.modOp (coreOf o.cx) o.uid fun o => { o with started := true }
/-- The matrix engine and each pipe start and complete their operations in queue order (R165, R173). -/
def startHead (m : Mach) (core : Nat) (q : QKind) : Mach :=
  match ((m.core core).inQueue q).find? fun o => !o.started with
  | some o => if opReady m o then startOp m o else m
  | none => m

/-! Ending. -/
/-- The B operand that an operation of the matrix engine leaves in the array (R166). -/
def loadedB (i : Instr) : Option MSlot :=
  match i with
  | .mma m | .mmaz m | .mabsd m | .mmaxp m | .mminp m | .msparse m | .mbload m => some m
  | _ => none
/-- The staged B (R166): an operation that loads B stages it; a write to its tile, or an operation of another context in the
array, unstages it.  Staging changes timing only, so no other rule reads it. -/
def restage (o : EOp) (b : Option (Nat × Nat × Bool × TypeWord)) : Option (Nat × Nat × Bool × TypeWord) :=
  match loadedB o.instr with
  | some m => some (o.cx, m.tb.toNat, m.flags.getLsbD 0, o.types.getD 2 0)
  | none => b.filter fun x => if x.1 = o.cx then !(opUses o.instr).writes.contains x.2.1 else o.q != .m
/-- An operation leaves: its kd is done (R268). -/
def removeOp (m : Mach) (o : EOp) : Mach :=
  (m.modCore (coreOf o.cx) fun c => { c with ops := c.ops.filter (·.uid != o.uid), staged := restage o c.staged }).modCtx o.cx fun c => setTokenDone c o.kd o.uid
/-- A fault that an engine finds (R329, R334, R335): one of a handler-mode operation fails the launch, any other takes its place among
the context's events and stops its engines until it is written out; a released context takes none (R337).  `gone`: the operation had
completed, so no entry is flagged.  The weight of one that no write-out takes returns to its root (15 R286). -/
def engineFault (m : Mach) (o : EOp) (f : FaultRec) (gone : Bool) : Mach :=
  let k := coreOf o.cx
  let m := m.logFault o.cx f
  if (m.ctx o.cx).released then (if gone then m else removeOp m o)
  else if o.handlerOp then takeFault (if gone then m else (removeOp m o).returnAll (m.ctx o.cx).qwRoot o.weights) o.cx o.q.slotBits f
  else
    let m := if gone then m else m.modCore k fun c => { c with ops := c.ops.filter (·.uid != o.uid) }
    m.modCtx o.cx fun c => { c.addFault (.found o.uid) with engFault := c.engFault ++ [({ o with started := false }, f, gone)] }

/-! What an operation reads (R223; 09 R164, R169 to R172; 10 R191). -/
/-- An operation that reads its destination (09 R164, 11 R210; 16 R321, R325). -/
def readsTd (o : EOp) : Bool :=
  match o.instr with
  | .mma _ => true
  | .mabsd _ => true
  | .mmaxp _ => true
  | .mminp _ => true
  | .msparse _ => true
  | .vhist _ _ => o.capA.getLsbD 0
  | .recvadd _ => true
  | .recvdraw _ => true
  | .ttset _ => let f := TW.fmt (o.types.getD 1 0); f == 1 || f == 9 || f == 0x13
  | _ => false
/-- The operands that an operation reads elements of, with their positions: none of an MBLOAD (R169), none where the result has no
elements, but for the tallies of VHIST and VROUTE, and not what it has consumed. -/
def operandsRead (o : EOp) : List (Nat × Nat) :=
  let u := opUses o.instr
  let src : List (Nat × Nat) := match o.instr with | .mbload _ => [] | .ttset _ => [] | .recv _ => [] | .ttfire _ => o.reads.map fun t => (1, t) | _ => u.reads
  let dst : List (Nat × Nat) := if readsTd o then (match u.td with | some t => [(0, t)] | none => u.writes.map fun t => (1, t)) else []
  let tallies := match o.instr with | .vhist _ _ => true | .vroute _ _ => true | _ => false
  if u.td.isSome && !tallies && prod (o.exts.getD 0 []) = 0 then []
  else (src.filter fun x => !o.kept.any (·.1 == x.2)) ++ dst
/-- The tiles as an operation reads them: its sources as it consumed them. -/
def EOp.tiles (o : EOp) (c : Ctx) (t : Nat) : Tile := ((o.kept.find? (·.1 == t)).map (·.2)).getD (c.tile t)
/-- The window of a copy. -/
def opWindow (m : Mach) (o : EOp) : Window := ((m.launchOf o.cx).map fun l => mget ({} : Window) l.windows o.cslot.w.toNat).getD {}
/-- The row of a GATHER's or SCATTER's window for an index, if it has one (13 R258). -/
def rowAt (w : Window) (x : Nat) : Option Nat :=
  let v := sgn 64 x
  if 0 ≤ v ∧ v < (TW.ext w.ty 0 % 2 ^ 23 : Nat) then some v.toNat else none
/-- Does the operation read this element of an operand?  MSPARSE reads A and B only in the blocks of its applied entries and C only if
it has entries (R171), VPERM and VCOMPACT what they select, SCATTER the rows it stores (13 R258). -/
def readsElem (m : Mach) (o : EOp) (pos : Nat) (ix : List Nat) : Bool :=
  let ts := o.tiles (m.ctx o.cx)
  match o.instr with
  | .msparse _ => if pos = 0 then (o.exts.getD 3 []).headD 0 != 0 else pos == 3 || sparseElem ts o pos ix
  | .vperm _ v => pos != 1 || (indices (o.exts.getD 2 [])).any fun i =>
      match permAt (o.view ts 1 v.ta.toNat) (o.view ts 2 v.tb.toNat) i with | .ok (some s) => s == ix | _ => false
  | .vcompact _ v => pos != 1 || (match (o.view ts 2 v.tb.toNat).int ix with | .ok k => k != 0 | _ => false)
  | .scatter _ => ((o.index[ix.headD 0]?).bind (rowAt (opWindow m o))).isSome
  | _ => true
/-- Does the operation move an operand's codes and scales as they are? -/
def movesCodes (o : EOp) : Bool :=
  let g (p : Nat) := TW.geom (o.types.getD p 0)
  match o.instr with
  | .vmov _ _ => true
  | .vreshape _ _ => true
  | .vcast _ _ => true
  | .vtrans _ _ => g 0 == g 1 && decide (g 1 ≤ 1)
  | .vcompact _ _ => decide (g 1 ≤ 1)
  | .vperm _ _ => g 0 == g 1 && decide (g 1 ≤ 1) && TW.fmt (o.types.getD 0 0) == TW.fmt (o.types.getD 1 0)
  | _ => o.q == .c
/-- The positions whose codes alone are read: topology, conditions, exponents, masks, indices and counts. -/
def unscaled (i : Instr) : List Nat :=
  match i with
  | .msparse _ => [3]
  | .vsel _ _ => [1]
  | .vscale _ _ => [2]
  | .vperm _ _ => [2]
  | .vcompact _ _ => [2]
  | .vroute _ _ => [1]
  | .vhist _ _ => [0, 1]
  | _ => []
/-- Does the operation read a byte of a tile, or of its side-store? -/
def readsByte (m : Mach) (o : EOp) (pos t byte : Nat) : Bool :=
  let v := o.view (o.tiles (m.ctx o.cx)) pos t
  (indices v.ext).any fun ix => readsElem m o pos ix && v.isOpen ix && v.off ix / 8 == byte / (max 1 (fmtBits v.fmt / 8)) * (max 1 (fmtBits v.fmt / 8))
def readsScale (m : Mach) (o : EOp) (pos t byte : Nat) : Bool :=
  let v := o.view (o.tiles (m.ctx o.cx)) pos t
  !(unscaled o.instr).contains pos && v.blocks.any fun b =>
    decide (v.scaleOff b ≤ byte) && decide (byte < v.scaleOff b + scaleBytes v.fmt v.geom) &&
    (movesCodes o || (indices v.ext).any fun ix => blockOf v.geom ix == b && readsElem m o pos ix)
/-- Does the operation decode or encode through a captured code-table bank (03 R48, R49)? -/
def readsBank (m : Mach) (o : EOp) (b : Nat) : Bool :=
  let ct (p : Nat) : Bool := TW.fmt (o.types.getD p 0) == 0x11 + b
  !movesCodes o &&
    ((operandsRead o).any (fun x => ct x.1 && (indices (o.exts.getD x.1 [])).any (readsElem m o x.1)) ||
      ((opUses o.instr).td.isSome && ct 0 && prod (o.exts.getD 0 []) != 0))
/-- An uncorrectable error in a tile register, a side-store or a captured bank that the operation reads (R223). -/
def tileError (m : Mach) (o : EOp) : Option FaultRec :=
  m.errs.findSome? fun e =>
    match e with
    | .tile cx t byte sc => if cx = o.cx ∧ (operandsRead o).any (fun x => x.2 == t && (if sc then readsScale else readsByte) m o x.1 t byte) then
        some { cause := 0x0A, info := BitVec.ofNat 64 (6 + t * 256 + (if sc then 2 ^ 13 else 0)) } else none
    | .bank cx b => if cx = o.cx ∧ readsBank m o b then some { cause := 0x0A, info := 6 } else none
    | _ => none

/-- A tile register takes new contents; the error of a byte is cleared once all of its bits are written over (R223). -/
def Mach.putTile (m : Mach) (cx t : Nat) (x : Tile) : Mach :=
  let m := m.modCtx cx fun c => let y := c.tile t; c.setTile t { y with fill := x.fill, data := x.data, part := x.part, scales := x.scales }
  { m with errs := m.errs.filter fun e => match e with
    | .tile c n i sc => !(c == cx && n == t && (if sc then (mget? x.scales i).isSome else x.openByte i == 0))
    | _ => true }

/-- A result word became degraded after issue: in the register while its word stands, and in the words that later operations
captured from it (02 R21; 03 R58, R59; 08 R160). -/
def spreadDegraded (m : Mach) (o : EOp) (t : Nat) : Mach :=
  let m := m.modCtx o.cx fun c =>
    let x := c.tile t
    if x.gen = o.gen then c.setTile t { x with word := setDegraded x.word true } else c
  m.modCore (coreOf o.cx) fun c => { c with ops := c.ops.map fun e =>
    if e.cx = o.cx ∧ o.uid < e.uid then
      let u := opUses e.instr
      let hit := u.reads.filter fun x => x.2 == t && e.srcGens.getD x.1 0 == o.gen
      { e with types := hit.foldl (fun l x => lset l x.1 (setDegraded (l.getD x.1 0) true)) e.types }
    else e }

/-- The results of an operation are written, its statistics applied, then its token set done (R59, R173, R205). -/
def deliverOut (m : Mach) (o : EOp) (r : EngOut) : Mach :=
  let m := r.tiles.foldl (fun m x => m.putTile o.cx x.1 x.2) m
  let m := m.modCtx o.cx fun c => let c := c.addEvents r.events; if r.drawFlag then c.setDrawFlag else c
  let deg := decide (0 < r.events) || (o.types.drop 1).any TW.degraded
  match (opUses o.instr).td with
  | some t => if deg && !TW.degraded (o.types.getD 0 0) then spreadDegraded m o t else m
  | none => m

/-- Does an operation consume its sources before it completes?  An MBLOAD does so when B is staged, with its kd (09 R165, R169). -/
def consumes (o : EOp) : Bool := o.started && o.q != .c && match o.instr with | .mbload _ => false | _ => true
/-- A started operation of the matrix engine or a pipe consumes its sources, before it completes; writers of them wait no longer
(09 R165, 10 R173).  A source that it also writes stays where it is. -/
def consumeOp (m : Mach) (core uid : Nat) : Mach :=
  match (m.core core).op? uid with
  | some o =>
    if consumes o && o.kept.isEmpty && (tileError m o).isNone then
      m.modOp core uid fun o => { o with kept := (o.reads.filter (!o.writes.contains ·)).map fun t => (t, (m.ctx o.cx).tile t), reads := [] }
    else m
  | none => m
/-- Complete the operation at the head of a queue of the matrix engine or a pipe.  An uncorrectable error that it reads is reported before a
reserved code (DESIGN CHOICE, log 101). -/
def completeHead (m : Mach) (core : Nat) (q : QKind) : Mach :=
  match (m.core core).inQueue q with
  | [] => m
  | o :: _ =>
    if !o.started then m
    else match tileError m o with
      | some f => engineFault m o f false
      | none =>
        match computeOp o.instr (o.tiles (m.ctx o.cx)) o with
        | .error f => engineFault m o f false
        | .ok r =>
          removeOp (deliverOut m o r) o

def execMatrixOpStart (core : Nat) (s : State) : Outcome State Fault Refusal := .next { s with m := startHead s.m core .m }
def execMatrixOpComplete (core : Nat) (s : State) : Outcome State Fault Refusal := .next { s with m := completeHead s.m core .m }
def execVectorOpStart (core : Nat) (p : Pipe) (s : State) : Outcome State Fault Refusal := .next { s with m := startHead s.m core (pipeQueue p) }
def execVectorOpComplete (core : Nat) (p : Pipe) (s : State) : Outcome State Fault Refusal :=
  .next { s with m := completeHead s.m core (pipeQueue p) }

/-! The write-out (R329). -/
/-- The weight that an operation and its table entry's armed fire carry stays with the shadow entry (R285). -/
def writeShadow (m : Mach) (cx : Nat) (reason : Nat) (pc : Word) (entries : List (List Byte)) : Mach :=
  let c := m.ctx cx
  let l := m.launchOf cx
  let n := min 112 entries.length
  let blk := c.shadow.toNat
  let die := dieOf (coreOf cx)
  let m := m.devStore die blk (leBytes 2 n ++ [BitVec.ofNat 8 reason] ++ leBytes 5 0 ++ leBytes 8 (c.launch.getD 0).toNat ++
    leBytes 2 ((l.map (·.gtag)).getD 0) ++ leBytes 6 0 ++ leBytes 8 pc.toNat)
  ((upFrom 0 n).zip entries).foldl (fun m x => m.devStore die (shadowEntry c.shadow x.1) x.2) m
/-- The unfired table entry of a posted TTSET (16 R327). -/
def tabOf (m : Mach) (o : EOp) : Option TabEnt :=
  ((m.core (coreOf o.cx)).table.filterMap fun x => x.2).find? fun t => t.op.uid == o.uid
/-- The operations of a context that a write-out takes: unstarted ones, a fired TTFIRE that has no send entry yet among them, and
unfired table entries, in issue order (DEDUCED, log 38). -/
def unstartedOps (m : Mach) (cx : Nat) (tables : Bool) : List EOp :=
  (m.core (coreOf cx)).ops.filter fun o => o.cx == cx && !o.handlerOp && ((!o.started && !o.posted) || o.awaitsEntry || (tables && o.posted && (tabOf m o).isSome))
/-- A started task-mode operation that must still complete; a posted send or table entry does not count. -/
def startedOps (m : Mach) (cx : Nat) : Bool := (m.core (coreOf cx)).ops.any fun o => o.cx == cx && !o.handlerOp && o.started && !o.posted
/-- A written-out fault stands where the fault was found. -/
def Ctx.writtenOut (c : Ctx) (uid : Nat) (e : CtxEvent) : Ctx :=
  match c.events.findIdx? (· == .found uid) with
  | some i => { c with events := lset c.events i e }
  | none => c.addFault e
/-- Write the unstarted operations of a context to its shadow block, the faulting one first and flagged, and set their kd done.  At a
pre-emption (reason 1) every operation that has faulted is written so, in order of arrival (DEDUCED, log 38).  What the block has no entry
for stays queued. -/
def writeOut (m : Mach) (cx : Nat) (reason : Nat) (tables : Bool) : Mach :=
  let c := m.ctx cx
  let due := if reason = 1 then c.engFault else c.engFault.take 1
  let first := due.filterMap fun x => if x.2.2 then none else some (entryBytes x.1 true none)
  let ops := (unstartedOps m cx tables).take (112 - first.length)
  let m' := writeShadow m cx reason c.pc (first ++ ops.map fun o => entryBytes o.unfired false (tabOf m o))
  let fires := ops.filterMap fun o => (tabOf m o).bind (·.fire)
  let uids := (ops ++ fires).map (·.uid)
  let m' := m'.modCore (coreOf cx) fun k => { k with
    ops := k.ops.filter fun o => !uids.contains o.uid,
    table := k.table.filter fun x => match x.2 with | some t => !uids.contains t.op.uid | none => true }
  let m' := m'.modCtx cx fun c => { c with wroteOut := true }
  let m' := m'.modCtx cx fun c => (ops ++ fires).foldl (fun c o => setTokenDone c o.kd o.uid) c
  m'.modCtx cx fun c => due.foldl (fun c (o, f, _) =>
    { (setTokenDone c o.kd o.uid).writtenOut o.uid (.engine o.q.slotBits f) with engFault := c.engFault.drop 1 }) c
/-- The write-out is due: the engine fault stands before the context's other faults and before a PREEMPT that has begun, and the
context is in task mode or in its drain, with no bundle that waits for an answer (R329 to R331, R334; 07 R138). -/
def writeOutDue (c : Ctx) : Bool :=
  !c.engFault.isEmpty && !c.released && (!c.handler || c.life == .draining) && c.interruptible &&
  match c.events.find? (fun e => !e.isLeave && (c.life != .draining || e != .preempt)) with
  | some (.found _) => true
  | _ => false
/-- ENGINE_FOUND_FAULT: once every started operation of the context has completed. -/
def engineFound (m : Mach) (cx : Nat) : Mach :=
  if writeOutDue (m.ctx cx) && !startedOps m cx then writeOut m cx 2 false else m
def execEngineFoundFault (cx : Nat) (s : State) : Outcome State Fault Refusal := .next { s with m := engineFound s.m cx }

/-! Values that arrive (07 R122 to R124; 13 R238; 14 R262). -/
/-- PENDING_VALUE_WRITTEN: one outstanding access is performed, when its order allows. -/
def valueWritten (m : Mach) (cx uid : Nat) : Mach :=
  let c := m.ctx cx
  match c.out.find? (·.uid == uid) with
  | some a => if c.accessReady a then performAccess m cx a else m
  | none => m
def execPendingValueWritten (cx uid : Nat) (s : State) : Outcome State Fault Refusal := .next { s with m := valueWritten s.m cx uid }
/-- The LREC request of a context whose template stands in host memory, with the template's address. -/
def SchedReq.hostTemplate (cx : Nat) : SchedReq → Option Word
  | .lrec k _ _ _ _ _ host => if k = cx then host else none
  | _ => none
/-- POST_COMMIT_ERROR: an outstanding access that reaches memory is answered with an error (13 R238; 12 Table 12-6, subcodes 6
and 7): 7 for a host location, else 6.  The read of an LREC's template is no access in `out`, so that one with no such number, while the
context waits for an LREC with a template in host memory, is its error: the LREC faults and asks for nothing (15 R300) (DEDUCED, log 40). -/
def postCommitErr (m : Mach) (cx uid : Nat) (sub : BitVec 4) : Mach :=
  let c := m.ctx cx
  let d := ((m.launchOf cx).map (·.home)).getD 0
  match c.out.find? (·.uid == uid) with
  | some a =>
    let host := a.locs.any isHost
    if c.accessReady a && !a.locs.isEmpty && sub.toNat == (if host then 7 else 6) then postCommit m cx a 0x0A sub.toNat else m
  | none =>
    match (m.die d).reqs.findSome? (SchedReq.hostTemplate cx) with
    | some a =>
      if c.await = some .asked ∧ sub = 7 then
        (m.modDie d fun x => { x with reqs := x.reqs.filter fun r => (r.hostTemplate cx).isNone }).modCtx cx
          fun c => { c with await := some (.faulted (accFault 0x0A 7 false a.toNat)) }
      else m
    | none => m
def execPostCommitError (cx uid : Nat) (subcode : BitVec 4) (s : State) : Outcome State Fault Refusal :=
  .next { s with m := postCommitErr s.m cx uid subcode }
/-- FROZEN_WRITE: every outstanding frozen write that is due takes effect.  A retiring bundle already applies its due writes
(R122), so between steps none is due. -/
def frozenDue (c : Ctx) : Ctx := { applyFrozenAt c 0 with frozen := c.frozen.filter fun w => w.left != 0 }
/-- DEDUCED, log 81. -/
def execFrozenWrite (cx : Nat) (s : State) : Outcome State Fault Refusal := .next { s with m := s.m.modCtx cx frozenDue }

end Sys2Proof.Machine
end

