-- ==== Sys2Proof/Machine/CopyRun.lean ====
section
/-! DEFINITION. The copy engine after issue: the bytes each copy moves, one item at a time, its translation faults and its end
(03 R49; 12 R217, R223 to R225, R234; 13 R253 to R260; 17 R342). -/
namespace Sys2Proof.Machine
open Host (Outcome)

/-- Why a copy stops: a fault, a translation miss, or a region that is not resident. -/
inductive CopyStop where
  | fault (f : FaultRec) | miss (va : Nat) (write : Bool) | wait
deriving DecidableEq, Repr

/-- The leaf an engine uses: one of the translation caches, else its access waits for the walk of its miss (R234).  A subscription
engine (`sub`) has translated when SUBSCR was checked, and waits for none. -/
def engLeaf (m : Mach) (core va : Nat) (p : Perm) (sub : Bool) : Except CopyStop TlbEnt :=
  let chk (t : TlbEnt) : Except CopyStop TlbEnt :=
    match permFault t p with | some sub => .error (.fault (accFault 0x0A sub p.isWrite va)) | none => .ok t
  match m.cached core va with
  | some t => chk t
  | none =>
    if sub then match m.walk va with | .error sub => .error (.fault (leafFault sub p.isWrite va)) | .ok t => chk t
    else .error (.miss va p.isWrite)
/-- What `n` bytes at an address are for an engine of a context (DEDUCED, log 39). -/
def engBytes (m : Mach) (cx va n : Nat) (p : Perm) (sub : Bool := false) : Except CopyStop (List Loc ⊕ (Nat × Nat)) :=
  if va + n ≤ globalTop then do
    let t ← engLeaf m (coreOf cx) va p sub
    if n = 0 ∨ t.covers (va + n - 1) then .ok (.inl ((upFrom va n).map t.loc))
    else
      let b := t.base + t.size
      let u ← engLeaf m (coreOf cx) b p sub
      .ok (.inl ((upFrom va (b - va)).map t.loc ++ (upFrom b (va + n - b)).map u.loc))
  else match resolveAt m cx va n [p] with
    | .locs l => .ok (.inl l)
    | .notifyReg d o => .ok (.inr (d, o))
    | .fault f => .error (.fault f)
    | _ => .error .wait
/-- The miss of an operation is parked at its die, once, while the table has room (R234). -/
def parkEng (m : Mach) (o : EOp) (va : Nat) (write : Bool) : Mach :=
  let d := dieOf (coreOf o.cx)
  if 4096 ≤ (m.die d).misses.length || (m.die d).misses.any (fun v => v.uid == o.uid && v.va.toNat == va) then m
  else m.modDie d fun x => { x with misses := x.misses ++ [{ cx := o.cx, va := BitVec.ofNat 64 va, write := write, fetch := false, uid := o.uid }] }
/-- An operation that cannot go on: its fault, or its wait. -/
def engStop (m : Mach) (o : EOp) : CopyStop → Mach
  | .fault f => engineFault m o f false
  | .miss va w => parkEng m o va w
  | .wait => m
/-- The address that an error's fault holds: the first erring byte, or its scratchpad line (R223). -/
def errAddr (m : Mach) (va : Nat) (ls : List Loc) : Nat :=
  match ((upFrom 0 ls.length).zip ls).find? fun x => m.errAt x.2 with
  | some (i, .scratch _) => (va + i) / 128 * 128
  | some (i, _) => va + i
  | none => va
/-- Read bytes for an engine; an uncorrectable error faults, a core under reset answers TARGET_RESET (R216, R223). -/
def engRead (m : Mach) (cx va n : Nat) (sub : Bool := false) : Except CopyStop (List Byte) := do
  match ← engBytes m cx va n .read sub with
  | .inr _ => .ok (List.replicate n 0)
  | .inl ls =>
    if underReset m cx ls then .error (.fault { cause := 0x10, addr := BitVec.ofNat 64 va })
    else if ls.any m.errAt then .error (.fault (accFault 0x0A 6 false (errAddr m va ls)))
    else .ok (m.readLocs ls)
def engWrite (m : Mach) (cx va : Nat) (bs : List Byte) (sub : Bool := false) : Except CopyStop Mach := do
  match ← engBytes m cx va bs.length .write sub with
  | .inr (_, o) => .ok (m.notifyWrite o bs.length (word64 bs))
  | .inl ls =>
    if underReset m cx ls then .error (.fault { cause := 0x10, addr := BitVec.ofNat 64 va })
    else .ok (m.writeLocs ls bs)
/-- Write a code of `w` bits, less than a byte, at bit `bit`; the other bits of its byte stay, and only the write permission counts.
`whole`: the rest of the byte has been written so too. -/
def engWriteBits (m : Mach) (cx va bit w code : Nat) (whole sub : Bool) : Except CopyStop Mach := do
  match ← engBytes m cx va 1 .write sub with
  | .inr (_, o) => .ok (m.notifyWrite o 1 (word64 [BitVec.ofNat 8 (putBits 0 bit w code)]))
  | .inl ls =>
    if underReset m cx ls then .error (.fault { cause := 0x10, addr := BitVec.ofNat 64 va })
    else .ok (m.writePart ls (BitVec.ofNat 8 (putBits (leNat (m.readLocs ls)) bit w code)) whole)

/-- One move of a copy: a byte of an element's code or of a scale (a shorter code lies in one byte), a code 0 or a scale 1 that
no memory gives, a byte between a window and the scratchpad, or a byte of the scratchpad read ahead. -/
inductive CItem where
  | elem (ix : List Nat) (j va bit : Nat)
  | scale (blk : List Nat) (j va : Nat)
  | zero (ix : List Nat)
  | one (blk : List Nat)
  | pair (va sp : Nat)
  | get (sp : Nat)
deriving DecidableEq, Repr

/-- The bytes of an element at a window place, and of a scale at an address. -/
def elemBytesAt (w : Window) (ix : List Nat) (a : Nat × Nat) : List CItem :=
  (upFrom 0 (max 1 (fmtBits (TW.fmt w.ty) / 8))).map fun j => .elem ix j (a.1 + j) a.2
def scaleBytesAt (w : Window) (blk : List Nat) (a : Nat) : List CItem :=
  (upFrom 0 (scaleBytes (TW.fmt w.ty) (TW.geom w.ty))).map fun j => .scale blk j (a + j)
/-- The elements and scales of a region at origins `o` (R255, R256). -/
def regionItems (w : Window) (base : Nat) (e o : List Nat) : List CItem :=
  let g := TW.geom w.ty
  let blks := if g = 0 || prod e = 0 then [] else indices (blockDims g e)
  ((indices e).flatMap fun ix => elemBytesAt w ix (w.elemAt base (addIx o ix))) ++
    blks.flatMap fun b => scaleBytesAt w b (w.regionScale base o b)
/-- The rows of a GATHER or SCATTER by the index list read at its start (R258). -/
def rowItems (w : Window) (e idx : List Nat) (store : Bool) : List CItem :=
  let g := TW.geom w.ty
  let n := e.getD 1 0
  let base := w.base.toNat
  let blks := if g = 2 ∨ g = 3 then upFrom 0 ((blockDims g [1, n]).getD 1 0) else []
  let rows := ((upFrom 0 (e.headD 0)).zip idx).flatMap fun (i, x) =>
    match rowAt w x with
    | some r => ((upFrom 0 n).flatMap fun j => elemBytesAt w [i, j] (w.elemAt base [r, j])) ++
        (if n = 0 then [] else blks.flatMap fun b => scaleBytesAt w [i, b] (w.scaleAt base [r, b]))
    | none => if store then []
      else ((upFrom 0 n).map fun j => .zero [i, j]) ++ (if n = 0 then [] else blks.map fun b => .one [i, b])
  rows ++ (if g = 1 then scaleBytesAt w [] (w.scaleAt base []) else [])
/-- The scratchpad bytes of some items, each once. -/
def readAhead (l : List CItem) : List CItem :=
  (l.filterMap fun x => match x with | .elem _ _ va _ => some va | .scale _ _ va => some va | .pair _ sp => some sp | _ => none).eraseDups.map .get
/-- The items of a copy.  One that reads the scratchpad reads it whole before it writes anything (12 R223, log 36). -/
def copyItems (m : Mach) (o : EOp) : List CItem :=
  let w := opWindow m o
  let e := o.exts.getD 1 []
  let r := e.length
  match o.instr with
  | .tload _ => regionItems w w.base.toNat e (originsOf false r o.capA o.capB)
  | .tstore _ => regionItems w w.base.toNat e (originsOf false r o.capA o.capB)
  | .tloads _ => let l := regionItems w o.capA.toNat e (originsOf true r o.capA o.capB); readAhead l ++ l
  | .tstores _ => regionItems w o.capA.toNat e (originsOf true r o.capA o.capB)
  | .cpin _ => lines w
  | .cpout _ => readAhead (lines w) ++ lines w
  | .gather _ => rowItems w e o.index false
  | .scatter _ => rowItems w e o.index true
  | _ => []
where
  lines (w : Window) : List CItem :=
    (upFrom 0 (128 * bits o.capB 15 0)).map fun i =>
      .pair ((w.base.toNat + 128 * bits o.capB 63 16 + i) % 2 ^ 64) (o.capA.toNat + i)
/-- Does the copy write memory from the tile or the scratchpad? -/
def copyStores (i : Instr) : Bool :=
  match i with | .tstore _ => true | .tstores _ => true | .scatter _ => true | .cpout _ => true | _ => false
/-- The scratchpad line that an item writes and whose full bit its copy sets, by its address. -/
def fullLine (o : EOp) (x : CItem) : Option Nat :=
  match o.instr, x with
  | .tstores _, .elem _ _ va _ => some (va / 128)
  | .tstores _, .scale _ _ va => some (va / 128)
  | .cpin _, .pair _ sp => some (sp / 128)
  | _, _ => none
def setFullLine (m : Mach) (o : EOp) (line : Nat) : Mach :=
  match resolveAt m o.cx (line * 128) 1 [.write] with | .locs (.scratch k :: _) => m.setFullAt (lineOfKey k) true | _ => m
def fmtOfOp (o : EOp) : Nat := TW.fmt (o.types.getD 1 0)

/-- Has the copy, with this item, written every bit of the byte that the item's code lies in? -/
def byteWhole (m : Mach) (o : EOp) (va bit w : Nat) : Bool :=
  let items := copyItems m o
  let bits := ((upFrom 0 items.length).zip items).filterMap fun (i, y) =>
    match y with | .elem _ _ a b => if a = va then some (b, b == bit || o.moved.contains i) else none | _ => none
  (bits.map (·.1)).eraseDups.length * w == 8 && bits.all (·.2)
/-- Move one item. -/
def moveItem (m : Mach) (o : EOp) (x : CItem) : Except CopyStop Mach := do
  let t := o.cslot.t.toNat
  let store := copyStores o.instr
  let v := o.view (m.ctx o.cx).tile 1 t
  let w := fmtBits v.fmt
  match x with
  | .elem ix j va bit =>
    if store then
      (if w < 8 then engWriteBits m o.cx va bit w (v.code ix) (m.errs.isEmpty || byteWhole m o va bit w) false
      else engWrite m o.cx va [BitVec.ofNat 8 (v.code ix / 2 ^ (8 * j))])
    else do
      let b ← source m va
      .ok (m.putTile o.cx t (if w < 8 then v.setCode ix (b.toNat / 2 ^ bit) else v.setCodeByte ix j b).tile)
  | .scale blk j va =>
    if store then engWrite m o.cx va [BitVec.ofNat 8 (v.scaleCode blk / 2 ^ (8 * j))]
    else do
      let b ← source m va
      .ok (m.putTile o.cx t (v.setScaleByte blk j b).tile)
  | .zero ix => .ok (m.putTile o.cx t (v.setCode ix 0).tile)
  | .one blk => .ok (m.putTile o.cx t (v.setScale blk (if scaleE8M0 v.fmt then 0x7F else 0x3F80)).tile)
  | .pair va sp => do
    let b ← source m (if store then sp else va)
    engWrite m o.cx (if store then va else sp) [b]
  | .get sp => do
    let bs ← engRead m o.cx sp 1
    .ok (m.modOp (coreOf o.cx) o.uid fun o => { o with got := mset o.got sp (bs.headD 0) })
where
  /-- A source byte: as read ahead, or from memory. -/
  source (m : Mach) (va : Nat) : Except CopyStop Byte :=
    match mget? o.got va with
    | some b => .ok b
    | none => do let bs ← engRead m o.cx va 1; .ok (bs.headD 0)

/-- Move some items, by their numbers among the items of the copy; `others` are those still to come after them.  A line of the
scratchpad becomes full with the last item that writes it (Table 12-2) (DEDUCED, log 41). -/
def moveItems (core uid : Nat) (others : List (Nat × CItem)) : List (Nat × CItem) → Mach → Mach × Option CopyStop
  | [], m => (m, none)
  | (i, x) :: rest, m =>
    match (m.core core).op? uid with
    | none => (m, none)
    | some o =>
      match moveItem m o x with
      | .error e => (m, some e)
      | .ok m =>
        let m := m.modOp core uid fun o => { o with moved := i :: o.moved }
        let m := match fullLine o x with
          | some l => if (rest ++ others).any fun y => fullLine o y.2 == some l then m else setFullLine m o l
          | none => m
        moveItems core uid others rest m
/-- The items that a copy has still to move; those it reads ahead come first. -/
def copyRest (m : Mach) (o : EOp) : List (Nat × CItem) :=
  let items := copyItems m o
  ((upFrom 0 items.length).zip items).filter fun x => !o.moved.contains x.1
/-- The row of the tile that an item of a GATHER or SCATTER belongs to. -/
def CItem.row : CItem → Option Nat
  | .elem (i :: _) _ _ _ => some i
  | .scale (i :: _) _ _ => some i
  | .zero (i :: _) => some i
  | .one (i :: _) => some i
  | _ => none
/-- Those of them that may move next: every byte that is read ahead before any other, and the rows of a GATHER or SCATTER in
ascending order (13 R258). -/
def copyNext (i : Instr) (l : List (Nat × CItem)) : List (Nat × CItem) :=
  let ahead := l.filter fun x => match x.2 with | .get _ => true | _ => false
  let byRow : Bool := match i with | .gather _ => true | .scatter _ => true | _ => false
  if !ahead.isEmpty then ahead
  else if byRow then l.filter fun x => l.all fun y => match x.2.row, y.2.row with | some a, some b => decide (a ≤ b) | _, _ => true
  else l

/-- The HBM bytes that stand for the sectors of some addresses. -/
def sectorsOf (m : Mach) (vas : List Nat) : List Nat :=
  let secs := (vas.filter (· < globalTop)).foldl (fun l va => if l.contains (va / 128) then l else va / 128 :: l) []
  secs.reverse.filterMap fun sec => match m.sysLoc (sec * 128) with | some (.hbm pa) => some pa | _ => none
/-- The global lines a copy reaches, at the L2 (R224, R225): TLOAD and GATHER are reads that count, once a line. -/
def copyL2 (m : Mach) (o : EOp) (items : List CItem) : Mach :=
  let vas := items.filterMap fun x => match x with | .elem _ _ va _ => some va | .scale _ _ va => some va | .pair va _ => some va | _ => none
  let counts := match o.instr with | .tload _ => true | .gather _ => true | _ => false
  l2Span m (sectorsOf m vas) (copyStores o.instr) counts (hintOf o.cslot.hint (opWindow m o).hint.toNat)

/-- PREFT: the element sectors of the rows and the scale area (R259). -/
def preftSectors (w : Window) (o : EOp) : List Nat :=
  let e := TW.exts w.ty
  let r := e.length
  let o0 := (originsOf false r o.capA o.capB).headD 0
  let c := bits o.capB 31 0
  let hi := if c = 0 then e.headD 1 else min (e.headD 1) (o0 + c)
  let span (a n : Nat) : List Nat := if n = 0 then [] else upFrom (a / 128) ((a + n - 1) / 128 + 1 - a / 128)
  let f := fmtBits (TW.fmt w.ty)
  let run (ix : List Nat) (n : Nat) : List Nat := let a := w.elemAt w.base.toNat ix; if n = 0 then [] else span a.1 (ceilDiv (a.2 + n * f) 8)
  let els := match e with
    | [] => run [] 1
    | [_] => run [o0] (hi - o0)
    | _ :: inner => (upFrom o0 (hi - o0)).flatMap fun i => (indices inner.dropLast).flatMap fun ix => run (i :: ix ++ [0]) (inner.getLastD 0)
  els ++ (if TW.geom w.ty = 0 then [] else span (w.scaleBase w.base.toNat) (footScales (TW.fmt w.ty) (TW.geom w.ty) e))
/-- Prefetch the sectors still to come, `o.progress` of them done; one whose translation fails is skipped, and a miss is waited for. -/
def preftSome (o : EOp) (h : Hint) : List Nat → Nat → Mach → Mach
  | [], _, m => removeOp m o
  | s :: rest, n, m =>
    if globalTop ≤ s * 128 then preftSome o h rest (n + 1) m
    else match engLeaf m (coreOf o.cx) (s * 128) .read false with
      | .ok t => preftSome o h rest (n + 1) (match t.loc (s * 128) with | .hbm pa => l2Access m pa false false h | _ => m)
      | .error (.miss va w) => parkEng (m.modOp (coreOf o.cx) o.uid fun o => { o with progress := n }) o va w
      | .error _ => preftSome o h rest (n + 1) m
def doPreft (m : Mach) (o : EOp) : Mach :=
  let w := opWindow m o
  let h := hintOf o.cslot.hint w.hint.toNat
  if h.noAlloc then removeOp m o else preftSome o h.prefetch ((preftSectors w o).drop o.progress) o.progress m
/-- The walk of an operation's miss failed (R234): the operation faults, but PREFT skips the line (13 R259). -/
def missFault (m : Mach) (o : EOp) (v : Miss) (sub : Nat) : Mach :=
  match o.instr with
  | .preft _ => m.modOp (coreOf o.cx) o.uid fun o => { o with progress := o.progress + 1 }
  | _ => engineFault m o (leafFault sub v.write v.va.toNat) false

/-- CTLOAD's bank, in the register and in the captures that waited for it (03 R49). -/
def loadBank (m : Mach) (o : EOp) (bs : List Byte) : Mach :=
  let b := o.cslot.hint.toNat % 2
  let put (l : Mp (BitVec 16)) : Mp (BitVec 16) :=
    (upFrom 0 16).foldl (fun l i => mset l (16 * b + i) (BitVec.ofNat 16 (fld bs (2 * i) 2))) l
  let m := m.modCtx o.cx fun c => { c with banks := put c.banks }
  let m := m.modCore (coreOf o.cx) fun c => { c with ops := lmod (fun e => e.bankWait.contains o.uid) (fun e => { e with banks := put e.banks }) c.ops }
  { m with errs := m.errs.filter fun e => match e with | .bank c n => !(c == o.cx && n == b) | _ => true }

/-! Starting and completing (R254). -/
/-- The copy operations that stand before this one in its context start first. -/
def copyTurn (m : Mach) (o : EOp) : Bool :=
  ((m.core (coreOf o.cx)).inQueue .c).all fun e => e.cx != o.cx || decide (o.uid ≤ e.uid) || e.started
/-- Start a copy; a GATHER or SCATTER reads its index list now (R258). -/
def startCopy (m : Mach) (o : EOp) : Mach :=
  let n := (o.exts.getD 1 []).headD 0
  let read : Bool := match o.instr with | .gather _ => true | .scatter _ => true | _ => false
  if !read || n = 0 then startOp m o
  else match engRead m o.cx o.capA.toNat (4 * n) with
    | .error e => engStop m o e
    | .ok bs => m.modOp (coreOf o.cx) o.uid fun o => { o with
        started := true
        index := (upFrom 0 n).map fun i => unsgn 64 (sgn 32 (fld bs (4 * i) 4) + o.capB.toNat) }

/-- Move one item of a started copy, the `n`th of those that may move next: the bytes of a copy move in any order
(13 R253, 14 R269). -/
def copySome (m : Mach) (core uid n : Nat) : Mach :=
  match (m.core core).op? uid with
  | none => m
  | some o =>
    if !o.started || o.q != .c || !isMover o.instr then m
    else match tileError m o with
      | some f => engineFault m o f false
      | none =>
        let rest := copyRest m o
        let next := copyNext o.instr rest
        match next[n % next.length]? with
        | none => m
        | some x => copyStop o (moveItems core uid (rest.filter (·.1 != x.1)) [x] m)
where
  /-- A fault of a move is the copy's. -/
  copyStop (o : EOp) (r : Mach × Option CopyStop) : Mach := r.2.elim r.1 (engStop r.1 o)
/-- Complete a started copy when every byte has been moved. -/
def completeCopy (m : Mach) (o : EOp) : Mach :=
  let core := coreOf o.cx
  match o.instr with
  | .preft _ => doPreft m o
  | .ctload _ =>
    match engRead m o.cx (opWindow m o).base.toNat 32 with
    | .error e => engStop m o e
    | .ok bs => removeOp (loadBank (l2Span m (sectorsOf m (upFrom (opWindow m o).base.toNat 32)) false false (hintOf 0)) o bs) o
  | _ =>
    match tileError m o with
    | some f => engineFault m o f false
    | none =>
      match moveItems core o.uid [] (copyRest m o) m with
      | (m, none) => removeOp (copyL2 m o (copyItems m o)) o
      | (m, some e) => engStop m o e

end Sys2Proof.Machine
end

