-- ==== Sys2Proof/Machine/Msgs.lean ====
section
/-! DEFINITION. Link messages as bytes and flits, the ports they leave by, and their arrival (15 R288; 16 R305 to R307, R311, R312). -/
namespace Sys2Proof.Machine
open Host (Outcome)

/-! Messages as bytes (Tables 16-1, 16-2, 16-5; R305, R307). -/
def Msg.hdr : Msg → MsgHdr
  | .read h _ _ _ => h | .readAnswer h _ _ _ _ => h | .write h _ _ _ _ _ => h | .writeAnswer h _ _ _ => h
  | .atomic h _ _ _ _ _ => h | .atomicAnswer h _ _ _ => h | .sendReady h _ => h | .pull h _ _ _ _ _ _ _ => h
  | .pullData h _ _ _ _ _ _ => h | .weightReturn h _ _ _ _ => h | .activeMessage h _ _ _ _ _ => h | .loadSummaryToken h _ => h
  | .stealRequest h _ => h | .stealGrant h _ _ _ => h | .tileRecordMessage h _ _ => h | .faultNotice h _ => h
def Msg.cls : Msg → Nat
  | .read _ _ _ _ => 0 | .readAnswer _ _ _ _ _ => 0 | .write _ _ _ _ _ _ => 1 | .writeAnswer _ _ _ _ => 1
  | .atomic _ _ _ _ _ _ => 2 | .atomicAnswer _ _ _ _ => 2 | .sendReady _ _ => 3 | .pull _ _ _ _ _ _ _ _ => 4
  | .pullData _ _ _ _ _ _ _ => 5 | .weightReturn _ _ _ _ _ => 6 | .faultNotice _ _ => 7 | .activeMessage _ _ _ _ _ _ => 8 | .loadSummaryToken _ _ => 9
  | .stealRequest _ _ => 10 | .stealGrant _ _ _ _ => 11 | .tileRecordMessage _ _ _ => 12
def zeros (n : Nat) : List Byte := List.replicate n 0
def reqBytes (r : StealReq) : List Byte := leBytes 2 r.thief.toNat ++ leBytes 2 r.count ++ leBytes 4 r.jobTag.toNat
def offerBytes (o : LoadOffer) : List Byte := leBytes 4 o.device.toNat ++ leBytes 4 o.jobTag.toNat ++ leBytes 4 o.count
/-- A fault notice's payload. -/
def noticeBytes (n : Notice) : List Byte :=
  leBytes 1 n.kind ++ [n.cause] ++ leBytes 1 (if n.cause = 0x09 ∨ n.cause = 0x0A then n.info.toNat % 16 else 0) ++ leBytes 1 (n.cx % 8) ++
  leBytes 2 (coreOf n.cx) ++ leBytes 2 n.device ++ leBytes 8 n.lid.toNat ++ leBytes 8 n.addr.toNat ++ leBytes 8 n.info.toNat ++ leBytes 8 n.time.toNat
def Msg.payload : Msg → List Byte
  | .read _ space size addr => leBytes 4 (256 * space.toNat) ++ leBytes 4 size ++ leBytes 8 addr.toNat
  | .readAnswer _ st size addr data => leBytes 4 (1 + 2 * st.toNat) ++ leBytes 4 size ++ leBytes 8 addr.toNat ++ if st = 0 then data else []
  | .write _ space size addr mask data => leBytes 4 (256 * space.toNat) ++ leBytes 4 size ++ leBytes 8 addr.toNat ++ leBytes 8 mask.toNat ++ data
  | .writeAnswer _ st size addr => leBytes 4 (1 + 2 * st.toNat) ++ leBytes 4 size ++ leBytes 8 addr.toNat
  | .atomic _ op scope addr x swap =>
    leBytes 8 (256 * op.toNat + 65536 * scope.toNat) ++ leBytes 8 addr.toNat ++ leBytes 8 x.toNat ++ leBytes 8 swap.toNat
  | .atomicAnswer _ st addr old => leBytes 8 (1 + 2 * st.toNat) ++ leBytes 8 addr.toNat ++ leBytes 8 old.toNat
  | .sendReady _ r => leBytes 16 r.word.toNat ++ leBytes 4 r.tag.toNat ++ leBytes 4 r.image ++ leBytes 8 r.endpoint.toNat ++
    leBytes 2 r.sender.toNat ++ leBytes 1 r.core ++ leBytes 1 r.entry ++ leBytes 4 (r.gtag % 65536)
  | .pull _ refusal sender core entry _ ep tag => leBytes 8 (if refusal then 1 else 0) ++ leBytes 2 sender.toNat ++ leBytes 1 core ++
    leBytes 1 entry ++ zeros 4 ++ leBytes 8 ep.toNat ++ leBytes 4 tag.toNat
  | .pullData _ sender core entry _ ep image => leBytes 2 sender.toNat ++ leBytes 1 core ++ leBytes 1 entry ++ leBytes 4 image.length ++
    leBytes 8 ep.toNat ++ image
  | .weightReturn _ dev dom gtag w => leBytes 2 dev.toNat ++ leBytes 2 dom.toNat ++ leBytes 4 (gtag % 65536) ++ leBytes 8 w.toNat
  | .activeMessage _ t ep sender gtag kernel => t ++ leBytes 8 ep.toNat ++ leBytes 2 sender.toNat ++ leBytes 6 (gtag % 65536) ++ leBytes 8 kernel.toNat
  | .loadSummaryToken _ t => leBytes 4 t.epoch.toNat ++ leBytes 4 t.seq.toNat ++ leBytes 1 t.reqs.length ++ leBytes 1 t.offers.length ++ zeros 6 ++
    (t.reqs.flatMap reqBytes ++ zeros 32).take 32 ++ (t.offers.flatMap offerBytes ++ zeros 48).take 48
  | .stealRequest _ r => reqBytes r
  | .stealGrant _ victim tag rs => leBytes 2 victim.toNat ++ leBytes 2 rs.length ++ leBytes 4 tag.toNat ++ zeros 8 ++ rs.flatMap id
  | .tileRecordMessage _ victim r => leBytes 8 victim.toNat ++ r
  | .faultNotice _ n => noticeBytes n
/-- The CRC of a flit's first 120 bytes (R307). -/
def crc64 (bs : List Byte) : Nat :=
  let bit (r : Nat) (b : Bool) : Nat :=
    let top := decide (2 ^ 63 ≤ r)
    let r := r % 2 ^ 63 * 2
    if top != b then r ^^^ 0x42F0E1EBA9EA3693 else r
  (bs.foldl (fun r x => (upFrom 0 8).foldl (fun r i => bit r (x.getLsbD (7 - i))) r) (2 ^ 64 - 1)) ^^^ (2 ^ 64 - 1)
/-- A flit from its header and payload. -/
def flit (hdr : Nat) (body : List Byte) : List Byte :=
  let bs := leBytes 8 hdr ++ (body ++ zeros 112).take 112
  bs ++ leBytes 8 (crc64 bs)
def flitHeader (h : MsgHdr) (cls seq : Nat) (last : Bool) (ack : Option Nat) : Nat :=
  h.tag.toNat * 2 ^ 52 + h.src.toNat * 2 ^ 42 + h.dst.toNat * 2 ^ 32 + (ack.getD 0 % 4096) * 2 ^ 20 + (seq % 4096) * 2 ^ 8 +
  (if ack.isSome then 64 else 0) + (if last then 32 else 0) + cls
def Msg.flitCount (x : Msg) : Nat := max 1 (ceilDiv x.payload.length 112)
/-- The flits of a message from a sequence number on. -/
def Msg.flits (x : Msg) (seq : Nat) (ack : Option Nat) : List (List Byte) :=
  let n := x.flitCount
  (upFrom 0 n).map fun i => flit (flitHeader x.hdr x.cls (seq + i) (i + 1 == n) ack) ((x.payload.drop (112 * i)).take 112)

/-- A link-control flit: class 0x1F, every other field zero but the acknowledgement (R307). -/
def controlFlit (ack : Option Nat) (body : List Byte) : List Byte :=
  flit ((ack.getD 0 % 4096) * 2 ^ 20 + (if ack.isSome then 64 else 0) + 0x1F) body
/-- The last flits of a message, `n` of them, from a sequence number on. -/
def Msg.lastFlits (x : Msg) (seq n : Nat) (ack : Option Nat) : List (List Byte) :=
  let gone := x.flitCount - n
  (x.flits (seq + 4096 * gone - gone) ack).drop gone

/-- Messages of one class from one sender to one receiver keep their order (R312). -/
def Msg.sameOrder (x y : Msg) : Bool := x.cls == y.cls && x.hdr.src == y.hdr.src && x.hdr.dst == y.hdr.dst

/-! Routing and sending (R306, R312; 15 R288). -/
def portKey (p : PortId) : Nat := p.die.toNat * 4 + p.port.toNat
def Mach.port (m : Mach) (p : PortId) : Port := mget {} m.ports (portKey p)
def Mach.setPort (m : Mach) (p : PortId) (x : Port) : Mach := { m with ports := mset m.ports (portKey p) x }
/-- The highest sequence received in order, once there is one (Table 16-1). -/
def Port.ack (q : Port) : Option Nat := if q.rxAny then some ((q.rxSeq + 4095) % 4096) else none
/-- Flits leave by a port. -/
def Mach.putFlits (m : Mach) (p : PortId) (fs : List (List Byte)) : Mach := { m with lines := m.lines ++ fs.map fun f => (portKey p, f) }
/-- The ports that R313 gives to the host bridge. -/
def Mach.bridgePort (m : Mach) (p : PortId) : Bool := m.brgSel && p.die == 0 && decide (p.port.toNat < 2)
def routeOf (m : Mach) (dst : Nat) : Option PortId := mget none m.routes dst
/-- Messages that carry weight (15 R288). -/
def Msg.isWeighted : Msg → Bool
  | .weightReturn _ _ _ _ _ => true | .activeMessage _ _ _ _ _ _ => true | .stealGrant _ _ _ rs => !rs.isEmpty
  | .tileRecordMessage _ _ _ => true | .pull _ _ _ _ _ _ _ _ => true | _ => false
/-- The replay buffer after an acknowledgement of everything up to `ack` (R306). -/
def ackTo (ack : Nat) (l : List (Nat × Nat × Msg)) : List (Nat × Nat × Msg) :=
  l.filterMap fun (s, n, x) =>
    let d := (ack + 1 + 4096 - s) % 4096
    if 2048 < d ∨ d = 0 then some (s, n, x) else if n ≤ d then none else some ((s + d) % 4096, n - d, x)
/-- An acknowledgement comes in, on an idle flit or with a message (Table 16-1). -/
def linkIdle (m : Mach) (p : PortId) (valid : Bool) (ack : Nat) : Mach :=
  let q := m.port p
  if q.phase ≠ .up || !valid then m
  else
    let l := ackTo ack q.unacked
    m.setPort p { q with unacked := l, resends := if (l.head?.map (·.1)) = (q.unacked.head?.map (·.1)) then q.resends else 0 }
/-! Arrival. -/
/-- Count `n` discarded flits (18 Table 18-3). -/
def Mach.lose (m : Mach) (n : Nat) : Mach := { m with lostFlits := BitVec.ofNat 16 (min 0xFFFF (m.lostFlits.toNat + n)) }
/-- The port by which a message of another device comes in: the one that its arrival names, else the one that leads to its source, when it
is up (DEDUCED, log 58). -/
def inPort (m : Mach) (x : Msg) : Option (PortId × Port) :=
  (m.rx.elim (routeOf m x.hdr.src.toNat) fun a => some a.port).bind fun p => if (m.port p).phase = .up then some (p, m.port p) else none
/-- Does the port that the arrival names discard the flits: one that is not up, or that waits for another sequence number (R306)? -/
def outOfSequence (m : Mach) : Bool := m.rx.any fun a => (m.port a.port).phase != .up || a.seq % 4096 != (m.port a.port).rxSeq
/-- The link sequence number that a port waits for (R306). -/
def LinkSeq.next (p : PortId) (q : Port) : LinkSeq := ⟨portKey p, q.life, q.rxSeq⟩
/-- Is it a number that the port has left behind: one of this link, more than 2048 flits ago, that it gives again (R306)? -/
def LinkSeq.stale (p : PortId) (q : Port) (y : LinkSeq) : Bool :=
  y.port == portKey p && y.life == q.life && decide (2048 < (q.rxSeq + 4096 - y.seq) % 4096)
/-- The flits of a message are accepted by its port, with the acknowledgement that they carry. -/
def acceptFlits (m : Mach) (x : Msg) : Mach :=
  match inPort m x with
  | some (p, q) =>
    let q' := { q with rxSeq := (q.rxSeq + x.flitCount) % 4096, rxAny := true }
    let m' := { m.setPort p q' with seen := m.seen.filter fun y => !y.stale p q' }
    match m.rx.bind (·.ack) with | some a => linkIdle m' p true a | none => m'
  | none => m
/-- The link sequence number of a message with weight is kept (15 R288). -/
def keepSeq (m : Mach) (x : Msg) (m' : Mach) : Mach :=
  if x.isWeighted then { m' with seen := ((inPort m x).map fun pq => LinkSeq.next pq.1 pq.2).toList ++ m'.seen } else m'
/-- Is it a message that has come before: one sent again, whose earlier copy was accepted (15 R288) (DEDUCED, log 58)? -/
def repeated (m : Mach) : Bool := (m.rx.bind (·.first)).any fun y => m.seen.contains y
/-- A message of another device reaches this one: discarded when its flits are out of sequence (R306), or when its class is above the
version of its link (R308), dropped when it repeats a weight (15 R288), passed on when it is for a third, else `f`. -/
def arrive (x : Msg) (m : Mach) (f : Mach → Mach) : Mach :=
  if m.rx.isNone && x.hdr.src.toNat == m.deviceNo then f m
  else if outOfSequence m then m
  else
    let m' := acceptFlits m x
    if (inPort m x).any fun pq => pq.2.version = 1 && decide (8 ≤ x.cls) then m'.lose x.flitCount
    else if x.isWeighted && repeated m then m'
    else
      let m' := keepSeq m x m'
      if x.hdr.dst.toNat ≠ m.deviceNo then { m' with outbox := m'.outbox ++ [x] } else f m'

/-- A step of an arriving message (DEDUCED, log 58). -/
def onArrival (x : Msg) (s : State) (f : Mach → Mach) : Outcome State Fault Refusal := .next { s with m := arrive x s.m f }

end Sys2Proof.Machine
end

