-- ==== Sys2Proof/Machine/Fabric.lean ====
section
/-! DEFINITION. The fabric after issue: posted sends, receives, the collective tile table and active messages, with the messages
that carry them on this device (16 R317 to R327; 15 R285 to R288; 14 R276). -/
namespace Sys2Proof.Machine
open Host (Outcome)

/-! Images (13 R249, 16 R321). -/
/-- Codes in row-major order, packed as R22 packs them, then the scales (DEDUCED, log 76). -/
def imageOf (v : View) : List Byte :=
  let w := fmtBits v.fmt
  let n := ((indices v.ext).map v.code).foldr (fun c a => c + a * 2 ^ w) 0
  leBytes (ceilDiv (v.count * w) 8) n ++ v.blocks.flatMap fun b => leBytes (scaleBytes v.fmt v.geom) (v.scaleCode b)
/-- A word with its extents resolved (Table 08-3). -/
def constWord (w : TypeWord) (e : List Nat) : TypeWord := mkType e (TW.fmt w) (TW.layout w) (TW.geom w) (TW.policy w) (TW.degraded w)
/-- An image as a tile to read from. -/
def viewOfImage (w : TypeWord) (bs : List Byte) : View :=
  let e := TW.exts w
  let n := ceilDiv (prod e * fmtBits (TW.fmt w)) 8
  let put (l : List Byte) : Mp Byte := (upFrom 0 l.length).zip l
  { tile := { data := put (bs.take n), scales := put (bs.drop n) }, word := mkType e (TW.fmt w) 0 (TW.geom w) (TW.policy w) false,
    ext := e, frame := e }

/-- Hand a message to the link, or to this device itself. -/
def Mach.post (m : Mach) (dst : Nat) (mk : MsgHdr → Msg) : Mach :=
  let msg := mk (m.header dst)
  if dst = m.deviceNo then m.postWire msg else m.postOut msg

/-! Barrier updates at their controller (R274, R276). -/
/-- Table 14-13 in row order, then R274; a region not yet claimed at restore is not resident (R277's worked example).  An object that
holds an uncorrectable error is not judged (12 R222, R223) (DESIGN CHOICE, log 96). -/
def applyBarrier (m : Mach) (lid : Word) (u : BarUpd) : Except FaultRec Mach :=
  let reset : FaultRec := { cause := 0x10, addr := u.addr }
  if (m.core u.core).inReset then .error reset
  else
    let l := m.launch? lid
    let st := l.bind fun l => l.seats.find? (·.no == u.seat)
    let key := st.elim u.key fun x => scratchKey x.core (x.base + u.regionOff)
    let away := l.any fun l => l.phase == .swapped || l.oldSeats.any (·.no == u.seat)
    if away || st.any (!·.resident) then .ok (m.modLaunch lid fun l => { l with deferred := l.deferred ++
        [{ core := u.core, seat := u.seat, expect := u.expect, arrivals := u.arrivals, bytes := u.bytes, offset := u.regionOff }] })
    else if (keyLocs key).any m.errAt then .error (accFault 0x0A 6 true u.addr.toNat)
    else if (m.barrier key).tag ≠ u.gtag then .error reset
    else match m.updateBarrier key u.expect u.arrivals u.bytes with
      | .ok m => .ok m
      | .error info => .error { cause := 0x0B, addr := u.addr, info := info }
/-- The credit of a receive: arrivals 0, the image bytes (R321); an object in error is an engine's read of its line (12 R223). -/
def creditBarrier (m : Mach) (cx : Nat) (addr : Word) (bytes : Nat) : Except FaultRec Mach :=
  match scratchTarget m cx addr.toNat 16 true, m.launchOf cx with
  | .error f, _ => .error f
  | .ok _, none => .ok m
  | .ok (k, o, _), some l =>
    let st := seatNamed m cx addr.toNat
    match applyBarrier m l.lid { core := k, seat := st.elim 0 (·.no), key := scratchKey k o, regionOff := o - st.elim 0 (·.base), addr := addr,
                                 expect := false, arrivals := 0, bytes := bytes, gtag := l.gtag } with
    | .error f => .error (if f.cause = 0x0A then accFault 0x0A 6 false (addr.toNat / 128 * 128) else f)
    | r => r

/-! Sends (R319). -/
def sendCap : Nat := 64
/-- The lowest free entry of a core's send table. -/
def freeSend (c : Core) : Option Nat := firstNat (fun n => !c.sends.any (·.entry == n)) 0 sendCap
/-- Post a tile: a record with its image, one send-ready to each endpoint in order; the operation leaves its queue (DEDUCED, log 28). -/
def postSend (m : Mach) (o : EOp) (entry : Nat) (word : TypeWord) (tile : Nat) (image : List Byte) (eps : List Word) : Mach :=
  let k := coreOf o.cx
  let root := (m.ctx o.cx).qwRoot
  let tag := o.capB.setWidth 32
  let m := m.modOp k o.uid fun o => { o with started := true, posted := true, reads := [tile] }
  let m := m.modCore k fun c => { c with sends := c.sends ++
    [{ entry := entry, cx := o.cx, uid := o.uid, word := word, tag := tag, left := eps.length, image := image, weight := o.weight,
       root := root, lid := ((m.launchOf o.cx).map (·.lid)).getD 0, seq := m.uid }] }
  eps.foldl (fun m e => m.post (epDevice m e) fun h => .sendReady h
    { word := word, tag := tag, image := image.length, endpoint := e, sender := BitVec.ofNat 10 m.deviceNo, core := k, entry := entry,
      gtag := root.gtag }) m
/-- Start a SEND or MCAST once a send-table entry is free; an MCAST reads its whole list now (R318). -/
def startSend (m : Mach) (o : EOp) : Mach :=
  match freeSend (m.core (coreOf o.cx)), tileError m o with
  | none, _ => m
  | _, some f => engineFault m o f false
  | some n, none =>
    let t := o.cslot.t.toNat
    let v := o.view (m.ctx o.cx).tile 1 t
    let go (m : Mach) (eps : List Word) : Mach := postSend m o n (constWord v.word v.ext) t (imageOf v) eps
    match o.instr with
    | .mcast c =>
      match engRead m o.cx o.capA.toNat (8 * c.w.toNat) with
      | .error e => engStop m o e
      | .ok bs =>
        let eps := (upFrom 0 c.w.toNat).map fun i => BitVec.ofNat 64 (fld bs (8 * i) 8)
        match ((upFrom 0 eps.length).zip eps).find? fun x => epBad x.2 with
        | some (i, e) => engineFault m o { cause := 0x01, addr := o.capA + BitVec.ofNat 64 (8 * i), info := e } false
        | none => go m eps
    | _ => go m [o.capA]

/-- Fired TTFIREs that wait for a free send entry post now, in the order they were queued, once the operations issued before them have
written the tile (R326; 14 R267) (DEDUCED, log 37).  Each acts as that SEND: it does not start while its context's engines are stopped
(17 R329), and an uncorrectable error of the tile is its fault (12 R223). -/
def fireWaiting (m : Mach) (k : Nat) : Mach :=
  ((m.core k).ops.filter EOp.awaitsEntry).foldl (fun m o =>
    match freeSend (m.core k), interlockFree (m.core k).ops o with
    | none, _ => m
    | _, false => m
    | some n, true =>
      let t := o.reads.headD 0
      let v := o.view (m.ctx o.cx).tile 1 t
      if !o.handlerOp && engineStopped (m.ctx o.cx) then m
      else match tileError m o with
      | some f => engineFault m o.unfired f false
      | none => postSend (m.modOp k o.uid fun o => { o with progress := 0 }) { o with progress := 0 } n (constWord v.word v.ext) t (imageOf v) [o.capA]) m

/-- One pull or refusal is counted at the sender; the last is the consumption point: the weight returns, the entry, its spill
slot and the tile are free, kd is done (R319, R323) (DEDUCED, log 26). -/
def countPull (m : Mach) (k entry gtag : Nat) : Mach :=
  match (m.core k).sends.find? fun x => x.entry == entry && x.root.gtag == gtag with
  | none => m
  | some x =>
    if 1 < x.left then m.modCore k fun c => { c with sends := lmod (fun y => y.entry == entry) (fun y => { y with left := y.left - 1 }) c.sends }
    else
      let m := (m.returnWeight x.root x.weight).touch x.root
      let m := m.modCore k fun c => { c with sends := c.sends.filter fun y => y.entry != entry }
      let m := match x.spill with
        | some sp => m.modLaunch x.lid fun l => { l with spillUsed := l.spillUsed.erase sp }
        | none => m
      let m := match (m.core k).op? x.uid with | some o => removeOp m o | none => m
      fireWaiting m k

/-- The sender of a posted tile takes a fault; the operation counts as completed.  A sender that is swapped out takes it once it is
restored (17 R329, R341). -/
def senderFault (m : Mach) (x : SendRec) (f : FaultRec) : Mach :=
  let o := ((m.core (coreOf x.cx)).op? x.uid).getD { uid := x.uid, cx := x.cx, q := .c, instr := .cNop, word := 0, pc := 0 }
  let out := (m.launch? x.lid).any fun l => l.saved.any fun y => 8 * y.core + y.ctx == x.cx
  let take (y : SavedCtx) : SavedCtx :=
    { y with events := y.events ++ [.found x.uid], engFault := y.engFault ++ [({ o with started := false }, f, true)] }
  if out then (m.logFault x.cx f).modLaunch x.lid fun l => { l with saved := lmod (fun y => 8 * y.core + y.ctx == x.cx) take l.saved }
  else if (m.ctx x.cx).launch ≠ some x.lid then m
  else engineFault m o f true
/-- TARGET_RESET for a refused delivery (R322). -/
def refusedAt (m : Mach) (x : SendRec) (endpoint : Word) : Mach := senderFault m x { cause := 0x10, info := endpoint }

/-! Deliveries (R317, R320, R322). -/
inductive Target where
  | here (cx : Nat) | held (lid : Word) | none
deriving DecidableEq, Repr
def epCx (e : Word) : Nat := bits e 7 0 * 8 + bits e 10 8
/-- Where an endpoint leads. -/
def targetOf (m : Mach) (e : Word) : Target :=
  if epBad e then .none
  else match (m.root (bits e 23 16)).launch.bind m.launch? with
    | none => .none
    | some l =>
      if l.phase = .swapped ∨ l.oldSeats.any fun x => x.ctxs.contains (epCx e) then .held l.lid
      else match l.seatOf (epCx e) with
        | none => .none
        | some st => if st.resident then .here (epCx e) else .held l.lid
/-- Send a refusal to a sender. -/
def refuse (m : Mach) (r : ReadyMsg) : Mach :=
  m.post r.sender.toNat fun h => .pull h true r.sender r.core r.entry r.gtag r.endpoint r.tag
/-- Ask for an entry's tile. -/
def askPull (m : Mach) (r : ReadyMsg) : Mach :=
  m.post r.sender.toNat fun h => .pull h false r.sender r.core r.entry r.gtag r.endpoint r.tag
/-- An entry delivered to a context for the launch it runs (R320, R322). -/
def RecvEnt.mine (e : RecvEnt) (m : Mach) (cx : Nat) : Bool := e.cx == cx && (m.ctx cx).launch == some e.lid
/-- Claim a receive entry for an operation: pull its image, or take again the image a failed pull left (R322). -/
def claimEntry (m : Mach) (k uid : Nat) (e : RecvEnt) : Mach :=
  let m := m.modCore k fun c => { c with recvs := match c.recvs.findIdx? (· == e) with
    | some i => lset c.recvs i { e with owner := uid } | none => c.recvs }
  match e.image with
  | some bs => m.post m.deviceNo fun h => .pullData h e.ready.sender e.ready.core e.ready.entry e.ready.gtag e.ready.endpoint bs
  | none => askPull m e.ready

/-- The incoming word against t's, as resolved at issue (Table 08-3). -/
def wordFault (o : EOp) (r : ReadyMsg) : Option FaultRec :=
  match BEnv.unify { bob := [] } (constWord (o.types.getD 1 0) (o.exts.getD 1 [])) 1 r.word Mask.all 1 with
  | .ok _ => none
  | .error f => some f

/-! The collective tile table (R325 to R327). -/
def setEntries (c : Core) : List (Nat × TabEnt) := c.table.filterMap fun x =>
  match x.2 with | some t => if t.fired then none else some (x.1, t) | none => none
/-- Has an unfired entry of this context the tag? -/
def tagTaken (c : Core) (cx : Nat) (tag : BitVec 32) : Bool := (setEntries c).any fun x => x.2.cx == cx && x.2.tag == tag
/-- A set entry fires: its TTSET is done, and an armed TTFIRE becomes a SEND of t. -/
def fireEntry (m : Mach) (k n : Nat) (t : TabEnt) : Mach :=
  let m := m.modCore k fun c => { c with table := mset c.table n (some { t with fired := true, fire := none, left := 0 }) }
  let m := match (m.core k).op? t.op.uid with | some o => removeOp m o | none => m
  match t.fire with
  | none => m
  | some f =>
    let tile := t.op.cslot.t.toNat
    fireWaiting (m.modOp k f.uid fun o => { o with progress := 1, reads := [tile], types := t.op.types, exts := t.op.exts }) k
/-- A contribution, or the set of an entry, that faults: the entry leaves the table with its operation. -/
def tableFault (m : Mach) (k n : Nat) (t : TabEnt) (f : FaultRec) : Mach :=
  let m := m.modCore k fun c => { c with
    table := mdel c.table n
    ops := c.ops.filter fun o => (t.fire.map (·.uid)) != some o.uid
    recvs := lmod (fun e => e.owner == t.op.uid) (fun e => { e with owner := 0 }) c.recvs }
  let m := match t.fire with | some x => m.modCtx t.cx fun c => setTokenDone c x.kd x.uid | none => m
  engineFault m { t.op with resume := some t.toResume } f false
/-- Each set entry without a contribution under way claims the first entry delivered for its tag; the lower-numbered of two
entries with one tag goes first. -/
def claimTables (m : Mach) (k : Nat) : Mach :=
  (setEntries (m.core k)).foldl (fun m x =>
    let c := m.core k
    match mget none c.table x.1 with
    | none => m
    | some t =>
      if t.fired || c.recvs.any (·.owner == t.op.uid) ||
        (setEntries c).any (fun y => decide (y.1 < x.1) && y.2.cx == t.cx && y.2.tag == t.tag) then m
      else match c.recvs.find? fun e => e.mine m t.cx && e.ready.tag == t.tag && e.owner == 0 with
        | none => m
        | some e =>
          match wordFault t.op e.ready with
          | some f => tableFault m k x.1 t f
          | none => claimEntry m k t.op.uid e) m

/-- A send-ready at its receiver: entered, held, refused, or left waiting at the link because the list is full; what was held before it
enters before it. -/
def deliverReady (m : Mach) (r : ReadyMsg) : Option Mach :=
  match targetOf m r.endpoint with
  | .none => some (refuse m r)
  | .held lid => some (m.modLaunch lid fun l => { l with held := l.held ++ [{ cx := epCx r.endpoint, ready := r, lid := lid }] })
  | .here cx =>
    let k := coreOf cx
    if recvRoom m k = 0 ∨ m.launches.any fun l => l.held.any fun e => e.cx == cx then none
    else some (claimTables (m.modCore k fun c => { c with recvs := c.recvs ++ [{ cx := cx, ready := r, lid := (m.ctx cx).launch.getD 0 }] }) k)
/-- Deliveries held for a seat that is resident again enter as the receive list of its core gets room (R320). -/
def enterHeld (m : Mach) : Mach :=
  m.launches.foldl (fun m l => l.held.foldl (fun m e =>
    match l.seatOf e.cx with
    | some st =>
      if st.resident && 0 < recvRoom m st.core then
        (m.modLaunch l.lid fun l => { l with held := l.held.erase e }).modCore st.core fun c => { c with recvs := c.recvs ++ [e] }
      else m
    | none => m) m) m
/-- DEDUCED, log 25. -/
def execSendReady (h : MsgHdr) (r : ReadyMsg) (s : State) : Outcome State Fault Refusal :=
  onArrival (.sendReady h r) s fun m =>
    let x : Msg := .sendReady h r
    let kept := { m with wire := m.wire ++ [x] }
    if m.wire.any x.sameOrder then kept else (deliverReady m r).getD kept

/-! Receives (R321). -/
/-- Start a receive when an entry matches it. -/
def startRecv (m : Mach) (o : EOp) : Mach :=
  let k := coreOf o.cx
  let c := m.core k
  let tag : BitVec 32 := o.capA.setWidth 32
  if tagTaken c o.cx tag then m
  else match c.recvs.find? fun e => e.mine m o.cx && e.ready.tag == tag && e.owner == 0 with
    | none => m
    | some e =>
      match wordFault o e.ready with
      | some f => engineFault m o f false
      | none => claimEntry (startOp m o) k o.uid e

/-- How a contribution changes t. -/
inductive Combine where
  | copy | add | draw
deriving DecidableEq, Repr
def combineOf (o : EOp) : Combine :=
  match o.instr with
  | .recvadd _ => .add
  | .recvdraw _ => .draw
  | .ttset _ => let f := TW.fmt (o.types.getD 1 0); if f = 1 ∨ f = 9 then .add else if f = 0x13 then .draw else .copy
  | _ => .copy
/-- RECV: codes and scales copied. -/
def combineCopy (d s : View) : View :=
  let d := (indices d.ext).foldl (fun d ix => d.setCode ix (s.code ix)) d
  s.blocks.foldl (fun d b => d.setScale b (s.scaleCode b)) d
/-- RECVADD at one element. -/
def addCode (d s : View) (ix : List Nat) : Except FaultRec Nat := do
  let g := d.geom
  let sc := scaleValue d.fmt g (d.scaleCode [])
  if d.fmt = 9 ∧ g = 0 then
    let a ← rd 1 (d.int ix)
    let b ← rd 1 (s.int ix)
    .ok (unsgn 32 (a + b))
  else
    let a ← rd 1 (d.exact ix)
    let b ← rd 1 (s.exact ix)
    .ok (if d.fmt = 9 then (quantise 9 (TW.policy d.word) [] .rne sc (a.add b)).1 else f32c (fp32.div .rne (a.add b) sc))
def combineAdd (d s : View) : Except FaultRec View := do
  let vs ← (indices d.ext).mapM fun ix => do .ok (ix, ← addCode d s ix)
  .ok (vs.foldl (fun d x => d.setCode x.1 x.2) d)
/-- RECVDRAW from counter position c0. -/
def combineDraw (key : BitVec 32) (c0 : Nat) (d s : View) : Except FaultRec (View × Bool) := do
  let ixs := indices d.ext
  let vs ← ((upFrom 0 ixs.length).zip ixs).mapM fun (p, ix) =>
    match mergeOpen key (BitVec.ofNat 32 (c0 + p)) (Draw.ofCode (d.code ix)) (Draw.ofCode (s.code ix)) (d.isOpen ix) (s.isOpen ix) with
    | none => (.error { cause := 0x0F, info := BitVec.ofNat 64 p } : Except FaultRec (List Nat × Nat × Bool))
    | some r => .ok (ix, r.1.code, r.2)
  .ok (vs.foldl (fun d x => d.setCode x.1 x.2.1) d, vs.any (·.2.2))
/-- One contribution into t; `k` is its number. -/
def combineInto (o : EOp) (d s : View) (k : Nat) : Except FaultRec (View × Bool) :=
  match combineOf o with
  | .copy => .ok (combineCopy d s, false)
  | .add => do .ok (← combineAdd d s, false)
  | .draw => combineDraw o.key (o.c0.toNat + k * prod d.ext) d s
/-- Combine an image into an operation's tile. -/
def takeImage (m : Mach) (o : EOp) (w : TypeWord) (image : List Byte) (k : Nat) : Except FaultRec Mach :=
  match tileError m o with
  | some f => .error f
  | none => do
    let t := o.cslot.t.toNat
    let (v, flag) ← combineInto o (o.view (m.ctx o.cx).tile 1 t) { viewOfImage w image with bank := [] } k
    let m := m.putTile o.cx t v.tile
    .ok (if flag then m.modCtx o.cx Ctx.setDrawFlag else m)

/-- An entry is used up; a local sender's count follows, and the weight moves (R303). -/
def consumeEntry (m : Mach) (k : Nat) (e : RecvEnt) : Mach :=
  let m := m.modCore k fun c => { c with recvs := c.recvs.erase e }
  if e.ready.sender.toNat = m.deviceNo then countPull m e.ready.core e.ready.entry e.ready.gtag else m
/-- A pull that changed nothing: the entry waits again, with its image (R322). -/
def keepEntry (m : Mach) (k : Nat) (e : RecvEnt) (image : List Byte) : Mach :=
  m.modCore k fun c => { c with recvs := match c.recvs.findIdx? (· == e) with
    | some i => lset c.recvs i { e with owner := 0, image := some image } | none => c.recvs }
/-- PULL_DATA completes a receive, or a contribution of a table entry. -/
def pullDataAt (m : Mach) (sender : BitVec 10) (core entry : Nat) (endpoint : Word) (image : List Byte) : Mach :=
  let k := coreOf (epCx endpoint)
  match (m.core k).recvs.find? fun e => e.owner != 0 && e.ready.sender == sender && e.ready.core == core && e.ready.entry == entry &&
      e.ready.endpoint == endpoint with
  | none => m
  | some e =>
    match (m.core k).op? e.owner, (setEntries (m.core k)).find? fun x => x.2.op.uid == e.owner with
    | none, _ => keepEntry m k e image
    | some o, some (n, t) =>
      match takeImage m o e.ready.word image t.k with
      | .error f => tableFault (keepEntry m k e image) k n t f
      | .ok m =>
        let t := { t with k := t.k + 1, left := t.left - 1 }
        let m := consumeEntry (m.modCore k fun c => { c with table := mset c.table n (some t) }) k e
        claimTables (if t.left = 0 then fireEntry m k n t else m) k
    | some o, none =>
      match takeImage m o e.ready.word image 0 with
      | .error f => engineFault (keepEntry m k e image) o f false
      | .ok m =>
        let m := consumeEntry m k e
        let r := if o.cslot.sb = 0 then Except.ok m else creditBarrier m o.cx o.capB image.length
        match r with
        | .ok m => l1Drop (removeOp m o) k
        | .error f => engineFault (l1Drop (removeOp m o) k) o f true
def execPullData (h : MsgHdr) (sender : BitVec 10) (core entry gtag : Nat) (endpoint : Word) (image : List Byte) (s : State) :
    Outcome State Fault Refusal :=
  onArrival (.pullData h sender core entry gtag endpoint image) s fun m => pullDataAt m sender core entry endpoint image

/-- PULL at the sender, which names the entry of its send table (Table 16-5): a refusal counts, and its sender faults; a pull is answered
with the image, of the tile or its spill copy, and counts there unless the receiver counts it (R321 to R323).  A spill copy that cannot be
read is the sender's fault, and the pull is not answered (12 R222, R223) (DESIGN CHOICE, log 96). -/
def pullAt (m : Mach) (h : MsgHdr) (refusal : Bool) (sender : BitVec 10) (core entry : Nat) (endpoint : Word) : Mach :=
  match (m.core core).sends.find? fun x => x.entry == entry with
  | none => m
  | some x =>
    let gtag := x.root.gtag
    if sender.toNat ≠ m.deviceNo then m
    else if refusal then countPull (refusedAt m x endpoint) core entry gtag
    else
      let copy := (x.spill.bind fun sp => (m.launch? x.lid).map fun l => l.spillBase + sp.1)
      match copy.bind fun a => m.devFailure a x.image.length false with
      | some (va, cause, sub) => senderFault m x (accFault (BitVec.ofNat 8 cause) sub false va)
      | none =>
        let image := copy.elim x.image fun a => m.devRead a x.image.length
        let m := m.post h.src.toNat fun g => .pullData g sender core entry gtag endpoint image
        if h.src.toNat = m.deviceNo then m else countPull m core entry gtag
def execPull (h : MsgHdr) (refusal : Bool) (sender : BitVec 10) (core entry gtag : Nat) (endpoint : Word) (tag : BitVec 32) (s : State) :
    Outcome State Fault Refusal :=
  onArrival (.pull h refusal sender core entry gtag endpoint tag) s fun m => pullAt m h refusal sender core entry endpoint

/-! TTSET and TTFIRE. -/
/-- Set an entry; one already set is waited for.  The TTFIRE that a replayed TTSET brings along is queued again under the number after it,
with a slot word of no tokens (17 R343) (DEDUCED, log 37). -/
def startTtset (m : Mach) (o : EOp) : Mach :=
  let k := coreOf o.cx
  let n := o.cslot.w.toNat
  let busy := match mget none (m.core k).table n with | some t => !t.fired | none => false
  if busy then m
  else
    let count := bits o.capA 9 0
    let left := (o.resume.map (·.1)).getD count
    let m := m.modOp k o.uid fun o => { o with started := true, posted := true, resume := none }
    let (m, fire) := match o.resume.bind (·.2) with
      | none => (m, none)
      | some (tag, ep, w) =>
        let i : Instr := .ttfire { w := o.cslot.w }
        let f : EOp := { uid := o.uid + 1, cx := o.cx, q := .c, instr := i, word := (encode i).elim 0 fun x => x.2, pc := o.pc, capA := ep,
                         capB := tag.setWidth 64, weight := w, started := true, posted := true }
        (m.modCore k fun c => { c with ops := c.ops ++ [f] }, some f)
    let t : TabEnt := { cx := o.cx, op := { o with resume := none }, tag := o.capB.setWidth 32, left := left, k := count - left, fire := fire }
    let m := m.modCore k fun c => { c with table := mset c.table n (some t) }
    if left = 0 then fireEntry m k n t else claimTables m k
/-- Arm an entry, or send at once what has fired; an unset entry is a CANCEL found by the engine (R326). -/
def startTtfire (m : Mach) (o : EOp) : Mach :=
  let k := coreOf o.cx
  let n := o.cslot.w.toNat
  match mget none (m.core k).table n with
  | none => engineFault m o { cause := 0x15, info := BitVec.ofNat 64 (2 + n * 2 ^ 16) } false
  | some t =>
    let m' := m.modOp k o.uid fun o => { o with started := true, posted := true }
    if t.fired then
      fireWaiting (m'.modOp k o.uid fun o => { o with progress := 1, reads := [t.op.cslot.t.toNat], types := t.op.types, exts := t.op.exts }) k
    else if t.fire.isSome then m
    else m'.modCore k fun c => { c with table := mset c.table n (some { t with fire := some o }) }

/-! Active messages (R324). -/
/-- The task of a tile record or template (Table 05-6). -/
def taskOfRecord (bs : List Byte) (root : RootRef) (stealable : Bool) : Task :=
  let n := min 6 (fld bs 3 1 % 8)
  { x := BitVec.ofNat 32 (fld bs 16 4), y := BitVec.ofNat 32 (fld bs 20 4), z := BitVec.ofNat 32 (fld bs 24 4), word := BitVec.ofNat 64 (fld bs 56 8),
    entry := fld bs 2 1, weight := BitVec.ofNat 64 (fld bs 8 8), root := root,
    binds := (upFrom 0 n).map fun i => let b := fld bs (32 + 4 * i) 4; (b / 2 ^ 28, b % 2 ^ 23), stealable := stealable, raw := bs }
/-- Start an AMSG: the template is read now (DEDUCED, log 27). -/
def startAmsg (m : Mach) (o : EOp) : Mach :=
  match engRead m o.cx o.capA.toNat 64 with
  | .error e => engStop m o e
  | .ok bs =>
    let root := (m.ctx o.cx).qwRoot
    let bs := bs.take 4 ++ leBytes 4 (fld bs 4 4 % 2 ^ 24 + root.domain.toNat * 2 ^ 24) ++ leBytes 8 o.weight.toNat ++ bs.drop 16
    let kernel := ((m.launchOf o.cx).map (·.kernel.handle)).getD 0
    let d := epDevice m o.capB
    let m' := m.modOp (coreOf o.cx) o.uid fun o => { o with started := true, progress := m.msgNo % 4096 }
    m'.post d fun h => .activeMessage h bs o.capB (BitVec.ofNat 10 root.device) root.gtag kernel
/-- The answer of another device to an AMSG, some time after its message has left this one: accepted, or refused with TARGET_RESET.
No message class carries it, so which of the two it is is a free value (R324) (DEDUCED, log 27). -/
def amsgAnswer (m : Mach) (core uid : Nat) : Mach :=
  match (m.core core).op? uid with
  | none => m
  | some o =>
    let waits (x : Msg) : Bool := match x with | .activeMessage h _ _ _ _ _ => h.tag.toNat == o.progress | _ => false
    let here := (m.wire ++ m.outbox ++ m.ports.flatMap fun p => p.2.unacked.map fun u => u.2.2).any waits
    if !o.shareSent || epDevice m o.capB = m.deviceNo || here then m
    else if Config.freePick m.fresh % 2 = 0 then removeOp { m with fresh := m.fresh + 1 } o
    else engineFault (removeOp { m with fresh := m.fresh + 1 } o) o { cause := 0x10, info := o.capB } true
/-- The AMSG operation of this device that a message came from. -/
def amsgOp (m : Mach) (h : MsgHdr) : Option EOp :=
  if h.src.toNat ≠ m.deviceNo then none
  else (m.cores.flatMap fun x => x.2.ops).find? fun o =>
    o.started && o.progress == h.tag.toNat && match o.instr with | .amsg _ => true | _ => false
/-- ACTIVE_MESSAGE: accepted as a task of the launch named, or refused with its weight returned. -/
def activeAt (m : Mach) (h : MsgHdr) (bs : List Byte) (endpoint : Word) (sender : BitVec 10) (gtag : Nat) (kernel : Word) : Mach :=
  let root : RootRef := ⟨sender.toNat, BitVec.ofNat 8 (fld bs 7 1), gtag⟩
  let ok := ((m.root (bits endpoint 23 16)).launch.bind m.launch?).filter fun l => l.phase != .failing && l.kernel.handle == kernel
  let op := amsgOp m h
  match ok with
  | some l =>
    let m := m.modLaunch l.lid fun l => { l with msgs := l.msgs ++ [taskOfRecord bs root false] }
    match op with | some o => removeOp m o | none => m
  | none =>
    let m := m.returnWeight root (BitVec.ofNat 64 (fld bs 8 8))
    match op with
    | some o => engineFault (removeOp m o) o { cause := 0x10, info := endpoint } true
    | none => m
def execActiveMessage (h : MsgHdr) (template : List Byte) (endpoint : Word) (sender : BitVec 10) (gtag : Nat) (kernel : Word) (s : State) :
    Outcome State Fault Refusal :=
  onArrival (.activeMessage h template endpoint sender gtag kernel) s fun m => activeAt m h template endpoint sender gtag kernel

/-! The copy engine's start and completion (R254). -/
def startC (m : Mach) (o : EOp) : Mach :=
  match o.instr with
  | .send _ => startSend m o
  | .mcast _ => startSend m o
  | .recv _ => startRecv m o
  | .recvadd _ => startRecv m o
  | .recvdraw _ => startRecv m o
  | .amsg _ => startAmsg m o
  | .ttset _ => startTtset m o
  | .ttfire _ => startTtfire m o
  | _ => startCopy m o
def copyStart (m : Mach) (core uid : Nat) : Mach :=
  match (m.core core).op? uid with
  | some o => if o.q == .c && copyTurn m o && opReady m o then startC m o else m
  | none => m
def copyComplete (m : Mach) (core uid : Nat) : Mach :=
  match (m.core core).op? uid with
  | some o => if o.q == .c && o.started && isMover o.instr then completeCopy m o else m
  | none => m
def execCopyOpStart (core uid : Nat) (s : State) : Outcome State Fault Refusal := .next { s with m := copyStart s.m core uid }
def execCopyOpComplete (core uid : Nat) (s : State) : Outcome State Fault Refusal := .next { s with m := copyComplete s.m core uid }

/-- May the update of a waiting BARRIVE or BEXPECT be performed: a BARRIVE after every earlier access of its context, a BEXPECT after
those to its object and those that a fence or an acquire puts first (14 R262, R265); no prefetch holds one back (13 R242). -/
def Ctx.updateReady (c : Ctx) (u : BarUpd) : Bool :=
  if u.expect then !c.out.any fun a => a.blocksLater || a.locs.any (keyLocs u.key).contains else !c.busyOut
/-- BARRIER_UPDATE: the update of a waiting BARRIVE or BEXPECT (R274, R276). -/
def barrierAt (m : Mach) (cx : Nat) : Mach :=
  let c := m.ctx cx
  match c.barrier with
  | none => m
  | some u =>
    if !c.updateReady u then m
    else match applyBarrier m (c.launch.getD 0) u with
      | .ok m => m.modCtx cx fun c => { c with barrier := none, await := some (.answered true false 0) }
      | .error f => m.modCtx cx fun c => { c with barrier := none, await := some (.faulted f) }
def execBarrierUpdate (cx : Nat) (s : State) : Outcome State Fault Refusal := .next { s with m := barrierAt s.m cx }

end Sys2Proof.Machine
end

