-- ==== Sys2Proof/Machine/GQuiet.lean ====
section
/-! DEFINITION. Weights, spawns, records and escalation of the G slot (15 R293 to R301, 10 R192). -/
namespace Sys2Proof.Machine

/-- A return or a new carrier waits for every earlier access of the context (R292). -/
def afterAccesses (f : State → State) (s : State) : State :=
  whenFree f (if (preCtx s).busyOut then stallOn .internal s else s)
/-- The root of the context's weight (R287). -/
def myRoot (s : State) : RootRef := (preCtx s).qwRoot
def setQw (w : Word) (s : State) : State := onCtx (fun c => { c with qw := w }) s
/-- Split QW (R281), or the QUIET_DEPTH fault. -/
def splitQw (k : Slot) (f : Word → Word → State → State) (s : State) : State :=
  match splitWeight (preCtx s).qw with
  | none => faultAt k { cause := 0x0C, info := (preCtx s).qw } s
  | some (keep, give) => f keep give (moveWeight s)
def giveBack (w : Word) (s : State) : State := onMach (fun m => m.returnWeight (myRoot s) w) s

/-- QSPLIT (R294). -/
def execQsplit (g : GSlot) (s : State) : Host.Outcome State Fault Refusal :=
  runG (.qsplit g) (fun s =>
    afterAccesses (splitQw .g fun keep give s => setQw keep (wrS g.sd 1 give s)) (writesFrozen (sr s g.sd) s)) s
/-- QJOIN (R295). -/
def execQjoin (g : GSlot) (s : State) : Host.Outcome State Fault Refusal :=
  runG (.qjoin g) (fun s =>
    let p : PReg := lo3 g.sd
    let w := rs s g.sa
    let q := (preCtx s).qw
    let s := writesFrozen (pref p) (reads [sr s g.sa] s)
    whenFree (fun s =>
      if wAmount w = 0 then wrP p 1 true s
      else if wAmount q = 0 then wrP p 1 true (setQw w (moveWeight s))
      else if wScale w = wScale q ∧ wAmount q + wAmount w < 2 ^ 60 then
        wrP p 1 true (setQw (mkWeight (wScale q) (wAmount q + wAmount w)) (moveWeight s))
      else afterAccesses (fun s => wrP p 1 false (giveBack w s)) s) s) s
/-- QRET and QRET.QW (R296). -/
def execQret (g : GSlot) (s : State) : Host.Outcome State Fault Refusal :=
  runG (.qret g) (fun s => afterAccesses (giveBack (rs s g.sa)) (reads [sr s g.sa] s)) s
def execQretQw (g : GSlot) (s : State) : Host.Outcome State Fault Refusal :=
  runG (.qretQw g) (afterAccesses fun s => setQw 0 (giveBack (preCtx s).qw s)) s

/-- The QUIET_DOMAIN fault. -/
def quietFault (n : Nat) : FaultRec := { cause := 0x0D, info := BitVec.ofNat 64 n }
/-- Is the context the registered waiter of its launch's root (R297)? -/
def isWaiter (s : State) : Bool :=
  match preLaunch s with
  | none => false
  | some l =>
    let r := (pre s).root l.domain
    r.waiter == some s.issue.cx || r.granted == some s.issue.cx
/-- QWAIT (R297) (DEDUCED, log 34). -/
def execQwait (g : GSlot) (s : State) : Host.Outcome State Fault Refusal :=
  runG (.qwait g) (fun s =>
    let p : PReg := lo3 g.sd
    let s := writesFrozen (pref p) s
    afterAccesses (fun s =>
      match awaiting s with
      | some .asked => askFor .hold s
      | some (.faulted f) => faultAt .g f s
      | some (.answered ok _ w) =>
        let s := wrP p 1 ok (setQw w s)
        if ok then pushAccess { uid := 0, kind := .fence, blocksLater := true, dropL1 := true } s else s
      | none =>
        if wAmount (preCtx s).qw = 0 && !isWaiter s then faultAt .g (quietFault 1) s
        else if (preLaunch s).any (fun l => l.rootRef (pre s) != myRoot s) then faultAt .g (quietFault 3) s
        else askFor (.qwait (preCtx s).qw) s) s) s
/-- QREAD (R298). -/
def execQread (g : GSlot) (s : State) : Host.Outcome State Fault Refusal :=
  runG (.qread g) (fun s =>
    let r := sr s g.sd
    if g.disp = 0 then giveTo r (preCtx s).qw s
    else pushAccess { uid := 0, kind := .readRoot g.disp.toNat r.dest? } (pendOn r s)) s

/-- Entries in use in the spawn list of a die (R299). -/
def spawnsOn (m : Mach) (die : Nat) : Nat := ((m.launches.filter fun l => l.home == die).map fun l => l.spawns.length).sum
def spawnCap : Nat := 65536
/-- SPAWN (R299).  The scheduler that lists the task takes its share out of QW at once, so that weight is never in two places (R286). -/
def execSpawn (g : GSlot) (s : State) : Host.Outcome State Fault Refusal :=
  runG (.spawn g) (fun s =>
    let x := rs s g.sa
    afterAccesses (fun s =>
      match awaiting s with
      | some .asked => askFor .hold s
      | some _ => moveWeight s
      | none => splitQw .g (fun keep give s =>
        match preLaunch s with
        | none => s
        | some l =>
        let t : Task := { x := x.setWidth 32, y := x.extractLsb' 32 32, z := (rs s g.sd).setWidth 32, word := rs s g.sb,
                          entry := g.disp.toNat, weight := give, root := myRoot s }
          if spawnsOn (pre s) l.home < spawnCap && !((pre s).die l.home).reqs.any (fun r => match r with | .spawn _ _ _ => true | _ => false) then
            setQw keep (onMach (fun m => m.modLaunch l.lid fun l => { l with spawns := l.spawns ++ [t] }) s)
          else askFor (.sched (.spawn s.issue.cx l.lid t)) (setQw keep s)) s)
      (reads [sr s g.sa, sr s g.sb, sr s g.sd] s)) s

/-- LREC (R300): its template is read as a load of 64 bytes, and the scheduler that writes the record takes its share out of QW at once (R286)
(DEDUCED, log 29). -/
def execLrec (g : GSlot) (s : State) : Host.Outcome State Fault Refusal :=
  runG (.lrec g) (fun s =>
    let p : PReg := lo3 g.sd
    let s := writesFrozen (pref p) (reads (gSources s g) s)
    afterAccesses (fun s =>
      let a := gNat s g
      match awaiting s with
      | some .asked => askFor .hold s
      | some (.faulted f) => faultAt .g f s
      | some (.answered _ true _) => faultAt .g (accFault 0x0A 8 false a) s
      | some (.answered false false _) => wrP p 1 false s
      | some (.answered true false _) => wrP p 1 true (moveWeight s)
      | none =>
        if a % 64 ≠ 0 then faultAt .g (alignFault a) s
        else withRes .g (resolveAt (pre s) s.issue.cx a 64 [.read]) false
          (fun l s =>
            if underReset (pre s) s.issue.cx l then faultAt .g { cause := 0x10, addr := BitVec.ofNat 64 a } s
            else if l.any (fun x => (pre s).errAt x && !l1Has (pre s) (coreOf s.issue.cx) x) then faultAt .g (accFault 0x0A 6 false a) s
            else splitQw .g (fun keep give s =>
              let t := (loadBytes (pre s) (coreOf s.issue.cx) l 0).2
              askFor (.sched (.lrec s.issue.cx ((preCtx s).launch.getD 0) (fld t 28 2 % 4096) (fld t 4 4 % 2 ^ 24) t give
                (if l.any isHost then some (gAddr s g) else none))) (askFor (.load l) (setQw keep s))) s)
          (fun _ _ s => s) s) s) s
/-- LCOMMIT (R301). -/
def execLcommit (g : GSlot) (s : State) : Host.Outcome State Fault Refusal :=
  runG (.lcommit g) (fun s =>
    let s := reads [sr s g.sa] s
    whenFree (fun s =>
      match awaiting s with
      | some .asked => askFor .hold s
      | some _ => s
      | none => askFor (.sched (.lcommit s.issue.cx ((preCtx s).launch.getD 0) ((rs s g.sa).toNat % 2 ^ 24))) s) s) s
/-- ESCAL (10 R192). -/
def execEscal (g : GSlot) (s : State) : Host.Outcome State Fault Refusal :=
  runG (.escal g) (fun s =>
    let s := writesFrozen (sr s g.sd) s
    whenFree (fun s =>
      match awaiting s with
      | some .asked => askFor .hold s
      | some (.answered true _ v) => wrS g.sd 1 v s
      | some _ => faultAt .g { cause := 0x0E } s
      | none => askFor (.sched (.escal s.issue.cx ((preCtx s).launch.getD 0))) s) s) s

end Sys2Proof.Machine
end

