-- ==== Sys2Proof/Machine/GSync.lean ====
section
/-! DEFINITION. Ordering instructions and barrier objects of the G slot (14 R264 to R266, R271 to R276). -/
namespace Sys2Proof.Machine

/-- FENCE (R265) (DEDUCED, log 11). -/
def fenceAccess (h : BitVec 8) : Access := { uid := 0, kind := .fence, needsEarlier := true, blocksLater := true, dropL1 := coreScope h }
def execFence (g : GSlot) (s : State) : Host.Outcome State Fault Refusal := runG (.fence g) (pushAccess (fenceAccess g.hint)) s
/-- DRAIN: no slot of its bundle takes effect while an engine operation or an access of the context is outstanding; a prefetch holds nothing back
(13 R242). -/
def execDrain (g : GSlot) (s : State) : Host.Outcome State Fault Refusal :=
  runG (.drain g) (fun s =>
    let cx := s.issue.cx
    let busy := ((pre s).core (coreOf cx)).ops.any (fun o => o.cx == cx) || (preCtx s).busyOut
    pushAccess (fenceAccess g.hint) (if busy then stallOn .internal s else s)) s
/-- ACQ. -/
def execAcq (g : GSlot) (s : State) : Host.Outcome State Fault Refusal :=
  runG (.acq g) (fun s =>
    let r := sr s g.sd
    let core := coreScope g.hint
    whenFree (fun s =>
      let a := gNat s g
      if a % 8 ≠ 0 then faultAt .g (alignFault a) s
      else withRes .g (resolveAt (pre s) s.issue.cx a 8 [.read]) false
        (fun l s => pushAccess { uid := 0, kind := .acquire r.dest?, locs := l, addr := gAddr s g, blocksLater := true, dropL1 := core } (pendOn r s))
        (fun _ _ s => pushAccess { uid := 0, kind := .give r.dest? 0, addr := gAddr s g, blocksLater := true, dropL1 := core } (pendOn r s)) s)
      (writesPending r (reads (gSources s g) s))) s
/-- REL. -/
def execRel (g : GSlot) (s : State) : Host.Outcome State Fault Refusal := storeG (.rel g) g 8 true s

/-! Barrier objects. -/
/-- The object's controller and place, after the checks of R273: an aperture, 16-byte alignment, the region. -/
def barObject (s : State) (a : Nat) (write : Bool) : Except FaultRec (Nat × Nat × Bool) :=
  match scratchTarget (pre s) s.issue.cx a 16 write with
  | .error f => if f.info.toNat % 16 ≠ 3 && a % 16 ≠ 0 then .error (alignFault a) else .error f
  | .ok x => if a % 16 ≠ 0 then .error (alignFault a) else .ok x
/-- An acquire at a scope, with nothing to read. -/
def acquireAt (h : BitVec 8) : Access := { uid := 0, kind := .fence, blocksLater := true, dropL1 := coreScope h }

/-- BINIT: a store of the object. -/
def execBinit (g : GSlot) (s : State) : Host.Outcome State Fault Refusal :=
  runG (.binit g) (fun s =>
    let v := (rs s g.sd).toNat
    whenFree (fun s =>
      match barObject s (gNat s g) true with
      | .error f => faultAt .g f s
      | .ok (_, _, false) => stallOn .internal s
      | .ok (k, o, true) =>
        let obj : BarObj := { expArr := v % 2 ^ 16, arr := 0, expBytes := v / 2 ^ 32, bytes := 0, phase := false,
                              tag := ((preLaunch s).map (·.gtag)).getD 0 }
        pushAccess { uid := 0, kind := .store obj.encode, locs := keyLocs (scratchKey k o), addr := gAddr s g } s)
      (reads (sr s g.sd :: gSources s g) s)) s

/-- BARRIVE and BEXPECT ask the object's controller and retire with its answer (R274, R276). -/
def barUpdateG (i : Instr) (g : GSlot) (expect : Bool) (s : State) : Host.Outcome State Fault Refusal :=
  runG i (fun s =>
    let v := (rs s g.sd).toNat
    whenFree (fun s =>
      match awaiting s with
      | some .asked => askFor .hold s
      | some (.answered _ _ _) => s
      | some (.faulted f) => faultAt .g f s
      | none =>
        match barObject s (gNat s g) true with
        | .error f => faultAt .g f s
        | .ok (k, o, _) =>
          let st := seatNamed (pre s) s.issue.cx (gNat s g)
          askFor (.barrier { core := k, seat := st.elim 0 (·.no), key := scratchKey k o, regionOff := o - st.elim 0 (·.base), addr := gAddr s g, expect := expect,
                             arrivals := if expect then 0 else v % 2 ^ 16, bytes := if expect then v % 2 ^ 32 else v / 2 ^ 32,
                             gtag := ((preLaunch s).map (·.gtag)).getD 0 }) s)
      (reads (sr s g.sd :: gSources s g) s)) s
def execBarrive (g : GSlot) (s : State) : Host.Outcome State Fault Refusal := barUpdateG (.barrive g) g false s
def execBexpect (g : GSlot) (s : State) : Host.Outcome State Fault Refusal := barUpdateG (.bexpect g) g true s

/-- BWAIT (R275): it retires when the phase differs from the parity observed, else at the first advance after its issue. -/
def execBwait (g : GSlot) (s : State) : Host.Outcome State Fault Refusal :=
  runG (.bwait g) (fun s =>
    let parity := (rs s g.sd).getLsbD 0
    whenFree (fun s =>
      match barObject s (gNat s g) false with
      | .error f => faultAt .g f s
      | .ok (_, _, false) => stallOn .internal s
      | .ok (k, o, true) =>
        let key := scratchKey k o
        let fenced := (preCtx s).out.any (·.blocksLater)
        let mine := (preCtx s).out.any fun a => overlapLocs a.locs (keyLocs key)
        match (preCtx s).bwait with
        | some (_, true) => pushAccess (acquireAt g.hint) s
        | w =>
          if underReset (pre s) s.issue.cx (keyLocs key) then faultAt .g { cause := 0x10, addr := gAddr s g } s
          else if (keyLocs key).any (pre s).errAt then faultAt .g (accFault 0x0A 6 false (gNat s g)) s
          else if w.isSome || mine || fenced then stallOn .internal s
          else if ((pre s).barrier key).phase != parity then pushAccess (acquireAt g.hint) s
          else askFor (.bwait key) s)
      (reads (sr s g.sd :: gSources s g) s)) s
where
  overlapLocs (a b : List Loc) : Bool := a.any b.contains
/-- BTEST. -/
def execBtest (g : GSlot) (s : State) : Host.Outcome State Fault Refusal :=
  runG (.btest g) (fun s =>
    let r : RegRef := .p (g.sd.toNat % 8)
    whenFree (fun s =>
      match barObject s (gNat s g) false with
      | .error f => faultAt .g f s
      | .ok (_, _, false) => stallOn .internal s
      | .ok (k, o, true) =>
        pushAccess { uid := 0, kind := .barrierTest (scratchKey k o) r.dest?, locs := keyLocs (scratchKey k o), addr := gAddr s g,
                     blocksLater := true, dropL1 := coreScope g.hint } (pendOn r s))
      (writesPending r (reads (gSources s g) s))) s

end Sys2Proof.Machine
end

