-- ==== Sys2Proof/Machine/Subs.lean ====
section
/-! DEFINITION. The subscription engines: a slot starts, moves its items one at a time, and ends
(12 R217, R223, R229 to R231; 13 R249). -/
namespace Sys2Proof.Machine
open Host (Outcome)

/-- One move of a slot: the bits of the slot image, then the window byte and bit, and the width. -/
structure SubItem where
  image : Nat
  va : Nat
  bit : Nat
  width : Nat
deriving DecidableEq, Repr
def subWindow (m : Mach) (cx : Nat) (u : Sub) : Window := ((m.launchOf cx).map fun l => mget ({} : Window) l.windows u.win.toNat).getD {}
/-- The items of the tile in progress (R249): element codes, then the scales of its blocks. -/
def subItems (m : Mach) (cx : Nat) (u : Sub) : List SubItem :=
  let w := subWindow m cx u
  let f := fmtBits (TW.fmt w.ty)
  let g := TW.geom w.ty
  let (r, c) := u.origin u.next
  let o := [r.toNat, c.toNat]
  let e := [u.h, u.c]
  let els := (upFrom 0 (u.h * u.c)).map fun i =>
    let a := w.elemAt w.base.toNat [r.toNat + i / u.c, c.toNat + i % u.c]
    SubItem.mk (i * f) a.1 a.2 f
  let n := scaleBytes (TW.fmt w.ty) g
  let blks := if g = 0 then [] else indices (blockDims g e)
  els ++ ((upFrom 0 blks.length).zip blks).map fun (i, b) =>
    SubItem.mk (8 * (ceilDiv (u.h * u.c * f) 8 + i * n)) (w.regionScale w.base.toNat o b) 0 (8 * n)

/-- The subscription stops on an error; its context takes an engine-found fault (R223) (DEDUCED, log 72). -/
def subStop (m : Mach) (cx ring : Nat) (f : FaultRec) : Mach :=
  let m := m.logErr (dieOf (coreOf cx)) f.addr (coreOf cx) (cx % 8) f.cause.toNat (f.info.toNat % 16)
  m.modCtx cx fun c => (c.modSub ring fun u => { u with stopped := true, erred := true }).addFault (.engine 2 f)
/-- The address of a slot byte in the local aperture. -/
def slotAp (u : Sub) (slot byte : Nat) : Nat := localBase + u.offset + slot * u.slotBytes + byte

/-- Is an item the last of the tile for its window byte, and do the tile's items write every bit of that byte? -/
def lastOfByte (m : Mach) (cx : Nat) (u : Sub) (x : SubItem) : Bool :=
  let items := subItems m cx u
  (items.filter (·.va == x.va)).length * x.width == 8 && !(items.drop (u.moved + 1)).any (·.va == x.va)
/-- Move one item between the window and the slot. -/
def moveSub (m : Mach) (cx : Nat) (c : Ctx) (u : Sub) (x : SubItem) : Except FaultRec Mach :=
  let key := slotKey cx c u (u.next % u.states.length) + x.image / 8
  let locs : List Loc := (upFrom key (ceilDiv x.width 8)).map Loc.scratch
  let stop {α : Type} : CopyStop → Except FaultRec α | .fault f => .error f | _ => .error { cause := 0x0A, addr := BitVec.ofNat 64 x.va }
  if u.pull then
    if locs.any m.errAt then .error (accFault 0x0A 6 false (slotAp u (u.next % u.states.length) (x.image / 8) / 128 * 128))
    else
      let code := leNat (m.readLocs locs) / 2 ^ (x.image % 8)
      if x.width < 8 then
        match engWriteBits m cx x.va x.bit x.width code (m.errs.isEmpty || lastOfByte m cx u x) true with
        | .error e => stop e
        | .ok m => .ok m
      else match engWrite m cx x.va (leBytes (x.width / 8) code) true with
        | .error e => stop e
        | .ok m => .ok m
  else
    match engRead m cx x.va (ceilDiv x.width 8) true with
    | .error e => stop e
    | .ok bs =>
      let code := leNat bs / 2 ^ x.bit % 2 ^ x.width
      let old := if x.image % 8 = 0 then 0 else leNat (m.readLocs locs)
      .ok (if x.width < 8 then m.writePart locs (BitVec.ofNat 8 (putBits old (x.image % 8) x.width code)) (x.image % 8 = 0)
        else m.writeLocs locs (leBytes locs.length code))
/-- Move up to `n` items of the slot in progress. -/
def subMoves (cx : Nat) (u : Sub) : Nat → List SubItem → Mach → Mach × Bool
  | 0, _, m => (m, true)
  | _, [], m => (m, true)
  | n + 1, x :: rest, m =>
    match moveSub m cx (m.ctx cx) u x with
    | .error f => (subStop m cx u.ring.toNat f, false)
    | .ok m => subMoves cx u n rest (m.modCtx cx fun c => c.modSub u.ring.toNat fun u => { u with moved := u.moved + 1 })
/-- The slot of the tile in progress. -/
def Sub.slot (u : Sub) : Nat := u.next % u.states.length
def Sub.inProgress (u : Sub) : Bool := !u.erred && !u.states.isEmpty && u.states.getD u.slot .empty == .busy
def subSome (m : Mach) (cx ring n : Nat) : Mach :=
  match (m.ctx cx).sub? ring with
  | none => m
  | some u => if u.inProgress then (subMoves cx u n ((subItems m cx u).drop u.moved) m).1 else m

/-- May a subscription of this context start a slot (R231, R249)? -/
def subMayStart (m : Mach) (cx : Nat) (u : Sub) : Bool :=
  let c := m.ctx cx
  !u.stopped && !u.states.isEmpty && u.next < u.n && !u.states.contains .busy && !c.events.contains .preempt &&
  c.entry != some .save && c.entry != some .restore &&
  (m.launchOf cx).any fun l => l.phase == .running || (l.phase == .restoring && (l.seatOf cx).any (·.resident))
/-- A slot starts to fill or drain. -/
def subStart (m : Mach) (cx ring : Nat) (pull : Bool) : Mach :=
  match (m.ctx cx).sub? ring with
  | none => m
  | some u =>
    if u.pull == pull && subMayStart m cx u && u.states.getD u.slot .empty == (if pull then .marked else .empty) then
      m.modCtx cx fun c => c.modSub ring fun u => { u with states := lset u.states u.slot .busy, moved := 0 }
    else m
/-- The L2 sees the lines of a tile, each read counted once (12 R225). -/
def subL2 (m : Mach) (cx : Nat) (u : Sub) (items : List SubItem) : Mach :=
  let w := subWindow m cx u
  l2Span m (sectorsOf m (items.map (·.va))) u.pull true (hintOf 3 w.hint.toNat)
/-- The slot in progress ends: what is left moves, then its full bits change together. -/
def subEnd (m : Mach) (cx ring : Nat) (pull : Bool) : Mach :=
  match (m.ctx cx).sub? ring with
  | none => m
  | some u =>
    if u.pull != pull || !u.inProgress then m
    else
      let items := subItems m cx u
      match subMoves cx u items.length (items.drop u.moved) m with
      | (m, false) => m
      | (m, true) =>
        let m := subL2 m cx u items
        let m := m.setLines (slotLines cx (m.ctx cx) u u.slot) (!pull)
        m.modCtx cx fun c => c.modSub ring fun u => { u with
          states := lset u.states u.slot (if pull then .empty else .full), next := u.next + 1, moved := 0 }

def execPushSlotFilling (cx : Nat) (ring : BitVec 4) (s : State) : Outcome State Fault Refusal := .next { s with m := subStart s.m cx ring.toNat false }
def execPushSlotFull (cx : Nat) (ring : BitVec 4) (s : State) : Outcome State Fault Refusal := .next { s with m := subEnd s.m cx ring.toNat false }
def execPullSlotDraining (cx : Nat) (ring : BitVec 4) (s : State) : Outcome State Fault Refusal := .next { s with m := subStart s.m cx ring.toNat true }
def execPullSlotDrained (cx : Nat) (ring : BitVec 4) (s : State) : Outcome State Fault Refusal := .next { s with m := subEnd s.m cx ring.toNat true }

end Sys2Proof.Machine
end

