-- ==== Sys2Proof/Machine/Sched.lean ====
section
/-! DEFINITION. The schedulers: queues and their slots, admission, refusal, seats, dealing, requests, and completion (05 R78 to R95;
04 R67 to R76; 12 R229, R234; 15 R299 to R301; 18 R351, R352). -/
namespace Sys2Proof.Machine
open Host (Outcome)

/-! Translation misses (12 R234). -/
/-- The n-th parked miss of a die: its walk fills both caches, or fails. -/
def walkMiss (m : Mach) (d n : Nat) : Mach :=
  match (m.die d).misses[n]? with
  | none => m
  | some v =>
    let m := m.modDie d fun x => { x with misses := x.misses.eraseIdx n }
    let wanted := (m.ctx v.cx).missed
    let m := if v.uid = 0 then m.modCtx v.cx fun c => { c with missed := false } else m
    match m.walk v.va.toNat with
    | .ok t => (m.modCore (coreOf v.cx) fun c => { c with tlb := tlbPut c.tlb 512 t }).modDie d fun x => { x with tlb := tlbPut x.tlb 32768 t }
    | .error sub =>
      if v.uid ≠ 0 then (match (m.core (coreOf v.cx)).op? v.uid with | some o => missFault m o v sub | none => m)
      else if wanted then m.modCtx v.cx fun c => { c with walkFail := some (v.va, BitVec.ofNat 4 sub, v.fetch) } else m
def execTranslationWalk (die n : Nat) (s : State) : Outcome State Fault Refusal := .next { s with m := walkMiss s.m die n }

/-! A choice the manual leaves to the scheduler: a free value picks from the list. -/
def Mach.pickOf {α : Type} (m : Mach) (l : List α) : Option α := l[Config.freePick m.fresh % l.length]?
def Mach.freshen (m : Mach) : Mach := { m with fresh := m.fresh + 1 }
/-- `n` of a list of numbers, in order, from a free starting place on (DESIGN CHOICE, log 5). -/
def Mach.pickSome (m : Mach) (l : List Nat) (n : Nat) : List Nat :=
  let k := Config.freePick m.fresh % l.length
  let got := (l.drop k ++ l.take k).take n
  l.filter fun x => got.contains x

/-! Hardware queue slots (R82, R83). -/
def Die.slot? (d : Die) (q : Nat) : Option HwSlot := d.slots.find? (·.q == q)
/-- QUEUE_MAP. -/
def mapQueue (m : Mach) (d q : Nat) : Mach :=
  let used := (m.die d).slots.map (·.no)
  let free := (upFrom 0 64).filter fun n => !used.contains n
  if m.qEnabled q && m.qHome q == d && m.qFlag q 1 && ((m.die d).slot? q).isNone then
    match m.pickOf free with
    | none => m
    | some n =>
      let m := ((m.freshen.qSetFlag q 1 false).qSetFlag q 3 true)
      let s : HwSlot := { q := q, no := n, lastNotify := mget m.time m.notifyAt q, passed := mget 0 m.passedAt q }
      Mach.modDie { m with notifyAt := mdel m.notifyAt q, passedAt := mdel m.passedAt q } d fun x => { x with slots := x.slots ++ [s] }
  else m
/-- A mapped queue that may be unmapped: nothing in it, or frozen; not one whose entry cannot be read (DESIGN CHOICE, log 96). -/
def unmappable (m : Mach) (q : Nat) : Bool := (m.qFailure q).isNone && (m.qGet q 24 8 == m.qGet q 16 8 || m.qFlag q 2)
/-- QUEUE_UNMAP: only while no slot is free, the one without a notify for the longest; a queue whose flag is set maps again.  The time of
its last notify stays with it, and the decisions in which its head has been passed over (R87) (DESIGN CHOICE, log 87). -/
def unmapQueue (m : Mach) (d q : Nat) : Mach :=
  let x := m.die d
  match x.slot? q with
  | none => m
  | some s =>
    if x.slots.length = 64 && unmappable m q && x.slots.all (fun y => !unmappable m y.q || s.lastNotify.toNat ≤ y.lastNotify.toNat) then
      let m := { m with notifyAt := mset m.notifyAt q s.lastNotify, passedAt := if s.passed = 0 then mdel m.passedAt q else mset m.passedAt q s.passed }
      let m := (m.modDie d fun x => { x with slots := x.slots.filter (·.q != q) }).qSetFlag q 3 false
      if m.qFlag q 1 then mapQueue m d q else m
    else m
def execQueueMap (die : BitVec 2) (q : BitVec 12) (s : State) : Outcome State Fault Refusal := .next { s with m := mapQueue s.m die.toNat q.toNat }
def execQueueUnmap (die : BitVec 2) (q : BitVec 12) (s : State) : Outcome State Fault Refusal :=
  .next { s with m := unmapQueue s.m die.toNat q.toNat }
/-- NOTIFY_REGISTER_WRITE: which die's register makes no difference (R81). -/
def execNotifyRegisterWrite (_die : BitVec 2) (offset size : Nat) (value : Word) (s : State) : Outcome State Fault Refusal :=
  .next { s with m := s.m.notifyWrite offset size value }

/-! Heads (R79, R80). -/
def slotAddr (m : Mach) (q i : Nat) : Nat := m.qGet q 0 8 + 64 * (i % 2 ^ m.qCap q)
/-- The head's 64 bytes with its index, when its slot counts as written: not one whose version and kind cannot be read (DESIGN CHOICE,
log 96). -/
def headOf (m : Mach) (q : Nat) : Option (Nat × List Byte) :=
  let i := m.qGet q 24 8
  let v := m.devNat (slotAddr m q i) 2
  if v = 0 ∨ v = 1 ∨ (m.devFailure (slotAddr m q i) 2 false).isSome then none else some (i, m.devRead (slotAddr m q i) 64)
/-- What a read of entry `i` of a queue meets (12 R222, R235). -/
def entryFailure (m : Mach) (q i : Nat) : Option (Nat × Nat × Nat) := m.devFailure (slotAddr m q i) 64 false
/-- A look at a mapped queue whose entry in the table, or whose head, cannot be read is logged (12 R235). -/
def lookAt (m : Mach) (d q : Nat) : Mach :=
  if ((m.die d).slot? q).isNone then m
  else (m.logQueue q).logDev (m.qHome q) (if m.qEnabled q then m.devFailure (slotAddr m q (m.qGet q 24 8)) 2 false else none)
/-- Consume the head (R79). -/
def consumeHead (m : Mach) (q : Nat) : Mach :=
  let i := m.qGet q 24 8
  (m.devStore (m.qHome q) (slotAddr m q i) (leBytes 8 0)).qPut q 24 8 (i + 1)
/-- The completion horizon moves over contiguous completed indices: up to the first live launch of the queue (R85, R95, R351). -/
def raiseHorizon (m : Mach) (q : Nat) : Mach :=
  let live := (m.launches.filter fun l => lidQueue l.lid == q).map fun l => lidIndex l.lid
  m.qChange q fun m => m.qPut q 32 8 (live.foldl min (m.qGet q 24 8))

/-! Dependences (R85). -/
inductive Dep where
  | met | broken | pending | refused
deriving DecidableEq, Repr
def depState (m : Mach) (q : Nat) (i : Int) : Dep :=
  if (m.qGet q 40 8 : Int) ≤ i then .broken else if i < (m.qGet q 32 8 : Int) then .met else .pending
def tagIndex (m : Mach) (q t : Nat) : Int :=
  let lo : Int := (m.qGet q 24 8 : Int) - 2 ^ 19
  lo + ((t : Int) - lo) % 2 ^ 20
def dependences (m : Mach) (own i : Nat) (bs : List Byte) : List Dep :=
  let tags := (upFrom 0 (fld bs 4 1)).map fun k =>
    let t := fld bs (48 + 4 * k) 4
    let q := t / 2 ^ 20
    let j := tagIndex m q (t % 2 ^ 20)
    if !m.qEnabled q ∨ (q = own ∧ (i : Int) ≤ j) then .refused else depState m q j
  tags ++ (if fld bs 3 1 % 2 = 1 ∧ i ≠ 0 then [depState m own (i - 1 : Nat)] else [])

/-- The first tag of a packet's dependences whose queue has an entry that cannot be read. -/
def depFailure (m : Mach) (bs : List Byte) : Option (Nat × Nat × Nat) :=
  (upFrom 0 (fld bs 4 1)).findSome? fun k => m.qFailure (fld bs (48 + 4 * k) 4 / 2 ^ 20)

/-! Reads at admission (R89, 12 R235). -/
/-- Outcome of the checks of an entry: the refusal reason, and the failed read to log. -/
abbrev Refused := Nat × Option (Nat × Nat × Nat)
def canRead (m : Mach) (reason a n : Nat) : Except Refused Unit :=
  match readFailure m a n with | some f => .error (reason, some f) | none => .ok ()
def must (reason : Nat) (b : Bool) : Except Refused Unit := if b then .ok () else .error (reason, none)

/-- A context's scratchpad reservation (04 R68). -/
def Kernel.reservation (k : Kernel) : Nat := k.scratch + (k.rings.map fun r => r.slots * r.bytes).sum
/-- The push credits of a seat: one for each slot of each of its contexts' fed rings (R88; 04 R68; 12 R215, R229) (DEDUCED, log 42). -/
def Kernel.credits (k : Kernel) : Nat := k.contexts * ((k.rings.filter (·.fed)).map (·.slots)).sum
/-- The map bit of a byte offset in a segment (04 R64). -/
def Kernel.mapBit (k : Kernel) (m : Mach) (off : Nat) : Bool :=
  off < k.codeSize && m.devNat (k.mapBase.toNat + off / 32) 1 / 2 ^ (off / 4 % 8) % 2 == 1
def noRepeats (l : List Nat) : Bool := l.eraseDups.length == l.length
/-- The header of a kernel, checked (04 R67, R68); reason 1. -/
def readKernel (m : Mach) (h : Nat) : Except Refused Kernel := do
  must 1 (h % 256 == 0)
  canRead m 1 h 128
  let b := m.devRead h 128
  let rings := fld b 15 1
  let decls := fld b 126 2
  must 1 (fld b 0 2 == 1 && fld b 2 1 == 1 && fld b 4 8 < 256 && 1 ≤ fld b 12 1 && fld b 12 1 ≤ 8 && [1, 2, 4, 8].contains (fld b 13 1) &&
    1 ≤ fld b 14 1 && fld b 14 1 ≤ 16 && rings ≤ 16 && fld b 16 4 % 128 == 0 && fld b 24 4 % 128 == 0 &&
    (fld b 28 4 % 4 == 0 || fld b 28 4 == 0xFFFFFFFF) && fld b 96 8 % 256 == 0 && fld b 104 8 % 64 == 0 && fld b 112 8 % 16 == 0 &&
    fld b 120 4 % 4 == 0 && fld b 120 4 ≤ 0x1000000 && fld b 124 2 ≤ 1024 && decls ≤ 256 &&
    (upFrom 0 16).all fun i => fld b (32 + 4 * i) 4 % 4 == 0 && (i < fld b 14 1 || fld b (32 + 4 * i) 4 == 0))
  canRead m 1 (h + 128) (8 * rings + 4 * decls)
  let rb := m.devRead (h + 128) (8 * rings)
  let db := m.devRead (h + 128 + 8 * rings) (4 * decls)
  let k : Kernel := {
    handle := BitVec.ofNat 64 h, isa := fld b 2 1, persistent := fld b 3 1 % 2 == 1, features := BitVec.ofNat 64 (fld b 4 8),
    contexts := fld b 12 1, tiles := fld b 13 1, entries := (upFrom 0 (fld b 14 1)).map fun i => fld b (32 + 4 * i) 4,
    scratch := fld b 16 4, budget := fld b 20 4, spill := fld b 24 4,
    handler := if fld b 28 4 = 0xFFFFFFFF then none else some (fld b 28 4),
    codeBase := BitVec.ofNat 64 (fld b 96 8), mapBase := BitVec.ofNat 64 (fld b 104 8), typeBase := BitVec.ofNat 64 (fld b 112 8),
    codeSize := fld b 120 4, typeCount := fld b 124 2,
    rings := (upFrom 0 rings).map fun i => ⟨fld rb (8 * i) 1, fld rb (8 * i + 1) 1 % 2 == 1, fld rb (8 * i + 2) 2, fld rb (8 * i + 4) 4⟩,
    decls := (upFrom 0 decls).map fun i => (fld db (4 * i) 1, fld db (4 * i + 1) 1, fld db (4 * i + 2) 2) }
  must 1 (k.rings.all (fun r => r.id < 16 && 1 ≤ r.slots && r.slots ≤ 4096 && r.bytes % 128 == 0 && r.bytes != 0) && noRepeats (k.rings.map (·.id)) &&
    k.decls.all (fun x => 1 ≤ x.2.1 && x.2.1 ≤ 3) && noRepeats (k.decls.map (·.1)) && k.reservation * k.contexts ≤ scratchSize)
  canRead m 1 k.mapBase.toNat (ceilDiv k.codeSize 32)
  must 1 (k.entries.all (k.mapBit m) && match k.handler with | some o => k.mapBit m o | none => true)
  .ok k

/-- A window descriptor (Table 04-7). -/
def windowAt (b : List Byte) : Window :=
  { base := BitVec.ofNat 64 (fld b 0 8), ty := BitVec.ofNat 128 (fld b 8 16), s0 := BitVec.ofNat 64 (fld b 24 8),
    s1 := BitVec.ofNat 64 (fld b 32 8), s2 := BitVec.ofNat 64 (fld b 40 8), bound := BitVec.ofNat 64 (fld b 48 8),
    access := if fld b 56 1 < 4 then fld b 56 1 else 0, hint := BitVec.ofNat 8 (fld b 57 1), mask := fld b 58 2 }
/-- The checks of a descriptor of access 1 or 2 (R75). -/
def windowOk (w : Window) : Bool :=
  let t := w.ty
  let f := TW.fmt t
  let e := TW.exts t
  let scales := footScales f (TW.geom t) e
  (match BEnv.checkType { bob := [] } t 4 with | .ok _ => true | .error _ => false) && TW.layout t == 0 && !e.any isSym &&
    w.base.toNat % (max 1 (fmtBits f / 8)) == 0 && w.elemSpan ≤ w.bound.toNat &&
    (scales == 0 || w.scaleBase 0 + scales ≤ w.bound.toNat)
/-- The format that a word counts as: NONE where it is not valid (02 R19). -/
def formatOf (t : TypeWord) : Nat := if TW.valid t then TW.fmt t else 0
/-- A declaration against its descriptor (R75); `c` is the declared type's constant.  A
declaration of a parameter window that names a type is compared like any other (R75 against R77) (DESIGN CHOICE, log 91). -/
def declOk (w : Window) (kind : Nat) (c : Option TypeWord) : Bool :=
  (w.access == kind || (kind == 1 && w.access == 2)) &&
  match c with
  | none => true
  | some c =>
    TW.rank c == TW.rank w.ty && formatOf c == formatOf w.ty && TW.geom c == TW.geom w.ty && TW.policy c == TW.policy w.ty &&
      ((TW.exts c).zip (TW.exts w.ty)).all fun (x, y) => if isSym x then symL x == 0 || y ≤ symL x else x == y
/-- The window table and slice masks, checked; reason 2.  A declared type constant beyond the table's count is the all-zero word, and one
that cannot be read refuses with reason 2 (DESIGN CHOICE, log 91). -/
def readWindows (m : Mach) (k : Kernel) (a : Nat) : Except Refused (Mp Window × Mp (BitVec 128)) := do
  must 2 (a % 64 == 0)
  canRead m 2 a (16384 + 1024)
  let ws := (upFrom 0 256).map fun i => (i, windowAt (m.devRead (a + 64 * i) 64))
  must 2 (ws.all fun (i, w) => (w.access == 0 || w.access == 3 || windowOk w) && decide (w.mask ≤ 64) &&
    (i != 0 || w.access == 0 || w.access == 3))
  for x in k.decls do
    let w := mget ({} : Window) ws x.1
    if x.2.2 = 0xFFFF then must 2 (declOk w x.2.1 none)
    else
      if x.2.2 < k.typeCount then canRead m 2 (k.typeBase.toNat + 16 * x.2.2) 16
      must 2 (declOk w x.2.1 (some (if x.2.2 < k.typeCount then BitVec.ofNat 128 (m.devNat (k.typeBase.toNat + 16 * x.2.2) 16) else 0)))
  .ok (ws.filter (·.2.access != 0), (upFrom 0 64).map fun i => (i, BitVec.ofNat 128 (m.devNat (a + 16384 + 16 * i) 16)))

/-! Pools (R88, 12 R229). -/
/-- A die's share of the spill pool, base and size; a device-wide launch takes from the shares of every die (DESIGN CHOICE, log 43). -/
def spillShare (m : Mach) (d : Nat) (wide : Bool) : Nat × Nat :=
  let n := m.mgmtAt 0x028 / 4 / 128 * 128
  if wide then (m.mgmtAt 0x020, 4 * n) else (m.mgmtAt 0x020 + d * n, n)
/-- Does [a, a + n) meet none of the intervals? -/
def clear (used : List (Nat × Nat)) (a n : Nat) : Bool := used.all fun u => a + n ≤ u.1 || u.1 + u.2 ≤ a || u.2 = 0 || n = 0
/-- Where an interval of `n` may start, at the pool's base or just after one in use. -/
def placesFor (used : List (Nat × Nat)) (base size n : Nat) : List Nat :=
  (base :: used.map fun u => u.1 + u.2).eraseDups.filter fun a => base ≤ a && a + n ≤ base + size && clear used a n
def spillUses (m : Mach) : List (Nat × Nat) := m.launches.map fun l => (l.spillBase, l.kernel.spill)
/-- DEDUCED, log 42. -/
def creditCap : Nat := 8192
/-- Credits from the even, then the odd stack's die beside a die (12 R229). -/
def creditSplit (m : Mach) (d n : Nat) : Option (Nat × Nat) :=
  let e := creditCap - mget 0 m.credUsed (2 * d)
  let o := creditCap - mget 0 m.credUsed (2 * d + 1)
  if n ≤ e then some (n, 0) else if n ≤ e + o then some (e, n - e) else none
/-- What a launch that holds `held` draws, by base die, so that each of its seats on `cores` has the credits of its contexts' rings from the
pair beside its die (DEDUCED, log 42). -/
def creditsFor (m : Mach) (k : Kernel) (held : List Nat) (cores : List Nat) : Option (List Nat) := do
  let parts ← (upFrom 0 4).mapM fun d =>
    creditSplit m d (k.credits * (cores.filter fun c => dieOf c == d).length - (held.getD (2 * d) 0 + held.getD (2 * d + 1) 0))
  some (parts.flatMap fun p => [p.1, p.2])
def addLists (a b : List Nat) : List Nat := (upFrom 0 8).map fun i => a.getD i 0 + b.getD i 0
def Mach.useCredits (m : Mach) (l : List Nat) : Mach :=
  { m with credUsed := ((upFrom 0 l.length).zip l).foldl (fun u x => if x.2 = 0 then u else mset u x.1 (mget 0 u x.1 + x.2)) m.credUsed }
def Mach.giveCredits (m : Mach) (l : List Nat) : Mach :=
  { m with credUsed := ((upFrom 0 l.length).zip l).foldl (fun u x => if x.2 = 0 then u else mset u x.1 (mget 0 u x.1 - x.2)) m.credUsed }

/-! Seats (R88, R92, 12 R214). -/
def allSeats (m : Mach) : List SeatRec := m.launches.flatMap (·.seats)
def seatsOn (m : Mach) (k : Nat) : List SeatRec := (allSeats m).filter (·.core == k)
def freeCtxs (m : Mach) (k : Nat) : List Nat :=
  let used := (seatsOn m k).flatMap (·.ctxs)
  (upFrom (8 * k) 8).filter fun cx => !used.contains cx
def tilesUsed (m : Mach) (k : Nat) : Nat :=
  (m.launches.map fun l => ((l.seats.filter (·.core == k)).map fun x => x.ctxs.length * l.kernel.tiles).sum).sum
/-- Where a seat's region may stand on a core. -/
def regionPlaces (m : Mach) (k size : Nat) : List Nat := placesFor ((seatsOn m k).map fun x => (x.base, x.size)) 0 scratchSize size
/-- The shadow blocks in use: those of the contexts of every seat, seats that wait for restore among them (17 R343). -/
def blocksUsed (m : Mach) : List Nat := m.launches.flatMap fun l => (l.seats ++ l.oldSeats).flatMap (·.blocks)
/-- A block for each context: that of its number where it is free, else the first free one (DESIGN CHOICE, log 44). -/
def pickBlocks : List Nat → List Nat → List Nat
  | _, [] => []
  | used, cx :: t =>
    let b := if used.contains cx then (firstNat (fun n => !used.contains n) 0 1280).getD cx else cx
    b :: pickBlocks (b :: used) t
/-- Is a core free for a seat of a kernel?  Its free scratchpad counts whole, and the pool has a shadow block for each context (R88; 17 R343)
(DESIGN CHOICE, log 44). -/
def hasRoom (m : Mach) (kr : Kernel) (k : Nat) : Bool :=
  !(m.core k).inReset && kr.contexts ≤ (freeCtxs m k).length && tilesUsed m k + kr.contexts * kr.tiles ≤ 8 &&
    ((seatsOn m k).map (·.size)).sum + kr.contexts * kr.reservation ≤ scratchSize && (blocksUsed m).length + kr.contexts ≤ 1280
/-- A seat takes one contiguous region (12 R214): where the free scratchpad of the core is in pieces too small, its claim waits
(DESIGN CHOICE, log 86). -/
def canPlace (m : Mach) (kr : Kernel) (k : Nat) : Bool :=
  !(m.core k).gated && !(regionPlaces m k (kr.contexts * kr.reservation)).isEmpty
/-- The cores a launch may be placed on. -/
def placement (home : Nat) (wide : Bool) : List Nat := if wide then upFrom 0 160 else upFrom (40 * home) 40
/-- The core a claim takes; a gated one makes the claim wait for its wake (18 R356). -/
def seatCore (m : Mach) (kr : Kernel) (home : Nat) (wide : Bool) : Option Nat := (placement home wide).find? (hasRoom m kr)

/-- Zero a seat region and clear its full bits. -/
def zeroRegion (m : Mach) (k base size : Nat) : Mach :=
  let lo := scratchKey k base
  let inside (a : Nat) : Bool := lo ≤ a && a < lo + size
  { m with
    scratch := m.scratch.filter fun c => !inside c.1
    full := m.full.filter fun x => !(inside (x.1 * 128))
    errs := m.errs.filter fun e => match e with | .scratch c o => !inside (scratchKey c o) | _ => true }
def shadowAt (m : Mach) (block : Nat) : Word := BitVec.ofNat 64 (m.mgmtAt 0x030 + 32768 * block)
/-- What a seat gives context number `j` of it (R88, R92; 17 R343) (DEDUCED, log 50); its bobbins and tiles stay until a task starts
(02 R29). -/
def seatCtx (m : Mach) (l : Launch) (base j block cx : Nat) : Ctx :=
  { (m.ctx cx).left with
    launch := some l.lid, tilesPer := l.kernel.tiles, ctxsPer := l.kernel.contexts, seatBase := base + j * l.kernel.reservation,
    reserve := l.kernel.reservation, pinLimit := BitVec.ofNat 32 (m.mgmtAt 0x038),
    shadow := shadowAt m block }
/-- Give a launch a seat. -/
def giveSeat (m : Mach) (l : Launch) (st : SeatRec) : Mach :=
  let m := (zeroRegion m st.core st.base st.size).freshen
  let m := ((upFrom 0 st.ctxs.length).zip st.ctxs).foldl (fun m x => m.setCtx x.2 (seatCtx m l st.base x.1 (st.blocks.getD x.1 x.2) x.2)) m
  (m.modCore st.core fun c => { c with waking := false }).modLaunch l.lid fun l => { l with seats := l.seats ++ [st] }
/-- Claim a seat on a core, on free contexts and a free region. -/
def claimOn (m : Mach) (lid : Word) (k : Nat) : Mach :=
  match m.launch? lid with
  | none => m
  | some l =>
    let cxs := m.pickSome (freeCtxs m k) l.kernel.contexts
    let base := (m.freshen.pickOf (regionPlaces m k (l.kernel.contexts * l.kernel.reservation))).getD 0
    let st : SeatRec := { no := l.seatNo, blocks := pickBlocks (blocksUsed m) cxs, lid := lid, core := k, ctxs := cxs, base := base,
                          size := l.kernel.contexts * l.kernel.reservation, first := l.seats.isEmpty }
    (giveSeat m.freshen.freshen l st).modLaunch lid fun l => { l with seatNo := l.seatNo + 1 }
/-- The subscriptions of a context end: each completes the slot in progress and returns its engine (12 R231). -/
def endSubs (m : Mach) (cx : Nat) : Mach :=
  (m.ctx cx).subs.foldl (fun m u =>
    let m := subEnd m cx u.ring.toNat u.pull
    { m with subUsed := mset m.subUsed u.base (mget 0 m.subUsed u.base - 1) }) m
/-- Take a seat from a launch: its contexts keep their bobbins and tiles alone (02 R29) (DEDUCED, log 45). -/
def dropSeat (m : Mach) (st : SeatRec) : Mach :=
  let m := st.ctxs.foldl (fun m cx =>
    let m := (performAll m cx).dropWaiter cx
    let m := endSubs m cx
    let m := (m.ctx cx).pins.foldl (unpinLine cx) m
    (dropOps m cx true).modCtx cx Ctx.left) m
  let m := m.modLaunch st.lid fun l => { l with seats := l.seats.erase st }
  if (seatsOn m st.core).isEmpty then m.modCore st.core fun c => { c with idleSince := m.time } else m

/-! Admission (R87 to R90). -/
/-- What a launch packet asks for, once its checks pass. -/
structure Packet where
  q : Nat
  i : Nat
  bytes : List Byte
  kernel : Kernel
  windows : Mp Window
  masks : Mp (BitVec 128)
deriving DecidableEq, Repr
/-- The checks of R89 in their order; pending dependences are judged before. -/
def checkPacket (m : Mach) (q i : Nat) (bs : List Byte) (deps : List Dep) : Except Refused Packet := do
  must 4 (fld bs 0 1 == 1 && fld bs 1 1 == 1 && !m.qFlag q 4 && fld bs 2 1 < 4 && fld bs 3 1 < 8 && fld bs 4 1 ≤ 4 && fld bs 5 3 == 0 &&
    fld bs 40 8 % 32 == 0)
  (if deps.contains .refused then .error (5, depFailure m bs) else .ok () : Except Refused Unit)
  let k ← readKernel m (fld bs 8 8)
  let (ws, ms) ← readWindows m k (fld bs 32 8)
  must 3 (k.contexts * k.tiles ≤ 8 && k.spill ≤ (spillShare m (m.qHome q) (fld bs 3 1 / 2 % 2 == 1)).2 &&
    k.credits * (if k.persistent then 40 else 1) ≤ 2 * creditCap)
  .ok ⟨q, i, bs, k, ws, ms⟩
/-- The parts of a reservation that can be made now: root, spill place, cores of the seats to claim, credits. -/
structure Reserve where
  root : Nat
  spill : Nat
  cores : List Nat
  credits : List Nat
deriving DecidableEq, Repr
def reserve (m : Mach) (p : Packet) : Option Reserve := do
  let d := m.qHome p.q
  let wide := fld p.bytes 3 1 / 2 % 2 == 1
  let root ← m.pickOf ((upFrom 0 64).filter fun r => (m.root (d * 64 + r)).launch.isNone)
  let sh := spillShare m d wide
  let spill ← if p.kernel.spill = 0 then some 0 else m.freshen.pickOf (placesFor (spillUses m) sh.1 sh.2 p.kernel.spill)
  let blocks := (blocksUsed m).length + p.kernel.contexts * (placement d wide).length
  let cores ← if p.kernel.persistent then (if (placement d wide).all (hasRoom m p.kernel) && blocks ≤ 1280 then some (placement d wide) else none)
    else (seatCore m p.kernel d wide).map fun k => [k]
  let cr ← creditsFor m p.kernel [] cores
  some ⟨root, spill, cores, cr⟩
/-- The reservation, once every core it takes is awake and has a place for its seat. -/
def reservation (m : Mach) (p : Packet) : Option Reserve := (reserve m p).filter fun r => r.cores.all (canPlace m p.kernel)
/-- Write a completion record (Table 05-4), if the launch has one. -/
def writeRecord (m : Mach) (addr status reason domain lid summary : Nat) : Mach :=
  if addr = 0 ∨ addr % 32 ≠ 0 then m
  else m.devStore (m.qHome (lid / 2 ^ 52)) addr (leBytes 1 status ++ leBytes 1 reason ++ leBytes 1 domain ++ leBytes 5 0 ++ leBytes 8 lid ++ leBytes 8 summary ++
    leBytes 8 m.time.toNat)
def lidOf (q i : Nat) : Word := BitVec.ofNat 64 (q * 2 ^ 52 + i % 2 ^ 52)
/-- A launch that never runs completes: record, the notice that flag [2] asks for (R84; 18 R351) (DESIGN CHOICE, log 17), horizon,
failure index.  `bs` is the packet, none of an entry that is no launch packet. -/
def finishUnrun (m : Mach) (q i : Nat) (bs : Option (List Byte)) (status reason : Nat) : Mach :=
  let m := consumeHead m q
  let m := writeRecord m (bs.elim 0 fun b => fld b 40 8) status reason 0xFF (lidOf q i).toNat 0
  let m := if bs.any fun b => fld b 3 1 / 4 % 2 = 1 then m.postNotice 2 (if status = 3 then 0x15 else 0) 0 (lidOf q i) 0 0 else m
  (raiseHorizon m q).qFail q i
/-- Refuse the head (R86, R89); nothing of an entry that cannot be read is used. -/
def refuseHead (m : Mach) (q i : Nat) (bs : List Byte) (r : Refused) : Mach :=
  finishUnrun (m.logDev (m.qHome q) r.2) q i (if fld bs 0 1 = 1 ∧ fld bs 1 1 = 1 ∧ (entryFailure m q i).isNone then some bs else none) 4 r.1
/-- A word list of a value counted in lumens of scale 2, at most one word a scale (R90). -/
def wordsOf (v : Nat) : List Word :=
  [mkWeight 0 (v / 2 ^ 118), mkWeight 1 (v / 2 ^ 59 % 2 ^ 59), mkWeight 2 (v % 2 ^ 59)].filter fun w => wAmount w != 0
def valueOf (l : List Word) : Nat := (l.map fun w => wAmount w * 2 ^ (59 * (2 - wScale w))).sum
/-- The dealer's share for the next grid task, and what it keeps (R90). -/
def dealShare (dealt : Nat) (l : List Word) : Word × List Word :=
  if dealt < 32 then
    match splitWeight (l.headD 0) with
    | some (keep, give) => (give, [keep])
    | none => (0, l)
  else (mkWeight 2 (2 ^ 49), wordsOf (valueOf l - 2 ^ 49))
def Launch.gridSize (l : Launch) : Nat := l.gx * l.gy * l.gz
/-- The dealer of an exhausted grid returns what it holds. -/
def dealerReturn (m : Mach) (lid : Word) : Mach :=
  match m.launch? lid with
  | none => m
  | some l =>
    if l.next < l.gridSize then m
    else (l.dealer.foldl (fun m w => m.returnWeight (l.rootRef m) w) m).modLaunch lid fun l => { l with dealer := [] }
/-- Admit a launch: everything of its reservation in one decision. -/
def admitLaunch (m : Mach) (p : Packet) (r : Reserve) : Mach :=
  let d := m.qHome p.q
  let lid := lidOf p.q p.i
  let bs := p.bytes
  let live := m.launches.map (·.gtag)
  let m := consumeHead m.freshen.freshen p.q
  let gtag := (m.pickOf ((upFrom 1 32767).filter fun t => !live.contains t)).getD 1
  let l : Launch := {
    lid := lid, home := d, kernel := p.kernel, windows := p.windows, masks := p.masks, gx := fld bs 16 4, gy := fld bs 20 4, gz := fld bs 24 4,
    wide := fld bs 3 1 / 2 % 2 == 1, notify := fld bs 3 1 / 4 % 2 == 1, podTag := BitVec.ofNat 32 (fld bs 28 4),
    record := BitVec.ofNat 64 (fld bs 40 8), winTable := BitVec.ofNat 64 (fld bs 32 8), root := r.root, gtag := gtag,
    budget := p.kernel.budget, dealer := [wholeWeight], spillBase := r.spill, tickAt := m.time + 0x40000000, lastReturn := m.time,
    nothing := true, credits := r.credits }
  let m := (m.freshen.useCredits r.credits).setRoot (d * 64 + r.root) { launch := some lid, gtag := gtag }
  let m := { m with launches := m.launches ++ [l] }
  dealerReturn (r.cores.foldl (fun m k => claimOn m lid k) m) lid

/-! One decision (R87). -/
/-- Whether a head is ready, and what the decision would do with it: `wait` is a ready head whose reservation cannot be made now, or
whose batch is not committed (R87, R95), with the cores it waits for. -/
inductive Ready where
  | no | wait (cores : List Nat) | refuse (r : Refused) | broken | accept (p : Packet) (r : Reserve) | noop | record (lid : Option Word)
deriving DecidableEq, Repr
/-- The launch that a record's batch ID names (R94). -/
def recordLaunch (m : Mach) (bs : List Byte) : Option Launch := (m.root (fld bs 7 1)).launch.bind m.launch?
/-- Does a decision take the head? -/
def Ready.taken : Ready → Bool
  | .no => false
  | .wait _ => false
  | _ => true
/-- A packet that fails a check is refused, be a dependence of it broken or not (DESIGN CHOICE, log 87), and so is an entry whose other
bytes cannot be read (DESIGN CHOICE, log 96). -/
def readyOf (m : Mach) (q : Nat) : Ready :=
  if m.qFlag q 2 || !m.qEnabled q then .no
  else match headOf m q with
    | none => .no
    | some (i, bs) =>
      if (entryFailure m q i).isSome then .refuse (4, entryFailure m q i)
      else if fld bs 0 1 = 1 ∧ fld bs 1 1 = 3 then .noop
      else if fld bs 0 1 = 1 ∧ fld bs 1 1 = 2 then
        (if !m.qFlag q 4 then .refuse (4, none)
        else match recordLaunch m bs with
          | none => .record none
          | some l => if l.phase = .failing ∨ fld bs 4 4 % 2 ^ 24 < l.horizon then .record (some l.lid) else .wait [])
      else
        let deps := dependences m q i bs
        if fld bs 0 1 = 1 ∧ fld bs 1 1 = 1 ∧ fld bs 4 1 ≤ 4 ∧ deps.contains .pending ∧ !deps.contains .refused then .no
        else match checkPacket m q i bs deps with
          | .error r => .refuse r
          | .ok p =>
            if deps.contains .broken then .broken
            else match reservation m p with
              | some r => .accept p r
              | none => .wait ((reserve m p).elim [] (·.cores))
/-- The effective priority of a slot's head; a head that is neither packet nor record, or cannot be read, takes its queue's ceiling
(DESIGN CHOICE, log 87). -/
def headPriority (m : Mach) (s : HwSlot) : Nat :=
  let ceil := m.qGet s.q 10 1 % 4
  let p := match headOf m s.q with
    | some (i, bs) => if fld bs 0 1 = 1 ∧ fld bs 1 1 = 1 ∧ (entryFailure m s.q i).isNone then min (fld bs 2 1 % 4) ceil else ceil
    | none => 0
  if 256 ≤ s.passed then min 3 (p + 1) else p
/-- The slot that the next decision of a die takes: highest priority, then round-robin by slot number. -/
def decision (m : Mach) (d : Nat) : Option HwSlot :=
  let x := m.die d
  let ready := x.slots.filter fun s => (readyOf m s.q).taken
  let rank (s : HwSlot) : Nat := (3 - headPriority m s) * 64 + (s.no + 64 - x.rr) % 64
  ready.foldl (fun b s => match b with | none => some s | some t => if rank s < rank t then some s else b) none
/-- Take a decision's head; the other ready heads have been passed over. -/
def decide' (m : Mach) (d q : Nat) (want : Ready → Bool) : Mach :=
  match decision m d with
  | none => lookAt m d q
  | some s =>
    if s.q ≠ q then lookAt m d q
    else if !want (readyOf m q) then m
    else
      let r := readyOf m q
      let m0 := m.modDie d fun x => { x with
        rr := (s.no + 1) % 64
        slots := x.slots.map fun y => if y.q = q then { y with passed := 0 } else if readyOf m y.q != .no then { y with passed := y.passed + 1 } else y }
      match headOf m q with
      | none => m
      | some (i, bs) =>
        match r with
        | .no => m
        | .wait _ => m
        | .refuse r => refuseHead m0 q i bs r
        | .broken => finishUnrun m0 q i (some bs) 3 0x15
        | .accept p r => admitLaunch m0 p r
        | .noop => raiseHorizon (consumeHead m0 q) q
        | .record lid =>
          let m := raiseHorizon (consumeHead m0 q) q
          let w := BitVec.ofNat 64 (fld bs 8 8)
          match lid.bind m.launch? with
          | none => { m with recRoots := mdel m.recRoots (lidOf q i).toNat }.returnWeight
              (mget ⟨m.deviceNo, BitVec.ofNat 8 (fld bs 7 1), 0⟩ m.recRoots (lidOf q i).toNat) w
          | some l =>
            let root := mget (l.rootRef m) m.recRoots (lidOf q i).toNat
            let m := { m.modLaunch l.lid fun l => { l with recOut := l.recOut - 1 } with recRoots := mdel m.recRoots (lidOf q i).toNat }
            if l.phase = .failing then m.returnWeight root w
            else m.modLaunch l.lid fun x => { x with records := x.records ++ [taskOfRecord bs root false] }
/-- A claim brings about the wake of the cores that it meets gated, and waits for it (18 R356). -/
def wakeFor (m : Mach) (cores : List Nat) : Mach :=
  cores.foldl (fun m k => if (m.core k).gated then m.modCore k fun c => { c with waking := true } else m) m
/-- LAUNCH_PACKET: a decision, or the wake that a head's reservation waits for. -/
def launchPacket (m : Mach) (d q : Nat) : Mach :=
  match if ((m.die d).slot? q).isSome then readyOf m q else .no with
  | .wait cores => wakeFor m cores
  | _ => decide' m d q fun r => match r with | .refuse _ => true | .broken => true | .accept _ _ => true | _ => false
def execLaunchPacket (die : BitVec 2) (q : BitVec 12) (s : State) : Outcome State Fault Refusal :=
  .next { s with m := launchPacket s.m die.toNat q.toNat }
def execNoOp (die : BitVec 2) (q : BitVec 12) (s : State) : Outcome State Fault Refusal :=
  .next { s with m := decide' s.m die.toNat q.toNat fun r => match r with | .noop => true | _ => false }
def execTileRecord (die : BitVec 2) (q : BitVec 12) (s : State) : Outcome State Fault Refusal :=
  .next { s with m := decide' s.m die.toNat q.toNat fun r => match r with | .record _ => true | _ => false }

/-! Dealing (R90 to R92). -/
/-- The task of linear grid index n. -/
def gridTask (l : Launch) (root : RootRef) (share : Word) (n : Nat) : Task :=
  { x := BitVec.ofNat 32 (n % l.gx), y := BitVec.ofNat 32 (n / l.gx % l.gy), z := BitVec.ofNat 32 (n / l.gx / l.gy), weight := share, root := root }
/-- Does a launch still have something to deal? -/
def Launch.hasWork (l : Launch) : Bool := !l.spawns.isEmpty || !l.msgs.isEmpty || !l.records.isEmpty || decide (l.next < l.gridSize)
def seatKey (st : SeatRec) : Nat := st.ctxs.headD 0 + 1
/-- The next free context: among the seats after the one last dealt to, in order, wrapping. -/
def nextCtx (m : Mach) (l : Launch) : Option (Nat × Nat) :=
  let free (st : SeatRec) : List Nat := st.ctxs.filter fun cx => (m.ctx cx).life == .free
  let seats := l.seats.filter fun st => st.resident && !(free st).isEmpty && !(m.core st.core).inReset
  let best (p : SeatRec → Bool) : Option SeatRec :=
    (seats.filter p).foldl (fun b s => match b with | none => some s | some t => if seatKey s < seatKey t then some s else b) none
  ((best fun s => decide (l.lastSeat < seatKey s)).or (best fun _ => true)).map fun st => (seatKey st, (free st).foldl min ((free st).headD 0))
/-- The shadow block of a context of a launch. -/
def Launch.blockOf (l : Launch) (cx : Nat) : Nat :=
  ((l.seatOf cx).bind fun st => ((st.ctxs.zip st.blocks).find? (·.1 == cx)).map (·.2)).getD cx
/-- Start a task on a context (R69, R126; 02 R30; 15 R292); a fault that a replayed signal left for its first bundle waits there
(14 R277). -/
def startTask (m : Mach) (l : Launch) (cx : Nat) (t : Task) : Mach :=
  let c := m.ctx cx
  let n := l.kernel.entries.length
  let pc := l.kernel.codeBase + BitVec.ofNat 64 (if t.entry < n then l.kernel.entries.getD t.entry 0 else 0)
  let regs : Mp Word := [(1, t.x.setWidth 64), (2, t.y.setWidth 64), (3, t.z.setWidth 64), (4, t.word)]
  let new : Ctx := {
    life := .running, launch := c.launch, pc := pc, regs := regs, qw := t.weight, qwRoot := t.root,
    bobbins := t.binds.foldl (fun b x => mset b x.1 { bound := true, value := BitVec.ofNat 23 x.2 }) [],
    fill := m.fresh * 2048 + cx, tilesPer := c.tilesPer, ctxsPer := c.ctxsPer, seatBase := c.seatBase, reserve := c.reserve,
    shadow := shadowAt m (l.blockOf cx), pinLimit := BitVec.ofNat 32 (m.mgmtAt 0x038), subs := c.subs, events := c.events }
  let m := l1Drop ((m.freshen.setCtx cx new).touch t.root) (coreOf cx)
  if t.entry < n then m
  else takeFault m cx 0 { cause := 0x03, addr := l.kernel.codeBase, info := BitVec.ofNat 64 t.entry }
/-- DEAL_TASK. -/
def dealTask (m : Mach) (lid : Word) : Mach :=
  match m.launch? lid with
  | none => m
  | some l =>
    if l.phase ≠ .running then m
    else match nextCtx m l with
      | none => m
      | some (key, cx) =>
        match l.spawns, l.msgs, l.records with
        | t :: r, _, _ => startTask (m.modLaunch lid fun l => { l with lastSeat := key, spawns := r }) l cx t
        | [], t :: r, _ => startTask (m.modLaunch lid fun l => { l with lastSeat := key, msgs := r }) l cx t
        | [], [], t :: r => startTask (m.modLaunch lid fun l => { l with lastSeat := key, records := r }) l cx t
        | [], [], [] =>
          if l.next < l.gridSize then
            let (share, keep) := dealShare l.dealt l.dealer
            let m := m.modLaunch lid fun l => { l with lastSeat := key, dealer := keep, next := l.next + 1, dealt := l.dealt + 1 }
            dealerReturn (startTask m l cx (gridTask l (l.rootRef m) share l.next)) lid
          else m
def execDealTask (lid : Word) (s : State) : Outcome State Fault Refusal := .next { s with m := dealTask s.m lid }
/-- CLAIM_SEAT: one further seat, on the lowest core with room, be it one that holds a seat of the launch already, with the credits of its rings
(R88, R92; 12 R229) (DEDUCED, logs 42, 103). -/
def claimSeat (m : Mach) (lid : Word) : Mach :=
  match m.launch? lid with
  | none => m
  | some l =>
    if l.phase ≠ .running || l.kernel.persistent || !l.hasWork then m
    else match seatCore m l.kernel l.home l.wide with
      | none => m
      | some k =>
        match creditsFor m l.kernel l.credits (k :: l.seats.map (·.core)) with
        | none => m
        | some cr =>
          if !canPlace m l.kernel k then wakeFor m [k]
          else claimOn ((m.useCredits cr).modLaunch lid fun l => { l with credits := addLists l.credits cr }) lid k
def execClaimSeat (lid : Word) (s : State) : Outcome State Fault Refusal := .next { s with m := claimSeat s.m lid }
/-- A released context whose last started operation has completed is free (17 R337). -/
def Mach.freeLeft (m : Mach) : Mach :=
  { m with ctxs := m.ctxs.map fun (cx, c) =>
      (cx, if c.life == .leaving && !((m.core (coreOf cx)).ops.any fun o => o.cx == cx) then { c with life := .free } else c) }
/-- A seat that R92 releases: not the first, resident, every context of it ended.  One whose contexts hold pins past a failure stays until the
launch's release (18 R352), and none goes while a bundle of the launch has issued and waits for an answer (DEDUCED, log 45). -/
def seatOver (m : Mach) (l : Launch) (st : SeatRec) : Bool :=
  !st.first && st.resident && (st.ctxs.all fun cx => (m.ctx cx).life == .free && (m.ctx cx).pins.isEmpty) &&
  !l.allCtxs.any fun cx => (m.ctx cx).issued && !(m.ctx cx).qwaits
/-- Seats other than the first that have ended are released once nothing is left to deal (R92); work that reaches a failing launch late goes
back to its root (15 R291).  A launch on its way out, or out, keeps its seats (17 R340). -/
def Mach.settle (m : Mach) : Mach :=
  m.launches.foldl (fun m l =>
    let m := if l.phase = .failing then drainLaunchWork m l else m
    if l.kernel.persistent || l.phase == .stopping || l.phase == .swapped || (l.hasWork && l.phase != .failing) then m
    else (l.seats.filter (seatOver m l)).foldl dropSeat m) m.freeLeft

/-! Requests at the scheduler (R94; 10 R192; 15 R299 to R301). -/
def SchedReq.cx : SchedReq → Nat
  | .escal cx _ => cx
  | .lrec cx _ _ _ _ _ _ => cx
  | .lcommit cx _ _ => cx
  | .spawn cx _ _ => cx
def SchedReq.lid : SchedReq → Word
  | .escal _ l => l
  | .lrec _ l _ _ _ _ _ => l
  | .lcommit _ l _ => l
  | .spawn _ l _ => l
/-- The record that an LREC writes (R300). -/
def recordBytes (t : List Byte) (domain b : Nat) (w : Word) : List Byte :=
  [0x01, 0x02] ++ leBytes 1 (fld t 2 1) ++ leBytes 1 (fld t 3 1 % 16) ++ leBytes 4 (domain * 2 ^ 24 + b) ++ leBytes 8 w.toNat ++
    (t.drop 16).take 12 ++ leBytes 4 0 ++
    ((upFrom 0 6).flatMap fun i => let x := fld t (32 + 4 * i) 4; leBytes 4 (x / 2 ^ 28 * 2 ^ 28 + x % 2 ^ 23)) ++ (t.drop 56).take 8
def answer (m : Mach) (cx : Nat) (ok refused : Bool) (v : Word) : Mach :=
  m.modCtx cx fun c => { c with await := some (.answered ok refused v) }
/-- The share that a request carries leaves the QW of its context as the request is performed, so that it is in one place (15 R286). -/
def payShare (m : Mach) (cx : Nat) : Mach :=
  m.modCtx cx fun c => { c with qw := ((splitWeight c.qw).map (·.1)).getD c.qw }
/-- Perform one request; `none` while it must wait. -/
def performReq (m : Mach) (d : Nat) (l : Launch) : SchedReq → Option Mach
  | .escal cx _ =>
    some (if l.budget = 0 then answer m cx false false 0
      else answer (m.modLaunch l.lid fun l => { l with budget := l.budget - 1 }) cx true false (BitVec.ofNat 64 (l.budget - 1)))
  | .lcommit cx _ b => some (answer (m.modLaunch l.lid fun l => { l with horizon := max l.horizon (b + 1) }) cx true false 0)
  | .spawn cx _ t =>
    if spawnsOn m d < spawnCap then some (answer (payShare (m.modLaunch l.lid fun l => { l with spawns := l.spawns ++ [t] }) cx) cx true false 0) else none
  | .lrec cx _ q b t give _ =>
    if !m.qEnabled q || !m.qFlag q 4 then some (answer (m.logQueue q) cx false true 0)
    else if b < l.horizon then some (answer m cx false false 0)
    else
      let i := m.qGet q 16 8
      if 2 ^ m.qCap q ≤ i - m.qGet q 24 8 then none
      else
        let root := (m.ctx cx).qwRoot
        let m := (m.qPut q 16 8 (i + 1)).devStore (m.qHome q) (slotAddr m q i) (recordBytes t l.domain b give)
        let m := if root = l.rootRef m then m else { m with recRoots := mset m.recRoots (lidOf q i).toNat root }
        some (answer (payShare ((m.modLaunch l.lid fun l => { l with recOut := l.recOut + 1 }).notify q) cx) cx true false 0)
/-- SCHEDULER_RECEIPT: the n-th waiting request of a die, the first of its launch. -/
def schedReceipt (m : Mach) (d n : Nat) : Mach :=
  match (m.die d).reqs[n]? with
  | none => m
  | some r =>
    let drop (m : Mach) : Mach := m.modDie d fun x => { x with reqs := x.reqs.eraseIdx n }
    if ((m.die d).reqs.take n).any fun e => e.lid == r.lid then m
    else match m.launch? r.lid with
      | none => drop m
      | some l => if (m.ctx r.cx).await ≠ some .asked then drop m else ((performReq m d l r).map drop).getD m
def execSchedulerReceipt (die n : Nat) (s : State) : Outcome State Fault Refusal := .next { s with m := schedReceipt s.m die n }

/-! Completion (18 R351, R352). -/
/-- Every receive entry of a launch's contexts is refused, but for one whose image another device has sent and counted, and its posted
sends go (16 R322) (DEDUCED, log 51). -/
def refuseEntries (m : Mach) (l : Launch) : Mach :=
  let mine := (m.cores.flatMap fun x => x.2.recvs.filter fun e => e.lid == l.lid) ++ l.kept ++ l.held
  let m := (m.cores.flatMap fun x => x.2.sends.filter fun y => y.lid == l.lid && y.root != l.rootRef m).foldl (fun m y => m.returnWeight y.root y.weight) m
  let m := { m with cores := m.cores.map fun (k, c) =>
    (k, { c with recvs := c.recvs.filter fun e => e.lid != l.lid, sends := c.sends.filter fun x => x.lid != l.lid }) }
  (mine.filter fun e => e.image.isNone || e.ready.sender.toNat == m.deviceNo).foldl (fun m e => refuse m e.ready) m
/-- Every write whose holder has returned its weight is performed: accesses, and the slots that subscriptions have begun (18 R351). -/
def finishWrites (m : Mach) (l : Launch) : Mach :=
  l.allCtxs.foldl (fun m cx => (endSubs (performAll m cx) cx).modCtx cx fun c => { c with subs := [] }) m
/-- Steps 1 to 3 of R351: the writes are performed, then the record is written and the notice of a failed launch posted. -/
def recordDone (m : Mach) (l : Launch) : Mach :=
  let failed := l.phase = .failing
  let status := if !failed then 1 else if l.cancelled then 3 else 2
  let reason := if failed then l.failCause.toNat else 0
  let summary := if failed then l.failCause.toNat + l.failCtxs * 256 + l.failCore.toNat * 2 ^ 24 else 0
  let m := writeRecord (finishWrites m l) l.record.toNat status reason l.domain l.lid.toNat summary
  if failed && (l.notify || l.failCause == 0x14) then m.postNotice 2 l.failCause (l.failCore.toNat * 8) l.lid 0 0 else m
/-- What a completing launch holds is released: its receive entries, seats, credits and engines (18 R351, R352). -/
def releaseHeld (m : Mach) (l : Launch) : Mach :=
  let m := refuseEntries m l
  let m := l.seats.foldl dropSeat m
  let m := m.giveCredits l.credits
  let subs := l.saved.flatMap (·.subs) ++ l.savedSubs.flatMap (·.2)
  let m := subs.foldl (fun m u => { m with subUsed := mset m.subUsed u.base (mget 0 m.subUsed u.base - 1) }) m
  { m with launches := m.launches.filter fun x => x.lid != l.lid }
/-- The steps of R351 and R352, in one step of the machine: the writes, the record and the notice, then what the launch holds, with its
queue's horizon and failure index, its root last. -/
def completeLaunch (m : Mach) (l : Launch) : Mach :=
  let m := raiseHorizon (releaseHeld (recordDone m l) l) (lidQueue l.lid)
  let m := if l.phase = .failing then m.qFail (lidQueue l.lid) (lidIndex l.lid) else m
  (m.modDie l.home fun d => { d with reqs := d.reqs.filter fun r => r.lid != l.lid }).setRoot l.domain {}
/-- A launch still has work of another domain, a task that was stolen or came by an active message, be its context out or not, or an
operation of a context of it runs: it completes when that is over, so that a task's weight reaches its own root and what it moves is
performed (R97; 15 R287; 17 R337; 18 R351) (DEDUCED, log 88). -/
def workLeft (m : Mach) (l : Launch) : Bool :=
  let own := l.rootRef m
  (l.spawns ++ l.msgs ++ l.records).any (·.root != own) || l.saved.any (·.qwRoot != own) ||
    l.allCtxs.any fun cx => (m.ctx cx).life == .leaving || (!(m.ctx cx).released && (m.ctx cx).qwRoot != own) ||
      (m.core (coreOf cx)).ops.any fun o => o.cx == cx && o.runs
/-- LAUNCH_COMPLETION: the root is quiet with no waiter (15 R279), or the launch failed and its weight is all back. -/
def completion (m : Mach) (lid : Word) : Mach :=
  match m.launch? lid with
  | none => m
  | some l =>
    let r := m.root l.domain
    if r.quiet && r.waiter.isNone && r.granted.isNone && !r.excess && !workLeft m l then completeLaunch m l else m
def execLaunchCompletion (lid : Word) (s : State) : Outcome State Fault Refusal := .next { s with m := completion s.m lid }

end Sys2Proof.Machine
end

