-- ==== Sys2Proof/Machine/Service.lean ====
section
/-! DEFINITION. Roots, failure, the watchdog, pre-emption and restore, and the management requests that name a launch, a context or a
queue (15 R279, R282, R283, R288, R289, R297; 17 R336 to R349; 18 R358). -/
namespace Sys2Proof.Machine
open Host (Outcome)

/-! Roots (R279, R282, R283). -/
/-- After an event of a root: an excess fails its launch; a quiet domain with a waiter grants the whole to it. -/
def afterRoot (m : Mach) (dom : Nat) : Mach :=
  let r := m.root dom
  match r.launch with
  | none => m
  | some lid =>
    if r.excess then
      (if (m.launch? lid).any (·.phase == .failing) then m else failLaunch m lid (.domain 0x0D) 0 none)
    else if r.quiet && !r.failed then
      match r.waiter with
      | none => m
      | some cx =>
        let m := m.modLaunch lid fun l => { l with active := true }
        if m.waitsFor r cx then
          wakeWaiter (m.setRoot dom { r with acc := [], quiet := false }) dom true
        else m.setRoot dom { r with acc := [], quiet := false, waiter := none, granted := some cx }
    else m
/-- Add a word at a root of this device, or discard it on a tag mismatch (R289) (DEDUCED, log 55). -/
def addReturn (m : Mach) (dom gtag : Nat) (w : Word) : Mach :=
  let r := m.root dom
  match r.launch with
  | none => { m with lostReturns := sat16 m.lostReturns }
  | some lid =>
    if r.gtag ≠ gtag then { m with lostReturns := sat16 m.lostReturns }
    else afterRoot ((m.setRoot dom (r.add w)).modLaunch lid fun l => { l with active := true, lastReturn := m.time }) dom
/-- A QWAIT request at its root (R297). -/
def waitAtRoot (m : Mach) (dom cx : Nat) : Mach :=
  let r := m.root dom
  let c := m.ctx cx
  let reply (m : Mach) (a : Await) (qw : Word) : Mach := m.modCtx cx fun c => { c with await := some a, qwaits := false, qw := qw }
  match r.launch with
  | none => m
  | some lid =>
    if !m.waitsFor r cx then m
    else if r.granted = some cx then reply (m.setRoot dom { r with granted := none }) (.answered true false wholeWeight) 0
    else if r.waiter.any (· != cx) then reply m (.faulted (quietFault 0)) c.qw
    else if r.failed then
      let m := if wAmount c.qw = 0 then m else (m.setRoot dom (r.add c.qw)).modLaunch lid fun l => { l with lastReturn := m.time }
      afterRoot (reply m (.answered false false 0) 0) dom
    else
      let r := if wAmount c.qw = 0 then r else r.add c.qw
      let m := (m.setRoot dom { r with waiter := some cx }).modLaunch lid fun l => { l with active := true, lastReturn := m.time }
      afterRoot (m.modCtx cx fun c => { c with qw := 0 }) dom
/-- ROOT_RETURN: one of the events that have reached a die's quiet unit. -/
def rootEvent (m : Mach) (d n : Nat) : Mach :=
  match (m.die d).rootQ[n]? with
  | none => m
  | some e =>
    let m := m.modDie d fun x => { x with rootQ := x.rootQ.eraseIdx n }
    match e with
    | .ret r gtag w => addReturn m (d * 64 + r) gtag w
    | .wait r cx _ => waitAtRoot m (d * 64 + r) cx
def execRootReturn (die n : Nat) (s : State) : Outcome State Fault Refusal := .next { s with m := rootEvent s.m die n }

/-! Failure (R337). -/
/-- FORCED_RELEASE: one interval after the CANCEL or WATCHDOG entry. -/
def forcedRelease (m : Mach) (cx : Nat) : Mach :=
  match (m.ctx cx).leaveAt, m.launchOf cx with
  | some t, some l => if !(m.ctx cx).released && l.interval ≤ (m.time - t).toNat then releaseCtx m cx false else m
  | _, _ => m
def execForcedRelease (cx : Nat) (s : State) : Outcome State Fault Refusal := .next { s with m := forcedRelease s.m cx }
/-- Is no context of a launch live, and no operation of one that was left to run? -/
def noneLive (m : Mach) (l : Launch) : Bool := l.allCtxs.all fun cx => (m.ctx cx).life == .free
/-- FAILURE_INTERVAL: every context released, and an interval with no return. -/
def failureInterval (m : Mach) (lid : Word) : Mach :=
  match m.launch? lid with
  | none => m
  | some l => if l.phase = .failing && noneLive m l && !workLeft m l && l.interval ≤ (m.time - l.lastReturn).toNat then completeLaunch m l else m
def execFailureInterval (lid : Word) (s : State) : Outcome State Fault Refusal := .next { s with m := failureInterval s.m lid }

/-! The watchdog (R346 to R349). -/
/-- A message that carries weight of a domain of this device. -/
def Msg.carries (dev dom : Nat) : Msg → Bool
  | .weightReturn _ d b _ _ => d.toNat == dev && b.toNat == dom
  | .activeMessage _ t _ s _ _ => s.toNat == dev && fld t 7 1 == dom
  | .sendReady _ _ => false
  | .stealGrant _ v _ rs => v.toNat == dev && rs.any fun r => fld r 7 1 == dom
  | .tileRecordMessage _ v r => v.toNat == dev && fld r 7 1 == dom
  | _ => false
/-- Nothing of the domain is outstanding that could return weight (R348). -/
def nothingLeft (m : Mach) (l : Launch) : Bool :=
  let mine (r : RootRef) : Bool := r.device == m.deviceNo && r.domain.toNat == l.domain
  l.oldSeats.isEmpty && noneLive m l && !l.hasWork && l.recOut == 0 && l.held.isEmpty && l.kept.isEmpty &&
  !m.cores.any (fun x => x.2.sends.any (fun y => mine y.root) || x.2.recvs.any fun e => e.lid == l.lid) &&
  !(m.wire ++ m.outbox ++ m.ports.flatMap fun p => p.2.unacked.map fun u => u.2.2).any (Msg.carries m.deviceNo l.domain) &&
  !(m.die l.home).rootQ.any (fun e => match e with | .ret r _ _ => r == l.root | .wait _ _ _ => false)
/-- WATCHDOG_TICK: `ended` counts the intervals that have ended, so that the next tick is one still to come; what is judged held, or did
not occur, since the tick before (DEDUCED, log 89). -/
def watchdogTick (m : Mach) (lid : Word) : Mach :=
  match m.launch? lid with
  | none => m
  | some l =>
    if m.time.toNat < l.tickAt.toNat || (l.phase ≠ .running && l.phase ≠ .restoring) then m
    else
      let ended := 1 + (m.time - l.tickAt).toNat / max 1 l.interval
      let quietTicks := if l.active then 0 else l.idleTicks + ended
      let fires := !l.active && (l.stalledAll || (!l.kernel.persistent && 16 ≤ quietTicks) || l.nothing)
      if fires then failLaunch m lid .watchdog 0 none
      else m.modLaunch lid fun l => { l with
        tickAt := l.tickAt + BitVec.ofNat 64 (ended * max 1 l.interval), active := false, stalledAll := true, nothing := true, idleTicks := quietTicks }
def execWatchdogTick (lid : Word) (s : State) : Outcome State Fault Refusal := .next { s with m := watchdogTick s.m lid }
/-- A context that waits on an internal dependency (R346) (DEDUCED, log 46). -/
def ctxStalled (c : Ctx) : Bool := (c.life == .running && c.stalled) || c.life == .draining
/-- What a launch's watchdog has seen at every step since the last tick: some context stalled, nothing left (R347, R348); a launch on
its way out, or out, is not watched (R340). -/
def watchStalls (m : Mach) : Mach :=
  { m with launches := m.launches.map fun l =>
      if l.phase = .running ∨ l.phase = .restoring then
        { l with stalledAll := l.stalledAll && l.allCtxs.any (fun cx => ctxStalled (m.ctx cx)), nothing := l.nothing && !l.active && nothingLeft m l }
      else l }

/-! Management requests (R358). -/
def reqBusy (m : Mach) (code : Nat) : Bool := m.mgmtAt 0x078 % 2 == 1 && m.mgmtAt 0x070 == code
/-- DEDUCED, log 53. -/
def reqDone (m : Mach) (result : Nat) : Mach := m.setMgmt 0x078 (result * 16)
def arg0 (m : Mach) : Word := BitVec.ofNat 64 (m.mgmtAt 0x060)
def arg1 (m : Mach) : Word := BitVec.ofNat 64 (m.mgmtAt 0x068)
/-- A request in progress with its first operand. -/
def onRequest (code : Nat) (v : Word) (m : Mach) (f : Mach → Mach) : Mach := if reqBusy m code && arg0 m == v then f m else m

/-! Pre-emption (R339, R340). -/
/-- PREEMPT_LAUNCH: issue stops at the next boundary of every context; the request stays busy until SAVE_ENTRY (DEDUCED, log 54).  One
that meets the swap-out it asks for, after its save entry, is ignored like one for a launch already out (R339). -/
def preempt (m : Mach) (lid : Word) : Mach :=
  match m.launch? lid with
  | none => reqDone m 2
  | some l =>
    match l.phase with
    | .failing => reqDone m 1
    | .swapped => reqDone m 0
    | .stopping => if l.saved.isEmpty then m else reqDone m 0
    | .restoring => m
    | .running =>
      if l.kernel.handler.isNone then reqDone m 1
      else
        let m := l.allCtxs.foldl (fun m cx => m.modCtx cx fun c =>
          if c.life == .running then { c with events := c.events ++ [.preempt] } else c) m
        m.modLaunch lid fun l => { l with phase := .stopping, stopAt := m.time }
def execPreemptLaunch (lid : Word) (s : State) : Outcome State Fault Refusal := .next { s with m := onRequest 3 lid s.m fun m => preempt m lid }

/-- The operations of a draining context are all posted sends that its tiles still hold: the spill ends them (16 R323). -/
def onlySends (m : Mach) (cx : Nat) : Bool :=
  (m.ctx cx).life == .draining && (m.ctx cx).pend.isEmpty && (m.ctx cx).engFault.isEmpty &&
  (m.core (coreOf cx)).ops.all fun o => o.cx != cx || (m.core (coreOf cx)).sends.any fun x => x.uid == o.uid && x.spill.isNone
/-- Step 1 of R340 is over: every context stands at its boundary in task mode, or is released, or waits in its drain for sends that step 3
spills alone, and nothing started is left. -/
def stopped (m : Mach) (l : Launch) : Bool :=
  l.allCtxs.all fun cx =>
    let c := m.ctx cx
    !c.subs.any (fun u => !u.erred && u.states.contains .busy) &&
    (c.life == .free || onlySends m cx || (c.life == .running && c.preempting && !startedOps m cx &&
      !((m.core (coreOf cx)).recvs.any fun e => e.cx == cx && e.owner != 0)))
def insertSend (x : SendRec) : List SendRec → List SendRec
  | [] => [x]
  | y :: t => if x.seq ≤ y.seq then x :: y :: t else y :: insertSend x t
/-- The posted sends of a launch that its tiles still hold, in order of posting (`seq`). -/
def unspilled (m : Mach) (l : Launch) : List SendRec :=
  let all := l.seats.flatMap fun st => (m.core st.core).sends.filter fun x => st.ctxs.contains x.cx && x.spill.isNone
  all.eraseDups.foldr insertSend []
/-- Places for the images in the spill area, each the lowest run of free granules (16 R323). -/
def spillPlaces (size : Nat) : List (Nat × Nat) → List SendRec → Option (List (SendRec × Nat × Nat))
  | _, [] => some []
  | used, x :: xs => do
    let n := ceilDiv x.image.length 128 * 128
    let ps := placesFor used 0 size n
    let a ← if n = 0 then some 0 else if ps.isEmpty then none else some (ps.foldl min (ps.headD 0))
    let rest ← spillPlaces size (used ++ [(a, n)]) xs
    some ((x, a, n) :: rest)
/-- Spill one image: the tile is released and kd done. -/
def spillOne (l : Launch) (m : Mach) (x : SendRec × Nat × Nat) : Mach :=
  let k := coreOf x.1.cx
  let m := m.devStore l.home (l.spillBase + x.2.1) x.1.image
  let m := m.modCore k fun c => { c with sends := lmod (fun y => y.uid == x.1.uid) (fun y => { y with spill := some x.2 }) c.sends }
  let m := match (m.core k).op? x.1.uid with | some o => removeOp m o | none => m
  m.modLaunch l.lid fun l => { l with spillUsed := l.spillUsed ++ [x.2] }
/-- One context enters its handler at its save entry; one that drains ends (R340, step 4). -/
def saveCtx (lid : Word) (pc : Word) (m : Mach) (cx : Nat) : Mach :=
  if (m.ctx cx).life ≠ .running then m
  else
    let m := writeOut m cx 1 true
    let c := m.ctx cx
    let evs := c.events.filter (· != .preempt)
    let m := m.modCtx cx fun c => { c with events := [], engFault := [] }
    let m := enterHandler m cx pc 0 c.pc { cause := 0x16 } .save
    let fired := (m.core (coreOf cx)).table.filterMap fun x => match x.2 with | some t => if t.cx = cx ∧ t.fired then some (x.1, t) else none | none => none
    m.modLaunch lid fun l => { l with saved := l.saved ++ [{ core := coreOf cx, ctx := cx % 8, shadow := c.shadow, subs := [], qwRoot := c.qwRoot,
                                                             events := evs, engFault := c.engFault, fired := fired }] }
/-- The request is declined: issue resumes with nothing changed, and the watchdog's count with it (R340). -/
def declinePreempt (m : Mach) (l : Launch) : Mach :=
  let m := l.allCtxs.foldl (fun m cx => m.modCtx cx fun c => { c with events := c.events.filter (· != .preempt) }) m
  reqDone (m.modLaunch l.lid fun l => { l with phase := .running, tickAt := l.tickAt + (m.time - l.stopAt) }) 1
/-- SAVE_ENTRY. -/
def saveEntry (m : Mach) (lid : Word) : Mach :=
  match m.launch? lid with
  | none => m
  | some l =>
    if l.phase ≠ .stopping || !l.saved.isEmpty || !reqBusy m 3 || !stopped m l then m
    else match l.handlerPc, spillPlaces l.kernel.spill l.spillUsed (unspilled m l) with
      | some pc, some ps => reqDone (l.allCtxs.foldl (saveCtx lid pc) (ps.foldl (spillOne l) m)) 0
      | _, _ => declinePreempt m l
def execSaveEntry (lid : Word) (s : State) : Outcome State Fault Refusal := .next { s with m := saveEntry s.m lid }
/-- Every context has been released: the seats go; entries, deferred signals and deliveries stay with the control core (R340). -/
def swapOut (m : Mach) (l : Launch) : Mach :=
  let cxs := l.allCtxs
  let kept := m.cores.flatMap fun x => (x.2.recvs.filter fun e => e.lid == l.lid).map fun e => { e with owner := 0 }
  let saved := l.saved.map fun x => let c := m.ctx (8 * x.core + x.ctx); { x with shadow := c.shadow, subs := c.subs }
  let ended := cxs.filter fun cx => !l.saved.any fun x => 8 * x.core + x.ctx == cx
  let subs := (ended.map fun cx => (cx, (m.ctx cx).subs)).filter fun x => !x.2.isEmpty
  let clear (k : Nat) (c : Core) : Core :=
    { c with recvs := c.recvs.filter fun e => e.lid != l.lid
             idleSince := if l.seats.any (fun x => x.core == k) && (seatsOn m k).all (fun x => x.lid == l.lid) then m.time else c.idleSince }
  let m := { m with cores := m.cores.map fun (x : Nat × Core) => (x.1, clear x.1 x.2) }
  let m := cxs.foldl (fun m cx => m.modCtx cx Ctx.left) m
  let away (x : SeatRec) : SeatRec := { x with resident := false }
  m.modLaunch l.lid fun l => { l with phase := .swapped, seats := [], oldSeats := l.seats.map away, saved := saved, savedSubs := subs, kept := kept }
/-- The swap-out ends with its last release. -/
def finishSwaps (m : Mach) : Mach :=
  m.launches.foldl (fun m l =>
    if l.phase = .stopping && !(reqBusy m 3 && arg0 m == l.lid && l.saved.isEmpty) && noneLive m l then swapOut m l else m) m

/-! Restore (R341). -/
/-- RESTORE_LAUNCH. -/
def restore (m : Mach) (lid : Word) : Mach :=
  match m.launch? lid with
  | none => reqDone m 2
  | some l =>
    match l.phase with
    | .stopping => m
    | .swapped => reqDone (m.modLaunch lid fun l => { l with
        phase := .restoring, tickAt := m.time + BitVec.ofNat 64 l.interval, active := false, stalledAll := false, nothing := false, idleTicks := 0 }) 0
    | _ => reqDone m 1
def execRestoreLaunch (lid : Word) (s : State) : Outcome State Fault Refusal := .next { s with m := onRequest 4 lid s.m fun m => restore m lid }
/-- A context at its restore entry, its bobbins unbound, its tiles without words and of unspecified contents (17 R341) (DEDUCED, log 104); a
point of resumption that cannot be read is a free value (DESIGN CHOICE, log 96). -/
def restoreCtx (l : Launch) (pc : Word) (m : Mach) (x : SavedCtx) : Mach :=
  let cx := 8 * x.core + x.ctx
  let bad := m.devFailure (x.shadow.toNat + 24) 8 false
  let resume := if bad.isSome then Config.freeWord m.fresh else BitVec.ofNat 64 (m.devNat (x.shadow.toNat + 24) 8)
  let m := (m.logDev (dieOf x.core) bad).modCtx cx fun c => { c with
    life := .running, shadow := x.shadow, subs := x.subs, qwRoot := x.qwRoot, events := x.events, engFault := x.engFault,
    tiles := [], bobbins := [], fill := m.fresh * 2048 + cx }
  let m := enterHandler m cx pc 0 resume { cause := 0x16, info := 1 } .restore
  let m := m.modCore x.core fun c => { c with table := x.fired.foldl (fun t y => mset t y.1 (some y.2)) c.table }
  m.freshen.modLaunch l.lid fun l => { l with saved := l.saved.erase x }
/-- RESTORE_SEAT_CLAIM: a seat of a core whose contexts are free (R341), a gated one after its wake (18 R356); its receive entries are
reinstalled, what the list has no room for before what was held since (16 R320) (DEDUCED, log 25). -/
def restoreSeat (m : Mach) (lid : Word) (core : Nat) : Mach :=
  match m.launch? lid with
  | none => m
  | some l =>
    let free := freeCtxs m core
    match l.phase, l.oldSeats.find? (fun x => x.core == core && x.ctxs.all free.contains), l.handlerPc with
    | .restoring, some st, some pc =>
      let places := regionPlaces m core st.size
      if (m.core core).gated then wakeFor m [core]
      else if (m.core core).inReset || 8 < tilesUsed m core + st.ctxs.length * l.kernel.tiles then m
      else match m.pickOf places with
        | none => m
        | some base =>
          let st' := { st with base := base }
          let here (e : RecvEnt) : Bool := st.ctxs.contains e.cx
          let mine := l.kept.filter here
          let n := recvRoom m core
          let m := giveSeat m.freshen l st'
          let m := m.modLaunch lid fun l => { l with
            oldSeats := l.oldSeats.erase st, held := mine.drop n ++ l.held, kept := l.kept.filter fun e => !here e, savedSubs := l.savedSubs.filter fun x => !st.ctxs.contains x.1 }
          let m := m.modCore core fun c => { c with recvs := c.recvs ++ mine.take n }
          let m := (l.savedSubs.filter fun x => st.ctxs.contains x.1).foldl (fun m x => m.modCtx x.1 fun c => { c with subs := x.2 }) m
          let back := l.saved.filter fun x => st.ctxs.contains x.cx
          let m := back.foldl (restoreCtx l pc) m
          if back.isEmpty then residentSeat m lid st' else m
    | _, _, _ => m
def execRestoreSeatClaim (lid : Word) (core : Nat) (s : State) : Outcome State Fault Refusal := .next { s with m := restoreSeat s.m lid core }

/-! Cancellation, parked contexts, queues, caches (R336, R338; 18 Table 18-4). -/
def cancel (m : Mach) (lid : Word) : Mach :=
  match m.launch? lid with
  | none => reqDone m 2
  | some l => reqDone (if l.phase = .failing then m else failLaunch m lid .host 0 none) 0
def execCancelLaunch (lid : Word) (s : State) : Outcome State Fault Refusal := .next { s with m := onRequest 5 lid s.m fun m => cancel m lid }
/-- The context that the operand of requests 6 and 7 names. -/
def argCtx (m : Mach) : Nat := bits (arg0 m) 7 0 * 8 + bits (arg0 m) 10 8
def onParked (code cx : Nat) (m : Mach) (f : Mach → Launch → Mach) : Mach :=
  if !reqBusy m code || argCtx m ≠ cx then m
  else match (m.ctx cx).life, m.launchOf cx with
    | .parked, some l => if cx < 1280 then f m l else reqDone m 2
    | _, _ => reqDone m 2
/-- Queue what fits of a parked context's shadow entries; `none` while some wait for room. -/
def parkedReplay (m : Mach) (cx : Nat) : Mach × Bool :=
  let c := m.ctx cx
  if !c.wroteOut then (m, true)
  else
    let blk := c.shadow
    let (n, q) := c.replay.getD (0, 0)
    let count := fld (m.devRead blk.toNat 2) 0 2
    let (m, n, q) := replayFrom cx blk count 113 m n q
    if count ≤ n then ((clearShadow m cx blk).modCtx cx fun c => { c with replay := none, wroteOut := false }, true)
    else (m.modCtx cx fun c => { c with replay := some (n, q), replayAt := blk }, false)
/-- RESUME_PARKED: the bundle at FAULT_PC issues again, as after TRET with retry (DEDUCED, log 48). -/
def resumeParked (cx : Nat) (m : Mach) (l : Launch) : Mach :=
  let c := m.ctx cx
  match if c.wroteOut then shadowFault m c.shadow c.shadow l.lid else none with
  | some f => reqDone (if f.ofAccess then m.logErr (dieOf (coreOf cx)) f.addr 0xFF 0xFF f.cause.toNat (f.info.toNat % 16) else m) 2
  | none =>
    let (m, done) := parkedReplay m cx
    if !done then m
    else reqDone (m.modCtx cx fun c => { c.applyAllFrozen with
      life := if c.drains then .draining else .running, drains := false, pc := c.faultPc, missed := false, walkFail := none, await := none,
      stalled := false, blocked := false }) 0
def execResumeParked (cx : Nat) (s : State) : Outcome State Fault Refusal := .next { s with m := onParked 6 cx s.m (resumeParked cx) }
/-- FAIL_PARKED. -/
def failParked (cx : Nat) (m : Mach) (l : Launch) : Mach :=
  reqDone (releaseCtx (failLaunch m l.lid (.fault (m.ctx cx).faultCause) (coreOf cx) (some cx)) cx false) 0
def execFailParked (cx : Nat) (s : State) : Outcome State Fault Refusal := .next { s with m := onParked 7 cx s.m (failParked cx) }
/-- CLEAR_QUEUE_FROZEN.  A queue that was unmapped while it was frozen, with entries unread, is marked for its home die (05 R83, Table 05-2). -/
def clearFrozen (q : Word) (m : Mach) : Mach :=
  if 4096 ≤ q.toNat then reqDone m 2
  else
    let n := q.toNat
    let m := (m.qSetFlag n 2 false).qPut n 40 8 noFailure
    let mapped := (m.die (m.qHome n)).slots.any fun x => x.q == n
    reqDone (if !mapped && m.qEnabled n && m.qGet n 24 8 != m.qGet n 16 8 then m.qSetFlag n 1 true else m) 0
def execClearQueueFrozen (q : Word) (s : State) : Outcome State Fault Refusal := .next { s with m := onRequest 8 q s.m (clearFrozen q) }
/-- Requests 1 and 2. -/
def dropCode (m : Mach) : Mach := { m with cores := m.cores.map fun (k, c) => (k, { c with icache := [] }) }
def dropTlbs (m : Mach) : Mach :=
  { m with cores := m.cores.map (fun (k, c) => (k, { c with tlb := [] })), dies := m.dies.map fun (d, x) => (d, { x with tlb := [] }) }
def execInvalidateInstructionCaches (s : State) : Outcome State Fault Refusal :=
  .next { s with m := if reqBusy s.m 1 then reqDone (dropCode s.m) 0 else s.m }
def execInvalidateTranslationCaches (s : State) : Outcome State Fault Refusal :=
  .next { s with m := if reqBusy s.m 2 then reqDone (dropTlbs s.m) 0 else s.m }

end Sys2Proof.Machine
end

