-- ==== Sys2Proof/Machine/Links.lean ====
section
/-! DEFINITION. Genari Link: flits, ports and their training, routing, the messages of other devices, the token and stealing
(05 R96, R97; 15 R287 to R289; 16 R304 to R312). -/
namespace Sys2Proof.Machine
open Host (Outcome)

/-! Failure of a route (15 R288). -/
/-- An entry of the error log for an event of a link; its fields are the model's choice (DEDUCED, log 62). -/
def logLink (m : Mach) (p : PortId) : Mach := m.logErr p.die.toNat 0 0xFF 0xFF 0 0
/-- The roots of this device whose weight a message carries. -/
def Msg.localRoots (m : Mach) : Msg → List RootRef
  | .activeMessage _ t _ s g _ => if s.toNat = m.deviceNo then [⟨m.deviceNo, BitVec.ofNat 8 (fld t 7 1), g⟩] else []
  | .stealGrant _ v _ rs => if v.toNat = m.deviceNo then rs.map fun r => ⟨m.deviceNo, BitVec.ofNat 8 (fld r 7 1), (m.root (fld r 7 1)).gtag⟩ else []
  | _ => []
/-- The receive that a lost pull was for waits again, for another entry, and goes where its context is released (17 R337) (DEDUCED, log 25). -/
def pullLost (m : Mach) (x : Msg) : Mach :=
  match x with
  | .pull _ false sender core entry _ ep _ =>
    let k := coreOf (epCx ep)
    match (m.core k).recvs.find? fun e => e.owner != 0 && e.ready.sender == sender && e.ready.core == core && e.ready.entry == entry &&
        e.ready.endpoint == ep with
    | none => m
    | some e => m.modCore k fun c => { c with
        recvs := c.recvs.erase e
        ops := (c.ops.filter fun o => o.uid != e.owner || o.posted || !(m.ctx o.cx).released).map fun o =>
          if o.uid = e.owner ∧ o.posted = false then { o with started := false } else o }
  | _ => m
/-- A message with no route left: its weight is lost, and a reachable root's domain fails (15 R288). -/
def loseMsg (m : Mach) (x : Msg) : Mach :=
  if !x.isWeighted then m
  else
    let m := (pullLost m x).postNotice 3 0x0D 0 0 0 0
    (x.localRoots m).foldl (fun m r =>
      match (m.root r.domain.toNat).launch with
      | some lid => if (m.root r.domain.toNat).gtag ≠ r.gtag || (m.launch? lid).any (·.phase == .failing) then m else failLaunch m lid (.domain 0x0D) 0 none
      | none => m) m
/-- Can a message ever leave by this port? -/
def usablePort (m : Mach) (p : PortId) (x : Msg) : Bool :=
  !m.bridgePort p && (m.port p).phase != .failed && (x.cls < 8 || (m.port p).phase != .up || (m.port p).version == 2)
/-- Hand the messages of the outbox to their ports, in order; a port that is not up or whose replay buffer is full holds its own (DEDUCED, log 59). -/
def flushOut (m : Mach) : Mach :=
  let r := m.outbox.foldl (fun (a : Mach × List Msg × List Nat) x =>
    let (m, kept, held) := a
    match routeOf m x.hdr.dst.toNat with
    | none => (loseMsg m x, kept, held)
    | some p =>
      if !usablePort m p x then (loseMsg m x, kept, held)
      else
        let q := m.port p
        let n := x.flitCount
        if q.phase ≠ .up ∨ held.contains (portKey p) ∨ 2048 < (q.unacked.map fun u => u.2.1).sum + n then (m, kept ++ [x], portKey p :: held)
        else ((m.setPort p { q with txSeq := (q.txSeq + n) % 4096, unacked := q.unacked ++ [(q.txSeq, n, x)] }).putFlits p (x.flits q.txSeq q.ack),
          kept, held)) ({ m with outbox := [] }, [], [])
  { r.1 with outbox := r.2.1 ++ r.1.outbox }
/-- A port's unacknowledged messages go by another route, or are lost (15 R288). -/
def dropPort (m : Mach) (p : PortId) (phase : PortPhase) : Mach :=
  let q := m.port p
  let m := m.setPort p { phase := phase, life := q.life }
  { m with outbox := (q.unacked.map fun u => u.2.2) ++ m.outbox }

/-! Training (R309, R310). -/
/-- The number that a training begun now uses (R309, R316). -/
def Mach.latchNumber (m : Mach) : Mach := m.setMgmt 0x000 (m.mgmtAt 0x008 % 1024)
/-- LANE_LOCK. -/
def laneLock (m : Mach) (p : PortId) : Mach :=
  if m.bridgePort p || (m.port p).phase != .down then m else m.latchNumber.setPort p { phase := .offering, life := (m.port p).life }
def execLaneLock (p : PortId) (s : State) : Outcome State Fault Refusal := .next { s with m := laneLock s.m p }
/-- A port with an accept sent and a matching one received is up, with sequence numbers at 0. -/
def linkUp (q : Port) : Port :=
  if q.phase = .accepting && q.sentAccept && q.gotAccept then
    { q with phase := .up, life := q.life + 1, txSeq := 0, rxSeq := 0, rxAny := false, unacked := [], resends := 0 }
  else q
/-- What a port sends at the timer (R310). -/
def trainingBytes (m : Mach) (p : PortId) : List Byte :=
  let q := m.port p
  let acc := q.phase == .accepting
  leBytes 1 (if acc then 2 else 1) ++ leBytes 1 2 ++ leBytes 2 m.deviceNo ++ leBytes 1 (p.port.toNat + 4 * p.die.toNat) ++
  leBytes 3 (if acc then q.version else 0) ++ leBytes 8 Config.serial.toNat
/-- TRAINING_OFFER_TIMER: an offer, or once one has been received an accept. -/
def offerTimer (m : Mach) (p : PortId) : Mach :=
  let q := m.port p
  if q.phase = .accepting then (m.putFlits p [controlFlit none (trainingBytes m p)]).setPort p (linkUp { q with sentAccept := true })
  else if q.phase = .offering then m.putFlits p [controlFlit none (trainingBytes m p)]
  else m
def execTrainingOfferTimer (p : PortId) (s : State) : Outcome State Fault Refusal := .next { s with m := offerTimer s.m p }
/-- TRAINING_OFFER: refused by R309, and the link stays down, or answered with accepts of the version it leads to; one that reaches a
link that is up trains it again (DEDUCED, log 61). -/
def takeOffer (m : Mach) (p : PortId) (o : Training) : Mach :=
  let q := m.port p
  if m.bridgePort p || q.phase = .down || q.phase = .failed then m
  else
    let m := if q.phase = .up then (dropPort m p .offering).latchNumber else m
    let q := m.port p
    let v := min 2 o.version.toNat
    if o.device.toNat = m.deviceNo ∨ 1023 < o.device.toNat ∨ v = 0 then
      logLink (m.setPort p { q with phase := .offering, sentAccept := false, gotAccept := false }) p
    else
      let same := q.phase == .accepting && q.version == v
      m.setPort p { q with phase := .accepting, version := v, partner := o.device.toNat,
                           sentAccept := same && q.sentAccept, gotAccept := same && q.gotAccept }
def execTrainingOffer (p : PortId) (o : Training) (s : State) : Outcome State Fault Refusal := .next { s with m := takeOffer s.m p o }
/-- TRAINING_ACCEPT. -/
def takeAccept (m : Mach) (p : PortId) (o : Training) : Mach :=
  let q := m.port p
  if q.phase = .accepting && o.chosen.toNat == q.version then m.setPort p (linkUp { q with gotAccept := true }) else m
def execTrainingAccept (p : PortId) (o : Training) (s : State) : Outcome State Fault Refusal := .next { s with m := takeAccept s.m p o }
/-- RETRAIN_LINKS: the number written takes effect, and every port that has its lanes starts from offers. -/
def retrain (m : Mach) : Mach :=
  let m := m.latchNumber
  let ps : List PortId := (upFrom 0 16).map fun i => ⟨BitVec.ofNat 2 (i / 4), BitVec.ofNat 2 i⟩
  ps.foldl (fun m p => if m.bridgePort p || (m.port p).phase == .down then m else dropPort m p .offering) m
def execRetrainLinks (s : State) : Outcome State Fault Refusal :=
  .next { s with m := if reqBusy s.m 12 then reqDone (retrain s.m) 0 else s.m }
/-- SET_ROUTING_ENTRY (R312). -/
def setRoute (m : Mach) (dst port : Word) : Mach :=
  if 1024 ≤ dst.toNat then reqDone m 2
  else reqDone { m with routes := mset m.routes dst.toNat (some ⟨BitVec.ofNat 2 (bits port 5 4), BitVec.ofNat 2 (bits port 1 0)⟩) } 0
def execSetRoutingEntry (dst port : Word) (s : State) : Outcome State Fault Refusal :=
  .next { s with m := onRequest 9 dst s.m fun m => if arg1 m == port then setRoute m dst port else m }

/-! Acknowledgement and failure (R306). -/
/-- LINK_IDLE. -/
def execLinkIdle (p : PortId) (ackValid : Bool) (ack : BitVec 12) (s : State) : Outcome State Fault Refusal :=
  .next { s with m := linkIdle s.m p ackValid ack.toNat }
/-- An idle flit: a port that has nothing else to send acknowledges what it has accepted (R307). -/
def lineIdle (m : Mach) (p : PortId) : Mach :=
  if (m.port p).phase = .up then m.putFlits p [controlFlit (m.port p).ack []] else m
/-- REPLAY_TIMEOUT: every unacknowledged flit again, or after 16 resends the port's failure. -/
def replayTimeout (m : Mach) (p : PortId) : Mach :=
  let q := m.port p
  if q.phase ≠ .up || q.unacked.isEmpty then m
  else if q.resends < 16 then
    (m.setPort p { q with resends := q.resends + 1 }).putFlits p (q.unacked.flatMap fun u => u.2.2.lastFlits u.1 u.2.1 q.ack)
  else logLink (dropPort m p .failed) p
def execReplayTimeout (p : PortId) (s : State) : Outcome State Fault Refusal := .next { s with m := replayTimeout s.m p }
/-- DISCARDED_FLIT: only a flit of a reserved or unnegotiated class is counted (R308). -/
def execDiscardedFlit (p : PortId) (why : FlitFlaw) (s : State) : Outcome State Fault Refusal :=
  .next { s with m := if why = .reservedClass && (s.m.port p).phase == .up then { s.m with lostFlits := sat16 s.m.lostFlits } else s.m }

/-! Requests of other devices and of the bridge (R311, R315). -/
/-- Status of an access to device virtual memory, with the violation to log: 1 translation, 2 protection, 3 data error. -/
def memStatus (m : Mach) (va n : Nat) (rd wr : Bool) : Nat × Option FaultRec :=
  let page (a : Nat) : Nat × Option FaultRec :=
    if globalTop ≤ a then (2, some (accFault 0x0A 3 wr a))
    else match m.walk a with
      | .error sub => (if sub = 6 then 3 else 1, some (leafFault sub wr a))
      | .ok t =>
        if rd && (permFault t .read).isSome then (2, some (accFault 0x0A 2 wr a))
        else if wr && (permFault t .write).isSome then (2, some (accFault 0x0A 0 wr a))
        else (0, none)
  match (pageAddrs va n).findSome? fun a => if (page a).1 = 0 then none else some (page a) with
  | some e => e
  | none =>
    if !rd then (0, none)
    else match (upFrom va n).find? fun a => match m.sysLoc a with | some l => m.errAt l | none => false with
      | some a => (3, some (accFault 0x0A 6 wr a))
      | none => (0, none)
/-- An access that is not supported is logged without a cause (16 R315) (DESIGN CHOICE, log 65). -/
def noAccess (a : Nat) : FaultRec := { cause := 0, addr := BitVec.ofNat 64 a }
/-- Log a violation of a requester that is no context (12 R235). -/
def logOuter (m : Mach) (f : Option FaultRec) : Mach :=
  match f with | some f => m.logErr 0 f.addr 0xFF 0xFF f.cause.toNat (f.info.toNat % 16) | none => m
/-- The L2's part in an access of n bytes. -/
def outerL2 (m : Mach) (va n : Nat) (write : Bool) : Mach :=
  (pageAddrs va n ++ (upFrom (va / 128 + 1) ((va + n - 1) / 128 - va / 128)).map (· * 128)).foldl (fun m a =>
    match m.sysLoc a with | some (.hbm pa) => l2Access m pa write false ⟨0, false, 0⟩ | _ => m) m
def memRead (m : Mach) (va n : Nat) : Mach × Nat × List Byte :=
  let (st, f) := memStatus m va n true false
  if st = 0 then (outerL2 m va n false, 0, m.devRead va n) else (logOuter m f, st, [])
/-- Write the bytes that the mask enables. -/
def memWrite (m : Mach) (va : Nat) (mask : Word) (bs : List Byte) : Mach × Nat :=
  let (st, f) := memStatus m va bs.length false true
  if st ≠ 0 then (logOuter m f, st)
  else
    let on := ((upFrom 0 bs.length).zip bs).filter fun x => decide (64 < bs.length) || mask.getLsbD x.1
    (on.foldl (fun m x => m.devWrite (va + x.1) [x.2]) (outerL2 m va bs.length true), 0)
/-- An atomic of another agent (13 R241); one that is misaligned, or of no operation of Table 16-5, is unsupported (DEDUCED, log 99). -/
def memAtomic (m : Mach) (op : BitVec 8) (va : Nat) (x swap : Word) : Mach × Nat × Word :=
  let n := if op = 0x1A then 4 else 8
  if op.toNat < 0x10 ∨ 0x1A < op.toNat ∨ va % n ≠ 0 then (logOuter m (some (noAccess va)), 4, 0)
  else
    let (st, f) := memStatus m va n true true
    if st ≠ 0 then (logOuter m f, st, 0)
    else match m.sysLoc va with
      | some (.host _) => (logOuter m (some (accFault 0x0A 10 true va)), 2, 0)
      | _ =>
        let old := word64 (m.devRead va n)
        ((outerL2 m va n true).devWrite va (leBytes n (atomicNew op old x swap).toNat), 0, old)

/-! Management registers (18 Table 18-3). -/
/-- The offsets of the registers a write can change, and what of the value they hold. -/
def mgmtMask (bridge : Bool) (off : Nat) : Option Nat :=
  if off = 0x008 then some 0x3FF
  else if off = 0x010 ∨ off = 0x018 ∨ off = 0x020 then some (2 ^ 64 - 2 ^ 12)
  else if off = 0x028 then some (2 ^ 48 - 2 ^ 12)
  else if off = 0x030 then some (2 ^ 64 - 2 ^ 16)
  else if off = 0x038 then some 0xFFFFFFFF
  else if off = 0x040 then some 0xFFFF
  else if off = 0x060 ∨ off = 0x068 then some (2 ^ 64 - 1)
  else if bridge && (off == 0x090 || off == 0x098 || off == 0x0A0 || off == 0x0A8) then some 0x83FF83FF83FF83FF
  else if bridge && off == 0x0B0 then some (2 ^ 64 - 2 ^ 36 + 31)
  else none
/-- POWER_LIMIT takes the value written, in 1800 to 3600 W (R355). -/
def writePower (m : Mach) (v : Word) : Mach := m.setMgmt 0x048 (if 3600 < v.toNat then 3600 else if v.toNat < 1800 then 1800 else v.toNat)
/-- A write to REQUEST (R358). -/
def writeRequest (m : Mach) (v : Word) : Mach :=
  if m.mgmtAt 0x078 % 2 = 1 then m
  else
    let code := v.toNat % 256
    let m := m.setMgmt 0x070 code
    if code = 0 ∨ 12 < code then reqDone m 2 else m.setMgmt 0x078 1
def mgmtWrite (m : Mach) (off : Nat) (v : Word) : Mach :=
  if off = 0x048 then writePower m v
  else if off = 0x070 then writeRequest m v
  else match mgmtMask m.brgSel off with
    | some k => m.setMgmt off (v.toNat &&& k)
    | none => m
/-- An entry of an error log as its 32 bytes. -/
def errBytes (e : ErrEnt) : List Byte :=
  leBytes 8 e.addr.toNat ++ [e.core, e.ctx, e.cause, e.sub] ++ zeros 4 ++ leBytes 8 e.time.toNat ++ zeros 8
/-- The value of a register; none where there is no register. -/
def mgmtRead (m : Mach) (off : Nat) : Option Nat :=
  if off % 8 ≠ 0 then none
  else if off = 0x000 then some (m.deviceNo + (if m.brgSel then 1024 else 0) + 2048 * m.grpPos.toNat)
  else if off = 0x058 then some ((upFrom 0 4).map fun d => (if reqBusy m 10 then 4 else (m.die d).fw.toNat) * 16 ^ d).sum
  else if off = 0x080 then some m.eccCorrected.toNat
  else if off = 0x088 then some (m.lostNotifies.toNat + 2 ^ 16 * m.lostReturns.toNat + 2 ^ 32 * m.lostFlits.toNat)
  else if off = 0x0F8 then some ((upFrom 0 4).map fun d => (m.die d).errHead.toNat * 256 ^ d).sum
  else if (0x090 ≤ off ∧ off ≤ 0x0B0) then some (if m.brgSel then m.mgmtAt off else 0)
  else if off ≤ 0x078 then some (m.mgmtAt off)
  else if 0x100 ≤ off ∧ off < 0x2100 then
    let k := off - 0x100
    some (match mget? (m.die (k / 0x800)).errlog (k % 0x800 / 32) with
      | some e => fld (errBytes e) (k % 32) 8
      | none => 0)
  else none
/-- A notify register is read as zero (05 R81). -/
def notifyDie (addr : Nat) : Option Nat := if addr < 0x40000 then some (addr % 0x10000) else none

/-- A read of one of the three spaces: the status and the data (DEDUCED, log 64). -/
def spaceRead (m : Mach) (space : BitVec 8) (size addr : Nat) : Mach × Nat × List Byte :=
  let no : Mach × Nat × List Byte := (logOuter m (some (noAccess addr)), 4, [])
  if size = 0 ∨ 4096 < size then no
  else match space.toNat with
    | 0 => memRead m addr size
    | 1 => (match mgmtRead m addr with | some v => if size = 8 then (m, 0, leBytes 8 v) else no | none => no)
    | 2 => (match notifyDie addr with | some o => if o + size ≤ 8 then (m, 0, zeros size) else no | none => no)
    | _ => no
/-- A write to one of the three spaces; a write to a notify register takes its value whole, whatever its byte mask is (DESIGN CHOICE, log 107). -/
def spaceWrite (m : Mach) (space : BitVec 8) (size addr : Nat) (mask : Word) (data : List Byte) : Mach × Nat :=
  let no : Mach × Nat := (logOuter m (some (noAccess addr)), 4)
  if size = 0 ∨ 4096 < size ∨ data.length ≠ size then no
  else match space.toNat with
    | 0 => memWrite m addr mask data
    | 1 => if size = 8 ∧ mask.toNat % 256 = 255 ∧ (mgmtRead m addr).isSome then (mgmtWrite m addr (word64 data), 0) else no
    | 2 => (match notifyDie addr with | some o => (m.notifyWrite o size (word64 data), 0) | none => no)
    | _ => no
/-- The header of an answer. -/
def answerHdr (h : MsgHdr) : MsgHdr := ⟨h.dst, h.src, h.tag⟩
/-- Send an answer to the requester. -/
def Mach.reply (m : Mach) (h : MsgHdr) (x : Msg) : Mach :=
  if h.src.toNat = m.deviceNo then { m with wire := m.wire ++ [x] } else { m with outbox := m.outbox ++ [x] }
def execRead (h : MsgHdr) (space : BitVec 8) (size : Nat) (addr : Word) (s : State) : Outcome State Fault Refusal :=
  onArrival (.read h space size addr) s fun m =>
    let r := spaceRead m space size addr.toNat
    r.1.reply h (.readAnswer (answerHdr h) (BitVec.ofNat 3 r.2.1) size addr r.2.2)
/-- DEDUCED, log 80. -/
def execWrite (h : MsgHdr) (space : BitVec 8) (size : Nat) (addr mask : Word) (data : List Byte) (s : State) : Outcome State Fault Refusal :=
  onArrival (.write h space size addr mask data) s fun m =>
    let r := spaceWrite m space size addr.toNat mask data
    r.1.reply h (.writeAnswer (answerHdr h) (BitVec.ofNat 3 r.2) size addr)
def execAtomic (h : MsgHdr) (op scope : BitVec 8) (addr operand swap : Word) (s : State) : Outcome State Fault Refusal :=
  onArrival (.atomic h op scope addr operand swap) s fun m =>
    let r := memAtomic m op addr.toNat operand swap
    r.1.reply h (.atomicAnswer (answerHdr h) (BitVec.ofNat 3 r.2.1) addr r.2.2)
/-- The PCI Express status of a link status (R315). -/
def pcieStatus (st : Nat) : Nat := if st = 0 then 0 else if st ≤ 2 then 1 else if st = 3 then 3 else 2
/-- An answer completes the host request that was waiting for it; any other is dropped. -/
def hostAnswer (m : Mach) (h : MsgHdr) (st : Nat) (data : List Byte) : Mach :=
  if m.hostReqs.contains h.tag.toNat then
    { m with hostReqs := m.hostReqs.erase h.tag.toNat, hostAnswers := m.hostAnswers ++ [⟨h.tag.toNat, pcieStatus st, data⟩] }
  else m
def execReadAnswer (h : MsgHdr) (status : BitVec 3) (size : Nat) (addr : Word) (data : List Byte) (s : State) : Outcome State Fault Refusal :=
  onArrival (.readAnswer h status size addr data) s fun m => hostAnswer m h status.toNat data
def execWriteAnswer (h : MsgHdr) (status : BitVec 3) (size : Nat) (addr : Word) (s : State) : Outcome State Fault Refusal :=
  onArrival (.writeAnswer h status size addr) s fun m => hostAnswer m h status.toNat []
def execAtomicAnswer (h : MsgHdr) (status : BitVec 3) (addr old : Word) (s : State) : Outcome State Fault Refusal :=
  onArrival (.atomicAnswer h status addr old) s fun m => hostAnswer m h status.toNat (leBytes 8 old.toNat)

/-- WEIGHT_RETURN (15 R287, R289). -/
def execWeightReturn (h : MsgHdr) (device : BitVec 16) (domain : BitVec 8) (gtag : Nat) (w : Word) (s : State) : Outcome State Fault Refusal :=
  onArrival (.weightReturn h device domain gtag w) s fun m =>
    if device.toNat = m.deviceNo then addReturn m domain.toNat gtag w else { m with lostReturns := sat16 m.lostReturns }
/-! Fault notices and MSI-X (R311, R314).  The table and the pending bits have the layout of PCI Express, with every vector masked at
reset; a vector-control byte is stored with its mask bit inverted (PRESUMED, log 66). -/
def isVectorControl (off : Nat) : Bool := decide (off < 4096) && off % 16 == 12
def msixByte (m : Mach) (off : Nat) : Byte := if isVectorControl off then cget m.msix off ^^^ 1 else cget m.msix off
def vectorMasked (m : Mach) (v : Nat) : Bool := (msixByte m (16 * v + 12)).getLsbD 0
def pendingBase : Nat := 0x8000
def vectorPending (m : Mach) (v : Nat) : Bool := (msixByte m (pendingBase + v / 8)).getLsbD (v % 8)
def setPending (m : Mach) (v : Nat) (on : Bool) : Mach :=
  let b := msixByte m (pendingBase + v / 8)
  let bit := BitVec.ofNat 8 (2 ^ (v % 8))
  { m with msix := cput m.msix (pendingBase + v / 8) (if on then b ||| bit else b &&& ~~~bit) }
/-- Raise a vector: to the host, or pending while it is masked. -/
def raiseVector (m : Mach) (v : Nat) : Mach := if vectorMasked m v then setPending m v true else { m with msixRaised := m.msixRaised ++ [v] }
/-- The n-th notice that waits leaves for the host bridge of the group. -/
def sendNotice (m : Mach) (n : Nat) : Mach :=
  match m.notices[n]? with
  | some x => ({ m with notices := m.notices.eraseIdx n }).post (if m.brgSel then m.deviceNo else Config.bridgeDevice) fun h => .faultNotice h x
  | none => m
/-- FAULT_NOTICE: a notice reaches the host by its bridge, with an interrupt. -/
def takeNotice (m : Mach) (n : Notice) : Mach :=
  if m.brgSel then raiseVector { m with hostNotices := m.hostNotices ++ [n] } (Config.noticeVector n.kind % 256) else m
def execFaultNotice (n : NoticeMsg) (s : State) : Outcome State Fault Refusal :=
  onArrival (.faultNotice n.hdr n.notice) s fun m => takeNotice m n.notice

/-! The token and stealing (05 R96, R97). -/
/-- The launch of this device that a committed record belongs to (R94, R95). -/
def eligibleRec (m : Mach) (bs : List Byte) : Option Launch :=
  if fld bs 0 1 = 1 ∧ fld bs 1 1 = 2 then (recordLaunch m bs).filter fun l => l.phase != .failing && decide (fld bs 4 4 % 2 ^ 24 < l.horizon)
  else none
/-- The same of a record that may be stolen for a tag; one whose weight is of another domain stays (DEDUCED, log 29). -/
def stealRec (m : Mach) (tag : BitVec 32) (q i : Nat) : Option Launch :=
  let bs := m.devRead (slotAddr m q i) 64
  (eligibleRec m bs).filter fun l => (entryFailure m q i).isNone && l.podTag == tag && fld bs 3 1 / 8 % 2 == 1 && (mget? m.recRoots (lidOf q i).toNat).isNone
/-- The indices of the unread entries of a queue. -/
def unread (m : Mach) (q : Nat) : List Nat := upFrom (m.qGet q 24 8) (min (2 ^ m.qCap q) (m.qGet q 16 8 - m.qGet q 24 8))
def recordQueues (m : Mach) : List Nat :=
  ((upFrom 0 4).flatMap fun d => (m.die d).slots.map (·.q)).filter fun q => m.qEnabled q && m.qFlag q 4 && !m.qFlag q 2
/-- Records that came back from a thief wait at the dealer, first among the eligible ones. -/
def Launch.returned (l : Launch) : List Task := l.records.filter (·.stealable)
/-- The stealable records of a tag that a device offers: those that came back, and those unread in its mapped record queues.  Others that
its dealer has taken, and those of a frozen or unmapped queue, do not count (R96, R97) (DESIGN CHOICE, log 98). -/
def eligible (m : Mach) (tag : BitVec 32) : Nat :=
  ((m.launches.filter fun l => l.podTag == tag && l.phase != .failing).map fun l => l.returned.length).sum +
  ((recordQueues m).map fun q => ((unread m q).filter fun i => (stealRec m tag q i).isSome).length).sum
def excess (m : Mach) (tag : BitVec 32) : Nat := eligible m tag - m.mgmtAt 0x040
/-- Take the next eligible record; a queue's next head has been passed over in no decision yet (R87) (DEDUCED, log 47). -/
def takeRecord (m : Mach) (tag : BitVec 32) : Option (Mach × List Byte) :=
  match m.launches.find? fun l => l.podTag == tag && l.phase != .failing && !l.returned.isEmpty with
  | some l =>
    l.returned.head?.map fun t => (m.modLaunch l.lid fun l => { l with records := l.records.erase t }, t.raw)
  | none =>
    ((recordQueues m).findSome? fun q => (unread m q).head?.bind fun i => (stealRec m tag q i).map fun l => (q, i, l)).map fun (q, i, l) =>
      let m' := (raiseHorizon (consumeHead m q) q).modDie (m.qHome q) fun x => { x with slots := lmod (fun s => s.q == q) (fun s => { s with passed := 0 }) x.slots }
      (m'.modLaunch l.lid fun l => { l with recOut := l.recOut - 1 }, m.devRead (slotAddr m q i) 64)
def takeRecords (tag : BitVec 32) : Nat → Mach → Mach × List (List Byte)
  | 0, m => (m, [])
  | n + 1, m =>
    match takeRecord m tag with
    | none => (m, [])
    | some (m, r) => ((takeRecords tag n m).1, r :: (takeRecords tag n m).2)
/-- Send a thief its grant: up to the count wanted, of the excess only. -/
def grant (m : Mach) (r : StealReq) : Mach :=
  let x := takeRecords r.jobTag (min (min r.count 8) (excess m r.jobTag)) m
  x.1.post r.thief.toNat fun h => .stealGrant h (BitVec.ofNat 10 m.deviceNo) r.jobTag x.2
/-- The tags of this device's stealable launches. -/
def podTags (m : Mach) : List (BitVec 32) :=
  ((m.launches.filter fun l => l.podTag != 0 && l.phase != .failing).map (·.podTag)).eraseDups
/-- Has a launch eligible records of its own? -/
def hasRecords (m : Mach) (l : Launch) : Bool :=
  !l.records.isEmpty || (recordQueues m).any fun q => (unread m q).any fun i => (entryFailure m q i).isNone && (eligibleRec m (m.devRead (slotAddr m q i) 64)).any (·.lid == l.lid)
/-- Would the device attach a request for a tag? (DESIGN CHOICE, log 63). -/
def wantsWork (m : Mach) (tag : BitVec 32) : Bool :=
  m.launches.any fun l => l.podTag == tag && l.phase == .running && (nextCtx m l).isSome && !hasRecords m l
/-- Place an offer, in a free place or in that of the smallest. -/
def placeOffer (l : List LoadOffer) (o : LoadOffer) : List LoadOffer :=
  if l.length < 4 then l ++ [o]
  else match l.foldl (fun (b : Option LoadOffer) x => match b with | none => some x | some y => if x.count < y.count then some x else some y) none with
    | some y => if y.count < o.count then l.map fun x => if x = y then o else x else l
    | none => l
/-- The four actions of a holder, in order (R96). -/
def actOnToken (m : Mach) (t : LoadToken) : Mach :=
  let me := BitVec.ofNat 10 m.deviceNo
  let t := { t with reqs := t.reqs.filter (·.thief != me), offers := t.offers.filter (·.device != me) }
  let (m, reqs) := t.reqs.foldl (fun (a : Mach × List StealReq) r =>
    if 0 < excess a.1 r.jobTag && v2Route a.1 r.thief.toNat then (grant a.1 r, a.2) else (a.1, a.2 ++ [r])) (m, [])
  let offers := (podTags m).foldl (fun l tag =>
    if 0 < excess m tag then placeOffer l { device := me, jobTag := tag, count := eligible m tag } else l) t.offers
  let (m, reqs) := (podTags m).foldl (fun (a : Mach × List StealReq) tag =>
    if !wantsWork a.1 tag then a
    else
      let r : StealReq := { thief := me, count := 1 + Config.freePick a.1.fresh % 8, jobTag := tag }
      let direct := offers.filter fun o => o.jobTag == tag && o.device != me && v2Route a.1 o.device.toNat && Config.freePick (a.1.fresh + 1) % 2 == 1
      let m := direct.foldl (fun m o => m.post o.device.toNat fun h => .stealRequest h r) a.1.freshen.freshen
      (m, if a.2.length < 4 then a.2 ++ [r] else a.2)) (m, reqs)
  { m with token := some { t with reqs := reqs, offers := offers }, tokenSince := m.time, tokenEpoch := t.epoch }
/-- LOAD_SUMMARY_TOKEN: one of an older epoch is discarded. -/
def execLoadSummaryToken (h : MsgHdr) (t : LoadToken) (s : State) : Outcome State Fault Refusal :=
  onArrival (.loadSummaryToken h t) s fun m => if t.epoch.toNat < m.tokenEpoch.toNat then m else actOnToken m t
def podSize : Nat := max 1 (min 1024 Config.podSize)
/-- TOKEN_HOLD_EXPIRY: the sequence rises by 1, and the next device gets the token. -/
def forwardToken (m : Mach) : Mach :=
  match m.token with
  | none => m
  | some t => { m with token := none, tokenSince := m.time }.post ((m.deviceNo + 1) % podSize) fun h => .loadSummaryToken h { t with seq := t.seq + 1 }
def execTokenHoldExpiry (s : State) : Outcome State Fault Refusal := .next { s with m := forwardToken s.m }
/-- TOKEN_LOSS_TIMEOUT: device 0, when every device of the pod is reachable (16 R309). -/
def newToken (m : Mach) : Mach :=
  if m.deviceNo = 0 && m.token.isNone && 2 ^ 28 ≤ (m.time - m.tokenSince).toNat && (upFrom 1 (podSize - 1)).all (v2Route m) then
    { m with token := some { epoch := m.tokenEpoch + 1, seq := 0, reqs := [], offers := [] }, tokenEpoch := m.tokenEpoch + 1, tokenSince := m.time }
  else m
def execTokenLossTimeout (s : State) : Outcome State Fault Refusal := .next { s with m := newToken s.m }
/-- STEAL_REQUEST: answered at once, with a grant of nothing where no excess is left. -/
def execStealRequest (h : MsgHdr) (r : StealReq) (s : State) : Outcome State Fault Refusal :=
  onArrival (.stealRequest h r) s fun m => if v2Route m r.thief.toNat then grant m r else m
/-- The launch of this device that a stolen record runs in: of the tag, and of the kernel handle of the record's launch (R97). -/
def thiefLaunch (m : Mach) (victim : BitVec 10) (tag : BitVec 32) (r : List Byte) : Option Launch :=
  m.launches.find? fun l => l.podTag == tag && l.phase != .failing && l.kernel.handle == Config.victimKernel victim.toNat (fld r 7 1)
/-- A stolen record joins the work of its launch, with the victim's weight, in order of arrival (R91), or goes back. -/
def takeStolen (victim : BitVec 10) (tag : BitVec 32) (m : Mach) (r : List Byte) : Mach :=
  match thiefLaunch m victim tag r with
  | some l => m.modLaunch l.lid fun l =>
      { l with msgs := l.msgs ++ [taskOfRecord r ⟨victim.toNat, BitVec.ofNat 8 (fld r 7 1), Config.victimTag victim.toNat (fld r 7 1)⟩ false] }
  | none => m.post victim.toNat fun h => .tileRecordMessage h victim r
/-- STEAL_GRANT. -/
def takeGrant (m : Mach) (victim : BitVec 10) (tag : BitVec 32) (rs : List (List Byte)) : Mach := rs.foldl (takeStolen victim tag) m
def execStealGrant (h : MsgHdr) (victim : BitVec 10) (jobTag : BitVec 32) (records : List (List Byte)) (s : State) : Outcome State Fault Refusal :=
  onArrival (.stealGrant h victim jobTag records) s fun m => takeGrant m victim jobTag records
/-- TILE_RECORD_MESSAGE: a record that came back, first among the eligible ones; with no launch left its weight returns. -/
def takeBack (m : Mach) (r : List Byte) : Mach :=
  match recordLaunch m r with
  | some l =>
    if l.phase = .failing then m.returnWeight (l.rootRef m) (BitVec.ofNat 64 (fld r 8 8))
    else m.modLaunch l.lid fun x => { x with records := taskOfRecord r (l.rootRef m) true :: x.records }
  | none => m.returnWeight ⟨m.deviceNo, BitVec.ofNat 8 (fld r 7 1), 0⟩ (BitVec.ofNat 64 (fld r 8 8))
def execTileRecordMessage (h : MsgHdr) (victim : BitVec 10) (record : List Byte) (s : State) : Outcome State Fault Refusal :=
  onArrival (.tileRecordMessage h victim record) s fun m => takeBack m record

/-! Delivery on this device. -/
/-- Deliver a message, whichever its class. -/
def runMsg (x : Msg) (s : State) : Outcome State Fault Refusal :=
  match x with
  | .read h space size addr => execRead h space size addr s
  | .readAnswer h st size addr data => execReadAnswer h st size addr data s
  | .write h space size addr mask data => execWrite h space size addr mask data s
  | .writeAnswer h st size addr => execWriteAnswer h st size addr s
  | .atomic h op scope addr v swap => execAtomic h op scope addr v swap s
  | .atomicAnswer h st addr old => execAtomicAnswer h st addr old s
  | .sendReady h r => execSendReady h r s
  | .pull h refusal sender core entry gtag ep tag => execPull h refusal sender core entry gtag ep tag s
  | .pullData h sender core entry gtag ep image => execPullData h sender core entry gtag ep image s
  | .weightReturn h dev dom gtag w => execWeightReturn h dev dom gtag w s
  | .activeMessage h t ep sender gtag kernel => execActiveMessage h t ep sender gtag kernel s
  | .loadSummaryToken h t => execLoadSummaryToken h t s
  | .stealRequest h r => execStealRequest h r s
  | .stealGrant h v tag rs => execStealGrant h v tag rs s
  | .tileRecordMessage h v r => execTileRecordMessage h v r s
  | .faultNotice h n => execFaultNotice ⟨h, n⟩ s
/-- Deliver the n-th message under way on this device, unless an earlier one of its order waits or its receive list is full. -/
def deliver (n : Nat) (s : State) : Outcome State Fault Refusal :=
  match s.m.wire[n]? with
  | none => .next s
  | some x =>
    if (s.m.wire.take n).any x.sameOrder then .next s
    else
      let m := { s.m with wire := s.m.wire.eraseIdx n }
      match x with
      | .sendReady _ r => .next { s with m := (deliverReady m r).getD s.m }
      | _ => runMsg x { s with m := m }

end Sys2Proof.Machine
end

