-- ==== Sys2Proof/Machine/Matrix.lean ====
section
/-! DEFINITION. Issuing the M slot (08 R152, 09 R161 to R171). -/
namespace Sys2Proof.Machine

def issueM (i : Instr) (m : MSlot) (r : Rule) (groups : Bool) (s : State) : Host.Outcome State Fault Refusal :=
  runSlot .m i (engineIssue .m .m (slotWord i) [] false fun s => planOf i r groups m.td m.ta m.tb m.tx 0 (fun _ => 0) s) s
/-- Transposed B, flag [28]. -/
def bTrans (m : MSlot) : Bool := m.flags.getLsbD 0

def execMNop (s : State) : Host.Outcome State Fault Refusal := runSlot .m .mNop id s
def execMma (m : MSlot) (s : State) : Host.Outcome State Fault Refusal := issueM (.mma m) m (ruleMma (bTrans m) true false false) true s
def execMmaz (m : MSlot) (s : State) : Host.Outcome State Fault Refusal := issueM (.mmaz m) m (ruleMma (bTrans m) false false false) true s
def execMabsd (m : MSlot) (s : State) : Host.Outcome State Fault Refusal := issueM (.mabsd m) m (ruleMma (bTrans m) true false false) true s
def execMmaxp (m : MSlot) (s : State) : Host.Outcome State Fault Refusal := issueM (.mmaxp m) m (ruleMma (bTrans m) true true false) true s
def execMminp (m : MSlot) (s : State) : Host.Outcome State Fault Refusal := issueM (.mminp m) m (ruleMma (bTrans m) true true false) true s
def execMsparse (m : MSlot) (s : State) : Host.Outcome State Fault Refusal := issueM (.msparse m) m (ruleMma (bTrans m) true false true) true s
def execMrank (m : MSlot) (s : State) : Host.Outcome State Fault Refusal := issueM (.mrank m) m ruleRank false s
def execMrankc (m : MSlot) (s : State) : Host.Outcome State Fault Refusal := issueM (.mrankc m) m ruleRank false s
def execMbload (m : MSlot) (s : State) : Host.Outcome State Fault Refusal := issueM (.mbload m) m (ruleBload (bTrans m)) false s

end Sys2Proof.Machine
end

