-- ==== Sys2Proof/Machine/Crypto.lean ====
section
/-! DEFINITION. SHAKE256 and pure Ed448, which 18 R353 and R354 name by their standards (FIPS 202, RFC 8032; PRESUMED, log 19). -/
namespace Sys2Proof.Machine

/-! SHAKE256. -/
def keccakRC : List Nat :=
  [0x0000000000000001, 0x0000000000008082, 0x800000000000808A, 0x8000000080008000, 0x000000000000808B, 0x0000000080000001,
   0x8000000080008081, 0x8000000000008009, 0x000000000000008A, 0x0000000000000088, 0x0000000080008009, 0x000000008000000A] ++
  [0x000000008000808B, 0x800000000000008B, 0x8000000000008089, 0x8000000000008003, 0x8000000000008002, 0x8000000000000080,
   0x000000000000800A, 0x800000008000000A, 0x8000000080008081, 0x8000000000008080, 0x0000000080000001, 0x8000000080008008]
/-- Rotations by lane x + 5y. -/
def keccakRot : List Nat := [0, 1, 62, 28, 27, 36, 44, 6, 55, 20, 3, 10, 43] ++ [25, 39, 41, 45, 15, 21, 8, 18, 2, 61, 56, 14]
def lane (a : List Word) (i : Nat) : Word := a.getD i 0
/-- One round of Keccak-f[1600]. -/
def keccakRound (a : List Word) (rc : Nat) : List Word :=
  let c := (upFrom 0 5).map fun x => lane a x ^^^ lane a (x + 5) ^^^ lane a (x + 10) ^^^ lane a (x + 15) ^^^ lane a (x + 20)
  let d := (upFrom 0 5).map fun x => lane c ((x + 4) % 5) ^^^ (lane c ((x + 1) % 5)).rotateLeft 1
  let a := (upFrom 0 25).map fun i => lane a i ^^^ lane d (i % 5)
  let b := (upFrom 0 25).map fun i =>
    let x := (i % 5 + 3 * (i / 5)) % 5
    let y := i % 5
    (lane a (x + 5 * y)).rotateLeft (keccakRot.getD (x + 5 * y) 0)
  let a := (upFrom 0 25).map fun i => lane b i ^^^ (~~~(lane b ((i + 1) % 5 + 5 * (i / 5))) &&& lane b ((i + 2) % 5 + 5 * (i / 5)))
  lset a 0 (lane a 0 ^^^ BitVec.ofNat 64 rc)
def keccakF (a : List Word) : List Word := keccakRC.foldl keccakRound a
def absorb (a : List Word) (block : List Byte) : List Word :=
  keccakF ((upFrom 0 25).map fun i => lane a i ^^^ (if i < 17 then BitVec.ofNat 64 (fld block (8 * i) 8) else 0))
def absorbAll : Nat → List Word → List Byte → List Word
  | 0, a, _ => a
  | n + 1, a, bs => absorbAll n (absorb a (bs.take 136)) (bs.drop 136)
/-- `n` bytes of output, at most 136. -/
def shake256 (bs : List Byte) (n : Nat) : List Byte :=
  let z := 135 - bs.length % 136
  let p := if z = 0 then [0x9F] else (0x1F : Byte) :: List.replicate (z - 1) 0 ++ [0x80]
  let a := absorbAll (bs.length / 136 + 1) (List.replicate 25 0) (bs ++ p)
  ((upFrom 0 17).flatMap fun i => leBytes 8 (lane a i).toNat).take n

/-! The curve Edwards448. -/
def edP : Nat := 2 ^ 448 - 2 ^ 224 - 1
def edD : Nat := edP - 39081
def edL : Nat := 2 ^ 446 - 0x8335dc163bb124b65129c96fde933d8d723a70aadc873d6d54a7bb0d
def powMod (b e : Nat) : Nat → Nat
  | 0 => 1
  | n + 1 => let r := powMod b e n; let r := r * r % edP; if e / 2 ^ (447 - n) % 2 = 1 then r * b % edP else r
def powP (b e : Nat) : Nat := powMod b e 448
/-- A point in projective coordinates. -/
structure EdPoint where
  x : Nat
  y : Nat
  z : Nat
def edAdd (p q : EdPoint) : EdPoint :=
  let a := p.z * q.z % edP
  let b := a * a % edP
  let c := p.x * q.x % edP
  let d := p.y * q.y % edP
  let e := edD * (c * d % edP) % edP
  let f := (b + edP - e) % edP
  let g := (b + e) % edP
  let h := (p.x + p.y) * (q.x + q.y) % edP
  ⟨a * f % edP * ((h + 2 * edP - c - d) % edP) % edP, a * g % edP * ((d + edP - c) % edP) % edP, f * g % edP⟩
def edMul (k : Nat) (p : EdPoint) : Nat → EdPoint
  | 0 => ⟨0, 1, 1⟩
  | n + 1 => let r := edMul k p n; let r := edAdd r r; if k / 2 ^ (447 - n) % 2 = 1 then edAdd r p else r
def edTimes (k : Nat) (p : EdPoint) : EdPoint := edMul k p 448
def edBase : EdPoint :=
  ⟨224580040295924300187604334099896036246789641632564134246125461686950415467406032909029192869357953282578032075146446173674602635247710,
   298819210078481492676017930443930673437544040154080242095928241372331506189835876003536878655418784733982303233503462500531545062832660, 1⟩
def edSame (p q : EdPoint) : Bool := p.x * q.z % edP == q.x * p.z % edP && p.y * q.z % edP == q.y * p.z % edP
def edEncode (p : EdPoint) : List Byte :=
  let i := powP p.z (edP - 2)
  leBytes 57 (p.y * i % edP + (p.x * i % edP) % 2 * 2 ^ 455)
def edDecode (bs : List Byte) : Option EdPoint :=
  let n := leNat bs
  let y := n % 2 ^ 455
  let s := n / 2 ^ 455 % 2
  let u := (y * y + edP - 1) % edP
  let v := (edD * (y * y % edP) + edP - 1) % edP
  let x := powP (u * powP v (edP - 2) % edP) ((edP + 1) / 4)
  if bs.length ≠ 57 ∨ edP ≤ y ∨ v * (x * x % edP) % edP ≠ u ∨ (x = 0 ∧ s = 1) then none
  else some ⟨if x % 2 = s then x else edP - x, y, 1⟩
/-- The prefix of pure Ed448 with an empty context. -/
def dom4 : List Byte := [0x53, 0x69, 0x67, 0x45, 0x64, 0x34, 0x34, 0x38, 0, 0]
def ed448Verify (key msg sig : List Byte) : Bool :=
  match edDecode key, edDecode (sig.take 57) with
  | some a, some r =>
    let s := leNat (sig.drop 57)
    let k := leNat (shake256 (dom4 ++ sig.take 57 ++ key ++ msg) 114) % edL
    sig.length == 114 && decide (s < edL) && edSame (edTimes 4 (edTimes s edBase)) (edTimes 4 (edAdd r (edTimes k a)))
  | _, _ => false
def ed448Sign (key msg : List Byte) : List Byte :=
  let h := shake256 key 114
  let s := leNat (h.take 57) % 2 ^ 447 / 4 * 4 + 2 ^ 447
  let pub := edEncode (edTimes s edBase)
  let r := leNat (shake256 (dom4 ++ h.drop 57 ++ msg) 114) % edL
  let big := edEncode (edTimes r edBase)
  let k := leNat (shake256 (dom4 ++ big ++ pub ++ msg) 114) % edL
  big ++ leBytes 57 ((r + k * s) % edL)

end Sys2Proof.Machine
end

