-- ==== Sys2Proof/Machine/Mgmt.lean ====
section
/-! DEFINITION. Firmware, attestation, power, the management registers, the host's accesses, soft errors and resets
(12 R222, R223; 14 R276; 16 R313 to R316; 18 R353 to R358). -/
namespace Sys2Proof.Machine
open Host (Outcome)

/-! Firmware and attestation (R353, R354). -/
/-- The check that an image fails first: 0 none, 1 header or digest, 2 signature, 3 version (DEDUCED, log 68). -/
def checkImage (bs : List Byte) : Nat :=
  let n := fld bs 8 8
  let hdr := bs.take 256
  if bs.length ≠ 256 + n ∨ 2 ^ 24 < n ∨ bs.take 4 ≠ [0x48, 0x46, 0x57, 0x31] then 1
  else if !ed448Verify Config.bootKey (shake256 (bs.take 128 ++ bs.drop 256) 64) ((hdr.drop 128).take 114) then 2
  else if fld bs 4 4 < Config.fusedVersion.toNat then 3
  else 0
def imageDigest (bs : List Byte) : List Byte := shake256 (bs.take 128 ++ bs.drop 256) 64
def eachDie (m : Mach) (f : Die → Die) : Mach := (upFrom 0 4).foldl (fun m d => m.modDie d f) m
/-- Every control core runs its image; else the device serves only the management registers and firmware loading. -/
def Mach.ready (m : Mach) : Bool := (upFrom 0 4).all fun d => (m.die d).booted
/-- The 320 bytes of a report, the signature, and the certificate (DEDUCED, log 67). -/
def attestation (m : Mach) (nonce : List Byte) : List Byte :=
  let digests := (upFrom 0 4).flatMap fun d => (((m.die d).image.getD (Config.bootDigest d)) ++ zeros 64).take 64
  let report := nonce ++ leBytes 8 Config.serial.toNat ++ digests ++ leBytes 4 Config.fusedVersion.toNat ++ leBytes 4 1 ++ leBytes 8 features ++ zeros 8
  report ++ ed448Sign Config.identityKey (shake256 report 64) ++ Config.certificate
/-- DESIGN CHOICE, log 65. -/
def Mach.complete (m : Mach) (tag status : Nat) (data : List Byte) : Mach := { m with hostAnswers := m.hostAnswers ++ [⟨tag, status, data⟩] }
def noTag : Nat := 4096
/-- A control core checks the image in the flash of die 0 and runs it, or stays in recovery (R353; 01 R10). -/
def bootDie (m : Mach) (d : Nat) : Mach :=
  if (m.die d).booted || (m.die d).fw != 0 then m
  else
    let st := checkImage Config.flash
    m.modDie d fun x => if st = 0 then { x with booted := true, image := some (imageDigest Config.flash) } else { x with fw := BitVec.ofNat 4 st }
/-- A request at the bridge's mailbox; while an image is being verified it waits. -/
def attest (m : Mach) (nonce : List Byte) : Mach :=
  if !m.brgSel || nonce.length != 32 then m
  else if reqBusy m 10 then { m with attest := m.attest ++ [nonce] }
  else m.complete noTag 0 (attestation m nonce)
def execAttestationRequest (nonce : List Byte) (s : State) : Outcome State Fault Refusal := .next { s with m := attest s.m nonce }
/-- LOAD_FIRMWARE: the image replaces the running one, or the running one is kept; then the waiting reports are answered. -/
def loadFirmware (m : Mach) (addr bytes : Word) : Mach :=
  let m :=
    let bad := if 256 + 2 ^ 24 < bytes.toNat then none else readFailure m addr.toNat bytes.toNat
    if 256 + 2 ^ 24 < bytes.toNat || bad.isSome then reqDone (m.logDev 0 bad) 2
    else
      let bs := m.devRead addr.toNat bytes.toNat
      let st := checkImage bs
      if st = 0 then reqDone (eachDie m fun d => { d with fw := 0, booted := true, image := some (imageDigest bs) }) 0
      else reqDone (eachDie m fun d => if d.booted then d else { d with fw := BitVec.ofNat 4 st }) 1
  m.attest.foldl (fun m n => m.complete noTag 0 (attestation m n)) { m with attest := [] }
def execLoadFirmware (addr bytes : Word) (s : State) : Outcome State Fault Refusal :=
  .next { s with m := onRequest 10 addr s.m fun m => if arg1 m == bytes then loadFirmware m addr bytes else m }
/-- DOE_DISCOVERY, by PCI Express's protocol: entry 0 is discovery itself, entry 1 the attestation protocol (PRESUMED, log 100). -/
def discover (m : Mach) (index : Nat) : Mach :=
  if !m.brgSel then m
  else m.complete noTag 0 (if index = 0 then leBytes 2 1 ++ [0, 1] else if index = 1 then leBytes 4 (Config.doeProtocol % 2 ^ 24) else leBytes 4 0xFFFF)
def execDoeDiscovery (index : Nat) (s : State) : Outcome State Fault Refusal := .next { s with m := discover s.m index }

/-! Management registers and requests (R357, R358). -/
def execMgmtRegisterWrite (offset : Nat) (v : Word) (s : State) : Outcome State Fault Refusal := .next { s with m := mgmtWrite s.m offset v }
def execPowerLimitWrite (v : Word) (s : State) : Outcome State Fault Refusal := .next { s with m := writePower s.m v }
/-- CLEAR_COUNTERS. -/
def clearCounters (m : Mach) : Mach :=
  eachDie { m with eccCorrected := 0, lostNotifies := 0, lostReturns := 0, lostFlits := 0 } fun d => { d with errlog := [], errHead := 0 }
def execClearCounters (s : State) : Outcome State Fault Refusal := .next { s with m := if reqBusy s.m 11 then reqDone (clearCounters s.m) 0 else s.m }

/-! Power (R355, R356). -/
/-- GOVERNOR_SAMPLE: the clock's k by the average of the last 65,536 counts (DEDUCED, log 71). -/
def governor (m : Mach) (avg : Nat) : Mach :=
  if m.time.toNat < m.govAt.toNat then m
  else
    let lim := m.mgmtAt 0x048
    let k := if lim < avg then max 16 (m.govK - 1) else if 100 * avg < 95 * lim then min 32 (m.govK + 1) else m.govK
    { m with govK := k, govAt := m.time + 65536 }.setMgmt 0x050 (1250 * k / 32 + 65536 * (avg % 65536))
def execGovernorSample (average : Nat) (s : State) : Outcome State Fault Refusal := .next { s with m := governor s.m average }
/-- POWER_GATE: a core without a seat for 2^20 counts. -/
def gateCore (m : Mach) (core : Nat) : Mach :=
  if (seatsOn m core).isEmpty && !(m.core core).waking && 2 ^ 20 ≤ (m.time - (m.core core).idleSince).toNat then
    m.modCore core fun c => { c with gated := true, icache := [], l1 := [], tlb := [] }
  else m
def execPowerGate (core : Nat) (s : State) : Outcome State Fault Refusal := .next { s with m := gateCore s.m core }
/-- CORE_WAKE: a gated core wakes for the claim that has met it; until the claim is made it is not gated again. -/
def wakeCore (m : Mach) (core : Nat) : Mach := if (m.core core).waking then m.modCore core fun c => { c with gated := false } else m
def execCoreWake (core : Nat) (s : State) : Outcome State Fault Refusal := .next { s with m := wakeCore s.m core }

/-! The host bridge (16 R313 to R316). -/
/-- The device at a position of the group. -/
def groupDevice (m : Mach) (p : Nat) : Option Nat :=
  let e := m.mgmtAt (0x090 + 8 * (p / 4)) / 2 ^ (16 * (p % 4)) % 65536
  if e / 32768 = 1 then some (e % 1024) else none
/-- SYS scope (01 R14), at which the host accesses memory (Table 16-3). -/
def sysScope : BitVec 8 := 6
/-- The message that a host access to a space of a device becomes. -/
def hostMsg (h : MsgHdr) (op : HostOp) (space : BitVec 8) (size addr : Nat) (data : List Byte) : Msg :=
  let a := BitVec.ofNat 64 addr
  match op with
  | .read => .read h space size a
  | .write => .write h space size a (BitVec.ofNat 64 (if size < 64 then 2 ^ size - 1 else 2 ^ 64 - 1)) data
  | .atomic o => .atomic h o sysScope a (word64 (data.take 8)) (word64 ((data.drop 8).take 8))
/-- A host access to a space of a device: this one at once, another by a message whose answer completes it. -/
def hostAccess (m : Mach) (dev : Nat) (op : HostOp) (space : BitVec 8) (size addr : Nat) (data : List Byte) : Mach :=
  if dev = m.deviceNo then
    match op with
    | .read => let r := spaceRead m space size addr; r.1.complete noTag (pcieStatus r.2.1) r.2.2
    | .write => let r := spaceWrite m space size addr (BitVec.ofNat 64 (2 ^ 64 - 1)) data; r.1.complete noTag (pcieStatus r.2) []
    | .atomic o =>
      let r := memAtomic m o addr (word64 (data.take 8)) (word64 ((data.drop 8).take 8))
      r.1.complete noTag (pcieStatus r.2.1) (if r.2.1 = 0 then leBytes 8 r.2.2.toNat else [])
  else
    let h := m.header dev
    { m with hostReqs := m.hostReqs ++ [h.tag.toNat] }.postOut (hostMsg h op space size addr data)
/-- An access that reaches no register, device or open window (R315). -/
def unsupported (m : Mach) (off : Nat) : Mach := (logOuter m (some (noAccess off))).complete noTag 2 []
/-- HOST_BAR0_ACCESS; nothing stands between the notify registers and the management registers of a device (DEDUCED, log 64). -/
def bar0 (m : Mach) (write : Bool) (off size : Nat) (v : Word) : Mach :=
  if !m.brgSel then m
  else if 2 ^ 25 ≤ off then unsupported m off
  else match groupDevice m (off / 2 ^ 21) with
    | none => unsupported m off
    | some dev =>
      let o := off % 2 ^ 21
      let op : HostOp := if write then .write else .read
      if o < 0x40000 then hostAccess m dev op 2 size o (leBytes size v.toNat)
      else if o < 0x100000 then unsupported m off
      else if size ≠ 8 then unsupported m off
      else hostAccess m dev op 1 8 (o - 0x100000) (leBytes 8 v.toNat)
def execHostBar0Access (write : Bool) (offset size : Nat) (value : Word) (s : State) : Outcome State Fault Refusal :=
  .next { s with m := bar0 s.m write offset size value }
/-- HOST_BAR2_ACCESS. -/
def bar2 (m : Mach) (op : HostOp) (off size : Nat) (data : List Byte) : Mach :=
  if !m.brgSel then m
  else
    let sel := m.mgmtAt 0x0B0
    if sel / 16 % 2 = 0 ∨ 2 ^ 36 < off + size then unsupported m off
    else match groupDevice m (sel % 16) with
      | none => unsupported m off
      | some dev => hostAccess m dev op 0 size (sel / 2 ^ 36 * 2 ^ 36 + off) data
def execHostBar2Access (op : HostOp) (offset size : Nat) (data : List Byte) (s : State) : Outcome State Fault Refusal :=
  .next { s with m := bar2 s.m op offset size data }
/-- A write to the MSI-X table; the pending bits take none.  A vector that is unmasked is raised if it is pending (PRESUMED, log 66). -/
def msixWrite (m : Mach) (off : Nat) (bs : List Byte) : Mach :=
  let m := ((upFrom off bs.length).zip bs).foldl (fun m x =>
    if pendingBase ≤ x.1 && x.1 < pendingBase + 32 then m
    else { m with msix := cput m.msix x.1 (if isVectorControl x.1 then x.2 ^^^ 1 else x.2) }) m
  ((upFrom (off / 16) 2).filter fun v => decide (v < 256) && vectorPending m v && !vectorMasked m v).foldl
    (fun m v => raiseVector (setPending m v false) v) m
/-- HOST_BAR4_ACCESS: the MSI-X table and the pending bits. -/
def bar4 (m : Mach) (write : Bool) (off size : Nat) (v : Word) : Mach :=
  if !m.brgSel then m
  else if 65536 < off + size ∨ (size ≠ 4 ∧ size ≠ 8) ∨ off % 4 ≠ 0 then unsupported m off
  else if write then (msixWrite m off (leBytes size v.toNat)).complete noTag 0 []
  else m.complete noTag 0 ((upFrom off size).map (msixByte m))
def execHostBar4Access (write : Bool) (offset size : Nat) (value : Word) (s : State) : Outcome State Fault Refusal :=
  .next { s with m := bar4 s.m write offset size value }

/-! Errors and resets. -/
/-- SOFT_ERROR (12 R222, R223): a corrected one is counted; one in a cache of unchanged data drops its line (DEDUCED, log 40).  A byte of a
tile register that is in error holds nothing, so it is one with no bit written since. -/
def softError (m : Mach) (site : ErrSite) (correctable : Bool) : Mach :=
  if correctable then { m with eccCorrected := m.eccCorrected + 1 }
  else match site with
    | .icache core va => m.modCore core fun c => { c with icache := mdel c.icache (va / 128) }
    | .l1 core line => l1DropLine m core line
    | .tile cx t i sc =>
      { (m.modCtx cx fun c => let x := c.tile t; c.setTile t (if sc then { x with scales := mdel x.scales i } else { x with data := mdel x.data i, part := mdel x.part i })) with
        errs := (m.errs ++ [site]).eraseDups }
    | _ => { m with errs := (m.errs ++ [site]).eraseDups }
def execSoftError (site : ErrSite) (correctable : Bool) (s : State) : Outcome State Fault Refusal := .next { s with m := softError s.m site correctable }
/-- CORE_RESET: a core under reset runs nothing; it leaves with its seats gone and their regions zero (14 R276) (DEDUCED, log 70). -/
def coreReset (m : Mach) (core : Nat) (leave : Bool) : Mach :=
  if !leave then m.modCore core fun c => { c with inReset := true }
  else if !(m.core core).inReset then m
  else
    let seats := seatsOn m core
    let m := seats.foldl (fun m st => zeroRegion m core st.base st.size) (seats.foldl dropSeat m)
    let m := seats.foldl (fun m st => st.ctxs.foldl (fun m cx => m.setCtx cx {}) m) m
    m.setCore core { idleSince := m.time }
def execCoreReset (core : Nat) (leave : Bool) (s : State) : Outcome State Fault Refusal := .next { s with m := coreReset s.m core leave }
/-- DEVICE_RESET (16 R316, 18 R353): straps and registers, with the control cores yet to check their image; HBM and the host's memory are not
registers and keep their bytes (DEDUCED, log 69). -/
def deviceReset (m : Mach) (brgSel : Bool) (grpPos : BitVec 4) : Mach :=
  { mem := m.mem, hostMem := m.hostMem, errs := m.errs.filter (fun e => match e with | .hbm _ => true | _ => false), brgSel := brgSel,
    grpPos := grpPos, steps := m.steps, fresh := m.fresh, uid := m.uid, msgNo := m.msgNo }
def execDeviceReset (brgSel : Bool) (grpPos : BitVec 4) (s : State) : Outcome State Fault Refusal :=
  .next { s with m := deviceReset s.m brgSel grpPos, issue := {} }

end Sys2Proof.Machine
end

