-- ==== Sys2Proof/Machine/ScalarInt.lean ====
section
/-! DEFINITION. The integer, predicate and FP32 instructions of the X slot (07 R128 to R136, R147). -/
namespace Sys2Proof.Machine

/-- A register-register operation of latency `lat` (R122, R128). -/
def alu2 (i : Instr) (lat : Nat) (sd sa sb : SReg) (f : Word → Word → Word) (s : State) : Host.Outcome State Fault Refusal :=
  runX i (fun s => wrS sd lat (f (rs s sa) (rs s sb)) (reads [sr s sa, sr s sb] s)) s
/-- A one-source operation (R129, R131). -/
def alu1 (i : Instr) (lat : Nat) (sd sa : SReg) (f : Word → Word) (s : State) : Host.Outcome State Fault Refusal :=
  runX i (fun s => wrS sd lat (f (rs s sa)) (reads [sr s sa] s)) s
/-- A compare into a predicate (R133). -/
def cmp2 (i : Instr) (lat : Nat) (pd : PReg) (sa sb : SReg) (f : Word → Word → Bool) (s : State) : Host.Outcome State Fault Refusal :=
  runX i (fun s => wrP pd lat (f (rs s sa) (rs s sb)) (reads [sr s sa, sr s sb] s)) s
def cmp1 (i : Instr) (pd : PReg) (sa : SReg) (f : Word → Bool) (s : State) : Host.Outcome State Fault Refusal :=
  runX i (fun s => wrP pd 1 (f (rs s sa)) (reads [sr s sa] s)) s
/-- Predicate operations (R134). -/
def pred2 (i : Instr) (pd pa pb : PReg) (f : Bool → Bool → Bool) (s : State) : Host.Outcome State Fault Refusal :=
  runX i (fun s => wrP pd 1 (f (rp s pa) (rp s pb)) (reads [pref pa, pref pb] s)) s
def pred1 (i : Instr) (pd pa : PReg) (f : Bool → Bool) (s : State) : Host.Outcome State Fault Refusal :=
  runX i (fun s => wrP pd 1 (f (rp s pa)) (reads [pref pa] s)) s

/-! The operations of R128. -/
def opShl (a b : Word) : Word := a <<< (b.toNat % 64)
def opShr (a b : Word) : Word := a >>> (b.toNat % 64)
def opSra (a b : Word) : Word := a.sshiftRight (b.toNat % 64)
def opMulh (a b : Word) : Word := BitVec.ofInt 64 (a.toInt * b.toInt / 2 ^ 64)
def opMulhu (a b : Word) : Word := BitVec.ofNat 64 (a.toNat * b.toNat / 2 ^ 64)
def minWord : Word := 0x8000000000000000
def opDiv (a b : Word) : Word :=
  if b = 0 then BitVec.allOnes 64 else if a = minWord ∧ b = BitVec.allOnes 64 then a else BitVec.ofInt 64 (a.toInt.tdiv b.toInt)
def opDivu (a b : Word) : Word := if b = 0 then BitVec.allOnes 64 else BitVec.ofNat 64 (a.toNat / b.toNat)
def opRem (a b : Word) : Word :=
  if b = 0 then a else if a = minWord ∧ b = BitVec.allOnes 64 then 0 else BitVec.ofInt 64 (a.toInt.tmod b.toInt)
def opRemu (a b : Word) : Word := if b = 0 then a else BitVec.ofNat 64 (a.toNat % b.toNat)
def opMin (a b : Word) : Word := if a.toInt ≤ b.toInt then a else b
def opMax (a b : Word) : Word := if a.toInt ≤ b.toInt then b else a
def opMinu (a b : Word) : Word := if a.toNat ≤ b.toNat then a else b
def opMaxu (a b : Word) : Word := if a.toNat ≤ b.toNat then b else a
/-- Leading and trailing zeros, and one bits, of 64 (R129). -/
def opClz (a : Word) : Word := if a = 0 then 64 else BitVec.ofNat 64 (63 - Nat.log2 a.toNat)
def opCtz (a : Word) : Word := BitVec.ofNat 64 ((firstNat (fun k => a.getLsbD k) 0 64).getD 64)
def opPopc (a : Word) : Word := BitVec.ofNat 64 ((upFrom 0 64).filter fun k => a.getLsbD k).length
def sext12 (imm : BitVec 12) : Word := imm.signExtend 64
def sext18 (imm : BitVec 18) : Word := imm.signExtend 64

/-- NOP (R147). -/
def execNop (s : State) : Host.Outcome State Fault Refusal := runX .nop id s

def execAdd (sd sa sb : SReg) (s : State) : Host.Outcome State Fault Refusal := alu2 (.add sd sa sb) 1 sd sa sb (fun a b => a + b) s
def execSub (sd sa sb : SReg) (s : State) : Host.Outcome State Fault Refusal := alu2 (.sub sd sa sb) 1 sd sa sb (fun a b => a - b) s
def execAnd (sd sa sb : SReg) (s : State) : Host.Outcome State Fault Refusal := alu2 (.and sd sa sb) 1 sd sa sb (fun a b => a &&& b) s
def execOr (sd sa sb : SReg) (s : State) : Host.Outcome State Fault Refusal := alu2 (.or sd sa sb) 1 sd sa sb (fun a b => a ||| b) s
def execXor (sd sa sb : SReg) (s : State) : Host.Outcome State Fault Refusal := alu2 (.xor sd sa sb) 1 sd sa sb (fun a b => a ^^^ b) s
def execShl (sd sa sb : SReg) (s : State) : Host.Outcome State Fault Refusal := alu2 (.shl sd sa sb) 1 sd sa sb (opShl) s
def execShr (sd sa sb : SReg) (s : State) : Host.Outcome State Fault Refusal := alu2 (.shr sd sa sb) 1 sd sa sb (opShr) s
def execSra (sd sa sb : SReg) (s : State) : Host.Outcome State Fault Refusal := alu2 (.sra sd sa sb) 1 sd sa sb (opSra) s
def execMul (sd sa sb : SReg) (s : State) : Host.Outcome State Fault Refusal := alu2 (.mul sd sa sb) 3 sd sa sb (fun a b => a * b) s
def execMulh (sd sa sb : SReg) (s : State) : Host.Outcome State Fault Refusal := alu2 (.mulh sd sa sb) 3 sd sa sb (opMulh) s
def execMulhu (sd sa sb : SReg) (s : State) : Host.Outcome State Fault Refusal := alu2 (.mulhu sd sa sb) 3 sd sa sb (opMulhu) s
def execDiv (sd sa sb : SReg) (s : State) : Host.Outcome State Fault Refusal := alu2 (.div sd sa sb) 18 sd sa sb (opDiv) s
def execDivu (sd sa sb : SReg) (s : State) : Host.Outcome State Fault Refusal := alu2 (.divu sd sa sb) 18 sd sa sb (opDivu) s
def execRem (sd sa sb : SReg) (s : State) : Host.Outcome State Fault Refusal := alu2 (.rem sd sa sb) 18 sd sa sb (opRem) s
def execRemu (sd sa sb : SReg) (s : State) : Host.Outcome State Fault Refusal := alu2 (.remu sd sa sb) 18 sd sa sb (opRemu) s
def execMin (sd sa sb : SReg) (s : State) : Host.Outcome State Fault Refusal := alu2 (.min sd sa sb) 1 sd sa sb (opMin) s
def execMax (sd sa sb : SReg) (s : State) : Host.Outcome State Fault Refusal := alu2 (.max sd sa sb) 1 sd sa sb (opMax) s
def execMinu (sd sa sb : SReg) (s : State) : Host.Outcome State Fault Refusal := alu2 (.minu sd sa sb) 1 sd sa sb (opMinu) s
def execMaxu (sd sa sb : SReg) (s : State) : Host.Outcome State Fault Refusal := alu2 (.maxu sd sa sb) 1 sd sa sb (opMaxu) s
def execClz (sd sa : SReg) (s : State) : Host.Outcome State Fault Refusal := alu1 (.clz sd sa) 1 sd sa opClz s
def execCtz (sd sa : SReg) (s : State) : Host.Outcome State Fault Refusal := alu1 (.ctz sd sa) 1 sd sa opCtz s
def execPopc (sd sa : SReg) (s : State) : Host.Outcome State Fault Refusal := alu1 (.popc sd sa) 1 sd sa opPopc s
/-- SEL (R130). -/
def execSel (sd : SReg) (p : PReg) (sa sb : SReg) (s : State) : Host.Outcome State Fault Refusal :=
  runX (.sel sd p sa sb) (fun s => wrS sd 1 (if rp s p then rs s sa else rs s sb) (reads [pref p, sr s sa, sr s sb] s)) s
/-! Immediate forms (R131). -/
def execAddi (sd sa : SReg) (imm : BitVec 12) (s : State) : Host.Outcome State Fault Refusal :=
  alu1 (.addi sd sa imm) 1 sd sa (fun a => a + sext12 imm) s
def execAndi (sd sa : SReg) (imm : BitVec 12) (s : State) : Host.Outcome State Fault Refusal :=
  alu1 (.andi sd sa imm) 1 sd sa (fun a => a &&& sext12 imm) s
def execOri (sd sa : SReg) (imm : BitVec 12) (s : State) : Host.Outcome State Fault Refusal :=
  alu1 (.ori sd sa imm) 1 sd sa (fun a => a ||| sext12 imm) s
def execXori (sd sa : SReg) (imm : BitVec 12) (s : State) : Host.Outcome State Fault Refusal :=
  alu1 (.xori sd sa imm) 1 sd sa (fun a => a ^^^ sext12 imm) s
def execShli (sd sa : SReg) (imm : BitVec 12) (s : State) : Host.Outcome State Fault Refusal :=
  alu1 (.shli sd sa imm) 1 sd sa (fun a => opShl a (sext12 imm)) s
def execShri (sd sa : SReg) (imm : BitVec 12) (s : State) : Host.Outcome State Fault Refusal :=
  alu1 (.shri sd sa imm) 1 sd sa (fun a => opShr a (sext12 imm)) s
def execSrai (sd sa : SReg) (imm : BitVec 12) (s : State) : Host.Outcome State Fault Refusal :=
  alu1 (.srai sd sa imm) 1 sd sa (fun a => opSra a (sext12 imm)) s
def execMuli (sd sa : SReg) (imm : BitVec 12) (s : State) : Host.Outcome State Fault Refusal :=
  alu1 (.muli sd sa imm) 3 sd sa (fun a => a * sext12 imm) s
/-- LI and LIH (R132). -/
def execLi (sd : SReg) (imm : BitVec 18) (s : State) : Host.Outcome State Fault Refusal :=
  runX (.li sd imm) (fun s => wrS sd 1 (sext18 imm) s) s
def execLih (sd : SReg) (imm : BitVec 18) (s : State) : Host.Outcome State Fault Refusal :=
  alu1 (.lih sd imm) 1 sd sd (fun a => (a <<< 18) ||| imm.setWidth 64) s
/-! Compares (R133). -/
def execCmpeq (pd : PReg) (sa sb : SReg) (s : State) : Host.Outcome State Fault Refusal :=
  cmp2 (.cmpeq pd sa sb) 1 pd sa sb (fun a b => a == b) s
def execCmpne (pd : PReg) (sa sb : SReg) (s : State) : Host.Outcome State Fault Refusal :=
  cmp2 (.cmpne pd sa sb) 1 pd sa sb (fun a b => a != b) s
def execCmplt (pd : PReg) (sa sb : SReg) (s : State) : Host.Outcome State Fault Refusal :=
  cmp2 (.cmplt pd sa sb) 1 pd sa sb (fun a b => decide (a.toInt < b.toInt)) s
def execCmpltu (pd : PReg) (sa sb : SReg) (s : State) : Host.Outcome State Fault Refusal :=
  cmp2 (.cmpltu pd sa sb) 1 pd sa sb (fun a b => decide (a.toNat < b.toNat)) s
def execCmple (pd : PReg) (sa sb : SReg) (s : State) : Host.Outcome State Fault Refusal :=
  cmp2 (.cmple pd sa sb) 1 pd sa sb (fun a b => decide (a.toInt ≤ b.toInt)) s
def execCmpleu (pd : PReg) (sa sb : SReg) (s : State) : Host.Outcome State Fault Refusal :=
  cmp2 (.cmpleu pd sa sb) 1 pd sa sb (fun a b => decide (a.toNat ≤ b.toNat)) s
def execCmpeqi (pd : PReg) (sa : SReg) (imm : BitVec 12) (s : State) : Host.Outcome State Fault Refusal :=
  cmp1 (.cmpeqi pd sa imm) pd sa (fun a => a == sext12 imm) s
def execCmplti (pd : PReg) (sa : SReg) (imm : BitVec 12) (s : State) : Host.Outcome State Fault Refusal :=
  cmp1 (.cmplti pd sa imm) pd sa (fun a => decide (a.toInt < (sext12 imm).toInt)) s
def execPand (pd pa pb : PReg) (s : State) : Host.Outcome State Fault Refusal := pred2 (.pand pd pa pb) pd pa pb (fun a b => a && b) s
def execPor (pd pa pb : PReg) (s : State) : Host.Outcome State Fault Refusal := pred2 (.por pd pa pb) pd pa pb (fun a b => a || b) s
def execPxor (pd pa pb : PReg) (s : State) : Host.Outcome State Fault Refusal := pred2 (.pxor pd pa pb) pd pa pb (fun a b => a != b) s
def execPnot (pd pa : PReg) (s : State) : Host.Outcome State Fault Refusal := pred1 (.pnot pd pa) pd pa (fun a => !a) s
def execPmov (pd pa : PReg) (s : State) : Host.Outcome State Fault Refusal := pred1 (.pmov pd pa) pd pa (id) s
/-- LEA (R135). -/
def execLea (sd sa sb : SReg) (n : BitVec 3) (s : State) : Host.Outcome State Fault Refusal :=
  alu2 (.lea sd sa sb n) 1 sd sa sb (fun a b => a + (b <<< n.toNat)) s

/-! FP32 (R136): operands in bits [31:0], results zero-extended. -/
def fop (f : FV → FV → FV) (a b : Word) : Word := BitVec.ofNat 64 (f32c (f (f32 a.toNat) (f32 b.toNat)))
def ftoiOp (a : Word) : Word := BitVec.ofInt 64 ((f32 a.toNat).toIntSat (-(2 ^ 63)) (2 ^ 63 - 1))
def itofOp (a : Word) : Word := BitVec.ofNat 64 (f32c (fp32.round .rne (FV.ofInt a.toInt)))
def execFadd (sd sa sb : SReg) (s : State) : Host.Outcome State Fault Refusal :=
  alu2 (.fadd sd sa sb) 4 sd sa sb (fop fun x y => fp32.round .rne ((FV.add) x y)) s
def execFsub (sd sa sb : SReg) (s : State) : Host.Outcome State Fault Refusal :=
  alu2 (.fsub sd sa sb) 4 sd sa sb (fop fun x y => fp32.round .rne ((fun x y => x.add y.negate) x y)) s
def execFmul (sd sa sb : SReg) (s : State) : Host.Outcome State Fault Refusal :=
  alu2 (.fmul sd sa sb) 4 sd sa sb (fop fun x y => fp32.round .rne ((FV.mul) x y)) s
def execFdiv (sd sa sb : SReg) (s : State) : Host.Outcome State Fault Refusal :=
  alu2 (.fdiv sd sa sb) 14 sd sa sb (fop (fp32.div .rne)) s
def execFmin (sd sa sb : SReg) (s : State) : Host.Outcome State Fault Refusal := alu2 (.fmin sd sa sb) 4 sd sa sb (fop FV.fmin) s
def execFmax (sd sa sb : SReg) (s : State) : Host.Outcome State Fault Refusal := alu2 (.fmax sd sa sb) 4 sd sa sb (fop FV.fmax) s
def execFcmplt (pd : PReg) (sa sb : SReg) (s : State) : Host.Outcome State Fault Refusal :=
  cmp2 (.fcmplt pd sa sb) 4 pd sa sb (fun a b => (f32 a.toNat).lt (f32 b.toNat)) s
def execFcmpeq (pd : PReg) (sa sb : SReg) (s : State) : Host.Outcome State Fault Refusal :=
  cmp2 (.fcmpeq pd sa sb) 4 pd sa sb (fun a b => (f32 a.toNat).eqv (f32 b.toNat)) s
def execFtoi (sd sa : SReg) (s : State) : Host.Outcome State Fault Refusal := alu1 (.ftoi sd sa) 4 sd sa ftoiOp s
def execItof (sd sa : SReg) (s : State) : Host.Outcome State Fault Refusal := alu1 (.itof sd sa) 4 sd sa itofOp s
def execFexp2 (sd sa : SReg) (s : State) : Host.Outcome State Fault Refusal :=
  alu1 (.fexp2 sd sa) 8 sd sa (fun a => BitVec.ofNat 64 (f32c (fp32.exp2 .rne (f32 a.toNat)))) s
def execFlog2 (sd sa : SReg) (s : State) : Host.Outcome State Fault Refusal :=
  alu1 (.flog2 sd sa) 8 sd sa (fun a => BitVec.ofNat 64 (f32c (fp32.log2 .rne (f32 a.toNat)))) s

end Sys2Proof.Machine
end

