-- ==== Sys2Proof/Machine/System.lean ====
section
/-! DEFINITION. System registers and handler-mode instructions (07 R142 to R146; 17 R334, R344). -/
namespace Sys2Proof.Machine

/-- SYSR (R142). -/
def execSysr (sd : SReg) (sel : BitVec 18) (s : State) : Host.Outcome State Fault Refusal :=
  runX (.sysr sd sel) (fun s => giveTo (sr s sd) (sysValue (pre s) s.issue.cx sel) s) s
/-- The PRIVILEGE fault of a handler-only instruction in task mode. -/
def handlerOnly (f : State → State) (s : State) : State :=
  if (preCtx s).handler then f s else faultAt .x { cause := 0x12 } s
/-- SYSW (R142). -/
def execSysw (sd : SReg) (sel : BitVec 18) (s : State) : Host.Outcome State Fault Refusal :=
  runX (.sysw sd sel) (handlerOnly fun s => onMach (fun m => sysWrite m s.issue.cx sel (rs s sd)) (reads [sr s sd] s)) s

/-- TRET (R145): the resume point, `skip` past the bundle whose header stands at FAULT_PC. -/
def tretTarget (s : State) (skip : Bool) : Word :=
  let pc := (preCtx s).faultPc
  if skip then pc + BitVec.ofNat 64 (bundleLength (decodeHeader (BitVec.ofNat 32 ((pre s).devNat pc.toNat 4)))) else pc
/-- Skip reads the header at FAULT_PC; one that holds an uncorrectable error is used by nothing (12 R223) (DEDUCED, log 40). -/
def headerFault (s : State) (skip : Bool) (f : Option FaultRec) : Option FaultRec :=
  let pc := (preCtx s).faultPc.toNat
  if skip && (pre s).devErr pc 4 then some (accFault 0x0A 6 false pc) else f
/-- An entry that TRET leaves back into task bundles (Table 17-2) (DEDUCED, log 24). -/
def tretResumes (s : State) : Bool :=
  !(preCtx s).drains && (preCtx s).entry != some .save && (preCtx s).entry != some .leave
/-- TRET waits for the operations queued in handler mode (17 R334), then checks its target (R145); a bundle that has issued, and waits
for an answer, has passed its check (17 R330). -/
def tretSlot (skip : Bool) (s : State) : State :=
  let cx := s.issue.cx
  let busy := ((pre s).core (coreOf cx)).ops.any fun o => o.cx == cx && o.handlerOp
  let s := if busy then stallOn .internal s else s
  let a := tretTarget s skip
  match if tretResumes s && !(preCtx s).issued then headerFault s skip (preLaunch s >>= fun l => targetFault (pre s) l a false) else none with
  | some f => faultAt .x f s
  | none => { s with issue := { s.issue with target := some a, tret := some skip } }
def execTret (s : State) : Host.Outcome State Fault Refusal := runX .tret (handlerOnly (tretSlot false)) s
def execTretSkip (s : State) : Host.Outcome State Fault Refusal := runX .tretSkip (handlerOnly (tretSlot true)) s

/-! CTXR and CTXW items (Table 07-10). -/
inductive CtxItem where
  | reg (i : Nat) | preds | bobbin (i : Nat) | tokens | latchWord (i : Nat) | latchStatus (i : Nat) | typeHalf (i : Nat)
  | draw (i : Nat) | bank (i : Nat)
deriving DecidableEq, Repr
/-- DEDUCED, log 77. -/
def ctxItem (v : Word) : Option CtxItem :=
  let i := v.toNat % 256
  if v.toNat / 2 ^ 16 ≠ 0 then none
  else match v.toNat / 256 % 256 with
    | 0 => if 56 ≤ i ∧ i ≤ 63 then some (.reg i) else none
    | 1 => if i = 0 then some .preds else none
    | 2 => if i < 16 then some (.bobbin i) else none
    | 3 => if i = 0 then some .tokens else none
    | 4 => if 1 ≤ i ∧ i ≤ 5 then some (.latchWord i) else if 9 ≤ i ∧ i ≤ 13 then some (.latchStatus (i - 8)) else none
    | 5 => if i < 64 then some (.typeHalf i) else none
    | 6 => if i < 2 then some (.draw i) else none
    | 7 => if i < 32 then some (.bank i) else none
    | _ => none
/-- The registers an item is. -/
def CtxItem.regs : CtxItem → List RegRef
  | .reg i => [.s i]
  | .preds => (upFrom 1 7).map .p
  | _ => []
def noLatch : Latch := { loaded := false }
def Ctx.item (c : Ctx) : CtxItem → Word
  | .reg i => c.regAt i
  | .preds => (c.preds ||| 1).setWidth 64
  | .bobbin i => bobbinWord c i
  | .tokens => BitVec.ofNat 64 (((upFrom 1 31).filter fun k => c.token k != 0).map (2 ^ ·)).sum
  | .latchWord i => (mget noLatch c.latchT i).word
  | .latchStatus i =>
    let l := mget noLatch c.latchT i
    (if l.loaded then 0x8000000000000000 else 0) ||| l.offset.setWidth 64
  | .typeHalf i => BitVec.ofNat 64 ((TW.canon (c.tile (i / 2)).word).toNat / 2 ^ (64 * (i % 2)))
  | .draw i => if i = 0 then c.drawKey.setWidth 64 else c.drawCtr.setWidth 64
  | .bank i => (mget 0 c.banks i).setWidth 64
def Ctx.setItem (c : Ctx) (it : CtxItem) (v : Word) : Ctx :=
  match it with
  | .reg i => c.setRegAt i v
  | .preds => { c with preds := (v.setWidth 8 &&& 0xFE) ||| 1 }
  | .bobbin i =>
    { c with bobbins := mset c.bobbins i { bound := v.getLsbD 23, value := if v.getLsbD 23 then v.setWidth 23 else 0 } }
  | .tokens => c
  | .latchWord i => { c with latchT := mset c.latchT i { mget noLatch c.latchT i with word := v } }
  | .latchStatus i => { c with latchT := mset c.latchT i { mget noLatch c.latchT i with offset := v.setWidth 24, loaded := v.getLsbD 63 } }
  | .typeHalf i =>
    let w := (c.tile (i / 2)).word.toNat
    c.setWord (i / 2) (BitVec.ofNat 128 (if i % 2 = 0 then w / 2 ^ 64 * 2 ^ 64 + v.toNat else w % 2 ^ 64 + v.toNat * 2 ^ 64))
  | .draw i => if i = 0 then { c with drawKey := v.setWidth 32 } else { c with drawCtr := v.setWidth 32 }
  | .bank i => { c with banks := mset c.banks i (v.setWidth 16) }

/-- CTXR (R144). -/
def execCtxr (sd sa : SReg) (s : State) : Host.Outcome State Fault Refusal :=
  runX (.ctxr sd sa) (handlerOnly fun s =>
    let it := ctxItem (rs s sa)
    let s := reads (sr s sa :: ((it.map CtxItem.regs).getD [])) s
    giveTo (sr s sd) ((it.map (preCtx s).item).getD 0) s) s
/-- CTXW (R144); a bank entry waits for the operations that refer to its bank (03 R49). -/
def execCtxw (sa sb : SReg) (s : State) : Host.Outcome State Fault Refusal :=
  runX (.ctxw sa sb) (handlerOnly fun s =>
    let it := ctxItem (rs s sa)
    let s := reads (sr s sa :: sr s sb :: ((it.map CtxItem.regs).getD [])) s
    let busy := match it with
      | some (.bank i) => ((pre s).core (coreOf s.issue.cx)).ops.any fun o => o.cx == s.issue.cx && o.bankRefs.contains (i / 16)
      | _ => false
    let s := if busy then stallOn .internal s else s
    match it with
    | some (.draw i) =>
      let v := (rs s sb).setWidth 32
      if i = 0 then { s with issue := { s.issue with seedKey := some v } } else { s with issue := { s.issue with seedCtr := some v } }
    | some it => onCtx (fun c => c.setItem it (rs s sb)) s
    | none => s) s

/-- EQREPLAY (R146, 17 R344): the block is checked whole at the bundle's issue, then its entries are queued; the bundle retires when the
last is. -/
def execEqreplay (sd sa : SReg) (s : State) : Host.Outcome State Fault Refusal :=
  runX (.eqreplay sd sa) (handlerOnly fun s =>
    let blk := rs s sa
    let s := writesPending (sr s sd) (reads [sr s sa] s)
    match (preCtx s).awaitX with
    | some (.answered _ _ n) => giveTo (sr s sd) n s
    | some .asked => askFor (.replay blk) s
    | some (.faulted f) => faultAt .x f s
    | none =>
      if (preCtx s).issued then askFor (.replay blk) s
      else if blk.toNat % 64 ≠ 0 then faultAt .x { cause := 0x08, addr := blk } s
      else match shadowFault (pre s) blk (preCtx s).shadow ((preCtx s).launch.getD 0) with
        | some f => faultAt .x f s
        | none => askFor (.replay blk) s) s

end Sys2Proof.Machine
end

