-- ==== Sys2Proof/Machine/Vector.lean ====
section
/-! DEFINITION. Issuing the V slots (08 R150 to R157, 10 R173 to R190, 11 R194 to R212). -/
namespace Sys2Proof.Machine

/-- Is the slot's mode stochastic (03 R54)? -/
def stochastic (v : VSlot) (default : Nat) : Bool := v.rnd.toNat == 2 || (v.rnd.toNat == 3 && default == 2)
/-- The counter positions of an operation delivered through `quantise` (03 R56). -/
def coinIf (v : VSlot) (b : Typed → Bool) (t : Typed) : Nat := if stochastic v 0 && b t then 1 else 0
def Typed.ty (t : Typed) (pos : Nat) : TypeWord := t.types.getD pos 0

/-- A V slot that always queues. -/
def issueV (i : Instr) (p : Pipe) (v : VSlot) (r : Rule) (draws : Typed → Nat) (s : State) : Host.Outcome State Fault Refusal :=
  runSlot p.slot i (engineIssue p.slot (pipeQueue p) (slotWord i) [sr s v.sx] false
    fun s => planOf i r false v.td v.ta v.tb v.tc (rs s v.sx) draws s) s
/-- A V slot with a chain (R151). -/
def chainV (i : Instr) (p : Pipe) (v : VSlot) (r : Rule) (tri : Bool) (s : State) : Host.Outcome State Fault Refusal :=
  issueV i p v (withChain r tri v.op2.toNat v.op3.toNat) (coinIf v fun _ => true) s
def noDraw (_ : Typed) : Nat := 0

def execVNop (p : Pipe) (s : State) : Host.Outcome State Fault Refusal := runSlot p.slot (.vNop p) id s
def execVadd (p : Pipe) (v : VSlot) (s : State) : Host.Outcome State Fault Refusal := chainV (.vadd p v) p v ruleBin false s
def execVsub (p : Pipe) (v : VSlot) (s : State) : Host.Outcome State Fault Refusal := chainV (.vsub p v) p v ruleBin false s
def execVmul (p : Pipe) (v : VSlot) (s : State) : Host.Outcome State Fault Refusal := chainV (.vmul p v) p v ruleBin false s
def execVfma (p : Pipe) (v : VSlot) (s : State) : Host.Outcome State Fault Refusal := chainV (.vfma p v) p v ruleTri true s
def execVmin (p : Pipe) (v : VSlot) (s : State) : Host.Outcome State Fault Refusal := chainV (.vmin p v) p v ruleBin false s
def execVmax (p : Pipe) (v : VSlot) (s : State) : Host.Outcome State Fault Refusal := chainV (.vmax p v) p v ruleBin false s
def execVabs (p : Pipe) (v : VSlot) (s : State) : Host.Outcome State Fault Refusal := chainV (.vabs p v) p v ruleUn false s
def execVneg (p : Pipe) (v : VSlot) (s : State) : Host.Outcome State Fault Refusal := chainV (.vneg p v) p v ruleUn false s
def execVrcp (p : Pipe) (v : VSlot) (s : State) : Host.Outcome State Fault Refusal := chainV (.vrcp p v) p v ruleUn false s
def execVrsq (p : Pipe) (v : VSlot) (s : State) : Host.Outcome State Fault Refusal := chainV (.vrsq p v) p v ruleUn false s
def execVsqrt (p : Pipe) (v : VSlot) (s : State) : Host.Outcome State Fault Refusal := chainV (.vsqrt p v) p v ruleUn false s
def execVexp2 (p : Pipe) (v : VSlot) (s : State) : Host.Outcome State Fault Refusal := chainV (.vexp2 p v) p v ruleUn false s
def execVlog2 (p : Pipe) (v : VSlot) (s : State) : Host.Outcome State Fault Refusal := chainV (.vlog2 p v) p v ruleUn false s
def execVtanh (p : Pipe) (v : VSlot) (s : State) : Host.Outcome State Fault Refusal := chainV (.vtanh p v) p v ruleUn false s
def execVsigm (p : Pipe) (v : VSlot) (s : State) : Host.Outcome State Fault Refusal := chainV (.vsigm p v) p v ruleUn false s
def execVclamp (p : Pipe) (v : VSlot) (s : State) : Host.Outcome State Fault Refusal := chainV (.vclamp p v) p v ruleTri true s
def execVscale (p : Pipe) (v : VSlot) (s : State) : Host.Outcome State Fault Refusal := chainV (.vscale p v) p v ruleScale false s
def execVsel (p : Pipe) (v : VSlot) (s : State) : Host.Outcome State Fault Refusal := chainV (.vsel p v) p v ruleSel true s

def execVand (p : Pipe) (v : VSlot) (s : State) : Host.Outcome State Fault Refusal := issueV (.vand p v) p v ruleBits noDraw s
def execVor (p : Pipe) (v : VSlot) (s : State) : Host.Outcome State Fault Refusal := issueV (.vor p v) p v ruleBits noDraw s
def execVxor (p : Pipe) (v : VSlot) (s : State) : Host.Outcome State Fault Refusal := issueV (.vxor p v) p v ruleBits noDraw s
def execVshl (p : Pipe) (v : VSlot) (s : State) : Host.Outcome State Fault Refusal := issueV (.vshl p v) p v ruleBits noDraw s
def execVshr (p : Pipe) (v : VSlot) (s : State) : Host.Outcome State Fault Refusal := issueV (.vshr p v) p v ruleBits noDraw s
def execVcmp (p : Pipe) (v : VSlot) (s : State) : Host.Outcome State Fault Refusal := issueV (.vcmp p v) p v ruleCmp noDraw s
/-- VBCAST: a coin for a numeric td. -/
def execVbcast (p : Pipe) (v : VSlot) (s : State) : Host.Outcome State Fault Refusal :=
  issueV (.vbcast p v) p v (ruleFill fun _ => true) (coinIf v fun t => TW.fmt (t.ty 0) != 0x13) s
/-- VIOTA: a coin for an FP32 td. -/
def execViota (p : Pipe) (v : VSlot) (s : State) : Host.Outcome State Fault Refusal :=
  issueV (.viota p v) p v (ruleFill fun f => f == 0x01 || f == 0x09) (coinIf v fun t => TW.fmt (t.ty 0) == 0x01) s
def execVmask (p : Pipe) (v : VSlot) (s : State) : Host.Outcome State Fault Refusal :=
  issueV (.vmask p v) p v (ruleFill fun f => f == 0x0F) noDraw s
def execVmov (p : Pipe) (v : VSlot) (s : State) : Host.Outcome State Fault Refusal := issueV (.vmov p v) p v ruleMov noDraw s
def execVcvt (p : Pipe) (v : VSlot) (s : State) : Host.Outcome State Fault Refusal :=
  issueV (.vcvt p v) p v ruleCvt (coinIf v fun _ => true) s
/-- VCVTQ: stochastic by default. -/
def execVcvtq (p : Pipe) (v : VSlot) (s : State) : Host.Outcome State Fault Refusal :=
  issueV (.vcvtq p v) p v ruleCvtq (fun _ => if stochastic v 2 then 1 else 0) s
def execVcvts (p : Pipe) (v : VSlot) (s : State) : Host.Outcome State Fault Refusal :=
  issueV (.vcvts p v) p v ruleCvts (coinIf v fun _ => true) s
def execVrsum (p : Pipe) (v : VSlot) (s : State) : Host.Outcome State Fault Refusal :=
  issueV (.vrsum p v) p v (ruleRed isNumeric 0x01 Mask.none) (coinIf v fun _ => true) s
def execVrmax (p : Pipe) (v : VSlot) (s : State) : Host.Outcome State Fault Refusal :=
  issueV (.vrmax p v) p v (ruleRed isNumeric 0x01 Mask.none) (coinIf v fun _ => true) s
def execVrmin (p : Pipe) (v : VSlot) (s : State) : Host.Outcome State Fault Refusal :=
  issueV (.vrmin p v) p v (ruleRed isNumeric 0x01 Mask.none) (coinIf v fun _ => true) s
def execVrlse (p : Pipe) (v : VSlot) (s : State) : Host.Outcome State Fault Refusal :=
  issueV (.vrlse p v) p v (ruleRed isNumeric 0x01 Mask.none) (coinIf v fun _ => true) s
def execVrargmax (p : Pipe) (v : VSlot) (s : State) : Host.Outcome State Fault Refusal :=
  issueV (.vrargmax p v) p v (ruleRed isNumeric 0x09 Mask.fmt) noDraw s
/-- VRDRAW takes R × (P − 1) positions (11 R204). -/
def drawPositions (t : Typed) : Nat :=
  let e := t.exts.getD 1 []
  prod e.dropLast * (2 ^ log2Up (e.getLastD 1) - 1)
def execVrdraw (p : Pipe) (v : VSlot) (s : State) : Host.Outcome State Fault Refusal :=
  issueV (.vrdraw p v) p v (ruleRed isFloat 0x13 Mask.fmt) drawPositions s
def execVscan (p : Pipe) (v : VSlot) (s : State) : Host.Outcome State Fault Refusal :=
  issueV (.vscan p v) p v ruleUn (coinIf v fun _ => true) s
/-- VDMERGE takes one position an element (11 R206). -/
def execVdmerge (p : Pipe) (v : VSlot) (s : State) : Host.Outcome State Fault Refusal :=
  issueV (.vdmerge p v) p v ruleDmerge (fun t => prod (t.exts.getD 1 [])) s
/-- VCOMPACT delivers by value for geometries 2 to 5 (11 R208). -/
def execVcompact (p : Pipe) (v : VSlot) (s : State) : Host.Outcome State Fault Refusal :=
  issueV (.vcompact p v) p v ruleCompact (coinIf v fun t => decide (2 ≤ TW.geom (t.ty 1))) s
/-- VPERM moves codes between equal formats of geometry 0 or 1 (11 R209). -/
def execVperm (p : Pipe) (v : VSlot) (s : State) : Host.Outcome State Fault Refusal :=
  issueV (.vperm p v) p v rulePerm (coinIf v fun t =>
    !(TW.fmt (t.ty 0) == TW.fmt (t.ty 1) && TW.geom (t.ty 0) == TW.geom (t.ty 1) && decide (TW.geom (t.ty 1) ≤ 1))) s
def execVroute (p : Pipe) (v : VSlot) (s : State) : Host.Outcome State Fault Refusal := issueV (.vroute p v) p v ruleRoute noDraw s
def execVhist (p : Pipe) (v : VSlot) (s : State) : Host.Outcome State Fault Refusal := issueV (.vhist p v) p v ruleHist noDraw s

/-! VRESHAPE, VTRANS and VCAST (R154 to R157). -/

/-- The plan of a form that may be type-only: the result d and its mask, or the new word of td. -/
def viewPlan (i : Instr) (v : VSlot) (capA : Word) (s : State)
    (steps : BEnv → TypeWord → Except FaultRec (BEnv × TypeWord × Mask × Bool)) : Except FaultRec Plan := do
  let n := (preCtx s).tilesPer
  groupCheck n v.ta.toNat 1
  groupCheck n v.td.toNat 0
  let wa := wordAt s v.ta
  (slotEnv s).checkType wa 1
  let (env, d, mask, only) ← steps (slotEnv s) wa
  let d := setDegraded d (TW.degraded wa)
  if only then
    env.checkLimits wa 1
    env.checkLimits d 0
    env.checkCapacity wa 1
    env.checkCapacity d 0
    .ok { op := none, td := some (v.td.toNat, d), binds := env.t }
  else
    let fs := match i with | .vtrans _ _ => swapLast (fieldsOf wa 1) | _ => fieldsOf d 0
    let (env, w) ← env.deliver (wordAt s v.td) d fs mask
    env.checkCapacity wa 1
    env.checkCapacity w 0
    let ea ← env.resolveAll wa 1
    let ed ← env.resolveAll w 0
    .ok { op := some { newOp i with capA := capA, types := [w, wa, 0, 0], exts := [ed, ea, [], []] },
          td := some (v.td.toNat, w), binds := env.t }
def issueView (i : Instr) (p : Pipe) (v : VSlot)
    (steps : BEnv → TypeWord → Except FaultRec (BEnv × TypeWord × Mask × Bool)) : State → State :=
  engineIssue p.slot (pipeQueue p) (slotWord i) [] true fun s => viewPlan i v (rs s v.sx) s steps
/-- A form whose type constant s[sx] names is evaluated with that constant (R155, R157). -/
def issueConst (i : Instr) (p : Pipe) (v : VSlot)
    (steps : TypeWord → BEnv → TypeWord → Except FaultRec (BEnv × TypeWord × Mask × Bool)) (s : State) : Host.Outcome State Fault Refusal :=
  runSlot p.slot i (fun s =>
    whenFree (withTypeConst p.slot (rs s v.sx).toNat fun w => issueView i p v (steps (TW.canon w))) (reads [sr s v.sx] s)) s

/-- The shape fault of a symbolic or constant extent field. -/
def BEnv.extFault (env : BEnv) (k pos f expected offered : Nat) : FaultRec := env.fault (fEXT0 + k) pos (symOf f 0) expected offered
/-- The last `n` of a list. -/
def lastN (n : Nat) (l : List Nat) : List Nat := l.drop (l.length - n)

/-- R155 step 3: the values of x's extents, one unbound extent bound by division. -/
def BEnv.divideExt (env : BEnv) (x : TypeWord) (cnt : Nat) : Except FaultRec (BEnv × List Nat) := do
  let vals ← ((TW.exts x).zip (upFrom 0 4)).mapM fun f => env.resolve f.1 f.2 0
  match ((upFrom 0 vals.length).filter fun k => (vals.getD k none).isNone).reverse with
  | [] => .ok (env, vals.map (·.getD 0))
  | [k] =>
    let f := TW.ext x k
    let rest := prod ((upFrom 0 vals.length).map fun j => if j = k then 1 else (vals.getD j none).getD 0)
    if rest = 0 ∧ cnt ≠ 0 then .error (env.extFault k 0 f 0 0)
    else if rest ≠ 0 ∧ cnt % rest ≠ 0 then .error (env.extFault k 0 f (cnt / rest) 0)
    else
      let env' := env.bindB f (cnt / rest) k 0
      let _ ← env'.resolve f k 0
      .ok (env', vals.map (·.getD (cnt / rest)))
  | k :: _ => .error (env.fault (fEXT0 + k) 0 (some (symB (TW.ext x k))) 0 (TW.ext x k) true)

/-- VRESHAPE (R155).  The rule gives no expected and offered values for the faults of its steps 5 and 6, no quotient for step 4 where the
product is 0, and no e0 for it where x has rank 0 (DESIGN CHOICE, log 94). -/
def reshapeSteps (td ta : TReg) (x : TypeWord) (env : BEnv) (wa : TypeWord) : Except FaultRec (BEnv × TypeWord × Mask × Bool) := do
  env.checkType x 0
  if TW.fmt x ≠ TW.fmt wa then .error (env.fault fFORMAT 0 none (TW.fmt wa) (TW.fmt x))
  if TW.geom x ≠ TW.geom wa then .error (env.fault fGEOM 0 none (TW.geom wa) (TW.geom x))
  if TW.policy x ≠ TW.policy wa then .error (env.fault fPOLICY 0 none (TW.policy wa) (TW.policy x))
  let ea ← env.resolveAll wa 1
  let cnt := prod ea
  let (env, ex) ← env.divideExt x cnt
  if prod ex ≠ cnt then
    .error (env.extFault 0 0 (if ex.isEmpty then 0 else TW.ext x 0) (if prod ex.tail = 0 then 0 else cnt / prod ex.tail) (ex.headD 1))
  if (TW.layout wa ≠ 0 ∨ TW.layout x ≠ 0) ∧ (TW.layout wa ≠ TW.layout x ∨ lastN 2 ea ≠ lastN 2 ex) then
    .error (env.fault fLAYOUT 0 none (TW.layout wa) (TW.layout x))
  let g := TW.geom wa
  let blk := if g = 2 then 32 else 16
  let ia := ea.getLastD 1
  let ix := ex.getLastD 1
  if ((g = 2 ∨ g = 3) ∧ ¬(ia = ix ∨ (ia % blk = 0 ∧ ix % blk = 0))) ∨ ((g = 4 ∨ g = 5) ∧ lastN 2 ea ≠ lastN 2 ex) then
    .error (env.fault fGEOM 0 none 0 g)
  .ok (env, x, Mask.all, td = ta && env.frame wa == some ea && env.frame x == some ex)
def execVreshape (p : Pipe) (v : VSlot) (s : State) : Host.Outcome State Fault Refusal :=
  issueConst (.vreshape p v) p v (reshapeSteps v.td v.ta) s

/-- A word with other extents, layout and geometry. -/
def reword (t : TypeWord) (es : List Nat) (lay geom : Nat) : TypeWord := mkType es (TW.fmt t) lay geom (TW.policy t) (TW.degraded t)
/-- Table 08-4: the layout and geometry of a type-only transpose. -/
def flipOf (env : BEnv) (t : TypeWord) : Option (Nat × Nat) :=
  let lay := match TW.layout t with | 0 => some 1 | 2 => some 3 | 1 => some 0 | 3 => some 2 | _ => none
  let fits (back : Nat) : Bool := (env.frameExt ((TW.exts t).reverse.getD back 0)).any fun n => decide (n ≤ 32)
  let geom := match TW.geom t with
    | 0 => some 0
    | 1 => some 1
    | 2 => if fits 0 then some 4 else none
    | 4 => if fits 1 then some 2 else none
    | 5 => if fits 0 && fits 1 then some 5 else none
    | _ => none
  match lay, geom with | some l, some g => some (l, g) | _, _ => none
/-- VTRANS (R156).  One whose new geometry Table 02-2 does not admit for the format is engine work (DESIGN CHOICE, log 102). -/
def transSteps (td ta : TReg) (env : BEnv) (wa : TypeWord) : Except FaultRec (BEnv × TypeWord × Mask × Bool) := do
  env.admitRank 2 (decide (2 ≤ TW.rank wa)) wa 1
  let es := swapLast (TW.exts wa)
  let engine := (env, reword wa es 0 (TW.geom wa), (⟨true, false, false, true⟩ : Mask), false)
  match flipOf env wa with
  | some (l, g) =>
    if td = ta && layoutLegal (TW.fmt wa) es.length l && geomLegal (TW.fmt wa) es.length g then .ok (env, reword wa es l g, Mask.all, true)
    else .ok engine
  | none => .ok engine
def execVtrans (p : Pipe) (v : VSlot) (s : State) : Host.Outcome State Fault Refusal :=
  runSlot p.slot (.vtrans p v) (fun s => issueView (.vtrans p v) p v (transSteps v.td v.ta) (reads [sr s v.sx] s)) s

/-- R157 step 3 with differing widths: the innermost extent of an operand and its frame value. -/
def BEnv.innerOf (env : BEnv) (t : TypeWord) (k pos : Nat) : Except FaultRec (Nat × Nat) := do
  let f := TW.ext t k
  match ← env.resolve f k pos, env.frame t with
  | some v, some fr => .ok (v, fr.getD k 0)
  | _, _ => .error (env.fault (fEXT0 + k) pos (symOf f 0) 0 f true)
/-- VCAST (R157).  The rule gives no expected and offered values for the RANK fault of step 1 with unequal ranks and for the faults of step 4
(DESIGN CHOICE, log 94). -/
def castSteps (td ta : TReg) (x : TypeWord) (env : BEnv) (wa : TypeWord) : Except FaultRec (BEnv × TypeWord × Mask × Bool) := do
  env.checkType x 0
  if TW.rank x ≠ TW.rank wa then .error (env.fault fRANK 0 none (TW.rank wa) (TW.rank x))
  let r := TW.rank wa
  let env ← env.unifyExts 0 (fieldsOf wa 1).dropLast (fieldsOf x 0).dropLast 0
  let ba := fmtBits (TW.fmt wa)
  let bx := fmtBits (TW.fmt x)
  let inner := env.fault (fEXT0 + (r - 1)) 0 (symOf (TW.ext x (r - 1)) (TW.ext wa (r - 1)))
  let env ← (if r = 0 then (if ba = bx then .ok env else .error (env.fault fRANK 0 none 1 0))
    else if ba = bx then env.unifyExtent (TW.ext wa (r - 1)) (r - 1) (TW.ext x (r - 1)) (r - 1) 0 (1, r - 1) (0, r - 1)
    else do
      let (va, fa) ← env.innerOf wa (r - 1) 1
      let (vx, fx) ← env.innerOf x (r - 1) 0
      if va * ba ≠ vx * bx then .error (inner (va * ba / bx) vx)
      else if fa * ba ≠ fx * bx then .error (inner (fa * ba / bx) fx)
      else .ok env : Except FaultRec BEnv)
  if ba ≠ bx ∧ (TW.layout wa ≠ 0 ∨ TW.layout x ≠ 0) then
    .error (env.fault fLAYOUT 0 none 0 (if TW.layout x ≠ 0 then TW.layout x else TW.layout wa))
  if ba ≠ bx ∧ (TW.geom wa ≠ 0 ∨ TW.geom x ≠ 0) then
    .error (env.fault fGEOM 0 none 0 (if TW.geom x ≠ 0 then TW.geom x else TW.geom wa))
  if TW.layout wa ≠ TW.layout x then .error (env.fault fLAYOUT 0 none (TW.layout wa) (TW.layout x))
  if TW.geom wa ≠ TW.geom x then .error (env.fault fGEOM 0 none (TW.geom wa) (TW.geom x))
  .ok (env, x, Mask.all, td = ta)
def execVcast (p : Pipe) (v : VSlot) (s : State) : Host.Outcome State Fault Refusal :=
  issueConst (.vcast p v) p v (castSteps v.td v.ta) s

end Sys2Proof.Machine
end

