-- ==== Sys2Proof/Machine/Dispatch.lean ====
section
/-! DEFINITION. One arm per instruction: the direct call of its meaning. -/
namespace Sys2Proof.Machine

def exec (i : Instr) (s : State) : Host.Outcome State Fault Refusal :=
  match i with
  | .nop => Sys2Proof.Machine.execNop s
  | .add sd sa sb => Sys2Proof.Machine.execAdd sd sa sb s
  | .sub sd sa sb => Sys2Proof.Machine.execSub sd sa sb s
  | .and sd sa sb => Sys2Proof.Machine.execAnd sd sa sb s
  | .or sd sa sb => Sys2Proof.Machine.execOr sd sa sb s
  | .xor sd sa sb => Sys2Proof.Machine.execXor sd sa sb s
  | .shl sd sa sb => Sys2Proof.Machine.execShl sd sa sb s
  | .shr sd sa sb => Sys2Proof.Machine.execShr sd sa sb s
  | .sra sd sa sb => Sys2Proof.Machine.execSra sd sa sb s
  | .mul sd sa sb => Sys2Proof.Machine.execMul sd sa sb s
  | .mulh sd sa sb => Sys2Proof.Machine.execMulh sd sa sb s
  | .mulhu sd sa sb => Sys2Proof.Machine.execMulhu sd sa sb s
  | .div sd sa sb => Sys2Proof.Machine.execDiv sd sa sb s
  | .divu sd sa sb => Sys2Proof.Machine.execDivu sd sa sb s
  | .rem sd sa sb => Sys2Proof.Machine.execRem sd sa sb s
  | .remu sd sa sb => Sys2Proof.Machine.execRemu sd sa sb s
  | .min sd sa sb => Sys2Proof.Machine.execMin sd sa sb s
  | .max sd sa sb => Sys2Proof.Machine.execMax sd sa sb s
  | .minu sd sa sb => Sys2Proof.Machine.execMinu sd sa sb s
  | .maxu sd sa sb => Sys2Proof.Machine.execMaxu sd sa sb s
  | .clz sd sa => Sys2Proof.Machine.execClz sd sa s
  | .ctz sd sa => Sys2Proof.Machine.execCtz sd sa s
  | .popc sd sa => Sys2Proof.Machine.execPopc sd sa s
  | .sel sd p sa sb => Sys2Proof.Machine.execSel sd p sa sb s
  | .addi sd sa imm => Sys2Proof.Machine.execAddi sd sa imm s
  | .andi sd sa imm => Sys2Proof.Machine.execAndi sd sa imm s
  | .ori sd sa imm => Sys2Proof.Machine.execOri sd sa imm s
  | .xori sd sa imm => Sys2Proof.Machine.execXori sd sa imm s
  | .shli sd sa imm => Sys2Proof.Machine.execShli sd sa imm s
  | .shri sd sa imm => Sys2Proof.Machine.execShri sd sa imm s
  | .srai sd sa imm => Sys2Proof.Machine.execSrai sd sa imm s
  | .muli sd sa imm => Sys2Proof.Machine.execMuli sd sa imm s
  | .li sd imm => Sys2Proof.Machine.execLi sd imm s
  | .lih sd imm => Sys2Proof.Machine.execLih sd imm s
  | .cmpeq pd sa sb => Sys2Proof.Machine.execCmpeq pd sa sb s
  | .cmpne pd sa sb => Sys2Proof.Machine.execCmpne pd sa sb s
  | .cmplt pd sa sb => Sys2Proof.Machine.execCmplt pd sa sb s
  | .cmpltu pd sa sb => Sys2Proof.Machine.execCmpltu pd sa sb s
  | .cmple pd sa sb => Sys2Proof.Machine.execCmple pd sa sb s
  | .cmpleu pd sa sb => Sys2Proof.Machine.execCmpleu pd sa sb s
  | .cmpeqi pd sa imm => Sys2Proof.Machine.execCmpeqi pd sa imm s
  | .cmplti pd sa imm => Sys2Proof.Machine.execCmplti pd sa imm s
  | .pand pd pa pb => Sys2Proof.Machine.execPand pd pa pb s
  | .por pd pa pb => Sys2Proof.Machine.execPor pd pa pb s
  | .pxor pd pa pb => Sys2Proof.Machine.execPxor pd pa pb s
  | .pnot pd pa => Sys2Proof.Machine.execPnot pd pa s
  | .pmov pd pa => Sys2Proof.Machine.execPmov pd pa s
  | .lea sd sa sb n => Sys2Proof.Machine.execLea sd sa sb n s
  | .fadd sd sa sb => Sys2Proof.Machine.execFadd sd sa sb s
  | .fsub sd sa sb => Sys2Proof.Machine.execFsub sd sa sb s
  | .fmul sd sa sb => Sys2Proof.Machine.execFmul sd sa sb s
  | .fdiv sd sa sb => Sys2Proof.Machine.execFdiv sd sa sb s
  | .fmin sd sa sb => Sys2Proof.Machine.execFmin sd sa sb s
  | .fmax sd sa sb => Sys2Proof.Machine.execFmax sd sa sb s
  | .fcmplt pd sa sb => Sys2Proof.Machine.execFcmplt pd sa sb s
  | .fcmpeq pd sa sb => Sys2Proof.Machine.execFcmpeq pd sa sb s
  | .ftoi sd sa => Sys2Proof.Machine.execFtoi sd sa s
  | .itof sd sa => Sys2Proof.Machine.execItof sd sa s
  | .fexp2 sd sa => Sys2Proof.Machine.execFexp2 sd sa s
  | .flog2 sd sa => Sys2Proof.Machine.execFlog2 sd sa s
  | .br disp => Sys2Proof.Machine.execBr disp s
  | .brc p sense disp => Sys2Proof.Machine.execBrc p sense disp s
  | .bdnz sd imm => Sys2Proof.Machine.execBdnz sd imm s
  | .call disp => Sys2Proof.Machine.execCall disp s
  | .ret sa => Sys2Proof.Machine.execRet sa s
  | .jmpr sd sa => Sys2Proof.Machine.execJmpr sd sa s
  | .endTask => Sys2Proof.Machine.execEnd s
  | .trap imm => Sys2Proof.Machine.execTrap imm s
  | .bkpt imm => Sys2Proof.Machine.execBkpt imm s
  | .waitk ka kb kc => Sys2Proof.Machine.execWaitk ka kb kc s
  | .idleF sa => Sys2Proof.Machine.execIdleF sa s
  | .idleN sa sb => Sys2Proof.Machine.execIdleN sa sb s
  | .sysr sd sel => Sys2Proof.Machine.execSysr sd sel s
  | .sysw sd sel => Sys2Proof.Machine.execSysw sd sel s
  | .tret => Sys2Proof.Machine.execTret s
  | .tretSkip => Sys2Proof.Machine.execTretSkip s
  | .ctxr sd sa => Sys2Proof.Machine.execCtxr sd sa s
  | .ctxw sa sb => Sys2Proof.Machine.execCtxw sa sb s
  | .eqreplay sd sa => Sys2Proof.Machine.execEqreplay sd sa s
  | .tdecl t idx => Sys2Proof.Machine.execTdecl t idx s
  | .tdecls t sa sb => Sys2Proof.Machine.execTdecls t sa sb s
  | .tget sd t high resolve => Sys2Proof.Machine.execTget sd t high resolve s
  | .bind b sa => Sys2Proof.Machine.execBind b sa s
  | .unbind mask => Sys2Proof.Machine.execUnbind mask s
  | .bget sd b => Sys2Proof.Machine.execBget sd b s
  | .tchk pd t sb mask assert => Sys2Proof.Machine.execTchk pd t sb mask assert s
  | .tclear t => Sys2Proof.Machine.execTclear t s
  | .text sd t k frame => Sys2Proof.Machine.execText sd t k frame s
  | .gNop => Sys2Proof.Machine.execGNop s
  | .ld8 g => Sys2Proof.Machine.execLd8 g s
  | .ld8u g => Sys2Proof.Machine.execLd8u g s
  | .ld16 g => Sys2Proof.Machine.execLd16 g s
  | .ld16u g => Sys2Proof.Machine.execLd16u g s
  | .ld32 g => Sys2Proof.Machine.execLd32 g s
  | .ld32u g => Sys2Proof.Machine.execLd32u g s
  | .ld64 g => Sys2Proof.Machine.execLd64 g s
  | .st8 g => Sys2Proof.Machine.execSt8 g s
  | .st16 g => Sys2Proof.Machine.execSt16 g s
  | .st32 g => Sys2Proof.Machine.execSt32 g s
  | .st64 g => Sys2Proof.Machine.execSt64 g s
  | .ldp g => Sys2Proof.Machine.execLdp g s
  | .aadd g => Sys2Proof.Machine.execAadd g s
  | .aand g => Sys2Proof.Machine.execAand g s
  | .aor g => Sys2Proof.Machine.execAor g s
  | .axor g => Sys2Proof.Machine.execAxor g s
  | .amin g => Sys2Proof.Machine.execAmin g s
  | .amax g => Sys2Proof.Machine.execAmax g s
  | .aminu g => Sys2Proof.Machine.execAminu g s
  | .amaxu g => Sys2Proof.Machine.execAmaxu g s
  | .aswap g => Sys2Proof.Machine.execAswap g s
  | .acas g => Sys2Proof.Machine.execAcas g s
  | .afadd g => Sys2Proof.Machine.execAfadd g s
  | .fence g => Sys2Proof.Machine.execFence g s
  | .drain g => Sys2Proof.Machine.execDrain g s
  | .acq g => Sys2Proof.Machine.execAcq g s
  | .rel g => Sys2Proof.Machine.execRel g s
  | .pref g => Sys2Proof.Machine.execPref g s
  | .prefw g => Sys2Proof.Machine.execPrefw g s
  | .pin g => Sys2Proof.Machine.execPin g s
  | .unpin g => Sys2Proof.Machine.execUnpin g s
  | .invl g => Sys2Proof.Machine.execInvl g s
  | .invlAll g => Sys2Proof.Machine.execInvlAll g s
  | .wback g => Sys2Proof.Machine.execWback g s
  | .binit g => Sys2Proof.Machine.execBinit g s
  | .barrive g => Sys2Proof.Machine.execBarrive g s
  | .bexpect g => Sys2Proof.Machine.execBexpect g s
  | .bwait g => Sys2Proof.Machine.execBwait g s
  | .btest g => Sys2Proof.Machine.execBtest g s
  | .setf g => Sys2Proof.Machine.execSetf g s
  | .sete g => Sys2Proof.Machine.execSete g s
  | .testf g => Sys2Proof.Machine.execTestf g s
  | .qsplit g => Sys2Proof.Machine.execQsplit g s
  | .qjoin g => Sys2Proof.Machine.execQjoin g s
  | .qret g => Sys2Proof.Machine.execQret g s
  | .qretQw g => Sys2Proof.Machine.execQretQw g s
  | .qwait g => Sys2Proof.Machine.execQwait g s
  | .qread g => Sys2Proof.Machine.execQread g s
  | .spawn g => Sys2Proof.Machine.execSpawn g s
  | .subscrPush g => Sys2Proof.Machine.execSubscrPush g s
  | .subscrPull g => Sys2Proof.Machine.execSubscrPull g s
  | .subcan g => Sys2Proof.Machine.execSubcan g s
  | .slotdone g => Sys2Proof.Machine.execSlotdone g s
  | .rseed g => Sys2Proof.Machine.execRseed g s
  | .rnext g => Sys2Proof.Machine.execRnext g s
  | .escal g => Sys2Proof.Machine.execEscal g s
  | .lrec g => Sys2Proof.Machine.execLrec g s
  | .lcommit g => Sys2Proof.Machine.execLcommit g s
  | .vNop p => Sys2Proof.Machine.execVNop p s
  | .vadd p v => Sys2Proof.Machine.execVadd p v s
  | .vsub p v => Sys2Proof.Machine.execVsub p v s
  | .vmul p v => Sys2Proof.Machine.execVmul p v s
  | .vfma p v => Sys2Proof.Machine.execVfma p v s
  | .vmin p v => Sys2Proof.Machine.execVmin p v s
  | .vmax p v => Sys2Proof.Machine.execVmax p v s
  | .vabs p v => Sys2Proof.Machine.execVabs p v s
  | .vneg p v => Sys2Proof.Machine.execVneg p v s
  | .vrcp p v => Sys2Proof.Machine.execVrcp p v s
  | .vrsq p v => Sys2Proof.Machine.execVrsq p v s
  | .vsqrt p v => Sys2Proof.Machine.execVsqrt p v s
  | .vexp2 p v => Sys2Proof.Machine.execVexp2 p v s
  | .vlog2 p v => Sys2Proof.Machine.execVlog2 p v s
  | .vtanh p v => Sys2Proof.Machine.execVtanh p v s
  | .vsigm p v => Sys2Proof.Machine.execVsigm p v s
  | .vand p v => Sys2Proof.Machine.execVand p v s
  | .vor p v => Sys2Proof.Machine.execVor p v s
  | .vxor p v => Sys2Proof.Machine.execVxor p v s
  | .vshl p v => Sys2Proof.Machine.execVshl p v s
  | .vshr p v => Sys2Proof.Machine.execVshr p v s
  | .vclamp p v => Sys2Proof.Machine.execVclamp p v s
  | .vscale p v => Sys2Proof.Machine.execVscale p v s
  | .vcmp p v => Sys2Proof.Machine.execVcmp p v s
  | .vsel p v => Sys2Proof.Machine.execVsel p v s
  | .vbcast p v => Sys2Proof.Machine.execVbcast p v s
  | .viota p v => Sys2Proof.Machine.execViota p v s
  | .vmask p v => Sys2Proof.Machine.execVmask p v s
  | .vmov p v => Sys2Proof.Machine.execVmov p v s
  | .vcvt p v => Sys2Proof.Machine.execVcvt p v s
  | .vcvtq p v => Sys2Proof.Machine.execVcvtq p v s
  | .vcvts p v => Sys2Proof.Machine.execVcvts p v s
  | .vreshape p v => Sys2Proof.Machine.execVreshape p v s
  | .vtrans p v => Sys2Proof.Machine.execVtrans p v s
  | .vcast p v => Sys2Proof.Machine.execVcast p v s
  | .vrsum p v => Sys2Proof.Machine.execVrsum p v s
  | .vrmax p v => Sys2Proof.Machine.execVrmax p v s
  | .vrmin p v => Sys2Proof.Machine.execVrmin p v s
  | .vrargmax p v => Sys2Proof.Machine.execVrargmax p v s
  | .vrdraw p v => Sys2Proof.Machine.execVrdraw p v s
  | .vrlse p v => Sys2Proof.Machine.execVrlse p v s
  | .vscan p v => Sys2Proof.Machine.execVscan p v s
  | .vdmerge p v => Sys2Proof.Machine.execVdmerge p v s
  | .vcompact p v => Sys2Proof.Machine.execVcompact p v s
  | .vperm p v => Sys2Proof.Machine.execVperm p v s
  | .vroute p v => Sys2Proof.Machine.execVroute p v s
  | .vhist p v => Sys2Proof.Machine.execVhist p v s
  | .mNop => Sys2Proof.Machine.execMNop s
  | .mma m => Sys2Proof.Machine.execMma m s
  | .mmaz m => Sys2Proof.Machine.execMmaz m s
  | .mabsd m => Sys2Proof.Machine.execMabsd m s
  | .mmaxp m => Sys2Proof.Machine.execMmaxp m s
  | .mminp m => Sys2Proof.Machine.execMminp m s
  | .mrank m => Sys2Proof.Machine.execMrank m s
  | .mrankc m => Sys2Proof.Machine.execMrankc m s
  | .msparse m => Sys2Proof.Machine.execMsparse m s
  | .mbload m => Sys2Proof.Machine.execMbload m s
  | .cNop => Sys2Proof.Machine.execCNop s
  | .tload c => Sys2Proof.Machine.execTload c s
  | .tstore c => Sys2Proof.Machine.execTstore c s
  | .tloads c => Sys2Proof.Machine.execTloads c s
  | .tstores c => Sys2Proof.Machine.execTstores c s
  | .cpin c => Sys2Proof.Machine.execCpin c s
  | .cpout c => Sys2Proof.Machine.execCpout c s
  | .gather c => Sys2Proof.Machine.execGather c s
  | .scatter c => Sys2Proof.Machine.execScatter c s
  | .preft c => Sys2Proof.Machine.execPreft c s
  | .send c => Sys2Proof.Machine.execSend c s
  | .recv c => Sys2Proof.Machine.execRecv c s
  | .recvadd c => Sys2Proof.Machine.execRecvadd c s
  | .recvdraw c => Sys2Proof.Machine.execRecvdraw c s
  | .mcast c => Sys2Proof.Machine.execMcast c s
  | .amsg c => Sys2Proof.Machine.execAmsg c s
  | .ttset c => Sys2Proof.Machine.execTtset c s
  | .ttfire c => Sys2Proof.Machine.execTtfire c s
  | .ctload c => Sys2Proof.Machine.execCtload c s
  | .pendingValueWritten cx uid => Sys2Proof.Machine.execPendingValueWritten cx uid s
  | .frozenWrite cx => Sys2Proof.Machine.execFrozenWrite cx s
  | .translationWalk die n => Sys2Proof.Machine.execTranslationWalk die n s
  | .matrixOpStart core => Sys2Proof.Machine.execMatrixOpStart core s
  | .matrixOpComplete core => Sys2Proof.Machine.execMatrixOpComplete core s
  | .vectorOpStart core p => Sys2Proof.Machine.execVectorOpStart core p s
  | .vectorOpComplete core p => Sys2Proof.Machine.execVectorOpComplete core p s
  | .copyOpStart core uid => Sys2Proof.Machine.execCopyOpStart core uid s
  | .copyOpComplete core uid => Sys2Proof.Machine.execCopyOpComplete core uid s
  | .engineFoundFault cx => Sys2Proof.Machine.execEngineFoundFault cx s
  | .postCommitError cx uid subcode => Sys2Proof.Machine.execPostCommitError cx uid subcode s
  | .barrierUpdate cx => Sys2Proof.Machine.execBarrierUpdate cx s
  | .rootReturn die n => Sys2Proof.Machine.execRootReturn die n s
  | .launchCompletion lid => Sys2Proof.Machine.execLaunchCompletion lid s
  | .forcedRelease cx => Sys2Proof.Machine.execForcedRelease cx s
  | .failureInterval lid => Sys2Proof.Machine.execFailureInterval lid s
  | .watchdogTick lid => Sys2Proof.Machine.execWatchdogTick lid s
  | .notifyRegisterWrite die offset size value => Sys2Proof.Machine.execNotifyRegisterWrite die offset size value s
  | .queueMap die q => Sys2Proof.Machine.execQueueMap die q s
  | .queueUnmap die q => Sys2Proof.Machine.execQueueUnmap die q s
  | .launchPacket die q => Sys2Proof.Machine.execLaunchPacket die q s
  | .noOp die q => Sys2Proof.Machine.execNoOp die q s
  | .tileRecord die q => Sys2Proof.Machine.execTileRecord die q s
  | .dealTask lid => Sys2Proof.Machine.execDealTask lid s
  | .claimSeat lid => Sys2Proof.Machine.execClaimSeat lid s
  | .schedulerReceipt die n => Sys2Proof.Machine.execSchedulerReceipt die n s
  | .preemptLaunch lid => Sys2Proof.Machine.execPreemptLaunch lid s
  | .saveEntry lid => Sys2Proof.Machine.execSaveEntry lid s
  | .restoreLaunch lid => Sys2Proof.Machine.execRestoreLaunch lid s
  | .restoreSeatClaim lid core => Sys2Proof.Machine.execRestoreSeatClaim lid core s
  | .cancelLaunch lid => Sys2Proof.Machine.execCancelLaunch lid s
  | .invalidateInstructionCaches => Sys2Proof.Machine.execInvalidateInstructionCaches s
  | .invalidateTranslationCaches => Sys2Proof.Machine.execInvalidateTranslationCaches s
  | .resumeParked cx => Sys2Proof.Machine.execResumeParked cx s
  | .failParked cx => Sys2Proof.Machine.execFailParked cx s
  | .clearQueueFrozen q => Sys2Proof.Machine.execClearQueueFrozen q s
  | .setRoutingEntry dst port => Sys2Proof.Machine.execSetRoutingEntry dst port s
  | .loadFirmware addr bytes => Sys2Proof.Machine.execLoadFirmware addr bytes s
  | .clearCounters => Sys2Proof.Machine.execClearCounters s
  | .retrainLinks => Sys2Proof.Machine.execRetrainLinks s
  | .powerLimitWrite v => Sys2Proof.Machine.execPowerLimitWrite v s
  | .mgmtRegisterWrite offset v => Sys2Proof.Machine.execMgmtRegisterWrite offset v s
  | .governorSample average => Sys2Proof.Machine.execGovernorSample average s
  | .powerGate core => Sys2Proof.Machine.execPowerGate core s
  | .coreWake core => Sys2Proof.Machine.execCoreWake core s
  | .deviceReset brgSel grpPos => Sys2Proof.Machine.execDeviceReset brgSel grpPos s
  | .pushSlotFilling cx ring => Sys2Proof.Machine.execPushSlotFilling cx ring s
  | .pushSlotFull cx ring => Sys2Proof.Machine.execPushSlotFull cx ring s
  | .pullSlotDraining cx ring => Sys2Proof.Machine.execPullSlotDraining cx ring s
  | .pullSlotDrained cx ring => Sys2Proof.Machine.execPullSlotDrained cx ring s
  | .read h space size addr => Sys2Proof.Machine.execRead h space size addr s
  | .readAnswer h status size addr data => Sys2Proof.Machine.execReadAnswer h status size addr data s
  | .write h space size addr mask data => Sys2Proof.Machine.execWrite h space size addr mask data s
  | .writeAnswer h status size addr => Sys2Proof.Machine.execWriteAnswer h status size addr s
  | .atomic h op scope addr operand swap => Sys2Proof.Machine.execAtomic h op scope addr operand swap s
  | .atomicAnswer h status addr old => Sys2Proof.Machine.execAtomicAnswer h status addr old s
  | .sendReady h r => Sys2Proof.Machine.execSendReady h r s
  | .pull h refusal sender core entry gtag endpoint tag => Sys2Proof.Machine.execPull h refusal sender core entry gtag endpoint tag s
  | .pullData h sender core entry gtag endpoint image => Sys2Proof.Machine.execPullData h sender core entry gtag endpoint image s
  | .weightReturn h device domain gtag w => Sys2Proof.Machine.execWeightReturn h device domain gtag w s
  | .faultNotice n => Sys2Proof.Machine.execFaultNotice n s
  | .activeMessage h template endpoint sender gtag kernel => Sys2Proof.Machine.execActiveMessage h template endpoint sender gtag kernel s
  | .loadSummaryToken h t => Sys2Proof.Machine.execLoadSummaryToken h t s
  | .tokenHoldExpiry => Sys2Proof.Machine.execTokenHoldExpiry s
  | .tokenLossTimeout => Sys2Proof.Machine.execTokenLossTimeout s
  | .stealRequest h r => Sys2Proof.Machine.execStealRequest h r s
  | .stealGrant h victim jobTag records => Sys2Proof.Machine.execStealGrant h victim jobTag records s
  | .tileRecordMessage h victim record => Sys2Proof.Machine.execTileRecordMessage h victim record s
  | .laneLock p => Sys2Proof.Machine.execLaneLock p s
  | .trainingOfferTimer p => Sys2Proof.Machine.execTrainingOfferTimer p s
  | .trainingOffer p o => Sys2Proof.Machine.execTrainingOffer p o s
  | .trainingAccept p o => Sys2Proof.Machine.execTrainingAccept p o s
  | .linkIdle p ackValid ack => Sys2Proof.Machine.execLinkIdle p ackValid ack s
  | .replayTimeout p => Sys2Proof.Machine.execReplayTimeout p s
  | .hostBar0Access write offset size value => Sys2Proof.Machine.execHostBar0Access write offset size value s
  | .hostBar2Access op offset size data => Sys2Proof.Machine.execHostBar2Access op offset size data s
  | .attestationRequest nonce => Sys2Proof.Machine.execAttestationRequest nonce s
  | .doeDiscovery index => Sys2Proof.Machine.execDoeDiscovery index s
  | .softError site correctable => Sys2Proof.Machine.execSoftError site correctable s
  | .coreReset core leave => Sys2Proof.Machine.execCoreReset core leave s
  | .discardedFlit p why => Sys2Proof.Machine.execDiscardedFlit p why s
  | .hostBar4Access write offset size value => Sys2Proof.Machine.execHostBar4Access write offset size value s

end Sys2Proof.Machine
end

