-- ==== Sys2Proof/Machine/Turn.lean ====
section
/-! DEFINITION. A core's turn: the context that issues, and its bundle, slot by slot (05 R93; 06 R98, R103; 07 R120, R138). -/
namespace Sys2Proof.Machine
open Host (Outcome)

/-- Run the slots of a bundle in slot order; a bundle without slots only retires. -/
def runSlots : List FSlot → State → Outcome State Fault Refusal
  | [], s => .next (finish s)
  | [f], s => exec f.instr { s with issue := { s.issue with last := true, offset := f.offset, replayed := f.replayed } }
  | f :: g :: rest, s =>
    match exec f.instr { s with issue := { s.issue with last := false, offset := f.offset, replayed := f.replayed } } with
    | .next s' => runSlots (g :: rest) s'
    | .fault e => .fault e
    | .refused e => .refused e

/-- Issue the bundle at a context's pc, if it can issue now. -/
def runBundle (s : State) (cx : Nat) : Outcome State Fault Refusal × Turn :=
  match fetchBundle (s.m.modCtx cx fun c => { c with blocked := false }) cx with
  | (m, .nothing) => (.next { s with m := m }, .blocked)
  | (m, .miss va) => (.next { s with m := waitOn .idle (applyAsk cx m (.miss { cx := cx, va := va, write := false, fetch := true })) cx }, .blocked)
  | (m, .pendingGuard) => (.next { s with m := waitOn .internal m cx }, .blocked)
  | (m, .fault slots f) => (.next { s with m := fetchFault m cx slots f }, .issued)
  | (m, .bundle h len slots) =>
    let guarded := (m.ctx cx).p h.guard == h.sense
    match runSlots slots { s with m := m, issue := { cx := cx, len := len, guarded := guarded, yield := h.yield } } with
    | .next t =>
      if (t.m.ctx cx).blocked then
        (.next (if (t.m.ctx cx).issued then { t with m := t.m.modCtx cx fun c => { c with held := some ⟨h, len, slots⟩ } } else t), .blocked)
      else (.next t, .issued)
    | o => (o, .issued)

/-- What a context does when its core offers it the turn: an event at its boundary, the end of its drain, or its bundle. -/
def tryCtx (s : State) (cx : Nat) : Outcome State Fault Refusal × Turn :=
  let c := s.m.ctx cx
  if c.released then (.next s, .blocked)
  else match nextEvent c with
    | some e => (.next { s with m := takeEvent s.m cx e }, .acted)
    | none =>
      if c.life = .draining then
        (if drained s.m cx then (.next { s with m := afterReturn (releaseCtx s.m cx false) cx }, .acted) else (.next s, .blocked))
      else if c.life = .running && mayIssue s.m cx then runBundle s cx
      else (.next s, .blocked)

/-- Could some other context of the core issue now? -/
def othersReady (s : State) (core n : Nat) : Bool :=
  (upFrom 0 8).any fun i => i != n && (tryCtx s (8 * core + i)).2 == .issued

/-- Offer the turn in the order of R93; the first context that can takes it. -/
def turns (s0 : State) (core : Nat) : List Nat → State → Outcome State Fault Refusal
  | [], s => .next s
  | n :: rest, s =>
    match tryCtx s (8 * core + n) with
    | (.next t, .blocked) => turns s0 core rest t
    | (.next t, turn) => .next { t with m := afterTurn t.m core n turn (othersReady s0 core n) }
    | (o, _) => o

/-- A core's turn; a gated core, or one under reset, takes none. -/
def coreTurn (s : State) (core : Nat) : Outcome State Fault Refusal :=
  if (s.m.core core).gated || (s.m.core core).inReset then .next s
  else turns s core (turnOrder (s.m.core core)) s

end Sys2Proof.Machine
end

