-- ==== Sys2Proof/Machine/Agents.lean ====
section
/-! DEFINITION. The agents of the device: what each may do next, what it does by itself, and what follows every move
(01 R8 to R12; 05 R92; 14 R262; 16 R306, R325; 17 R340, R346). -/
namespace Sys2Proof.Machine
open Host (Outcome)

/-- A slot instruction is no event. -/
def isEvent (i : Instr) : Bool := (encode i).isNone
/-- What the device still serves before its control cores have passed their checks (18 R353). -/
def servedAlways (i : Instr) : Bool :=
  match i with
  | .loadFirmware _ _ => true
  | .mgmtRegisterWrite _ _ => true
  | .powerLimitWrite _ => true
  | .hostBar0Access _ off _ _ => decide (0x100000 ≤ off % 2 ^ 21)
  | .read _ space _ _ => space == 1
  | .write _ space _ _ _ _ => space == 1
  | .deviceReset _ _ => true
  | _ => false
/-- The management request in progress, by its code (18 Table 18-4). -/
def runRequest (s : State) : Outcome State Fault Refusal :=
  let a := arg0 s.m
  let b := arg1 s.m
  if s.m.mgmtAt 0x078 % 2 = 0 then .next s
  else match s.m.mgmtAt 0x070 with
    | 1 => execInvalidateInstructionCaches s
    | 2 => execInvalidateTranslationCaches s
    | 3 => execPreemptLaunch a s
    | 4 => execRestoreLaunch a s
    | 5 => execCancelLaunch a s
    | 6 => execResumeParked (argCtx s.m) s
    | 7 => execFailParked (argCtx s.m) s
    | 8 => execClearQueueFrozen a s
    | 9 => execSetRoutingEntry a b s
    | 10 => execLoadFirmware a b s
    | 11 => execClearCounters s
    | 12 => execRetrainLinks s
    | _ => .next s
/-- An event that the device brings about by itself. -/
def runAuto (e : Auto) (s : State) : Outcome State Fault Refusal :=
  match e with
  | .walk d n => execTranslationWalk d n s
  | .value cx uid => execPendingValueWritten cx uid s
  | .amsg core uid => .next { s with m := amsgAnswer s.m core uid }
  | .start core .m _ => execMatrixOpStart core s
  | .start core .v0 _ => execVectorOpStart core .p0 s
  | .start core .v1 _ => execVectorOpStart core .p1 s
  | .start core .c uid => execCopyOpStart core uid s
  | .complete core .m _ => execMatrixOpComplete core s
  | .complete core .v0 _ => execVectorOpComplete core .p0 s
  | .complete core .v1 _ => execVectorOpComplete core .p1 s
  | .complete core .c uid => execCopyOpComplete core uid s
  | .engineFault cx => execEngineFoundFault cx s
  | .barrier cx => execBarrierUpdate cx s
  | .rootReturn d n => execRootReturn d n s
  | .completion lid => execLaunchCompletion lid s
  | .forced cx => execForcedRelease cx s
  | .interval lid => execFailureInterval lid s
  | .watchdog lid => execWatchdogTick lid s
  | .queueMap d q => execQueueMap d q s
  | .queueUnmap d q => execQueueUnmap d q s
  | .packet d q => execLaunchPacket d q s
  | .noOp d q => execNoOp d q s
  | .record d q => execTileRecord d q s
  | .deal lid => execDealTask lid s
  | .claim lid => execClaimSeat lid s
  | .receipt d n => execSchedulerReceipt d n s
  | .save lid => execSaveEntry lid s
  | .seat lid core => execRestoreSeatClaim lid core s
  | .pushFill cx r => execPushSlotFilling cx r s
  | .pushFull cx r => execPushSlotFull cx r s
  | .pullDrain cx r => execPullSlotDraining cx r s
  | .pullDone cx r => execPullSlotDrained cx r s
  | .deliver n => deliver n s
  | .notice n => .next { s with m := sendNotice s.m n }
  | .tokenHold => execTokenHoldExpiry s
  | .tokenLoss => execTokenLossTimeout s
  | .request => runRequest s
  | .offerTimer p => execTrainingOfferTimer p s
  | .replay p => execReplayTimeout p s
  | .gate core => execPowerGate core s
  | .wake core => execCoreWake core s
  | .governor avg => execGovernorSample avg s
  | .boot d => .next { s with m := bootDie s.m d }
  | .lineIdle p => .next { s with m := lineIdle s.m p }

/-- The moves open to the device now, every agent's. -/
def enabledActs (m : Mach) : List Act :=
  let cxs := (m.ctxs.filter fun x => x.2.life != .free).map (·.1)
  let turns := ((cxs.map coreOf).eraseDups).map Act.issue
  let autos : List Auto :=
    (m.ctxs.flatMap fun (cx, c) =>
      (c.out.map fun a => Auto.value cx a.uid) ++ (if c.engFault.isEmpty then [] else [.engineFault cx]) ++
      (if c.barrier.isSome then [.barrier cx] else []) ++ (if c.leaveAt.isSome then [.forced cx] else []) ++
      (c.subs.flatMap fun u => if u.pull then [.pullDrain cx u.ring, .pullDone cx u.ring] else [.pushFill cx u.ring, .pushFull cx u.ring])) ++
    (m.cores.flatMap fun (k, c) => (c.ops.flatMap fun o => [.start k o.q o.uid, .complete k o.q o.uid, .amsg k o.uid]) ++ if !c.gated then [.gate k] else if c.waking then [.wake k] else []) ++
    (m.dies.flatMap fun (d, x) =>
      ((upFrom 0 x.misses.length).map fun n => .walk d n) ++ ((upFrom 0 x.rootQ.length).map fun n => .rootReturn d n) ++
      ((upFrom 0 x.reqs.length).map fun n => .receipt d n) ++
      (x.slots.flatMap fun y => let b := BitVec.ofNat 2 d; let q := BitVec.ofNat 12 y.q; [.packet b q, .noOp b q, .record b q, .queueUnmap b q])) ++
    (((upFrom 0 4096).filter fun q => m.qEnabled q && m.qFlag q 1).map fun q => .queueMap (BitVec.ofNat 2 (m.qHome q)) (BitVec.ofNat 12 q)) ++
    (m.launches.flatMap fun l => [.completion l.lid, .interval l.lid, .watchdog l.lid, .deal l.lid, .claim l.lid, .save l.lid] ++
      l.oldSeats.map fun x => .seat l.lid x.core) ++
    ((upFrom 0 m.wire.length).map .deliver) ++ ((upFrom 0 m.notices.length).map .notice) ++
    (m.ports.flatMap fun (k, _) => let p : PortId := ⟨BitVec.ofNat 2 (k / 4), BitVec.ofNat 2 k⟩; [.offerTimer p, .replay p, .lineIdle p]) ++ (upFrom 0 4).map .boot ++
    [.tokenHold, .tokenLoss, .request, .governor (Config.freePick m.fresh)]
  let n := 1 + Config.freePick m.fresh % 64
  turns ++ autos.map Act.auto ++
    (m.cores.flatMap fun (k, c) => ((c.ops.filter fun o => o.q == .c && o.started).map fun o => Act.copySome k o.uid n) ++
      ((c.ops.filter consumes).map fun o => Act.consume k o.uid) ++
      (c.l1.map fun x => .dropL1 k x.1) ++ (c.icache.map fun x => .dropCode k x.1) ++
      ((upFrom 0 c.tlb.length).map fun i => .dropTlb k false i) ++ ((upFrom 0 (m.die (dieOf k)).tlb.length).map fun i => .dropTlb k true i)) ++
    (m.ctxs.flatMap fun (cx, c) => c.subs.map fun u => .subSome cx u.ring.toNat n)

/-- A cache lets one entry go. -/
def dropTlb (m : Mach) (core : Nat) (die : Bool) (n : Nat) : Mach :=
  if die then m.modDie (dieOf core) fun d => { d with tlb := d.tlb.eraseIdx n } else m.modCore core fun c => { c with tlb := c.tlb.eraseIdx n }
/-- A message comes in by a port: its event, with the arrival that says so. -/
def arriving (a : Arrival) (i : Instr) (s : State) : Outcome State Fault Refusal :=
  match exec i { s with m := { s.m with rx := some a } } with
  | .next t => .next { t with m := { t.m with rx := none } }
  | o => o
/-- Make one move.  A slot instruction is no move of its own; before the control cores have passed their checks only the
management registers and firmware loading are served, and any other request of the management interface ends with result 2
(DEDUCED, log 12). -/
def perform (a : Act) (s : State) : Outcome State Fault Refusal :=
  match a with
  | .idle => .next s
  | .event i => if !isEvent i then .next s else if !wellFormed i then .fault .noSuchAgent else if s.m.ready || servedAlways i then exec i s else .next s
  | .arrive a i =>
    if !isEvent i then .next s else if !wellFormed i then .fault .noSuchAgent
    else if s.m.ready || servedAlways i then arriving a i s else .next s
  | .auto .request =>
    if s.m.ready || s.m.mgmtAt 0x070 == 10 then runRequest s
    else .next { s with m := if s.m.mgmtAt 0x078 % 2 = 1 then reqDone s.m 2 else s.m }
  | .issue core => if 160 ≤ core then .fault .noSuchAgent else if s.m.ready then coreTurn s core else .next s
  | .auto (.boot d) => if d < 4 then .next { s with m := bootDie s.m d } else .fault .noSuchAgent
  | .auto e => if s.m.ready then runAuto e s else .next s
  | .copySome core uid n => .next { s with m := copySome s.m core uid n }
  | .subSome cx ring n => .next { s with m := subSome s.m cx ring n }
  | .consume core uid => .next { s with m := consumeOp s.m core uid }
  | .dropL1 core line => .next { s with m := l1DropLine s.m core line }
  | .dropTlb core die n => .next { s with m := dropTlb s.m core die n }
  | .dropCode core line => .next { s with m := s.m.modCore core fun c => { c with icache := mdel c.icache line } }

/-- What follows every move at once: seats and late work of launches, swap-outs that end, stalled contexts seen, held deliveries
entering, table entries claiming what was delivered, armed sends that find room, and the messages that the links take. -/
def aftermath (m : Mach) : Mach :=
  let m := watchStalls (finishSwaps m.settle)
  let m := enterHeld m
  let m := (m.cores.filter fun x => !x.2.table.isEmpty || x.2.ops.any EOp.awaitsEntry).foldl (fun m x => fireWaiting (claimTables m x.1) x.1) m
  flushOut m
/-- TIME and the model's own step count advance with every step (00 R72's clock is free to run between two moves) (DESIGN CHOICE, log 4). -/
def tick (m : Mach) : Mach := 
  { m with time := m.time + 1 + BitVec.ofNat 64 (Config.freeDelay m.steps), steps := m.steps + 1, lines := [] }
/-- The move made next: the head of the agenda, else one of those open. -/
def nextAct (s : State) : Act × State :=
  match s.agenda with
  | a :: rest => (a, { s with agenda := rest })
  | [] => (((enabledActs s.m)[Config.freeChoice s.m.steps % (enabledActs s.m).length]?).getD .idle, s)
/-- One move with what follows it. -/
def moveOnce (a : Act) (s : State) : Outcome State Fault Refusal :=
  match perform a { s with m := tick s.m } with
  | .next t => .next { t with m := aftermath t.m }
  | .fault e => .fault e
  | .refused e => .refused e

end Sys2Proof.Machine
end

