-- ==== Sys2Proof/Machine/Place.lean ====
section
/-! DEFINITION. Placing a program from outside: the load that a test of one bundle stands on (log 22). -/
namespace Sys2Proof.Machine

/-- The kernel, launch and seat of a placed bundle: code at 0x10000, its map at 0x20000, context 0 of core 0. -/
def placedCode : Nat := 0x10000
def placedMap : Nat := 0x20000
def placedRoot : Nat := 0x100000
def placedTable : Nat := 0x200000
def placedKernel : Kernel :=
  { isa := 1, contexts := 1, tiles := 8, entries := [0], scratch := 4096, codeBase := BitVec.ofNat 64 placedCode,
    mapBase := BitVec.ofNat 64 placedMap, codeSize := 64 }
def placedSeat : SeatRec := { lid := 0, core := 0, ctxs := [0], base := 0, size := 4096, first := true }
def placedLaunch : Launch := { lid := 0, home := 0, kernel := placedKernel, seats := [placedSeat], gtag := 1 }
def placedCtx : Ctx :=
  { life := .running, launch := some 0, pc := BitVec.ofNat 64 placedCode, tilesPer := 8, ctxsPer := 1, reserve := 4096 }
/-- One 1 GiB page at address 0, readable, writable and executable: its leaf entry. -/
def placedLeaf : Word := 0x1F
/-- Bytes placed as the bundle at the pc of context 0, with the page table, code map, seat and launch that its fetch needs. -/
def Mach.placeCode (m : Mach) (code : List Byte) : Mach :=
  let mem := cputN m.mem placedRoot (leBytes 8 (placedTable + 1))
  let mem := cputN mem placedTable (leBytes 8 placedLeaf.toNat)
  let mem := cputN mem placedMap [1, 0]
  let mem := cputN mem placedCode code
  let core := m.core 0
  { m with
    mem := mem
    mgmt := mset m.mgmt 0x018 (BitVec.ofNat 64 placedRoot)
    launches := placedLaunch :: m.launches.filter (fun l => l.lid != 0)
    ctxs := mset m.ctxs 0 placedCtx
    dies := [(0, { m.die 0 with fw := 0, booted := true }), (1, { m.die 1 with fw := 0, booted := true }),
      (2, { m.die 2 with fw := 0, booted := true }), (3, { m.die 3 with fw := 0, booted := true })]
    errs := []
    cores := mset m.cores 0 { core with cur := 0, inRow := 0, yielded := false, icache := [], tlb := [⟨0, 2 ^ 30, placedLeaf⟩], gated := false, inReset := false } }

end Sys2Proof.Machine
end

