-- ==== Sys2Proof/Machine/Step.lean ====
section
/-! DEFINITION. The step: one move of one agent. -/
namespace Sys2Proof.Machine

/-- One move of one agent: the next of the agenda, else one of those open. -/
def step (s : State) : Host.Outcome State Fault Refusal := moveOnce (nextAct s).1 (nextAct s).2

/-- The bundle whose bits are `w` (zero from `nbits` on) at the pc of context 0 of core 0, whose turn is next. -/
def State.withFetchWord (s : State) (nbits w : Nat) : State :=
  { s with m := s.m.placeCode (leBytes 48 (w % 2 ^ nbits)), issue := {}, agenda := [.issue 0] }

end Sys2Proof.Machine
end

