-- ==== Sys2Proof/Safety.lean ====
section
/-! DEFINITION. The words that claims use: a bundle of one slot, what a retiring bundle leaves alone, the canonical form of
every byte memory, and a step that goes on. -/
namespace Sys2Proof.Safety
open Sys2Proof.Machine

/-- Every byte memory of the device and the host is in canonical form. -/
def MemoryWf (m : Mach) : Prop :=
  Memory.wf m.mem = true ∧ Memory.wf m.hostMem = true ∧ Memory.wf m.scratch = true ∧ Memory.wf m.msix = true

/-- A step that stops neither by a fault nor by a refusal. -/
def Goes (s : State) : Prop := ∃ t, step s = .next t

/-! A bundle that holds one slot, as `step` hands it to `exec` (06 R98, 07 R120). -/
/-- Nothing of the bundle has run yet, its guard is true, and the slot that runs now is its only one. -/
def Solo (s : State) : Prop :=
  s.issue = { cx := s.issue.cx, len := s.issue.len, yield := s.issue.yield, offset := s.issue.offset, replayed := s.issue.replayed }
/-- The context that issues. -/
def me (s : State) : Ctx := s.m.ctx s.issue.cx
/-- The same context in a later state. -/
def meIn (s t : State) : Ctx := t.m.ctx s.issue.cx
/-- A register or predicate of a context. -/
def regOf (c : Ctx) : RegRef → Word
  | .s n => c.regAt n
  | .p n => if c.predAt n then 1 else 0
/-- A register is not pending (07 R124). -/
def Free (s : State) (r : RegRef) : Prop := r ∉ (me s).pend
/-- No frozen write to a register is outstanding (07 R122). -/
def Quiet (s : State) (r : RegRef) : Prop := ∀ w ∈ (me s).frozen, w.reg ≠ r
/-- The sequential successor of the bundle (06 R101). -/
def nextPc (s : State) (k : Slot) : Word := (me s).pc + BitVec.ofNat 64 (if s.issue.len = 0 then 4 + k.bytes else s.issue.len)

/-- Of the context, only its pc, registers, predicates and frozen writes may differ, and nothing is waited for: every pending
bit, bobbin, latch, token, type word, tile, code table, draw register, weight, status, exception and special register is as it
was. -/
def OnlyRegs (c d : Ctx) : Prop :=
  d = { c.unblocked with pc := d.pc, regs := d.regs, preds := d.preds, frozen := d.frozen }
/-- Of the machine, only the context that issues, its launch's activity mark and its core's turn may differ. -/
structure OnlyCtx (s t : State) : Prop where
  machine : t.m = { s.m with ctxs := t.m.ctxs, launches := t.m.launches, cores := t.m.cores }
  memory : ∀ l, t.m.read l = s.m.read l
  others : ∀ k, k ≠ s.issue.cx → t.m.ctx k = s.m.ctx k
  cores : ∀ k, t.m.core k = { s.m.core k with yielded := (t.m.core k).yielded }
  issue : t.issue = {}
/-- The bundle retires and its X slot writes `v` to `dst` with latency `lat` (07 R121 to R123): visible to the next bundle for
latency 1, else queued; no other register or predicate without an outstanding frozen write changes. -/
structure WritesX (s t : State) (dst : Option RegRef) (lat : Nat) (v : Word) : Prop where
  pc : (meIn s t).pc = nextPc s .x
  visible : ∀ r, dst = some r → lat = 1 → regOf (meIn s t) r = v
  queued : ∀ r, dst = some r → lat ≠ 1 → ⟨r, v, lat - 1⟩ ∈ (meIn s t).frozen
  kept : ∀ r, Quiet s r → (dst ≠ some r ∨ lat ≠ 1) → regOf (meIn s t) r = regOf (me s) r
  ctx : OnlyRegs (me s) (meIn s t)
  frame : OnlyCtx s t

/-- A context whose bundle has retired: due frozen writes applied, the pc moved, nothing waited for (07 R121, R122, R126). -/
def settled (c : Ctx) (npc : Word) : Ctx :=
  { c.tickFrozen.unblocked with pc := npc }
/-- The slot's replay latch holds its word and the offset it ran with (06 R105); the X slot has none. -/
def latched (k : Slot) (i : Instr) (s : State) (c : Ctx) : Ctx :=
  if k = .x then c
  else match encode i with
    | some (_, w) => c.setLatches (mset c.latches k.bit { word := w, offset := s.issue.offset })
    | none => c
/-- The bundle of one slot `k` holding `i` retires at `npc` after changing the machine to `m`: beside that change only the due
frozen writes, the slot's replay latch, the launch's activity mark and the core's turn move. -/
structure Retires (k : Slot) (i : Instr) (npc : Word) (s : State) (m : Mach) (t : State) : Prop where
  here : meIn s t = settled (latched k i s (m.ctx s.issue.cx)) npc
  kept : ∀ r, (∀ w ∈ (m.ctx s.issue.cx).frozen, w.left ≤ 1 → w.reg ≠ r) → regOf (meIn s t) r = regOf (m.ctx s.issue.cx) r
  others : ∀ j, j ≠ s.issue.cx → t.m.ctx j = m.ctx j
  machine : t.m = { m with ctxs := t.m.ctxs, launches := t.m.launches, cores := t.m.cores }
  cores : ∀ j, t.m.core j = { m.core j with yielded := (t.m.core j).yielded }
  launches : t.m.launches = m.launches ∨ ∃ lid, t.m.launches = (m.modLaunch lid fun l => { l with active := true }).launches
  memory : ∀ l, t.m.read l = m.read l
  issue : t.issue = {}
  agenda : t.agenda = s.agenda

/-- The state after a bundle of one slot `k` that faults with `f` at issue: nothing of the bundle happened, its yield too, the fault
is taken, and the fault of an access stands in the die's error log (06 R104, 07 R121, 12 R235). -/
def trapped (k : Slot) (f : FaultRec) (s : State) : State :=
  { s with m := (takeFault (s.m.logFault s.issue.cx f) s.issue.cx (BitVec.ofNat 6 (2 ^ k.bit)) f).modCore (coreOf s.issue.cx) fun c => { c with yielded := false },
           issue := {} }
/-- The state after a bundle that stalls: nothing of it happened (07 R120); an IDLE stays met only once the bundle has issued (R141). -/
def waiting (internal : Bool) (s : State) : State :=
  { s with m := s.m.modCtx s.issue.cx fun c => { c with stalled := internal, blocked := true, idleMet := c.issued }, issue := {} }
/-- The state after a bundle that has issued but for the answer it asked of another agent over the machine `m`: it waits for that
alone (17 R330). -/
def asked (s : State) (m : Mach) : State :=
  { s with
    m := m.modCtx s.issue.cx fun c =>
      { c with stalled := true, blocked := true, issued := true, idleMet := true, consts := if c.issued then c.consts else [] },
    issue := {} }
/-- The launch that the issuing context runs for. -/
def myLaunch (s : State) : Option Launch := s.m.launchOf s.issue.cx
/-- The launch has a handler, whose first bundle stands at `h`. -/
def HasHandler (s : State) (h : Word) : Prop := ∃ l, myLaunch s = some l ∧ l.handlerPc = some h

/-! What a slot adds to its context. -/
/-- A frozen write, or none. -/
def frozenIn (s : State) (dst : Option RegRef) (lat : Nat) (v : Word) : Mach :=
  match dst with
  | none => s.m
  | some r => s.m.modCtx s.issue.cx fun c => { c with frozen := c.frozen ++ [⟨r, v, lat⟩] }
/-- An outstanding access, with its destination pending (07 R124). -/
def outAfter (s : State) (dst : Option RegRef) (a : Access) : Mach :=
  (s.m.modCtx s.issue.cx fun c => { c with pend := c.pend ++ dst.toList, out := c.out ++ [{ a with uid := s.m.uid, handlerAcc := c.handler }] }).nextUid
/-- A destination may be set pending: neither pending nor with a frozen write outstanding (07 R124). -/
def Open (s : State) (r : RegRef) : Prop := ∀ q, r.dest? = some q → Free s q ∧ Quiet s q
/-- A value that arrives for a pending register. -/
def gives (s : State) (r : RegRef) (v : Word) : Mach := outAfter s r.dest? { uid := 0, kind := .give r.dest? v }

/-! What an engine slot queues. -/
/-- The parts of an operation that its instruction decides: captures, weight, words and extents at positions 0 to 3, counter
positions, the word td gets, bindings, what is left of QW, and the tokens kd and kw0 to kw2. -/
structure OpSpec where
  capA : Word := 0
  capB : Word := 0
  weight : Word := 0
  types : List TypeWord := []
  exts : List (List Nat) := []
  draws : Nat := 0
  td : Option (Nat × TypeWord) := none
  binds : List Binding := []
  qw : Option Word := none
  kd : Nat := 0
  kws : List Nat := []
deriving DecidableEq, Repr
/-- The context that queues an operation numbered `uid`: td has its word, kd is pending on the operation, the counter has moved. -/
def issued (c : Ctx) (p : OpSpec) (uid : Nat) : Ctx :=
  let d := match p.td with | some x => c.deliverWord x.1 x.2 | none => c
  let e := { d with qw := p.qw.getD d.qw, drawCtr := d.drawCtr + BitVec.ofNat 32 p.draws,
                    tokens := if p.kd = 0 then d.tokens else mset d.tokens p.kd uid }
  e.bindAll p.binds
/-- The operation stands at the end of its queue with all it captured at issue (02 R33, 03 R49, R56, 14 R268). -/
structure HasOp (s t : State) (q : QKind) (i : Instr) (p : OpSpec) (o : EOp) : Prop where
  last : (t.m.core (coreOf s.issue.cx)).ops = (s.m.core (coreOf s.issue.cx)).ops ++ [o]
  number : o.uid = s.m.uid
  who : o.cx = s.issue.cx ∧ o.q = q ∧ o.instr = i ∧ o.pc = (me s).pc ∧ o.handlerOp = (me s).handler
  captures : o.capA = p.capA ∧ o.capB = p.capB ∧ o.weight = p.weight ∧ o.banks = (me s).banks
  shape : o.types = p.types ∧ o.exts = p.exts
  tokens : o.kd = p.kd ∧ o.waits = (me s).waitsOf p.kws
  draws : p.draws ≠ 0 → o.key = (me s).drawKey ∧ o.c0 = (me s).drawCtr
  fresh : o.started = false ∧ o.posted = false
/-- A bundle of one engine slot retires with its operation queued, and nothing else of the machine moves. -/
structure Queues (k : Slot) (q : QKind) (i : Instr) (s : State) (p : OpSpec) (t : State) : Prop where
  op : ∃ o, HasOp s t q i p o
  here : meIn s t = settled (latched k i s (issued (me s) p s.m.uid)) (nextPc s k)
  kept : ∀ r, (∀ w ∈ (me s).frozen, w.left ≤ 1 → w.reg ≠ r) → regOf (meIn s t) r = regOf (me s) r
  others : ∀ j, j ≠ s.issue.cx → t.m.ctx j = s.m.ctx j
  machine : t.m = { s.m with ctxs := t.m.ctxs, launches := t.m.launches, cores := t.m.cores, uid := s.m.uid + 1 }
  core : t.m.core (coreOf s.issue.cx) = { s.m.core (coreOf s.issue.cx) with
    ops := (t.m.core (coreOf s.issue.cx)).ops, waiters := (t.m.core (coreOf s.issue.cx)).waiters,
    yielded := (t.m.core (coreOf s.issue.cx)).yielded }
  cores : ∀ j, j ≠ coreOf s.issue.cx → t.m.core j = { s.m.core j with yielded := (t.m.core j).yielded }
  memory : ∀ l, t.m.read l = s.m.read l
  issue : t.issue = {}
  agenda : t.agenda = s.agenda

end Sys2Proof.Safety
end

