-- ==== Sys2Proof/Certificates/Slice0/Obligations.lean ====
section
/-! DEFINITION. The statements for the provers, and the tables of the spec that they read. -/
namespace Sys2Proof.Claims
open Sys2Proof.Machine Sys2Proof.Safety

/-- The register-register operations: opcode (06 Table 06-9), latency (07 Table 07-1) and result (07 R128). -/
def rrTable : List ((SReg → SReg → SReg → Instr) × BitVec 8 × Nat × (Word → Word → Word)) :=
  [(Instr.add, 0x01, 1, fun a b => a + b), (Instr.sub, 0x02, 1, fun a b => a - b), (Instr.and, 0x03, 1, fun a b => a &&& b), (Instr.or, 0x04, 1, fun a b => a ||| b),
   (Instr.xor, 0x05, 1, fun a b => a ^^^ b), (Instr.shl, 0x06, 1, fun a b => a <<< (b.toNat % 64)), (Instr.shr, 0x07, 1, fun a b => a >>> (b.toNat % 64)),
   (Instr.sra, 0x08, 1, fun a b => BitVec.ofInt 64 (a.toInt / 2 ^ (b.toNat % 64))),
   (Instr.mul, 0x09, 3, fun a b => a * b),
   (Instr.mulh, 0x0A, 3, fun a b => (a.signExtend 128 * b.signExtend 128).extractLsb' 64 64),
   (Instr.mulhu, 0x0B, 3, fun a b => (a.setWidth 128 * b.setWidth 128).extractLsb' 64 64),
   (Instr.div, 0x0C, 18, fun a b => if b = 0 then BitVec.allOnes 64 else a.sdiv b), (Instr.divu, 0x0D, 18, fun a b => if b = 0 then BitVec.allOnes 64 else a / b),
   (Instr.rem, 0x0E, 18, fun a b => a.srem b), (Instr.remu, 0x0F, 18, fun a b => a % b),
   (Instr.min, 0x10, 1, fun a b => if a.slt b then a else b), (Instr.max, 0x11, 1, fun a b => if a.slt b then b else a),
   (Instr.minu, 0x12, 1, fun a b => if a.ult b then a else b), (Instr.maxu, 0x13, 1, fun a b => if a.ult b then b else a)]
/-- The immediate forms: latency and result from the source and the sign-extended imm12 (07 R131). -/
def immTable : List ((SReg → SReg → BitVec 12 → Instr) × Nat × (Word → Word → Word)) :=
  [(Instr.addi, 1, fun a b => a + b), (Instr.andi, 1, fun a b => a &&& b), (Instr.ori, 1, fun a b => a ||| b), (Instr.xori, 1, fun a b => a ^^^ b),
   (Instr.shli, 1, fun a b => a <<< (b.toNat % 64)), (Instr.shri, 1, fun a b => a >>> (b.toNat % 64)),
   (Instr.srai, 1, fun a b => BitVec.ofInt 64 (a.toInt / 2 ^ (b.toNat % 64))), (Instr.muli, 3, fun a b => a * b)]
/-- The compares, with their opcodes (07 R133, 06 Table 06-9). -/
def cmpTable : List ((PReg → SReg → SReg → Instr) × BitVec 8 × (Word → Word → Bool)) :=
  [(Instr.cmpeq, 0x30, fun a b => a == b), (Instr.cmpne, 0x31, fun a b => !(a == b)), (Instr.cmplt, 0x32, fun a b => a.slt b), (Instr.cmpltu, 0x33, fun a b => a.ult b),
   (Instr.cmple, 0x34, fun a b => a.sle b), (Instr.cmpleu, 0x35, fun a b => a.ule b)]
def cmpImmTable : List ((PReg → SReg → BitVec 12 → Instr) × BitVec 8 × (Word → Word → Bool)) :=
  [(Instr.cmpeqi, 0x36, fun a b => a == b), (Instr.cmplti, 0x37, fun a b => a.slt b)]
/-- The predicate operations: opcode, whether the form has one source, and result (07 R134, 06 Table 06-9). -/
def predTable : List ((PReg → PReg → PReg → Instr) × BitVec 8 × Bool × (Bool → Bool → Bool)) :=
  [(Instr.pand, 0x38, false, fun a b => a && b), (Instr.por, 0x39, false, fun a b => a || b), (Instr.pxor, 0x3A, false, fun a b => a ^^ b), (fun d a _ => .pnot d a, 0x3B, true, fun a _ => !a),
   (fun d a _ => .pmov d a, 0x3C, true, fun a _ => a)]
/-- The scalar FP32 operations of two sources and of one (07 R136). -/
def fpTable : List ((SReg → SReg → SReg → Instr) × Nat × (FV → FV → FV)) :=
  [(Instr.fadd, 4, fun x y => fp32.round .rne (x.add y)), (Instr.fsub, 4, fun x y => fp32.round .rne (x.add y.negate)),
   (Instr.fmul, 4, fun x y => fp32.round .rne (x.mul y)), (Instr.fdiv, 14, fp32.div .rne), (Instr.fmin, 4, FV.fmin), (Instr.fmax, 4, FV.fmax)]
def fpUnTable : List ((SReg → SReg → Instr) × (FV → FV)) := [(Instr.fexp2, fp32.exp2 .rne), (Instr.flog2, fp32.log2 .rne)]
def fpCmpTable : List ((PReg → SReg → SReg → Instr) × (FV → FV → Bool)) := [(Instr.fcmplt, FV.lt), (Instr.fcmpeq, FV.eqv)]
/-- A boolean as the bit a predicate holds. -/
def bit (b : Bool) : Word := if b then 1 else 0
/-- The operand registers of a slot in the mode of the context (07 R127). -/
def reg (s : State) (r : SReg) : RegRef := sref (me s).handler r
/-- The displacement of a branch in bytes (07 R137). -/
def jump20 (d : BitVec 20) : Word := d.signExtend 64 * 4
def jump12 (d : BitVec 12) : Word := d.signExtend 64 * 4
/-- A taken branch may go to `a` (06 R102): its check in the launch of the context, with the repeat mask or without. -/
def LegalTarget (s : State) (a : Word) (rep : Bool) : Prop := ∀ l, myLaunch s = some l → targetFault s.m l a rep = none
/-- The tokens of WAITK that are not done. -/
def waitsFor (s : State) (ks : List Tok) : Bool := ks.any fun k => (me s).token k.toNat != 0
/-- The selectors of Table 07-8 whose registers are read-only. -/
def readOnly : List (BitVec 18) := [0x10, 0x11, 0x22, 0x24, 0x30, 0x31, 0x32, 0x33, 0x34]
/-- The handler-only instructions (07 R142, R144 to R146). -/
def handlerOnlyInstrs (sd sa sb : SReg) (sel : BitVec 18) : List Instr :=
  [.sysw sd sel, .tret, .tretSkip, .ctxr sd sa, .ctxw sa sb, .eqreplay sd sa]
/-- No engine operation that a context queued in handler mode is left (17 R334). -/
def HandlerOpsDone (s : State) : Prop := ∀ o ∈ (s.m.core (coreOf s.issue.cx)).ops, o.cx = s.issue.cx → o.handlerOp = false
/-- The item a CTXW writes waits for no operation: it is no bank entry that a queued operation refers to (03 R49). -/
def BankIdle (s : State) (it : Option CtxItem) : Prop :=
  ∀ i, it = some (.bank i) → ∀ o ∈ (s.m.core (coreOf s.issue.cx)).ops, o.cx = s.issue.cx → o.bankRefs.contains (i / 16) = false
/-- The tile field of an X instruction names a tile of the context's share (02 R39). -/
def OwnTile (s : State) (t : TReg) : Prop := t.toNat % 8 < (me s).tilesPer
/-- The committed bobbins (02 R38). -/
def bobbinsOf (s : State) : BEnv := { bob := (me s).bobbins }
/-- The type word of a tile, its reserved bits and unused extents zero (02 R17). -/
def wordOf (s : State) (t : TReg) : TypeWord := TW.canon ((me s).tile t.toNat).word
/-- Entry `i` of the launch's type-constant table reads as `w`, and the bundle has not issued yet (04 R66, 08 R159). -/
def ConstIs (s : State) (i : Nat) (w : TypeWord) : Prop := (me s).issued = false ∧ typeRead s i = .ok w
/-- The words that TDECL, whose table entry is `w`, TDECLS and TCLEAR install, each in its tile (08 R159). -/
def installs (s : State) (t : TReg) (idx : BitVec 18) (w : TypeWord) (sa sb : SReg) : List (Instr × TypeWord × List RegRef) :=
  [(.tdecl t idx, w, []), (.tdecls t sa sb, (me s).s sb ++ (me s).s sa, [reg s sa, reg s sb]), (.tclear t, 0, [])]

/-! The G slot. -/
/-- s[sa] + s[sb] + disp24 + the replay offset (06 R106, R111). -/
def addrOf (s : State) (g : GSlot) : Word := (me s).s g.sa + (me s).s g.sb + (g.disp + s.issue.offset).signExtend 64
def numOf (s : State) (g : GSlot) : Nat := (addrOf s g).toNat
/-- The address registers may be read. -/
def AddrFree (s : State) (g : GSlot) : Prop := Free s (reg s g.sa) ∧ Free s (reg s g.sb)
/-- What the address names for an access of `n` bytes. -/
def namesAt (s : State) (g : GSlot) (n : Nat) (p : Perm) : Res := resolveAt s.m s.issue.cx (numOf s g) n [p]
/-- The predicate that sd[2:0] names. -/
def predOf (g : GSlot) : RegRef := .p (g.sd.toNat % 8)
/-- The loads: signed, and width in bytes (13 R239). -/
def loadTable : List ((GSlot → Instr) × Bool × Nat) :=
  [(Instr.ld8, true, 1), (Instr.ld8u, false, 1), (Instr.ld16, true, 2), (Instr.ld16u, false, 2), (Instr.ld32, true, 4),
   (Instr.ld32u, false, 4), (Instr.ld64, false, 8)]
/-- The stores: width, and whether the store is a release (13 R239, 14 R265). -/
def storeTable : List ((GSlot → Instr) × Nat × Bool) :=
  [(Instr.st8, 1, false), (Instr.st16, 2, false), (Instr.st32, 4, false), (Instr.st64, 8, false), (Instr.rel, 8, true)]
/-- The atomics: code and width (13 R241). -/
def atomicTable : List ((GSlot → Instr) × BitVec 8 × Nat) :=
  [(Instr.aadd, 0x10, 8), (Instr.aand, 0x11, 8), (Instr.aor, 0x12, 8), (Instr.axor, 0x13, 8), (Instr.amin, 0x14, 8),
   (Instr.amax, 0x15, 8), (Instr.aminu, 0x16, 8), (Instr.amaxu, 0x17, 8), (Instr.aswap, 0x18, 8), (Instr.acas, 0x19, 8),
   (Instr.afadd, 0x1A, 4)]
/-- An aperture address fails its check: beyond the reservation or the seat (PROTECTION 4), or on a core without a seat of the launch
(PROTECTION 5), 16 more for a write (12 R215, R216, R235). -/
def ApertureFault (s : State) (a n : Nat) (write : Bool) (f : FaultRec) : Prop :=
  let flt (sub : Nat) : FaultRec := { cause := 0x0A, addr := BitVec.ofNat 64 a, info := BitVec.ofNat 64 (sub + if write then 16 else 0) }
  (localBase ≤ a ∧ a < peerBase ∧ (me s).reserve < a - localBase + n ∧ f = flt 4) ∨
  (peerBase ≤ a ∧ a < peerBase + 0x1000000 ∧ seatNamed s.m s.issue.cx a = none ∧ f = flt 5) ∨
  (peerBase ≤ a ∧ a < peerBase + 0x1000000 ∧ ∃ st, seatNamed s.m s.issue.cx a = some st ∧ st.size < (a - peerBase) % 0x400000 + n ∧ f = flt 4)
/-- An address outside the apertures, for an instruction that takes no other (PROTECTION 3). -/
def NoAperture (a : Nat) (write : Bool) (f : FaultRec) : Prop :=
  (a < localBase ∨ peerBase + 0x1000000 ≤ a) ∧
  f = { cause := 0x0A, addr := BitVec.ofNat 64 a, info := BitVec.ofNat 64 (3 + if write then 16 else 0) }
/-- A scope of CORE or wider (01 R14). -/
def wide (g : GSlot) : Bool := decide (1 ≤ g.hint.toNat % 8)
/-- Does an access reach a host page? -/
def reachesHost (l : List Loc) : Bool := l.any fun x => match x with | .host _ => true | _ => false
/-- The HBM byte that a prefetch, invalidate or write-back names, none where a check of 13 R237 fails. -/
def lineByte (s : State) (g : GSlot) : Option Nat :=
  if globalTop ≤ numOf s g then none else match namesAt s g 1 .read with | .locs (.hbm pa :: _) => some pa | _ => none
/-- The line instructions: what each does to the machine for the HBM byte `pa` its address names (13 R242 to R244). -/
def lineTable (s : State) (g : GSlot) : List (Instr × (Nat → Mach)) :=
  [(.pref g, fun pa => outAfter s none { uid := 0, kind := .prefetch (pa / 128) true (!g.hint.getLsbD 2), addr := addrOf s g, hint := g.hint }),
   (.prefw g, fun pa => if g.hint.getLsbD 2 then s.m else
      outAfter s none { uid := 0, kind := .prefetch (pa / 128) false true, addr := addrOf s g, hint := g.hint }),
   (.invl g, fun pa => outAfter s none { uid := 0, kind := .invalidate (some (pa / 128)), addr := addrOf s g }),
   (.wback g, fun pa => outAfter s none { uid := 0, kind := .writeBack (pa / 1024), addr := addrOf s g })]
/-- The first byte of the range that PIN and UNPIN name (13 R245). -/
def pinAt (s : State) (g : GSlot) : Nat :=
  ((windowOf s g.hint).base.toNat + ((me s).s g.sa + g.disp.signExtend 64).toNat) % 2 ^ 64
/-- The range is in a readable part of its window and its pages are known: `ls` is one location for each page. -/
def PinRange (s : State) (g : GSlot) (ls : List Loc) : Prop :=
  (windowOf s g.hint).access ≠ 0 ∧
  ((me s).s g.sa + g.disp.signExtend 64).toNat + ((me s).s g.sb).toNat ≤ (windowOf s g.hint).bound.toNat ∧
  pinAt s g + ((me s).s g.sb).toNat ≤ globalTop ∧
  translateAll s.m s.issue.cx [.read] (pageAddrs (pinAt s g) ((me s).s g.sb).toNat) = .ok ls
/-- The L2 lines of the range's HBM pages (13 R245, R246). -/
def pinLines (s : State) (g : GSlot) (ls : List Loc) : List Nat :=
  rangeLines 1024 ((me s).s g.sb).toNat (pinAt s g) ((pageAddrs (pinAt s g) ((me s).s g.sb).toNat).zip ls)
/-- The scratchpad byte an aperture address names. -/
def scratchByte (s : State) (g : GSlot) (write : Bool) (k : Nat) : Prop :=
  ∃ rest, scratchAt s.m s.issue.cx (numOf s g) 1 write = .locs (.scratch k :: rest)
/-- The context's own launch tag (14 R272). -/
def myTag (s : State) : Nat := ((myLaunch s).map (·.gtag)).getD 0
/-- What a barrier update asks of the controller of core k (14 R274, R276). -/
def updateOf (s : State) (g : GSlot) (expect : Bool) (k o : Nat) : BarUpd :=
  let st := seatNamed s.m s.issue.cx (numOf s g)
  { core := k, seat := (st.map (·.no)).getD 0, key := scratchKey k o, regionOff := o - (st.map (·.base)).getD 0, addr := addrOf s g, expect := expect,
    arrivals := if expect then 0 else ((me s).s g.sd).toNat % 2 ^ 16,
    bytes := if expect then ((me s).s g.sd).toNat % 2 ^ 32 else ((me s).s g.sd).toNat / 2 ^ 32, gtag := myTag s }
/-- The context after a change. -/
def withCtx (s : State) (f : Ctx → Ctx) : State := { s with m := s.m.modCtx s.issue.cx f }

/-! Weight, spawns, draws and subscriptions of the G slot. -/
/-- No access of the context is outstanding but for prefetches, which hold nothing back (15 R292, 13 R242). -/
def Drained (s : State) : Prop := ∀ a ∈ (me s).out, a.isPrefetch = true
/-- The machine after weight moved in the context's domain (15 R303). -/
def moved (s : State) : Mach := s.m.touch (me s).qwRoot
/-- A machine with the issuing context changed. -/
def onMe (s : State) (m : Mach) (f : Ctx → Ctx) : Mach := m.modCtx s.issue.cx f
/-- The context with a frozen write of latency 1 queued. -/
def andWrites (c : Ctx) (dst : Option RegRef) (v : Word) : Ctx :=
  { c with frozen := c.frozen ++ (dst.map fun r => ⟨r, v, 1⟩).toList }
/-- The predicate that sd names, as QJOIN, QWAIT and LREC use it. -/
def pOf (g : GSlot) : RegRef := pref (lo3 g.sd)
/-- The destination named is not pending. -/
def Writable (s : State) (r : RegRef) : Prop := ∀ q, r.dest? = some q → Free s q
/-- The task that a SPAWN makes (15 R299). -/
def spawnOf (s : State) (g : GSlot) (give : Word) : Task :=
  { x := ((me s).s g.sa).setWidth 32, y := ((me s).s g.sa).extractLsb' 32 32, z := ((me s).s g.sd).setWidth 32, word := (me s).s g.sb,
    entry := g.disp.toNat, weight := give, root := (me s).qwRoot }
/-- The bundle waits after handing a request to the scheduler of its launch's home die (05 R94). -/
def asks (s : State) (l : Launch) (r : SchedReq) : State :=
  let m := s.m.modDie l.home fun d => { d with reqs := d.reqs ++ [r] }
  asked s (onMe s m fun c => { c with await := some .asked })
/-- The bundle waits after handing QW to the root of its launch (15 R297). -/
def asksRoot (s : State) (l : Launch) : State :=
  let m := s.m.modDie l.home fun d => { d with rootQ := d.rootQ ++ [.wait l.root s.issue.cx (me s).qw] }
  asked s (onMe s m fun c => { c with await := some .asked, qwaits := true })
/-- A subscription slot of the context, ring and slot as SLOTDONE names them. -/
def ringOf (g : GSlot) : Nat := g.sd.toNat % 16

/-- No fence or acquire of the context is outstanding (14 R265). -/
def Unfenced (s : State) : Prop := ∀ a ∈ (me s).out, a.blocksLater = false
/-- An outstanding access of the context reaches a slot of the subscription, or a full bit of its lines (14 R262). -/
def SlotBusy (s : State) (u : Sub) (i : Nat) : Prop :=
  ∃ a ∈ (me s).out, ∃ n ∈ slotLines s.issue.cx (me s) u i,
    match a.kind with
    | .setFull k _ => k = n
    | .testFull k _ => k = n
    | _ => ∃ k, Loc.scratch k ∈ a.locs ∧ lineOfKey k = n
/-- The subscription that SUBSCR asks for, of a ring of slots of `bytes` bytes (13 R248). -/
def subOf (s : State) (g : GSlot) (pull : Bool) (k : Kernel) (bytes : Nat) : Sub :=
  let a := (me s).s g.sa
  let b := (me s).s g.sb
  { ring := BitVec.ofNat 4 (ringOf g), win := g.hint, pull := pull, row0 := bits a 31 0, col0 := bits a 63 32, h := bits b 15 0, c := bits b 31 16,
    dr := sgn 16 (bits b 47 32), dc := sgn 16 (bits b 63 48), n := g.disp.toNat, states := [], offset := k.ringOffset (ringOf g),
    slotBytes := bytes, base := 0 }
/-- The address of a window's descriptor, which a shape fault of position 4 names (02 R40). -/
def descriptorAt (s : State) (g : GSlot) : Word := ((myLaunch s).map fun l => l.winTable + BitVec.ofNat 64 (64 * g.hint.toNat)).getD 0
/-- The first check of R248's table that fails, with its fault; the translation of the pages comes after. -/
def subscrFault (s : State) (g : GSlot) (pull : Bool) (r : Option Ring) (w : Window) (u : Sub) : Option FaultRec :=
  let check (fails : Bool) (f : FaultRec) : Option FaultRec := if fails then some f else none
  let shape (field expected offered : Nat) : FaultRec :=
    { cause := 0x04, field := BitVec.ofNat 4 field, addr := descriptorAt s g, info := shapeInfo offered expected false none 4 }
  let geom := TW.geom w.ty
  let img := imageBytes (TW.fmt w.ty) geom [u.h, u.c]
  let off (n : Nat) (a d e : Int) : Option Int := [a, d, e].find? fun x => x % n ≠ 0
  [check (u.h == 0 || u.c == 0) { cause := 0x01 },
   check (r.map (·.fed) != some true || ((me s).sub? (ringOf g)).isSome) { cause := 0x13, info := BitVec.ofNat 64 (ringOf g) },
   check (w.access == 0) { cause := 0x06 },
   check (w.access == 3 || (pull && w.access != 2)) { cause := 0x07 },
   check (TW.rank w.ty != 2) (shape fRANK 2 (TW.rank w.ty)),
   (upFrom 0 u.n).findSome? (walkFault (descriptorAt s g) w u),
   (if geom = 2 ∨ geom = 3 then off (if geom = 2 then 32 else 16) u.col0 u.dc u.c else if geom = 4 ∨ geom = 5 then off 32 u.row0 u.dr u.h else none).map
     fun x => shape fGEOM 0 (unsgn (if x < 0 then 16 else 32) x),
   check (decide (u.slotBytes < img)) (shape fCAPACITY u.slotBytes img)].findSome? id
/-- A new subscription on engine `e` with `n` slots, each as its lines' full bits say (13 R248). -/
def withEngine (s : State) (u : Sub) (e n : Nat) (pull : Bool) : Sub :=
  let full (j : Nat) : Bool := (slotLines s.issue.cx (me s) u j).all s.m.fullAt
  { u with base := e, states := (upFrom 0 n).map fun j => if full j then (if pull then SubSlot.marked else .full) else .empty }

/-! The engine slots. -/
/-- The queue of an engine has room for this context and its kd is done (07 R120, 01 R12). -/
def MayQueue (s : State) (q : QKind) (kd : Tok) : Prop := s.m.queueRoom s.issue.cx q = true ∧ (me s).token kd.toNat = 0
/-- The operand words of a slot (08 R148). -/
def wordsOf (s : State) (td ta tb tc : TReg) : Words := ⟨wordOf s td, wordOf s ta, wordOf s tb, wordOf s tc⟩
/-- Typing of a slot that names these tiles. -/
def typing (s : State) (r : Rule) (groups : Bool) (td ta tb tc : TReg) : Except FaultRec Typed :=
  applyRule r (me s).tilesPer (bobbinsOf s) (td.toNat, ta.toNat, tb.toNat, tc.toNat) (wordsOf s td ta tb tc) groups
/-- One counter position when the rounding mode is stochastic (03 R54, R56). -/
def coin (v : VSlot) (default : Nat) : Nat := if v.rnd.toNat = 2 ∨ (v.rnd.toNat = 3 ∧ default = 2) then 1 else 0
/-- The V operations with a chain: their rule and whether op1 takes tc (08 Table 08-1, R151). -/
def chainTable (p : Pipe) (v : VSlot) : List (Instr × Rule × Bool) :=
  [(.vadd p v, ruleBin, false), (.vsub p v, ruleBin, false), (.vmul p v, ruleBin, false), (.vfma p v, ruleTri, true),
   (.vmin p v, ruleBin, false), (.vmax p v, ruleBin, false), (.vabs p v, ruleUn, false), (.vneg p v, ruleUn, false),
   (.vrcp p v, ruleUn, false), (.vrsq p v, ruleUn, false), (.vsqrt p v, ruleUn, false), (.vexp2 p v, ruleUn, false),
   (.vlog2 p v, ruleUn, false), (.vtanh p v, ruleUn, false), (.vsigm p v, ruleUn, false), (.vclamp p v, ruleTri, true),
   (.vscale p v, ruleScale, false), (.vsel p v, ruleSel, true)]
/-- The other V operations that always queue: rule and counter positions (08 Table 08-1, 03 R56, 11 R204, R206). -/
def plainTable (p : Pipe) (v : VSlot) : List (Instr × Rule × (Typed → Nat)) :=
  [(.vand p v, ruleBits, fun _ => 0), (.vor p v, ruleBits, fun _ => 0), (.vxor p v, ruleBits, fun _ => 0),
   (.vshl p v, ruleBits, fun _ => 0), (.vshr p v, ruleBits, fun _ => 0), (.vcmp p v, ruleCmp, fun _ => 0),
   (.vbcast p v, ruleFill (fun _ => true), fun t => if TW.fmt (t.ty 0) = 0x13 then 0 else coin v 0),
   (.viota p v, ruleFill (fun f => f == 0x01 || f == 0x09), fun t => if TW.fmt (t.ty 0) = 0x01 then coin v 0 else 0),
   (.vmask p v, ruleFill (fun f => f == 0x0F), fun _ => 0), (.vmov p v, ruleMov, fun _ => 0), (.vcvt p v, ruleCvt, fun _ => coin v 0),
   (.vcvtq p v, ruleCvtq, fun _ => coin v 2), (.vcvts p v, ruleCvts, fun _ => coin v 0)]
def reduceTable (p : Pipe) (v : VSlot) : List (Instr × Rule × (Typed → Nat)) :=
  [(.vrsum p v, ruleRed isNumeric 0x01 Mask.none, fun _ => coin v 0), (.vrmax p v, ruleRed isNumeric 0x01 Mask.none, fun _ => coin v 0),
   (.vrmin p v, ruleRed isNumeric 0x01 Mask.none, fun _ => coin v 0), (.vrlse p v, ruleRed isNumeric 0x01 Mask.none, fun _ => coin v 0),
   (.vrargmax p v, ruleRed isNumeric 0x09 Mask.fmt, fun _ => 0),
   (.vrdraw p v, ruleRed isFloat 0x13 Mask.fmt, fun t =>
     prod (t.exts.getD 1 []).dropLast * (2 ^ log2Up ((t.exts.getD 1 []).getLastD 1) - 1)),
   (.vscan p v, ruleUn, fun _ => coin v 0), (.vdmerge p v, ruleDmerge, fun t => prod (t.exts.getD 1 [])),
   (.vcompact p v, ruleCompact, fun t => if 2 ≤ TW.geom (t.ty 1) then coin v 0 else 0),
   (.vperm p v, rulePerm, fun t =>
     if TW.fmt (t.ty 0) = TW.fmt (t.ty 1) ∧ TW.geom (t.ty 0) = TW.geom (t.ty 1) ∧ TW.geom (t.ty 1) ≤ 1 then 0 else coin v 0),
   (.vroute p v, ruleRoute, fun _ => 0), (.vhist p v, ruleHist, fun _ => 0)]
/-- The V operation that a typed slot queues. -/
def vOp (s : State) (v : VSlot) (t : Typed) (draws : Nat) : OpSpec :=
  { capA := (me s).s v.sx, types := t.types, exts := t.exts, draws := draws, td := t.word.map fun w => (v.td.toNat, w), binds := t.env.t,
    kd := v.kd.toNat, kws := [v.kw0.toNat, v.kw1.toNat, v.kw2.toNat] }
/-- The steps of VRESHAPE, VTRANS and VCAST, the type constant of the first and last being `x` (08 R155 to R157). -/
def viewTable (p : Pipe) (v : VSlot) (x : TypeWord) : List (Instr × (BEnv → TypeWord → Except FaultRec (BEnv × TypeWord × Mask × Bool))) :=
  [(.vreshape p v, reshapeSteps v.td v.ta x), (.vtrans p v, transSteps v.td v.ta), (.vcast p v, castSteps v.td v.ta x)]
/-- The M operations: rule, and whether their tiles must stand in three bank groups (09 R163; 08 Table 08-2). -/
def mTable (m : MSlot) : List (Instr × Rule × Bool) :=
  let bt := m.flags.getLsbD 0
  [(.mma m, ruleMma bt true false false, true), (.mmaz m, ruleMma bt false false false, true), (.mabsd m, ruleMma bt true false false, true),
   (.mmaxp m, ruleMma bt true true false, true), (.mminp m, ruleMma bt true true false, true), (.msparse m, ruleMma bt true false true, true),
   (.mrank m, ruleRank, false), (.mrankc m, ruleRank, false), (.mbload m, ruleBload bt, false)]
def mOp (m : MSlot) (t : Typed) : OpSpec :=
  { types := t.types, exts := t.exts, td := t.word.map fun w => (m.td.toNat, w), binds := t.env.t, kd := m.kd.toNat,
    kws := [m.kw0.toNat, m.kw1.toNat, m.kw2.toNat] }
/-- The copies: the checks and captures of each, and the scratchpad range it names at issue (13 R253 to R260). -/
def copyTable (s : State) (c : CSlot) : List (Instr × (State → Except FaultRec Plan) × List (Nat × Nat)) :=
  let a := [((cA s c).toNat, 0)]
  [(.tload c, tileCopyPlan (.tload c) c false false, []), (.tstore c, tileCopyPlan (.tstore c) c true false, []),
   (.tloads c, tileCopyPlan (.tloads c) c false true, a), (.tstores c, tileCopyPlan (.tstores c) c true true, a),
   (.cpin c, linesPlan (.cpin c) c true, a), (.cpout c, linesPlan (.cpout c) c false, a),
   (.gather c, gatherPlan (.gather c) c false, a), (.scatter c, gatherPlan (.scatter c) c true, a),
   (.recv c, recvPlan (.recv c) c anyWord (fun _ => 0), []),
   (.recvadd c, recvPlan (.recvadd c) c (fun w => TW.fmt w == 0x01 || TW.fmt w == 0x09) (fun _ => 0), []),
   (.recvdraw c, recvPlan (.recvdraw c) c (fun w => TW.fmt w == 0x13) prod, [])]
/-- The scratchpad range a C slot names is resident (17 R342). -/
def Resident (s : State) (rs : List (Nat × Nat)) : Prop :=
  ∀ x ∈ rs, ∀ k o, scratchTarget s.m s.issue.cx x.1 x.2 false ≠ .ok (k, o, false)
/-- The C operation of a plan. -/
def cOp (s : State) (c : CSlot) (pl : Plan) (o : EOp) : OpSpec :=
  { capA := (me s).s c.sa + s.issue.offset.signExtend 64, capB := (me s).s c.sb, weight := o.weight, types := o.types, exts := o.exts,
    draws := pl.draws, td := pl.td, binds := pl.binds, qw := pl.qw, kd := c.kd.toNat, kws := [c.kw0.toNat, c.kw1.toNat, c.kw2.toNat] }
/-- A tile that a fabric slot names passes its checks: its word and extents (08 Table 08-3). -/
def FabricTile (s : State) (c : CSlot) (w : TypeWord) (e : List Nat) : Prop := resolvedTile s c anyWord = .ok (w, e)
/-- The carriers: each with its checks beside the split, and the word and extents its operation has (16 R318, R319, R324, R326). -/
def carrierTable (s : State) (c : CSlot) (w : TypeWord) (e : List Nat) : List (Instr × Prop × List TypeWord × List (List Nat) × List (Nat × Nat)) :=
  let a := (cA s c).toNat
  [(.send c, FabricTile s c w e ∧ epBad (cA s c) = false, [0, w, 0, 0], [[], e, [], []], []),
   (.mcast c, FabricTile s c w e ∧ scratchRange s a (8 * c.w.toNat) 8 false = .ok (), [0, w, 0, 0], [[], e, [], []], [(a, 0)]),
   (.amsg c, scratchRange s a 64 64 false = .ok () ∧ epBad (cB s c) = false ∧
      (epDevice s.m (cB s c) = s.m.deviceNo ∨ v2Route s.m (epDevice s.m (cB s c)) = true), [0, 0, 0, 0], [[], [], [], []], [(a, 0)]),
   (.ttfire c, c.w.toNat / 32 = s.issue.cx % 8 ∧ epBad (cA s c) = false, [0, 0, 0, 0], [[], [], [], []], [])]

/-! Encodings, steps and invariants. -/
/-- The bundle bytes of one slot word behind a header. -/
def bundleBytes (hw : BitVec 32) (k : Slot) (w : BitVec 64) : List Byte := leBytes 4 hw.toNat ++ leBytes k.bytes w.toNat
/-- A header that makes slot `k` present and nothing repeated. -/
def headerOf (hw : BitVec 32) (k : Slot) : Prop :=
  (decodeHeader hw).reserved = 0 ∧ (decodeHeader hw).rep = 0 ∧ (decodeHeader hw).pres = BitVec.ofNat 6 (2 ^ k.bit)
/-- The instruction cache of a context's core holds these bytes from its pc on. -/
def CodeHeld (m : Mach) (cx : Nat) (bs : List Byte) : Prop :=
  ∀ j, j < bs.length → ∃ l, mget? (m.core (coreOf cx)).icache (((m.ctx cx).pc.toNat + j) / 128) = some l ∧
    l.length = 128 ∧ l[((m.ctx cx).pc.toNat + j) % 128]? = bs[j]?
/-- The map marks the pc as the start of a bundle and no word of its body, and the bundle lies in its segment. -/
def StartMarked (m : Mach) (cx n : Nat) (l : Launch) : Prop :=
  codeBitErr m l (m.ctx cx).pc.toNat = false ∧ codeBit m l (m.ctx cx).pc.toNat = true ∧
  (∀ j, 1 ≤ j → 4 * j < n → codeBitErr m l ((m.ctx cx).pc.toNat + 4 * j) = false ∧ codeBit m l ((m.ctx cx).pc.toNat + 4 * j) = false) ∧
  (m.ctx cx).pc.toNat + n ≤ l.kernel.codeBase.toNat + l.kernel.codeSize
/-- The moves of one core that a step may make now: neither gated nor under reset, with its first context ready to issue. -/
def MayTurn (m : Mach) (k cx : Nat) : Prop :=
  m.ready = true ∧ k < 160 ∧ (m.core k).gated = false ∧ (m.core k).inReset = false ∧
  (turnOrder (m.core k)).head? = some (cx % 8) ∧ coreOf cx = k ∧
  (m.ctx cx).life = .running ∧ nextEvent (m.ctx cx) = none ∧ mayIssue m cx = true
/-- The bundle of one slot as it comes to `exec`: nothing of it has run. -/
def freshIssue (cx len : Nat) (guarded yield : Bool) (f : FSlot) : Issue :=
  { cx := cx, len := len, last := true, guarded := guarded, yield := yield, offset := f.offset, replayed := f.replayed }
/-- The canonical form in the machine, and in the machine that a bundle under way started from. -/
def Canonical (s : State) : Prop := MemoryWf s.m ∧ ∀ m, s.issue.old = some m → MemoryWf m
/-- The words of a few instructions, one of each slot and family, cut by hand from 06 Tables 06-4 to 06-7 and the opcode tables. -/
def knownWords : List (Slot × BitVec 64 × Instr) :=
  [(.x, 0x091020C0, Instr.mul 4 2 3), (.x, 0x28240064, Instr.li 9 100), (.x, 0x2338E001, Instr.xori 14 14 1),
   (.x, 0x80000000, Instr.tdecl 0 0),
   (.g, 0x0B24600001000000, Instr.st64 { sd := 9, sa := 6, stride := 1 }), (.g, 0x5200E00000000000, Instr.slotdone { sa := 14 }),
   (.g, 0x500002C040000004, Instr.subscrPush { sb := 11, hint := 1, disp := 4 }),
   (.g, 0x3129400080000100, Instr.barrive { sd := 10, sa := 20, hint := 2, disp := 256 }),
   (.v0, 0x04008C1200310000, Instr.vadd .p0 { td := 17, ta := 16, tb := 9, rnd := 3, kd := 2 }),
   (.v0, 0x9000400000300000, Instr.vtrans .p0 { td := 8, ta := 0, rnd := 3 }),
   (.m, 0x0A00400001800000, Instr.mmaz { td := 16, ta := 0, tb := 8, kd := 3 }),
   (.c, 0x0A20400000310000, Instr.tstore { t := 17, w := 2, kd := 3, kw0 := 2 }),
   (.c, 0x0C00478000100000, Instr.tloads { t := 0, w := 2, sa := 15, kd := 1 })]

/-! Events. -/
/-- The state with its machine changed. -/
def put (s : State) (m : Mach) : State := { s with m := m }
/-- Request `code` of 18 Table 18-4 is in progress with this first operand. -/
def Asked (s : State) (code : Nat) (v : Word) : Prop := reqBusy s.m code = true ∧ arg0 s.m = v
/-- The outstanding access `a` of a context may be performed: nothing earlier holds it back, no core it names is under reset, no location is in error. -/
def MayPerform (s : State) (cx : Nat) (a : Access) : Prop :=
  (s.m.ctx cx).out.find? (·.uid == a.uid) = some a ∧ (s.m.ctx cx).accessReady a = true ∧ (∀ l ∈ a.locs, s.m.errAt l = false) ∧
  (∀ k ∈ a.targets, k ≠ coreOf cx → (s.m.core k).inReset = false)
/-- The machine without the L1 of the core, where the access is one that drops it (12 R219, 14 R265, R266). -/
def l1Gone (s : State) (cx : Nat) (a : Access) : Mach := if a.dropL1 then l1Drop s.m (coreOf cx) else s.m
/-- The bytes a scalar load sees: the L1's copy of its line when there is one, else memory (12 R219). -/
def loadSees (s : State) (cx : Nat) (a : Access) : List Byte := (loadBytes s.m (coreOf cx) a.locs a.hint).2
/-- A context from which an access has gone, its register written. -/
def afterAccess (c : Ctx) (a : Access) (v : Word) : Ctx := (c.fulfil a.kind.dst v).dropAccess a.uid
/-- An operation may start (14 R267, R268; 03 R49; 17 R329, R334). -/
def MayStart (s : State) (o : EOp) : Prop :=
  o.started = false ∧ o.posted = false ∧ o.handlerOp = false ∧
  (∀ u ∈ o.waits ++ o.bankWait, ∀ e ∈ (s.m.core (coreOf o.cx)).ops, e.uid ≠ u) ∧
  (∀ a ∈ (s.m.ctx o.cx).out, a.blocksLater = true → o.uid ≤ a.uid) ∧
  (s.m.ctx o.cx).engFault = [] ∧ CtxEvent.preempt ∉ (s.m.ctx o.cx).events ∧
  ∀ e ∈ (s.m.core (coreOf o.cx)).ops, e.cx = o.cx → e.uid < o.uid →
    (∀ t ∈ e.writes, t ∉ o.reads ++ o.writes) ∧ ∀ t ∈ e.reads, t ∉ o.writes
/-- A tile's contents, its type word aside. -/
def contents (t : Tile) : Nat × Mp Byte × Mp Byte × Mp Byte := (t.fill, t.data, t.part, t.scales)
/-- The operation at the head of a queue has run without fault, to the result `r`. -/
def RunsTo (s : State) (core : Nat) (q : QKind) (o : EOp) (r : EngOut) : Prop :=
  (s.m.core core).inQueue q = o :: ((s.m.core core).inQueue q).tail ∧ o.started = true ∧ coreOf o.cx = core ∧ tileError s.m o = none ∧
  computeOp o.instr (o.tiles (s.m.ctx o.cx)) o = .ok r
/-- Something that an operation with this result read, or rounded, was inexact (03 R59). -/
def degrades (o : EOp) (r : EngOut) : Bool := decide (0 < r.events) || (o.types.drop 1).any TW.degraded
/-- The operation of the copy engine is next in its context and may start (13 R254). -/
def MayStartCopy (s : State) (core : Nat) (o : EOp) : Prop :=
  MayStart s o ∧ coreOf o.cx = core ∧ o.q = .c ∧ (s.m.core core).op? o.uid = some o ∧ copyTurn s.m o = true
/-- The copy `o` runs, and item `x`, number `i`, is the one that its next move number `n` moves (13 R253, R258). -/
def MovesNext (s : State) (core : Nat) (o : EOp) (n i : Nat) (x : CItem) : Prop :=
  (s.m.core core).op? o.uid = some o ∧ coreOf o.cx = core ∧ o.q = .c ∧ o.started = true ∧ isMover o.instr = true ∧ tileError s.m o = none ∧
  (copyNext o.instr (copyRest s.m o))[n % (copyNext o.instr (copyRest s.m o)).length]? = some (i, x)
/-- The source byte of an item: as read ahead, or as memory holds it. -/
def sourceByte (s : State) (o : EOp) (va : Nat) (b : Byte) : Prop :=
  mget? o.got va = some b ∨ (mget? o.got va = none ∧ engRead s.m o.cx va 1 = .ok [b])
/-- The one byte that an engine may write at an address. -/
def writableByte (s : State) (o : EOp) (va : Nat) (l : Loc) : Prop :=
  engBytes s.m o.cx va 1 .write = .ok (.inl [l]) ∧ underReset s.m o.cx [l] = false
/-- The tile of a copy as it reads and writes it. -/
def copyView (s : State) (o : EOp) : View := o.view (s.m.ctx o.cx).tile 1 o.cslot.t.toNat
/-- A move has put `x` into the copy's tile, and changed neither another tile nor memory. -/
def TilePut (s t : State) (o : EOp) (x : Tile) : Prop :=
  contents ((t.m.ctx o.cx).tile o.cslot.t.toNat) = contents x ∧
  (∀ n, n ≠ o.cslot.t.toNat → (t.m.ctx o.cx).tile n = (s.m.ctx o.cx).tile n) ∧ ∀ l, t.m.read l = s.m.read l
/-- A move has put byte `b` at location `l`, and changed no other byte of memory. -/
def BytePut (s t : State) (l : Loc) (b : Byte) : Prop := t.m.read l = b ∧ ∀ k, k ≠ l → t.m.read k = s.m.read k
/-- The endpoints of a posting operation that starts: a SEND's, or those of an MCAST's list, none of them reserved (16 R317 to R319). -/
def postsTo (s : State) (o : EOp) (eps : List Word) : Prop :=
  ((∃ c, o.instr = .send c) ∧ eps = [o.capA]) ∨
  ∃ c bs, o.instr = .mcast c ∧ engRead s.m o.cx o.capA.toNat (8 * c.w.toNat) = .ok bs ∧
    eps = (upFrom 0 c.w.toNat).map (fun i => BitVec.ofNat 64 (fld bs (8 * i) 8)) ∧ ∀ e ∈ eps, epBad e = false
/-- What a posted tile leaves: an entry of the send table with its image, and a send-ready on its way to each endpoint (16 R319). -/
def Posted (m t : Mach) (core n tile : Nat) (o : EOp) (eps : List Word) : Prop :=
  let v := o.view (m.ctx o.cx).tile 1 tile
  let root := (m.ctx o.cx).qwRoot
  let word := constWord v.word v.ext
  (∃ x, (t.core core).sends = (m.core core).sends ++ [x] ∧ x.entry = n ∧ x.cx = o.cx ∧ x.uid = o.uid ∧ x.word = word ∧
    x.tag = o.capB.setWidth 32 ∧ x.left = eps.length ∧ x.image = imageOf v ∧ x.weight = o.weight ∧ x.root = root ∧ x.spill = none) ∧
  (∀ e ∈ eps, ∃ h, h.dst = BitVec.ofNat 10 (epDevice m e) ∧ Msg.sendReady h
    { word := word, tag := o.capB.setWidth 32, image := (imageOf v).length, endpoint := e, sender := BitVec.ofNat 10 m.deviceNo, core := core,
      entry := n, gtag := root.gtag } ∈ t.wire ++ t.outbox) ∧
  (∀ l, t.read l = m.read l)
/-- The object of an update stands where the update names it: in a seat of the launch, in place and resident (14 R276). -/
def InPlace (s : State) (lid : Word) (u : BarUpd) : Prop :=
  ∃ l st, s.m.launch? lid = some l ∧ l.phase ≠ .swapped ∧ (∀ x ∈ l.oldSeats, x.no ≠ u.seat) ∧ l.seats.find? (·.no == u.seat) = some st ∧
    st.resident = true ∧ u.key = scratchKey st.core (st.base + u.regionOff)
/-- The object of an update is not resident: its launch is out, or its seat has not been claimed again, or is not resident yet (14 R276). -/
def Away (s : State) (lid : Word) (u : BarUpd) : Prop :=
  ∃ l, s.m.launch? lid = some l ∧ (l.phase = .swapped ∨ (∃ x ∈ l.oldSeats, x.no = u.seat) ∨
    ∃ st, l.seats.find? (·.no == u.seat) = some st ∧ st.resident = false)
/-- Nothing of its context holds an update back: a BARRIVE follows every earlier access but a prefetch, a BEXPECT those to its object and those that put
it after them (14 R262, R265). -/
def UpdateDue (c : Ctx) (u : BarUpd) : Prop :=
  (u.expect = false → ∀ a ∈ c.out, a.isPrefetch = true) ∧ (u.expect = true → ∀ a ∈ c.out, a.blocksLater = false ∧ ∀ l ∈ a.locs, l ∉ keyLocs u.key)
/-- FAULT_INFO of an update that overruns its object: arrivals before bytes, with the count that would result (14 R274). -/
def overrun (o : BarObj) (u : BarUpd) : Option Word :=
  let info (bytes : Nat) (total : Nat) : Word := BitVec.ofNat 64 (bytes + total % 2 ^ 32 * 2 ^ 32)
  if u.expect then (if u.bytes < o.bytes then some (info 1 o.bytes) else none)
  else if o.expArr < o.arr + u.arrivals then some (info 0 (o.arr + u.arrivals))
  else if o.expBytes < o.bytes + u.bytes then some (info 1 (o.bytes + u.bytes)) else none
/-- An object after an update: with both counts as expected, the phase flips and they restart (14 R274). -/
def updated (o : BarObj) (u : BarUpd) : BarObj :=
  let x := if u.expect then { o with expBytes := u.bytes } else { o with arr := o.arr + u.arrivals, bytes := o.bytes + u.bytes }
  if x.arr = x.expArr ∧ x.bytes = x.expBytes then { x with phase := !x.phase, arr := 0, bytes := 0 } else x
/-- The machine after a launch has completed: record and notice, what it held released, its queue's horizon, the failure index and the
frozen flag of a failed one, where its queue's entry can be read (log 96), and its root free (18 R351, R352). -/
def completed (m : Mach) (l : Launch) : Mach :=
  let q := lidQueue l.lid
  let h := raiseHorizon (releaseHeld (recordDone m l) l) q
  let f := if h.qGet q 40 8 = 2 ^ 64 - 1 then h.qPut q 40 8 (lidIndex l.lid) else h
  let g := if h.qFailure q = none then f.qSetFlag q 2 true else h.logQueue q
  ((if l.phase = .failing then g else h).modDie l.home fun d => { d with reqs := d.reqs.filter fun r => r.lid != l.lid }).setRoot
    l.domain {}
/-- The completion record of a launch (05 Table 05-4). -/
def recordOf (m : Mach) (l : Launch) : List Byte :=
  let failed := l.phase = .failing
  [(if failed then (if l.cancelled then 3 else 2) else 1 : Byte), if failed then l.failCause else 0, BitVec.ofNat 8 l.domain, 0, 0, 0, 0, 0] ++
    leBytes 8 l.lid.toNat ++ leBytes 8 (if failed then l.failCause.toNat + l.failCtxs * 2 ^ 8 + l.failCore.toNat * 2 ^ 24 else 0) ++
    leBytes 8 m.time.toNat
/-- Claims wait for gated cores, whose wake they have brought about (18 R356). -/
def Woken (s t : State) (cores : List Nat) : Prop :=
  t.m = { s.m with cores := t.m.cores } ∧
  ∀ k, t.m.core k = if k ∈ cores ∧ (s.m.core k).gated = true then { s.m.core k with waking := true } else s.m.core k
/-- What an accumulated weight is worth, in units of the smallest scale (15 R281, R282). -/
def worth (acc : Mp Nat) : Nat := ((upFrom 0 16).map fun t => mget 0 acc t * 2 ^ (59 * (15 - t))).sum
/-- The head of queue `q` is what its die decides next. -/
def DecidedNext (s : State) (die : BitVec 2) (q : BitVec 12) (no : HwSlot) (i : Nat) (bs : List Byte) : Prop :=
  decision s.m die.toNat = some no ∧ no.q = q.toNat ∧ headOf s.m q.toNat = some (i, bs)
/-- The machine after a port has accepted the flits of a message that a link brings, with the acknowledgement they carry (16 R306); the
sequence numbers of its link that it will give again are no longer kept (15 R288; log 58). -/
def received (s : State) (x : Msg) : Mach :=
  match inPort s.m x with
  | some (p, q) =>
    let n := (q.rxSeq + x.flitCount) % 4096
    let m := { s.m.setPort p { q with rxSeq := n, rxAny := true } with
      seen := s.m.seen.filter fun y => !(y.port == portKey p && y.life == q.life && decide (2048 < (n + 4096 - y.seq) % 4096)) }
    match s.m.rx.bind (·.ack) with | some a => linkIdle m p true a | none => m
  | none => s.m
/-- A message with weight that is accepted leaves its link sequence number: port, link and number of its first flit (15 R288). -/
def kept (s : State) (x : Msg) : Mach :=
  { received s x with
    seen := ((if x.isWeighted then inPort s.m x else none).map fun pq => ⟨portKey pq.1, pq.2.life, pq.2.rxSeq⟩).toList ++ (received s x).seen }
/-- A link brings the message: its arrival names a port, or it is one of another device (16 R306, log 58). -/
def ByLink (s : State) (x : Msg) : Prop := s.m.rx ≠ none ∨ x.hdr.src.toNat ≠ s.m.deviceNo
/-- The class of a message is one its link has not negotiated (16 R308). -/
def unnegotiated (s : State) (x : Msg) : Bool := (inPort s.m x).any fun pq => pq.2.version = 1 && decide (8 ≤ x.cls)
/-- A message has reached its device, which acts on it over the machine `m`: one of its own, or one that a link brings in sequence, that
the link may carry and, where it carries weight, that is no second copy: one sent again whose first copy's link sequence number is kept (15 R288,
16 R306, R308; log 58). -/
def Accepted (s : State) (x : Msg) (m : Mach) : Prop :=
  (¬ByLink s x ∧ m = s.m) ∨
  (ByLink s x ∧ outOfSequence s.m = false ∧ x.hdr.dst.toNat = s.m.deviceNo ∧ unnegotiated s x = false ∧
    (x.isWeighted = true → repeated s.m = false) ∧ m = kept s x)
/-- What a thief does with one stolen record (05 R97): its launch of the tag and kernel lists it, its weight the victim's, or it goes back. -/
def stolen (victim : BitVec 10) (tag : BitVec 32) (m : Mach) (r : List Byte) : Mach :=
  match m.launches.find? fun l => l.podTag == tag && l.phase != .failing && l.kernel.handle == Config.victimKernel victim.toNat (fld r 7 1) with
  | some l => m.modLaunch l.lid fun l =>
      { l with msgs := l.msgs ++ [taskOfRecord r ⟨victim.toNat, BitVec.ofNat 8 (fld r 7 1), Config.victimTag victim.toNat (fld r 7 1)⟩ false] }
  | none => m.post victim.toNat fun h => .tileRecordMessage h victim r
/-- An unsupported access stands in the error log of die 0 (16 R315; its fields are the model's choice, log 65). -/
def loggedNo (m : Mach) (a : Nat) : Mach := m.logErr 0 (BitVec.ofNat 64 a) 0xFF 0xFF 0 0
/-- The link message that an event delivers. -/
def messageOf : Instr → Option Msg
  | .read h sp n a => some (.read h sp n a)
  | .readAnswer h st n a l => some (.readAnswer h st n a l)
  | .write h sp n a k l => some (.write h sp n a k l)
  | .writeAnswer h st n a => some (.writeAnswer h st n a)
  | .atomic h op sc a x y => some (.atomic h op sc a x y)
  | .atomicAnswer h st a v => some (.atomicAnswer h st a v)
  | .sendReady h r => some (.sendReady h r)
  | .pull h f v n k g e t => some (.pull h f v n k g e t)
  | .pullData h v n k g e l => some (.pullData h v n k g e l)
  | .weightReturn h d m g w => some (.weightReturn h d m g w)
  | .activeMessage h l e v g k => some (.activeMessage h l e v g k)
  | .loadSummaryToken h t => some (.loadSummaryToken h t)
  | .stealRequest h r => some (.stealRequest h r)
  | .stealGrant h v t rs => some (.stealGrant h v t rs)
  | .tileRecordMessage h v r => some (.tileRecordMessage h v r)
  | .faultNotice n => some (.faultNotice n.hdr n.notice)
  | _ => none
/-- A host request ends with a completion of the bridge. -/
def ended (s : State) (m : Mach) (status : Nat) (data : List Byte) : State := put s (m.complete noTag status data)
/-- A context whose QW has paid the share that a spawn or a record carries (15 R286). -/
def paid (c : Ctx) : Ctx := { c with qw := ((splitWeight c.qw).map (·.1)).getD c.qw }
/-- A context runs a task from its entry point (04 R69, 05 R91). -/
def Started (c : Ctx) (l : Launch) (t : Task) : Prop :=
  c.life = .running ∧ c.handler = false ∧ c.pc = l.kernel.codeBase + BitVec.ofNat 64 (l.kernel.entries.getD t.entry 0) ∧
  c.regAt 1 = t.x.setWidth 64 ∧ c.regAt 2 = t.y.setWidth 64 ∧ c.regAt 3 = t.z.setWidth 64 ∧ c.regAt 4 = t.word ∧
  (∀ n, 5 ≤ n → c.regAt n = 0) ∧ c.qw = t.weight
/-- A context stands at its handler's first bundle for a save or a restore (17 R340, R341). -/
def AtHandler (c : Ctx) (pc : Word) (info : Word) (k : EntryKind) : Prop :=
  c.life = .running ∧ c.handler = true ∧ c.pc = pc ∧ c.faultCause = 0x16 ∧ c.faultInfo = info ∧ c.entry = some k
/-- The request at a die's scheduler leaves it. -/
def served (d n : Nat) (m : Mach) : Mach := m.modDie d fun x => { x with reqs := x.reqs.eraseIdx n }
/-- The n-th request of a die is the first of its launch, and its context still waits for it. -/
def Waits (s : State) (d n : Nat) (r : SchedReq) (l : Launch) : Prop :=
  (s.m.die d).reqs[n]? = some r ∧ (∀ e ∈ (s.m.die d).reqs.take n, e.lid ≠ r.lid) ∧ s.m.launch? r.lid = some l ∧
  (s.m.ctx r.cx).await = some .asked
/-- A parked context issues again at FAULT_PC (18 R358). -/
def resumed (c : Ctx) : Ctx :=
  { c.applyAllFrozen with
    life := if c.drains then .draining else .running, drains := false, pc := c.faultPc, missed := false, walkFail := none, await := none,
    stalled := false, blocked := false }
/-- The header of an answer (16 R305). -/
def back (h : MsgHdr) : MsgHdr := ⟨h.dst, h.src, h.tag⟩
/-- The bytes [a, a + n) may be accessed by another agent of the device (16 R311). -/
def OuterOk (m : Mach) (a n : Nat) (rd wr : Bool) : Prop := memStatus m a n rd wr = (0, none)

end Sys2Proof.Claims

open Sys2Proof Sys2Proof.Machine Sys2Proof.Safety Sys2Proof.Claims

/-- R128 with R122: a register-register operation has format XR with fn zero and its opcode; it retires and writes its result at its
latency, and nothing else. -/
def Obligations.RegisterRegister : Prop :=
  ∀ row ∈ rrTable, ∀ sd sa sb s, Solo s → Free s (reg s sa) → Free s (reg s sb) → Free s (reg s sd) →
    encode (row.1 sd sa sb) = some (.x, (xr row.2.1 sd sa sb 0).setWidth 64) ∧
    ∃ t, exec (row.1 sd sa sb) s = .next t ∧ WritesX s t (reg s sd).dest? row.2.2.1 (row.2.2.2 ((me s).s sa) ((me s).s sb))

/-- R124, first two rows: while a source or the destination of a register-register or immediate form is pending, the bundle
stalls and nothing of it happens. -/
def Obligations.PendingStalls : Prop :=
  (∀ row ∈ rrTable, ∀ sd sa sb s, Solo s → (¬Free s (reg s sa) ∨ ¬Free s (reg s sb) ∨ ∃ r, (reg s sd).dest? = some r ∧ ¬Free s r) →
    exec (row.1 sd sa sb) s = .next (waiting true s)) ∧
  (∀ row ∈ immTable, ∀ sd sa imm s, Solo s → (¬Free s (reg s sa) ∨ ∃ r, (reg s sd).dest? = some r ∧ ¬Free s r) →
    exec (row.1 sd sa imm) s = .next (waiting true s))

/-- R130, R131, R132, R135: immediates, LI, LIH, SEL and LEA. -/
def Obligations.ImmediateForms : Prop :=
  (∀ row ∈ immTable, ∀ sd sa imm s, Solo s → Free s (reg s sa) → Free s (reg s sd) →
    ∃ t, exec (row.1 sd sa imm) s = .next t ∧ WritesX s t (reg s sd).dest? row.2.1 (row.2.2 ((me s).s sa) (imm.signExtend 64))) ∧
  (∀ sd imm s, Solo s → Free s (reg s sd) →
    ∃ t, exec (.li sd imm) s = .next t ∧ WritesX s t (reg s sd).dest? 1 (imm.signExtend 64)) ∧
  (∀ sd imm s, Solo s → Free s (reg s sd) →
    ∃ t, exec (.lih sd imm) s = .next t ∧ WritesX s t (reg s sd).dest? 1 (((me s).s sd <<< 18) ||| imm.setWidth 64)) ∧
  (∀ sd p sa sb s, Solo s → Free s (reg s sa) → Free s (reg s sb) → Free s (reg s sd) → Free s (pref p) →
    ∃ t, exec (.sel sd p sa sb) s = .next t ∧
      WritesX s t (reg s sd).dest? 1 (if (me s).p p then (me s).s sa else (me s).s sb)) ∧
  (∀ sd sa sb n s, Solo s → Free s (reg s sa) → Free s (reg s sb) → Free s (reg s sd) →
    ∃ t, exec (.lea sd sa sb n) s = .next t ∧ WritesX s t (reg s sd).dest? 1 ((me s).s sa + ((me s).s sb <<< n.toNat)))

/-- R129: CLZ, CTZ and POPC write the counts of leading zeros, trailing zeros and ones, 64 for CLZ and CTZ of zero; their encodings. -/
def Obligations.CountBits : Prop :=
  ∀ sd sa s, Solo s → Free s (reg s sa) → Free s (reg s sd) →
    encode (.clz sd sa) = some (.x, (xr 0x14 sd sa 0 0).setWidth 64) ∧ encode (.ctz sd sa) = some (.x, (xr 0x15 sd sa 0 0).setWidth 64) ∧
    encode (.popc sd sa) = some (.x, (xr 0x16 sd sa 0 0).setWidth 64) ∧
    (∃ t n, exec (.clz sd sa) s = .next t ∧ WritesX s t (reg s sd).dest? 1 (BitVec.ofNat 64 n) ∧ n ≤ 64 ∧
      (∀ k, k < n → ((me s).s sa).getLsbD (63 - k) = false) ∧ (n < 64 → ((me s).s sa).getLsbD (63 - n) = true)) ∧
    (∃ t n, exec (.ctz sd sa) s = .next t ∧ WritesX s t (reg s sd).dest? 1 (BitVec.ofNat 64 n) ∧ n ≤ 64 ∧
      (∀ k, k < n → ((me s).s sa).getLsbD k = false) ∧ (n < 64 → ((me s).s sa).getLsbD n = true)) ∧
    (∃ t, exec (.popc sd sa) s = .next t ∧
      WritesX s t (reg s sd).dest? 1 (BitVec.ofNat 64 ((List.range 64).countP fun k => ((me s).s sa).getLsbD k)))

/-- R133, R134: compares and predicate operations write their predicate with latency 1; p0 takes none; their encodings. -/
def Obligations.ComparesAndPredicates : Prop :=
  (∀ row ∈ cmpTable, ∀ pd sa sb s, Solo s → Free s (reg s sa) → Free s (reg s sb) → Free s (pref pd) →
    ∃ t, exec (row.1 pd sa sb) s = .next t ∧ WritesX s t (pref pd).dest? 1 (bit (row.2.2 ((me s).s sa) ((me s).s sb))) ∧
      encode (row.1 pd sa sb) = some (.x, (xr row.2.1 (pd.setWidth 6) sa sb 0).setWidth 64)) ∧
  (∀ row ∈ cmpImmTable, ∀ pd sa imm s, Solo s → Free s (reg s sa) → Free s (pref pd) →
    ∃ t, exec (row.1 pd sa imm) s = .next t ∧ WritesX s t (pref pd).dest? 1 (bit (row.2.2 ((me s).s sa) (imm.signExtend 64))) ∧
      encode (row.1 pd sa imm) = some (.x, (xi row.2.1 (pd.setWidth 6) sa imm).setWidth 64)) ∧
  (∀ row ∈ predTable, ∀ pd pa pb s, Solo s → Free s (pref pa) → Free s (pref pb) → Free s (pref pd) →
    ∃ t, exec (row.1 pd pa pb) s = .next t ∧ WritesX s t (pref pd).dest? 1 (bit (row.2.2.2 ((me s).p pa) ((me s).p pb))) ∧
      encode (row.1 pd pa pb) =
        some (.x, (xr row.2.1 (pd.setWidth 6) (pa.setWidth 6) (if row.2.2.1 then 0 else pb.setWidth 6) 0).setWidth 64))

/-- R136: the scalar FP32 instructions over the low halves of their sources, with the upper half of a result zero. -/
def Obligations.ScalarFp32 : Prop :=
  (∀ row ∈ fpTable, ∀ sd sa sb s, Solo s → Free s (reg s sa) → Free s (reg s sb) → Free s (reg s sd) →
    ∃ t, exec (row.1 sd sa sb) s = .next t ∧
      WritesX s t (reg s sd).dest? row.2.1 (BitVec.ofNat 64 (f32c (row.2.2 (f32 ((me s).s sa).toNat) (f32 ((me s).s sb).toNat))))) ∧
  (∀ row ∈ fpUnTable, ∀ sd sa s, Solo s → Free s (reg s sa) → Free s (reg s sd) →
    ∃ t, exec (row.1 sd sa) s = .next t ∧ WritesX s t (reg s sd).dest? 8 (BitVec.ofNat 64 (f32c (row.2 (f32 ((me s).s sa).toNat))))) ∧
  (∀ row ∈ fpCmpTable, ∀ pd sa sb s, Solo s → Free s (reg s sa) → Free s (reg s sb) → Free s (pref pd) →
    ∃ t, exec (row.1 pd sa sb) s = .next t ∧
      WritesX s t (pref pd).dest? 4 (bit (row.2 (f32 ((me s).s sa).toNat) (f32 ((me s).s sb).toNat)))) ∧
  (∀ sd sa s, Solo s → Free s (reg s sa) → Free s (reg s sd) →
    (∃ t, exec (.ftoi sd sa) s = .next t ∧
      WritesX s t (reg s sd).dest? 4 (BitVec.ofInt 64 ((f32 ((me s).s sa).toNat).toIntSat (-(2 ^ 63)) (2 ^ 63 - 1)))) ∧
    (∃ t, exec (.itof sd sa) s = .next t ∧
      WritesX s t (reg s sd).dest? 4 (BitVec.ofNat 64 (f32c (fp32.round .rne (FV.ofInt ((me s).s sa).toInt))))))

/-- R137 with R102: each branch whose target is legal retires at its target, else at its successor, with its register written;
CALL and JMPR write the link, BDNZ the decremented counter. -/
def Obligations.Branches : Prop :=
  ∀ s, Solo s →
    (∀ d, LegalTarget s ((me s).pc + jump20 d) true →
      ∃ t, exec (.br d) s = .next t ∧ Retires .x (.br d) ((me s).pc + jump20 d) s s.m t) ∧
    (∀ p sense d, Free s (pref p) → ((me s).p p ≠ sense → LegalTarget s ((me s).pc + jump20 d) true) →
      ∃ t, exec (.brc p sense d) s = .next t ∧
        Retires .x (.brc p sense d) (if (me s).p p ≠ sense then (me s).pc + jump20 d else nextPc s .x) s s.m t) ∧
    (∀ sd imm, Free s (reg s sd) → ((me s).s sd - 1 ≠ 0 → LegalTarget s ((me s).pc + jump12 imm) true) →
      ∃ t, exec (.bdnz sd imm) s = .next t ∧
        Retires .x (.bdnz sd imm) (if (me s).s sd - 1 ≠ 0 then (me s).pc + jump12 imm else nextPc s .x) s
          (frozenIn s (reg s sd).dest? 1 ((me s).s sd - 1)) t ∧
        ∀ r, (reg s sd).dest? = some r → regOf (meIn s t) r = (me s).s sd - 1) ∧
    (∀ d, Free s (reg s 63) → LegalTarget s ((me s).pc + jump20 d) true →
      ∃ t, exec (.call d) s = .next t ∧
        Retires .x (.call d) ((me s).pc + jump20 d) s (frozenIn s (some (reg s 63)) 1 (nextPc s .x)) t ∧
        regOf (meIn s t) (reg s 63) = nextPc s .x) ∧
    (∀ sa, Free s (reg s sa) → LegalTarget s ((me s).s sa) false →
      ∃ t, exec (.ret sa) s = .next t ∧ Retires .x (.ret sa) ((me s).s sa) s s.m t) ∧
    (∀ sd sa, Free s (reg s sa) → Free s (reg s sd) → LegalTarget s ((me s).s sa) true →
      ∃ t, exec (.jmpr sd sa) s = .next t ∧
        Retires .x (.jmpr sd sa) ((me s).s sa) s (frozenIn s (reg s sd).dest? 1 (nextPc s .x)) t ∧
        ∀ r, (reg s sd).dest? = some r → regOf (meIn s t) r = nextPc s .x)

/-- R102: a taken branch to an illegal target has no effect but the BRANCH_TARGET fault, whose FAULT_ADDR is the target and
whose FAULT_INFO says which check failed: the code-map bit first, then, but for RET, the repeat mask; a map byte with an uncorrectable
error is a PROTECTION fault instead, and so is a header with one where the repeat mask is read (12 R222, R223, log 40). -/
def Obligations.IllegalTargets : Prop :=
  (∀ s l f, Solo s → (me s).issued = false → myLaunch s = some l →
    (∀ d, targetFault s.m l ((me s).pc + jump20 d) true = some f →
      exec (.br d) s = .next (trapped .x f s) ∧ (Free s (reg s 63) → exec (.call d) s = .next (trapped .x f s)) ∧
      ∀ p sense, Free s (pref p) → (me s).p p ≠ sense → exec (.brc p sense d) s = .next (trapped .x f s)) ∧
    (∀ sd imm, Free s (reg s sd) → (me s).s sd - 1 ≠ 0 → targetFault s.m l ((me s).pc + jump12 imm) true = some f →
      exec (.bdnz sd imm) s = .next (trapped .x f s)) ∧
    (∀ sd sa, Free s (reg s sa) → Free s (reg s sd) → targetFault s.m l ((me s).s sa) true = some f →
      exec (.jmpr sd sa) s = .next (trapped .x f s)) ∧
    (∀ sa, Free s (reg s sa) → targetFault s.m l ((me s).s sa) false = some f → exec (.ret sa) s = .next (trapped .x f s))) ∧
  (∀ m l a rep f, targetFault m l a rep = some f ↔
    (codeBitErr m l a.toNat = true ∧ f = { cause := 0x0A, addr := a, info := 6 }) ∨
    (codeBitErr m l a.toNat = false ∧ codeBit m l a.toNat = false ∧ f = { cause := 0x03, addr := a, info := 0 }) ∨
    (codeBitErr m l a.toNat = false ∧ codeBit m l a.toNat = true ∧ rep = true ∧ m.devErr a.toNat 4 = true ∧
      f = { cause := 0x0A, addr := a, info := 6 }) ∨
    (codeBitErr m l a.toNat = false ∧ codeBit m l a.toNat = true ∧ rep = true ∧ m.devErr a.toNat 4 = false ∧
      (decodeHeader (BitVec.ofNat 32 (m.devNat a.toNat 4))).rep ≠ 0 ∧ f = { cause := 0x03, addr := a, info := 1 }))

/-- R138: END retires its bundle without moving the pc, and the context drains.  Its core's turn ends the drain once every operation of it
has completed and no register is pending (log 74): the context is released, its QW returns to its root, its pins go, and it is free. -/
def Obligations.EndDrains : Prop :=
  (∀ s, Solo s → ∃ t, exec .endTask s = .next t ∧ OnlyCtx s t ∧
    meIn s t = { settled (me s) (me s).pc with life := .draining }) ∧
  (∀ s rest k cx, s.agenda = .issue k :: rest → s.m.ready = true → k < 160 → (s.m.core k).gated = false → (s.m.core k).inReset = false →
    (turnOrder (s.m.core k)).head? = some (cx % 8) → coreOf cx = k → (s.m.ctx cx).life = .draining → nextEvent (s.m.ctx cx) = none →
    (∀ o ∈ (s.m.core k).ops, o.cx ≠ cx) → (s.m.ctx cx).pend = [] → (s.m.ctx cx).engFault = [] →
    step s = .next { s with agenda := rest, m := aftermath (afterReturn (releaseCtx (tick s.m) cx false) cx) }) ∧
  (∀ m cx, (m.ctx cx).life = .draining → (m.ctx cx).out = [] → (∀ o ∈ (m.core (coreOf cx)).ops, o.cx ≠ cx) → (m.ctx cx).engFault = [] →
    (∀ l, m.launchOf cx = some l → shadowCount m (m.ctx cx).shadow = 0 ∨ shadowOwn m (m.ctx cx).shadow l.lid l.gtag = false) →
    let c := m.ctx cx
    let t := releaseCtx m cx false
    t.ctx cx = { c.freed with life := .free, pins := [] } ∧ (t.ctx cx).qw = 0 ∧ (t.ctx cx).pins = [] ∧
    (∀ j, j ≠ cx → t.ctx j = m.ctx j) ∧ (∀ l, t.read l = m.read l) ∧
    (∀ n ∈ c.pins, ∀ x, mget? t.l2 n = some x → cx ∉ x.pins) ∧
    (c.qwRoot.device = m.deviceNo → ∀ d, (t.die d).rootQ = (m.die d).rootQ ++
      (if wAmount c.qw ≠ 0 ∧ c.qwRoot.domain.toNat / 64 = d then [.ret (c.qwRoot.domain.toNat % 64) c.qwRoot.gtag c.qw] else [])))

/-- R139 with R333 and Table 17-1: TRAP and BKPT have no effect but their fault; in task mode with a handler the context enters it
with the cause, the immediate in FAULT_INFO, the bundle's address in FAULT_PC and bit 0 alone in FAULT_SLOTS, its frozen
writes applied, its handler latches empty, and nothing else of the machine moves but its core's waiting list and turn. -/
def Obligations.TrapsEnterHandler : Prop :=
  ∀ s imm, Solo s → ∀ row ∈ [(Instr.trap imm, (0x17 : BitVec 8)), (Instr.bkpt imm, 0x18)],
    exec row.1 s = .next (trapped .x { cause := row.2, info := imm.setWidth 64 } s) ∧
    ∀ h t, HasHandler s h → (me s).handler = false → exec row.1 s = .next t →
      t.issue = {} ∧ t.agenda = s.agenda ∧ (∀ l, t.m.read l = s.m.read l) ∧
      (∀ j, j ≠ s.issue.cx → t.m.ctx j = s.m.ctx j) ∧ t.m.launches = s.m.launches ∧ t.m.dies = s.m.dies ∧
      (∀ k, t.m.core k = { s.m.core k with waiters := (t.m.core k).waiters, yielded := (t.m.core k).yielded }) ∧
      t.m = { s.m with ctxs := t.m.ctxs, cores := t.m.cores } ∧
      meIn s t = { (me s).applyAllFrozen with
        faultCause := row.2, faultField := 0, faultSlots := 1, faultPc := (me s).pc, faultAddr := 0, faultInfo := imm.setWidth 64,
        latchH := [], handler := true, pc := h, entry := some .other, drains := (me s).life == .draining, drainPc := (me s).pc,
        life := .running, bwait := none, idleAt := none, idleMet := false, stalled := false, blocked := false, missed := false,
        walkFail := none, await := none, awaitX := none, issued := false, held := none, consts := [], barrier := none,
        qwaits := false }

/-- R140: WAITK retires once every token it names is done, and holds the bundle back until then; k0 names none, and a token that
nothing has set is done; its encoding. -/
def Obligations.WaitkTokens : Prop :=
  ∀ s ka kb kc, Solo s →
    (waitsFor s [ka, kb, kc] = false → ∃ t, exec (.waitk ka kb kc) s = .next t ∧ Retires .x (.waitk ka kb kc) (nextPc s .x) s s.m t) ∧
    (waitsFor s [ka, kb, kc] = true → exec (.waitk ka kb kc) s = .next (waiting true s)) ∧
    (me s).token 0 = 0 ∧ (∀ k, mget? (me s).tokens k = none → (me s).token k = 0) ∧
    encode (.waitk ka kb kc) = some (.x, (xr 0x69 (ka.setWidth 6) (kb.setWidth 6) (kc.setWidth 6) 0).setWidth 64)

/-- R141: IDLE retires when its condition holds at issue, or was met while its bundle waited for an answer, else the context waits,
idle, for the line or the queue it names; a line of a core under reset is a TARGET_RESET fault, an address outside the apertures, or
beyond the reservation or the seat it names, a PROTECTION fault; so is an entry of the queue table that cannot be read (12 R222, R235; log 40). -/
def Obligations.IdleWaits : Prop :=
  (∀ s sa k rest, Solo s → Free s (reg s sa) → scratchAt s.m s.issue.cx ((me s).s sa).toNat 1 false = .locs (.scratch k :: rest) →
    (underReset s.m s.issue.cx (.scratch k :: rest) = true → (me s).idleMet = false →
      exec (.idleF sa) s = .next (trapped .x { cause := 0x10, addr := (me s).s sa } s)) ∧
    (underReset s.m s.issue.cx (.scratch k :: rest) = false → (∀ a ∈ (me s).out, ∀ b, a.kind ≠ .setFull (lineOfKey k) b) →
    ((me s).idleMet = true ∨ ((me s).idleAt = none ∧ s.m.fullAt (lineOfKey k) = true) →
      ∃ t, exec (.idleF sa) s = .next t ∧ Retires .x (.idleF sa) (nextPc s .x) s s.m t) ∧
    ((me s).idleMet = false → ((me s).idleAt ≠ none ∨ s.m.fullAt (lineOfKey k) = false) → exec (.idleF sa) s =
      .next (waiting false (withCtx s fun c => { c with idleAt := some (lineOfKey k) }))))) ∧
  (∀ s sa f, Solo s → Free s (reg s sa) → (me s).idleMet = false →
    (ApertureFault s ((me s).s sa).toNat 1 false f ∨ NoAperture ((me s).s sa).toNat false f) →
    exec (.idleF sa) s = .next (trapped .x f s)) ∧
  (∀ s sa sb, Solo s → Free s (reg s sa) → Free s (reg s sb) →
    let q := ((me s).s sa).toNat % 4096
    ((me s).idleMet = true ∨ ((me s).idleAt = none ∧ s.m.qFailure q = none ∧ s.m.qGet q 16 8 ≠ ((me s).s sb).toNat) →
      ∃ t, exec (.idleN sa sb) s = .next t ∧ Retires .x (.idleN sa sb) (nextPc s .x) s s.m t) ∧
    ((me s).idleMet = false → ((me s).idleAt ≠ none ∨ (s.m.qFailure q = none ∧ s.m.qGet q 16 8 = ((me s).s sb).toNat)) →
      exec (.idleN sa sb) s = .next (waiting false (withCtx s fun c => { c with idleAt := some (2 ^ 32 + q) }))) ∧
    (∀ x, (me s).idleMet = false → (me s).idleAt = none → s.m.qFailure q = some x → exec (.idleN sa sb) s =
      .next (trapped .x { cause := BitVec.ofNat 8 x.2.1, addr := BitVec.ofNat 64 x.1, info := BitVec.ofNat 64 x.2.2 } s)))

/-- R142, R143: SYSR retires with its register pending for the value of the selector; SYSW in handler mode writes the register, and
a read-only one is left alone.  That all 64 bits of FAULT_INFO read back, those Table 02-6 reserves too, is the model's choice (DEDUCED,
log 92). -/
def Obligations.SystemRegisters : Prop :=
  (∀ s sd sel, Solo s → Open s (reg s sd) →
    ∃ t, exec (.sysr sd sel) s = .next t ∧
      Retires .x (.sysr sd sel) (nextPc s .x) s (gives s (reg s sd) (sysValue s.m s.issue.cx sel)) t) ∧
  (∀ s sd sel, Solo s → (me s).handler = true → Free s (reg s sd) →
    ∃ t, exec (.sysw sd sel) s = .next t ∧
      Retires .x (.sysw sd sel) (nextPc s .x) s (sysWrite s.m s.issue.cx sel ((me s).s sd)) t) ∧
  (∀ m cx v, (∀ sel ∈ readOnly, sysWrite m cx sel v = m) ∧
    sysValue (sysWrite m cx 0x01 v) cx 0x01 = v &&& 0xFF ∧ sysValue (sysWrite m cx 0x04 v) cx 0x04 = v ∧
    sysValue (sysWrite m cx 0x05 v) cx 0x05 = v ∧ sysValue (sysWrite m cx 0x06 v) cx 0x06 = v ∧
    sysValue (sysWrite m cx 0x20 v) cx 0x20 = v ∧ sysValue (sysWrite m cx 0x25 v) cx 0x25 = v &&& ~~~0x3F ∧
    sysValue (sysWrite m cx 0x00 v) cx 0x00 = ((v &&& 0xB0) ||| (if (m.ctx cx).handler then 1 else 0)))

/-- R142, R144 to R146: in task mode every handler-only instruction faults with PRIVILEGE and has no other effect. -/
def Obligations.PrivilegeInTaskMode : Prop :=
  ∀ s sd sa sb sel, Solo s → (me s).handler = false → ∀ i ∈ handlerOnlyInstrs sd sa sb sel,
    exec i s = .next (trapped .x { cause := 0x12 } s)

/-- R145: TRET from an ordinary handler entry returns to task mode at FAULT_PC, or past the bundle there, with the frozen writes
applied and the FAULT registers, bobbins, task latches and handler bank as they were; a header there with an uncorrectable error is a
PROTECTION fault (12 R223).  From an entry taken while the context drained it goes back to the drain, at the END bundle (17 R334, 07
R138), with no check of its target, which it does not go to: that is the model's choice (DEDUCED, log 24). -/
def Obligations.ReturnFromHandler : Prop :=
  ∀ s, Solo s → (me s).handler = true → (me s).entry = some .other → HandlerOpsDone s →
    (∀ l sr, myLaunch s = some l → l.seatOf s.issue.cx = some sr → sr.resident = true) →
    ((me s).drains = false → (me s).issued = false → s.m.devErr (me s).faultPc.toNat 4 = true →
      exec .tretSkip s = .next (trapped .x { cause := 0x0A, addr := (me s).faultPc, info := 6 } s)) ∧
    ∀ row ∈ [(Instr.tret, (me s).faultPc),
             (Instr.tretSkip, (me s).faultPc +
               BitVec.ofNat 64 (bundleLength (decodeHeader (BitVec.ofNat 32 (s.m.devNat (me s).faultPc.toNat 4)))))],
      ((me s).drains = false → LegalTarget s row.2 false ∧ (row.1 = .tretSkip → s.m.devErr (me s).faultPc.toNat 4 = false)) →
      ∃ t, exec row.1 s = .next t ∧ OnlyCtx s t ∧
        meIn s t = { (settled (me s) row.2).applyAllFrozen with
          handler := false, pc := if (me s).drains then (me s).drainPc else row.2, entry := none, life := if (me s).drains then .draining else .running, drains := false,
          leaveAt := none }

/-- R144 with R124: CTXR retires with its register pending for the item, zero where the selector names none; CTXW writes the item,
and nothing where it names none. -/
def Obligations.ContextItems : Prop :=
  (∀ s sd sa, Solo s → (me s).handler = true → Free s (reg s sa) → Open s (reg s sd) →
    (∀ it, ctxItem ((me s).s sa) = some it → ∀ r ∈ it.regs, Free s r) →
    ∃ t, exec (.ctxr sd sa) s = .next t ∧ Retires .x (.ctxr sd sa) (nextPc s .x) s
      (gives s (reg s sd) (((ctxItem ((me s).s sa)).map (me s).item).getD 0)) t) ∧
  (∀ s sa sb, Solo s → (me s).handler = true → Free s (reg s sa) → Free s (reg s sb) →
    (∀ it, ctxItem ((me s).s sa) = some it → ∀ r ∈ it.regs, Free s r) → BankIdle s (ctxItem ((me s).s sa)) →
    ∃ t, exec (.ctxw sa sb) s = .next t ∧ Retires .x (.ctxw sa sb) (nextPc s .x) s
      (match ctxItem ((me s).s sa) with
        | some it => s.m.modCtx s.issue.cx fun c => c.setItem it ((me s).s sb)
        | none => s.m) t) ∧
  (∀ (c : Ctx) i v, c.regAt i = (c.item (.reg i)) ∧ (0 < i → (c.setItem (.reg i) v).item (.reg i) = v) ∧
    (c.setItem (.typeHalf i) v).item (.typeHalf i) = (TW.canon (let w := (c.tile (i / 2)).word
      if i % 2 = 0 then w.extractLsb' 64 64 ++ v else v ++ w.extractLsb' 0 64)).extractLsb' (64 * (i % 2)) 64 ∧ (c.setItem .tokens v) = c)

/-- R146 with 17 R344: EQREPLAY on a misaligned block is an ALIGNMENT fault, on a bad block the fault of its check; on a good block the
bundle issues, and every entry queues from the first on while its queue has room, else the context waits and goes on where it stood; the
weights of an entry that is not valid return; an operation queued again gives its td the word captured at issue where nothing has written
that since the restore (the model's choice, log 97); an entry that cannot be read any more is the bundle's fault (log 57); the last entry's
queueing clears the block's count and answers the bundle, which retires with the number of entries for sd. -/
def Obligations.ReplayQueues : Prop :=
  (∀ s sd sa, Solo s → (me s).handler = true → Free s (reg s sa) → Open s (reg s sd) →
    ((me s).awaitX = none → (me s).issued = false → ((me s).s sa).toNat % 64 ≠ 0 →
      exec (.eqreplay sd sa) s = .next (trapped .x { cause := 0x08, addr := (me s).s sa } s)) ∧
    (∀ f, (me s).awaitX = none → (me s).issued = false → ((me s).s sa).toNat % 64 = 0 →
      shadowFault s.m ((me s).s sa) (me s).shadow ((me s).launch.getD 0) = some f →
      exec (.eqreplay sd sa) s = .next (trapped .x f s)) ∧
    ((me s).awaitX = none → ((me s).s sa).toNat % 64 = 0 → shadowFault s.m ((me s).s sa) (me s).shadow ((me s).launch.getD 0) = none →
      exec (.eqreplay sd sa) s = .next (asked s (replayStep s.m s.issue.cx ((me s).s sa)))) ∧
    ((me s).awaitX = some .asked ∨ ((me s).awaitX = none ∧ (me s).issued = true) → exec (.eqreplay sd sa) s = .next (asked s (replayStep s.m s.issue.cx ((me s).s sa)))) ∧
    (∀ f, (me s).awaitX = some (.faulted f) → exec (.eqreplay sd sa) s = .next (trapped .x f s)) ∧
    (∀ ok refused n, (me s).awaitX = some (.answered ok refused n) →
      ∃ t, exec (.eqreplay sd sa) s = .next t ∧ Retires .x (.eqreplay sd sa) (nextPc s .x) s (gives s (reg s sd) n) t)) ∧
  (∀ m cx blk n q n' q' m', (m.ctx cx).replay.getD (0, 0) = (n, q) →
    replayFrom cx blk (fld (m.devRead blk.toNat 2) 0 2) 113 m n q = (m', n', q') →
    (fld (m.devRead blk.toNat 2) 0 2 ≤ n' → ((replayStep m cx blk).ctx cx).awaitX = some (.answered true false (BitVec.ofNat 64 q')) ∧
      ((replayStep m cx blk).ctx cx).replay = none ∧ (replayStep m cx blk).mem = (m'.devPut blk.toNat 2 0).mem) ∧
    (n' < fld (m.devRead blk.toNat 2) 0 2 → ((replayStep m cx blk).ctx cx).replay = some (n', q') ∧
      ((replayStep m cx blk).ctx cx).awaitX =
        some (match shadowRead m' (shadowEntry blk n') 256 with | some f => .faulted f | none => .asked))) ∧
  (∀ m cx blk count fuel n q, n < count →
    let e := m.devRead (blk.toNat + 64 + 256 * n) 256
    (∀ f, shadowRead m (blk.toNat + 64 + 256 * n) 256 = some f → replayFrom cx blk count (fuel + 1) m n q = (m, n, q)) ∧
    (shadowRead m (blk.toNat + 64 + 256 * n) 256 = none →
      (fld e 0 1 % 2 = 0 → replayFrom cx blk count (fuel + 1) m n q =
        replayFrom cx blk count fuel (m.returnAll (m.ctx cx).qwRoot (entryWeights e)) (n + 1) q) ∧
      ∀ o, fld e 0 1 % 2 = 1 → opOfEntry (m.ctx cx) cx e = some o →
        (m.queueRoom cx o.q = true →
          replayFrom cx blk count (fuel + 1) m n q = replayFrom cx blk count fuel (m.requeue o) (n + 1) (q + 1)) ∧
        (m.queueRoom cx o.q = false → replayFrom cx blk count (fuel + 1) m n q = (m.addWaiter cx o.q, n, q)))) ∧
  (∀ (m : Mach) (o : EOp) t, (opUses o.instr).td = some t →
    (((m.enqueue o).ctx o.cx).tile t).gen = 0 →
      (m.requeue o).ctx o.cx = ((m.enqueue o).ctx o.cx).deliverWord t (o.types.getD 0 0)) ∧
  (∀ (m : Mach) (o : EOp), (∀ t, (opUses o.instr).td = some t → (((m.enqueue o).ctx o.cx).tile t).gen ≠ 0) →
    (m.requeue o).ctx o.cx = (m.enqueue o).ctx o.cx ∧ ((m.requeue o).core (coreOf o.cx)).ops = ((m.enqueue o).core (coreOf o.cx)).ops)

/-- 08 R159 with 02 R17, R34, R39: TDECL, TDECLS and TCLEAR install their word, its unused bits zero, in a tile of the context with a new
generation, unless it is nonzero and fails its check, which is the fault; a tile outside the context's share is a BANK_GROUP fault.  That
the line of a type constant is not kept in the caches is the model's choice (DESIGN CHOICE, log 84), how its read fails log 23. -/
def Obligations.TypeInstalls : Prop :=
  (∀ s t idx w sa sb, Solo s → ConstIs s idx.toNat w → ¬OwnTile s t → ∀ row ∈ installs s t idx w sa sb, (∀ r ∈ row.2.2, Free s r) →
    exec row.1 s = .next (trapped .x (groupFault 0 (me s).tilesPer (t.toNat % 8)) s)) ∧
  ∀ s t idx w sa sb, Solo s → ConstIs s idx.toNat w → OwnTile s t → ∀ row ∈ installs s t idx w sa sb, (∀ r ∈ row.2.2, Free s r) →
    (row.2.1 = 0 ∨ (bobbinsOf s).checkWord row.2.1 = .ok () →
      ∃ u, exec row.1 s = .next u ∧
        Retires .x row.1 (nextPc s .x) s (s.m.modCtx s.issue.cx fun c => c.setWord t.toNat (TW.canon row.2.1)) u) ∧
    (∀ f, row.2.1 ≠ 0 → (bobbinsOf s).checkWord row.2.1 = .error f → exec row.1 s = .next (trapped .x f s))

/-- 08 R159: TGET, TEXT and TCHK write their register; TCHK with assert keeps its bindings or faults. -/
def Obligations.TypeReads : Prop :=
  (∀ s sd t high resolve, Solo s → OwnTile s t → Free s (reg s sd) →
    ∃ u, exec (.tget sd t high resolve) s = .next u ∧ WritesX s u (reg s sd).dest? 1
      ((if resolve then resolvedWord (bobbinsOf s) (wordOf s t) else wordOf s t).extractLsb' (if high then 64 else 0) 64)) ∧
  (∀ s sd t k frame, Solo s → OwnTile s t → Free s (reg s sd) →
    ∃ u, exec (.text sd t k frame) s = .next u ∧
      WritesX s u (reg s sd).dest? 1 (BitVec.ofNat 64 (textValue (me s) (wordOf s t) k.toNat frame))) ∧
  (∀ s pd t sb mask x env, Solo s → OwnTile s t → Free s (reg s sb) → Free s (pref pd) → ConstIs s ((me s).s sb).toNat x →
    tchkSeq (bobbinsOf s) x (wordOf s t) mask = .ok env →
    (∃ u, exec (.tchk pd t sb mask false) s = .next u ∧ WritesX s u (pref pd).dest? 1 1) ∧
    (∃ u, exec (.tchk pd t sb mask true) s = .next u ∧ Retires .x (.tchk pd t sb mask true) (nextPc s .x) s
      ((frozenIn s (pref pd).dest? 1 1).modCtx s.issue.cx fun c => c.bindAll env.t) u)) ∧
  (∀ s pd t sb mask x f, Solo s → OwnTile s t → Free s (reg s sb) → Free s (pref pd) → ConstIs s ((me s).s sb).toNat x →
    tchkSeq (bobbinsOf s) x (wordOf s t) mask = .error f →
    (∃ u, exec (.tchk pd t sb mask false) s = .next u ∧ WritesX s u (pref pd).dest? 1 0) ∧
    exec (.tchk pd t sb mask true) s = .next (trapped .x f s))

/-- 08 R159 with 02 R29: BIND binds a bobbin that is unbound or bound to the same value, and faults with SHAPE on another, or on a value that
no extent takes; UNBIND unbinds the bobbins of its mask; BGET reads the committed bobbin. -/
def Obligations.Bobbins : Prop :=
  (∀ s b sa, Solo s → Free s (reg s sa) → ((me s).s sa).toNat ≤ 0x7FFFFF →
    ((mget ({} : Bobbin) (me s).bobbins b.toNat).bound = true →
      (mget ({} : Bobbin) (me s).bobbins b.toNat).value.toNat = ((me s).s sa).toNat) →
    ∃ t, exec (.bind b sa) s = .next t ∧ Retires .x (.bind b sa) (nextPc s .x) s
      (s.m.modCtx s.issue.cx fun c =>
        { c with bobbins := mset c.bobbins b.toNat { bound := true, value := ((me s).s sa).setWidth 23 } }) t) ∧
  (∀ s b sa, Solo s → Free s (reg s sa) →
    let v := ((me s).s sa).toNat
    let old := mget ({} : Bobbin) (me s).bobbins b.toNat
    (0x7FFFFF < v → exec (.bind b sa) s = .next (trapped .x ((bobbinsOf s).fault fEXT0 0 (some b.toNat) 0x7FFFFF v) s)) ∧
    (v ≤ 0x7FFFFF → old.bound = true → old.value.toNat ≠ v →
      exec (.bind b sa) s = .next (trapped .x ((bobbinsOf s).fault fEXT0 0 (some b.toNat) old.value.toNat v) s))) ∧
  (∀ s mask, Solo s → ∃ t, exec (.unbind mask) s = .next t ∧ OnlyCtx s t ∧
    meIn s t = { settled (me s) (nextPc s .x) with bobbins := (meIn s t).bobbins } ∧
    ∀ i, i < 16 → mget ({} : Bobbin) (meIn s t).bobbins i = if mask.getLsbD i then {} else mget {} (me s).bobbins i) ∧
  (∀ s sd b, Solo s → Free s (reg s sd) →
    ∃ t, exec (.bget sd b) s = .next t ∧ OnlyCtx s t ∧
      meIn s t = match (reg s sd).dest? with
        | some r => (settled (me s) (nextPc s .x)).setRef r (bobbinWord (me s) b.toNat)
        | none => settled (me s) (nextPc s .x))

/-- 06 R108, 07 R147 and the NOP rows of Tables 06-9 to 06-11: a NOP of any slot retires with no effect. -/
def Obligations.NopsRetire : Prop :=
  ∀ s, Solo s → ∀ row ∈ [(Slot.x, Instr.nop), (.g, .gNop), (.v0, .vNop .p0), (.v1, .vNop .p1), (.m, .mNop), (.c, .cNop)],
    ∃ t, exec row.2 s = .next t ∧ Retires row.1 row.2 (nextPc s row.1) s s.m t

/-- 13 R237, R239: an aligned load whose address resolves retires with the access outstanding and its register pending. -/
def Obligations.Loads : Prop :=
  ∀ row ∈ loadTable, ∀ g s, Solo s → AddrFree s g → Open s (reg s g.sd) → numOf s g % row.2.2 = 0 →
    (∀ ls, namesAt s g row.2.2 .read = .locs ls →
      ∃ t, exec (row.1 g) s = .next t ∧ Retires .g (row.1 g) (nextPc s .g) s
        (outAfter s (reg s g.sd).dest?
          { uid := 0, kind := .load (reg s g.sd).dest? row.2.1 row.2.2, locs := ls, addr := addrOf s g, hint := g.hint }) t) ∧
    (∀ d o, namesAt s g row.2.2 .read = .notifyReg d o →
      ∃ t, exec (row.1 g) s = .next t ∧ Retires .g (row.1 g) (nextPc s .g) s (gives s (reg s g.sd) 0) t)

/-- 13 R237, R239, 14 R265: an aligned store or REL whose address resolves retires with the bytes of sd outstanding for the locations
of its address, or with a notify for a notify register. -/
def Obligations.Stores : Prop :=
  ∀ row ∈ storeTable, ∀ g s, Solo s → AddrFree s g → Free s (reg s g.sd) → numOf s g % row.2.1 = 0 →
    (∀ ls, namesAt s g row.2.1 .write = .locs ls →
      ∃ t, exec (row.1 g) s = .next t ∧ Retires .g (row.1 g) (nextPc s .g) s
        (outAfter s none { uid := 0, kind := .store (leBytes row.2.1 ((me s).s g.sd).toNat), locs := ls, addr := addrOf s g,
                           hint := if row.2.2 then 0 else g.hint, needsEarlier := row.2.2 }) t) ∧
    (∀ d o, namesAt s g row.2.1 .write = .notifyReg d o →
      ∃ t, exec (row.1 g) s = .next t ∧ Retires .g (row.1 g) (nextPc s .g) s
        (outAfter s none { uid := 0, kind := .notify d o row.2.1 ((me s).s g.sd), addr := addrOf s g, needsEarlier := row.2.2 }) t)

/-- 13 R237: a misaligned load, store, release or atomic is an ALIGNMENT fault with the address; an address that fails its region or
page check is the fault of that check, PROTECTION 4 or 5 for an aperture address beyond its reservation or seat; an atomic on a host page or
a notify register is PROTECTION 10 or 11; nothing else happens. -/
def Obligations.AccessFaults : Prop :=
  (∀ row ∈ loadTable, ∀ g s, Solo s → AddrFree s g → Open s (reg s g.sd) →
    (numOf s g % row.2.2 ≠ 0 → exec (row.1 g) s = .next (trapped .g { cause := 0x08, addr := addrOf s g } s)) ∧
    (∀ f, numOf s g % row.2.2 = 0 → (namesAt s g row.2.2 .read = .fault f ∨ ApertureFault s (numOf s g) row.2.2 false f) →
      exec (row.1 g) s = .next (trapped .g f s))) ∧
  (∀ row ∈ storeTable, ∀ g s, Solo s → AddrFree s g → Free s (reg s g.sd) →
    (numOf s g % row.2.1 ≠ 0 → exec (row.1 g) s = .next (trapped .g { cause := 0x08, addr := addrOf s g } s)) ∧
    (∀ f, numOf s g % row.2.1 = 0 → (namesAt s g row.2.1 .write = .fault f ∨ ApertureFault s (numOf s g) row.2.1 true f) →
      exec (row.1 g) s = .next (trapped .g f s))) ∧
  (∀ row ∈ atomicTable, ∀ g s, Solo s → AddrFree s g → Free s (reg s g.sd) →
    (row.2.1 = 0x19 → Free s (reg s (g.sd + 1))) → Open s (reg s g.sd) →
    (numOf s g % row.2.2 ≠ 0 → exec (row.1 g) s = .next (trapped .g { cause := 0x08, addr := addrOf s g } s)) ∧
    (∀ f, numOf s g % row.2.2 = 0 → (namesAt s g row.2.2 .write = .fault f ∨ ApertureFault s (numOf s g) row.2.2 true f) →
      exec (row.1 g) s = .next (trapped .g f s)) ∧
    (∀ d o, numOf s g % row.2.2 = 0 → namesAt s g row.2.2 .write = .notifyReg d o →
      exec (row.1 g) s = .next (trapped .g { cause := 0x0A, addr := addrOf s g, info := 27 } s)) ∧
    (∀ ls, numOf s g % row.2.2 = 0 → namesAt s g row.2.2 .write = .locs ls → reachesHost ls = true →
      exec (row.1 g) s = .next (trapped .g { cause := 0x0A, addr := addrOf s g, info := 26 } s)))

/-- 13 R240, 04 R77: LDP reads its window's parameter bytes; bytes beyond the bound read zero and set PARAM_BOUND; a window that is
unbound or no parameter window is a fault. -/
def Obligations.ParameterLoads : Prop :=
  ∀ g s, Solo s → Free s (reg s g.sa) → Open s (reg s g.sd) →
    let w := windowOf s g.hint
    let width := 2 ^ (g.sb.toNat % 4)
    let o := ((me s).s g.sa + (g.disp + s.issue.offset).signExtend 64).toNat
    let a := (w.base.toNat + o) % 2 ^ 64
    (w.access = 0 → exec (.ldp g) s = .next (trapped .g { cause := 0x06 } s)) ∧
    (w.access ≠ 0 → w.access ≠ 3 → exec (.ldp g) s = .next (trapped .g { cause := 0x07 } s)) ∧
    (∀ ls, w.access = 3 → o + width ≤ w.bound.toNat → resolveAt s.m s.issue.cx a width [.read] = .locs ls →
      ∃ t, exec (.ldp g) s = .next t ∧ Retires .g (.ldp g) (nextPc s .g) s
        (outAfter s (reg s g.sd).dest?
          { uid := 0, kind := .load (reg s g.sd).dest? (g.sb.getLsbD 2) width, locs := ls, addr := BitVec.ofNat 64 a }) t) ∧
    (∀ ls, w.access = 3 → o < w.bound.toNat → w.bound.toNat < o + width →
      resolveAt s.m s.issue.cx a (w.bound.toNat - o) [.read] = .locs ls →
      ∃ t, exec (.ldp g) s = .next t ∧ Retires .g (.ldp g) (nextPc s .g) s
        ((outAfter s (reg s g.sd).dest?
          { uid := 0, kind := .load (reg s g.sd).dest? false width, locs := ls, addr := BitVec.ofNat 64 a }).modCtx s.issue.cx
            Ctx.setParamBound) t) ∧
    (w.access = 3 → w.bound.toNat ≤ o →
      ∃ t, exec (.ldp g) s = .next t ∧
        Retires .g (.ldp g) (nextPc s .g) s ((gives s (reg s g.sd) 0).modCtx s.issue.cx Ctx.setParamBound) t)

/-- 13 R241, 14 R266: an aligned atomic on device memory retires with the operation outstanding and sd pending for the old value; a scope
of CORE or wider makes it a release and an acquire. -/
def Obligations.Atomics : Prop :=
  ∀ row ∈ atomicTable, ∀ g s ls, Solo s → AddrFree s g → Free s (reg s g.sd) →
    (row.2.1 = 0x19 → Free s (reg s (g.sd + 1))) → Open s (reg s g.sd) →
    numOf s g % row.2.2 = 0 → namesAt s g row.2.2 .write = .locs ls → reachesHost ls = false →
    ∃ t, exec (row.1 g) s = .next t ∧ Retires .g (row.1 g) (nextPc s .g) s
      (outAfter s (reg s g.sd).dest?
        { uid := 0, kind := .atomic row.2.1 (reg s g.sd).dest? ((me s).s g.sd) ((me s).s (g.sd + 1)), locs := ls, addr := addrOf s g,
          needsEarlier := wide g, blocksLater := wide g, dropL1 := wide g }) t

/-- 14 R265: FENCE is an access that waits for every earlier one and holds back every later one; DRAIN is that too, but stalls its
bundle while an engine operation or an access of the context but a prefetch is outstanding; ACQ reads its word, zero of a notify register, and holds back
every later access; a misaligned one, or one whose address fails its check, faults. -/
def Obligations.Ordering : Prop :=
  ∀ g s, Solo s →
    let fence : Access := { uid := 0, kind := .fence, needsEarlier := true, blocksLater := true, dropL1 := wide g }
    let busy := (∃ o ∈ (s.m.core (coreOf s.issue.cx)).ops, o.cx = s.issue.cx) ∨ ∃ a ∈ (me s).out, a.isPrefetch = false
    (∃ t, exec (.fence g) s = .next t ∧ Retires .g (.fence g) (nextPc s .g) s (outAfter s none fence) t) ∧
    (¬busy → ∃ t, exec (.drain g) s = .next t ∧ Retires .g (.drain g) (nextPc s .g) s (outAfter s none fence) t) ∧
    (busy → exec (.drain g) s = .next (waiting true s)) ∧
    (∀ ls, AddrFree s g → Open s (reg s g.sd) → numOf s g % 8 = 0 → namesAt s g 8 .read = .locs ls →
      ∃ t, exec (.acq g) s = .next t ∧ Retires .g (.acq g) (nextPc s .g) s
        (outAfter s (reg s g.sd).dest?
          { uid := 0, kind := .acquire (reg s g.sd).dest?, locs := ls, addr := addrOf s g, blocksLater := true, dropL1 := wide g }) t) ∧
    (∀ d o, AddrFree s g → Open s (reg s g.sd) → numOf s g % 8 = 0 → namesAt s g 8 .read = .notifyReg d o →
      ∃ t, exec (.acq g) s = .next t ∧ Retires .g (.acq g) (nextPc s .g) s
        (outAfter s (reg s g.sd).dest?
          { uid := 0, kind := .give (reg s g.sd).dest? 0, addr := addrOf s g, blocksLater := true, dropL1 := wide g }) t) ∧
    (AddrFree s g → Open s (reg s g.sd) → numOf s g % 8 ≠ 0 → exec (.acq g) s = .next (trapped .g { cause := 0x08, addr := addrOf s g } s)) ∧
    (∀ f, AddrFree s g → Open s (reg s g.sd) → numOf s g % 8 = 0 →
      (namesAt s g 8 .read = .fault f ∨ ApertureFault s (numOf s g) 8 false f) → exec (.acq g) s = .next (trapped .g f s))

/-- 13 R242 to R246, 14 R262: prefetches, invalidates and write-backs retire with their access to the HBM line of their address outstanding,
and do nothing where a check fails; INVL.ALL retires with the discard of the core's whole L1 outstanding; PIN retires with the pinning of its lines outstanding and its predicate pending, false at
once where the range reaches a host page; UNPIN retires with the release of the range's HBM lines outstanding; an unbound window, a
range past its bound, and a range past the global space fault. -/
def Obligations.LineInstructions : Prop :=
  (∀ g s, Solo s →
    (AddrFree s g → (globalTop ≤ numOf s g ∨ ∀ va, namesAt s g 1 .read ≠ .miss va) →
      ∀ row ∈ lineTable s g, ∃ t, exec row.1 s = .next t ∧
        Retires .g row.1 (nextPc s .g) s (match lineByte s g with | some pa => row.2 pa | none => s.m) t) ∧
    ∃ t, exec (.invlAll g) s = .next t ∧
      Retires .g (.invlAll g) (nextPc s .g) s (outAfter s none { uid := 0, kind := .invalidate none }) t) ∧
  (∀ g s, Solo s → AddrFree s g →
    (∀ ls, Open s (predOf g) → PinRange s g ls →
      ∃ t, exec (.pin g) s = .next t ∧ Retires .g (.pin g) (nextPc s .g) s
        (if ls.any isHost then gives s (predOf g) 0
         else outAfter s (predOf g).dest? { uid := 0, kind := .pin (pinLines s g ls) (maskOf s (windowOf s g.hint)) (predOf g).dest? }) t) ∧
    (∀ ls, PinRange s g ls → ∃ t, exec (.unpin g) s = .next t ∧ Retires .g (.unpin g) (nextPc s .g) s
        (outAfter s none { uid := 0, kind := .unpin (pinLines s g ls) }) t) ∧
    ∀ f, (let o := ((me s).s g.sa + g.disp.signExtend 64).toNat
          let n := ((me s).s g.sb).toNat
          let w := windowOf s g.hint
          (w.access = 0 ∧ f = { cause := 0x06 }) ∨
          (w.access ≠ 0 ∧ w.bound.toNat < o + n ∧ f = { cause := 0x07, addr := BitVec.ofNat 64 (pinAt s g) }) ∨
          (w.access ≠ 0 ∧ o + n ≤ w.bound.toNat ∧ globalTop < pinAt s g + n ∧ f = accFault 0x0A 3 false (pinAt s g))) →
      exec (.unpin g) s = .next (trapped .g f s) ∧ (Open s (predOf g) → exec (.pin g) s = .next (trapped .g f s)))

/-- 13 R247: SETF, SETE and TESTF retire with their change or test of the full bit of the scratchpad line outstanding; an address outside
the apertures, or beyond the reservation or the seat it names, is a PROTECTION fault. -/
def Obligations.FullBits : Prop :=
  (∀ g s f, Solo s → AddrFree s g →
    (scratchAt s.m s.issue.cx (numOf s g) 1 true = .fault f ∨ ApertureFault s (numOf s g) 1 true f ∨ NoAperture (numOf s g) true f →
      exec (.setf g) s = .next (trapped .g f s) ∧ exec (.sete g) s = .next (trapped .g f s)) ∧
    (Open s (predOf g) → scratchAt s.m s.issue.cx (numOf s g) 1 false = .fault f ∨ ApertureFault s (numOf s g) 1 false f ∨
      NoAperture (numOf s g) false f → exec (.testf g) s = .next (trapped .g f s))) ∧
  ∀ g s k, Solo s → AddrFree s g →
    (scratchByte s g true k →
      (∃ t, exec (.setf g) s = .next t ∧ Retires .g (.setf g) (nextPc s .g) s
        (outAfter s none { uid := 0, kind := .setFull (lineOfKey k) true, addr := addrOf s g }) t) ∧
      (∃ t, exec (.sete g) s = .next t ∧ Retires .g (.sete g) (nextPc s .g) s
        (outAfter s none { uid := 0, kind := .setFull (lineOfKey k) false, addr := addrOf s g }) t)) ∧
    (scratchByte s g false k → Open s (predOf g) →
      ∃ t, exec (.testf g) s = .next t ∧ Retires .g (.testf g) (nextPc s .g) s
        (outAfter s (predOf g).dest? { uid := 0, kind := .testFull (lineOfKey k) (predOf g).dest?, addr := addrOf s g }) t)

/-- 14 R273 to R276: on a resident object BINIT and BTEST retire with their access outstanding; BWAIT retires as an acquire once the
phase differs from the parity observed or an advance has come, else waits, and holds back behind an earlier acquire or an access of its
own to the object; an object of a core under reset, or one that holds an uncorrectable error, is the fault of that (12 R216, R222); BARRIVE and BEXPECT ask the object's controller, hold their bundle until its answer, and retire or fault with it;
an object that fails its checks is the fault of the check. -/
def Obligations.BarrierInstructions : Prop :=
  ∀ g s, Solo s → AddrFree s g →
    (∀ k o, Free s (reg s g.sd) → barObject s (numOf s g) true = .ok (k, o, true) →
      ∃ t, exec (.binit g) s = .next t ∧ Retires .g (.binit g) (nextPc s .g) s
        (outAfter s none
          { uid := 0, kind := .store (BarObj.encode ⟨((me s).s g.sd).toNat % 2 ^ 16, 0, ((me s).s g.sd).toNat / 2 ^ 32, 0, false, myTag s⟩),
            locs := keyLocs (scratchKey k o), addr := addrOf s g }) t) ∧
    (∀ k o, Open s (predOf g) → barObject s (numOf s g) false = .ok (k, o, true) →
      ∃ t, exec (.btest g) s = .next t ∧ Retires .g (.btest g) (nextPc s .g) s
        (outAfter s (predOf g).dest?
          { uid := 0, kind := .barrierTest (scratchKey k o) (predOf g).dest?, locs := keyLocs (scratchKey k o), addr := addrOf s g,
            blocksLater := true, dropL1 := wide g }) t) ∧
    (∀ k o, Free s (reg s g.sd) → barObject s (numOf s g) false = .ok (k, o, true) →
      let key := scratchKey k o
      let passed := (s.m.barrier key).phase ≠ ((me s).s g.sd).getLsbD 0
      let clear := ∀ a ∈ (me s).out, a.blocksLater = false ∧ ∀ l ∈ a.locs, l ∉ keyLocs key
      let usable := underReset s.m s.issue.cx (keyLocs key) = false ∧ ∀ l ∈ keyLocs key, s.m.errAt l = false
      ((∀ k', (me s).bwait ≠ some (k', true)) →
        (underReset s.m s.issue.cx (keyLocs key) = true → exec (.bwait g) s = .next (trapped .g { cause := 0x10, addr := addrOf s g } s)) ∧
        (underReset s.m s.issue.cx (keyLocs key) = false → (∃ l ∈ keyLocs key, s.m.errAt l = true) →
          exec (.bwait g) s = .next (trapped .g { cause := 0x0A, addr := addrOf s g, info := 6 } s))) ∧
      ((∃ k', (me s).bwait = some (k', true)) ∨
          (usable ∧ (me s).bwait = none ∧ passed ∧ clear) →
        ∃ t, exec (.bwait g) s = .next t ∧ Retires .g (.bwait g) (nextPc s .g) s
          (outAfter s none { uid := 0, kind := .fence, blocksLater := true, dropL1 := wide g }) t) ∧
      (usable → (me s).bwait = none →
        (¬clear → exec (.bwait g) s = .next (waiting true s)) ∧
        (clear → ¬passed → exec (.bwait g) s = .next (asked s (onMe s s.m fun c => { c with bwait := some (key, false) }))))) ∧
    (∀ row ∈ [(Instr.barrive g, false), (Instr.bexpect g, true)], Free s (reg s g.sd) →
      (∀ k o r, (me s).await = none → barObject s (numOf s g) true = .ok (k, o, r) → exec row.1 s =
        .next (asked s (onMe s s.m fun c => { c with await := some .asked, barrier := some (updateOf s g row.2 k o) }))) ∧
      (∀ ok refused v, (me s).await = some (.answered ok refused v) →
        ∃ t, exec row.1 s = .next t ∧ Retires .g row.1 (nextPc s .g) s s.m t) ∧
      (∀ f, (me s).await = some (.faulted f) → exec row.1 s = .next (trapped .g f s)) ∧
      (∀ f, (me s).await = none → barObject s (numOf s g) true = .error f → exec row.1 s = .next (trapped .g f s))) ∧
    (∀ f, barObject s (numOf s g) false = .error f →
      (Free s (reg s g.sd) → exec (.bwait g) s = .next (trapped .g f s)) ∧ (Open s (predOf g) → exec (.btest g) s = .next (trapped .g f s))) ∧
    (∀ f, Free s (reg s g.sd) → barObject s (numOf s g) true = .error f → exec (.binit g) s = .next (trapped .g f s))

/-- 15 R281, R292 to R296, R298: QSPLIT splits QW; QJOIN joins words of one scale, takes a word over an empty QW, and else returns it; QRET and
QRET.QW return a word; QREAD reads QW or the root; a split too deep is QUIET_DEPTH; QSPLIT, QRET, QRET.QW and a QJOIN that returns its word
wait for the accesses of their context. -/
def Obligations.WeightInstructions : Prop :=
  (∀ g s, Solo s → ¬Drained s →
    (Writable s (reg s g.sd) → exec (.qsplit g) s = .next (waiting true s)) ∧
    (Free s (reg s g.sa) → exec (.qret g) s = .next (waiting true s)) ∧ exec (.qretQw g) s = .next (waiting true s)) ∧
  (∀ g s, Solo s →
    (Free s (reg s g.sa) → Writable s (pOf g) →
      let w := (me s).s g.sa
      let q := (me s).qw
      let back := wAmount w ≠ 0 ∧ wAmount q ≠ 0 ∧ ¬(wScale w = wScale q ∧ wAmount q + wAmount w < 2 ^ 60)
      (back → ¬Drained s → exec (.qjoin g) s = .next (waiting true s)) ∧
      ((back → Drained s) → ∃ t, exec (.qjoin g) s = .next t ∧ Retires .g (.qjoin g) (nextPc s .g) s
        (if wAmount w = 0 then onMe s s.m fun c => andWrites c (pOf g).dest? 1
         else if wAmount q = 0 then onMe s (moved s) fun c => { andWrites c (pOf g).dest? 1 with qw := w }
         else if wScale w = wScale q ∧ wAmount q + wAmount w < 2 ^ 60 then
           onMe s (moved s) fun c => { andWrites c (pOf g).dest? 1 with qw := mkWeight (wScale q) (wAmount q + wAmount w) }
         else onMe s (s.m.returnWeight (me s).qwRoot w) fun c => andWrites c (pOf g).dest? 0) t)) ∧
    (Open s (reg s g.sd) → ∃ t, exec (.qread g) s = .next t ∧ Retires .g (.qread g) (nextPc s .g) s
      (if g.disp = 0 then gives s (reg s g.sd) (me s).qw
       else outAfter s (reg s g.sd).dest? { uid := 0, kind := .readRoot g.disp.toNat (reg s g.sd).dest? }) t)) ∧
  ∀ g s, Solo s → Drained s →
    (∀ keep give, Writable s (reg s g.sd) → splitWeight (me s).qw = some (keep, give) →
      ∃ t, exec (.qsplit g) s = .next t ∧ Retires .g (.qsplit g) (nextPc s .g) s
        (onMe s (moved s) fun c => { andWrites c (reg s g.sd).dest? give with qw := keep }) t) ∧
    (Writable s (reg s g.sd) → splitWeight (me s).qw = none →
      exec (.qsplit g) s = .next (trapped .g { cause := 0x0C, info := (me s).qw } s)) ∧
    (Free s (reg s g.sa) → ∃ t, exec (.qret g) s = .next t ∧
      Retires .g (.qret g) (nextPc s .g) s (s.m.returnWeight (me s).qwRoot ((me s).s g.sa)) t) ∧
    (∃ t, exec (.qretQw g) s = .next t ∧
      Retires .g (.qretQw g) (nextPc s .g) s (onMe s (s.m.returnWeight (me s).qwRoot (me s).qw) fun c => { c with qw := 0 }) t)

/-- 15 R297 with R292: QWAIT hands QW to the root and waits, from the registered waiter too, whose QW is empty; it retires with the root's
answer, p and QW written, as an acquire when the unit is quiet (of scope POD by R292; that every scope from CORE up acts alike is the model's
choice, DEDUCED, log 11); with no weight from a context that is not the waiter it is QUIET_DOMAIN 1, with weight of another root than its
launch's QUIET_DOMAIN 3. -/
def Obligations.QuietWait : Prop :=
  ∀ g s, Solo s → Drained s → Writable s (pOf g) →
    (∀ l, (me s).await = none → myLaunch s = some l →
      (wAmount (me s).qw ≠ 0 ∨ (s.m.root l.domain).waiter = some s.issue.cx ∨ (s.m.root l.domain).granted = some s.issue.cx) →
      (l.rootRef s.m = (me s).qwRoot → exec (.qwait g) s = .next (asksRoot s l)) ∧
      (l.rootRef s.m ≠ (me s).qwRoot → exec (.qwait g) s = .next (trapped .g { cause := 0x0D, info := 3 } s))) ∧
    (∀ f, (me s).await = some (.faulted f) → exec (.qwait g) s = .next (trapped .g f s)) ∧
    (∀ refused w, (me s).await = some (.answered true refused w) →
      ∃ t, exec (.qwait g) s = .next t ∧ Retires .g (.qwait g) (nextPc s .g) s
        (onMe s (outAfter s none { uid := 0, kind := .fence, blocksLater := true, dropL1 := true })
          fun c => { andWrites c (pOf g).dest? 1 with qw := w }) t) ∧
    (∀ refused w, (me s).await = some (.answered false refused w) →
      ∃ t, exec (.qwait g) s = .next t ∧ Retires .g (.qwait g) (nextPc s .g) s
        (onMe s s.m fun c => { andWrites c (pOf g).dest? 0 with qw := w }) t) ∧
    (∀ l, (me s).await = none → myLaunch s = some l → wAmount (me s).qw = 0 → (s.m.root l.domain).waiter ≠ some s.issue.cx →
      (s.m.root l.domain).granted ≠ some s.issue.cx →
      exec (.qwait g) s = .next (trapped .g { cause := 0x0D, info := 1 } s))

/-- 15 R299 to R301, 10 R192: SPAWN splits QW and lists its task, or asks for room in a full list; LREC, whose template fills the caches as a load of
64 bytes does, LCOMMIT and ESCAL ask the scheduler of the home die and retire with its answer, LREC and ESCAL with their register, ESCAL refused
with PRECISION_BUDGET; the share that a scheduler takes has left QW by its answer (log 29). -/
def Obligations.SchedulerRequests : Prop :=
  ∀ g s l, Solo s → myLaunch s = some l → (me s).launch = some l.lid →
    (∀ keep give, Drained s → AddrFree s g → Free s (reg s g.sd) → (me s).await = none → splitWeight (me s).qw = some (keep, give) →
      (spawnsOn s.m l.home < spawnCap → (∀ r ∈ (s.m.die l.home).reqs, ∀ a b c, r ≠ .spawn a b c) →
        ∃ t, exec (.spawn g) s = .next t ∧ Retires .g (.spawn g) (nextPc s .g) s
          (onMe s ((moved s).modLaunch l.lid fun l => { l with spawns := l.spawns ++ [spawnOf s g give] }) fun c => { c with qw := keep }) t) ∧
      (spawnCap ≤ spawnsOn s.m l.home → exec (.spawn g) s = .next (asks s l (.spawn s.issue.cx l.lid (spawnOf s g give))))) ∧
    (∀ keep give ls, Drained s → AddrFree s g → Writable s (pOf g) → numOf s g % 64 = 0 → (me s).await = none →
      splitWeight (me s).qw = some (keep, give) → namesAt s g 64 .read = .locs ls → underReset s.m s.issue.cx ls = false →
      (∀ x ∈ ls, s.m.errAt x = false) →
      let read := loadBytes s.m (coreOf s.issue.cx) ls 0
      exec (.lrec g) s = .next (asked s (onMe s (read.1.modDie l.home fun d => { d with reqs := d.reqs ++
        [.lrec s.issue.cx l.lid (fld read.2 28 2 % 4096) (fld read.2 4 4 % 2 ^ 24) read.2 give (if reachesHost ls then some (addrOf s g) else none)] })
          fun c => { c with await := some .asked }))) ∧
    (∀ ok v, Drained s → AddrFree s g → Writable s (pOf g) → (me s).await = some (.answered ok false v) →
      ∃ t, exec (.lrec g) s = .next t ∧ Retires .g (.lrec g) (nextPc s .g) s
        (onMe s (if ok then moved s else s.m) fun c => andWrites c (pOf g).dest? (bit ok)) t) ∧
    (∀ f, Drained s → AddrFree s g → Writable s (pOf g) → (me s).await = some (.faulted f) → exec (.lrec g) s = .next (trapped .g f s)) ∧
    (∀ ok v, Drained s → AddrFree s g → Free s (reg s g.sd) → (me s).await = some (.answered ok false v) →
      ∃ t, exec (.spawn g) s = .next t ∧ Retires .g (.spawn g) (nextPc s .g) s (moved s) t) ∧
    ((me s).await = none → Free s (reg s g.sa) → exec (.lcommit g) s =
      .next (asks s l (.lcommit s.issue.cx l.lid (((me s).s g.sa).toNat % 2 ^ 24)))) ∧
    (∀ ok refused v, (me s).await = some (.answered ok refused v) → Free s (reg s g.sa) →
      ∃ t, exec (.lcommit g) s = .next t ∧ Retires .g (.lcommit g) (nextPc s .g) s s.m t) ∧
    ((me s).await = none → Writable s (reg s g.sd) → exec (.escal g) s = .next (asks s l (.escal s.issue.cx l.lid))) ∧
    (∀ refused v, (me s).await = some (.answered true refused v) → Writable s (reg s g.sd) →
      ∃ t, exec (.escal g) s = .next t ∧ Retires .g (.escal g) (nextPc s .g) s (frozenIn s (reg s g.sd).dest? 1 v) t) ∧
    (∀ refused v, (me s).await = some (.answered false refused v) → Writable s (reg s g.sd) →
      exec (.escal g) s = .next (trapped .g { cause := 0x0E } s))

/-- 13 R252: RSEED loads the key and the counter of the draw generator; RNEXT writes the next draw and steps the counter. -/
def Obligations.DrawGenerator : Prop :=
  ∀ g s, Solo s →
    (AddrFree s g → ∃ t, exec (.rseed g) s = .next t ∧ Retires .g (.rseed g) (nextPc s .g) s
      (onMe s s.m fun c => { c with drawKey := ((me s).s g.sa).setWidth 32, drawCtr := ((me s).s g.sb).setWidth 32 }) t) ∧
    (Writable s (reg s g.sd) → ∃ t, exec (.rnext g) s = .next t ∧ Retires .g (.rnext g) (nextPc s .g) s
      (onMe s s.m fun c =>
        { andWrites c (reg s g.sd).dest? ((mix ((me s).drawKey ^^^ (me s).drawCtr)).setWidth 64) with drawCtr := c.drawCtr + 1 }) t)

/-- 13 R248, R250, R251, 14 R265: SUBSCR, with no fence outstanding, faults by the first check of its table that fails, then by the first
page that does; one that passes takes an engine and lists its subscription, or waits for an engine.  SLOTDONE frees a full push slot and
hands over an empty pull slot, after the accesses of its context that reach the slot or its full bits (14 R262); SUBCAN ends a subscription whose slots rest, and waits for one in progress. -/
def Obligations.Subscriptions : Prop :=
  (∀ g s k, Solo s → AddrFree s g → Unfenced s → 0 < g.disp.toInt → (myLaunch s).map (·.kernel) = some k →
    ∀ row ∈ [(Instr.subscrPush g, false), (Instr.subscrPull g, true)],
    let w := windowOf s g.hint
    let r := k.ring? (ringOf g)
    let u := subOf s g row.2 k ((r.map (·.bytes)).getD 0)
    (∀ f, subscrFault s g row.2 r w u = some f → exec row.1 s = .next (trapped .g f s)) ∧
    (subscrFault s g row.2 r w u = none →
      (∀ f, walkRes s.m s.issue.cx row.2 (walkPages w u) = .fault f → exec row.1 s = .next (trapped .g f s)) ∧
      ∀ ls, walkRes s.m s.issue.cx row.2 (walkPages w u) = .locs ls →
        (∀ e x, freeEngine s.m (dieOf (coreOf s.issue.cx)) = some e → r = some x →
          ∃ t, exec row.1 s = .next t ∧ Retires .g row.1 (nextPc s .g) s
            (onMe s { s.m with subUsed := mset s.m.subUsed e (mget 0 s.m.subUsed e + 1) } fun c =>
              { c with subs := c.subs ++ [withEngine s u e x.slots row.2] }) t) ∧
        (freeEngine s.m (dieOf (coreOf s.issue.cx)) = none →
          exec row.1 s = .next (asked s (onMe s s.m fun c => { c with await := some .asked }))))) ∧
  (∀ g s, Solo s → (me s).sub? (ringOf g) = none →
    ∃ t, exec (.subcan g) s = .next t ∧ Retires .g (.subcan g) (nextPc s .g) s s.m t) ∧
  (∀ g s u, Solo s → (me s).sub? (ringOf g) = some u →
    ((u.erred = true ∨ ∀ x ∈ u.states, x ≠ .busy) → ∃ t, exec (.subcan g) s = .next t ∧ Retires .g (.subcan g) (nextPc s .g) s
      (onMe s { s.m with subUsed := mset s.m.subUsed u.base (mget 0 s.m.subUsed u.base - 1) } fun c =>
        { c with subs := c.subs.filter fun x => x.ring.toNat != ringOf g }) t) ∧
    (u.erred = false → SubSlot.busy ∈ u.states → exec (.subcan g) s = .next (asked s (onMe s s.m fun c =>
      { c with subs := lmod (fun x => x.ring.toNat == ringOf g) (fun x => { x with stopped := true }) c.subs }))) ∧
    (∀ i, Unfenced s → Free s (reg s g.sa) → ((me s).s g.sa).toNat = i → i < u.states.length →
      ((u.pull = false ∧ u.states.getD i .empty = .full) ∨ (u.pull = true ∧ u.states.getD i .full = .empty) → SlotBusy s u i →
        exec (.slotdone g) s = .next (waiting true s)) ∧
      (¬SlotBusy s u i → u.pull = false → u.states.getD i .empty = .full → ∃ t, exec (.slotdone g) s = .next t ∧ Retires .g (.slotdone g) (nextPc s .g) s
        (onMe s (s.m.setLines (slotLines s.issue.cx (me s) u i) false)
          fun c => c.modSub (ringOf g) fun u => { u with states := lset u.states i .empty }) t) ∧
      (¬SlotBusy s u i → u.pull = true → u.states.getD i .full = .empty → ∃ t, exec (.slotdone g) s = .next t ∧ Retires .g (.slotdone g) (nextPc s .g) s
        (onMe s (s.m.setLines (slotLines s.issue.cx (me s) u i) true)
          fun c => c.modSub (ringOf g) fun u => { u with states := lset u.states i .marked }) t)) ∧
    (∀ i, Unfenced s → Free s (reg s g.sa) → ((me s).s g.sa).toNat = i → u.states.length ≤ i → exec (.slotdone g) s = .next
      (trapped .g { cause := 0x13, info := BitVec.ofNat 64 (ringOf g + i % 2 ^ 16 * 2 ^ 16) } s)))

/-- 08 R148, R151 with 14 R268: a chained V slot whose words pass their rule queues its operation with those words and extents, gives td
its word, binds, and takes its counter position. -/
def Obligations.ChainedVectorSlots : Prop :=
  ∀ p v s, Solo s → Free s (reg s v.sx) → MayQueue s (pipeQueue p) v.kd → ∀ row ∈ chainTable p v, ∀ t,
    typing s (withChain row.2.1 row.2.2 v.op2.toNat v.op3.toNat) false v.td v.ta v.tb v.tc = .ok t →
    ∃ u, exec row.1 s = .next u ∧ Queues p.slot (pipeQueue p) row.1 s (vOp s v t (coin v 0)) u

/-- 08 R148 to R150, 11 R194 to R212: the V slots without chain queue likewise, each with the counter positions its rule takes. -/
def Obligations.PlainVectorSlots : Prop :=
  ∀ p v s, Solo s → Free s (reg s v.sx) → MayQueue s (pipeQueue p) v.kd → ∀ row ∈ plainTable p v ++ reduceTable p v, ∀ t,
    typing s row.2.1 false v.td v.ta v.tb v.tc = .ok t →
    ∃ u, exec row.1 s = .next u ∧ Queues p.slot (pipeQueue p) row.1 s (vOp s v t (row.2.2 t)) u

/-- 08 R154 to R157: VRESHAPE, VTRANS and VCAST either change td's word at once, with a new generation, when their operands are done, or
queue an operation for the new word.  The frame leaves the instruction cache as it was: the line of the type constant that the first and
the last read is not kept (the model's choice, log 84). -/
def Obligations.ViewSlots : Prop :=
  ∀ p v s x pl, Solo s → Free s (reg s v.sx) → (me s).token v.kd.toNat = 0 → ConstIs s ((me s).s v.sx).toNat x →
    ∀ row ∈ viewTable p v x,
    viewPlan row.1 v ((me s).s v.sx) s row.2 = .ok pl →
    (∀ o, pl.op = some o → s.m.queueRoom s.issue.cx (pipeQueue p) = true →
      ∃ u, exec row.1 s = .next u ∧ Queues p.slot (pipeQueue p) row.1 s
        { capA := (me s).s v.sx, types := o.types, exts := o.exts, td := pl.td, binds := pl.binds, kd := v.kd.toNat,
          kws := [v.kw0.toNat, v.kw1.toNat, v.kw2.toNat] } u) ∧
    (∀ x, pl.op = none → pl.td = some x → (∀ k ∈ [v.kw0, v.kw1, v.kw2], (me s).token k.toNat = 0) →
      ∃ u, exec row.1 s = .next u ∧
        Retires p.slot row.1 (nextPc s p.slot) s (onMe s s.m fun c => (c.setWord x.1 x.2).bindAll pl.binds) u)

/-- 08 R152, 09 R163: an M slot whose words pass their rule queues its operation. -/
def Obligations.MatrixSlots : Prop :=
  ∀ m s, Solo s → MayQueue s .m m.kd → ∀ row ∈ mTable m, ∀ t, typing s row.2.1 row.2.2 m.td m.ta m.tb m.tx = .ok t →
    ∃ u, exec row.1 s = .next u ∧ Queues .m .m row.1 s (mOp m t) u

/-- 13 R253 to R260, 16 R321, R325: a copy, a receive, a table set, a prefetch of a window or a code-table load whose checks pass queues its
operation with the addresses its registers held. -/
def Obligations.CopySlots : Prop :=
  ∀ c s, Solo s → Free s (reg s c.sa) → Free s (reg s c.sb) → MayQueue s .c c.kd →
    (∀ row ∈ copyTable s c, ∀ pl o, Resident s row.2.2 → row.2.1 s = .ok pl → pl.op = some o →
      ∃ u, exec row.1 s = .next u ∧ Queues .c .c row.1 s (cOp s c pl o) u) ∧
    ((windowOf s c.w).access = 1 ∨ (windowOf s c.w).access = 2 →
      (∃ u, exec (.preft c) s = .next u ∧ Queues .c .c (.preft c) s
        (cOp s c { op := none } { newOp (.preft c) with types := [0, 0, 0, 0], exts := [[], [], [], []] }) u) ∧
      (TW.rank (windowOf s c.w).ty = 1 → TW.fmt (windowOf s c.w).ty = 2 → TW.ext (windowOf s c.w).ty 0 % 2 ^ 23 = 16 →
        ∃ u, exec (.ctload c) s = .next u ∧ Queues .c .c (.ctload c) s
          (cOp s c { op := none } { newOp (.ctload c) with types := [0, 0, 0, 0], exts := [[], [], [], []] }) u)) ∧
    (∀ w e, FabricTile s c w e → c.w.toNat / 32 = s.issue.cx % 8 → bits (cA s c) 9 0 ≠ 0 →
      ∃ u, exec (.ttset c) s = .next u ∧ Queues .c .c (.ttset c) s
        (cOp s c { op := none, draws := if TW.fmt w = 0x13 then bits (cA s c) 9 0 * prod e else 0 }
          { newOp (.ttset c) with types := [0, w, 0, 0], exts := [[], e, [], []] }) u)

/-- 15 R285, 16 R319, R324, R326: SEND, MCAST, AMSG and TTFIRE, once the accesses of their context are done, split QW at issue: the operation
carries one part and QW keeps the other; a split too deep is a precise QUIET_DEPTH fault. -/
def Obligations.CarrierSlots : Prop :=
  ∀ c s w e, Solo s → Drained s → Free s (reg s c.sa) → Free s (reg s c.sb) → MayQueue s .c c.kd → ∀ row ∈ carrierTable s c w e,
    row.2.1 → Resident s row.2.2.2.2 →
    (∀ keep give, splitWeight (me s).qw = some (keep, give) →
      ∃ u, exec row.1 s = .next u ∧ Queues .c .c row.1 s
        (cOp s c { op := none, qw := some keep } { newOp row.1 with weight := give, types := row.2.2.1, exts := row.2.2.2.1 }) u) ∧
    ((me s).issued = false → splitWeight (me s).qw = none → exec row.1 s = .next (trapped .c { cause := 0x0C, info := (me s).qw } s))

/-- 07 R120, 01 R12, 08 R148: an engine slot stalls while its kd is pending; while its queue is full its context stands in the list of
those that wait for it; words that fail their rule are the fault of the check. -/
def Obligations.EngineSlotStalls : Prop :=
  ∀ p v m s, Solo s → Free s (reg s v.sx) →
    (∀ row ∈ chainTable p v, (me s).token v.kd.toNat ≠ 0 → s.m.queueRoom s.issue.cx (pipeQueue p) = true → exec row.1 s = .next (waiting true s)) ∧
    (∀ row ∈ mTable m, (me s).token m.kd.toNat = 0 → s.m.queueRoom s.issue.cx .m = false → exec row.1 s =
      .next (waiting true { s with m := s.m.modCore (coreOf s.issue.cx) fun c =>
        { c with waiters := if c.waiters.contains (.m, s.issue.cx) then c.waiters else c.waiters ++ [(.m, s.issue.cx)] } })) ∧
    (∀ row ∈ mTable m, ∀ f, MayQueue s .m m.kd → typing s row.2.1 row.2.2 m.td m.ta m.tb m.tx = .error f →
      exec row.1 s = .next (trapped .m f s)) ∧
    (∀ row ∈ plainTable p v ++ reduceTable p v, ∀ f, MayQueue s (pipeQueue p) v.kd →
      typing s row.2.1 false v.td v.ta v.tb v.tc = .error f → exec row.1 s = .next (trapped p.slot f s)) ∧
    (∀ row ∈ chainTable p v, ∀ f, MayQueue s (pipeQueue p) v.kd →
      typing s (withChain row.2.1 row.2.2 v.op2.toNat v.op3.toNat) false v.td v.ta v.tb v.tc = .error f →
      exec row.1 s = .next (trapped p.slot f s)) ∧
    (∀ c, Free s (reg s c.sa) → Free s (reg s c.sb) → MayQueue s .c c.kd → ∀ row ∈ copyTable s c, Resident s row.2.2 →
      ∀ f, row.2.1 s = .error f → exec row.1 s = .next (trapped .c f s))

/-- 06 R98, R103, R107 to R115 with Tables 06-4 to 06-11: a well-formed instruction's word decodes to it, with every operand at every
value the encoding admits, and a word that decodes is the one word of its instruction, which is well-formed. -/
def Obligations.DecodeOfEncode : Prop :=
  (∀ i k w, wellFormed i = true → encode i = some (k, w) → decodeSlot k w = .ok i) ∧
  (∀ k w i, (k = .x → w.toNat < 2 ^ 32) → decodeSlot k w = .ok i → wellFormed i = true ∧ encode i = some (k, w))

/-- 06 Tables 06-4 to 06-11 and the worked words of 06, 13, 14 and 17: these words decode to these instructions. -/
def Obligations.KnownWords : Prop := ∀ x ∈ knownWords, decodeSlot x.1 x.2.1 = .ok x.2.2

/-- 05 R93, 06 R98 to R101, 12 R223: a core's turn runs the instruction that the bytes at the pc decode to: `exec` of it on a fresh
bundle, then what follows every move; the fetch cuts that instruction from the bytes the instruction cache holds, and a line the
cache does not hold, of 128 bytes by the model's choice (log 84), is filled with the bytes of memory. -/
def Obligations.StepRunsDecoded : Prop :=
  (∀ s rest k cx m' h len f t, s.agenda = .issue k :: rest → MayTurn (tick s.m) k cx →
    fetchBundle ((tick s.m).modCtx cx fun c => { c with blocked := false }) cx = (m', .bundle h len [f]) →
    exec f.instr ⟨m', freshIssue cx len ((m'.ctx cx).p h.guard == h.sense) h.yield f, rest⟩ = .next t →
    (t.m.ctx cx).blocked = false →
    step s = .next { t with m := aftermath (afterTurn t.m k (cx % 8) .issued
      (othersReady { m := tick s.m, issue := s.issue, agenda := rest } k (cx % 8))) }) ∧
  (∀ m cx l i k w hw, m.launchOf cx = some l → (m.ctx cx).held = none → wellFormed i = true → encode i = some (k, w) → headerOf hw k →
    CodeHeld m cx (bundleBytes hw k w) → StartMarked m cx (4 + k.bytes) l →
    RegRef.p (decodeHeader hw).guard.toNat ∉ (m.ctx cx).pend →
    fetchBundle m cx = (m, .bundle (decodeHeader hw) (4 + k.bytes) [⟨k, w, i, 0, false⟩])) ∧
  (∀ m cx lo hi pc line e, mget? (m.core (coreOf cx)).icache line = none → m.cached (coreOf cx) (max pc (line * 128)) = some e →
    permFault e .exec = none → m.errs = [] → max pc (line * 128) < globalTop →
    ∃ u, codeLine m cx lo hi pc line = .ok (u, m.readLocs ((upFrom (line * 128) 128).map e.loc)))

/-- 14 R261, 13 R238 and the model's canonical form: every step keeps every byte memory in canonical form. -/
def Obligations.CanonicalKept : Prop := ∀ s t, Canonical s → step s = .next t → Canonical t

/-- 18 R353, R355, Table 18-3, 16 R313, 05 R81, 07 Table 07-8: the state after reset.  Memory is canonical and lists nothing, no context
runs, the registers of Table 18-3 hold the values it gives, and every context's registers hold the reset values the model names. -/
def Obligations.ResetState : Prop :=
  Canonical State.reset ∧
  State.reset.issue = {} ∧ State.reset.agenda = [] ∧
  (∀ l, State.reset.m.read l = 0) ∧ (∀ cx, (State.reset.m.ctx cx).life = .free ∧ (State.reset.m.ctx cx).handler = false) ∧
  State.reset.m.launches = [] ∧ (∀ d, (State.reset.m.die d).errHead = 0 ∧ (State.reset.m.die d).slots = []) ∧
  (∀ x ∈ [(0x010, 0), (0x018, 0), (0x020, 0), (0x028, 0), (0x030, 0), (0x038, 0x100), (0x040, 0x10), (0x048, 3600), (0x060, 0), (0x068, 0),
      (0x050, 0), (0x070, 0), (0x078, 0), (0x0B0, 0)], State.reset.m.mgmtAt x.1 = x.2) ∧
  (∀ p, p < 16 → State.reset.m.mgmtAt (0x090 + 8 * (p / 4)) / 2 ^ (16 * (p % 4)) % 65536 = 0x8000 + p) ∧
  mgmtRead State.reset.m 0x058 = some 0 ∧
  State.reset.m.mgmtAt 0x008 = State.reset.m.grpPos.toNat ∧ State.reset.m.deviceNo = State.reset.m.grpPos.toNat ∧
  State.reset.m.eccCorrected = 0 ∧ State.reset.m.lostNotifies = 0 ∧ State.reset.m.lostReturns = 0 ∧ State.reset.m.lostFlits = 0 ∧
  ∀ cx r, (State.reset.m.ctx cx).regAt r = 0

/-- 07 R122 to R124, 12 R219, 13 R238 to R241, 14 R262, R265: an outstanding access that nothing holds back is performed, and leaves the
list: a load gives its register the bytes seen, extended to its width, and changes no byte; a store writes its bytes and no other; an atomic
gives the old value and writes the new one; an ACQ gives its word; an invalidation discards its line of the L1, or the whole; a fence and a
value that is there only end.  One answered with an error
gives zero and, unless another of the context waits, waits as a fault of the G slot; one of the host for the template of an LREC that waits is that
LREC's fault (15 R300; log 40); a frozen write that is due alone takes effect. -/
def Obligations.OutstandingAccesses : Prop :=
  (∀ s cx a, MayPerform s cx a →
    (∀ dst signed width, a.kind = .load dst signed width →
      ∃ t, exec (.pendingValueWritten cx a.uid) s = .next t ∧
        t.m.ctx cx = afterAccess (s.m.ctx cx) a (loadValue signed (loadSees s cx a ++ List.replicate (width - (loadSees s cx a).length) 0)) ∧
        (∀ j, j ≠ cx → t.m.ctx j = s.m.ctx j) ∧ (∀ l, t.m.read l = s.m.read l) ∧
        t.m = { s.m with ctxs := t.m.ctxs, cores := t.m.cores, l2 := t.m.l2, fresh := t.m.fresh }) ∧
    (∀ data, a.kind = .store data → data.length = a.locs.length → a.locs.Nodup →
      ∃ t, exec (.pendingValueWritten cx a.uid) s = .next t ∧ t.m.ctx cx = afterAccess (s.m.ctx cx) a 0 ∧
        (∀ j, j ≠ cx → t.m.ctx j = s.m.ctx j) ∧ t.m.launches = s.m.launches ∧ t.m.dies = s.m.dies ∧
        t.m.readLocs a.locs = data ∧ ∀ l, l ∉ a.locs → t.m.read l = s.m.read l) ∧
    (∀ op dst x swap, a.kind = .atomic op dst x swap → a.locs.Nodup →
      ∃ t, exec (.pendingValueWritten cx a.uid) s = .next t ∧
        t.m.ctx cx = afterAccess (s.m.ctx cx) a (word64 (s.m.readLocs a.locs)) ∧
        t.m.readLocs a.locs = leBytes a.locs.length (atomicNew op (word64 (s.m.readLocs a.locs)) x swap).toNat ∧
        ∀ l, l ∉ a.locs → t.m.read l = s.m.read l) ∧
    (∀ dst, a.kind = .acquire dst →
      ∃ t, exec (.pendingValueWritten cx a.uid) s = .next t ∧
        t.m.ctx cx = afterAccess (s.m.ctx cx) a (word64 (s.m.readLocs a.locs)) ∧ (a.dropL1 = true → (t.m.core (coreOf cx)).l1 = []) ∧
        (∀ j, j ≠ cx → t.m.ctx j = s.m.ctx j) ∧ ∀ l, t.m.read l = s.m.read l) ∧
    (∀ dst v, a.kind = .give dst v →
      exec (.pendingValueWritten cx a.uid) s = .next (put s ((l1Gone s cx a).modCtx cx fun c => afterAccess c a v))) ∧
    (a.kind = .fence → exec (.pendingValueWritten cx a.uid) s = .next (put s ((l1Gone s cx a).modCtx cx fun c => afterAccess c a 0))) ∧
    (∀ line, a.kind = .invalidate line → a.dropL1 = false →
      ∃ t, exec (.pendingValueWritten cx a.uid) s = .next t ∧ t.m.ctx cx = afterAccess (s.m.ctx cx) a 0 ∧
        (t.m.core (coreOf cx)).l1 = line.elim [] (mdel (s.m.core (coreOf cx)).l1) ∧
        (∀ j, j ≠ cx → t.m.ctx j = s.m.ctx j) ∧ ∀ l, t.m.read l = s.m.read l)) ∧
  (∀ s cx a sub, (s.m.ctx cx).out.find? (·.uid == a.uid) = some a → (s.m.ctx cx).accessReady a = true → a.locs ≠ [] →
    sub = (if a.locs.any isHost then 7 else 6) →
    let f : FaultRec := { cause := 0x0A, addr := a.addr, info := BitVec.ofNat 64 (sub.toNat + if a.kind.isWrite then 16 else 0) }
    ∃ t, exec (.postCommitError cx a.uid sub) s = .next t ∧
      ((∀ g h, CtxEvent.access g h ∉ (s.m.ctx cx).events) → t.m.ctx cx = (afterAccess (s.m.ctx cx) a 0).addFault (.access f a.handlerAcc)) ∧
      (∀ g h, CtxEvent.access g h ∈ (s.m.ctx cx).events → t.m.ctx cx = afterAccess (s.m.ctx cx) a 0) ∧
      (∀ j, j ≠ cx → t.m.ctx j = s.m.ctx j) ∧ (∀ l, t.m.read l = s.m.read l) ∧ t.m.launches = s.m.launches) ∧
  (∀ s cx uid l lid q b bs give a, (s.m.ctx cx).out.find? (·.uid == uid) = none → s.m.launchOf cx = some l → (s.m.ctx cx).await = some .asked →
    (s.m.die l.home).reqs = [.lrec cx lid q b bs give (some a)] → exec (.postCommitError cx uid 7) s = .next (put s
      ((s.m.modDie l.home fun d => { d with reqs := [] }).modCtx cx fun c =>
        { c with await := some (.faulted { cause := 0x0A, addr := a, info := 7 }) }))) ∧
  (∀ s cx w rest, (s.m.ctx cx).frozen = w :: rest → w.left = 0 → (∀ x ∈ rest, x.left ≠ 0) →
    exec (.frozenWrite cx) s = .next (put s (s.m.modCtx cx fun c => { c.setRef w.reg w.val with frozen := rest })))

/-- 12 R233 to R235: the walk of a parked miss fills the core's and the die's translation caches with a leaf of its page, or leaves the
failure and its subcode for the bundle that waits; one that an operation of an engine waits for leaves its context alone, and fails as the
operation's fault, but for a PREFT, which goes on to its next line. -/
def Obligations.TranslationWalks : Prop :=
  ∀ s d n v, (s.m.die d).misses[n]? = some v →
    (∀ e, s.m.walk v.va.toNat = .ok e →
      ∃ t, exec (.translationWalk d n) s = .next t ∧ e.covers v.va.toNat = true ∧
        tlbFind (t.m.core (coreOf v.cx)).tlb v.va.toNat = some e ∧ tlbFind (t.m.die d).tlb v.va.toNat = some e ∧
        (t.m.die d).misses = (s.m.die d).misses.eraseIdx n ∧
        t.m.ctx v.cx = (if v.uid = 0 then { s.m.ctx v.cx with missed := false } else s.m.ctx v.cx) ∧
        (∀ j, j ≠ v.cx → t.m.ctx j = s.m.ctx j) ∧ ∀ l, t.m.read l = s.m.read l) ∧
    (∀ sub, s.m.walk v.va.toNat = .error sub → v.uid = 0 → (s.m.ctx v.cx).missed = true →
      ∃ t, exec (.translationWalk d n) s = .next t ∧
        t.m.ctx v.cx = { s.m.ctx v.cx with missed := false, walkFail := some (v.va, BitVec.ofNat 4 sub, v.fetch) } ∧
        (∀ j, j ≠ v.cx → t.m.ctx j = s.m.ctx j) ∧ (∀ k, t.m.core k = s.m.core k) ∧ (t.m.die d).misses = (s.m.die d).misses.eraseIdx n) ∧
    (∀ sub o, s.m.walk v.va.toNat = .error sub → v.uid ≠ 0 → (s.m.core (coreOf v.cx)).op? v.uid = some o → o.cx = v.cx →
      (∀ c, o.instr = .preft c → ∃ t, exec (.translationWalk d n) s = .next t ∧
        (t.m.core (coreOf v.cx)).op? v.uid = some { o with progress := o.progress + 1 } ∧ t.m.ctxs = s.m.ctxs) ∧
      ((∀ c, o.instr ≠ .preft c) → o.handlerOp = false → (s.m.ctx v.cx).released = false →
        let f : FaultRec := { cause := if sub = 6 then 0x0A else 0x09, addr := v.va, info := BitVec.ofNat 64 (sub + if v.write then 16 else 0) }
        ∃ t, exec (.translationWalk d n) s = .next t ∧ (t.m.core (coreOf v.cx)).op? v.uid = none ∧
          t.m.ctx v.cx = { (s.m.ctx v.cx).addFault (.found o.uid) with
            engFault := (s.m.ctx v.cx).engFault ++ [({ o with started := false }, f, false)] }))

/-- 09 R165, 10 R173, 13 R253 to R260, 14 R267, R268, 16 R318 to R326, 17 R329: the matrix engine or a pipe starts the first unstarted operation of
its queue, the copy engine a copy that is next in its context, once nothing holds it back; the started head of a matrix or vector queue
writes the tiles of its result, counts its precision events, marks its word degraded (03 R58, R59), leaves the queue, and its token is done.
A copy has an item for each byte of its region, moves one at a time, between its tile, the window and the scratchpad, and completes with
none left.  SEND and MCAST post their tile once a send entry is free, a receive claims the entry delivered for its tag and pulls it, TTSET sets
its table entry, TTFIRE arms one or sends what has fired: with no entry free it waits, fired and posted, for one (DEDUCED, log 37), out of its queue's
places as a posted SEND is (DEDUCED, log 28), and a tile in error is its fault (12 R223); AMSG sends its task.  The first fault an engine found, being the first event of its
context, is written out with the operations not started, of which its block has room for 111 beside it, once every started one has ended. -/
def Obligations.EngineOperations : Prop :=
  (∀ s core o, MayStart s o → coreOf o.cx = core →
    (((s.m.core core).inQueue .m).find? (fun x => !x.started) = some o →
      exec (.matrixOpStart core) s = .next (put s (s.m.modOp core o.uid fun o => { o with started := true }))) ∧
    (∀ p, ((s.m.core core).inQueue (pipeQueue p)).find? (fun x => !x.started) = some o →
      exec (.vectorOpStart core p) s = .next (put s (s.m.modOp core o.uid fun o => { o with started := true }))) ∧
    (MayStartCopy s core o → isMover o.instr = true →
      ((∀ c, o.instr ≠ .gather c ∧ o.instr ≠ .scatter c) →
        exec (.copyOpStart core o.uid) s = .next (put s (s.m.modOp core o.uid fun o => { o with started := true }))) ∧
      (∀ bs c, (o.instr = .gather c ∨ o.instr = .scatter c) → (o.exts.getD 1 []).headD 0 ≠ 0 →
        engRead s.m o.cx o.capA.toNat (4 * (o.exts.getD 1 []).headD 0) = .ok bs →
        exec (.copyOpStart core o.uid) s = .next (put s (s.m.modOp core o.uid fun o => { o with
          started := true
          index := (upFrom 0 ((o.exts.getD 1 []).headD 0)).map fun i => unsgn 64 (sgn 32 (fld bs (4 * i) 4) + o.capB.toNat) }))))) ∧
  (∀ s core q o r, RunsTo s core q o r →
    ∀ row ∈ [(QKind.m, Instr.matrixOpComplete core), (.v0, .vectorOpComplete core .p0), (.v1, .vectorOpComplete core .p1)], row.1 = q →
    ∃ u, exec row.2 s = .next u ∧
      (∀ t x, r.tiles.reverse.find? (fun y => y.1 == t) = some (t, x) → contents ((u.m.ctx o.cx).tile t) = contents x) ∧
      (∀ t, (∀ x ∈ r.tiles, x.1 ≠ t) → contents ((u.m.ctx o.cx).tile t) = contents ((s.m.ctx o.cx).tile t)) ∧
      (∀ t, ((opUses o.instr).td ≠ some t ∨ degrades o r = false ∨ TW.degraded (o.types.getD 0 0) = true) →
        ((u.m.ctx o.cx).tile t).word = ((s.m.ctx o.cx).tile t).word) ∧
      (∀ t, (opUses o.instr).td = some t → degrades o r = true → TW.degraded (o.types.getD 0 0) = false → ((s.m.ctx o.cx).tile t).gen = o.gen →
        ((u.m.ctx o.cx).tile t).word = setDegraded ((s.m.ctx o.cx).tile t).word true) ∧
      (u.m.ctx o.cx).precision = BitVec.ofNat 64 (min (2 ^ 64 - 1) ((s.m.ctx o.cx).precision.toNat + r.events)) ∧
      (u.m.ctx o.cx).status = (s.m.ctx o.cx).status ||| (if r.events = 0 then 0 else 0x20) ||| (if r.drawFlag then 0x80 else 0) ∧
      (u.m.core core).ops.map (·.uid) = ((s.m.core core).ops.filter (fun e => e.uid != o.uid)).map (·.uid) ∧
      (degrades o r = false → (u.m.core core).ops = (s.m.core core).ops.filter (fun e => e.uid != o.uid)) ∧
      (o.kd ≠ 0 → (s.m.ctx o.cx).token o.kd = o.uid → (u.m.ctx o.cx).token o.kd = 0) ∧
      (∀ j, j ≠ o.cx → u.m.ctx j = s.m.ctx j) ∧ ∀ l, u.m.read l = s.m.read l) ∧
  (∀ (m : Mach) (o : EOp),
    let w := opWindow m o
    let e := o.exts.getD 1 []
    let bytes := max 1 (fmtBits (TW.fmt w.ty) / 8)
    let has (base : Nat) (ix o' : List Nat) : Prop := ∀ j, j < bytes →
      let a := w.elemAt base (addIx o' ix)
      CItem.elem ix j (a.1 + j) a.2 ∈ copyItems m o
    (∀ c, (o.instr = .tload c ∨ o.instr = .tstore c) → ∀ ix ∈ indices e, has w.base.toNat ix (originsOf false e.length o.capA o.capB)) ∧
    (∀ c, (o.instr = .tloads c ∨ o.instr = .tstores c) → ∀ ix ∈ indices e, has o.capA.toNat ix (originsOf true e.length o.capA o.capB)) ∧
    (∀ c, (o.instr = .cpin c ∨ o.instr = .cpout c) → ∀ i, i < 128 * bits o.capB 15 0 →
      CItem.pair ((w.base.toNat + 128 * bits o.capB 63 16 + i) % 2 ^ 64) (o.capA.toNat + i) ∈ copyItems m o) ∧
    (∀ c i j x, (o.instr = .gather c ∨ o.instr = .scatter c) → i < e.headD 0 → j < e.getD 1 0 → o.index[i]? = some x →
      (∀ r, rowAt w x = some r → ∀ k, k < bytes →
        CItem.elem [i, j] k ((w.elemAt w.base.toNat [r, j]).1 + k) (w.elemAt w.base.toNat [r, j]).2 ∈ copyItems m o) ∧
      (rowAt w x = none → o.instr = .gather c → CItem.zero [i, j] ∈ copyItems m o))) ∧
  (∀ s core o n i x, MovesNext s core o n i x →
    let v := copyView s o
    let w := fmtBits v.fmt
    ∀ t, perform (.copySome core o.uid n) s = .next t →
    (copyStores o.instr = false →
      (∀ ix j va bit b, x = .elem ix j va bit → sourceByte s o va b →
        TilePut s t o (if w < 8 then v.setCode ix (b.toNat / 2 ^ bit) else v.setCodeByte ix j b).tile) ∧
      (∀ blk j va b, x = .scale blk j va → sourceByte s o va b → TilePut s t o (v.setScaleByte blk j b).tile) ∧
      (∀ ix, x = .zero ix → TilePut s t o (v.setCode ix 0).tile) ∧
      (∀ blk, x = .one blk → TilePut s t o (v.setScale blk (if scaleE8M0 v.fmt then 0x7F else 0x3F80)).tile)) ∧
    (copyStores o.instr = true →
      (∀ ix j va bit l, x = .elem ix j va bit → writableByte s o va l →
        BytePut s t l (BitVec.ofNat 8 (if w < 8 then putBits (s.m.read l).toNat bit w (v.code ix) else v.code ix / 2 ^ (8 * j)))) ∧
      (∀ blk j va l, x = .scale blk j va → writableByte s o va l → BytePut s t l (BitVec.ofNat 8 (v.scaleCode blk / 2 ^ (8 * j))))) ∧
    (∀ va sp b l, x = .pair va sp → sourceByte s o (if copyStores o.instr then sp else va) b →
      writableByte s o (if copyStores o.instr then va else sp) l → BytePut s t l b) ∧
    (∀ sp b, x = .get sp → engRead s.m o.cx sp 1 = .ok [b] →
      (t.m.core core).op? o.uid = some { o with got := mset o.got sp b, moved := i :: o.moved } ∧ ∀ l, t.m.read l = s.m.read l)) ∧
  (∀ s core o n i x, MovesNext s core o n i x → ∃ t, perform (.copySome core o.uid n) s = .next t) ∧
  (∀ s core o, (s.m.core core).op? o.uid = some o → coreOf o.cx = core → o.q = .c → o.started = true → isMover o.instr = true →
    (∀ c, o.instr ≠ .preft c ∧ o.instr ≠ .ctload c) → tileError s.m o = none → copyRest s.m o = [] →
    ∃ u, exec (.copyOpComplete core o.uid) s = .next u ∧ (u.m.core core).ops = (s.m.core core).ops.filter (fun e => e.uid != o.uid) ∧
      (o.kd ≠ 0 → (s.m.ctx o.cx).token o.kd = o.uid → (u.m.ctx o.cx).token o.kd = 0) ∧
      (∀ j, j ≠ o.cx → u.m.ctx j = s.m.ctx j) ∧ ∀ l, u.m.read l = s.m.read l) ∧
  (∀ s core o, MayStartCopy s core o →
    (∀ eps n, postsTo s o eps → tileError s.m o = none → freeSend (s.m.core core) = some n →
      ∃ t, exec (.copyOpStart core o.uid) s = .next t ∧ Posted s.m t.m core n o.cslot.t.toNat o eps ∧
        (t.m.core core).op? o.uid = some { o with started := true, posted := true, reads := [o.cslot.t.toNat] }) ∧
    (∀ eps, postsTo s o eps → freeSend (s.m.core core) = none → exec (.copyOpStart core o.uid) s = .next s) ∧
    (isReceive o.instr = true → tagTaken (s.m.core core) o.cx (o.capA.setWidth 32) = false →
      let due := (s.m.core core).recvs.find? fun e => e.cx == o.cx && e.ready.tag == o.capA.setWidth 32 && e.owner == 0 && ((s.m.ctx o.cx).launch == some e.lid)
      (due = none → exec (.copyOpStart core o.uid) s = .next s) ∧
      (∀ e f, due = some e → wordFault o e.ready = some f → exec (.copyOpStart core o.uid) s = .next (put s (engineFault s.m o f false))) ∧
      (∀ e, due = some e → wordFault o e.ready = none → ∃ t, exec (.copyOpStart core o.uid) s = .next t ∧
        (t.m.core core).op? o.uid = some { o with started := true } ∧ { e with owner := o.uid } ∈ (t.m.core core).recvs ∧
        (∀ l, t.m.read l = s.m.read l) ∧
        ∃ h, (match e.image with
          | none => Msg.pull h false e.ready.sender e.ready.core e.ready.entry e.ready.gtag e.ready.endpoint e.ready.tag
          | some bs => Msg.pullData h e.ready.sender e.ready.core e.ready.entry e.ready.gtag e.ready.endpoint bs) ∈ t.m.wire ++ t.m.outbox)) ∧
    (∀ c, o.instr = .ttset c → o.resume = none →
      let n := o.cslot.w.toNat
      (∀ x, mget none (s.m.core core).table n = some x → x.fired = false → exec (.copyOpStart core o.uid) s = .next s) ∧
      ((∀ x, mget none (s.m.core core).table n = some x → x.fired = true) → bits o.capA 9 0 ≠ 0 → (s.m.core core).recvs = [] →
        ∃ t, exec (.copyOpStart core o.uid) s = .next t ∧
          mget none (t.m.core core).table n = some { cx := o.cx, op := o, tag := o.capB.setWidth 32, left := bits o.capA 9 0 } ∧
          (t.m.core core).op? o.uid = some { o with started := true, posted := true } ∧ ∀ l, t.m.read l = s.m.read l)) ∧
    (∀ c, o.instr = .ttfire c →
      let n := o.cslot.w.toNat
      (mget none (s.m.core core).table n = none →
        exec (.copyOpStart core o.uid) s = .next (put s (engineFault s.m o { cause := 0x15, info := BitVec.ofNat 64 (2 + n * 2 ^ 16) } false))) ∧
      (∀ x, mget none (s.m.core core).table n = some x → x.fired = false → x.fire = none →
        ∃ t, exec (.copyOpStart core o.uid) s = .next t ∧ mget none (t.m.core core).table n = some { x with fire := some o } ∧
          (t.m.core core).op? o.uid = some { o with started := true, posted := true } ∧ ∀ l, t.m.read l = s.m.read l) ∧
      (∀ x, mget none (s.m.core core).table n = some x → x.fired = true → freeSend (s.m.core core) = none →
        exec (.copyOpStart core o.uid) s = .next (put s ((s.m.modOp core o.uid fun o => { o with started := true, posted := true }).modOp core o.uid
          fun o => { o with progress := 1, reads := [x.op.cslot.t.toNat], types := x.op.types, exts := x.op.exts })))) ∧
    (∀ c bs, o.instr = .amsg c → engRead s.m o.cx o.capA.toNat 64 = .ok bs → bs.length = 64 →
      ∃ t h b, exec (.copyOpStart core o.uid) s = .next t ∧ b.length = 64 ∧ fld b 8 8 = o.weight.toNat ∧
        fld b 7 1 = (s.m.ctx o.cx).qwRoot.domain.toNat ∧ b.drop 16 = bs.drop 16 ∧ b.take 4 = bs.take 4 ∧
        Msg.activeMessage h b o.capB (BitVec.ofNat 10 (s.m.ctx o.cx).qwRoot.device) (s.m.ctx o.cx).qwRoot.gtag
          (((s.m.launchOf o.cx).map (·.kernel.handle)).getD 0) ∈ t.m.wire ++ t.m.outbox)) ∧
  (∀ m core o n, (m.core core).ops.filter EOp.awaitsEntry = [o] → (m.core core).op? o.uid = some o → coreOf o.cx = core →
    interlockFree (m.core core).ops o = true → freeSend (m.core core) = some n → o.handlerOp = true ∨ engineStopped (m.ctx o.cx) = false →
    (tileError m o = none → Posted m (fireWaiting m core) core n (o.reads.headD 0) o [o.capA]) ∧
    ∀ f, tileError m o = some f → fireWaiting m core = engineFault m o.unfired f false) ∧
  (∀ s cx o f gone rest es, (s.m.ctx cx).engFault = (o, f, gone) :: rest → (s.m.ctx cx).handler = false → (s.m.ctx cx).life = .running →
    (s.m.ctx cx).interruptible = true → (s.m.ctx cx).events = .found o.uid :: es → startedOps s.m cx = false →
    (unstartedOps s.m cx false).length ≤ 111 →
    ∃ u, exec (.engineFoundFault cx) s = .next u ∧ (u.m.ctx cx).events = .engine o.q.slotBits f :: es ∧
      (u.m.ctx cx).engFault = rest ∧ (u.m.ctx cx).wroteOut = true ∧
      (∀ e ∈ (u.m.core (coreOf cx)).ops, e.cx = cx → e.handlerOp = true ∨ e.started = true ∨ e.posted = true) ∧
      ∀ j, j ≠ cx → u.m.ctx j = s.m.ctx j)

/-- 12 R229 to R231, 13 R249: a push-fed slot that is empty starts to fill, a pull-fed slot marked done starts to drain; when its last item has
moved, the slot is full or empty and the full bits of its lines change together. -/
def Obligations.SubscriptionSlots : Prop :=
  ∀ s cx ring u, (s.m.ctx cx).sub? ring.toNat = some u →
    (subMayStart s.m cx u = true →
      (u.pull = false → u.states.getD u.slot .empty = .empty → exec (.pushSlotFilling cx ring) s = .next (put s (s.m.modCtx cx fun c =>
        c.modSub ring.toNat fun u => { u with states := lset u.states u.slot .busy, moved := 0 }))) ∧
      (u.pull = true → u.states.getD u.slot .empty = .marked → exec (.pullSlotDraining cx ring) s = .next (put s (s.m.modCtx cx fun c =>
        c.modSub ring.toNat fun u => { u with states := lset u.states u.slot .busy, moved := 0 })))) ∧
    (u.inProgress = true → u.moved = (subItems s.m cx u).length →
      (u.pull = false → ∃ t, exec (.pushSlotFull cx ring) s = .next t ∧
        t.m.ctx cx = ((s.m.setLines (slotLines cx (s.m.ctx cx) u u.slot) true).ctx cx).modSub ring.toNat (fun u =>
          { u with states := lset u.states u.slot .full, next := u.next + 1, moved := 0 }) ∧
        (∀ n ∈ slotLines cx (s.m.ctx cx) u u.slot, t.m.fullAt n = true) ∧ ∀ l, t.m.read l = s.m.read l) ∧
      (u.pull = true → ∃ t, exec (.pullSlotDrained cx ring) s = .next t ∧
        t.m.ctx cx = ((s.m.setLines (slotLines cx (s.m.ctx cx) u u.slot) false).ctx cx).modSub ring.toNat (fun u =>
          { u with states := lset u.states u.slot .empty, next := u.next + 1, moved := 0 }) ∧
        (∀ n ∈ slotLines cx (s.m.ctx cx) u u.slot, t.m.fullAt n = false) ∧ ∀ l, t.m.read l = s.m.read l))

/-- 14 R271, R274, R276, 15 R281 to R283, R289: an update that nothing earlier holds back meets a core under reset and is refused, or its
object away and is recorded in the launch's list, or an object of another tag and is refused, or else is applied: an arrival adds its arrivals
and bytes, a BEXPECT sets the bytes expected, the phase flips with the counts cleared and every BWAIT woken when both stand as expected, and
arrivals or bytes that overrun fault; a return adds its worth to its root exactly, the root is quiet just when its worth is the whole, and a
return with no root of its tag is counted and discarded. -/
def Obligations.BarriersAndRoots : Prop :=
  (∀ s cx u, (s.m.ctx cx).barrier = some u → UpdateDue (s.m.ctx cx) u →
    let lid := (s.m.ctx cx).launch.getD 0
    let o := s.m.barrier u.key
    let faulted (f : FaultRec) : State := put s (s.m.modCtx cx fun c => { c with barrier := none, await := some (.faulted f) })
    ((s.m.core u.core).inReset = true → exec (.barrierUpdate cx) s = .next (faulted { cause := 0x10, addr := u.addr })) ∧
    ((s.m.core u.core).inReset = false → Away s lid u → exec (.barrierUpdate cx) s = .next (put s
      ((s.m.modLaunch lid fun l => { l with deferred := l.deferred ++ [⟨u.core, u.seat, u.expect, u.arrivals, u.bytes, u.regionOff⟩] }).modCtx cx
        fun c => { c with barrier := none, await := some (.answered true false 0) }))) ∧
    ((s.m.core u.core).inReset = false → InPlace s lid u → (∀ l ∈ keyLocs u.key, s.m.errAt l = false) →
      (o.tag ≠ u.gtag → exec (.barrierUpdate cx) s = .next (faulted { cause := 0x10, addr := u.addr })) ∧
      (o.tag = u.gtag →
        (∀ info, overrun o u = some info → exec (.barrierUpdate cx) s = .next (faulted { cause := 0x0B, addr := u.addr, info := info })) ∧
        (overrun o u = none → u.bytes < 2 ^ 32 →
          ∃ t, exec (.barrierUpdate cx) s = .next t ∧ (t.m.ctx cx).barrier = none ∧ (t.m.ctx cx).await = some (.answered true false 0) ∧
            t.m.barrier u.key = updated o u ∧
            (∀ j, (s.m.ctx j).bwait = some (u.key, false) → (updated o u).phase ≠ o.phase → (t.m.ctx j).bwait = some (u.key, true)) ∧
            ∀ l, (∀ i, i < 16 → l ≠ .scratch (u.key + i)) → t.m.read l = s.m.read l)))) ∧
  (∀ (r : Root) w, r.excess = false → r.quiet = false → wScale w ≤ 15 →
    worth (r.add w).acc = worth r.acc + wAmount w * 2 ^ (59 * (15 - wScale w)) ∧
    ((r.add w).quiet = true ↔ worth r.acc + wAmount w * 2 ^ (59 * (15 - wScale w)) = 2 ^ 59 * 2 ^ (59 * 15)) ∧
    ((r.add w).excess = true ↔ 2 ^ 59 * 2 ^ (59 * 15) < worth r.acc + wAmount w * 2 ^ (59 * (15 - wScale w)))) ∧
  (∀ s d n k g w, (s.m.die d).rootQ[n]? = some (.ret k g w) →
    let m := s.m.modDie d fun x => { x with rootQ := x.rootQ.eraseIdx n }
    let r := m.root (d * 64 + k)
    (∀ lid, r.launch = some lid → r.gtag = g → (r.add w).quiet = false → (r.add w).excess = false →
      exec (.rootReturn d n) s = .next (put s ((m.setRoot (d * 64 + k) (r.add w)).modLaunch lid fun l => { l with active := true, lastReturn := m.time }))) ∧
    ((r.launch = none ∨ r.gtag ≠ g) → exec (.rootReturn d n) s = .next (put s { m with lostReturns := sat16 m.lostReturns })))

/-- 15 R279, R291, 17 R337, R338, R347 to R349, 18 R351, R352, 05 Table 05-4: a launch whose root is quiet, with no waiter and no work of
another domain left, completes: its writes are performed, its record is written and the notice of a failure posted (of kind 2 for a WATCHDOG
failure too, whose packet did not ask for one: DESIGN CHOICE, log 17), it is gone, the horizon of
its queue, where its entry can be read, is the lesser of the read index and the live launches', a failure sets the failure index and freezes the queue, and its root is free; a failing one completes when no context of it lives and an interval has passed with no return;
a tick after activity starts the next interval; one after an interval in which some context was stalled at every step and nothing was
active makes the launch fail, as CANCEL does, and its live contexts each get their event; a context is released an interval after its entry. -/
def Obligations.LaunchEnds : Prop :=
  (∀ s lid l, s.m.launch? lid = some l → (s.m.root l.domain).quiet = true → (s.m.root l.domain).waiter = none →
    (s.m.root l.domain).granted = none → (s.m.root l.domain).excess = false → workLeft s.m l = false →
    exec (.launchCompletion lid) s = .next (put s (completed s.m l)) ∧ (completed s.m l).launch? lid = none ∧ (completed s.m l).root l.domain = {}) ∧
  (∀ m l, let w := finishWrites m l
    let d := recordDone m l
    ((l.record = 0 ∨ l.record.toNat % 32 ≠ 0) → d.mem = w.mem ∧ d.hostMem = w.hostMem) ∧
    (l.record ≠ 0 → l.record.toNat % 32 = 0 →
      d.mem = (w.devWrite l.record.toNat (recordOf w l)).mem ∧ d.hostMem = (w.devWrite l.record.toNat (recordOf w l)).hostMem) ∧
    d.notices = w.notices ++ (if l.phase = .failing ∧ (l.notify = true ∨ l.failCause = 0x14) then
      [⟨2, l.failCause, l.failCore.toNat * 8, l.lid, 0, 0, w.time, w.deviceNo⟩] else [])) ∧
  (∀ (m : Mach) q, m.qFailure q ≠ none → raiseHorizon m q = m.logQueue q) ∧
  (∀ (m : Mach) q, m.qFailure q = none → ∃ h, raiseHorizon m q = m.qPut q 32 8 h ∧ h ≤ m.qGet q 24 8 ∧ (∀ l ∈ m.launches, lidQueue l.lid = q → h ≤ lidIndex l.lid) ∧
    (h = m.qGet q 24 8 ∨ ∃ l ∈ m.launches, lidQueue l.lid = q ∧ h = lidIndex l.lid)) ∧
  (∀ s lid l, s.m.launch? lid = some l → (s.m.root l.domain).quiet = false → exec (.launchCompletion lid) s = .next s) ∧
  (∀ s lid l, s.m.launch? lid = some l → l.phase = .failing →
    ((∀ cx ∈ l.allCtxs, (s.m.ctx cx).life = .free) → workLeft s.m l = false → l.interval ≤ (s.m.time - l.lastReturn).toNat →
      exec (.failureInterval lid) s = .next (put s (completed s.m l)) ∧ (completed s.m l).launch? lid = none ∧ (completed s.m l).root l.domain = {}) ∧
    ((s.m.time - l.lastReturn).toNat < l.interval → exec (.failureInterval lid) s = .next s)) ∧
  (∀ s cx since l, (s.m.ctx cx).leaveAt = some since → s.m.launchOf cx = some l → (s.m.ctx cx).released = false →
    (l.interval ≤ (s.m.time - since).toNat →
      ∃ t, exec (.forcedRelease cx) s = .next t ∧ (t.m.ctx cx).released = true ∧ (t.m.ctx cx).qw = 0 ∧ (t.m.ctx cx).out = []) ∧
    ((s.m.time - since).toNat < l.interval → exec (.forcedRelease cx) s = .next s)) ∧
  (∀ s lid l, s.m.launch? lid = some l → l.phase = .running → l.tickAt.toNat ≤ s.m.time.toNat → l.active = true →
    let due := 1 + (s.m.time - l.tickAt).toNat / max 1 l.interval
    exec (.watchdogTick lid) s = .next (put s (s.m.modLaunch lid fun l =>
      { l with tickAt := l.tickAt + BitVec.ofNat 64 (due * max 1 l.interval), active := false, stalledAll := true, nothing := true,
               idleTicks := 0 }))) ∧
  (∀ s lid l, s.m.launch? lid = some l → l.phase = .running → l.tickAt.toNat ≤ s.m.time.toNat → l.active = false → l.stalledAll = true →
    ∃ t x, exec (.watchdogTick lid) s = .next t ∧ t.m.launch? lid = some x ∧ x.phase = .failing ∧ x.failCause = 0x14 ∧
      ∀ cx ∈ l.allCtxs, (s.m.ctx cx).life = .running → (s.m.ctx cx).entry ≠ some .leave →
        CtxEvent.watchdog l.interval ∈ (t.m.ctx cx).events) ∧
  (∀ s lid l, Asked s 5 lid → s.m.launch? lid = some l → l.phase ≠ .failing →
    ∃ t x, exec (.cancelLaunch lid) s = .next t ∧ t.m.launch? lid = some x ∧ x.phase = .failing ∧ x.cancelled = true ∧
      t.m.mgmtAt 0x078 = 0 ∧ ∀ cx ∈ l.allCtxs, (s.m.ctx cx).life = .running → (s.m.ctx cx).entry ≠ some .leave →
        CtxEvent.cancel 0 0 ∈ (t.m.ctx cx).events)

/-- 05 R78 to R89, R94: a write to a notify register names a queue: a mapped one is looked at, an unmapped enabled one is marked pending, any other
write is counted as lost; a marked queue takes a free slot, with the time of its notify; while every slot is in use the mapped queue that is
empty or frozen and longest without a notify gives its slot up, and keeps the time of its notify and the decisions that passed its head over
(log 87); the head a die decides next is refused,
completed unrun, admitted as a launch, consumed as a no-op, or handed as a record to its launch; and one whose reservation waits for gated
cores has them wake. -/
def Obligations.QueueEvents : Prop :=
  (∀ s die off size v,
    let q := v.toNat % 4096
    ((off ≠ 0 ∨ size ∉ [2, 4, 8]) →
      exec (.notifyRegisterWrite die off size v) s = .next (put s { s.m with lostNotifies := sat16 s.m.lostNotifies })) ∧
    (off = 0 → size ∈ [2, 4, 8] → s.m.qEnabled q = false →
      exec (.notifyRegisterWrite die off size v) s = .next (put s { s.m.logQueue q with lostNotifies := sat16 s.m.lostNotifies })) ∧
    (off = 0 → size ∈ [2, 4, 8] → s.m.qEnabled q = true →
      ∃ t, exec (.notifyRegisterWrite die off size v) s = .next t ∧ t.m.lostNotifies = s.m.lostNotifies ∧
        (∀ cx, (s.m.ctx cx).idleAt = some (2 ^ 32 + q) → (t.m.ctx cx).idleAt = none) ∧
        ((∃ x ∈ (s.m.die (s.m.qHome q)).slots, x.q = q) → t.m.mem = s.m.mem ∧
          (t.m.die (s.m.qHome q)).slots = (s.m.die (s.m.qHome q)).slots.map fun x => if x.q = q then { x with lastNotify := s.m.time } else x) ∧
        ((∀ x ∈ (s.m.die (s.m.qHome q)).slots, x.q ≠ q) → t.m.mem = (s.m.qSetFlag q 1 true).mem ∧ t.m.dies = (s.m.qSetFlag q 1 true).dies ∧
          mget? t.m.notifyAt q = some s.m.time))) ∧
  (∀ s (die : BitVec 2) (q : BitVec 12), s.m.qEnabled q.toNat = true → s.m.qHome q.toNat = die.toNat → s.m.qFlag q.toNat 1 = true →
    (s.m.die die.toNat).slot? q.toNat = none → (s.m.die die.toNat).slots.length < 64 →
    ∃ t no, exec (.queueMap die q) s = .next t ∧ no < 64 ∧ (∀ x ∈ (s.m.die die.toNat).slots, x.no ≠ no) ∧
      (t.m.die die.toNat).slots = (s.m.die die.toNat).slots ++
        [{ q := q.toNat, no := no, lastNotify := mget s.m.time s.m.notifyAt q.toNat, passed := mget 0 s.m.passedAt q.toNat }] ∧
      t.m.mem = ((s.m.qSetFlag q.toNat 1 false).qSetFlag q.toNat 3 true).mem) ∧
  (∀ s (die : BitVec 2) (q : BitVec 12) x, (s.m.die die.toNat).slot? q.toNat = some x →
    ((s.m.die die.toNat).slots.length = 64 → unmappable s.m q.toNat = true →
      (∀ y ∈ (s.m.die die.toNat).slots, unmappable s.m y.q = true → x.lastNotify.toNat ≤ y.lastNotify.toNat) →
      (s.m.qSetFlag q.toNat 3 false).qFlag q.toNat 1 = false →
      ∃ t, exec (.queueUnmap die q) s = .next t ∧
        (t.m.die die.toNat).slots = (s.m.die die.toNat).slots.filter (fun y => y.q != q.toNat) ∧ t.m.mem = (s.m.qSetFlag q.toNat 3 false).mem ∧
        mget? t.m.notifyAt q.toNat = some x.lastNotify ∧ mget 0 t.m.passedAt q.toNat = x.passed) ∧
    ((s.m.die die.toNat).slots.length ≠ 64 → exec (.queueUnmap die q) s = .next s)) ∧
  (∀ s (die : BitVec 2) (q : BitVec 12) x cores, (s.m.die die.toNat).slot? q.toNat = some x → readyOf s.m q.toNat = .wait cores →
    ∃ t, exec (.launchPacket die q) s = .next t ∧ Woken s t cores) ∧
  (∀ s die q no i bs, DecidedNext s die q no i bs →
    ((readyOf s.m q.toNat = .broken ∨ ∃ r, readyOf s.m q.toNat = .refuse r) →
      ∃ t, exec (.launchPacket die q) s = .next t ∧ t.m.launches = s.m.launches ∧ (t.m.die die.toNat).rr = (no.no + 1) % 64) ∧
    (∀ p r, readyOf s.m q.toNat = .accept p r → (∀ x ∈ s.m.launches, x.lid ≠ lidOf p.q p.i) →
      ∃ t l, exec (.launchPacket die q) s = .next t ∧ l ∈ t.m.launches ∧ l.lid = lidOf p.q p.i ∧
      l.kernel = p.kernel ∧ l.windows = p.windows ∧ l.phase = .running ∧ l.root = r.root ∧ l.home = s.m.qHome p.q ∧ l.next = 0 ∧
      (t.m.root l.domain).launch = some l.lid) ∧
    (readyOf s.m q.toNat = .noop → ∃ t, exec (.noOp die q) s = .next t ∧ t.m.launches = s.m.launches ∧
      (t.m.die die.toNat).rr = (no.no + 1) % 64 ∧ t.m.mem = (raiseHorizon (consumeHead s.m q.toNat) q.toNat).mem) ∧
    (∀ lid l, readyOf s.m q.toNat = .record (some lid) → s.m.launch? lid = some l → l.phase ≠ .failing →
      ∃ t x, exec (.tileRecord die q) s = .next t ∧ t.m.launch? lid = some x ∧ x.recOut = l.recOut - 1 ∧
        x.records = l.records ++ [taskOfRecord bs (mget (l.rootRef s.m) s.m.recRoots (lidOf q.toNat i).toNat) false]))

/-- 05 R90 to R94, 10 R192, 15 R299, R301: a task is dealt to the next free context, a spawned one first, then that of an active message or a
stolen record, then that of a record, else the next of the grid with its share of the weight; it starts at its entry point with its
coordinates; with nothing to deal nothing moves; a launch with work claims a further seat where there is room and credit, a gated core first
made to wake; the scheduler
answers an ESCAL, an LCOMMIT, a waiting SPAWN, which waits on while the list is full, and an LREC: refused for a queue that is no record queue,
dropped below the horizon, waiting while the queue is full, else written and notified; the share that a SPAWN or a record carries leaves QW with
its answer (15 R286; log 29). -/
def Obligations.Scheduling : Prop :=
  (∀ s lid l key cx, s.m.launch? lid = some l → l.phase = .running → nextCtx s.m l = some (key, cx) →
    (∀ t r, l.spawns = t :: r → t.entry < l.kernel.entries.length →
      ∃ u x, exec (.dealTask lid) s = .next u ∧ Started (u.m.ctx cx) l t ∧ u.m.launch? lid = some x ∧ x.spawns = r ∧ x.lastSeat = key) ∧
    (∀ t r, l.spawns = [] → l.msgs = t :: r → t.entry < l.kernel.entries.length →
      ∃ u x, exec (.dealTask lid) s = .next u ∧ Started (u.m.ctx cx) l t ∧ u.m.launch? lid = some x ∧ x.msgs = r ∧ x.lastSeat = key) ∧
    (∀ t r, l.spawns = [] → l.msgs = [] → l.records = t :: r → t.entry < l.kernel.entries.length →
      ∃ u x, exec (.dealTask lid) s = .next u ∧ Started (u.m.ctx cx) l t ∧ u.m.launch? lid = some x ∧ x.records = r ∧ x.lastSeat = key) ∧
    (l.spawns = [] → l.msgs = [] → l.records = [] → l.next < l.gridSize → 0 < l.kernel.entries.length →
      ∃ u x, exec (.dealTask lid) s = .next u ∧
        Started (u.m.ctx cx) l (gridTask l (l.rootRef s.m) (dealShare l.dealt l.dealer).1 l.next) ∧
        u.m.launch? lid = some x ∧ x.next = l.next + 1 ∧ x.dealt = l.dealt + 1) ∧
    (l.hasWork = false → exec (.dealTask lid) s = .next s)) ∧
  (∀ s lid l k cr, s.m.launch? lid = some l → l.phase = .running → l.kernel.persistent = false → l.hasWork = true →
    seatCore s.m l.kernel l.home l.wide = some k → canPlace s.m l.kernel k = true →
    creditsFor s.m l.kernel l.credits (k :: l.seats.map (·.core)) = some cr →
    ∃ t x st, exec (.claimSeat lid) s = .next t ∧ t.m.launch? lid = some x ∧ x.seats = l.seats ++ [st] ∧ st.core = k ∧ st.resident = true ∧
      ∀ cx ∈ st.ctxs, coreOf cx = k ∧ (t.m.ctx cx).life = .free ∧ (t.m.ctx cx).launch = some lid) ∧
  (∀ s lid l k cr, s.m.launch? lid = some l → l.phase = .running → l.kernel.persistent = false → l.hasWork = true →
    seatCore s.m l.kernel l.home l.wide = some k → canPlace s.m l.kernel k = false →
    creditsFor s.m l.kernel l.credits (k :: l.seats.map (·.core)) = some cr → ∃ t, exec (.claimSeat lid) s = .next t ∧ Woken s t [k]) ∧
  (∀ s d n r l, Waits s d n r l →
    (∀ cx, r = .escal cx l.lid →
      (l.budget = 0 → exec (.schedulerReceipt d n) s = .next (put s (served d n (answer s.m cx false false 0)))) ∧
      (l.budget ≠ 0 → exec (.schedulerReceipt d n) s = .next (put s (served d n
        (answer (s.m.modLaunch l.lid fun l => { l with budget := l.budget - 1 }) cx true false (BitVec.ofNat 64 (l.budget - 1))))))) ∧
    (∀ cx b, r = .lcommit cx l.lid b → exec (.schedulerReceipt d n) s = .next (put s (served d n
      (answer (s.m.modLaunch l.lid fun l => { l with horizon := max l.horizon (b + 1) }) cx true false 0)))) ∧
    (∀ cx t, r = .spawn cx l.lid t →
      (spawnsOn s.m d < spawnCap → exec (.schedulerReceipt d n) s = .next (put s (served d n
        (answer ((s.m.modLaunch l.lid fun l => { l with spawns := l.spawns ++ [t] }).modCtx cx paid) cx true false 0)))) ∧
      (spawnCap ≤ spawnsOn s.m d → exec (.schedulerReceipt d n) s = .next s)) ∧
    (∀ cx q b bs give host, r = .lrec cx l.lid q b bs give host →
      (s.m.qEnabled q = false ∨ s.m.qFlag q 4 = false →
        exec (.schedulerReceipt d n) s = .next (put s (served d n (answer (s.m.logQueue q) cx false true 0)))) ∧
      (s.m.qEnabled q = true → s.m.qFlag q 4 = true →
        (b < l.horizon → exec (.schedulerReceipt d n) s = .next (put s (served d n (answer s.m cx false false 0)))) ∧
        (l.horizon ≤ b → 2 ^ s.m.qCap q ≤ s.m.qGet q 16 8 - s.m.qGet q 24 8 → exec (.schedulerReceipt d n) s = .next s) ∧
        (l.horizon ≤ b → s.m.qGet q 16 8 - s.m.qGet q 24 8 < 2 ^ s.m.qCap q → (s.m.ctx cx).qwRoot = l.rootRef s.m →
          exec (.schedulerReceipt d n) s = .next (put s (served d n (answer
            (((((s.m.qPut q 16 8 (s.m.qGet q 16 8 + 1)).devStore (s.m.qHome q)
              (s.m.qGet q 0 8 + 64 * (s.m.qGet q 16 8 % 2 ^ s.m.qCap q)) (recordBytes bs l.domain b give)).modLaunch l.lid
                fun l => { l with recOut := l.recOut + 1 }).notify q).modCtx cx paid) cx true false 0)))))))

/-- 17 R339 to R341, 18 R358: a PREEMPT request puts its event before every running context and the launch stops; a launch without handler or
failing refuses it; once everything has stopped each running context enters its handler at the save entry, one that drains draining on until its
sends, now spilled, are taken, or the request is declined where the
spill area has no place; a swapped launch restores, a seat of it is claimed again on its core where there is room, a gated core first made to
wake, and a saved context of that seat enters its handler at the restore entry with its saved pc, where that can be read. -/
def Obligations.SwapOutAndRestore : Prop :=
  (∀ s lid, Asked s 3 lid →
    (s.m.launch? lid = none → exec (.preemptLaunch lid) s = .next (put s (reqDone s.m 2))) ∧
    (∀ l, s.m.launch? lid = some l → (l.phase = .failing ∨ l.phase = .running ∧ l.kernel.handler = none) →
      exec (.preemptLaunch lid) s = .next (put s (reqDone s.m 1))) ∧
    (∀ l, s.m.launch? lid = some l → l.phase = .running → l.kernel.handler ≠ none →
      ∃ t x, exec (.preemptLaunch lid) s = .next t ∧ t.m.launch? lid = some x ∧ x.phase = .stopping ∧
        (∀ cx ∈ l.allCtxs, (s.m.ctx cx).life = .running → CtxEvent.preempt ∈ (t.m.ctx cx).events) ∧
        (∀ cx, cx ∉ l.allCtxs → t.m.ctx cx = s.m.ctx cx) ∧ t.m.mgmt = s.m.mgmt ∧ ∀ a, t.m.read a = s.m.read a)) ∧
  (∀ s lid l, s.m.launch? lid = some l → l.phase = .stopping → l.saved = [] → reqBusy s.m 3 = true → stopped s.m l = true →
    (∀ pc ps, l.handlerPc = some pc → spillPlaces l.kernel.spill l.spillUsed (unspilled s.m l) = some ps →
      ∃ t, exec (.saveEntry lid) s = .next t ∧ t.m.mgmtAt 0x078 = 0 ∧
        ∀ cx ∈ l.allCtxs, ((s.m.ctx cx).life = .running → AtHandler (t.m.ctx cx) pc 0 .save) ∧
          ((s.m.ctx cx).life = .draining → (t.m.ctx cx).life = .draining)) ∧
    (spillPlaces l.kernel.spill l.spillUsed (unspilled s.m l) = none →
      ∃ t x, exec (.saveEntry lid) s = .next t ∧ t.m.mgmtAt 0x078 = 16 ∧ t.m.launch? lid = some x ∧ x.phase = .running ∧
        ∀ cx ∈ l.allCtxs, CtxEvent.preempt ∉ (t.m.ctx cx).events)) ∧
  (∀ s lid, Asked s 4 lid →
    (s.m.launch? lid = none → exec (.restoreLaunch lid) s = .next (put s (reqDone s.m 2))) ∧
    (∀ l, s.m.launch? lid = some l → (l.phase = .running ∨ l.phase = .failing) → exec (.restoreLaunch lid) s = .next (put s (reqDone s.m 1))) ∧
    (∀ l, s.m.launch? lid = some l → l.phase = .swapped → ∃ t x, exec (.restoreLaunch lid) s = .next t ∧ t.m.launch? lid = some x ∧
      x.phase = .restoring ∧ t.m.mgmtAt 0x078 = 0 ∧ t.m.ctxs = s.m.ctxs)) ∧
  (∀ s lid core l st pc x, s.m.launch? lid = some l → l.phase = .restoring → 
    l.oldSeats.find? (fun y => y.core == core && y.ctxs.all (freeCtxs s.m core).contains) = some st →
    l.handlerPc = some pc → regionPlaces s.m core st.size ≠ [] → (s.m.core core).gated = false →
    (s.m.core core).inReset = false → tilesUsed s.m core + st.ctxs.length * l.kernel.tiles ≤ 8 →
    x.core = core → 8 * x.core + x.ctx ∈ st.ctxs → l.saved.filter (fun y => 8 * y.core + y.ctx == 8 * x.core + x.ctx) = [x] →
    ∃ t z, exec (.restoreSeatClaim lid core) s = .next t ∧ t.m.launch? lid = some z ∧ z.oldSeats = l.oldSeats.erase st ∧
      AtHandler (t.m.ctx (8 * x.core + x.ctx)) pc 1 .restore ∧
      (s.m.devFailure (x.shadow.toNat + 24) 8 false = none →
        (t.m.ctx (8 * x.core + x.ctx)).faultPc = BitVec.ofNat 64 (s.m.devNat (x.shadow.toNat + 24) 8)) ∧ z.seats.length = l.seats.length + 1) ∧
  (∀ s lid core l st pc, s.m.launch? lid = some l → l.phase = .restoring →
    l.oldSeats.find? (fun y => y.core == core && y.ctxs.all (freeCtxs s.m core).contains) = some st →
    l.handlerPc = some pc → (s.m.core core).gated = true → ∃ t, exec (.restoreSeatClaim lid core) s = .next t ∧ Woken s t [core])

/-- 18 R353, R357, R358 with Tables 18-3 and 18-4, 16 R312: the management requests but PREEMPT, RESTORE and CANCEL have their effect and end
with their result, the resuming of a context whose operations were written out aside; a write to a register keeps the bits it has, to
POWER_LIMIT a value from 1800 to 3600; a write to REQUEST starts the request it names unless one is in progress. -/
def Obligations.ManagementRequests : Prop :=
  (∀ s, reqBusy s.m 1 = true → ∃ t, exec .invalidateInstructionCaches s = .next t ∧ (∀ k, (t.m.core k).icache = []) ∧ t.m.mgmtAt 0x078 = 0 ∧
    t.m.ctxs = s.m.ctxs ∧ ∀ l, t.m.read l = s.m.read l) ∧
  (∀ s, reqBusy s.m 2 = true → ∃ t, exec .invalidateTranslationCaches s = .next t ∧ (∀ k, (t.m.core k).tlb = []) ∧ (∀ d, (t.m.die d).tlb = []) ∧
    t.m.mgmtAt 0x078 = 0 ∧ t.m.ctxs = s.m.ctxs ∧ ∀ l, t.m.read l = s.m.read l) ∧
  (∀ s cx, reqBusy s.m 6 = true → argCtx s.m = cx →
    ((s.m.ctx cx).life ≠ .parked → exec (.resumeParked cx) s = .next (put s (reqDone s.m 2))) ∧
    (∀ l, (s.m.ctx cx).life = .parked → s.m.launchOf cx = some l → cx < 1280 → (s.m.ctx cx).wroteOut = false →
      exec (.resumeParked cx) s = .next (put s (reqDone (s.m.modCtx cx resumed) 0)))) ∧
  (∀ s cx l, reqBusy s.m 7 = true → argCtx s.m = cx → (s.m.ctx cx).life = .parked → s.m.launchOf cx = some l → cx < 1280 →
    ∃ t x, exec (.failParked cx) s = .next t ∧ (t.m.ctx cx).released = true ∧ t.m.mgmtAt 0x078 = 0 ∧ t.m.launch? l.lid = some x ∧ x.phase = .failing) ∧
  (∀ s q, Asked s 8 q →
    (4096 ≤ q.toNat → exec (.clearQueueFrozen q) s = .next (put s (reqDone s.m 2))) ∧
    (q.toNat < 4096 →
      let m := (s.m.qSetFlag q.toNat 2 false).qPut q.toNat 40 8 (2 ^ 64 - 1)
      let waits := (∀ x ∈ (m.die (m.qHome q.toNat)).slots, x.q ≠ q.toNat) ∧ m.qEnabled q.toNat = true ∧ m.qGet q.toNat 24 8 ≠ m.qGet q.toNat 16 8
      (¬waits → exec (.clearQueueFrozen q) s = .next (put s (reqDone m 0))) ∧
      (waits → exec (.clearQueueFrozen q) s = .next (put s (reqDone (m.qSetFlag q.toNat 1 true) 0))))) ∧
  (∀ s dst port, Asked s 9 dst → arg1 s.m = port →
    (1024 ≤ dst.toNat → exec (.setRoutingEntry dst port) s = .next (put s (reqDone s.m 2))) ∧
    (dst.toNat < 1024 → ∃ t, exec (.setRoutingEntry dst port) s = .next t ∧ t.m.mgmtAt 0x078 = 0 ∧
      routeOf t.m dst.toNat = some ⟨port.extractLsb' 4 2, port.extractLsb' 0 2⟩ ∧ ∀ j, j ≠ dst.toNat → routeOf t.m j = routeOf s.m j)) ∧
  (∀ s addr n, Asked s 10 addr → arg1 s.m = n → s.m.attest = [] →
    (256 + 2 ^ 24 < n.toNat → exec (.loadFirmware addr n) s = .next (put s (reqDone s.m 2))) ∧
    (∀ f, n.toNat ≤ 256 + 2 ^ 24 → readFailure s.m addr.toNat n.toNat = some f →
      exec (.loadFirmware addr n) s = .next (put s (reqDone (s.m.logDev 0 (some f)) 2))) ∧
    (readFailure s.m addr.toNat n.toNat = none → n.toNat ≤ 256 + 2 ^ 24 →
      let good := checkImage (s.m.devRead addr.toNat n.toNat) = 0
      ∃ t, exec (.loadFirmware addr n) s = .next t ∧ t.m.mgmtAt 0x078 = (if good then 0 else 16) ∧
        ∀ d, d < 4 → if good then (t.m.die d).fw = 0 ∧ (t.m.die d).booted = true ∧ (t.m.die d).image = some (imageDigest (s.m.devRead addr.toNat n.toNat))
          else (s.m.die d).booted = true → t.m.die d = s.m.die d)) ∧
  (∀ s, reqBusy s.m 11 = true → ∃ t, exec .clearCounters s = .next t ∧ t.m.mgmtAt 0x078 = 0 ∧ t.m.eccCorrected = 0 ∧ t.m.lostNotifies = 0 ∧
    t.m.lostReturns = 0 ∧ t.m.lostFlits = 0 ∧ ∀ d, d < 4 → (t.m.die d).errlog = [] ∧ (t.m.die d).errHead = 0) ∧
  (∀ s, reqBusy s.m 12 = true → ∃ t, exec .retrainLinks s = .next t ∧ t.m.mgmtAt 0x078 = 0 ∧ t.m.deviceNo = s.m.mgmtAt 0x008 % 1024 ∧
    ∀ p, s.m.bridgePort p = false → (s.m.port p).phase ≠ .down → (t.m.port p).phase = .offering) ∧
  (∀ s v, ∃ t, exec (.powerLimitWrite v) s = .next t ∧ t.m.mgmtAt 0x048 = max 1800 (min 3600 v.toNat) ∧ (∀ o, o ≠ 0x048 → t.m.mgmtAt o = s.m.mgmtAt o)) ∧
  (∀ s o v,
    (∀ k, o ≠ 0x048 → o ≠ 0x070 → mgmtMask s.m.brgSel o = some k → ∃ t, exec (.mgmtRegisterWrite o v) s = .next t ∧ t.m.mgmtAt o = v.toNat &&& k ∧
      ∀ j, j ≠ o → t.m.mgmtAt j = s.m.mgmtAt j) ∧
    (o ≠ 0x048 → o ≠ 0x070 → mgmtMask s.m.brgSel o = none → exec (.mgmtRegisterWrite o v) s = .next s) ∧
    (s.m.mgmtAt 0x078 % 2 = 1 → exec (.mgmtRegisterWrite 0x070 v) s = .next s) ∧
    (s.m.mgmtAt 0x078 % 2 = 0 → ∃ t, exec (.mgmtRegisterWrite 0x070 v) s = .next t ∧ t.m.mgmtAt 0x070 = v.toNat % 256 ∧
      t.m.mgmtAt 0x078 = if 1 ≤ v.toNat % 256 ∧ v.toNat % 256 ≤ 12 then 1 else 32))

/-- 12 R222, R223, 14 R276, 16 R316, 18 R355, R356: the governor's clock steps by its sample, whose next time is the model's reading (DEDUCED,
log 71); a core idle for 2^20 counts is gated, and wakes for a claim that has met it; a core under reset is marked and leaves with its seats
gone and their regions zero; a device reset keeps the bytes of HBM and of the host, with the straps sampled anew, and empties the rest; a soft
error is counted where it is corrected, else drops its cached line (of 128 bytes in the instruction cache: the model's choice, log 84) or
marks its site, a byte of a tile holding nothing any more. -/
def Obligations.PowerAndResets : Prop :=
  (∀ s avg,
    (s.m.time.toNat < s.m.govAt.toNat → exec (.governorSample avg) s = .next s) ∧
    (s.m.govAt.toNat ≤ s.m.time.toNat → ∃ t, exec (.governorSample avg) s = .next t ∧ t.m.govAt = s.m.time + 65536 ∧ t.m.ctxs = s.m.ctxs ∧
      (s.m.mgmtAt 0x048 < avg → t.m.govK = max 16 (s.m.govK - 1)) ∧
      (100 * avg < 95 * s.m.mgmtAt 0x048 → t.m.govK = min 32 (s.m.govK + 1)) ∧
      (avg ≤ s.m.mgmtAt 0x048 → 95 * s.m.mgmtAt 0x048 ≤ 100 * avg → t.m.govK = s.m.govK))) ∧
  (∀ s k,
    (seatsOn s.m k = [] → (s.m.core k).waking = false → 2 ^ 20 ≤ (s.m.time - (s.m.core k).idleSince).toNat →
      exec (.powerGate k) s = .next (put s (s.m.modCore k fun c => { c with gated := true, icache := [], l1 := [], tlb := [] }))) ∧
    ((seatsOn s.m k ≠ [] ∨ (s.m.core k).waking = true ∨ (s.m.time - (s.m.core k).idleSince).toNat < 2 ^ 20) → exec (.powerGate k) s = .next s) ∧
    ((s.m.core k).waking = true → exec (.coreWake k) s = .next (put s (s.m.modCore k fun c => { c with gated := false }))) ∧
    ((s.m.core k).waking = false → exec (.coreWake k) s = .next s)) ∧
  (∀ s k,
    exec (.coreReset k false) s = .next (put s (s.m.modCore k fun c => { c with inReset := true })) ∧
    ((s.m.core k).inReset = true → ∃ t, exec (.coreReset k true) s = .next t ∧ t.m.core k = { idleSince := s.m.time } ∧
      ∀ st ∈ seatsOn s.m k, (∀ cx ∈ st.ctxs, t.m.ctx cx = {}) ∧ ∀ o, o < st.size → t.m.read (.scratch (scratchKey k (st.base + o))) = 0)) ∧
  (∀ s b g, ∃ t, exec (.deviceReset b g) s = .next t ∧ t.issue = {} ∧ t.m.brgSel = b ∧ t.m.grpPos = g ∧ t.m.mem = s.m.mem ∧
    t.m.hostMem = s.m.hostMem ∧ t.m.scratch = [] ∧ t.m.launches = [] ∧ t.m.ctxs = [] ∧ t.m.cores = [] ∧ t.m.dies = [] ∧ t.m.ports = [] ∧ t.m.mgmt = []) ∧
  (∀ s site, exec (.softError site true) s = .next (put s { s.m with eccCorrected := s.m.eccCorrected + 1 })) ∧
  (∀ s k a, exec (.softError (.icache k a) false) s = .next (put s (s.m.modCore k fun c => { c with icache := mdel c.icache (a / 128) }))) ∧
  (∀ s k l, exec (.softError (.l1 k l) false) s = .next (put s (s.m.modCore k fun c => { c with l1 := mdel c.l1 l }))) ∧
  (∀ s cx n i sc, ∃ t, exec (.softError (.tile cx n i sc) false) s = .next t ∧ t.m = { s.m with ctxs := t.m.ctxs, errs := t.m.errs } ∧
    (∀ x, x ∈ t.m.errs ↔ x ∈ s.m.errs ∨ x = .tile cx n i sc) ∧ (∀ j, j ≠ cx → t.m.ctx j = s.m.ctx j) ∧
    (∀ k, k ≠ n → (t.m.ctx cx).tile k = (s.m.ctx cx).tile k) ∧
    (t.m.ctx cx).tile n = (let x := (s.m.ctx cx).tile n
      if sc then { x with scales := mdel x.scales i } else { x with data := mdel x.data i, part := mdel x.part i })) ∧
  (∀ s site, (∀ k a, site ≠ .icache k a ∧ site ≠ .l1 k a) → (∀ cx n i sc, site ≠ .tile cx n i sc) →
    ∃ t, exec (.softError site false) s = .next t ∧ t.m = { s.m with errs := t.m.errs } ∧ ∀ x, x ∈ t.m.errs ↔ x ∈ s.m.errs ∨ x = site)

/-- 05 R96, R97, 15 R287 to R289, 16 R305, R306, R308, R311, R315, R317 to R324: a message that a link brings out of sequence is discarded,
one of a class its link has not negotiated is discarded and counted, one for a third device is passed on, a second copy of one that carries
weight is dropped, known by the link sequence number of its first copy (the port of arrival and what makes a copy: log 58).  Any other acts:
an access to a management register, to readable or writable memory, or an atomic on device memory is performed and answered, one that is
unsupported is answered so and logged; an answer completes the host's request; a send-ready is listed where there is room, refused where no
launch is named; a pull of a tile is answered with its image, of the tile or its spill copy, one of another device counting when it is answered
(log 26), and its data completes a receive without barrier; a misaligned atomic is answered as unsupported (log 99); weight returns to
its root; an active message is listed as a task or its weight returns; the token is held, forwarded and issued anew; a steal request gets
a grant of at most eight of the records in excess, of nothing where there is no excess, a grant's records are listed or go back, a record that came back is listed first; a notice reaches the host.
A move in which a port brings a message is the message's event with that port named, and leaves none named. -/
def Obligations.LinkMessages : Prop :=
  (∀ s i x, messageOf i = some x → ByLink s x →
    (outOfSequence s.m = true → exec i s = .next s) ∧
    (outOfSequence s.m = false → unnegotiated s x = true → exec i s = .next (put s ((received s x).lose x.flitCount))) ∧
    (outOfSequence s.m = false → unnegotiated s x = false → x.hdr.dst.toNat ≠ s.m.deviceNo → (x.isWeighted = true → repeated s.m = false) →
      exec i s = .next (put s { kept s x with outbox := (kept s x).outbox ++ [x] })) ∧
    (outOfSequence s.m = false → unnegotiated s x = false → x.isWeighted = true → repeated s.m = true →
      exec i s = .next (put s (received s x)))) ∧
  (∀ s a i t, isEvent i = true → wellFormed i = true → (s.m.ready = true ∨ servedAlways i = true) →
    exec i (put s { s.m with rx := some a }) = .next t → perform (.arrive a i) s = .next (put t { t.m with rx := none })) ∧
  (∀ s h m,
    (∀ a v, Accepted s (.read h 1 8 a) m → mgmtRead m a.toNat = some v →
      exec (.read h 1 8 a) s = .next (put s (m.reply h (.readAnswer (back h) 0 8 a (leBytes 8 v))))) ∧
    (∀ n a, Accepted s (.read h 0 n a) m → 1 ≤ n → n ≤ 4096 → OuterOk m a.toNat n true false →
      ∃ m2 : Mach, m2 = { m with l2 := m2.l2, fresh := m2.fresh } ∧
        exec (.read h 0 n a) s = .next (put s (m2.reply h (.readAnswer (back h) 0 n a (m.devRead a.toNat n))))) ∧
    (∀ a k data, Accepted s (.write h 1 8 a k data) m → data.length = 8 → k.toNat % 256 = 255 → (mgmtRead m a.toNat).isSome = true →
      exec (.write h 1 8 a k data) s = .next (put s ((mgmtWrite m a.toNat (word64 data)).reply h (.writeAnswer (back h) 0 8 a)))) ∧
    (∀ n a k data, Accepted s (.write h 0 n a k data) m → data.length = n → 1 ≤ n → n ≤ 4096 → OuterOk m a.toNat n false true →
      ∃ m2 : Mach, m2 = { m with l2 := m2.l2, fresh := m2.fresh } ∧
        let on := ((upFrom 0 n).zip data).filter fun x => decide (64 < n) || k.getLsbD x.1
        exec (.write h 0 n a k data) s = .next (put s ((on.foldl (fun m x => m.devWrite (a.toNat + x.1) [x.2]) m2).reply h
          (.writeAnswer (back h) 0 n a)))) ∧
    (∀ sp n a, Accepted s (.read h sp n a) m → 2 < sp.toNat →
      exec (.read h sp n a) s = .next (put s ((loggedNo m a.toNat).reply h (.readAnswer (back h) 4 n a [])))) ∧
    (∀ sp n a k data, Accepted s (.write h sp n a k data) m → 2 < sp.toNat →
      exec (.write h sp n a k data) s = .next (put s ((loggedNo m a.toNat).reply h (.writeAnswer (back h) 4 n a)))) ∧
    (∀ op sc a x y, Accepted s (.atomic h op sc a x y) m → 0x10 ≤ op.toNat → op.toNat ≤ 0x1A →
      let n := if op = 0x1A then 4 else 8
      a.toNat % n = 0 → OuterOk m a.toNat n true true → (∀ p, m.sysLoc a.toNat ≠ some (.host p)) →
      ∃ m2 : Mach, m2 = { m with l2 := m2.l2, fresh := m2.fresh } ∧
        exec (.atomic h op sc a x y) s = .next (put s
          ((m2.devWrite a.toNat (leBytes n (atomicNew op (word64 (m.devRead a.toNat n)) x y).toNat)).reply h
            (.atomicAnswer (back h) 0 a (word64 (m.devRead a.toNat n)))))) ∧
    (∀ op sc a x y, Accepted s (.atomic h op sc a x y) m →
      (op.toNat < 0x10 ∨ 0x1A < op.toNat ∨ a.toNat % (if op = 0x1A then 4 else 8) ≠ 0) →
      exec (.atomic h op sc a x y) s = .next (put s ((loggedNo m a.toNat).reply h (.atomicAnswer (back h) 4 a 0)))) ∧
    (let done (st : Nat) (l : List Byte) : State :=
       put s { m with hostReqs := m.hostReqs.erase h.tag.toNat, hostAnswers := m.hostAnswers ++ [⟨h.tag.toNat, pcieStatus st, l⟩] }
     h.tag.toNat ∈ m.hostReqs →
       (∀ st n a l, Accepted s (.readAnswer h st n a l) m → exec (.readAnswer h st n a l) s = .next (done st.toNat l)) ∧
       (∀ st n a, Accepted s (.writeAnswer h st n a) m → exec (.writeAnswer h st n a) s = .next (done st.toNat [])) ∧
       ∀ st a v, Accepted s (.atomicAnswer h st a v) m → exec (.atomicAnswer h st a v) s = .next (done st.toNat (leBytes 8 v.toNat)))) ∧
  (∀ s h r m, Accepted s (.sendReady h r) m → m.wire.any (Msg.sameOrder (.sendReady h r)) = false →
    (∀ cx, targetOf m r.endpoint = .here cx → (m.core (coreOf cx)).recvs.length < 256 → (m.core (coreOf cx)).table = [] →
      (∀ l ∈ m.launches, ∀ e ∈ l.held, e.cx ≠ cx) →
      exec (.sendReady h r) s = .next (put s (m.modCore (coreOf cx) fun c => { c with recvs := c.recvs ++ [{ cx := cx, ready := r, lid := (m.ctx cx).launch.getD 0 }] }))) ∧
    (targetOf m r.endpoint = .none → exec (.sendReady h r) s = .next (put s (m.post r.sender.toNat fun g =>
      .pull g true r.sender r.core r.entry r.gtag r.endpoint r.tag)))) ∧
  (∀ s h v core entry g e tag x m, Accepted s (.pull h false v core entry g e tag) m → v.toNat = m.deviceNo → x.spill = none →
    (m.core core).sends.find? (fun y => y.entry == entry) = some x →
    let sent := m.post h.src.toNat fun g => .pullData g v core entry x.root.gtag e x.image
    exec (.pull h false v core entry g e tag) s = .next (put s
      (if h.src.toNat = m.deviceNo then sent else countPull sent core entry x.root.gtag))) ∧
  (∀ s h v core entry g e tag x sp l m, Accepted s (.pull h false v core entry g e tag) m → v.toNat = m.deviceNo →
    (m.core core).sends.find? (fun y => y.entry == entry) = some x → x.spill = some sp → m.launch? x.lid = some l →
    m.devFailure (l.spillBase + sp.1) x.image.length false = none →
    let sent := m.post h.src.toNat fun g => .pullData g v core entry x.root.gtag e (m.devRead (l.spillBase + sp.1) x.image.length)
    exec (.pull h false v core entry g e tag) s = .next (put s
      (if h.src.toNat = m.deviceNo then sent else countPull sent core entry x.root.gtag))) ∧
  (∀ s h v core entry g e image n o m m', Accepted s (.pullData h v core entry g e image) m → let k := coreOf (epCx e)
    (m.core k).recvs.find? (fun x => x.owner != 0 && x.ready.sender == v && x.ready.core == core && x.ready.entry == entry && x.ready.endpoint == e) = some n →
    n.ready.sender.toNat ≠ m'.deviceNo → (m.core k).op? n.owner = some o → (m.core k).table = [] → o.cslot.sb = 0 →
    takeImage m o n.ready.word image 0 = .ok m' →
    exec (.pullData h v core entry g e image) s = .next (put s (l1Drop (removeOp (m'.modCore k fun c => { c with recvs := c.recvs.erase n }) o) k))) ∧
  (∀ s h dev dom g w m, Accepted s (.weightReturn h dev dom g w) m →
    (dev.toNat ≠ m.deviceNo → exec (.weightReturn h dev dom g w) s = .next (put s { m with lostReturns := sat16 m.lostReturns })) ∧
    (∀ lid, dev.toNat = m.deviceNo → (m.root dom.toNat).launch = some lid → (m.root dom.toNat).gtag = g →
      ((m.root dom.toNat).add w).quiet = false → ((m.root dom.toNat).add w).excess = false →
      exec (.weightReturn h dev dom g w) s = .next (put s ((m.setRoot dom.toNat ((m.root dom.toNat).add w)).modLaunch lid fun l =>
        { l with active := true, lastReturn := m.time })))) ∧
  (∀ s h bs e v g kern m, Accepted s (.activeMessage h bs e v g kern) m → amsgOp m h = none →
    (∀ l, ((m.root (bits e 23 16)).launch.bind m.launch?) = some l → l.phase ≠ .failing → l.kernel.handle = kern →
      exec (.activeMessage h bs e v g kern) s = .next (put s (m.modLaunch l.lid fun l =>
        { l with msgs := l.msgs ++ [taskOfRecord bs ⟨v.toNat, BitVec.ofNat 8 (fld bs 7 1), g⟩ false] }))) ∧
    (((m.root (bits e 23 16)).launch.bind m.launch?) = none → exec (.activeMessage h bs e v g kern) s =
      .next (put s (m.returnWeight ⟨v.toNat, BitVec.ofNat 8 (fld bs 7 1), g⟩ (BitVec.ofNat 64 (fld bs 8 8)))))) ∧
  (∀ s h t m, Accepted s (.loadSummaryToken h t) m →
    (t.epoch.toNat < m.tokenEpoch.toNat → exec (.loadSummaryToken h t) s = .next (put s m)) ∧
    (m.tokenEpoch.toNat ≤ t.epoch.toNat → t.reqs = [] → podTags m = [] → exec (.loadSummaryToken h t) s = .next (put s { m with
      token := some { t with offers := t.offers.filter fun o => o.device != BitVec.ofNat 10 m.deviceNo }, tokenSince := m.time, tokenEpoch := t.epoch }))) ∧
  (∀ s, (s.m.token = none → exec .tokenHoldExpiry s = .next s) ∧
    (∀ t, s.m.token = some t → exec .tokenHoldExpiry s = .next (put s ({ s.m with token := none, tokenSince := s.m.time }.post ((s.m.deviceNo + 1) % podSize) fun h =>
      .loadSummaryToken h { t with seq := t.seq + 1 }))) ∧
    (s.m.deviceNo = 0 → s.m.token = none → 2 ^ 28 ≤ (s.m.time - s.m.tokenSince).toNat → (∀ d, 1 ≤ d → d < podSize → v2Route s.m d = true) →
      exec .tokenLossTimeout s = .next (put s { s.m with
        token := some ⟨s.m.tokenEpoch + 1, 0, [], []⟩, tokenEpoch := s.m.tokenEpoch + 1, tokenSince := s.m.time })) ∧
    (s.m.deviceNo ≠ 0 → exec .tokenLossTimeout s = .next s)) ∧
  (∀ s h r m, Accepted s (.stealRequest h r) m →
    (v2Route m r.thief.toNat = false → exec (.stealRequest h r) s = .next (put s m)) ∧
    (v2Route m r.thief.toNat = true → Sys2Proof.Machine.excess m r.jobTag = 0 → exec (.stealRequest h r) s = .next (put s (m.post r.thief.toNat fun h =>
      .stealGrant h (BitVec.ofNat 10 m.deviceNo) r.jobTag []))) ∧
    (v2Route m r.thief.toNat = true → ∃ t rs, takeRecords r.jobTag (min (min r.count 8) (Sys2Proof.Machine.excess m r.jobTag)) m = (t, rs) ∧
      rs.length ≤ min (min r.count 8) (Sys2Proof.Machine.excess m r.jobTag) ∧ exec (.stealRequest h r) s =
        .next (put s (t.post r.thief.toNat fun h => .stealGrant h (BitVec.ofNat 10 m.deviceNo) r.jobTag rs)))) ∧
  (∀ s h r, s.m.rx = none → h.src.toNat = s.m.deviceNo → v2Route s.m r.thief.toNat = true →
    ∃ t rs, takeRecords r.jobTag (min (min r.count 8) (Sys2Proof.Machine.excess s.m r.jobTag)) s.m = (t, rs) ∧
      exec (.stealRequest h r) s = .next (put s (t.post r.thief.toNat fun h => .stealGrant h (BitVec.ofNat 10 s.m.deviceNo) r.jobTag rs))) ∧
  (∀ s h v tag rs m, Accepted s (.stealGrant h v tag rs) m →
    exec (.stealGrant h v tag rs) s = .next (put s (rs.foldl (stolen v tag) m))) ∧
  (∀ s h v r m, Accepted s (.tileRecordMessage h v r) m →
    (∀ l, recordLaunch m r = some l → l.phase ≠ .failing → exec (.tileRecordMessage h v r) s = .next (put s (m.modLaunch l.lid fun x =>
      { x with records := taskOfRecord r (l.rootRef m) true :: x.records }))) ∧
    (∀ l, recordLaunch m r = some l → l.phase = .failing →
      exec (.tileRecordMessage h v r) s = .next (put s (m.returnWeight (l.rootRef m) (BitVec.ofNat 64 (fld r 8 8)))))) ∧
  (∀ s h n m, Accepted s (.faultNotice h n) m →
    (m.brgSel = false → exec (.faultNotice ⟨h, n⟩) s = .next (put s m)) ∧
    (m.brgSel = true → exec (.faultNotice ⟨h, n⟩) s = .next (put s
      (raiseVector { m with hostNotices := m.hostNotices ++ [n] } (Config.noticeVector n.kind % 256)))))

/-- 16 R304 to R316, 18 R354: a port that locks its lanes offers, one that has an offer it may take accepts, and one with an accept sent and a matching
one received is up; the one unacknowledged message leaves the replay buffer when it is acknowledged whole; a timeout sends again, the
seventeenth in a row fails the port; a flit of a reserved class is counted; a device without bridge ignores the host's accesses; the bridge
answers those that reach nothing as unsupported (between the notify registers and the management registers too: the model's reading, DEDUCED, log 64),
passes a register read and an access to memory on to another device, and answers a write to a notify register, the accesses to management
registers, the reads, writes and atomics of this device's memory, the accesses to the MSI-X structures, the requests for reports, and discovery,
by PCI Express's protocol for it (PRESUMED, log 100). -/
def Obligations.PortsAndHost : Prop :=
  (∀ s p, let q := s.m.port p
    (s.m.bridgePort p = false → q.phase = .down → exec (.laneLock p) s = .next (put s (s.m.latchNumber.setPort p { phase := .offering, life := q.life }))) ∧
    ((s.m.bridgePort p = true ∨ q.phase ≠ .down) → exec (.laneLock p) s = .next s) ∧
    (let sent := s.m.putFlits p [controlFlit none (trainingBytes s.m p)]
     (q.phase = .accepting → q.gotAccept = false → exec (.trainingOfferTimer p) s = .next (put s (sent.setPort p { q with sentAccept := true }))) ∧
     (q.phase = .accepting → q.gotAccept = true → exec (.trainingOfferTimer p) s = .next (put s (sent.setPort p
       { q with phase := .up, life := q.life + 1, sentAccept := true, txSeq := 0, rxSeq := 0, rxAny := false, unacked := [], resends := 0 }))) ∧
     (q.phase = .offering → exec (.trainingOfferTimer p) s = .next (put s sent)) ∧
     (q.phase ≠ .accepting → q.phase ≠ .offering → exec (.trainingOfferTimer p) s = .next s)) ∧
    (∀ o, s.m.bridgePort p = false → (q.phase = .offering ∨ q.phase = .accepting) →
      let v := min 2 o.version.toNat
      let same := decide (q.phase = .accepting ∧ q.version = v)
      (o.device.toNat ≠ s.m.deviceNo → o.device.toNat < 1024 → 1 ≤ o.version.toNat → exec (.trainingOffer p o) s = .next (put s (s.m.setPort p
        { q with phase := .accepting, version := v, partner := o.device.toNat, sentAccept := same && q.sentAccept, gotAccept := same && q.gotAccept }))) ∧
      ((o.device.toNat = s.m.deviceNo ∨ 1024 ≤ o.device.toNat ∨ o.version = 0) → ∃ t, exec (.trainingOffer p o) s = .next t ∧
        t.m.port p = { q with phase := .offering, sentAccept := false, gotAccept := false } ∧
        (t.m.die p.die.toNat).errHead = (s.m.die p.die.toNat).errHead + 1)) ∧
    (∀ o, (s.m.bridgePort p = true ∨ q.phase = .down ∨ q.phase = .failed) → exec (.trainingOffer p o) s = .next s) ∧
    (∀ o, q.phase = .accepting → o.chosen.toNat = q.version →
      (q.sentAccept = true → exec (.trainingAccept p o) s = .next (put s (s.m.setPort p
        { q with phase := .up, life := q.life + 1, gotAccept := true, txSeq := 0, rxSeq := 0, rxAny := false, unacked := [], resends := 0 }))) ∧
      (q.sentAccept = false → exec (.trainingAccept p o) s = .next (put s (s.m.setPort p { q with gotAccept := true })))) ∧
    (∀ o, (q.phase ≠ .accepting ∨ o.chosen.toNat ≠ q.version) → exec (.trainingAccept p o) s = .next s) ∧
    (∀ ack, (q.phase ≠ .up → exec (.linkIdle p true ack) s = .next s) ∧ exec (.linkIdle p false ack) s = .next s) ∧
    (∀ sq n x, q.phase = .up → q.unacked = [(sq, n, x)] → sq < 4096 → 1 ≤ n → n ≤ 2048 →
      exec (.linkIdle p true (BitVec.ofNat 12 (sq + n - 1))) s = .next (put s (s.m.setPort p { q with unacked := [], resends := 0 }))) ∧
    (q.phase = .up → q.unacked ≠ [] →
      (q.resends < 16 → exec (.replayTimeout p) s = .next (put s ((s.m.setPort p { q with resends := q.resends + 1 }).putFlits p
        (q.unacked.flatMap fun u => u.2.2.lastFlits u.1 u.2.1 q.ack)))) ∧
      (16 ≤ q.resends → ∃ t, exec (.replayTimeout p) s = .next t ∧ (t.m.port p).phase = .failed ∧
        t.m.outbox = (q.unacked.map fun u => u.2.2) ++ s.m.outbox)) ∧
    ((q.phase ≠ .up ∨ q.unacked = []) → exec (.replayTimeout p) s = .next s) ∧
    (q.phase = .up → exec (.discardedFlit p .reservedClass) s = .next (put s { s.m with lostFlits := sat16 s.m.lostFlits })) ∧
    (∀ why, (why ≠ .reservedClass ∨ q.phase ≠ .up) → exec (.discardedFlit p why) s = .next s)) ∧
  (∀ s, s.m.brgSel = false → ∀ wr op off n v data, exec (.hostBar0Access wr off n v) s = .next s ∧ exec (.hostBar2Access op off n data) s = .next s ∧
    exec (.hostBar4Access wr off n v) s = .next s ∧ exec (.attestationRequest data) s = .next s ∧ exec (.doeDiscovery n) s = .next s) ∧
  (∀ s, s.m.brgSel = true →
    (∀ wr off n v, (2 ^ 25 ≤ off ∨ groupDevice s.m (off / 2 ^ 21) = none) → exec (.hostBar0Access wr off n v) s = .next (ended s (loggedNo s.m off) 2 [])) ∧
    (∀ wr off n v dev, off < 2 ^ 25 → groupDevice s.m (off / 2 ^ 21) = some dev → 0x40000 ≤ off % 2 ^ 21 →
      (off % 2 ^ 21 < 0x100000 ∨ n ≠ 8) → exec (.hostBar0Access wr off n v) s = .next (ended s (loggedNo s.m off) 2 [])) ∧
    (∀ off n v, off < 2 ^ 25 → groupDevice s.m (off / 2 ^ 21) = some s.m.deviceNo → off % 2 ^ 21 < 0x40000 → 1 ≤ n → n ≤ 8 →
      exec (.hostBar0Access true off n v) s = .next (ended s (s.m.notifyWrite (off % 0x10000) n (word64 (leBytes n v.toNat))) 0 [])) ∧
    (∀ off v x, off < 2 ^ 25 → groupDevice s.m (off / 2 ^ 21) = some s.m.deviceNo → 0x100000 ≤ off % 2 ^ 21 →
      mgmtRead s.m (off % 2 ^ 21 - 0x100000) = some x → exec (.hostBar0Access false off 8 v) s = .next (ended s s.m 0 (leBytes 8 x))) ∧
    (∀ off v, off < 2 ^ 25 → groupDevice s.m (off / 2 ^ 21) = some s.m.deviceNo → 0x100000 ≤ off % 2 ^ 21 →
      (mgmtRead s.m (off % 2 ^ 21 - 0x100000)).isSome = true →
      exec (.hostBar0Access true off 8 v) s = .next (ended s (mgmtWrite s.m (off % 2 ^ 21 - 0x100000) v) 0 [])) ∧
    (∀ off v dev, off < 2 ^ 25 → groupDevice s.m (off / 2 ^ 21) = some dev → dev ≠ s.m.deviceNo → 0x100000 ≤ off % 2 ^ 21 →
      ∃ t, exec (.hostBar0Access false off 8 v) s = .next t ∧ t.m.hostReqs = s.m.hostReqs ++ [(s.m.header dev).tag.toNat] ∧
        t.m.outbox = s.m.outbox ++ [.read (s.m.header dev) 1 8 (BitVec.ofNat 64 (off % 2 ^ 21 - 0x100000))]) ∧
    (∀ op off n data, s.m.mgmtAt 0x0B0 / 16 % 2 = 0 → exec (.hostBar2Access op off n data) s = .next (ended s (loggedNo s.m off) 2 [])) ∧
    (∀ off n data, s.m.mgmtAt 0x0B0 / 16 % 2 = 1 → off + n ≤ 2 ^ 36 → groupDevice s.m (s.m.mgmtAt 0x0B0 % 16) = some s.m.deviceNo → 1 ≤ n → n ≤ 4096 →
      let a := s.m.mgmtAt 0x0B0 / 2 ^ 36 * 2 ^ 36 + off
      (OuterOk s.m a n true false → ∃ t, exec (.hostBar2Access .read off n data) s = .next t ∧ t.m.mem = s.m.mem ∧
        t.m.hostAnswers = s.m.hostAnswers ++ [⟨4096, 0, s.m.devRead a n⟩]) ∧
      (data.length = n → OuterOk s.m a n false true → ∃ t, exec (.hostBar2Access .write off n data) s = .next t ∧
        t.m.mem = (((upFrom 0 n).zip data).foldl (fun m x => m.devWrite (a + x.1) [x.2]) s.m).mem ∧
        t.m.hostAnswers = s.m.hostAnswers ++ [⟨4096, 0, []⟩]) ∧
      (∀ o, 0x10 ≤ o.toNat → o.toNat ≤ 0x19 → a % 8 = 0 → OuterOk s.m a 8 true true → (∀ p, s.m.sysLoc a ≠ some (.host p)) →
        ∃ t, exec (.hostBar2Access (.atomic o) off n data) s = .next t ∧
          t.m.mem = (s.m.devWrite a (leBytes 8 (atomicNew o (word64 (s.m.devRead a 8)) (word64 (data.take 8))
            (word64 ((data.drop 8).take 8))).toNat)).mem ∧
          t.m.hostAnswers = s.m.hostAnswers ++ [⟨4096, 0, leBytes 8 (word64 (s.m.devRead a 8)).toNat⟩])) ∧
    (∀ op off n data dev, s.m.mgmtAt 0x0B0 / 16 % 2 = 1 → off + n ≤ 2 ^ 36 → groupDevice s.m (s.m.mgmtAt 0x0B0 % 16) = some dev → dev ≠ s.m.deviceNo →
      ∃ t, exec (.hostBar2Access op off n data) s = .next t ∧ t.m.hostReqs = s.m.hostReqs ++ [(s.m.header dev).tag.toNat] ∧
        t.m.outbox = s.m.outbox ++ [hostMsg (s.m.header dev) op 0 n (s.m.mgmtAt 0x0B0 / 2 ^ 36 * 2 ^ 36 + off) data]) ∧
    (∀ off n v, off + n ≤ 65536 → (n = 4 ∨ n = 8) → off % 4 = 0 →
      exec (.hostBar4Access false off n v) s = .next (ended s s.m 0 ((upFrom off n).map (msixByte s.m))) ∧
      exec (.hostBar4Access true off n v) s = .next (ended s (msixWrite s.m off (leBytes n v.toNat)) 0 [])) ∧
    (∀ nonce, nonce.length = 32 →
      (reqBusy s.m 10 = true → exec (.attestationRequest nonce) s = .next (put s { s.m with attest := s.m.attest ++ [nonce] })) ∧
      (reqBusy s.m 10 = false → ∃ report, exec (.attestationRequest nonce) s = .next (ended s s.m 0 report) ∧ report.take 32 = nonce)) ∧
    (∀ n, exec (.doeDiscovery n) s = .next (ended s s.m 0
      (if n = 0 then leBytes 2 1 ++ [0, 1] else if n = 1 then leBytes 4 (Config.doeProtocol % 2 ^ 24) else leBytes 4 0xFFFF))))
end

