-- ==== Sys2Proof/Laws/Map.lean ====
section
/-! SUPPORT. Laws of the sparse tables and of byte memory: read after write, and the canonical form that every write keeps. -/
namespace Sys2Proof.Machine
open Host (Cell)

variable {α : Type}

@[simp] theorem mget_nil (d : α) (k : Nat) : mget d [] k = d := rfl
@[simp] theorem mget_mset_same (d : α) (t : Mp α) (k : Nat) (v : α) : mget d (mset t k v) k = v := by
  induction t with
  | nil => simp [mset, mget]
  | cons x t ih =>
    obtain ⟨j, w⟩ := x
    simp only [mset]
    split
    · simp [mget]
    · split
      · simp [mget]
      · simp [mget, *]
@[simp] theorem mget_mset_ne (d : α) (t : Mp α) {k j : Nat} (v : α) (h : k ≠ j) : mget d (mset t k v) j = mget d t j := by
  induction t with
  | nil => simp [mset, mget, h]
  | cons x t ih =>
    obtain ⟨i, w⟩ := x
    simp only [mset]
    split
    · simp [mget, h]
    · split
      · next h2 => subst h2; simp [mget, h]
      · simp [mget, ih]
theorem mget_mset (d : α) (t : Mp α) (k j : Nat) (v : α) : mget d (mset t k v) j = if k = j then v else mget d t j := by
  split
  · next h => subst h; simp
  · next h => simp [h]

@[simp] theorem mset_mset (t : Mp α) (k : Nat) (v w : α) : mset (mset t k v) k w = mset t k w := by
  induction t with
  | nil => simp [mset]
  | cons x t ih =>
    obtain ⟨j, u⟩ := x
    simp only [mset]
    split
    · simp [mset]
    · split
      · simp [mset]
      · next h1 h2 => simp [mset, h1, h2, ih]

@[simp] theorem cget_cdel_same (m : List Cell) (k : Nat) : cget (cdel m k) k = 0 := by
  induction m with
  | nil => rfl
  | cons x t ih => obtain ⟨j, w⟩ := x; simp only [cdel]; split <;> simp [cget, *]
@[simp] theorem cget_cdel_ne (m : List Cell) {k j : Nat} (h : k ≠ j) : cget (cdel m k) j = cget m j := by
  induction m with
  | nil => rfl
  | cons x t ih =>
    obtain ⟨i, w⟩ := x
    simp only [cdel]
    split
    · next h2 => subst h2; simp [cget, h, ih]
    · simp [cget, ih]
theorem cget_cins (m : List Cell) (k j : Nat) (v : Byte) (hk : ∀ w, (k, w) ∉ m) :
    cget (cins m k v) j = if k = j then v else cget m j := by
  induction m with
  | nil => simp [cins, cget]
  | cons x t ih =>
    obtain ⟨i, w⟩ := x
    have hi : i ≠ k := fun h => hk w (by simp [h])
    have ht := ih fun w' h => hk w' (List.mem_cons_of_mem _ h)
    simp only [cins]
    split
    · simp [cget]
    · simp only [cget, ht]
      split
      · next h => subst h; simp [Ne.symm hi]
      · rfl
theorem mem_cdel (m : List Cell) (k : Nat) (w : Byte) : (k, w) ∉ cdel m k := by
  induction m with
  | nil => simp [cdel]
  | cons x t ih =>
    obtain ⟨i, v⟩ := x
    simp only [cdel]
    split
    · exact ih
    · next h => simp [Ne.symm h, ih]
/-- Read after write of one byte. -/
theorem cget_cput (m : List Cell) (k j : Nat) (v : Byte) : cget (cput m k v) j = if k = j then v else cget m j := by
  unfold cput
  split
  · next h =>
    subst h
    split
    · next h => subst h; simp
    · next h => simp [h]
  · rw [cget_cins _ _ _ _ (mem_cdel m k)]
    split
    · rfl
    · next h => simp [h]
/-- Bytes outside a written run are unchanged. -/
theorem cget_cputN_out (m : List Cell) (a j : Nat) (bs : List Byte) (h : j < a ∨ a + bs.length ≤ j) :
    cget (cputN m a bs) j = cget m j := by
  induction bs generalizing m a with
  | nil => rfl
  | cons b bs ih =>
    simp only [List.length_cons] at h
    simp only [cputN]
    rw [ih _ _ (by omega), cget_cput]
    split
    · omega
    · rfl

theorem above_weaken (lo lo' : Option Nat) (m : List Cell)
    (h : ∀ l', lo' = some l' → ∃ l, lo = some l ∧ l' ≤ l) : Memory.above lo m = true → Memory.above lo' m = true := by
  cases m with
  | nil => intro _; cases lo' <;> rfl
  | cons x t =>
    obtain ⟨j, v⟩ := x
    simp only [Memory.above, Bool.and_eq_true]
    rintro ⟨⟨h1, h2⟩, h3⟩
    refine ⟨⟨?_, h2⟩, h3⟩
    cases lo' with
    | none => rfl
    | some l' =>
      obtain ⟨l, rfl, hl⟩ := h l' rfl
      simp only [decide_eq_true_eq] at h1 ⊢
      omega
theorem above_cdel (lo : Option Nat) (m : List Cell) (k : Nat) (h : Memory.above lo m = true) : Memory.above lo (cdel m k) = true := by
  induction m generalizing lo with
  | nil => simpa [cdel] using h
  | cons x t ih =>
    obtain ⟨j, v⟩ := x
    simp only [Memory.above, Bool.and_eq_true] at h
    simp only [cdel]
    split
    · refine ih _ (above_weaken (some j) lo t ?_ h.2)
      intro l' hl
      subst hl
      exact ⟨j, rfl, by simpa using Nat.le_of_lt (by simpa using h.1.1)⟩
    · simp only [Memory.above, Bool.and_eq_true]
      exact ⟨h.1, ih _ h.2⟩
theorem above_cins (lo : Option Nat) (m : List Cell) (k : Nat) (v : Byte) (hv : v ≠ 0) (hk : ∀ w, (k, w) ∉ m)
    (hlo : ∀ l, lo = some l → l < k) (h : Memory.above lo m = true) : Memory.above lo (cins m k v) = true := by
  induction m generalizing lo with
  | nil =>
    simp only [cins, Memory.above, Bool.and_eq_true, bne_iff_ne, ne_eq, and_true]
    refine ⟨?_, hv⟩
    cases lo with
    | none => rfl
    | some l => simpa using hlo l rfl
  | cons x t ih =>
    obtain ⟨j, w⟩ := x
    have hj : j ≠ k := fun e => hk w (by simp [e])
    simp only [Memory.above, Bool.and_eq_true] at h
    simp only [cins]
    split
    · next hlt =>
      simp only [Memory.above, Bool.and_eq_true, bne_iff_ne, ne_eq]
      refine ⟨⟨?_, hv⟩, ⟨by simpa using hlt, by simpa using h.1.2⟩, h.2⟩
      cases lo with
      | none => rfl
      | some l => simpa using hlo l rfl
    · next hlt =>
      simp only [Memory.above, Bool.and_eq_true]
      refine ⟨h.1, ih _ (fun w' hw => hk w' (List.mem_cons_of_mem _ hw)) ?_ h.2⟩
      intro l hl
      cases hl
      omega
/-- Every write of a byte keeps the canonical form. -/
theorem wf_cput (m : List Cell) (k : Nat) (v : Byte) (h : Memory.wf m = true) : Memory.wf (cput m k v) = true := by
  unfold cput
  split
  · exact above_cdel _ _ _ h
  · next hv => exact above_cins _ _ _ _ hv (mem_cdel m k) (by simp) (above_cdel _ _ _ h)
theorem wf_cputN (m : List Cell) (a : Nat) (bs : List Byte) (h : Memory.wf m = true) : Memory.wf (cputN m a bs) = true := by
  induction bs generalizing m a with
  | nil => exact h
  | cons b bs ih => exact ih _ _ (wf_cput _ _ _ h)
@[simp] theorem wf_nil : Memory.wf [] = true := rfl

@[simp] theorem length_upFrom (a n : Nat) : (upFrom a n).length = n := by
  induction n generalizing a with
  | zero => rfl
  | succ n ih => simp [upFrom, ih]
theorem mem_upFrom (a n k : Nat) : k ∈ upFrom a n ↔ a ≤ k ∧ k < a + n := by
  induction n generalizing a with
  | zero => simp [upFrom]
  | succ n ih => simp only [upFrom, List.mem_cons, ih]; omega

end Sys2Proof.Machine
end

