-- ==== Sys2Proof/Laws/State.lean ====
section
/-! SUPPORT. What each update of the machine and of a context leaves: one lemma per update and field. -/
namespace Sys2Proof.Machine

/-! Contexts, cores and dies by number. -/
@[simp] theorem ctx_setCtx_same (m : Mach) (k : Nat) (c : Ctx) : (m.setCtx k c).ctx k = c := by simp [Mach.ctx, Mach.setCtx]
@[simp] theorem ctx_setCtx_ne (m : Mach) {k j : Nat} (c : Ctx) (h : k ≠ j) : (m.setCtx k c).ctx j = m.ctx j := by
  simp [Mach.ctx, Mach.setCtx, h]
@[simp] theorem ctx_modCtx_same (m : Mach) (k : Nat) (f : Ctx → Ctx) : (m.modCtx k f).ctx k = f (m.ctx k) := by simp [Mach.modCtx]
@[simp] theorem ctx_modCtx_ne (m : Mach) {k j : Nat} (f : Ctx → Ctx) (h : k ≠ j) : (m.modCtx k f).ctx j = m.ctx j := by
  simp [Mach.modCtx, h]
@[simp] theorem core_setCore_same (m : Mach) (k : Nat) (c : Core) : (m.setCore k c).core k = c := by simp [Mach.core, Mach.setCore]
@[simp] theorem core_setCore_ne (m : Mach) {k j : Nat} (c : Core) (h : k ≠ j) : (m.setCore k c).core j = m.core j := by
  simp [Mach.core, Mach.setCore, h]
@[simp] theorem core_modCore_same (m : Mach) (k : Nat) (f : Core → Core) : (m.modCore k f).core k = f (m.core k) := by
  simp [Mach.modCore]
@[simp] theorem core_modCore_ne (m : Mach) {k j : Nat} (f : Core → Core) (h : k ≠ j) : (m.modCore k f).core j = m.core j := by
  simp [Mach.modCore, h]
@[simp] theorem die_setDie_same (m : Mach) (k : Nat) (d : Die) : (m.setDie k d).die k = d := by simp [Mach.die, Mach.setDie]
@[simp] theorem die_setDie_ne (m : Mach) {k j : Nat} (d : Die) (h : k ≠ j) : (m.setDie k d).die j = m.die j := by
  simp [Mach.die, Mach.setDie, h]
@[simp] theorem die_modDie_same (m : Mach) (k : Nat) (f : Die → Die) : (m.modDie k f).die k = f (m.die k) := by simp [Mach.modDie]
@[simp] theorem die_modDie_ne (m : Mach) {k j : Nat} (f : Die → Die) (h : k ≠ j) : (m.modDie k f).die j = m.die j := by
  simp [Mach.modDie, h]

/-! The other parts of the machine. -/
@[simp] theorem mem_setCtx (m : Mach) (k : Nat) (x : Ctx) : (m.setCtx k x).mem = m.mem := rfl
@[simp] theorem hostMem_setCtx (m : Mach) (k : Nat) (x : Ctx) : (m.setCtx k x).hostMem = m.hostMem := rfl
@[simp] theorem scratch_setCtx (m : Mach) (k : Nat) (x : Ctx) : (m.setCtx k x).scratch = m.scratch := rfl
@[simp] theorem msix_setCtx (m : Mach) (k : Nat) (x : Ctx) : (m.setCtx k x).msix = m.msix := rfl
@[simp] theorem full_setCtx (m : Mach) (k : Nat) (x : Ctx) : (m.setCtx k x).full = m.full := rfl
@[simp] theorem cores_setCtx (m : Mach) (k : Nat) (x : Ctx) : (m.setCtx k x).cores = m.cores := rfl
@[simp] theorem dies_setCtx (m : Mach) (k : Nat) (x : Ctx) : (m.setCtx k x).dies = m.dies := rfl
@[simp] theorem launches_setCtx (m : Mach) (k : Nat) (x : Ctx) : (m.setCtx k x).launches = m.launches := rfl
@[simp] theorem mgmt_setCtx (m : Mach) (k : Nat) (x : Ctx) : (m.setCtx k x).mgmt = m.mgmt := rfl
@[simp] theorem time_setCtx (m : Mach) (k : Nat) (x : Ctx) : (m.setCtx k x).time = m.time := rfl
@[simp] theorem uid_setCtx (m : Mach) (k : Nat) (x : Ctx) : (m.setCtx k x).uid = m.uid := rfl
@[simp] theorem grpPos_setCtx (m : Mach) (k : Nat) (x : Ctx) : (m.setCtx k x).grpPos = m.grpPos := rfl
@[simp] theorem core_setCtx (m : Mach) (k : Nat) (x : Ctx) (j : Nat) : (m.setCtx k x).core j = m.core j := rfl
@[simp] theorem die_setCtx (m : Mach) (k : Nat) (x : Ctx) (j : Nat) : (m.setCtx k x).die j = m.die j := rfl
@[simp] theorem read_setCtx (m : Mach) (k : Nat) (x : Ctx) (l : Loc) : (m.setCtx k x).read l = m.read l := by cases l <;> rfl
@[simp] theorem mgmtAt_setCtx (m : Mach) (k : Nat) (x : Ctx) (a : Nat) : (m.setCtx k x).mgmtAt a = m.mgmtAt a := rfl
@[simp] theorem mem_modCtx (m : Mach) (k : Nat) (f : Ctx → Ctx) : (m.modCtx k f).mem = m.mem := rfl
@[simp] theorem hostMem_modCtx (m : Mach) (k : Nat) (f : Ctx → Ctx) : (m.modCtx k f).hostMem = m.hostMem := rfl
@[simp] theorem scratch_modCtx (m : Mach) (k : Nat) (f : Ctx → Ctx) : (m.modCtx k f).scratch = m.scratch := rfl
@[simp] theorem msix_modCtx (m : Mach) (k : Nat) (f : Ctx → Ctx) : (m.modCtx k f).msix = m.msix := rfl
@[simp] theorem full_modCtx (m : Mach) (k : Nat) (f : Ctx → Ctx) : (m.modCtx k f).full = m.full := rfl
@[simp] theorem cores_modCtx (m : Mach) (k : Nat) (f : Ctx → Ctx) : (m.modCtx k f).cores = m.cores := rfl
@[simp] theorem dies_modCtx (m : Mach) (k : Nat) (f : Ctx → Ctx) : (m.modCtx k f).dies = m.dies := rfl
@[simp] theorem launches_modCtx (m : Mach) (k : Nat) (f : Ctx → Ctx) : (m.modCtx k f).launches = m.launches := rfl
@[simp] theorem mgmt_modCtx (m : Mach) (k : Nat) (f : Ctx → Ctx) : (m.modCtx k f).mgmt = m.mgmt := rfl
@[simp] theorem time_modCtx (m : Mach) (k : Nat) (f : Ctx → Ctx) : (m.modCtx k f).time = m.time := rfl
@[simp] theorem uid_modCtx (m : Mach) (k : Nat) (f : Ctx → Ctx) : (m.modCtx k f).uid = m.uid := rfl
@[simp] theorem grpPos_modCtx (m : Mach) (k : Nat) (f : Ctx → Ctx) : (m.modCtx k f).grpPos = m.grpPos := rfl
@[simp] theorem core_modCtx (m : Mach) (k : Nat) (f : Ctx → Ctx) (j : Nat) : (m.modCtx k f).core j = m.core j := rfl
@[simp] theorem die_modCtx (m : Mach) (k : Nat) (f : Ctx → Ctx) (j : Nat) : (m.modCtx k f).die j = m.die j := rfl
@[simp] theorem read_modCtx (m : Mach) (k : Nat) (f : Ctx → Ctx) (l : Loc) : (m.modCtx k f).read l = m.read l := by cases l <;> rfl
@[simp] theorem mgmtAt_modCtx (m : Mach) (k : Nat) (f : Ctx → Ctx) (a : Nat) : (m.modCtx k f).mgmtAt a = m.mgmtAt a := rfl
@[simp] theorem mem_setCore (m : Mach) (k : Nat) (x : Core) : (m.setCore k x).mem = m.mem := rfl
@[simp] theorem hostMem_setCore (m : Mach) (k : Nat) (x : Core) : (m.setCore k x).hostMem = m.hostMem := rfl
@[simp] theorem scratch_setCore (m : Mach) (k : Nat) (x : Core) : (m.setCore k x).scratch = m.scratch := rfl
@[simp] theorem msix_setCore (m : Mach) (k : Nat) (x : Core) : (m.setCore k x).msix = m.msix := rfl
@[simp] theorem full_setCore (m : Mach) (k : Nat) (x : Core) : (m.setCore k x).full = m.full := rfl
@[simp] theorem ctxs_setCore (m : Mach) (k : Nat) (x : Core) : (m.setCore k x).ctxs = m.ctxs := rfl
@[simp] theorem dies_setCore (m : Mach) (k : Nat) (x : Core) : (m.setCore k x).dies = m.dies := rfl
@[simp] theorem launches_setCore (m : Mach) (k : Nat) (x : Core) : (m.setCore k x).launches = m.launches := rfl
@[simp] theorem mgmt_setCore (m : Mach) (k : Nat) (x : Core) : (m.setCore k x).mgmt = m.mgmt := rfl
@[simp] theorem time_setCore (m : Mach) (k : Nat) (x : Core) : (m.setCore k x).time = m.time := rfl
@[simp] theorem uid_setCore (m : Mach) (k : Nat) (x : Core) : (m.setCore k x).uid = m.uid := rfl
@[simp] theorem grpPos_setCore (m : Mach) (k : Nat) (x : Core) : (m.setCore k x).grpPos = m.grpPos := rfl
@[simp] theorem ctx_setCore (m : Mach) (k : Nat) (x : Core) (j : Nat) : (m.setCore k x).ctx j = m.ctx j := rfl
@[simp] theorem die_setCore (m : Mach) (k : Nat) (x : Core) (j : Nat) : (m.setCore k x).die j = m.die j := rfl
@[simp] theorem read_setCore (m : Mach) (k : Nat) (x : Core) (l : Loc) : (m.setCore k x).read l = m.read l := by cases l <;> rfl
@[simp] theorem mgmtAt_setCore (m : Mach) (k : Nat) (x : Core) (a : Nat) : (m.setCore k x).mgmtAt a = m.mgmtAt a := rfl
@[simp] theorem mem_modCore (m : Mach) (k : Nat) (f : Core → Core) : (m.modCore k f).mem = m.mem := rfl
@[simp] theorem hostMem_modCore (m : Mach) (k : Nat) (f : Core → Core) : (m.modCore k f).hostMem = m.hostMem := rfl
@[simp] theorem scratch_modCore (m : Mach) (k : Nat) (f : Core → Core) : (m.modCore k f).scratch = m.scratch := rfl
@[simp] theorem msix_modCore (m : Mach) (k : Nat) (f : Core → Core) : (m.modCore k f).msix = m.msix := rfl
@[simp] theorem full_modCore (m : Mach) (k : Nat) (f : Core → Core) : (m.modCore k f).full = m.full := rfl
@[simp] theorem ctxs_modCore (m : Mach) (k : Nat) (f : Core → Core) : (m.modCore k f).ctxs = m.ctxs := rfl
@[simp] theorem dies_modCore (m : Mach) (k : Nat) (f : Core → Core) : (m.modCore k f).dies = m.dies := rfl
@[simp] theorem launches_modCore (m : Mach) (k : Nat) (f : Core → Core) : (m.modCore k f).launches = m.launches := rfl
@[simp] theorem mgmt_modCore (m : Mach) (k : Nat) (f : Core → Core) : (m.modCore k f).mgmt = m.mgmt := rfl
@[simp] theorem time_modCore (m : Mach) (k : Nat) (f : Core → Core) : (m.modCore k f).time = m.time := rfl
@[simp] theorem uid_modCore (m : Mach) (k : Nat) (f : Core → Core) : (m.modCore k f).uid = m.uid := rfl
@[simp] theorem grpPos_modCore (m : Mach) (k : Nat) (f : Core → Core) : (m.modCore k f).grpPos = m.grpPos := rfl
@[simp] theorem ctx_modCore (m : Mach) (k : Nat) (f : Core → Core) (j : Nat) : (m.modCore k f).ctx j = m.ctx j := rfl
@[simp] theorem die_modCore (m : Mach) (k : Nat) (f : Core → Core) (j : Nat) : (m.modCore k f).die j = m.die j := rfl
@[simp] theorem read_modCore (m : Mach) (k : Nat) (f : Core → Core) (l : Loc) : (m.modCore k f).read l = m.read l := by cases l <;> rfl
@[simp] theorem mgmtAt_modCore (m : Mach) (k : Nat) (f : Core → Core) (a : Nat) : (m.modCore k f).mgmtAt a = m.mgmtAt a := rfl
@[simp] theorem mem_setDie (m : Mach) (k : Nat) (x : Die) : (m.setDie k x).mem = m.mem := rfl
@[simp] theorem hostMem_setDie (m : Mach) (k : Nat) (x : Die) : (m.setDie k x).hostMem = m.hostMem := rfl
@[simp] theorem scratch_setDie (m : Mach) (k : Nat) (x : Die) : (m.setDie k x).scratch = m.scratch := rfl
@[simp] theorem msix_setDie (m : Mach) (k : Nat) (x : Die) : (m.setDie k x).msix = m.msix := rfl
@[simp] theorem full_setDie (m : Mach) (k : Nat) (x : Die) : (m.setDie k x).full = m.full := rfl
@[simp] theorem ctxs_setDie (m : Mach) (k : Nat) (x : Die) : (m.setDie k x).ctxs = m.ctxs := rfl
@[simp] theorem cores_setDie (m : Mach) (k : Nat) (x : Die) : (m.setDie k x).cores = m.cores := rfl
@[simp] theorem launches_setDie (m : Mach) (k : Nat) (x : Die) : (m.setDie k x).launches = m.launches := rfl
@[simp] theorem mgmt_setDie (m : Mach) (k : Nat) (x : Die) : (m.setDie k x).mgmt = m.mgmt := rfl
@[simp] theorem time_setDie (m : Mach) (k : Nat) (x : Die) : (m.setDie k x).time = m.time := rfl
@[simp] theorem uid_setDie (m : Mach) (k : Nat) (x : Die) : (m.setDie k x).uid = m.uid := rfl
@[simp] theorem grpPos_setDie (m : Mach) (k : Nat) (x : Die) : (m.setDie k x).grpPos = m.grpPos := rfl
@[simp] theorem ctx_setDie (m : Mach) (k : Nat) (x : Die) (j : Nat) : (m.setDie k x).ctx j = m.ctx j := rfl
@[simp] theorem core_setDie (m : Mach) (k : Nat) (x : Die) (j : Nat) : (m.setDie k x).core j = m.core j := rfl
@[simp] theorem read_setDie (m : Mach) (k : Nat) (x : Die) (l : Loc) : (m.setDie k x).read l = m.read l := by cases l <;> rfl
@[simp] theorem mgmtAt_setDie (m : Mach) (k : Nat) (x : Die) (a : Nat) : (m.setDie k x).mgmtAt a = m.mgmtAt a := rfl
@[simp] theorem mem_modDie (m : Mach) (k : Nat) (f : Die → Die) : (m.modDie k f).mem = m.mem := rfl
@[simp] theorem hostMem_modDie (m : Mach) (k : Nat) (f : Die → Die) : (m.modDie k f).hostMem = m.hostMem := rfl
@[simp] theorem scratch_modDie (m : Mach) (k : Nat) (f : Die → Die) : (m.modDie k f).scratch = m.scratch := rfl
@[simp] theorem msix_modDie (m : Mach) (k : Nat) (f : Die → Die) : (m.modDie k f).msix = m.msix := rfl
@[simp] theorem full_modDie (m : Mach) (k : Nat) (f : Die → Die) : (m.modDie k f).full = m.full := rfl
@[simp] theorem ctxs_modDie (m : Mach) (k : Nat) (f : Die → Die) : (m.modDie k f).ctxs = m.ctxs := rfl
@[simp] theorem cores_modDie (m : Mach) (k : Nat) (f : Die → Die) : (m.modDie k f).cores = m.cores := rfl
@[simp] theorem launches_modDie (m : Mach) (k : Nat) (f : Die → Die) : (m.modDie k f).launches = m.launches := rfl
@[simp] theorem mgmt_modDie (m : Mach) (k : Nat) (f : Die → Die) : (m.modDie k f).mgmt = m.mgmt := rfl
@[simp] theorem time_modDie (m : Mach) (k : Nat) (f : Die → Die) : (m.modDie k f).time = m.time := rfl
@[simp] theorem uid_modDie (m : Mach) (k : Nat) (f : Die → Die) : (m.modDie k f).uid = m.uid := rfl
@[simp] theorem grpPos_modDie (m : Mach) (k : Nat) (f : Die → Die) : (m.modDie k f).grpPos = m.grpPos := rfl
@[simp] theorem ctx_modDie (m : Mach) (k : Nat) (f : Die → Die) (j : Nat) : (m.modDie k f).ctx j = m.ctx j := rfl
@[simp] theorem core_modDie (m : Mach) (k : Nat) (f : Die → Die) (j : Nat) : (m.modDie k f).core j = m.core j := rfl
@[simp] theorem read_modDie (m : Mach) (k : Nat) (f : Die → Die) (l : Loc) : (m.modDie k f).read l = m.read l := by cases l <;> rfl
@[simp] theorem mgmtAt_modDie (m : Mach) (k : Nat) (f : Die → Die) (a : Nat) : (m.modDie k f).mgmtAt a = m.mgmtAt a := rfl
@[simp] theorem mem_modLaunch (m : Mach) (k : Word) (f : Launch → Launch) : (m.modLaunch k f).mem = m.mem := rfl
@[simp] theorem hostMem_modLaunch (m : Mach) (k : Word) (f : Launch → Launch) : (m.modLaunch k f).hostMem = m.hostMem := rfl
@[simp] theorem scratch_modLaunch (m : Mach) (k : Word) (f : Launch → Launch) : (m.modLaunch k f).scratch = m.scratch := rfl
@[simp] theorem msix_modLaunch (m : Mach) (k : Word) (f : Launch → Launch) : (m.modLaunch k f).msix = m.msix := rfl
@[simp] theorem full_modLaunch (m : Mach) (k : Word) (f : Launch → Launch) : (m.modLaunch k f).full = m.full := rfl
@[simp] theorem ctxs_modLaunch (m : Mach) (k : Word) (f : Launch → Launch) : (m.modLaunch k f).ctxs = m.ctxs := rfl
@[simp] theorem cores_modLaunch (m : Mach) (k : Word) (f : Launch → Launch) : (m.modLaunch k f).cores = m.cores := rfl
@[simp] theorem dies_modLaunch (m : Mach) (k : Word) (f : Launch → Launch) : (m.modLaunch k f).dies = m.dies := rfl
@[simp] theorem mgmt_modLaunch (m : Mach) (k : Word) (f : Launch → Launch) : (m.modLaunch k f).mgmt = m.mgmt := rfl
@[simp] theorem time_modLaunch (m : Mach) (k : Word) (f : Launch → Launch) : (m.modLaunch k f).time = m.time := rfl
@[simp] theorem uid_modLaunch (m : Mach) (k : Word) (f : Launch → Launch) : (m.modLaunch k f).uid = m.uid := rfl
@[simp] theorem grpPos_modLaunch (m : Mach) (k : Word) (f : Launch → Launch) : (m.modLaunch k f).grpPos = m.grpPos := rfl
@[simp] theorem ctx_modLaunch (m : Mach) (k : Word) (f : Launch → Launch) (j : Nat) : (m.modLaunch k f).ctx j = m.ctx j := rfl
@[simp] theorem core_modLaunch (m : Mach) (k : Word) (f : Launch → Launch) (j : Nat) : (m.modLaunch k f).core j = m.core j := rfl
@[simp] theorem die_modLaunch (m : Mach) (k : Word) (f : Launch → Launch) (j : Nat) : (m.modLaunch k f).die j = m.die j := rfl
@[simp] theorem read_modLaunch (m : Mach) (k : Word) (f : Launch → Launch) (l : Loc) : (m.modLaunch k f).read l = m.read l := by cases l <;> rfl
@[simp] theorem mgmtAt_modLaunch (m : Mach) (k : Word) (f : Launch → Launch) (a : Nat) : (m.modLaunch k f).mgmtAt a = m.mgmtAt a := rfl

@[simp] theorem errs_setCtx (m : Mach) (k : Nat) (x : Ctx) : (m.setCtx k x).errs = m.errs := rfl
@[simp] theorem rx_setCtx (m : Mach) (k : Nat) (x : Ctx) : (m.setCtx k x).rx = m.rx := rfl
@[simp] theorem seen_setCtx (m : Mach) (k : Nat) (x : Ctx) : (m.setCtx k x).seen = m.seen := rfl
@[simp] theorem passedAt_setCtx (m : Mach) (k : Nat) (x : Ctx) : (m.setCtx k x).passedAt = m.passedAt := rfl
@[simp] theorem ports_setCtx (m : Mach) (k : Nat) (x : Ctx) : (m.setCtx k x).ports = m.ports := rfl
@[simp] theorem l2_setCtx (m : Mach) (k : Nat) (x : Ctx) : (m.setCtx k x).l2 = m.l2 := rfl
@[simp] theorem fresh_setCtx (m : Mach) (k : Nat) (x : Ctx) : (m.setCtx k x).fresh = m.fresh := rfl
@[simp] theorem errs_modCtx (m : Mach) (k : Nat) (f : Ctx → Ctx) : (m.modCtx k f).errs = m.errs := rfl
@[simp] theorem rx_modCtx (m : Mach) (k : Nat) (f : Ctx → Ctx) : (m.modCtx k f).rx = m.rx := rfl
@[simp] theorem seen_modCtx (m : Mach) (k : Nat) (f : Ctx → Ctx) : (m.modCtx k f).seen = m.seen := rfl
@[simp] theorem passedAt_modCtx (m : Mach) (k : Nat) (f : Ctx → Ctx) : (m.modCtx k f).passedAt = m.passedAt := rfl
@[simp] theorem ports_modCtx (m : Mach) (k : Nat) (f : Ctx → Ctx) : (m.modCtx k f).ports = m.ports := rfl
@[simp] theorem l2_modCtx (m : Mach) (k : Nat) (f : Ctx → Ctx) : (m.modCtx k f).l2 = m.l2 := rfl
@[simp] theorem fresh_modCtx (m : Mach) (k : Nat) (f : Ctx → Ctx) : (m.modCtx k f).fresh = m.fresh := rfl
@[simp] theorem errs_setCore (m : Mach) (k : Nat) (x : Core) : (m.setCore k x).errs = m.errs := rfl
@[simp] theorem rx_setCore (m : Mach) (k : Nat) (x : Core) : (m.setCore k x).rx = m.rx := rfl
@[simp] theorem seen_setCore (m : Mach) (k : Nat) (x : Core) : (m.setCore k x).seen = m.seen := rfl
@[simp] theorem passedAt_setCore (m : Mach) (k : Nat) (x : Core) : (m.setCore k x).passedAt = m.passedAt := rfl
@[simp] theorem ports_setCore (m : Mach) (k : Nat) (x : Core) : (m.setCore k x).ports = m.ports := rfl
@[simp] theorem l2_setCore (m : Mach) (k : Nat) (x : Core) : (m.setCore k x).l2 = m.l2 := rfl
@[simp] theorem fresh_setCore (m : Mach) (k : Nat) (x : Core) : (m.setCore k x).fresh = m.fresh := rfl
@[simp] theorem errs_modCore (m : Mach) (k : Nat) (f : Core → Core) : (m.modCore k f).errs = m.errs := rfl
@[simp] theorem rx_modCore (m : Mach) (k : Nat) (f : Core → Core) : (m.modCore k f).rx = m.rx := rfl
@[simp] theorem seen_modCore (m : Mach) (k : Nat) (f : Core → Core) : (m.modCore k f).seen = m.seen := rfl
@[simp] theorem passedAt_modCore (m : Mach) (k : Nat) (f : Core → Core) : (m.modCore k f).passedAt = m.passedAt := rfl
@[simp] theorem ports_modCore (m : Mach) (k : Nat) (f : Core → Core) : (m.modCore k f).ports = m.ports := rfl
@[simp] theorem l2_modCore (m : Mach) (k : Nat) (f : Core → Core) : (m.modCore k f).l2 = m.l2 := rfl
@[simp] theorem fresh_modCore (m : Mach) (k : Nat) (f : Core → Core) : (m.modCore k f).fresh = m.fresh := rfl
@[simp] theorem errs_setDie (m : Mach) (k : Nat) (x : Die) : (m.setDie k x).errs = m.errs := rfl
@[simp] theorem rx_setDie (m : Mach) (k : Nat) (x : Die) : (m.setDie k x).rx = m.rx := rfl
@[simp] theorem seen_setDie (m : Mach) (k : Nat) (x : Die) : (m.setDie k x).seen = m.seen := rfl
@[simp] theorem passedAt_setDie (m : Mach) (k : Nat) (x : Die) : (m.setDie k x).passedAt = m.passedAt := rfl
@[simp] theorem ports_setDie (m : Mach) (k : Nat) (x : Die) : (m.setDie k x).ports = m.ports := rfl
@[simp] theorem l2_setDie (m : Mach) (k : Nat) (x : Die) : (m.setDie k x).l2 = m.l2 := rfl
@[simp] theorem fresh_setDie (m : Mach) (k : Nat) (x : Die) : (m.setDie k x).fresh = m.fresh := rfl
@[simp] theorem errs_modDie (m : Mach) (k : Nat) (f : Die → Die) : (m.modDie k f).errs = m.errs := rfl
@[simp] theorem rx_modDie (m : Mach) (k : Nat) (f : Die → Die) : (m.modDie k f).rx = m.rx := rfl
@[simp] theorem seen_modDie (m : Mach) (k : Nat) (f : Die → Die) : (m.modDie k f).seen = m.seen := rfl
@[simp] theorem passedAt_modDie (m : Mach) (k : Nat) (f : Die → Die) : (m.modDie k f).passedAt = m.passedAt := rfl
@[simp] theorem ports_modDie (m : Mach) (k : Nat) (f : Die → Die) : (m.modDie k f).ports = m.ports := rfl
@[simp] theorem l2_modDie (m : Mach) (k : Nat) (f : Die → Die) : (m.modDie k f).l2 = m.l2 := rfl
@[simp] theorem fresh_modDie (m : Mach) (k : Nat) (f : Die → Die) : (m.modDie k f).fresh = m.fresh := rfl
@[simp] theorem errs_modLaunch (m : Mach) (k : Word) (f : Launch → Launch) : (m.modLaunch k f).errs = m.errs := rfl
@[simp] theorem rx_modLaunch (m : Mach) (k : Word) (f : Launch → Launch) : (m.modLaunch k f).rx = m.rx := rfl
@[simp] theorem seen_modLaunch (m : Mach) (k : Word) (f : Launch → Launch) : (m.modLaunch k f).seen = m.seen := rfl
@[simp] theorem passedAt_modLaunch (m : Mach) (k : Word) (f : Launch → Launch) : (m.modLaunch k f).passedAt = m.passedAt := rfl
@[simp] theorem ports_modLaunch (m : Mach) (k : Word) (f : Launch → Launch) : (m.modLaunch k f).ports = m.ports := rfl
@[simp] theorem l2_modLaunch (m : Mach) (k : Word) (f : Launch → Launch) : (m.modLaunch k f).l2 = m.l2 := rfl
@[simp] theorem fresh_modLaunch (m : Mach) (k : Word) (f : Launch → Launch) : (m.modLaunch k f).fresh = m.fresh := rfl
/-! What a context keeps without its seat, and the error log. -/
@[simp] theorem left_bobbins (c : Ctx) : c.left.bobbins = c.bobbins := rfl
@[simp] theorem left_tile (c : Ctx) (t : Nat) : c.left.tile t = c.tile t := rfl
@[simp] theorem freed_bobbins (c : Ctx) : c.freed.bobbins = c.bobbins := rfl
@[simp] theorem freed_tile (c : Ctx) (t : Nat) : c.freed.tile t = c.tile t := rfl
@[simp] theorem ctxs_logErr (m : Mach) (d : Nat) (a : Word) (k c x y : Nat) : (m.logErr d a k c x y).ctxs = m.ctxs := rfl
@[simp] theorem cores_logErr (m : Mach) (d : Nat) (a : Word) (k c x y : Nat) : (m.logErr d a k c x y).cores = m.cores := rfl
@[simp] theorem launches_logErr (m : Mach) (d : Nat) (a : Word) (k c x y : Nat) : (m.logErr d a k c x y).launches = m.launches := rfl
@[simp] theorem mem_logErr (m : Mach) (d : Nat) (a : Word) (k c x y : Nat) : (m.logErr d a k c x y).mem = m.mem := rfl
@[simp] theorem scratch_logErr (m : Mach) (d : Nat) (a : Word) (k c x y : Nat) : (m.logErr d a k c x y).scratch = m.scratch := rfl
@[simp] theorem l2_logErr (m : Mach) (d : Nat) (a : Word) (k c x y : Nat) : (m.logErr d a k c x y).l2 = m.l2 := rfl
@[simp] theorem ports_logErr (m : Mach) (d : Nat) (a : Word) (k c x y : Nat) : (m.logErr d a k c x y).ports = m.ports := rfl
@[simp] theorem mgmt_logErr (m : Mach) (d : Nat) (a : Word) (k c x y : Nat) : (m.logErr d a k c x y).mgmt = m.mgmt := rfl
@[simp] theorem errs_logErr (m : Mach) (d : Nat) (a : Word) (k c x y : Nat) : (m.logErr d a k c x y).errs = m.errs := rfl
@[simp] theorem rx_logErr (m : Mach) (d : Nat) (a : Word) (k c x y : Nat) : (m.logErr d a k c x y).rx = m.rx := rfl
@[simp] theorem ctxs_logFault (m : Mach) (cx : Nat) (f : FaultRec) : (m.logFault cx f).ctxs = m.ctxs := by
  unfold Mach.logFault; split <;> rfl
@[simp] theorem ctxs_logDev (m : Mach) (d : Nat) (f : Option (Nat × Nat × Nat)) : (m.logDev d f).ctxs = m.ctxs := by
  cases f <;> rfl
@[simp] theorem cores_logFault (m : Mach) (cx : Nat) (f : FaultRec) : (m.logFault cx f).cores = m.cores := by
  unfold Mach.logFault; split <;> rfl
@[simp] theorem cores_logDev (m : Mach) (d : Nat) (f : Option (Nat × Nat × Nat)) : (m.logDev d f).cores = m.cores := by
  cases f <;> rfl
@[simp] theorem launches_logFault (m : Mach) (cx : Nat) (f : FaultRec) : (m.logFault cx f).launches = m.launches := by
  unfold Mach.logFault; split <;> rfl
@[simp] theorem launches_logDev (m : Mach) (d : Nat) (f : Option (Nat × Nat × Nat)) : (m.logDev d f).launches = m.launches := by
  cases f <;> rfl
@[simp] theorem mem_logFault (m : Mach) (cx : Nat) (f : FaultRec) : (m.logFault cx f).mem = m.mem := by
  unfold Mach.logFault; split <;> rfl
@[simp] theorem mem_logDev (m : Mach) (d : Nat) (f : Option (Nat × Nat × Nat)) : (m.logDev d f).mem = m.mem := by
  cases f <;> rfl
@[simp] theorem scratch_logFault (m : Mach) (cx : Nat) (f : FaultRec) : (m.logFault cx f).scratch = m.scratch := by
  unfold Mach.logFault; split <;> rfl
@[simp] theorem scratch_logDev (m : Mach) (d : Nat) (f : Option (Nat × Nat × Nat)) : (m.logDev d f).scratch = m.scratch := by
  cases f <;> rfl
@[simp] theorem mgmt_logFault (m : Mach) (cx : Nat) (f : FaultRec) : (m.logFault cx f).mgmt = m.mgmt := by
  unfold Mach.logFault; split <;> rfl
@[simp] theorem mgmt_logDev (m : Mach) (d : Nat) (f : Option (Nat × Nat × Nat)) : (m.logDev d f).mgmt = m.mgmt := by
  cases f <;> rfl
@[simp] theorem errs_logFault (m : Mach) (cx : Nat) (f : FaultRec) : (m.logFault cx f).errs = m.errs := by
  unfold Mach.logFault; split <;> rfl
@[simp] theorem errs_logDev (m : Mach) (d : Nat) (f : Option (Nat × Nat × Nat)) : (m.logDev d f).errs = m.errs := by
  cases f <;> rfl
@[simp] theorem logDev_none (m : Mach) (d : Nat) : m.logDev d none = m := rfl

end Sys2Proof.Machine
end

