-- ==== Sys2Proof/Laws/Issue.lean ====
section
/-! SUPPORT. What a bundle of one slot does when it retires. -/
namespace Sys2Proof.Machine
open Sys2Proof.Safety

/-! Registers and predicates. -/
@[simp] theorem regAt_zero (c : Ctx) : c.regAt 0 = 0 := rfl
theorem regAt_setRegAt (c : Ctx) (i j : Nat) (v : Word) :
    (c.setRegAt i v).regAt j = if i = j ∧ i ≠ 0 then v else c.regAt j := by
  unfold Ctx.setRegAt
  split
  · next h => subst h; simp
  · next h =>
    simp only [Ctx.regAt, mget_mset]
    split
    · next h2 => subst h2; simp [h]
    · simp [h]
theorem predAt_setPredAt (c : Ctx) (i j : Nat) (v : Bool) :
    (c.setPredAt i v).predAt j = if i = j ∧ i ≠ 0 ∧ i < 8 then v else c.predAt j := by
  unfold Ctx.setPredAt
  by_cases hi : i = 0 ∨ 8 ≤ i
  · have : (i = 0 || decide (8 ≤ i)) = true := by simpa using hi
    simp only [this, if_true]
    split
    · next h => omega
    · rfl
  · have : (i = 0 || decide (8 ≤ i)) = false := by simpa using hi
    simp only [this, Bool.false_eq_true, if_false]
    have h8 : i < 8 := by omega
    have hp : ∀ k, k < 8 → (BitVec.ofNat 8 (2 ^ i)).getLsbD k = decide (i = k) := by
      intro k hk
      have : i = 1 ∨ i = 2 ∨ i = 3 ∨ i = 4 ∨ i = 5 ∨ i = 6 ∨ i = 7 := by omega
      have hk : k = 0 ∨ k = 1 ∨ k = 2 ∨ k = 3 ∨ k = 4 ∨ k = 5 ∨ k = 6 ∨ k = 7 := by omega
      rcases this with rfl | rfl | rfl | rfl | rfl | rfl | rfl <;>
        rcases hk with rfl | rfl | rfl | rfl | rfl | rfl | rfl | rfl <;> rfl
    have hn : ∀ k, k < 8 → (BitVec.ofNat 8 (255 - 2 ^ i)).getLsbD k = decide (i ≠ k) := by
      intro k hk
      have : i = 1 ∨ i = 2 ∨ i = 3 ∨ i = 4 ∨ i = 5 ∨ i = 6 ∨ i = 7 := by omega
      have hk : k = 0 ∨ k = 1 ∨ k = 2 ∨ k = 3 ∨ k = 4 ∨ k = 5 ∨ k = 6 ∨ k = 7 := by omega
      rcases this with rfl | rfl | rfl | rfl | rfl | rfl | rfl <;>
        rcases hk with rfl | rfl | rfl | rfl | rfl | rfl | rfl | rfl <;> rfl
    simp only [Ctx.predAt]
    generalize BitVec.ofNat 8 (2 ^ i) = a at hp ⊢
    generalize BitVec.ofNat 8 (255 - 2 ^ i) = b at hn ⊢
    by_cases hj : j < 8
    · have h0 : i ≠ 0 := by omega
      by_cases hij : i = j
      · subst hij
        cases v
        · simp [BitVec.getLsbD_and, hn i hj, h0, h8, -BitVec.getLsbD_eq_getElem]
        · simp [BitVec.getLsbD_or, hp i hj, h0, h8, -BitVec.getLsbD_eq_getElem]
      · cases v
        · simp [BitVec.getLsbD_and, hn j hj, hij, -BitVec.getLsbD_eq_getElem]
        · simp [BitVec.getLsbD_or, hp j hj, hij, -BitVec.getLsbD_eq_getElem]
    · have h1 : c.preds.getLsbD j = false := BitVec.getLsbD_of_ge _ _ (by omega)
      have h2 : a.getLsbD j = false := BitVec.getLsbD_of_ge _ _ (by omega)
      have hij : i ≠ j := by omega
      cases v <;> simp [h1, h2, hij]


@[simp] theorem handler_setRef (c : Ctx) (r : RegRef) (v : Word) : (c.setRef r v).handler = c.handler := by
  cases r <;> simp only [Ctx.setRef, Ctx.setRegAt, Ctx.setPredAt] <;> split <;> rfl
theorem regOf_setRef_ne (c : Ctx) (r r' : RegRef) (v : Word) (h : r ≠ r') : regOf (c.setRef r v) r' = regOf c r' := by
  cases r <;> cases r'
  · next n k => simp only [regOf, Ctx.setRef, regAt_setRegAt]; split <;> simp_all
  · next n k => simp only [regOf, Ctx.setRef, Ctx.setRegAt]; split <;> rfl
  · next n k => simp only [regOf, Ctx.setRef, Ctx.setPredAt]; split <;> rfl
  · next n k => simp only [regOf, Ctx.setRef, predAt_setPredAt]; split <;> simp_all
/-- Registers that frozen writes do not name keep their values. -/
theorem regOf_foldl_ne (l : List FrozenW) (c : Ctx) (r : RegRef) (h : ∀ w ∈ l, w.reg ≠ r) :
    regOf (l.foldl (fun c w => c.setRef w.reg w.val) c) r = regOf c r := by
  induction l generalizing c with
  | nil => rfl
  | cons w l ih =>
    simp only [List.foldl_cons]
    rw [ih _ (fun x hx => h x (List.mem_cons_of_mem _ hx)), regOf_setRef_ne _ _ _ _ (h w (by simp))]
/-- A chain of register writes touches only registers and predicates. -/
theorem foldl_setRef_regs (l : List FrozenW) (c : Ctx) :
    l.foldl (fun c w => c.setRef w.reg w.val) c =
      { c with regs := (l.foldl (fun c w => c.setRef w.reg w.val) c).regs,
               preds := (l.foldl (fun c w => c.setRef w.reg w.val) c).preds } := by
  induction l generalizing c with
  | nil => rfl
  | cons w l ih =>
    simp only [List.foldl_cons]
    rw [ih]
    have : c.setRef w.reg w.val = { c with regs := (c.setRef w.reg w.val).regs, preds := (c.setRef w.reg w.val).preds } := by
      cases w.reg <;> simp only [Ctx.setRef, Ctx.setRegAt, Ctx.setPredAt] <;> split <;> rfl
    rw [this]

/-! A bundle of one slot. -/
/-- The state that the slot's effect sees. -/
def begun (k : Slot) (s : State) : State :=
  { s with issue := { s.issue with old := some s.m, len := if s.issue.len = 0 then 4 + k.bytes else s.issue.len } }
/-- A branch target is set, or none. -/
abbrev aimed (i : Issue) (tg : Option Word) : Issue := { i with target := tg }
theorem Solo.old {s : State} (h : Solo s) : s.issue.old = none := by rw [h]
@[simp] theorem begun_m (k : Slot) (s : State) : (begun k s).m = s.m := rfl
@[simp] theorem begun_cx (k : Slot) (s : State) : (begun k s).issue.cx = s.issue.cx := rfl
@[simp] theorem preCtx_begun (k : Slot) (s : State) : preCtx (begun k s) = me s := rfl
@[simp] theorem rs_begun (k : Slot) (s : State) (r : SReg) : rs (begun k s) r = (me s).s r := rfl
@[simp] theorem rp_begun (k : Slot) (s : State) (r : PReg) : rp (begun k s) r = (me s).p r := rfl
@[simp] theorem sr_begun (k : Slot) (s : State) (r : SReg) : sr (begun k s) r = sref (me s).handler r := rfl
/-- A bundle of one slot runs the slot's effect and ends. -/
theorem runSlot_solo {s : State} (h : Solo s) (k : Slot) (i : Instr) (f : State → State)
    (hl : (newLatch k i (f (begun k s))).issue.last = true) :
    runSlot k i f s = .next (finish (newLatch k i (f (begun k s)))) := by
  have hg : s.issue.guarded = false := by rw [h]
  have ho : s.issue.old = none := by rw [h]
  have hp : pre s = s.m := by simp [pre, ho]
  have hb : ({ s with issue := { s.issue with
      old := some (pre s), len := if s.issue.len = 0 then 4 + k.bytes else s.issue.len } } : State) = begun k s := by
    simp only [begun, hp]
  unfold runSlot
  simp only [hb]
  simp [hg, hl]
@[simp] theorem newLatch_x (i : Instr) (s : State) : newLatch .x i s = s := by simp [newLatch]

/-- A bundle without fault, stall or request commits. -/
theorem finish_clean {g : State} (h1 : g.issue.stall = none) (h2 : g.issue.faults = []) (h3 : g.issue.binds = [])
    (h4 : g.issue.asks = []) (h5 : g.issue.bget = []) : finish g = commit g [] := by
  unfold finish
  simp [h1, h2, h3, h4, mergeBinds, bindClashes, firstFault, bgetStalls, h5]

/-- Reads of registers that are not pending change nothing. -/
theorem reads_free (l : List RegRef) (s : State) (h : ∀ r ∈ l, r ∉ (preCtx s).pend) : reads l s = s := by
  unfold reads
  rw [if_neg]
  simpa using h
theorem dest?_eq {r q : RegRef} (h : r.dest? = some q) : q = r := by
  unfold RegRef.dest? at h
  split at h <;> simp_all
theorem writesFrozen_some {r q : RegRef} (h : r.dest? = some q) (s : State) : writesFrozen q s = reads [q] s := by
  have := dest?_eq h
  subst this
  simp [writesFrozen, h]
/-- Writing a register that is not pending changes nothing. -/
theorem writesFrozen_free (r : RegRef) (s : State) (h : ∀ q, r.dest? = some q → q ∉ (preCtx s).pend) : writesFrozen r s = s := by
  unfold writesFrozen
  split
  · rfl
  · next q hq => exact reads_free _ _ (by simpa using h q hq)
theorem writesPending_open (r : RegRef) (s : State)
    (h : ∀ q, r.dest? = some q → q ∉ (preCtx s).pend ∧ ∀ w ∈ (preCtx s).frozen, w.reg ≠ q) : writesPending r s = s := by
  unfold writesPending
  split
  · rfl
  · next q hq =>
    rw [if_neg]
    have := h q hq
    simpa using this

/-- The context after a bundle of only an X slot that queued the frozen writes `fs`, as retiring leaves it. -/
def retireX (s : State) (fs : List FrozenW) (npc : Word) : Ctx :=
  { ({ me s with frozen := (me s).frozen ++ fs } : Ctx).tickFrozen.unblocked with pc := npc }

theorem tickFrozen_regs (c : Ctx) : c.tickFrozen = { c with regs := c.tickFrozen.regs, preds := c.tickFrozen.preds, frozen := c.tickFrozen.frozen } := by
  unfold Ctx.tickFrozen
  simp only
  rw [foldl_setRef_regs]
theorem regOf_frozen (c : Ctx) (l : List FrozenW) (r : RegRef) : regOf { c with frozen := l } r = regOf c r := by cases r <;> rfl
/-- A register that no due write names keeps its value over a retirement. -/
theorem regOf_tick_ne (c : Ctx) (r : RegRef) (h : ∀ w ∈ c.frozen, w.left ≤ 1 → w.reg ≠ r) : regOf c.tickFrozen r = regOf c r := by
  unfold Ctx.tickFrozen
  simp only
  rw [regOf_frozen, regOf_foldl_ne]
  intro w hw
  simp only [List.mem_filter, List.mem_map, beq_iff_eq] at hw
  obtain ⟨⟨x, hx, rfl⟩, h0⟩ := hw
  exact h x hx (by simp only at h0; omega)
/-- The write queued last stands when it is due at once. -/
theorem regOf_tick_last (c : Ctx) (l : List FrozenW) (r : RegRef) (v : Word) (h : ∀ c : Ctx, regOf (c.setRef r v) r = v) :
    regOf ({ c with frozen := l ++ [⟨r, v, 1⟩] } : Ctx).tickFrozen r = v := by
  unfold Ctx.tickFrozen
  simp only [List.map_append, List.map_cons, List.map_nil, List.filter_append, List.foldl_append]
  rw [regOf_frozen]
  simp [List.filter, h]
theorem mem_tick (c : Ctx) (l : List FrozenW) (r : RegRef) (v : Word) (n : Nat) (h : n ≠ 0) :
    ⟨r, v, n⟩ ∈ (({ c with frozen := l ++ [⟨r, v, n + 1⟩] } : Ctx).tickFrozen).frozen := by
  unfold Ctx.tickFrozen
  simp [h]

@[simp] theorem setLatches_latches (c : Ctx) : c.setLatches c.latches = c := by
  unfold Ctx.setLatches Ctx.latches; split <;> rfl
@[simp] theorem bindAll_nil (c : Ctx) : c.bindAll [] = c := rfl
@[simp] theorem mk_issue (s : State) : pre { s with issue := { s.issue with old := some s.m } } = s.m := rfl

/-- Marking a launch active and a core's yield leaves the rest of the machine. -/
theorem commit_tail (s : State) (x : Mp Ctx) (lid : Option Launch) (y : Bool) (k cx : Nat)
    (ho : ∀ j, j ≠ cx → mget {} x j = s.m.ctx j) (hcx : s.issue.cx = cx) :
    let m : Mach := { s.m with ctxs := x }
    let m1 := match lid with | some l => m.modLaunch l.lid fun l => { l with active := true } | none => m
    let m2 := m1.modCore k fun c => { c with yielded := y }
    m2.ctx cx = mget {} x cx ∧ OnlyCtx s { s with m := m2, issue := {} } := by
  intro m m1 m2
  have ec : ∀ j, m2.ctx j = mget {} x j := by intro j; cases lid <;> rfl
  have hc : ∀ j, m1.core j = s.m.core j := by intro j; cases lid <;> rfl
  refine ⟨ec cx, ⟨?_, ?_, ?_, ?_, rfl⟩⟩
  · cases lid <;> rfl
  · intro l; cases lid <;> cases l <;> rfl
  · intro j hj; exact (ec j).trans (ho j (hcx ▸ hj))
  · intro j
    have h : ∀ f : Core → Core, (m1.modCore k f).core j = if k = j then f (s.m.core j) else s.m.core j := by
      intro f
      by_cases hj : k = j
      · subst hj; simp [hc]
      · simp [hj, hc]
    have := h fun c => { c with yielded := y }
    simp only [m2]
    rw [this]
    split <;> rfl

/-- Committing a bundle of one X slot that queued frozen writes and perhaps took a branch. -/
theorem commit_x {s g : State} (fs : List FrozenW) (tg : Option Word) (hs : Solo s)
    (hm : ∀ F : Ctx → Ctx, g.m.modCtx s.issue.cx F = s.m.modCtx s.issue.cx fun c => F { c with frozen := c.frozen ++ fs })
    (hi : g.issue = aimed (begun .x s).issue tg) (ha : g.agenda = s.agenda) :
    meIn s (commit g []) = retireX s fs (tg.getD (nextPc s .x)) ∧ OnlyCtx s (commit g []) := by
  have hcx : g.issue.cx = s.issue.cx := by rw [hi]; rfl
  have hends : g.issue.ends = false := by rw [hi, begun, hs]
  have hb : g.issue.bget = [] := by rw [hi, begun, hs]
  have ht : g.issue.tret = none := by rw [hi, begun, hs]
  have hk : g.issue.seedKey = none := by rw [hi, begun, hs]
  have hc : g.issue.seedCtr = none := by rw [hi, begun, hs]
  have hl : g.issue.latches = [] := by rw [hi, begun, hs]
  have htg : g.issue.target = tg := by rw [hi]
  have hlen : g.issue.len = if s.issue.len = 0 then 4 + Slot.x.bytes else s.issue.len := by rw [hi]; rfl
  let x := mset s.m.ctxs s.issue.cx (retireX s fs (tg.getD (nextPc s .x)))
  have hx : g.m.modCtx s.issue.cx (fun c =>
      { c.tickFrozen.unblocked with pc := (tg.getD (c.pc + BitVec.ofNat 64 g.issue.len)) }) = { s.m with ctxs := x } := by
    rw [hm, hlen]
    rfl
  have key := commit_tail s x (({ s.m with ctxs := x } : Mach).launchOf s.issue.cx) g.issue.yield (coreOf s.issue.cx) s.issue.cx
    (by intro j hj; simp only [x, mget_mset_ne _ _ _ (Ne.symm hj)]; rfl) rfl
  have hcommit : commit g [] = { s with
      m := (match ({ s.m with ctxs := x } : Mach).launchOf s.issue.cx with
        | some l => ({ s.m with ctxs := x } : Mach).modLaunch l.lid fun l => { l with active := true }
        | none => ({ s.m with ctxs := x } : Mach)).modCore (coreOf s.issue.cx) fun c => { c with yielded := g.issue.yield }
      issue := {} } := by
    unfold commit
    simp only [hcx, hb, ht, hk, hc, hl, htg, hends, bindAll_nil, List.foldl_nil, Option.getD_none, setLatches_latches,
      Option.isSome_none, Bool.false_eq_true, if_false, hx]
    cases g
    simp only at ha
    subst ha
    rfl
  rw [hcommit]
  refine ⟨?_, key.2⟩
  refine key.1.trans ?_
  simp only [x, mget_mset_same]


theorem retireX_onlyRegs (s : State) (fs : List FrozenW) (a : Word) : OnlyRegs (me s) (retireX s fs a) := by
  show { ({ me s with frozen := (me s).frozen ++ fs } : Ctx).tickFrozen.unblocked with pc := a } = _
  rw [tickFrozen_regs]
  rfl
theorem begun_issue {s : State} (hs : Solo s) (k : Slot) :
    (begun k s).issue =
      { cx := s.issue.cx
        len := (begun k s).issue.len
        yield := s.issue.yield
        offset := s.issue.offset
        replayed := s.issue.replayed
        old := some s.m } := by
  simp only [begun]; rw [hs]
theorem finish_begun {s g : State} (hs : Solo s) (k : Slot) (tg : Option Word) (hg : g.issue = aimed (begun k s).issue tg) :
    finish g = commit g [] := by
  have h := begun_issue hs k
  exact finish_clean (by rw [hg, h]) (by rw [hg, h]) (by rw [hg, h]) (by rw [hg, h]) (by rw [hg, h])
theorem begun_target {s : State} (hs : Solo s) (k : Slot) : (begun k s).issue = aimed (begun k s).issue none := by
  rw [begun_issue hs k]

/-- A bundle of one X slot that writes one register, or none, and perhaps branches. -/
theorem runX_result {s : State} (hs : Solo s) (i : Instr) (f : State → State) (fs : List FrozenW) (tg : Option Word)
    (hm : ∀ F : Ctx → Ctx, (f (begun .x s)).m.modCtx s.issue.cx F = s.m.modCtx s.issue.cx fun c => F { c with frozen := c.frozen ++ fs })
    (hi : (f (begun .x s)).issue = aimed (begun .x s).issue tg) (ha : (f (begun .x s)).agenda = s.agenda) :
    ∃ t, runX i f s = .next t ∧ meIn s t = retireX s fs (tg.getD (nextPc s .x)) ∧ OnlyCtx s t := by
  refine ⟨commit (f (begun .x s)) [], ?_, commit_x fs tg hs hm hi ha⟩
  unfold runX
  have hlast : (f (begun .x s)).issue.last = true := by rw [hi, begun_issue hs]
  rw [runSlot_solo hs _ _ _ (by rw [newLatch_x]; exact hlast), newLatch_x, finish_begun hs .x tg hi]

/-- What a retired write of one register is (07 R121 to R123). -/
theorem writesX_of {s t : State} (r : RegRef) (lat : Nat) (v : Word) (hlat : 1 ≤ lat)
    (hv : ∀ c : Ctx, r.dest? = some r → regOf (c.setRef r v) r = v)
    (h1 : meIn s t = retireX s (match r.dest? with | none => [] | some q => [⟨q, v, lat⟩]) (nextPc s .x)) (h2 : OnlyCtx s t) :
    WritesX s t r.dest? lat v := by
  refine ⟨by rw [h1]; rfl, ?_, ?_, ?_, by rw [h1]; exact retireX_onlyRegs _ _ _, h2⟩
  · rintro q hq rfl
    have := dest?_eq hq
    subst this
    rw [h1, hq]
    show regOf (({ me s with frozen := (me s).frozen ++ [⟨q, v, 1⟩] } : Ctx).tickFrozen) q = v
    exact regOf_tick_last _ _ _ _ fun c => hv c hq
  · intro q hq hne
    have := dest?_eq hq
    subst this
    rw [h1, hq]
    obtain ⟨n, rfl⟩ : ∃ n, lat = n + 1 := ⟨lat - 1, by omega⟩
    exact mem_tick _ _ _ _ _ (by omega)
  · intro q hq hne
    rw [h1]
    show regOf (({ me s with frozen := (me s).frozen ++ _ } : Ctx).tickFrozen) q = _
    rw [regOf_tick_ne _ _ ?_, regOf_frozen]
    intro w hw hle
    rcases List.mem_append.1 hw with hw | hw
    · exact hq w hw
    · cases hd : r.dest? with
      | none => rw [hd] at hw; cases hw
      | some q' =>
        rw [hd] at hw hne
        simp only [List.mem_singleton] at hw
        subst hw
        intro e
        simp only at e hle
        subst e
        rcases hne with h | h
        · exact h rfl
        · omega

/-- A bundle of one X slot that only writes a register. -/
theorem runX_frozen {s : State} (hs : Solo s) (i : Instr) (f : State → State) (l : List RegRef) (r : RegRef) (lat : Nat) (v : Word)
    (hf : f (begun .x s) = frozenTo r lat v (reads l (begun .x s))) (hl : ∀ r ∈ l, Free s r) (hd : ∀ q, r.dest? = some q → Free s q)
    (hlat : 1 ≤ lat) (hv : ∀ c : Ctx, r.dest? = some r → regOf (c.setRef r v) r = v) :
    ∃ t, runX i f s = .next t ∧ WritesX s t r.dest? lat v := by
  have hr : reads l (begun .x s) = begun .x s := reads_free _ _ hl
  rw [hr] at hf
  have h : ∃ t, runX i f s = .next t ∧
      meIn s t = retireX s (match r.dest? with | none => [] | some q => [⟨q, v, lat⟩]) (nextPc s .x) ∧ OnlyCtx s t := by
    cases hdst : r.dest? with
    | none =>
      have hg : f (begun .x s) = begun .x s := by rw [hf]; unfold frozenTo; rw [hdst]
      refine runX_result hs i f [] none ?_ ?_ ?_
      · intro F; rw [hg]; simp
      · rw [hg]; exact begun_target hs .x
      · rw [hg]; rfl
    | some q =>
      have hw : writesFrozen q (begun .x s) = begun .x s := writesFrozen_free _ _ (fun r hr => by rw [dest?_eq hr]; exact hd q hdst)
      have hg : f (begun .x s) = onCtx (fun c => { c with frozen := c.frozen ++ [⟨q, v, lat⟩] }) (begun .x s) := by
        rw [hf]; unfold frozenTo; rw [hdst]; simp only [hw]
      refine runX_result hs i f [⟨q, v, lat⟩] none ?_ ?_ ?_
      · intro F; rw [hg]; simp [onCtx, Mach.modCtx, Mach.setCtx, Mach.ctx]
      · rw [hg]; exact begun_target hs .x
      · rw [hg]; rfl
  obtain ⟨t, h0, h1, h2⟩ := h
  exact ⟨t, h0, writesX_of r lat v hlat hv h1 h2⟩

theorem regOf_setRef_sref (h : Bool) (r : SReg) (v : Word) (c : Ctx) (hd : (sref h r).dest? = some (sref h r)) :
    regOf (c.setRef (sref h r) v) (sref h r) = v := by
  show (c.setRegAt (regIx h r) v).regAt (regIx h r) = v
  have h0 : regIx h r ≠ 0 := by
    intro h0
    unfold sref at hd
    rw [h0] at hd
    cases hd
  rw [regAt_setRegAt, if_pos ⟨rfl, h0⟩]
theorem regOf_setRef_pref (r : PReg) (b : Bool) (c : Ctx) (hd : (pref r).dest? = some (pref r)) :
    regOf (c.setRef (pref r) (if b then 1 else 0)) (pref r) = if b then 1 else 0 := by
  have h0 : r.toNat ≠ 0 := by
    intro h0
    unfold pref at hd
    rw [h0] at hd
    cases hd
  have h : ∀ v, (c.setPredAt r.toNat v).predAt r.toNat = v := fun v => by
    rw [predAt_setPredAt]
    exact if_pos ⟨rfl, h0, r.isLt⟩
  show (if (c.setPredAt r.toNat _).predAt r.toNat then (1 : Word) else 0) = _
  rw [h]
  cases b <;> rfl
@[simp] theorem preCtx_reads (l : List RegRef) (s : State) : preCtx (reads l s) = preCtx s := by
  unfold reads; split <;> rfl
@[simp] theorem sr_reads (l : List RegRef) (s : State) (r : SReg) : sr (reads l s) r = sr s r := by simp [sr]

/-- The register-register form. -/
theorem alu2_writes {s : State} (hs : Solo s) (i : Instr) (lat : Nat) (sd sa sb : SReg) (f : Word → Word → Word) (hlat : 1 ≤ lat)
    (ha : Free s (sref (me s).handler sa)) (hb : Free s (sref (me s).handler sb)) (hd : Free s (sref (me s).handler sd)) :
    ∃ t, alu2 i lat sd sa sb f s = .next t ∧ WritesX s t (sref (me s).handler sd).dest? lat (f ((me s).s sa) ((me s).s sb)) :=
  runX_frozen hs i _ [sref (me s).handler sa, sref (me s).handler sb] (sref (me s).handler sd) lat _ (by simp only [wrS, sr_reads]; rfl)
    (by simp [ha, hb]) (fun q hq => by rw [dest?_eq hq]; exact hd) hlat (fun c h => regOf_setRef_sref _ _ _ _ h)
/-- The one-source form. -/
theorem alu1_writes {s : State} (hs : Solo s) (i : Instr) (lat : Nat) (sd sa : SReg) (f : Word → Word) (hlat : 1 ≤ lat)
    (ha : Free s (sref (me s).handler sa)) (hd : Free s (sref (me s).handler sd)) :
    ∃ t, alu1 i lat sd sa f s = .next t ∧ WritesX s t (sref (me s).handler sd).dest? lat (f ((me s).s sa)) :=
  runX_frozen hs i _ [sref (me s).handler sa] (sref (me s).handler sd) lat _ (by simp only [wrS, sr_reads]; rfl)
    (by simp [ha]) (fun q hq => by rw [dest?_eq hq]; exact hd) hlat (fun c h => regOf_setRef_sref _ _ _ _ h)
/-- The compare. -/
theorem cmp2_writes {s : State} (hs : Solo s) (i : Instr) (lat : Nat) (pd : PReg) (sa sb : SReg) (f : Word → Word → Bool) (hlat : 1 ≤ lat)
    (ha : Free s (sref (me s).handler sa)) (hb : Free s (sref (me s).handler sb)) (hd : Free s (pref pd)) :
    ∃ t, cmp2 i lat pd sa sb f s = .next t ∧ WritesX s t (pref pd).dest? lat (if f ((me s).s sa) ((me s).s sb) then 1 else 0) :=
  runX_frozen hs i _ [sref (me s).handler sa, sref (me s).handler sb] (pref pd) lat _ rfl
    (by simp [ha, hb]) (fun q hq => by rw [dest?_eq hq]; exact hd) hlat (fun c h => regOf_setRef_pref _ _ _ h)

end Sys2Proof.Machine
end

