-- ==== Sys2Proof/Laws/Bundle.lean ====
section
/-! SUPPORT. What a bundle of one slot does, whatever its slot: it retires over the machine that its effect made. -/
namespace Sys2Proof.Machine
open Sys2Proof.Safety

/-- The issue scratch that a slot may leave: bindings, seeds and a branch target. -/
abbrev leaves (i : Issue) (bs : List (Slot × List Binding)) (sk sc : Option (BitVec 32)) (tg : Option Word) : Issue :=
  { i with binds := bs, seedKey := sk, seedCtr := sc, target := tg }
/-- What committing adds to the context before it settles. -/
def bound (c : Ctx) (l : List Binding) (sk sc : Option (BitVec 32)) : Ctx :=
  { c.bindAll l with drawKey := sk.getD (c.bindAll l).drawKey, drawCtr := sc.getD (c.bindAll l).drawCtr }
@[simp] theorem bound_nil (c : Ctx) : bound c [] none none = c := rfl
@[simp] theorem bindAll_frozen (c : Ctx) (l : List Binding) : (c.bindAll l).frozen = c.frozen := rfl

theorem regOf_settled (c : Ctx) (npc : Word) (r : RegRef) : regOf (settled c npc) r = regOf c.tickFrozen r := by
  cases r <;> rfl
theorem latched_frozen (k : Slot) (i : Instr) (s : State) (c : Ctx) : (latched k i s c).frozen = c.frozen := by
  unfold latched Ctx.setLatches
  split
  · rfl
  · split
    · split <;> rfl
    · rfl
theorem regOf_latched (k : Slot) (i : Instr) (s : State) (c : Ctx) (r : RegRef) : regOf (latched k i s c) r = regOf c r := by
  unfold latched Ctx.setLatches
  split
  · rfl
  · split
    · split <;> cases r <;> rfl
    · rfl

theorem newLatch_m (k : Slot) (i : Instr) (s : State) : (newLatch k i s).m = s.m := by
  unfold newLatch; split
  · rfl
  · split <;> rfl
theorem newLatch_agenda (k : Slot) (i : Instr) (s : State) : (newLatch k i s).agenda = s.agenda := by
  unfold newLatch; split
  · rfl
  · split <;> rfl

/-- Committing a bundle of one slot. -/
theorem commit_retires {s g : State} (hs : Solo s) (k : Slot) (i : Instr) (bs : List (Slot × List Binding)) (binds : List Binding)
    (sk sc : Option (BitVec 32)) (tg : Option Word) (hi : g.issue = leaves (begun k s).issue bs sk sc tg) (ha : g.agenda = s.agenda)
    (hpc : (g.m.ctx s.issue.cx).pc = (me s).pc) :
    Retires k i (tg.getD (nextPc s k)) s (g.m.modCtx s.issue.cx fun c => bound c binds sk sc) (commit (newLatch k i g) binds) := by
  have hb := begun_issue hs k
  rw [hb] at hi
  let c0 := bound (g.m.ctx s.issue.cx) binds sk sc
  let L : List (Slot × Latch) := if k = .x then [] else match encode i with
    | some (_, w) => [(k, { word := w, offset := s.issue.offset })] | none => []
  have hL : (newLatch k i g).issue = { g.issue with latches := L } := by
    unfold newLatch
    by_cases hk : k = .x
    · simp only [hk, if_true, L]
      rw [hi]
    · simp only [if_neg hk, L]
      cases encode i with
      | none => simp only; rw [hi]
      | some p => simp only; rw [hi]; rfl
  have hlen : g.issue.len = if s.issue.len = 0 then 4 + k.bytes else s.issue.len := by rw [hi]; rfl
  have hcx : (newLatch k i g).issue.cx = s.issue.cx := by rw [hL, hi]
  have hl : (L.foldl (fun l x => mset l x.1.bit x.2) c0.latches) = (if k = .x then c0.latches else match encode i with
      | some (_, w) => mset c0.latches k.bit { word := w, offset := s.issue.offset } | none => c0.latches) := by
    by_cases hk : k = .x
    · simp [L, hk]
    · simp only [L, if_neg hk]
      cases encode i <;> rfl
  let C : Ctx := settled (latched k i s c0) (tg.getD (nextPc s k))
  have hlat : c0.setLatches (L.foldl (fun l x => mset l x.1.bit x.2) c0.latches) = latched k i s c0 := by
    rw [hl]
    unfold latched
    by_cases hk : k = .x
    · simp [hk]
    · simp only [if_neg hk]
      cases encode i <;> simp
  let X := mset g.m.ctxs s.issue.cx C
  let M : Mach := { g.m with ctxs := X }
  have hcommit : commit (newLatch k i g) binds = { g with
      m := (match M.launchOf s.issue.cx with
        | some l => M.modLaunch l.lid fun l => { l with active := true }
        | none => M).modCore (coreOf s.issue.cx) fun c => { c with yielded := s.issue.yield }
      issue := {} } := by
    have hends : (newLatch k i g).issue.ends = false := by rw [hL, hi]
    have hbg : (newLatch k i g).issue.bget = [] := by rw [hL, hi]
    have ht : (newLatch k i g).issue.tret = none := by rw [hL, hi]
    have hk1 : (newLatch k i g).issue.seedKey = sk := by rw [hL, hi]
    have hc1 : (newLatch k i g).issue.seedCtr = sc := by rw [hL, hi]
    have hl1 : (newLatch k i g).issue.latches = L := by rw [hL]
    have htg : (newLatch k i g).issue.target = tg := by rw [hL, hi]
    have hy : (newLatch k i g).issue.yield = s.issue.yield := by rw [hL, hi]
    have hlen' : (newLatch k i g).issue.len = if s.issue.len = 0 then 4 + k.bytes else s.issue.len := by rw [hL]; exact hlen
    have hX : g.m.modCtx s.issue.cx (fun c =>
        let c := c.bindAll binds
        let c := { c with drawKey := sk.getD c.drawKey, drawCtr := sc.getD c.drawCtr }
        let c := c.setLatches (L.foldl (fun l x => mset l x.1.bit x.2) c.latches)
        { c.tickFrozen.unblocked with pc := (tg.getD (c.pc + BitVec.ofNat 64 (if s.issue.len = 0 then 4 + k.bytes else s.issue.len))) }) = M := by
      have hpc0 : (latched k i s c0).pc = (me s).pc := by
        have h1 : (latched k i s c0).pc = c0.pc := by
          unfold latched Ctx.setLatches
          split
          · rfl
          · split
            · split <;> rfl
            · rfl
        rw [h1]; exact hpc
      simp only [Mach.modCtx, Mach.setCtx, M, X, C]
      congr 2
      show ({ (c0.setLatches (L.foldl (fun l x => mset l x.1.bit x.2) c0.latches)).tickFrozen.unblocked with pc := _ } : Ctx) = _
      rw [hlat]
      unfold settled nextPc
      rw [← hpc0]
      have hbx : (bound (g.m.ctx s.issue.cx) binds sk sc) = c0 := rfl
      show ({ (latched k i s c0).tickFrozen.unblocked with
        pc := (tg.getD ((c0.setLatches (L.foldl (fun l x => mset l x.1.bit x.2) c0.latches)).pc + _)) } : Ctx) = _
      rw [hlat]
    unfold commit
    simp only [hcx, hbg, ht, hk1, hc1, hl1, htg, hends, hlen', hy, List.foldl_nil, Option.isSome_none,
      Bool.false_eq_true, if_false, newLatch_m, hX]
    have hn : newLatch k i g = { g with issue := (newLatch k i g).issue } := by
      unfold newLatch; split
      · rfl
      · split <;> rfl
    rw [hn]
    all_goals rfl
  have key : ∀ (mm : Mach), (mm = M ∨ ∃ lid, mm = M.modLaunch lid fun l => { l with active := true }) →
      Retires k i (tg.getD (nextPc s k)) s (g.m.modCtx s.issue.cx fun c => bound c binds sk sc)
        { g with m := mm.modCore (coreOf s.issue.cx) fun c => { c with yielded := s.issue.yield }, issue := {} } := by
    intro mm hmm
    have ec : ∀ j, mm.ctx j = M.ctx j := by rcases hmm with rfl | ⟨lid, rfl⟩ <;> intro j <;> rfl
    have hco : ∀ j, mm.core j = g.m.core j := by rcases hmm with rfl | ⟨lid, rfl⟩ <;> intro j <;> rfl
    have hmc : (g.m.modCtx s.issue.cx fun c => bound c binds sk sc).ctx s.issue.cx = c0 := by simp [c0]
    have hh : meIn s { g with m := mm.modCore (coreOf s.issue.cx) fun c => { c with yielded := s.issue.yield }, issue := {} } = C := by
      show mm.ctx s.issue.cx = C
      rw [ec]; simp [M, X, Mach.ctx]
    refine ⟨?_, ?_, ?_, ?_, ?_, ?_, ?_, rfl, ha⟩
    · rw [hh, hmc]
    · intro r hr
      rw [hh, hmc] at *
      rw [regOf_settled, regOf_tick_ne _ _ (by rw [latched_frozen]; exact hr), regOf_latched]
    · intro j hj
      show mm.ctx j = _
      rw [ec]
      simp [M, X, Mach.ctx, Mach.modCtx, Mach.setCtx, mget_mset_ne _ _ _ (Ne.symm hj)]
    · rcases hmm with rfl | ⟨lid, rfl⟩ <;> rfl
    · intro j
      have h : ∀ f : Core → Core, (mm.modCore (coreOf s.issue.cx) f).core j = if coreOf s.issue.cx = j then f (g.m.core j) else g.m.core j := by
        intro f
        by_cases hj : coreOf s.issue.cx = j
        · subst hj; simp [hco]
        · simp [hj, hco]
      show (mm.modCore _ _).core j = _
      rw [h]
      split <;> rfl
    · rcases hmm with rfl | ⟨lid, rfl⟩
      · exact .inl rfl
      · exact .inr ⟨lid, rfl⟩
    · intro l; rcases hmm with rfl | ⟨lid, rfl⟩ <;> cases l <;> rfl
  rw [hcommit]
  cases hlo : M.launchOf s.issue.cx with
  | none => exact key _ (.inl rfl)
  | some l => exact key _ (.inr ⟨l.lid, rfl⟩)

/-- A bundle of one slot whose effect is `g`, clean but for bindings, seeds or a branch. -/
theorem run_retires {s g : State} (hs : Solo s) (k : Slot) (i : Instr) (f : State → State) (bs : List (Slot × List Binding))
    (binds : List Binding) (sk sc : Option (BitVec 32)) (tg : Option Word) (hf : f (begun k s) = g)
    (hi : g.issue = leaves (begun k s).issue bs sk sc tg) (hb : mergeBinds bs = binds) (hbc : bindClashes bs [] = []) (ha : g.agenda = s.agenda)
    (hpc : (g.m.ctx s.issue.cx).pc = (me s).pc) :
    ∃ t, runSlot k i f s = .next t ∧
      Retires k i (tg.getD (nextPc s k)) s (g.m.modCtx s.issue.cx fun c => bound c binds sk sc) t := by
  refine ⟨commit (newLatch k i g) binds, ?_, commit_retires hs k i bs binds sk sc tg hi ha hpc⟩
  have hbi := begun_issue hs k
  have hn : newLatch k i g = { g with issue := (newLatch k i g).issue } := by
    unfold newLatch; split
    · rfl
    · split <;> rfl
  have hni : ∃ L, (newLatch k i g).issue = { g.issue with latches := L } := by
    unfold newLatch; split
    · exact ⟨_, rfl⟩
    · split
      · exact ⟨_, rfl⟩
      · exact ⟨_, rfl⟩
  obtain ⟨L, hL⟩ := hni
  rw [runSlot_solo hs k i f (by rw [hf, hL, hi, hbi]), hf]
  congr 1
  unfold finish
  have e1 : (newLatch k i g).issue.stall = none := by rw [hL, hi, hbi]
  have e2 : (newLatch k i g).issue.faults = [] := by rw [hL, hi, hbi]
  have e3 : (newLatch k i g).issue.binds = bs := by rw [hL, hi]
  have e4 : (newLatch k i g).issue.asks = [] := by rw [hL, hi, hbi]
  have e5 : (newLatch k i g).issue.bget = [] := by rw [hL, hi, hbi]
  simp [e1, e2, e3, e4, hb, hbc, firstFault, bgetStalls, e5]

/-- A bundle of one slot that faults. -/
theorem run_trapped {s : State} (hs : Solo s) (k : Slot) (i : Instr) (f : State → State) (fr : FaultRec)
    (hi : (f (begun k s)).issue = { (begun k s).issue with faults := [(k, fr)] }) (ha : (f (begun k s)).agenda = s.agenda) :
    runSlot k i f s = .next (trapped k fr s) := by
  have hbi := begun_issue hs k
  have hni : ∃ L, newLatch k i (f (begun k s)) = { f (begun k s) with issue := { (f (begun k s)).issue with latches := L } } := by
    unfold newLatch; split
    · exact ⟨_, rfl⟩
    · split
      · exact ⟨_, rfl⟩
      · exact ⟨_, rfl⟩
  obtain ⟨L, hL⟩ := hni
  rw [runSlot_solo hs k i f (by rw [hL, hi, hbi])]
  congr 1
  have e1 : (newLatch k i (f (begun k s))).issue =
      { cx := s.issue.cx
        len := (begun k s).issue.len
        yield := s.issue.yield
        offset := s.issue.offset
        replayed := s.issue.replayed
        old := some s.m
        faults := [(k, fr)]
        latches := L } := by rw [hL, hi, hbi]
  unfold finish
  simp only [pre, e1, bindClashes, List.append_nil, firstFault, List.foldl_cons, List.foldl_nil, Option.getD_some, List.map_cons, List.map_nil, slotMask]
  have hz : (0 : BitVec 6) ||| BitVec.ofNat 6 (2 ^ k.bit) = BitVec.ofNat 6 (2 ^ k.bit) := by simp
  rw [hz, hL]
  simp only [ha]
  unfold trapped
  simp only

/-- A bundle of one slot that stalls without a request. -/
theorem run_waiting {s : State} (hs : Solo s) (k : Slot) (i : Instr) (f : State → State) (st : Stall)
    (hi : ∃ fs, (f (begun k s)).issue = { (begun k s).issue with stall := some st, faults := fs }) (ha : (f (begun k s)).agenda = s.agenda) :
    runSlot k i f s = .next (waiting (st == .internal) s) := by
  obtain ⟨fs, hi⟩ := hi
  have hbi := begun_issue hs k
  have hni : ∃ L, newLatch k i (f (begun k s)) = { f (begun k s) with issue := { (f (begun k s)).issue with latches := L } } := by
    unfold newLatch; split
    · exact ⟨_, rfl⟩
    · split
      · exact ⟨_, rfl⟩
      · exact ⟨_, rfl⟩
  obtain ⟨L, hL⟩ := hni
  rw [runSlot_solo hs k i f (by rw [hL, hi, hbi])]
  congr 1
  have e1 : (newLatch k i (f (begun k s))).issue =
      { cx := s.issue.cx
        len := (begun k s).issue.len
        yield := s.issue.yield
        offset := s.issue.offset
        replayed := s.issue.replayed
        old := some s.m
        stall := some st
        faults := fs
        latches := L } := by rw [hL, hi, hbi]
  unfold finish
  simp only [pre, e1, Option.getD_some, List.filter_nil]
  rw [hL]
  simp only [ha, waiting]
  cases st <;> rfl

/-! The parts of a slot's effect over a fresh bundle. -/
theorem onCtx_begun (k : Slot) (f : Ctx → Ctx) (s : State) :
    onCtx f (begun k s) = { begun k s with m := s.m.modCtx s.issue.cx f } := rfl
/-- Setting a destination pending and queueing its access. -/
theorem push_pend {s : State} (k : Slot) (r : RegRef) (a : Access) (h : Open s r) :
    pushAccess a (pendOn r (begun k s)) = { begun k s with m := outAfter s r.dest? a } := by
  unfold pendOn
  cases hd : r.dest? with
  | none =>
    simp only [pushAccess, outAfter, Mach.nextUid, Mach.modCtx, Mach.setCtx, Option.toList_none, List.append_nil, begun_m, begun_cx]
  | some q =>
    have hq : writesPending q (begun k s) = begun k s := writesPending_open _ _ fun q' hq' => by
      have e := dest?_eq hq'
      subst e
      exact h _ hd
    simp only [hq, pushAccess, outAfter, Mach.nextUid, onCtx, Mach.modCtx, Mach.setCtx, Mach.ctx, mget_mset_same, mset_mset,
      Option.toList_some, begun_m, begun_cx]
theorem push_begun {s : State} (k : Slot) (a : Access) : pushAccess a (begun k s) = { begun k s with m := outAfter s none a } := by
  simp only [pushAccess, outAfter, Mach.nextUid, Mach.modCtx, Mach.setCtx, Option.toList_none, List.append_nil, begun_m, begun_cx]
theorem giveTo_begun {s : State} (k : Slot) (r : RegRef) (v : Word) (h : Open s r) :
    giveTo r v (begun k s) = { begun k s with m := gives s r v } := push_pend k r _ h
@[simp] theorem pc_outAfter (s : State) (d : Option RegRef) (a : Access) : ((outAfter s d a).ctx s.issue.cx).pc = (me s).pc := by
  simp [outAfter, Mach.nextUid, Mach.modCtx, Mach.setCtx, Mach.ctx, me]
@[simp] theorem pc_frozenIn (s : State) (d : Option RegRef) (lat : Nat) (v : Word) :
    ((frozenIn s d lat v).ctx s.issue.cx).pc = (me s).pc := by
  cases d <;> simp [frozenIn, Mach.modCtx, Mach.setCtx, Mach.ctx, me]
/-- A frozen write over a fresh bundle. -/
theorem frozenTo_begun {s : State} (k : Slot) (r : RegRef) (lat : Nat) (v : Word) (h : ∀ q, r.dest? = some q → Free s q) :
    frozenTo r lat v (begun k s) = { begun k s with m := frozenIn s r.dest? lat v } := by
  unfold frozenTo
  cases hd : r.dest? with
  | none => rfl
  | some q =>
    have hw : writesFrozen q (begun k s) = begun k s := writesFrozen_free _ _ fun q' hq' => by
      rw [dest?_eq hq']; exact h q hd
    simp only [hw, onCtx_begun]
    rfl

theorem begun_leaves {s : State} (hs : Solo s) (k : Slot) : (begun k s).issue = leaves (begun k s).issue [] none none none := by
  rw [begun_issue hs k]
theorem run_clean_bound {s : State} (hs : Solo s) (k : Slot) (i : Instr) (f : State → State) (m : Mach)
    (hf : f (begun k s) = { begun k s with m := m }) (hpc : (m.ctx s.issue.cx).pc = (me s).pc) :
    ∃ t, runSlot k i f s = .next t ∧ Retires k i (nextPc s k) s (m.modCtx s.issue.cx fun c => bound c [] none none) t :=
  run_retires hs k i f [] [] none none none hf (begun_leaves hs k) rfl rfl rfl hpc
theorem retires_congr {k : Slot} {i : Instr} {npc : Word} {s t : State} {m m' : Mach} (h : Retires k i npc s m t) (hc : ∀ j, m'.ctx j = m.ctx j)
    (hm : m' = { m with ctxs := m'.ctxs }) : Retires k i npc s m' t := by
  obtain ⟨h1, h2, h3, h4, h5, h6, h7, h8, h9⟩ := h
  refine ⟨by rw [hc]; exact h1, by rw [hc]; exact h2, fun j hj => by rw [hc]; exact h3 j hj, ?_, ?_, ?_, ?_, h8, h9⟩
  · rw [hm]; exact h4
  · intro j; rw [hm]; exact h5 j
  · rw [hm]; exact h6
  · intro l; rw [hm]; exact h7 l
/-- A bundle of one slot whose effect is a change of the machine alone. -/
theorem run_clean {s : State} (hs : Solo s) (k : Slot) (i : Instr) (f : State → State) (m : Mach)
    (hf : f (begun k s) = { begun k s with m := m }) (hpc : (m.ctx s.issue.cx).pc = (me s).pc) :
    ∃ t, runSlot k i f s = .next t ∧ Retires k i (nextPc s k) s m t := by
  obtain ⟨t, h1, h2⟩ := run_clean_bound hs k i f m hf hpc
  refine ⟨t, h1, retires_congr h2 ?_ rfl⟩
  intro j
  simp only [bound_nil]
  by_cases hj : s.issue.cx = j
  · subst hj; simp
  · simp [hj]


end Sys2Proof.Machine
end

