-- ==== Sys2Proof/Laws/Engine.lean ====
section
/-! SUPPORT. What a bundle of one engine slot does. -/
namespace Sys2Proof.Machine
open Sys2Proof.Safety

theorem mergeBinds_one (k : Slot) (l : List Binding) : mergeBinds [(k, l)] = l := by simp [mergeBinds]
/-- One slot alone binds nothing against another. -/
theorem bindClashes_one (k : Slot) (l : List Binding) : bindClashes [(k, l)] [] = [] := by
  have h : l.findSome? (fun _ => (none : Option (Binding × Binding))) = none := by
    rw [List.findSome?_eq_none_iff]; intros; rfl
  simp [bindClashes, h]
/-- Marking a domain's activity touches the launches alone (15 R303), and no context. -/
theorem touch_launches (m : Mach) (r : RootRef) : m.touch r = { m with launches := (m.touch r).launches } := by
  unfold Mach.touch
  split
  · split <;> rfl
  · rfl
theorem touch_setCtx (m : Mach) (r : RootRef) (k : Nat) (c : Ctx) : (m.setCtx k c).touch r = (m.touch r).setCtx k c := by
  unfold Mach.touch
  have e : (m.setCtx k c).root r.domain.toNat = m.root r.domain.toNat := rfl
  have d : (m.setCtx k c).deviceNo = m.deviceNo := rfl
  rw [e, d]
  split
  · split <;> rfl
  · rfl
theorem ctx_nextUid (m : Mach) (k : Nat) : m.nextUid.ctx k = m.ctx k := rfl
theorem core_nextUid (m : Mach) (k : Nat) : m.nextUid.core k = m.core k := rfl
@[simp] theorem preLaunch_begun (k : Slot) (s : State) : preLaunch (begun k s) = myLaunch s := rfl
@[simp] theorem pre_begun (k : Slot) (s : State) : pre (begun k s) = s.m := rfl

/-- The parts that a plan fixes of the operation it queues. -/
def specOf (o : EOp) (pl : Plan) (kd : Nat) (kws : List Nat) : OpSpec :=
  ⟨o.capA, o.capB, o.weight, o.types, o.exts, pl.draws, pl.td, pl.binds, pl.qw, kd, kws⟩
/-- An engine slot whose plan queues an operation. -/
theorem engine_queues {s : State} (hs : Solo s) (k : Slot) (q : QKind) (i : Instr) (word : BitVec 64) (regs : List RegRef) (mb : Bool)
    (plan : State → Except FaultRec Plan) (pl : Plan) (o : EOp) (kd : Nat) (kws : List Nat)
    (hr : ∀ r ∈ regs, Free s r) (ht : slotTokens q word = (kd, kws)) (hkd : (me s).token kd = 0)
    (hroom : s.m.queueRoom s.issue.cx q = true) (hp : plan (begun k s) = .ok pl) (ho : pl.op = some o)
    (hi : o.instr = i) (hst : o.started = false ∧ o.posted = false) :
    ∃ u, runSlot k i (engineIssue k q word regs mb plan) s = .next u ∧
      Queues k q i s (specOf o pl kd kws) u := by
  have hb := begun_issue hs k
  have hstall : (begun k s).issue.stall = none := by rw [hb]
  have hbinds : (begun k s).issue.binds = [] := by rw [hb]
  let c := me s
  let c1 := match pl.td with | some x => c.deliverWord x.1 x.2 | none => c
  let c2 := match pl.qw with | some w => { c1 with qw := w } | none => c1
  let c3 := { c2 with drawCtr := c2.drawCtr + BitVec.ofNat 32 pl.draws }
  let op := EOp.withUses { o with
    cx := s.issue.cx, q := q, word := word, pc := (me s).pc, kd := kd, waits := (me s).waitsOf kws, handlerOp := (me s).handler,
    key := if pl.draws = 0 then 0 else (me s).drawKey, c0 := if pl.draws = 0 then 0 else c2.drawCtr, banks := (me s).banks } (me s) c2
  let m0 : Mach := { s.m with launches := if pl.qw.isSome then (s.m.touch (me s).qwRoot).launches else s.m.launches }
  let m1 := m0.setCtx s.issue.cx c3
  let m2 := m1.enqueue op
  have hctx : ∀ (m : Mach) (f : Ctx → Ctx) (c : Ctx), (m.setCtx s.issue.cx c).modCtx s.issue.cx f = m.setCtx s.issue.cx (f c) := by
    intro m f c
    simp [Mach.modCtx, Mach.setCtx, Mach.ctx]
  have hf : engineIssue k q word regs mb plan (begun k s) = { begun k s with m := m2, issue := leaves (begun k s).issue [(k, pl.binds)] none none none } := by
    have hreads : reads regs (begun k s) = begun k s := reads_free _ _ hr
    have e1 : ∀ f : Ctx → Ctx, onCtx f (begun k s) = { begun k s with m := s.m.setCtx s.issue.cx (f c) } := by
      intro f
      simp only [onCtx, begun_m, begun_cx, Mach.modCtx]
      rfl
    have e2 : ∀ (m : Mach) (f : Ctx → Ctx) (d : Ctx),
        onCtx f { begun k s with m := m.setCtx s.issue.cx d } = { begun k s with m := m.setCtx s.issue.cx (f d) } := by
      intro m f d
      simp only [onCtx, begun_cx, hctx]
    have e3 : ∀ d : Ctx, moveWeight { begun k s with m := s.m.setCtx s.issue.cx d } =
        { begun k s with m := (s.m.touch (me s).qwRoot).setCtx s.issue.cx d } := by
      intro d
      show { begun k s with m := (s.m.setCtx s.issue.cx d).touch (me s).qwRoot } = _
      rw [touch_setCtx]
    have e4 := touch_launches s.m (me s).qwRoot
    unfold engineIssue
    simp only [ht, hreads, preCtx_begun]
    have hroom' : (pre (begun k s)).queueRoom s.issue.cx q = true := hroom
    simp only [begun_cx, hkd, hroom', hstall, bne_self_eq_false, Bool.false_eq_true, if_false, reduceCtorEq, Bool.not_true, Bool.false_and, Bool.true_or, hp, ho]
    have hc2 : ∀ (m : Mach) (d : Ctx), (m.setCtx s.issue.cx d).ctx s.issue.cx = d := fun m d => by simp
    have hm0 : pl.qw.isSome = true → m0 = s.m.touch (me s).qwRoot := by
      intro h
      rw [e4]
      simp only [m0, h, if_true]
    have hm0' : pl.qw.isSome = false → m0 = s.m := by intro h; simp [m0, h]
    cases hT : pl.td <;> cases hQ : pl.qw <;> simp only [m2, m1, op, c3, c2, c1, hT, hQ] <;>
      first
        | (rw [hm0' (by rw [hQ]; rfl)]; simp only [e1, e2, onMach, begun_cx, curCtx, hc2, hbinds, List.nil_append]; rw [hb]; rfl)
        | (rw [hm0 (by rw [hQ]; rfl)]; simp only [e1, e2, e3, onMach, begun_cx, curCtx, hc2, hbinds, List.nil_append]; rw [hb]; rfl)
  have hcore1 : ∀ j, m1.core j = s.m.core j := fun j => rfl
  have hm2 : m2 = ((m1.modCore (coreOf s.issue.cx) fun x => { x with
      ops := x.ops ++ [{ op with uid := s.m.uid, bankWait := bankWaits (s.m.core (coreOf s.issue.cx)).ops { op with uid := s.m.uid } }]
      waiters := x.waiters.filter (· != (q, s.issue.cx)) }).modCtx s.issue.cx fun c =>
        if kd = 0 then c else { c with tokens := mset c.tokens kd s.m.uid }).nextUid := rfl
  have hctx2 : m2.ctx s.issue.cx = (if kd = 0 then c3 else { c3 with tokens := mset c3.tokens kd s.m.uid }) := by
    rw [hm2]
    rw [ctx_nextUid]
    rw [ctx_modCtx_same, ctx_modCore]
    have : m1.ctx s.issue.cx = c3 := by simp [m1]
    rw [this]
  have hpc : (m2.ctx s.issue.cx).pc = (me s).pc := by
    rw [hctx2]
    have h1 : c1.pc = c.pc := by
      show (match pl.td with | some x => c.deliverWord x.1 x.2 | none => c).pc = c.pc
      split <;> rfl
    have h2 : c2.pc = c1.pc := by
      show (match pl.qw with | some w => { c1 with qw := w } | none => c1).pc = c1.pc
      split <;> rfl
    split
    · exact h2.trans h1
    · exact h2.trans h1
  obtain ⟨u, hu, R⟩ := run_retires hs k i (engineIssue k q word regs mb plan) [(k, pl.binds)] pl.binds none none none hf rfl
    (mergeBinds_one k pl.binds) (bindClashes_one k pl.binds) rfl hpc
  refine ⟨u, hu, ?_⟩
  have hI : (m2.modCtx s.issue.cx fun c => bound c pl.binds none none).ctx s.issue.cx =
      issued (me s) (specOf o pl kd kws) s.m.uid := by
    rw [ctx_modCtx_same, hctx2]
    have hq : c2 = { c1 with qw := pl.qw.getD c1.qw } := by
      show (match pl.qw with | some w => { c1 with qw := w } | none => c1) = _
      cases pl.qw <;> rfl
    unfold specOf issued bound
    simp only [Option.getD_none]
    have hc3 : c3 = { c1 with qw := pl.qw.getD c1.qw, drawCtr := c1.drawCtr + BitVec.ofNat 32 pl.draws } := by
      show ({ c2 with drawCtr := c2.drawCtr + BitVec.ofNat 32 pl.draws } : Ctx) = _
      rw [hq]
    rw [hc3]
    split <;> rfl
  have hIf : (issued (me s) (specOf o pl kd kws) s.m.uid).frozen = (me s).frozen ∧
      ∀ r, regOf (issued (me s) (specOf o pl kd kws) s.m.uid) r = regOf (me s) r := by
    unfold specOf issued Ctx.bindAll Ctx.deliverWord Ctx.setTile
    cases pl.td <;> exact ⟨rfl, fun r => by cases r <;> rfl⟩
  have hcore : m2.core (coreOf s.issue.cx) = { s.m.core (coreOf s.issue.cx) with
      ops := (s.m.core (coreOf s.issue.cx)).ops ++ [{ op with uid := s.m.uid, bankWait := bankWaits (s.m.core (coreOf s.issue.cx)).ops { op with uid := s.m.uid } }]
      waiters := (s.m.core (coreOf s.issue.cx)).waiters.filter (· != (q, s.issue.cx)) } := by
    rw [hm2]
    rw [core_nextUid]
    rw [core_modCtx, core_modCore_same, hcore1]
  have hcoreU := R.cores (coreOf s.issue.cx)
  rw [core_modCtx, hcore] at hcoreU
  let o' : EOp := { op with uid := s.m.uid, bankWait := bankWaits (s.m.core (coreOf s.issue.cx)).ops { op with uid := s.m.uid } }
  refine ⟨⟨o', ?_, rfl, ⟨rfl, rfl, hi, rfl, rfl⟩, ⟨rfl, rfl, rfl, rfl⟩, ⟨rfl, rfl⟩, ⟨rfl, rfl⟩, ?_, hst⟩, ?_, ?_, ?_, ?_, ?_, ?_, ?_, R.issue, R.agenda⟩
  · rw [hcoreU]
  · intro hd'
    have hd : pl.draws ≠ 0 := hd'
    have hk : (if pl.draws = 0 then (0 : BitVec 32) else (me s).drawKey) = (me s).drawKey := if_neg hd
    have hc : (if pl.draws = 0 then (0 : BitVec 32) else c2.drawCtr) = (me s).drawCtr := by
      rw [if_neg hd]
      show (match pl.qw with | some w => { c1 with qw := w } | none => c1).drawCtr = _
      have h1 : c1.drawCtr = c.drawCtr := by
        show (match pl.td with | some x => c.deliverWord x.1 x.2 | none => c).drawCtr = c.drawCtr
        split <;> rfl
      split <;> exact h1
    exact ⟨hk, hc⟩
  · rw [R.here, hI]; rfl
  · intro r hw
    rw [R.kept r (by rw [hI, hIf.1]; exact hw), hI, hIf.2]
  · intro j hj
    rw [R.others j hj]
    have hne : s.issue.cx ≠ j := Ne.symm hj
    rw [ctx_modCtx_ne _ _ hne, hm2]
    rw [ctx_nextUid]
    rw [ctx_modCtx_ne _ _ hne, ctx_modCore]
    simp only [m1]
    rw [ctx_setCtx_ne _ _ hne]
    rfl
  · rw [R.machine]; rfl
  · rw [hcoreU]
  · intro j hj
    have h1 := R.cores j
    have hne : coreOf s.issue.cx ≠ j := Ne.symm hj
    rw [core_modCtx] at h1
    have h2 : m2.core j = s.m.core j := by
      rw [hm2]
      rw [core_nextUid]
      rw [core_modCtx, core_modCore_ne _ _ hne, hcore1]
    rw [h2] at h1
    exact h1
  · intro l
    rw [R.memory]
    cases l <;> rfl

end Sys2Proof.Machine
end

