-- ==== Sys2Proof/Laws/Links.lean ====
section
/-! SUPPORT. What the updates of ports, flits and host answers leave: one lemma per update and field; how many
records a grant takes. -/
namespace Sys2Proof.Machine

@[simp] theorem ctx_putFlits (m : Mach) (p : PortId) (fs : List (List Byte)) (j : Nat) : (m.putFlits p fs).ctx j = m.ctx j := rfl
@[simp] theorem core_putFlits (m : Mach) (p : PortId) (fs : List (List Byte)) (k : Nat) : (m.putFlits p fs).core k = m.core k := rfl
@[simp] theorem die_putFlits (m : Mach) (p : PortId) (fs : List (List Byte)) (d : Nat) : (m.putFlits p fs).die d = m.die d := rfl
@[simp] theorem launches_putFlits (m : Mach) (p : PortId) (fs : List (List Byte)) : (m.putFlits p fs).launches = m.launches := rfl
@[simp] theorem outbox_putFlits (m : Mach) (p : PortId) (fs : List (List Byte)) : (m.putFlits p fs).outbox = m.outbox := rfl
@[simp] theorem wire_putFlits (m : Mach) (p : PortId) (fs : List (List Byte)) : (m.putFlits p fs).wire = m.wire := rfl
@[simp] theorem read_putFlits (m : Mach) (p : PortId) (fs : List (List Byte)) (l : Loc) : (m.putFlits p fs).read l = m.read l := by cases l <;> rfl
@[simp] theorem port_putFlits (m : Mach) (p : PortId) (fs : List (List Byte)) (q : PortId) : (m.putFlits p fs).port q = m.port q := rfl
@[simp] theorem mgmtAt_putFlits (m : Mach) (p : PortId) (fs : List (List Byte)) (a : Nat) : (m.putFlits p fs).mgmtAt a = m.mgmtAt a := rfl
@[simp] theorem ctx_latchNumber (m : Mach) (j : Nat) : m.latchNumber.ctx j = m.ctx j := rfl
@[simp] theorem core_latchNumber (m : Mach) (k : Nat) : m.latchNumber.core k = m.core k := rfl
@[simp] theorem die_latchNumber (m : Mach) (d : Nat) : m.latchNumber.die d = m.die d := rfl
@[simp] theorem launches_latchNumber (m : Mach)  : m.latchNumber.launches = m.launches := rfl
@[simp] theorem outbox_latchNumber (m : Mach)  : m.latchNumber.outbox = m.outbox := rfl
@[simp] theorem wire_latchNumber (m : Mach)  : m.latchNumber.wire = m.wire := rfl
@[simp] theorem read_latchNumber (m : Mach) (l : Loc) : m.latchNumber.read l = m.read l := by cases l <;> rfl
@[simp] theorem port_latchNumber (m : Mach) (q : PortId) : m.latchNumber.port q = m.port q := rfl
@[simp] theorem ctx_setPort (m : Mach) (p : PortId) (x : Port) (j : Nat) : (m.setPort p x).ctx j = m.ctx j := rfl
@[simp] theorem core_setPort (m : Mach) (p : PortId) (x : Port) (k : Nat) : (m.setPort p x).core k = m.core k := rfl
@[simp] theorem die_setPort (m : Mach) (p : PortId) (x : Port) (d : Nat) : (m.setPort p x).die d = m.die d := rfl
@[simp] theorem launches_setPort (m : Mach) (p : PortId) (x : Port) : (m.setPort p x).launches = m.launches := rfl
@[simp] theorem outbox_setPort (m : Mach) (p : PortId) (x : Port) : (m.setPort p x).outbox = m.outbox := rfl
@[simp] theorem wire_setPort (m : Mach) (p : PortId) (x : Port) : (m.setPort p x).wire = m.wire := rfl
@[simp] theorem read_setPort (m : Mach) (p : PortId) (x : Port) (l : Loc) : (m.setPort p x).read l = m.read l := by cases l <;> rfl
@[simp] theorem mgmtAt_setPort (m : Mach) (p : PortId) (x : Port) (a : Nat) : (m.setPort p x).mgmtAt a = m.mgmtAt a := rfl
@[simp] theorem ctx_lose (m : Mach) (n : Nat) (j : Nat) : (m.lose n).ctx j = m.ctx j := rfl
@[simp] theorem core_lose (m : Mach) (n : Nat) (k : Nat) : (m.lose n).core k = m.core k := rfl
@[simp] theorem die_lose (m : Mach) (n : Nat) (d : Nat) : (m.lose n).die d = m.die d := rfl
@[simp] theorem launches_lose (m : Mach) (n : Nat) : (m.lose n).launches = m.launches := rfl
@[simp] theorem outbox_lose (m : Mach) (n : Nat) : (m.lose n).outbox = m.outbox := rfl
@[simp] theorem wire_lose (m : Mach) (n : Nat) : (m.lose n).wire = m.wire := rfl
@[simp] theorem read_lose (m : Mach) (n : Nat) (l : Loc) : (m.lose n).read l = m.read l := by cases l <;> rfl
@[simp] theorem port_lose (m : Mach) (n : Nat) (q : PortId) : (m.lose n).port q = m.port q := rfl
@[simp] theorem mgmtAt_lose (m : Mach) (n : Nat) (a : Nat) : (m.lose n).mgmtAt a = m.mgmtAt a := rfl
@[simp] theorem ctx_complete (m : Mach) (tag status : Nat) (data : List Byte) (j : Nat) : (m.complete tag status data).ctx j = m.ctx j := rfl
@[simp] theorem core_complete (m : Mach) (tag status : Nat) (data : List Byte) (k : Nat) : (m.complete tag status data).core k = m.core k := rfl
@[simp] theorem die_complete (m : Mach) (tag status : Nat) (data : List Byte) (d : Nat) : (m.complete tag status data).die d = m.die d := rfl
@[simp] theorem launches_complete (m : Mach) (tag status : Nat) (data : List Byte) : (m.complete tag status data).launches = m.launches := rfl
@[simp] theorem outbox_complete (m : Mach) (tag status : Nat) (data : List Byte) : (m.complete tag status data).outbox = m.outbox := rfl
@[simp] theorem wire_complete (m : Mach) (tag status : Nat) (data : List Byte) : (m.complete tag status data).wire = m.wire := rfl
@[simp] theorem read_complete (m : Mach) (tag status : Nat) (data : List Byte) (l : Loc) : (m.complete tag status data).read l = m.read l := by cases l <;> rfl
@[simp] theorem port_complete (m : Mach) (tag status : Nat) (data : List Byte) (q : PortId) : (m.complete tag status data).port q = m.port q := rfl
@[simp] theorem mgmtAt_complete (m : Mach) (tag status : Nat) (data : List Byte) (a : Nat) : (m.complete tag status data).mgmtAt a = m.mgmtAt a := rfl
@[simp] theorem port_setPort_same (m : Mach) (p : PortId) (x : Port) : (m.setPort p x).port p = x := by simp [Mach.port, Mach.setPort]
@[simp] theorem port_setPort_ne (m : Mach) {p q : PortId} (x : Port) (h : portKey p ≠ portKey q) : (m.setPort p x).port q = m.port q := by
  simp [Mach.port, Mach.setPort, h]
/-- What goes out by a port is listed after what has gone out before. -/
@[simp] theorem lines_putFlits (m : Mach) (p : PortId) (fs : List (List Byte)) : (m.putFlits p fs).lines = m.lines ++ fs.map (Prod.mk (portKey p)) := rfl
@[simp] theorem hostAnswers_complete (m : Mach) (tag status : Nat) (data : List Byte) :
    (m.complete tag status data).hostAnswers = m.hostAnswers ++ [⟨tag, status, data⟩] := rfl

/-- A grant takes at most the records asked for (05 R97). -/
theorem takeRecords_length (tag : BitVec 32) (n : Nat) (m : Mach) : (takeRecords tag n m).2.length ≤ n := by
  induction n generalizing m with
  | zero => simp [takeRecords]
  | succ n ih => unfold takeRecords; split <;> simp [ih]

end Sys2Proof.Machine
end

