-- ==== Sys2Proof/Laws/Memory.lean ====
section
/-! SUPPORT. Memory operations of the machine: read after write, and the canonical form that each of them keeps. -/
namespace Sys2Proof.Machine

theorem above_filter (p : Host.Cell → Bool) (lo : Option Nat) (m : List Host.Cell) (h : Memory.above lo m = true) :
    Memory.above lo (m.filter p) = true := by
  induction m generalizing lo with
  | nil => simpa using h
  | cons x t ih =>
    obtain ⟨j, v⟩ := x
    simp only [Memory.above, Bool.and_eq_true] at h
    simp only [List.filter_cons]
    split
    · simp only [Memory.above, Bool.and_eq_true]
      exact ⟨h.1, ih _ h.2⟩
    · refine ih _ (above_weaken (some j) lo t ?_ h.2)
      intro l' hl
      subst hl
      exact ⟨j, rfl, Nat.le_of_lt (by simpa using h.1.1)⟩
theorem wf_filter (p : Host.Cell → Bool) (m : List Host.Cell) (h : Memory.wf m = true) : Memory.wf (m.filter p) = true := above_filter p _ m h

/-- Reading one byte after writing one. -/
theorem read_write (m : Mach) (l k : Loc) (b : Byte) : (m.write l b).read k = if l = k then b else m.read k := by
  cases l <;> cases k <;> simp [Mach.write, Mach.read, cget_cput]
/-- A run of writes leaves every byte that it does not name. -/
theorem read_writeLocs (m : Mach) (ls : List Loc) (bs : List Byte) (k : Loc) (h : k ∉ ls) : (m.writeLocs ls bs).read k = m.read k := by
  have aux : ∀ (xs : List (Loc × Byte)) (m : Mach), (∀ x ∈ xs, x.1 ≠ k) →
      (xs.foldl (fun m x => m.write x.1 x.2) m).read k = m.read k := by
    intro xs
    induction xs with
    | nil => intro m _; rfl
    | cons x t ih =>
      intro m hx
      rw [List.foldl_cons, ih _ fun y hy => hx y (List.mem_cons_of_mem _ hy), read_write, if_neg (hx x List.mem_cons_self)]
  exact aux _ m fun x hx e => h (e ▸ (List.of_mem_zip hx).1)

end Sys2Proof.Machine

namespace Sys2Proof.Safety
open Sys2Proof.Machine

/-- The canonical form depends on the four byte memories alone. -/
theorem MemoryWf.of_eq {m n : Mach} (h : MemoryWf m) (h1 : n.mem = m.mem) (h2 : n.hostMem = m.hostMem) (h3 : n.scratch = m.scratch)
    (h4 : n.msix = m.msix) : MemoryWf n := by
  simpa only [MemoryWf, h1, h2, h3, h4] using h
theorem MemoryWf.write {m : Mach} (h : MemoryWf m) (l : Loc) (b : Byte) : MemoryWf (m.write l b) := by
  obtain ⟨h1, h2, h3, h4⟩ := h
  cases l
  · exact ⟨wf_cput _ _ _ h1, h2, h3, h4⟩
  · exact ⟨h1, wf_cput _ _ _ h2, h3, h4⟩
  · exact ⟨h1, h2, wf_cput _ _ _ h3, h4⟩
/-- What a fold keeps when each of its steps does. -/
theorem foldl_keeps {α β : Type} (P : β → Prop) (f : β → α → β) (hf : ∀ b a, P b → P (f b a)) (l : List α) (b : β) (h : P b) : P (l.foldl f b) := by
  induction l generalizing b with
  | nil => exact h
  | cons a l ih => exact ih _ (hf b a h)
theorem MemoryWf.writeLocs {m : Mach} (h : MemoryWf m) (ls : List Loc) (bs : List Byte) : MemoryWf (m.writeLocs ls bs) :=
  foldl_keeps MemoryWf _ (fun _ x hm => hm.write x.1 x.2) _ _ h
theorem MemoryWf.devWrite {m : Mach} (h : MemoryWf m) (va : Nat) (bs : List Byte) : MemoryWf (m.devWrite va bs) :=
  foldl_keeps MemoryWf _ (fun m x hm => by
    show MemoryWf (match m.sysLoc x.1 with | some l => m.write l x.2 | none => m)
    cases m.sysLoc x.1 with
    | none => exact hm
    | some l => exact hm.write l x.2) _ _ h
theorem MemoryWf.devPut {m : Mach} (h : MemoryWf m) (va n v : Nat) : MemoryWf (m.devPut va n v) := h.devWrite _ _
theorem MemoryWf.logDev {m : Mach} (h : MemoryWf m) (die : Nat) (f : Option (Nat × Nat × Nat)) : MemoryWf (m.logDev die f) := by
  cases f <;> exact h
theorem MemoryWf.devStore {m : Mach} (h : MemoryWf m) (die va : Nat) (bs : List Byte) : MemoryWf (m.devStore die va bs) :=
  (h.logDev _ _).devWrite _ _
theorem MemoryWf.qPut {m : Mach} (h : MemoryWf m) (q off n v : Nat) : MemoryWf (m.qPut q off n v) := h.devStore _ _ _
theorem MemoryWf.qChange {m : Mach} (h : MemoryWf m) (q : Nat) (f : Mach → Mach) (hf : MemoryWf (f m)) : MemoryWf (m.qChange q f) := by
  unfold Mach.qChange
  split
  · exact h.logDev _ _
  · exact hf
theorem MemoryWf.qSetFlag {m : Mach} (h : MemoryWf m) (q bit : Nat) (v : Bool) : MemoryWf (m.qSetFlag q bit v) :=
  h.qChange _ _ (h.qPut _ _ _ _)
theorem MemoryWf.qFail {m : Mach} (h : MemoryWf m) (q i : Nat) : MemoryWf (m.qFail q i) := by
  refine h.qChange _ _ ?_
  split
  · exact (h.qPut _ _ _ _).qSetFlag _ _ _
  · exact h.qSetFlag _ _ _
theorem MemoryWf.setBarrier {m : Mach} (h : MemoryWf m) (key : Nat) (o : BarObj) : MemoryWf (m.setBarrier key o) :=
  ⟨h.1, h.2.1, wf_cputN _ _ _ h.2.2.1, h.2.2.2⟩
theorem MemoryWf.zeroRegion {m : Mach} (h : MemoryWf m) (k base size : Nat) : MemoryWf (Machine.zeroRegion m k base size) :=
  ⟨h.1, h.2.1, wf_filter _ _ h.2.2.1, h.2.2.2⟩
/-- Logging, completions and interrupts touch no byte memory but the pending bits of MSI-X. -/
theorem MemoryWf.complete {m : Mach} (h : MemoryWf m) (tag st : Nat) (d : List Byte) : MemoryWf (m.complete tag st d) := h.of_eq rfl rfl rfl rfl
theorem MemoryWf.unsupported {m : Mach} (h : MemoryWf m) (off : Nat) : MemoryWf (Machine.unsupported m off) := h.of_eq rfl rfl rfl rfl
theorem MemoryWf.setPending {m : Mach} (h : MemoryWf m) (v : Nat) (on : Bool) : MemoryWf (Machine.setPending m v on) :=
  ⟨h.1, h.2.1, h.2.2.1, wf_cput _ _ _ h.2.2.2⟩
theorem MemoryWf.raiseVector {m : Mach} (h : MemoryWf m) (v : Nat) : MemoryWf (Machine.raiseVector m v) := by
  unfold Machine.raiseVector
  split
  · exact h.setPending v true
  · exact h
theorem MemoryWf.msixWrite {m : Mach} (h : MemoryWf m) (off : Nat) (bs : List Byte) : MemoryWf (Machine.msixWrite m off bs) := by
  refine foldl_keeps MemoryWf _ (fun m v hm => (hm.setPending v false).raiseVector v) _ _ (foldl_keeps MemoryWf _ ?_ _ _ h)
  intro m x hm
  split
  · exact hm
  · exact ⟨hm.1, hm.2.1, hm.2.2.1, wf_cput _ _ _ hm.2.2.2⟩
theorem MemoryWf.bar4 {m : Mach} (h : MemoryWf m) (write : Bool) (off size : Nat) (v : Word) : MemoryWf (Machine.bar4 m write off size v) := by
  unfold Machine.bar4
  split
  · exact h
  · split
    · exact h.unsupported off
    · split
      · exact (h.msixWrite off _).complete _ _ _
      · exact h.complete _ _ _
theorem MemoryWf.placeCode {m : Mach} (h : MemoryWf m) (code : List Byte) : MemoryWf (m.placeCode code) :=
  ⟨wf_cputN _ _ _ (wf_cputN _ _ _ (wf_cputN _ _ _ (wf_cputN _ _ _ h.1))), h.2⟩
theorem MemoryWf.deviceReset {m : Mach} (h : MemoryWf m) (b : Bool) (g : BitVec 4) : MemoryWf (Machine.deviceReset m b g) :=
  ⟨h.1, h.2.1, rfl, rfl⟩
theorem memoryWf_reset : MemoryWf State.reset.m := ⟨rfl, rfl, rfl, rfl⟩

end Sys2Proof.Safety
end

