-- ==== Sys2Proof/Laws/PerInstr.lean ====
section
/-! SUPPORT. A law of every instruction: an X slot word fits its 32 bits (06 R98, R110), so the bundle's bytes hold all of it. -/

theorem Sys2Proof.Laws.x_word_fits {i : Sys2Proof.Instr} {v : BitVec 32}
    (h : Sys2Proof.encode i = some (.x, v.setWidth 64)) (k : Sys2Proof.Slot) (w : BitVec 64)
    (e : Sys2Proof.encode i = some (k, w)) (_ : k = .x) : w.toNat < 2 ^ 32 := by
  cases (Option.some.inj (h.symm.trans e))
  simp only [BitVec.toNat_setWidth]
  exact Nat.lt_of_le_of_lt (Nat.mod_le _ _) v.isLt
theorem Sys2Proof.Laws.other_slot {i : Sys2Proof.Instr} {j : Sys2Proof.Slot} {v : BitVec 64}
    (h : Sys2Proof.encode i = some (j, v)) (hj : j ≠ .x) (k : Sys2Proof.Slot) (w : BitVec 64)
    (e : Sys2Proof.encode i = some (k, w)) (hk : k = .x) : w.toNat < 2 ^ 32 := by
  cases (Option.some.inj (h.symm.trans e)); exact absurd hk hj
theorem Sys2Proof.Laws.no_word {i : Sys2Proof.Instr} (h : Sys2Proof.encode i = none) (k : Sys2Proof.Slot) (w : BitVec 64)
    (e : Sys2Proof.encode i = some (k, w)) (_ : k = .x) : w.toNat < 2 ^ 32 := by
  rw [h] at e; cases e
theorem Sys2Proof.Laws.pipe_not_x (p : Sys2Proof.Pipe) : p.slot ≠ .x := by cases p <;> decide

/-- The X slot word of an instruction fits the slot's 32 bits. -/
def Sys2Proof.Laws.Fields.Statement (i : Sys2Proof.Instr) : Prop :=
  ∀ k w, Sys2Proof.encode i = some (k, w) → k = .x → w.toNat < 2 ^ 32

open Sys2Proof
theorem Sys2Proof.Laws.Fields.nop : Laws.Fields.Statement .nop := Laws.x_word_fits rfl
theorem Sys2Proof.Laws.Fields.add (sd sa sb : SReg) : Laws.Fields.Statement (.add sd sa sb) := Laws.x_word_fits rfl
theorem Sys2Proof.Laws.Fields.sub (sd sa sb : SReg) : Laws.Fields.Statement (.sub sd sa sb) := Laws.x_word_fits rfl
theorem Sys2Proof.Laws.Fields.and (sd sa sb : SReg) : Laws.Fields.Statement (.and sd sa sb) := Laws.x_word_fits rfl
theorem Sys2Proof.Laws.Fields.or (sd sa sb : SReg) : Laws.Fields.Statement (.or sd sa sb) := Laws.x_word_fits rfl
theorem Sys2Proof.Laws.Fields.xor (sd sa sb : SReg) : Laws.Fields.Statement (.xor sd sa sb) := Laws.x_word_fits rfl
theorem Sys2Proof.Laws.Fields.shl (sd sa sb : SReg) : Laws.Fields.Statement (.shl sd sa sb) := Laws.x_word_fits rfl
theorem Sys2Proof.Laws.Fields.shr (sd sa sb : SReg) : Laws.Fields.Statement (.shr sd sa sb) := Laws.x_word_fits rfl
theorem Sys2Proof.Laws.Fields.sra (sd sa sb : SReg) : Laws.Fields.Statement (.sra sd sa sb) := Laws.x_word_fits rfl
theorem Sys2Proof.Laws.Fields.mul (sd sa sb : SReg) : Laws.Fields.Statement (.mul sd sa sb) := Laws.x_word_fits rfl
theorem Sys2Proof.Laws.Fields.mulh (sd sa sb : SReg) : Laws.Fields.Statement (.mulh sd sa sb) := Laws.x_word_fits rfl
theorem Sys2Proof.Laws.Fields.mulhu (sd sa sb : SReg) : Laws.Fields.Statement (.mulhu sd sa sb) := Laws.x_word_fits rfl
theorem Sys2Proof.Laws.Fields.div (sd sa sb : SReg) : Laws.Fields.Statement (.div sd sa sb) := Laws.x_word_fits rfl
theorem Sys2Proof.Laws.Fields.divu (sd sa sb : SReg) : Laws.Fields.Statement (.divu sd sa sb) := Laws.x_word_fits rfl
theorem Sys2Proof.Laws.Fields.rem (sd sa sb : SReg) : Laws.Fields.Statement (.rem sd sa sb) := Laws.x_word_fits rfl
theorem Sys2Proof.Laws.Fields.remu (sd sa sb : SReg) : Laws.Fields.Statement (.remu sd sa sb) := Laws.x_word_fits rfl
theorem Sys2Proof.Laws.Fields.min (sd sa sb : SReg) : Laws.Fields.Statement (.min sd sa sb) := Laws.x_word_fits rfl
theorem Sys2Proof.Laws.Fields.max (sd sa sb : SReg) : Laws.Fields.Statement (.max sd sa sb) := Laws.x_word_fits rfl
theorem Sys2Proof.Laws.Fields.minu (sd sa sb : SReg) : Laws.Fields.Statement (.minu sd sa sb) := Laws.x_word_fits rfl
theorem Sys2Proof.Laws.Fields.maxu (sd sa sb : SReg) : Laws.Fields.Statement (.maxu sd sa sb) := Laws.x_word_fits rfl
theorem Sys2Proof.Laws.Fields.clz (sd sa : SReg) : Laws.Fields.Statement (.clz sd sa) := Laws.x_word_fits rfl
theorem Sys2Proof.Laws.Fields.ctz (sd sa : SReg) : Laws.Fields.Statement (.ctz sd sa) := Laws.x_word_fits rfl
theorem Sys2Proof.Laws.Fields.popc (sd sa : SReg) : Laws.Fields.Statement (.popc sd sa) := Laws.x_word_fits rfl
theorem Sys2Proof.Laws.Fields.sel (sd : SReg) (p : PReg) (sa sb : SReg) : Laws.Fields.Statement (.sel sd p sa sb) := Laws.x_word_fits rfl
theorem Sys2Proof.Laws.Fields.addi (sd sa : SReg) (imm : BitVec 12) : Laws.Fields.Statement (.addi sd sa imm) := Laws.x_word_fits rfl
theorem Sys2Proof.Laws.Fields.andi (sd sa : SReg) (imm : BitVec 12) : Laws.Fields.Statement (.andi sd sa imm) := Laws.x_word_fits rfl
theorem Sys2Proof.Laws.Fields.ori (sd sa : SReg) (imm : BitVec 12) : Laws.Fields.Statement (.ori sd sa imm) := Laws.x_word_fits rfl
theorem Sys2Proof.Laws.Fields.xori (sd sa : SReg) (imm : BitVec 12) : Laws.Fields.Statement (.xori sd sa imm) := Laws.x_word_fits rfl
theorem Sys2Proof.Laws.Fields.shli (sd sa : SReg) (imm : BitVec 12) : Laws.Fields.Statement (.shli sd sa imm) := Laws.x_word_fits rfl
theorem Sys2Proof.Laws.Fields.shri (sd sa : SReg) (imm : BitVec 12) : Laws.Fields.Statement (.shri sd sa imm) := Laws.x_word_fits rfl
theorem Sys2Proof.Laws.Fields.srai (sd sa : SReg) (imm : BitVec 12) : Laws.Fields.Statement (.srai sd sa imm) := Laws.x_word_fits rfl
theorem Sys2Proof.Laws.Fields.muli (sd sa : SReg) (imm : BitVec 12) : Laws.Fields.Statement (.muli sd sa imm) := Laws.x_word_fits rfl
theorem Sys2Proof.Laws.Fields.li (sd : SReg) (imm : BitVec 18) : Laws.Fields.Statement (.li sd imm) := Laws.x_word_fits rfl
theorem Sys2Proof.Laws.Fields.lih (sd : SReg) (imm : BitVec 18) : Laws.Fields.Statement (.lih sd imm) := Laws.x_word_fits rfl
theorem Sys2Proof.Laws.Fields.cmpeq (pd : PReg) (sa sb : SReg) : Laws.Fields.Statement (.cmpeq pd sa sb) := Laws.x_word_fits rfl
theorem Sys2Proof.Laws.Fields.cmpne (pd : PReg) (sa sb : SReg) : Laws.Fields.Statement (.cmpne pd sa sb) := Laws.x_word_fits rfl
theorem Sys2Proof.Laws.Fields.cmplt (pd : PReg) (sa sb : SReg) : Laws.Fields.Statement (.cmplt pd sa sb) := Laws.x_word_fits rfl
theorem Sys2Proof.Laws.Fields.cmpltu (pd : PReg) (sa sb : SReg) : Laws.Fields.Statement (.cmpltu pd sa sb) := Laws.x_word_fits rfl
theorem Sys2Proof.Laws.Fields.cmple (pd : PReg) (sa sb : SReg) : Laws.Fields.Statement (.cmple pd sa sb) := Laws.x_word_fits rfl
theorem Sys2Proof.Laws.Fields.cmpleu (pd : PReg) (sa sb : SReg) : Laws.Fields.Statement (.cmpleu pd sa sb) := Laws.x_word_fits rfl
theorem Sys2Proof.Laws.Fields.cmpeqi (pd : PReg) (sa : SReg) (imm : BitVec 12) : Laws.Fields.Statement (.cmpeqi pd sa imm) := Laws.x_word_fits rfl
theorem Sys2Proof.Laws.Fields.cmplti (pd : PReg) (sa : SReg) (imm : BitVec 12) : Laws.Fields.Statement (.cmplti pd sa imm) := Laws.x_word_fits rfl
theorem Sys2Proof.Laws.Fields.pand (pd pa pb : PReg) : Laws.Fields.Statement (.pand pd pa pb) := Laws.x_word_fits rfl
theorem Sys2Proof.Laws.Fields.por (pd pa pb : PReg) : Laws.Fields.Statement (.por pd pa pb) := Laws.x_word_fits rfl
theorem Sys2Proof.Laws.Fields.pxor (pd pa pb : PReg) : Laws.Fields.Statement (.pxor pd pa pb) := Laws.x_word_fits rfl
theorem Sys2Proof.Laws.Fields.pnot (pd pa : PReg) : Laws.Fields.Statement (.pnot pd pa) := Laws.x_word_fits rfl
theorem Sys2Proof.Laws.Fields.pmov (pd pa : PReg) : Laws.Fields.Statement (.pmov pd pa) := Laws.x_word_fits rfl
theorem Sys2Proof.Laws.Fields.lea (sd sa sb : SReg) (n : BitVec 3) : Laws.Fields.Statement (.lea sd sa sb n) := Laws.x_word_fits rfl
theorem Sys2Proof.Laws.Fields.fadd (sd sa sb : SReg) : Laws.Fields.Statement (.fadd sd sa sb) := Laws.x_word_fits rfl
theorem Sys2Proof.Laws.Fields.fsub (sd sa sb : SReg) : Laws.Fields.Statement (.fsub sd sa sb) := Laws.x_word_fits rfl
theorem Sys2Proof.Laws.Fields.fmul (sd sa sb : SReg) : Laws.Fields.Statement (.fmul sd sa sb) := Laws.x_word_fits rfl
theorem Sys2Proof.Laws.Fields.fdiv (sd sa sb : SReg) : Laws.Fields.Statement (.fdiv sd sa sb) := Laws.x_word_fits rfl
theorem Sys2Proof.Laws.Fields.fmin (sd sa sb : SReg) : Laws.Fields.Statement (.fmin sd sa sb) := Laws.x_word_fits rfl
theorem Sys2Proof.Laws.Fields.fmax (sd sa sb : SReg) : Laws.Fields.Statement (.fmax sd sa sb) := Laws.x_word_fits rfl
theorem Sys2Proof.Laws.Fields.fcmplt (pd : PReg) (sa sb : SReg) : Laws.Fields.Statement (.fcmplt pd sa sb) := Laws.x_word_fits rfl
theorem Sys2Proof.Laws.Fields.fcmpeq (pd : PReg) (sa sb : SReg) : Laws.Fields.Statement (.fcmpeq pd sa sb) := Laws.x_word_fits rfl
theorem Sys2Proof.Laws.Fields.ftoi (sd sa : SReg) : Laws.Fields.Statement (.ftoi sd sa) := Laws.x_word_fits rfl
theorem Sys2Proof.Laws.Fields.itof (sd sa : SReg) : Laws.Fields.Statement (.itof sd sa) := Laws.x_word_fits rfl
theorem Sys2Proof.Laws.Fields.fexp2 (sd sa : SReg) : Laws.Fields.Statement (.fexp2 sd sa) := Laws.x_word_fits rfl
theorem Sys2Proof.Laws.Fields.flog2 (sd sa : SReg) : Laws.Fields.Statement (.flog2 sd sa) := Laws.x_word_fits rfl
theorem Sys2Proof.Laws.Fields.br (disp : BitVec 20) : Laws.Fields.Statement (.br disp) := Laws.x_word_fits rfl
theorem Sys2Proof.Laws.Fields.brc (p : PReg) (sense : Bool) (disp : BitVec 20) : Laws.Fields.Statement (.brc p sense disp) := Laws.x_word_fits rfl
theorem Sys2Proof.Laws.Fields.bdnz (sd : SReg) (imm : BitVec 12) : Laws.Fields.Statement (.bdnz sd imm) := Laws.x_word_fits rfl
theorem Sys2Proof.Laws.Fields.call (disp : BitVec 20) : Laws.Fields.Statement (.call disp) := Laws.x_word_fits rfl
theorem Sys2Proof.Laws.Fields.ret (sa : SReg) : Laws.Fields.Statement (.ret sa) := Laws.x_word_fits rfl
theorem Sys2Proof.Laws.Fields.jmpr (sd sa : SReg) : Laws.Fields.Statement (.jmpr sd sa) := Laws.x_word_fits rfl
theorem Sys2Proof.Laws.Fields.endTask : Laws.Fields.Statement .endTask := Laws.x_word_fits rfl
theorem Sys2Proof.Laws.Fields.trap (imm : BitVec 18) : Laws.Fields.Statement (.trap imm) := Laws.x_word_fits rfl
theorem Sys2Proof.Laws.Fields.bkpt (imm : BitVec 18) : Laws.Fields.Statement (.bkpt imm) := Laws.x_word_fits rfl
theorem Sys2Proof.Laws.Fields.waitk (ka kb kc : Tok) : Laws.Fields.Statement (.waitk ka kb kc) := Laws.x_word_fits rfl
theorem Sys2Proof.Laws.Fields.idleF (sa : SReg) : Laws.Fields.Statement (.idleF sa) := Laws.x_word_fits rfl
theorem Sys2Proof.Laws.Fields.idleN (sa sb : SReg) : Laws.Fields.Statement (.idleN sa sb) := Laws.x_word_fits rfl
theorem Sys2Proof.Laws.Fields.sysr (sd : SReg) (sel : BitVec 18) : Laws.Fields.Statement (.sysr sd sel) := Laws.x_word_fits rfl
theorem Sys2Proof.Laws.Fields.sysw (sd : SReg) (sel : BitVec 18) : Laws.Fields.Statement (.sysw sd sel) := Laws.x_word_fits rfl
theorem Sys2Proof.Laws.Fields.tret : Laws.Fields.Statement .tret := Laws.x_word_fits rfl
theorem Sys2Proof.Laws.Fields.tretSkip : Laws.Fields.Statement .tretSkip := Laws.x_word_fits rfl
theorem Sys2Proof.Laws.Fields.ctxr (sd sa : SReg) : Laws.Fields.Statement (.ctxr sd sa) := Laws.x_word_fits rfl
theorem Sys2Proof.Laws.Fields.ctxw (sa sb : SReg) : Laws.Fields.Statement (.ctxw sa sb) := Laws.x_word_fits rfl
theorem Sys2Proof.Laws.Fields.eqreplay (sd sa : SReg) : Laws.Fields.Statement (.eqreplay sd sa) := Laws.x_word_fits rfl
theorem Sys2Proof.Laws.Fields.tdecl (t : TReg) (idx : BitVec 18) : Laws.Fields.Statement (.tdecl t idx) := Laws.x_word_fits rfl
theorem Sys2Proof.Laws.Fields.tdecls (t : TReg) (sa sb : SReg) : Laws.Fields.Statement (.tdecls t sa sb) := Laws.x_word_fits rfl
theorem Sys2Proof.Laws.Fields.tget (sd : SReg) (t : TReg) (high resolve : Bool) : Laws.Fields.Statement (.tget sd t high resolve) := Laws.x_word_fits rfl
theorem Sys2Proof.Laws.Fields.bind (b : BReg) (sa : SReg) : Laws.Fields.Statement (.bind b sa) := Laws.x_word_fits rfl
theorem Sys2Proof.Laws.Fields.unbind (mask : BitVec 16) : Laws.Fields.Statement (.unbind mask) := Laws.x_word_fits rfl
theorem Sys2Proof.Laws.Fields.bget (sd : SReg) (b : BReg) : Laws.Fields.Statement (.bget sd b) := Laws.x_word_fits rfl
theorem Sys2Proof.Laws.Fields.tchk (pd : PReg) (t : TReg) (sb : SReg) (mask : BitVec 4) (assert : Bool) : Laws.Fields.Statement (.tchk pd t sb mask assert) := Laws.x_word_fits rfl
theorem Sys2Proof.Laws.Fields.tclear (t : TReg) : Laws.Fields.Statement (.tclear t) := Laws.x_word_fits rfl
theorem Sys2Proof.Laws.Fields.text (sd : SReg) (t : TReg) (k : BitVec 2) (frame : Bool) : Laws.Fields.Statement (.text sd t k frame) := Laws.x_word_fits rfl
theorem Sys2Proof.Laws.Fields.gNop : Laws.Fields.Statement .gNop := Laws.other_slot rfl (by decide)
theorem Sys2Proof.Laws.Fields.ld8 (g : GSlot) : Laws.Fields.Statement (.ld8 g) := Laws.other_slot rfl (by decide)
theorem Sys2Proof.Laws.Fields.ld8u (g : GSlot) : Laws.Fields.Statement (.ld8u g) := Laws.other_slot rfl (by decide)
theorem Sys2Proof.Laws.Fields.ld16 (g : GSlot) : Laws.Fields.Statement (.ld16 g) := Laws.other_slot rfl (by decide)
theorem Sys2Proof.Laws.Fields.ld16u (g : GSlot) : Laws.Fields.Statement (.ld16u g) := Laws.other_slot rfl (by decide)
theorem Sys2Proof.Laws.Fields.ld32 (g : GSlot) : Laws.Fields.Statement (.ld32 g) := Laws.other_slot rfl (by decide)
theorem Sys2Proof.Laws.Fields.ld32u (g : GSlot) : Laws.Fields.Statement (.ld32u g) := Laws.other_slot rfl (by decide)
theorem Sys2Proof.Laws.Fields.ld64 (g : GSlot) : Laws.Fields.Statement (.ld64 g) := Laws.other_slot rfl (by decide)
theorem Sys2Proof.Laws.Fields.st8 (g : GSlot) : Laws.Fields.Statement (.st8 g) := Laws.other_slot rfl (by decide)
theorem Sys2Proof.Laws.Fields.st16 (g : GSlot) : Laws.Fields.Statement (.st16 g) := Laws.other_slot rfl (by decide)
theorem Sys2Proof.Laws.Fields.st32 (g : GSlot) : Laws.Fields.Statement (.st32 g) := Laws.other_slot rfl (by decide)
theorem Sys2Proof.Laws.Fields.st64 (g : GSlot) : Laws.Fields.Statement (.st64 g) := Laws.other_slot rfl (by decide)
theorem Sys2Proof.Laws.Fields.ldp (g : GSlot) : Laws.Fields.Statement (.ldp g) := Laws.other_slot rfl (by decide)
theorem Sys2Proof.Laws.Fields.aadd (g : GSlot) : Laws.Fields.Statement (.aadd g) := Laws.other_slot rfl (by decide)
theorem Sys2Proof.Laws.Fields.aand (g : GSlot) : Laws.Fields.Statement (.aand g) := Laws.other_slot rfl (by decide)
theorem Sys2Proof.Laws.Fields.aor (g : GSlot) : Laws.Fields.Statement (.aor g) := Laws.other_slot rfl (by decide)
theorem Sys2Proof.Laws.Fields.axor (g : GSlot) : Laws.Fields.Statement (.axor g) := Laws.other_slot rfl (by decide)
theorem Sys2Proof.Laws.Fields.amin (g : GSlot) : Laws.Fields.Statement (.amin g) := Laws.other_slot rfl (by decide)
theorem Sys2Proof.Laws.Fields.amax (g : GSlot) : Laws.Fields.Statement (.amax g) := Laws.other_slot rfl (by decide)
theorem Sys2Proof.Laws.Fields.aminu (g : GSlot) : Laws.Fields.Statement (.aminu g) := Laws.other_slot rfl (by decide)
theorem Sys2Proof.Laws.Fields.amaxu (g : GSlot) : Laws.Fields.Statement (.amaxu g) := Laws.other_slot rfl (by decide)
theorem Sys2Proof.Laws.Fields.aswap (g : GSlot) : Laws.Fields.Statement (.aswap g) := Laws.other_slot rfl (by decide)
theorem Sys2Proof.Laws.Fields.acas (g : GSlot) : Laws.Fields.Statement (.acas g) := Laws.other_slot rfl (by decide)
theorem Sys2Proof.Laws.Fields.afadd (g : GSlot) : Laws.Fields.Statement (.afadd g) := Laws.other_slot rfl (by decide)
theorem Sys2Proof.Laws.Fields.fence (g : GSlot) : Laws.Fields.Statement (.fence g) := Laws.other_slot rfl (by decide)
theorem Sys2Proof.Laws.Fields.drain (g : GSlot) : Laws.Fields.Statement (.drain g) := Laws.other_slot rfl (by decide)
theorem Sys2Proof.Laws.Fields.acq (g : GSlot) : Laws.Fields.Statement (.acq g) := Laws.other_slot rfl (by decide)
theorem Sys2Proof.Laws.Fields.rel (g : GSlot) : Laws.Fields.Statement (.rel g) := Laws.other_slot rfl (by decide)
theorem Sys2Proof.Laws.Fields.pref (g : GSlot) : Laws.Fields.Statement (.pref g) := Laws.other_slot rfl (by decide)
theorem Sys2Proof.Laws.Fields.prefw (g : GSlot) : Laws.Fields.Statement (.prefw g) := Laws.other_slot rfl (by decide)
theorem Sys2Proof.Laws.Fields.pin (g : GSlot) : Laws.Fields.Statement (.pin g) := Laws.other_slot rfl (by decide)
theorem Sys2Proof.Laws.Fields.unpin (g : GSlot) : Laws.Fields.Statement (.unpin g) := Laws.other_slot rfl (by decide)
theorem Sys2Proof.Laws.Fields.invl (g : GSlot) : Laws.Fields.Statement (.invl g) := Laws.other_slot rfl (by decide)
theorem Sys2Proof.Laws.Fields.invlAll (g : GSlot) : Laws.Fields.Statement (.invlAll g) := Laws.other_slot rfl (by decide)
theorem Sys2Proof.Laws.Fields.wback (g : GSlot) : Laws.Fields.Statement (.wback g) := Laws.other_slot rfl (by decide)
theorem Sys2Proof.Laws.Fields.binit (g : GSlot) : Laws.Fields.Statement (.binit g) := Laws.other_slot rfl (by decide)
theorem Sys2Proof.Laws.Fields.barrive (g : GSlot) : Laws.Fields.Statement (.barrive g) := Laws.other_slot rfl (by decide)
theorem Sys2Proof.Laws.Fields.bexpect (g : GSlot) : Laws.Fields.Statement (.bexpect g) := Laws.other_slot rfl (by decide)
theorem Sys2Proof.Laws.Fields.bwait (g : GSlot) : Laws.Fields.Statement (.bwait g) := Laws.other_slot rfl (by decide)
theorem Sys2Proof.Laws.Fields.btest (g : GSlot) : Laws.Fields.Statement (.btest g) := Laws.other_slot rfl (by decide)
theorem Sys2Proof.Laws.Fields.setf (g : GSlot) : Laws.Fields.Statement (.setf g) := Laws.other_slot rfl (by decide)
theorem Sys2Proof.Laws.Fields.sete (g : GSlot) : Laws.Fields.Statement (.sete g) := Laws.other_slot rfl (by decide)
theorem Sys2Proof.Laws.Fields.testf (g : GSlot) : Laws.Fields.Statement (.testf g) := Laws.other_slot rfl (by decide)
theorem Sys2Proof.Laws.Fields.qsplit (g : GSlot) : Laws.Fields.Statement (.qsplit g) := Laws.other_slot rfl (by decide)
theorem Sys2Proof.Laws.Fields.qjoin (g : GSlot) : Laws.Fields.Statement (.qjoin g) := Laws.other_slot rfl (by decide)
theorem Sys2Proof.Laws.Fields.qret (g : GSlot) : Laws.Fields.Statement (.qret g) := Laws.other_slot rfl (by decide)
theorem Sys2Proof.Laws.Fields.qretQw (g : GSlot) : Laws.Fields.Statement (.qretQw g) := Laws.other_slot rfl (by decide)
theorem Sys2Proof.Laws.Fields.qwait (g : GSlot) : Laws.Fields.Statement (.qwait g) := Laws.other_slot rfl (by decide)
theorem Sys2Proof.Laws.Fields.qread (g : GSlot) : Laws.Fields.Statement (.qread g) := Laws.other_slot rfl (by decide)
theorem Sys2Proof.Laws.Fields.spawn (g : GSlot) : Laws.Fields.Statement (.spawn g) := Laws.other_slot rfl (by decide)
theorem Sys2Proof.Laws.Fields.subscrPush (g : GSlot) : Laws.Fields.Statement (.subscrPush g) := Laws.other_slot rfl (by decide)
theorem Sys2Proof.Laws.Fields.subscrPull (g : GSlot) : Laws.Fields.Statement (.subscrPull g) := Laws.other_slot rfl (by decide)
theorem Sys2Proof.Laws.Fields.subcan (g : GSlot) : Laws.Fields.Statement (.subcan g) := Laws.other_slot rfl (by decide)
theorem Sys2Proof.Laws.Fields.slotdone (g : GSlot) : Laws.Fields.Statement (.slotdone g) := Laws.other_slot rfl (by decide)
theorem Sys2Proof.Laws.Fields.rseed (g : GSlot) : Laws.Fields.Statement (.rseed g) := Laws.other_slot rfl (by decide)
theorem Sys2Proof.Laws.Fields.rnext (g : GSlot) : Laws.Fields.Statement (.rnext g) := Laws.other_slot rfl (by decide)
theorem Sys2Proof.Laws.Fields.escal (g : GSlot) : Laws.Fields.Statement (.escal g) := Laws.other_slot rfl (by decide)
theorem Sys2Proof.Laws.Fields.lrec (g : GSlot) : Laws.Fields.Statement (.lrec g) := Laws.other_slot rfl (by decide)
theorem Sys2Proof.Laws.Fields.lcommit (g : GSlot) : Laws.Fields.Statement (.lcommit g) := Laws.other_slot rfl (by decide)
theorem Sys2Proof.Laws.Fields.vNop (p : Pipe) : Laws.Fields.Statement (.vNop p) := Laws.other_slot rfl (Laws.pipe_not_x p)
theorem Sys2Proof.Laws.Fields.vadd (p : Pipe) (v : VSlot) : Laws.Fields.Statement (.vadd p v) := Laws.other_slot rfl (Laws.pipe_not_x p)
theorem Sys2Proof.Laws.Fields.vsub (p : Pipe) (v : VSlot) : Laws.Fields.Statement (.vsub p v) := Laws.other_slot rfl (Laws.pipe_not_x p)
theorem Sys2Proof.Laws.Fields.vmul (p : Pipe) (v : VSlot) : Laws.Fields.Statement (.vmul p v) := Laws.other_slot rfl (Laws.pipe_not_x p)
theorem Sys2Proof.Laws.Fields.vfma (p : Pipe) (v : VSlot) : Laws.Fields.Statement (.vfma p v) := Laws.other_slot rfl (Laws.pipe_not_x p)
theorem Sys2Proof.Laws.Fields.vmin (p : Pipe) (v : VSlot) : Laws.Fields.Statement (.vmin p v) := Laws.other_slot rfl (Laws.pipe_not_x p)
theorem Sys2Proof.Laws.Fields.vmax (p : Pipe) (v : VSlot) : Laws.Fields.Statement (.vmax p v) := Laws.other_slot rfl (Laws.pipe_not_x p)
theorem Sys2Proof.Laws.Fields.vabs (p : Pipe) (v : VSlot) : Laws.Fields.Statement (.vabs p v) := Laws.other_slot rfl (Laws.pipe_not_x p)
theorem Sys2Proof.Laws.Fields.vneg (p : Pipe) (v : VSlot) : Laws.Fields.Statement (.vneg p v) := Laws.other_slot rfl (Laws.pipe_not_x p)
theorem Sys2Proof.Laws.Fields.vrcp (p : Pipe) (v : VSlot) : Laws.Fields.Statement (.vrcp p v) := Laws.other_slot rfl (Laws.pipe_not_x p)
theorem Sys2Proof.Laws.Fields.vrsq (p : Pipe) (v : VSlot) : Laws.Fields.Statement (.vrsq p v) := Laws.other_slot rfl (Laws.pipe_not_x p)
theorem Sys2Proof.Laws.Fields.vsqrt (p : Pipe) (v : VSlot) : Laws.Fields.Statement (.vsqrt p v) := Laws.other_slot rfl (Laws.pipe_not_x p)
theorem Sys2Proof.Laws.Fields.vexp2 (p : Pipe) (v : VSlot) : Laws.Fields.Statement (.vexp2 p v) := Laws.other_slot rfl (Laws.pipe_not_x p)
theorem Sys2Proof.Laws.Fields.vlog2 (p : Pipe) (v : VSlot) : Laws.Fields.Statement (.vlog2 p v) := Laws.other_slot rfl (Laws.pipe_not_x p)
theorem Sys2Proof.Laws.Fields.vtanh (p : Pipe) (v : VSlot) : Laws.Fields.Statement (.vtanh p v) := Laws.other_slot rfl (Laws.pipe_not_x p)
theorem Sys2Proof.Laws.Fields.vsigm (p : Pipe) (v : VSlot) : Laws.Fields.Statement (.vsigm p v) := Laws.other_slot rfl (Laws.pipe_not_x p)
theorem Sys2Proof.Laws.Fields.vand (p : Pipe) (v : VSlot) : Laws.Fields.Statement (.vand p v) := Laws.other_slot rfl (Laws.pipe_not_x p)
theorem Sys2Proof.Laws.Fields.vor (p : Pipe) (v : VSlot) : Laws.Fields.Statement (.vor p v) := Laws.other_slot rfl (Laws.pipe_not_x p)
theorem Sys2Proof.Laws.Fields.vxor (p : Pipe) (v : VSlot) : Laws.Fields.Statement (.vxor p v) := Laws.other_slot rfl (Laws.pipe_not_x p)
theorem Sys2Proof.Laws.Fields.vshl (p : Pipe) (v : VSlot) : Laws.Fields.Statement (.vshl p v) := Laws.other_slot rfl (Laws.pipe_not_x p)
theorem Sys2Proof.Laws.Fields.vshr (p : Pipe) (v : VSlot) : Laws.Fields.Statement (.vshr p v) := Laws.other_slot rfl (Laws.pipe_not_x p)
theorem Sys2Proof.Laws.Fields.vclamp (p : Pipe) (v : VSlot) : Laws.Fields.Statement (.vclamp p v) := Laws.other_slot rfl (Laws.pipe_not_x p)
theorem Sys2Proof.Laws.Fields.vscale (p : Pipe) (v : VSlot) : Laws.Fields.Statement (.vscale p v) := Laws.other_slot rfl (Laws.pipe_not_x p)
theorem Sys2Proof.Laws.Fields.vcmp (p : Pipe) (v : VSlot) : Laws.Fields.Statement (.vcmp p v) := Laws.other_slot rfl (Laws.pipe_not_x p)
theorem Sys2Proof.Laws.Fields.vsel (p : Pipe) (v : VSlot) : Laws.Fields.Statement (.vsel p v) := Laws.other_slot rfl (Laws.pipe_not_x p)
theorem Sys2Proof.Laws.Fields.vbcast (p : Pipe) (v : VSlot) : Laws.Fields.Statement (.vbcast p v) := Laws.other_slot rfl (Laws.pipe_not_x p)
theorem Sys2Proof.Laws.Fields.viota (p : Pipe) (v : VSlot) : Laws.Fields.Statement (.viota p v) := Laws.other_slot rfl (Laws.pipe_not_x p)
theorem Sys2Proof.Laws.Fields.vmask (p : Pipe) (v : VSlot) : Laws.Fields.Statement (.vmask p v) := Laws.other_slot rfl (Laws.pipe_not_x p)
theorem Sys2Proof.Laws.Fields.vmov (p : Pipe) (v : VSlot) : Laws.Fields.Statement (.vmov p v) := Laws.other_slot rfl (Laws.pipe_not_x p)
theorem Sys2Proof.Laws.Fields.vcvt (p : Pipe) (v : VSlot) : Laws.Fields.Statement (.vcvt p v) := Laws.other_slot rfl (Laws.pipe_not_x p)
theorem Sys2Proof.Laws.Fields.vcvtq (p : Pipe) (v : VSlot) : Laws.Fields.Statement (.vcvtq p v) := Laws.other_slot rfl (Laws.pipe_not_x p)
theorem Sys2Proof.Laws.Fields.vcvts (p : Pipe) (v : VSlot) : Laws.Fields.Statement (.vcvts p v) := Laws.other_slot rfl (Laws.pipe_not_x p)
theorem Sys2Proof.Laws.Fields.vreshape (p : Pipe) (v : VSlot) : Laws.Fields.Statement (.vreshape p v) := Laws.other_slot rfl (Laws.pipe_not_x p)
theorem Sys2Proof.Laws.Fields.vtrans (p : Pipe) (v : VSlot) : Laws.Fields.Statement (.vtrans p v) := Laws.other_slot rfl (Laws.pipe_not_x p)
theorem Sys2Proof.Laws.Fields.vcast (p : Pipe) (v : VSlot) : Laws.Fields.Statement (.vcast p v) := Laws.other_slot rfl (Laws.pipe_not_x p)
theorem Sys2Proof.Laws.Fields.vrsum (p : Pipe) (v : VSlot) : Laws.Fields.Statement (.vrsum p v) := Laws.other_slot rfl (Laws.pipe_not_x p)
theorem Sys2Proof.Laws.Fields.vrmax (p : Pipe) (v : VSlot) : Laws.Fields.Statement (.vrmax p v) := Laws.other_slot rfl (Laws.pipe_not_x p)
theorem Sys2Proof.Laws.Fields.vrmin (p : Pipe) (v : VSlot) : Laws.Fields.Statement (.vrmin p v) := Laws.other_slot rfl (Laws.pipe_not_x p)
theorem Sys2Proof.Laws.Fields.vrargmax (p : Pipe) (v : VSlot) : Laws.Fields.Statement (.vrargmax p v) := Laws.other_slot rfl (Laws.pipe_not_x p)
theorem Sys2Proof.Laws.Fields.vrdraw (p : Pipe) (v : VSlot) : Laws.Fields.Statement (.vrdraw p v) := Laws.other_slot rfl (Laws.pipe_not_x p)
theorem Sys2Proof.Laws.Fields.vrlse (p : Pipe) (v : VSlot) : Laws.Fields.Statement (.vrlse p v) := Laws.other_slot rfl (Laws.pipe_not_x p)
theorem Sys2Proof.Laws.Fields.vscan (p : Pipe) (v : VSlot) : Laws.Fields.Statement (.vscan p v) := Laws.other_slot rfl (Laws.pipe_not_x p)
theorem Sys2Proof.Laws.Fields.vdmerge (p : Pipe) (v : VSlot) : Laws.Fields.Statement (.vdmerge p v) := Laws.other_slot rfl (Laws.pipe_not_x p)
theorem Sys2Proof.Laws.Fields.vcompact (p : Pipe) (v : VSlot) : Laws.Fields.Statement (.vcompact p v) := Laws.other_slot rfl (Laws.pipe_not_x p)
theorem Sys2Proof.Laws.Fields.vperm (p : Pipe) (v : VSlot) : Laws.Fields.Statement (.vperm p v) := Laws.other_slot rfl (Laws.pipe_not_x p)
theorem Sys2Proof.Laws.Fields.vroute (p : Pipe) (v : VSlot) : Laws.Fields.Statement (.vroute p v) := Laws.other_slot rfl (Laws.pipe_not_x p)
theorem Sys2Proof.Laws.Fields.vhist (p : Pipe) (v : VSlot) : Laws.Fields.Statement (.vhist p v) := Laws.other_slot rfl (Laws.pipe_not_x p)
theorem Sys2Proof.Laws.Fields.mNop : Laws.Fields.Statement .mNop := Laws.other_slot rfl (by decide)
theorem Sys2Proof.Laws.Fields.mma (m : MSlot) : Laws.Fields.Statement (.mma m) := Laws.other_slot rfl (by decide)
theorem Sys2Proof.Laws.Fields.mmaz (m : MSlot) : Laws.Fields.Statement (.mmaz m) := Laws.other_slot rfl (by decide)
theorem Sys2Proof.Laws.Fields.mabsd (m : MSlot) : Laws.Fields.Statement (.mabsd m) := Laws.other_slot rfl (by decide)
theorem Sys2Proof.Laws.Fields.mmaxp (m : MSlot) : Laws.Fields.Statement (.mmaxp m) := Laws.other_slot rfl (by decide)
theorem Sys2Proof.Laws.Fields.mminp (m : MSlot) : Laws.Fields.Statement (.mminp m) := Laws.other_slot rfl (by decide)
theorem Sys2Proof.Laws.Fields.mrank (m : MSlot) : Laws.Fields.Statement (.mrank m) := Laws.other_slot rfl (by decide)
theorem Sys2Proof.Laws.Fields.mrankc (m : MSlot) : Laws.Fields.Statement (.mrankc m) := Laws.other_slot rfl (by decide)
theorem Sys2Proof.Laws.Fields.msparse (m : MSlot) : Laws.Fields.Statement (.msparse m) := Laws.other_slot rfl (by decide)
theorem Sys2Proof.Laws.Fields.mbload (m : MSlot) : Laws.Fields.Statement (.mbload m) := Laws.other_slot rfl (by decide)
theorem Sys2Proof.Laws.Fields.cNop : Laws.Fields.Statement .cNop := Laws.other_slot rfl (by decide)
theorem Sys2Proof.Laws.Fields.tload (c : CSlot) : Laws.Fields.Statement (.tload c) := Laws.other_slot rfl (by decide)
theorem Sys2Proof.Laws.Fields.tstore (c : CSlot) : Laws.Fields.Statement (.tstore c) := Laws.other_slot rfl (by decide)
theorem Sys2Proof.Laws.Fields.tloads (c : CSlot) : Laws.Fields.Statement (.tloads c) := Laws.other_slot rfl (by decide)
theorem Sys2Proof.Laws.Fields.tstores (c : CSlot) : Laws.Fields.Statement (.tstores c) := Laws.other_slot rfl (by decide)
theorem Sys2Proof.Laws.Fields.cpin (c : CSlot) : Laws.Fields.Statement (.cpin c) := Laws.other_slot rfl (by decide)
theorem Sys2Proof.Laws.Fields.cpout (c : CSlot) : Laws.Fields.Statement (.cpout c) := Laws.other_slot rfl (by decide)
theorem Sys2Proof.Laws.Fields.gather (c : CSlot) : Laws.Fields.Statement (.gather c) := Laws.other_slot rfl (by decide)
theorem Sys2Proof.Laws.Fields.scatter (c : CSlot) : Laws.Fields.Statement (.scatter c) := Laws.other_slot rfl (by decide)
theorem Sys2Proof.Laws.Fields.preft (c : CSlot) : Laws.Fields.Statement (.preft c) := Laws.other_slot rfl (by decide)
theorem Sys2Proof.Laws.Fields.send (c : CSlot) : Laws.Fields.Statement (.send c) := Laws.other_slot rfl (by decide)
theorem Sys2Proof.Laws.Fields.recv (c : CSlot) : Laws.Fields.Statement (.recv c) := Laws.other_slot rfl (by decide)
theorem Sys2Proof.Laws.Fields.recvadd (c : CSlot) : Laws.Fields.Statement (.recvadd c) := Laws.other_slot rfl (by decide)
theorem Sys2Proof.Laws.Fields.recvdraw (c : CSlot) : Laws.Fields.Statement (.recvdraw c) := Laws.other_slot rfl (by decide)
theorem Sys2Proof.Laws.Fields.mcast (c : CSlot) : Laws.Fields.Statement (.mcast c) := Laws.other_slot rfl (by decide)
theorem Sys2Proof.Laws.Fields.amsg (c : CSlot) : Laws.Fields.Statement (.amsg c) := Laws.other_slot rfl (by decide)
theorem Sys2Proof.Laws.Fields.ttset (c : CSlot) : Laws.Fields.Statement (.ttset c) := Laws.other_slot rfl (by decide)
theorem Sys2Proof.Laws.Fields.ttfire (c : CSlot) : Laws.Fields.Statement (.ttfire c) := Laws.other_slot rfl (by decide)
theorem Sys2Proof.Laws.Fields.ctload (c : CSlot) : Laws.Fields.Statement (.ctload c) := Laws.other_slot rfl (by decide)
theorem Sys2Proof.Laws.Fields.pendingValueWritten (cx uid : Nat) : Laws.Fields.Statement (.pendingValueWritten cx uid) := Laws.no_word rfl
theorem Sys2Proof.Laws.Fields.frozenWrite (cx : Nat) : Laws.Fields.Statement (.frozenWrite cx) := Laws.no_word rfl
theorem Sys2Proof.Laws.Fields.translationWalk (die n : Nat) : Laws.Fields.Statement (.translationWalk die n) := Laws.no_word rfl
theorem Sys2Proof.Laws.Fields.matrixOpStart (core : Nat) : Laws.Fields.Statement (.matrixOpStart core) := Laws.no_word rfl
theorem Sys2Proof.Laws.Fields.matrixOpComplete (core : Nat) : Laws.Fields.Statement (.matrixOpComplete core) := Laws.no_word rfl
theorem Sys2Proof.Laws.Fields.vectorOpStart (core : Nat) (p : Pipe) : Laws.Fields.Statement (.vectorOpStart core p) := Laws.no_word rfl
theorem Sys2Proof.Laws.Fields.vectorOpComplete (core : Nat) (p : Pipe) : Laws.Fields.Statement (.vectorOpComplete core p) := Laws.no_word rfl
theorem Sys2Proof.Laws.Fields.copyOpStart (core uid : Nat) : Laws.Fields.Statement (.copyOpStart core uid) := Laws.no_word rfl
theorem Sys2Proof.Laws.Fields.copyOpComplete (core uid : Nat) : Laws.Fields.Statement (.copyOpComplete core uid) := Laws.no_word rfl
theorem Sys2Proof.Laws.Fields.engineFoundFault (cx : Nat) : Laws.Fields.Statement (.engineFoundFault cx) := Laws.no_word rfl
theorem Sys2Proof.Laws.Fields.postCommitError (cx uid : Nat) (subcode : BitVec 4) : Laws.Fields.Statement (.postCommitError cx uid subcode) := Laws.no_word rfl
theorem Sys2Proof.Laws.Fields.barrierUpdate (cx : Nat) : Laws.Fields.Statement (.barrierUpdate cx) := Laws.no_word rfl
theorem Sys2Proof.Laws.Fields.rootReturn (die n : Nat) : Laws.Fields.Statement (.rootReturn die n) := Laws.no_word rfl
theorem Sys2Proof.Laws.Fields.launchCompletion (lid : Word) : Laws.Fields.Statement (.launchCompletion lid) := Laws.no_word rfl
theorem Sys2Proof.Laws.Fields.forcedRelease (cx : Nat) : Laws.Fields.Statement (.forcedRelease cx) := Laws.no_word rfl
theorem Sys2Proof.Laws.Fields.failureInterval (lid : Word) : Laws.Fields.Statement (.failureInterval lid) := Laws.no_word rfl
theorem Sys2Proof.Laws.Fields.watchdogTick (lid : Word) : Laws.Fields.Statement (.watchdogTick lid) := Laws.no_word rfl
theorem Sys2Proof.Laws.Fields.notifyRegisterWrite (die : BitVec 2) (offset size : Nat) (value : Word) : Laws.Fields.Statement (.notifyRegisterWrite die offset size value) := Laws.no_word rfl
theorem Sys2Proof.Laws.Fields.queueMap (die : BitVec 2) (q : BitVec 12) : Laws.Fields.Statement (.queueMap die q) := Laws.no_word rfl
theorem Sys2Proof.Laws.Fields.queueUnmap (die : BitVec 2) (q : BitVec 12) : Laws.Fields.Statement (.queueUnmap die q) := Laws.no_word rfl
theorem Sys2Proof.Laws.Fields.launchPacket (die : BitVec 2) (q : BitVec 12) : Laws.Fields.Statement (.launchPacket die q) := Laws.no_word rfl
theorem Sys2Proof.Laws.Fields.noOp (die : BitVec 2) (q : BitVec 12) : Laws.Fields.Statement (.noOp die q) := Laws.no_word rfl
theorem Sys2Proof.Laws.Fields.tileRecord (die : BitVec 2) (q : BitVec 12) : Laws.Fields.Statement (.tileRecord die q) := Laws.no_word rfl
theorem Sys2Proof.Laws.Fields.dealTask (lid : Word) : Laws.Fields.Statement (.dealTask lid) := Laws.no_word rfl
theorem Sys2Proof.Laws.Fields.claimSeat (lid : Word) : Laws.Fields.Statement (.claimSeat lid) := Laws.no_word rfl
theorem Sys2Proof.Laws.Fields.schedulerReceipt (die n : Nat) : Laws.Fields.Statement (.schedulerReceipt die n) := Laws.no_word rfl
theorem Sys2Proof.Laws.Fields.preemptLaunch (lid : Word) : Laws.Fields.Statement (.preemptLaunch lid) := Laws.no_word rfl
theorem Sys2Proof.Laws.Fields.saveEntry (lid : Word) : Laws.Fields.Statement (.saveEntry lid) := Laws.no_word rfl
theorem Sys2Proof.Laws.Fields.restoreLaunch (lid : Word) : Laws.Fields.Statement (.restoreLaunch lid) := Laws.no_word rfl
theorem Sys2Proof.Laws.Fields.restoreSeatClaim (lid : Word) (core : Nat) : Laws.Fields.Statement (.restoreSeatClaim lid core) := Laws.no_word rfl
theorem Sys2Proof.Laws.Fields.cancelLaunch (lid : Word) : Laws.Fields.Statement (.cancelLaunch lid) := Laws.no_word rfl
theorem Sys2Proof.Laws.Fields.invalidateInstructionCaches : Laws.Fields.Statement .invalidateInstructionCaches := Laws.no_word rfl
theorem Sys2Proof.Laws.Fields.invalidateTranslationCaches : Laws.Fields.Statement .invalidateTranslationCaches := Laws.no_word rfl
theorem Sys2Proof.Laws.Fields.resumeParked (cx : Nat) : Laws.Fields.Statement (.resumeParked cx) := Laws.no_word rfl
theorem Sys2Proof.Laws.Fields.failParked (cx : Nat) : Laws.Fields.Statement (.failParked cx) := Laws.no_word rfl
theorem Sys2Proof.Laws.Fields.clearQueueFrozen (q : Word) : Laws.Fields.Statement (.clearQueueFrozen q) := Laws.no_word rfl
theorem Sys2Proof.Laws.Fields.setRoutingEntry (dst port : Word) : Laws.Fields.Statement (.setRoutingEntry dst port) := Laws.no_word rfl
theorem Sys2Proof.Laws.Fields.loadFirmware (addr bytes : Word) : Laws.Fields.Statement (.loadFirmware addr bytes) := Laws.no_word rfl
theorem Sys2Proof.Laws.Fields.clearCounters : Laws.Fields.Statement .clearCounters := Laws.no_word rfl
theorem Sys2Proof.Laws.Fields.retrainLinks : Laws.Fields.Statement .retrainLinks := Laws.no_word rfl
theorem Sys2Proof.Laws.Fields.powerLimitWrite (v : Word) : Laws.Fields.Statement (.powerLimitWrite v) := Laws.no_word rfl
theorem Sys2Proof.Laws.Fields.mgmtRegisterWrite (offset : Nat) (v : Word) : Laws.Fields.Statement (.mgmtRegisterWrite offset v) := Laws.no_word rfl
theorem Sys2Proof.Laws.Fields.governorSample (average : Nat) : Laws.Fields.Statement (.governorSample average) := Laws.no_word rfl
theorem Sys2Proof.Laws.Fields.powerGate (core : Nat) : Laws.Fields.Statement (.powerGate core) := Laws.no_word rfl
theorem Sys2Proof.Laws.Fields.coreWake (core : Nat) : Laws.Fields.Statement (.coreWake core) := Laws.no_word rfl
theorem Sys2Proof.Laws.Fields.deviceReset (brgSel : Bool) (grpPos : BitVec 4) : Laws.Fields.Statement (.deviceReset brgSel grpPos) := Laws.no_word rfl
theorem Sys2Proof.Laws.Fields.pushSlotFilling (cx : Nat) (ring : BitVec 4) : Laws.Fields.Statement (.pushSlotFilling cx ring) := Laws.no_word rfl
theorem Sys2Proof.Laws.Fields.pushSlotFull (cx : Nat) (ring : BitVec 4) : Laws.Fields.Statement (.pushSlotFull cx ring) := Laws.no_word rfl
theorem Sys2Proof.Laws.Fields.pullSlotDraining (cx : Nat) (ring : BitVec 4) : Laws.Fields.Statement (.pullSlotDraining cx ring) := Laws.no_word rfl
theorem Sys2Proof.Laws.Fields.pullSlotDrained (cx : Nat) (ring : BitVec 4) : Laws.Fields.Statement (.pullSlotDrained cx ring) := Laws.no_word rfl
theorem Sys2Proof.Laws.Fields.read (h : MsgHdr) (space : BitVec 8) (size : Nat) (addr : Word) : Laws.Fields.Statement (.read h space size addr) := Laws.no_word rfl
theorem Sys2Proof.Laws.Fields.readAnswer (h : MsgHdr) (status : BitVec 3) (size : Nat) (addr : Word) (data : List Byte) : Laws.Fields.Statement (.readAnswer h status size addr data) := Laws.no_word rfl
theorem Sys2Proof.Laws.Fields.write (h : MsgHdr) (space : BitVec 8) (size : Nat) (addr mask : Word) (data : List Byte) : Laws.Fields.Statement (.write h space size addr mask data) := Laws.no_word rfl
theorem Sys2Proof.Laws.Fields.writeAnswer (h : MsgHdr) (status : BitVec 3) (size : Nat) (addr : Word) : Laws.Fields.Statement (.writeAnswer h status size addr) := Laws.no_word rfl
theorem Sys2Proof.Laws.Fields.atomic (h : MsgHdr) (op scope : BitVec 8) (addr operand swap : Word) : Laws.Fields.Statement (.atomic h op scope addr operand swap) := Laws.no_word rfl
theorem Sys2Proof.Laws.Fields.atomicAnswer (h : MsgHdr) (status : BitVec 3) (addr old : Word) : Laws.Fields.Statement (.atomicAnswer h status addr old) := Laws.no_word rfl
theorem Sys2Proof.Laws.Fields.sendReady (h : MsgHdr) (r : ReadyMsg) : Laws.Fields.Statement (.sendReady h r) := Laws.no_word rfl
theorem Sys2Proof.Laws.Fields.pull (h : MsgHdr) (refusal : Bool) (sender : BitVec 10) (core entry gtag : Nat) (endpoint : Word) (tag : BitVec 32) : Laws.Fields.Statement (.pull h refusal sender core entry gtag endpoint tag) := Laws.no_word rfl
theorem Sys2Proof.Laws.Fields.pullData (h : MsgHdr) (sender : BitVec 10) (core entry gtag : Nat) (endpoint : Word) (image : List Byte) : Laws.Fields.Statement (.pullData h sender core entry gtag endpoint image) := Laws.no_word rfl
theorem Sys2Proof.Laws.Fields.weightReturn (h : MsgHdr) (device : BitVec 16) (domain : BitVec 8) (gtag : Nat) (w : Word) : Laws.Fields.Statement (.weightReturn h device domain gtag w) := Laws.no_word rfl
theorem Sys2Proof.Laws.Fields.faultNotice (n : NoticeMsg) : Laws.Fields.Statement (.faultNotice n) := Laws.no_word rfl
theorem Sys2Proof.Laws.Fields.activeMessage (h : MsgHdr) (template : List Byte) (endpoint : Word) (sender : BitVec 10) (gtag : Nat) (kernel : Word) : Laws.Fields.Statement (.activeMessage h template endpoint sender gtag kernel) := Laws.no_word rfl
theorem Sys2Proof.Laws.Fields.loadSummaryToken (h : MsgHdr) (t : LoadToken) : Laws.Fields.Statement (.loadSummaryToken h t) := Laws.no_word rfl
theorem Sys2Proof.Laws.Fields.tokenHoldExpiry : Laws.Fields.Statement .tokenHoldExpiry := Laws.no_word rfl
theorem Sys2Proof.Laws.Fields.tokenLossTimeout : Laws.Fields.Statement .tokenLossTimeout := Laws.no_word rfl
theorem Sys2Proof.Laws.Fields.stealRequest (h : MsgHdr) (r : StealReq) : Laws.Fields.Statement (.stealRequest h r) := Laws.no_word rfl
theorem Sys2Proof.Laws.Fields.stealGrant (h : MsgHdr) (victim : BitVec 10) (jobTag : BitVec 32) (records : List (List Byte)) : Laws.Fields.Statement (.stealGrant h victim jobTag records) := Laws.no_word rfl
theorem Sys2Proof.Laws.Fields.tileRecordMessage (h : MsgHdr) (victim : BitVec 10) (record : List Byte) : Laws.Fields.Statement (.tileRecordMessage h victim record) := Laws.no_word rfl
theorem Sys2Proof.Laws.Fields.laneLock (p : PortId) : Laws.Fields.Statement (.laneLock p) := Laws.no_word rfl
theorem Sys2Proof.Laws.Fields.trainingOfferTimer (p : PortId) : Laws.Fields.Statement (.trainingOfferTimer p) := Laws.no_word rfl
theorem Sys2Proof.Laws.Fields.trainingOffer (p : PortId) (o : Training) : Laws.Fields.Statement (.trainingOffer p o) := Laws.no_word rfl
theorem Sys2Proof.Laws.Fields.trainingAccept (p : PortId) (o : Training) : Laws.Fields.Statement (.trainingAccept p o) := Laws.no_word rfl
theorem Sys2Proof.Laws.Fields.linkIdle (p : PortId) (ackValid : Bool) (ack : BitVec 12) : Laws.Fields.Statement (.linkIdle p ackValid ack) := Laws.no_word rfl
theorem Sys2Proof.Laws.Fields.replayTimeout (p : PortId) : Laws.Fields.Statement (.replayTimeout p) := Laws.no_word rfl
theorem Sys2Proof.Laws.Fields.hostBar0Access (write : Bool) (offset size : Nat) (value : Word) : Laws.Fields.Statement (.hostBar0Access write offset size value) := Laws.no_word rfl
theorem Sys2Proof.Laws.Fields.hostBar2Access (op : HostOp) (offset size : Nat) (data : List Byte) : Laws.Fields.Statement (.hostBar2Access op offset size data) := Laws.no_word rfl
theorem Sys2Proof.Laws.Fields.attestationRequest (nonce : List Byte) : Laws.Fields.Statement (.attestationRequest nonce) := Laws.no_word rfl
theorem Sys2Proof.Laws.Fields.doeDiscovery (index : Nat) : Laws.Fields.Statement (.doeDiscovery index) := Laws.no_word rfl
theorem Sys2Proof.Laws.Fields.softError (site : ErrSite) (correctable : Bool) : Laws.Fields.Statement (.softError site correctable) := Laws.no_word rfl
theorem Sys2Proof.Laws.Fields.coreReset (core : Nat) (leave : Bool) : Laws.Fields.Statement (.coreReset core leave) := Laws.no_word rfl
theorem Sys2Proof.Laws.Fields.discardedFlit (p : PortId) (why : FlitFlaw) : Laws.Fields.Statement (.discardedFlit p why) := Laws.no_word rfl
theorem Sys2Proof.Laws.Fields.hostBar4Access (write : Bool) (offset size : Nat) (value : Word) : Laws.Fields.Statement (.hostBar4Access write offset size value) := Laws.no_word rfl
end

