-- ==== Sys2Proof/Laws/Scalar.lean ====
section
/-! SUPPORT. The scalar operations in other words, and bundles of one X slot that stall. -/
namespace Sys2Proof.Machine
open Sys2Proof.Safety

theorem opSra_eq (a b : Word) : opSra a b = BitVec.ofInt 64 (a.toInt / 2 ^ (b.toNat % 64)) := by
  apply BitVec.eq_of_toInt_eq
  rw [opSra, BitVec.toInt_sshiftRight, Int.shiftRight_eq_div_pow, BitVec.toInt_ofInt]
  have h1 := BitVec.two_mul_toInt_lt (x := a)
  have h2 := BitVec.le_two_mul_toInt (x := a)
  have h3 : (0 : Int) < 2 ^ (b.toNat % 64) := by positivity
  have h4 : a.toInt / 2 ^ (b.toNat % 64) ≤ max a.toInt 0 := by
    rcases le_or_gt 0 a.toInt with h | h
    · exact le_trans (Int.ediv_le_self _ h) (le_max_left _ _)
    · exact le_trans (le_of_lt (Int.ediv_neg_of_neg_of_pos h h3)) (le_max_right _ _)
  have h5 : min a.toInt 0 ≤ a.toInt / 2 ^ (b.toNat % 64) := by
    rcases le_or_gt 0 a.toInt with h | h
    · exact le_trans (min_le_right _ _) (Int.ediv_nonneg h h3.le)
    · refine le_trans (min_le_left _ _) ?_
      rw [Int.le_ediv_iff_mul_le h3]
      nlinarith
  symm
  push_cast
  apply Int.bmod_eq_of_le <;> omega
theorem opMulh_eq (a b : Word) : opMulh a b = (a.signExtend 128 * b.signExtend 128).extractLsb' 64 64 := by
  apply BitVec.eq_of_toNat_eq
  have h : (a.signExtend 128 * b.signExtend 128) = BitVec.ofInt 128 (a.toInt * b.toInt) := by
    apply BitVec.eq_of_toInt_eq
    rw [BitVec.toInt_mul, BitVec.toInt_signExtend_of_le (by omega), BitVec.toInt_signExtend_of_le (by omega), BitVec.toInt_ofInt]
  rw [h, opMulh]
  simp only [BitVec.toNat_ofInt, BitVec.extractLsb'_toNat, Nat.shiftRight_eq_div_pow]
  generalize a.toInt * b.toInt = x
  push_cast
  omega
theorem opMulhu_eq (a b : Word) : opMulhu a b = (a.setWidth 128 * b.setWidth 128).extractLsb' 64 64 := by
  apply BitVec.eq_of_toNat_eq
  have h1 := a.isLt
  have h2 := b.isLt
  have h3 : a.toNat * b.toNat < 2 ^ 128 := by nlinarith
  simp only [opMulhu, BitVec.toNat_ofNat, BitVec.extractLsb'_toNat, Nat.shiftRight_eq_div_pow, BitVec.toNat_mul, BitVec.toNat_setWidth]
  rw [Nat.mod_eq_of_lt (show a.toNat < 2 ^ 128 by omega), Nat.mod_eq_of_lt (show b.toNat < 2 ^ 128 by omega), Nat.mod_eq_of_lt h3]
theorem opDiv_eq (a b : Word) : opDiv a b = if b = 0 then BitVec.allOnes 64 else a.sdiv b := by
  unfold opDiv
  split
  · rfl
  · split
    · next h => obtain ⟨rfl, rfl⟩ := h; rfl
    · next hb h =>
      apply BitVec.eq_of_toInt_eq
      rw [BitVec.toInt_sdiv, BitVec.toInt_ofInt]
theorem opDivu_eq (a b : Word) : opDivu a b = if b = 0 then BitVec.allOnes 64 else a / b := by
  unfold opDivu
  split
  · rfl
  · apply BitVec.eq_of_toNat_eq
    rw [BitVec.toNat_udiv, BitVec.toNat_ofNat, Nat.mod_eq_of_lt]
    exact lt_of_le_of_lt (Nat.div_le_self _ _) a.isLt
theorem opRem_eq (a b : Word) : opRem a b = a.srem b := by
  unfold opRem
  split
  · next h => subst h; simp [BitVec.srem_zero]
  · split
    · next h => obtain ⟨rfl, rfl⟩ := h; rfl
    · apply BitVec.eq_of_toInt_eq
      rw [BitVec.toInt_srem, BitVec.toInt_ofInt]
      have h1 := BitVec.two_mul_toInt_lt (x := a)
      have h2 := BitVec.le_two_mul_toInt (x := a)
      have h3 : (a.toInt.tmod b.toInt).natAbs ≤ a.toInt.natAbs := by
        rw [Int.natAbs_tmod]; exact Nat.mod_le _ _
      have h4 : 0 ≤ a.toInt → 0 ≤ a.toInt.tmod b.toInt := fun h => Int.tmod_nonneg _ h
      have h5 : a.toInt ≤ 0 → a.toInt.tmod b.toInt ≤ 0 := fun h => by
        have h6 := Int.tmod_nonneg b.toInt (show 0 ≤ -a.toInt by omega)
        rw [Int.neg_tmod] at h6
        omega
      apply Int.bmod_eq_of_le <;> omega
theorem opRemu_eq (a b : Word) : opRemu a b = a % b := by
  unfold opRemu
  split
  · next h => subst h; simp
  · apply BitVec.eq_of_toNat_eq
    rw [BitVec.toNat_umod, BitVec.toNat_ofNat, Nat.mod_eq_of_lt]
    exact lt_of_le_of_lt (Nat.mod_le _ _) a.isLt
theorem opMin_eq (a b : Word) : opMin a b = if a.slt b then a else b := by
  simp only [opMin, BitVec.slt]
  rcases lt_trichotomy a.toInt b.toInt with h | h | h
  · simp [h, h.le]
  · have := BitVec.eq_of_toInt_eq h; subst this; simp
  · simp [not_le.2 h, not_lt.2 h.le]
theorem opMax_eq (a b : Word) : opMax a b = if a.slt b then b else a := by
  simp only [opMax, BitVec.slt]
  rcases lt_trichotomy a.toInt b.toInt with h | h | h
  · simp [h, h.le]
  · have := BitVec.eq_of_toInt_eq h; subst this; simp
  · simp [not_le.2 h, not_lt.2 h.le]
theorem opMinu_eq (a b : Word) : opMinu a b = if a.ult b then a else b := by
  simp only [opMinu, BitVec.ult]
  rcases lt_trichotomy a.toNat b.toNat with h | h | h
  · simp [h, h.le]
  · have := BitVec.eq_of_toNat_eq h; subst this; simp
  · simp [not_le.2 h, not_lt.2 h.le]
theorem opMaxu_eq (a b : Word) : opMaxu a b = if a.ult b then b else a := by
  simp only [opMaxu, BitVec.ult]
  rcases lt_trichotomy a.toNat b.toNat with h | h | h
  · simp [h, h.le]
  · have := BitVec.eq_of_toNat_eq h; subst this; simp
  · simp [not_le.2 h, not_lt.2 h.le]

theorem stallOn_internal_issue (s : State) : (stallOn .internal s).issue = { s.issue with stall := some .internal } := by
  unfold stallOn
  simp only
  congr 1
  split <;> rfl
theorem reads_pending (l : List RegRef) (s : State) (h : ∃ q ∈ l, q ∈ (preCtx s).pend) : reads l s = stallOn .internal s := by
  unfold reads
  rw [if_pos]
  simpa using h
theorem reads_issue (l : List RegRef) (s : State) :
    (reads l s).issue = s.issue ∨ (reads l s).issue = { s.issue with stall := some .internal } := by
  unfold reads
  split
  · exact .inr (stallOn_internal_issue s)
  · exact .inl rfl
theorem reads_agenda (l : List RegRef) (s : State) : (reads l s).agenda = s.agenda := by unfold reads; split <;> rfl
theorem frozenTo_issue (r : RegRef) (lat : Nat) (v : Word) (s : State) (h : s.issue = { s.issue with stall := some .internal }) :
    (frozenTo r lat v s).issue = s.issue := by
  unfold frozenTo
  split
  · rfl
  · next q hq =>
    simp only [onCtx, writesFrozen_some hq]
    rcases reads_issue [_] s with e | e
    · exact e
    · exact e.trans h.symm
/-- An X slot that reads and then queues one frozen write stalls while a source or the destination is pending (R124). -/
theorem runX_stalls {s : State} (hs : Solo s) (i : Instr) (f : State → State) (l : List RegRef) (r : RegRef) (lat : Nat) (v : Word)
    (hf : f (begun .x s) = frozenTo r lat v (reads l (begun .x s)))
    (h : (∃ q ∈ l, ¬Free s q) ∨ ∃ q, r.dest? = some q ∧ ¬Free s q) : runX i f s = .next (waiting true s) := by
  apply run_waiting hs .x i f .internal
  · refine ⟨(begun .x s).issue.faults, ?_⟩
    rw [hf]
    by_cases h1 : ∃ q ∈ l, ¬Free s q
    · obtain ⟨q, h1, h2⟩ := h1
      have e : reads l (begun .x s) = stallOn .internal (begun .x s) := reads_pending _ _ ⟨q, h1, by simpa [Free] using h2⟩
      rw [e, frozenTo_issue _ _ _ _ (by rw [stallOn_internal_issue]), stallOn_internal_issue]
    · obtain ⟨q, h1, h2⟩ := h.resolve_left h1
      unfold frozenTo
      simp only [h1, onCtx, writesFrozen_some h1]
      rw [reads_pending [q] _ ⟨q, by simp, by simpa [Free] using h2⟩, stallOn_internal_issue]
      rcases reads_issue l (begun .x s) with e | e <;> rw [e]
  · rw [hf]
    unfold frozenTo
    split
    · exact reads_agenda _ _
    · next q hq => simp only [onCtx, writesFrozen_some hq, reads_agenda]; rfl
/-- The compare with one source, and the predicate operations. -/
theorem cmp1_writes {s : State} (hs : Solo s) (i : Instr) (pd : PReg) (sa : SReg) (f : Word → Bool)
    (ha : Free s (sref (me s).handler sa)) (hd : Free s (pref pd)) :
    ∃ t, cmp1 i pd sa f s = .next t ∧ WritesX s t (pref pd).dest? 1 (if f ((me s).s sa) then 1 else 0) :=
  runX_frozen hs i _ [sref (me s).handler sa] (pref pd) 1 _ rfl
    (by simp [ha]) (fun q hq => by rw [dest?_eq hq]; exact hd) (by decide) (fun c h => regOf_setRef_pref _ _ _ h)
theorem pred2_writes {s : State} (hs : Solo s) (i : Instr) (pd pa pb : PReg) (f : Bool → Bool → Bool)
    (ha : Free s (pref pa)) (hb : Free s (pref pb)) (hd : Free s (pref pd)) :
    ∃ t, pred2 i pd pa pb f s = .next t ∧ WritesX s t (pref pd).dest? 1 (if f ((me s).p pa) ((me s).p pb) then 1 else 0) :=
  runX_frozen hs i _ [pref pa, pref pb] (pref pd) 1 _ rfl
    (by simp [ha, hb]) (fun q hq => by rw [dest?_eq hq]; exact hd) (by decide) (fun c h => regOf_setRef_pref _ _ _ h)
theorem pred1_writes {s : State} (hs : Solo s) (i : Instr) (pd pa : PReg) (f : Bool → Bool)
    (ha : Free s (pref pa)) (hd : Free s (pref pd)) :
    ∃ t, pred1 i pd pa f s = .next t ∧ WritesX s t (pref pd).dest? 1 (if f ((me s).p pa) then 1 else 0) :=
  runX_frozen hs i _ [pref pa] (pref pd) 1 _ rfl
    (by simp [ha]) (fun q hq => by rw [dest?_eq hq]; exact hd) (by decide) (fun c h => regOf_setRef_pref _ _ _ h)

end Sys2Proof.Machine
end

