-- ==== Sys2Proof/Tests/Slice0.lean ====
section
/-! SUPPORT. Tests: ill-formed terms, words written out from the encodings of the spec, single steps, and for every obligation
that has hypotheses a state and operands that meet them. -/
namespace Sys2Proof.Tests
-- one theorem at a time: each evaluation has a thread of its own, and their stacks together would pass the memory limit
set_option Elab.async false
open Sys2Proof.Machine Sys2Proof.Safety Sys2Proof.Claims

/-! Words written out from 06 Tables 06-4 to 06-11 and the field rules of each instruction: one for every slot instruction. -/
/-- Do the words of a slot read as these instructions, and is each what the encoder gives? -/
def allRead (k : Slot) (l : List (Nat × Instr)) : Bool :=
  l.all fun x => (match decodeSlot k (BitVec.ofNat 64 x.1) with | .ok j => decide (j = x.2) | .error _ => false) && wellFormed x.2 &&
    decide (encode x.2 = some (k, BitVec.ofNat 64 x.1))
theorem test_xWords_1 : allRead .x
    [(0x00000000, .nop), (0x012548C0, .add 9 20 35), (0x022548C0, .sub 9 20 35), (0x032548C0, .and 9 20 35), (0x042548C0, .or 9 20 35), (0x052548C0, .xor 9 20 35),
     (0x062548C0, .shl 9 20 35), (0x072548C0, .shr 9 20 35), (0x082548C0, .sra 9 20 35), (0x092548C0, .mul 9 20 35), (0x0A2548C0, .mulh 9 20 35),
     (0x0B2548C0, .mulhu 9 20 35), (0x0C2548C0, .div 9 20 35), (0x0D2548C0, .divu 9 20 35), (0x0E2548C0, .rem 9 20 35), (0x0F2548C0, .remu 9 20 35),
     (0x102548C0, .min 9 20 35), (0x112548C0, .max 9 20 35), (0x122548C0, .minu 9 20 35), (0x132548C0, .maxu 9 20 35), (0x14254000, .clz 9 20),
     (0x15254000, .ctz 9 20)] = true := by decide +kernel
theorem test_xWords_2 : allRead .x
    [(0x16254000, .popc 9 20), (0x172548C5, .sel 9 5 20 35), (0x20254FFD, .addi 9 20 0xFFD), (0x21254FFD, .andi 9 20 0xFFD), (0x22254FFD, .ori 9 20 0xFFD),
     (0x23254FFD, .xori 9 20 0xFFD), (0x24254025, .shli 9 20 37), (0x25254025, .shri 9 20 37), (0x26254025, .srai 9 20 37), (0x27254FFD, .muli 9 20 0xFFD),
     (0x2826BCDE, .li 9 0x2BCDE), (0x2926BCDE, .lih 9 0x2BCDE), (0x301548C0, .cmpeq 5 20 35), (0x311548C0, .cmpne 5 20 35), (0x321548C0, .cmplt 5 20 35),
     (0x331548C0, .cmpltu 5 20 35), (0x341548C0, .cmple 5 20 35), (0x351548C0, .cmpleu 5 20 35), (0x36154FFD, .cmpeqi 5 20 0xFFD), (0x37154FFD, .cmplti 5 20 0xFFD),
     (0x381460C0, .pand 5 6 3), (0x391460C0, .por 5 6 3)] = true := by decide +kernel
theorem test_xWords_3 : allRead .x
    [(0x3A1460C0, .pxor 5 6 3), (0x3B146000, .pnot 5 6), (0x3C146000, .pmov 5 6), (0x402548C5, .lea 9 20 35 5), (0x482548C0, .fadd 9 20 35),
     (0x492548C0, .fsub 9 20 35), (0x4A2548C0, .fmul 9 20 35), (0x4B2548C0, .fdiv 9 20 35), (0x4C2548C0, .fmin 9 20 35), (0x4D2548C0, .fmax 9 20 35),
     (0x4E1548C0, .fcmplt 5 20 35), (0x4F1548C0, .fcmpeq 5 20 35), (0x50254000, .ftoi 9 20), (0x51254000, .itof 9 20), (0x52254000, .fexp2 9 20),
     (0x53254000, .flog2 9 20), (0x600FFFFE, .br 0xFFFFE), (0x61BFFFFE, .brc 5 true 0xFFFFE), (0x62240FFE, .bdnz 9 0xFFE), (0x630FFFFE, .call 0xFFFFE),
     (0x6403F000, .ret 63), (0x65254000, .jmpr 9 20)] = true := by decide +kernel
theorem test_xWords_4 : allRead .x
    [(0x66000000, .endTask), (0x6702BCDE, .trap 0x2BCDE), (0x6802BCDE, .bkpt 0x2BCDE), (0x694540C0, .waitk 17 20 3), (0x6A014000, .idleF 20),
     (0x6A0148C1, .idleN 20 35), (0x70240024, .sysr 9 0x24), (0x71240024, .sysw 9 0x24), (0x72000000, .tret), (0x72000001, .tretSkip), (0x73254000, .ctxr 9 20),
     (0x740148C0, .ctxw 20 35), (0x75254000, .eqreplay 9 20), (0x8046BCDE, .tdecl 17 0x2BCDE), (0x814548C0, .tdecls 17 20 35), (0x82254001, .tget 9 20 true false),
     (0x83354000, .bind 13 20), (0x8400A005, .unbind 0xA005), (0x8524D000, .bget 9 13), (0x861548DB, .tchk 5 20 35 0xB true), (0x87440000, .tclear 17),
     (0x88254006, .text 9 20 2 true)] = true := by decide +kernel
theorem test_gWords_1 : allRead .g
    [(0x0000000000000000, .gNop), (0x012548D6FEFFFFF8, .ld8 { sd := 9, sa := 20, sb := 35, hint := 91, stride := 62, disp := 0xfffff8 }),
     (0x022548D6FEFFFFF8, .ld8u { sd := 9, sa := 20, sb := 35, hint := 91, stride := 62, disp := 0xfffff8 }),
     (0x032548D6FEFFFFF8, .ld16 { sd := 9, sa := 20, sb := 35, hint := 91, stride := 62, disp := 0xfffff8 }),
     (0x042548D6FEFFFFF8, .ld16u { sd := 9, sa := 20, sb := 35, hint := 91, stride := 62, disp := 0xfffff8 }),
     (0x052548D6FEFFFFF8, .ld32 { sd := 9, sa := 20, sb := 35, hint := 91, stride := 62, disp := 0xfffff8 }),
     (0x062548D6FEFFFFF8, .ld32u { sd := 9, sa := 20, sb := 35, hint := 91, stride := 62, disp := 0xfffff8 }),
     (0x072548D6FEFFFFF8, .ld64 { sd := 9, sa := 20, sb := 35, hint := 91, stride := 62, disp := 0xfffff8 }),
     (0x082548D6FEFFFFF8, .st8 { sd := 9, sa := 20, sb := 35, hint := 91, stride := 62, disp := 0xfffff8 }),
     (0x092548D6FEFFFFF8, .st16 { sd := 9, sa := 20, sb := 35, hint := 91, stride := 62, disp := 0xfffff8 }),
     (0x0A2548D6FEFFFFF8, .st32 { sd := 9, sa := 20, sb := 35, hint := 91, stride := 62, disp := 0xfffff8 }),
     (0x0B2548D6FEFFFFF8, .st64 { sd := 9, sa := 20, sb := 35, hint := 91, stride := 62, disp := 0xfffff8 }),
     (0x0C25416AFEFFFFF8, .ldp { sd := 9, sa := 20, sb := 5, hint := 171, stride := 62, disp := 0xfffff8 }),
     (0x102148C17EFFFFF8, .aadd { sd := 8, sa := 20, sb := 35, hint := 5, stride := 62, disp := 0xfffff8 }),
     (0x112148C17EFFFFF8, .aand { sd := 8, sa := 20, sb := 35, hint := 5, stride := 62, disp := 0xfffff8 })] = true := by decide +kernel
theorem test_gWords_2 : allRead .g
    [(0x122148C17EFFFFF8, .aor { sd := 8, sa := 20, sb := 35, hint := 5, stride := 62, disp := 0xfffff8 }),
     (0x132148C17EFFFFF8, .axor { sd := 8, sa := 20, sb := 35, hint := 5, stride := 62, disp := 0xfffff8 }),
     (0x142148C17EFFFFF8, .amin { sd := 8, sa := 20, sb := 35, hint := 5, stride := 62, disp := 0xfffff8 }),
     (0x152148C17EFFFFF8, .amax { sd := 8, sa := 20, sb := 35, hint := 5, stride := 62, disp := 0xfffff8 }),
     (0x162148C17EFFFFF8, .aminu { sd := 8, sa := 20, sb := 35, hint := 5, stride := 62, disp := 0xfffff8 }),
     (0x172148C17EFFFFF8, .amaxu { sd := 8, sa := 20, sb := 35, hint := 5, stride := 62, disp := 0xfffff8 }),
     (0x182148C17EFFFFF8, .aswap { sd := 8, sa := 20, sb := 35, hint := 5, stride := 62, disp := 0xfffff8 }),
     (0x192148C17EFFFFF8, .acas { sd := 8, sa := 20, sb := 35, hint := 5, stride := 62, disp := 0xfffff8 }),
     (0x1A2148C17EFFFFF8, .afadd { sd := 8, sa := 20, sb := 35, hint := 5, stride := 62, disp := 0xfffff8 }), (0x2000000140000000, .fence { hint := 5 }),
     (0x2100000180000000, .drain { hint := 6 }), (0x222548C140FFFFF8, .acq { sd := 9, sa := 20, sb := 35, hint := 5, disp := 0xfffff8 }),
     (0x232548C140FFFFF8, .rel { sd := 9, sa := 20, sb := 35, hint := 5, disp := 0xfffff8 }),
     (0x280148D6C0FFFFF8, .pref { sa := 20, sb := 35, hint := 91, disp := 0xfffff8 }),
     (0x290148D6C0FFFFF8, .prefw { sa := 20, sb := 35, hint := 91, disp := 0xfffff8 })] = true := by decide +kernel
theorem test_gWords_3 : allRead .g
    [(0x2A1548EAC0FFFFF8, .pin { sd := 5, sa := 20, sb := 35, hint := 171, disp := 0xfffff8 }),
     (0x2B0148EAC0FFFFF8, .unpin { sa := 20, sb := 35, hint := 171, disp := 0xfffff8 }), (0x2C0148C000FFFFF8, .invl { sa := 20, sb := 35, disp := 0xfffff8 }),
     (0x2C04000000000000, .invlAll { sd := 1 }), (0x2D0148C000FFFFF8, .wback { sa := 20, sb := 35, disp := 0xfffff8 }),
     (0x302548C000FFFFF8, .binit { sd := 9, sa := 20, sb := 35, disp := 0xfffff8 }),
     (0x312548C140FFFFF8, .barrive { sd := 9, sa := 20, sb := 35, hint := 5, disp := 0xfffff8 }),
     (0x322548C000FFFFF8, .bexpect { sd := 9, sa := 20, sb := 35, disp := 0xfffff8 }),
     (0x332548C140FFFFF8, .bwait { sd := 9, sa := 20, sb := 35, hint := 5, disp := 0xfffff8 }),
     (0x341548C140FFFFF8, .btest { sd := 5, sa := 20, sb := 35, hint := 5, disp := 0xfffff8 }),
     (0x380148C03EFFFFF8, .setf { sa := 20, sb := 35, stride := 62, disp := 0xfffff8 }),
     (0x390148C03EFFFFF8, .sete { sa := 20, sb := 35, stride := 62, disp := 0xfffff8 }),
     (0x3A1548C03EFFFFF8, .testf { sd := 5, sa := 20, sb := 35, stride := 62, disp := 0xfffff8 }), (0x4024000000000000, .qsplit { sd := 9 }),
     (0x4115400000000000, .qjoin { sd := 5, sa := 20 })] = true := by decide +kernel
theorem test_gWords_4 : allRead .g
    [(0x4201400000000000, .qret { sa := 20 }), (0x4204000000000000, .qretQw { sd := 1 }), (0x4314000000000000, .qwait { sd := 5 }),
     (0x4424000000000002, .qread { sd := 9, disp := 0x2 }), (0x482548C00000000F, .spawn { sd := 9, sa := 20, sb := 35, disp := 0xf }),
     (0x503548EAC0000004, .subscrPush { sd := 13, sa := 20, sb := 35, hint := 171, disp := 0x4 }),
     (0x507548EAC0000004, .subscrPull { sd := 29, sa := 20, sb := 35, hint := 171, disp := 0x4 }), (0x5134000000000000, .subcan { sd := 13 }),
     (0x5235400000000000, .slotdone { sd := 13, sa := 20 }), (0x580148C000000000, .rseed { sa := 20, sb := 35 }), (0x5924000000000000, .rnext { sd := 9 }),
     (0x6024000000000000, .escal { sd := 9 }), (0x681548C000FFFFF8, .lrec { sd := 5, sa := 20, sb := 35, disp := 0xfffff8 }),
     (0x6901400000000000, .lcommit { sa := 20 })] = true := by decide +kernel
theorem test_vWords_1 (p : Pipe) : allRead p.slot
    [(0x0000000000000000, .vNop p),
     (0x04658AAA98F1C4DE, .vadd p { op2 := 3, op3 := 5, td := 17, ta := 10, tb := 21, tc := 9, sx := 35, rnd := 3, kd := 3, kw0 := 17, kw1 := 6, kw2 := 30 }),
     (0x08658AAA98F1C4DE, .vsub p { op2 := 3, op3 := 5, td := 17, ta := 10, tb := 21, tc := 9, sx := 35, rnd := 3, kd := 3, kw0 := 17, kw1 := 6, kw2 := 30 }),
     (0x0C658AAA98F1C4DE, .vmul p { op2 := 3, op3 := 5, td := 17, ta := 10, tb := 21, tc := 9, sx := 35, rnd := 3, kd := 3, kw0 := 17, kw1 := 6, kw2 := 30 }),
     (0x10478AAA98D1C4DE, .vfma p { op2 := 2, op3 := 7, td := 17, ta := 10, tb := 21, tc := 9, sx := 35, rnd := 1, kd := 3, kw0 := 17, kw1 := 6, kw2 := 30 }),
     (0x14658AAA98F1C4DE, .vmin p { op2 := 3, op3 := 5, td := 17, ta := 10, tb := 21, tc := 9, sx := 35, rnd := 3, kd := 3, kw0 := 17, kw1 := 6, kw2 := 30 }),
     (0x18658AAA98F1C4DE, .vmax p { op2 := 3, op3 := 5, td := 17, ta := 10, tb := 21, tc := 9, sx := 35, rnd := 3, kd := 3, kw0 := 17, kw1 := 6, kw2 := 30 }),
     (0x1DAE8A8098E1C4DE, .vabs p { op2 := 13, op3 := 14, td := 17, ta := 10, tc := 9, sx := 35, rnd := 2, kd := 3, kw0 := 17, kw1 := 6, kw2 := 30 }),
     (0x21AE8A8098E1C4DE, .vneg p { op2 := 13, op3 := 14, td := 17, ta := 10, tc := 9, sx := 35, rnd := 2, kd := 3, kw0 := 17, kw1 := 6, kw2 := 30 }),
     (0x25AE8A8098E1C4DE, .vrcp p { op2 := 13, op3 := 14, td := 17, ta := 10, tc := 9, sx := 35, rnd := 2, kd := 3, kw0 := 17, kw1 := 6, kw2 := 30 }),
     (0x29AE8A8098E1C4DE, .vrsq p { op2 := 13, op3 := 14, td := 17, ta := 10, tc := 9, sx := 35, rnd := 2, kd := 3, kw0 := 17, kw1 := 6, kw2 := 30 }),
     (0x2DAE8A8098E1C4DE, .vsqrt p { op2 := 13, op3 := 14, td := 17, ta := 10, tc := 9, sx := 35, rnd := 2, kd := 3, kw0 := 17, kw1 := 6, kw2 := 30 })] = true := by cases p <;> decide +kernel
theorem test_vWords_2 (p : Pipe) : allRead p.slot
    [(0x31AE8A8098E1C4DE, .vexp2 p { op2 := 13, op3 := 14, td := 17, ta := 10, tc := 9, sx := 35, rnd := 2, kd := 3, kw0 := 17, kw1 := 6, kw2 := 30 }),
     (0x35AE8A8098E1C4DE, .vlog2 p { op2 := 13, op3 := 14, td := 17, ta := 10, tc := 9, sx := 35, rnd := 2, kd := 3, kw0 := 17, kw1 := 6, kw2 := 30 }),
     (0x39AE8A8098E1C4DE, .vtanh p { op2 := 13, op3 := 14, td := 17, ta := 10, tc := 9, sx := 35, rnd := 2, kd := 3, kw0 := 17, kw1 := 6, kw2 := 30 }),
     (0x3DAE8A8098E1C4DE, .vsigm p { op2 := 13, op3 := 14, td := 17, ta := 10, tc := 9, sx := 35, rnd := 2, kd := 3, kw0 := 17, kw1 := 6, kw2 := 30 }),
     (0x40008AAA0031C4DE, .vand p { td := 17, ta := 10, tb := 21, rnd := 3, kd := 3, kw0 := 17, kw1 := 6, kw2 := 30 }),
     (0x44008AAA0031C4DE, .vor p { td := 17, ta := 10, tb := 21, rnd := 3, kd := 3, kw0 := 17, kw1 := 6, kw2 := 30 }),
     (0x48008AAA0031C4DE, .vxor p { td := 17, ta := 10, tb := 21, rnd := 3, kd := 3, kw0 := 17, kw1 := 6, kw2 := 30 }),
     (0x4C008AAA0031C4DE, .vshl p { td := 17, ta := 10, tb := 21, rnd := 3, kd := 3, kw0 := 17, kw1 := 6, kw2 := 30 }),
     (0x50008AAA0031C4DE, .vshr p { td := 17, ta := 10, tb := 21, rnd := 3, kd := 3, kw0 := 17, kw1 := 6, kw2 := 30 }),
     (0x54478AAA98D1C4DE, .vclamp p { op2 := 2, op3 := 7, td := 17, ta := 10, tb := 21, tc := 9, sx := 35, rnd := 1, kd := 3, kw0 := 17, kw1 := 6, kw2 := 30 }),
     (0x58658AAA98F1C4DE, .vscale p { op2 := 3, op3 := 5, td := 17, ta := 10, tb := 21, tc := 9, sx := 35, rnd := 3, kd := 3, kw0 := 17, kw1 := 6, kw2 := 30 }),
     (0x5C008AAA0171C4DE, .vcmp p { td := 17, ta := 10, tb := 21, sx := 5, rnd := 3, kd := 3, kw0 := 17, kw1 := 6, kw2 := 30 })] = true := by cases p <;> decide +kernel
theorem test_vWords_3 (p : Pipe) : allRead p.slot
    [(0x60478AAA98D1C4DE, .vsel p { op2 := 2, op3 := 7, td := 17, ta := 10, tb := 21, tc := 9, sx := 35, rnd := 1, kd := 3, kw0 := 17, kw1 := 6, kw2 := 30 }),
     (0x6400880008F1C4DE, .vbcast p { td := 17, sx := 35, rnd := 3, kd := 3, kw0 := 17, kw1 := 6, kw2 := 30 }),
     (0x6800880008F1C4DE, .viota p { td := 17, sx := 35, rnd := 3, kd := 3, kw0 := 17, kw1 := 6, kw2 := 30 }),
     (0x6C00880008F1C4DE, .vmask p { td := 17, sx := 35, rnd := 3, kd := 3, kw0 := 17, kw1 := 6, kw2 := 30 }),
     (0x70008A800031C4DE, .vmov p { td := 17, ta := 10, rnd := 3, kd := 3, kw0 := 17, kw1 := 6, kw2 := 30 }),
     (0x80008A800031C4DE, .vcvt p { td := 17, ta := 10, rnd := 3, kd := 3, kw0 := 17, kw1 := 6, kw2 := 30 }),
     (0x84008AAA0031C4DE, .vcvtq p { td := 17, ta := 10, tb := 21, rnd := 3, kd := 3, kw0 := 17, kw1 := 6, kw2 := 30 }),
     (0x88008AAA0031C4DE, .vcvts p { td := 17, ta := 10, tb := 21, rnd := 3, kd := 3, kw0 := 17, kw1 := 6, kw2 := 30 }),
     (0x8C008A8008F1C4DE, .vreshape p { td := 17, ta := 10, sx := 35, rnd := 3, kd := 3, kw0 := 17, kw1 := 6, kw2 := 30 }),
     (0x90008A800031C4DE, .vtrans p { td := 17, ta := 10, rnd := 3, kd := 3, kw0 := 17, kw1 := 6, kw2 := 30 }),
     (0x94008A8008F1C4DE, .vcast p { td := 17, ta := 10, sx := 35, rnd := 3, kd := 3, kw0 := 17, kw1 := 6, kw2 := 30 }),
     (0xA0008A800031C4DE, .vrsum p { td := 17, ta := 10, rnd := 3, kd := 3, kw0 := 17, kw1 := 6, kw2 := 30 })] = true := by cases p <;> decide +kernel
theorem test_vWords_4 (p : Pipe) : allRead p.slot
    [(0xA4008A800031C4DE, .vrmax p { td := 17, ta := 10, rnd := 3, kd := 3, kw0 := 17, kw1 := 6, kw2 := 30 }),
     (0xA8008A800031C4DE, .vrmin p { td := 17, ta := 10, rnd := 3, kd := 3, kw0 := 17, kw1 := 6, kw2 := 30 }),
     (0xAC008A800031C4DE, .vrargmax p { td := 17, ta := 10, rnd := 3, kd := 3, kw0 := 17, kw1 := 6, kw2 := 30 }),
     (0xB0008A8008F1C4DE, .vrdraw p { td := 17, ta := 10, sx := 35, rnd := 3, kd := 3, kw0 := 17, kw1 := 6, kw2 := 30 }),
     (0xB4008A800031C4DE, .vrlse p { td := 17, ta := 10, rnd := 3, kd := 3, kw0 := 17, kw1 := 6, kw2 := 30 }),
     (0xB8008A800031C4DE, .vscan p { td := 17, ta := 10, rnd := 3, kd := 3, kw0 := 17, kw1 := 6, kw2 := 30 }),
     (0xBC008AAA0031C4DE, .vdmerge p { td := 17, ta := 10, tb := 21, rnd := 3, kd := 3, kw0 := 17, kw1 := 6, kw2 := 30 }),
     (0xC0008AAA0031C4DE, .vcompact p { td := 17, ta := 10, tb := 21, rnd := 3, kd := 3, kw0 := 17, kw1 := 6, kw2 := 30 }),
     (0xC4008AAA0031C4DE, .vperm p { td := 17, ta := 10, tb := 21, rnd := 3, kd := 3, kw0 := 17, kw1 := 6, kw2 := 30 }),
     (0xC8008AAA08F1C4DE, .vroute p { td := 17, ta := 10, tb := 21, sx := 35, rnd := 3, kd := 3, kw0 := 17, kw1 := 6, kw2 := 30 }),
     (0xCC008A8008F1C4DE, .vhist p { td := 17, ta := 10, sx := 35, rnd := 3, kd := 3, kw0 := 17, kw1 := 6, kw2 := 30 })] = true := by cases p <;> decide +kernel
theorem test_mWords_1 : allRead .m
    [(0x0000000000000000, .mNop), (0x062AA80011C4DE00, .mma { td := 17, ta := 10, tb := 21, flags := 1, kd := 3, kw0 := 17, kw1 := 6, kw2 := 30 }),
     (0x0A2AA80011C4DE00, .mmaz { td := 17, ta := 10, tb := 21, flags := 1, kd := 3, kw0 := 17, kw1 := 6, kw2 := 30 }),
     (0x0E2AA80011C4DE00, .mabsd { td := 17, ta := 10, tb := 21, flags := 1, kd := 3, kw0 := 17, kw1 := 6, kw2 := 30 }),
     (0x122AA80011C4DE00, .mmaxp { td := 17, ta := 10, tb := 21, flags := 1, kd := 3, kw0 := 17, kw1 := 6, kw2 := 30 }),
     (0x162AA80011C4DE00, .mminp { td := 17, ta := 10, tb := 21, flags := 1, kd := 3, kw0 := 17, kw1 := 6, kw2 := 30 }),
     (0x1A2A000021C4DE00, .mrank { td := 17, ta := 10, flags := 2, kd := 3, kw0 := 17, kw1 := 6, kw2 := 30 }),
     (0x1E2A000021C4DE00, .mrankc { td := 17, ta := 10, flags := 2, kd := 3, kw0 := 17, kw1 := 6, kw2 := 30 }),
     (0x222AA98011C4DE00, .msparse { td := 17, ta := 10, tb := 21, tx := 6, flags := 1, kd := 3, kw0 := 17, kw1 := 6, kw2 := 30 }),
     (0x2400A80011C4DE00, .mbload { tb := 21, flags := 1, kd := 3, kw0 := 17, kw1 := 6, kw2 := 30 })] = true := by decide +kernel
theorem test_cWords_1 : allRead .c
    [(0x0000000000000000, .cNop),
     (0x06356A46B6389BDD, .tload { t := 17, w := 171, sa := 20, sb := 35, hint := 91, stride := 29, kd := 3, kw0 := 17, kw1 := 6, kw2 := 30 }),
     (0x0A356A46B6389BDD, .tstore { t := 17, w := 171, sa := 20, sb := 35, hint := 91, stride := 29, kd := 3, kw0 := 17, kw1 := 6, kw2 := 30 }),
     (0x0E356A46B6389BDD, .tloads { t := 17, w := 171, sa := 20, sb := 35, hint := 91, stride := 29, kd := 3, kw0 := 17, kw1 := 6, kw2 := 30 }),
     (0x12356A46B6389BDD, .tstores { t := 17, w := 171, sa := 20, sb := 35, hint := 91, stride := 29, kd := 3, kw0 := 17, kw1 := 6, kw2 := 30 }),
     (0x14156A46B6389BDD, .cpin { w := 171, sa := 20, sb := 35, hint := 91, stride := 29, kd := 3, kw0 := 17, kw1 := 6, kw2 := 30 }),
     (0x18156A46B6389BDD, .cpout { w := 171, sa := 20, sb := 35, hint := 91, stride := 29, kd := 3, kw0 := 17, kw1 := 6, kw2 := 30 }),
     (0x1E356A46B6389BDD, .gather { t := 17, w := 171, sa := 20, sb := 35, hint := 91, stride := 29, kd := 3, kw0 := 17, kw1 := 6, kw2 := 30 }),
     (0x22356A46B6389BDD, .scatter { t := 17, w := 171, sa := 20, sb := 35, hint := 91, stride := 29, kd := 3, kw0 := 17, kw1 := 6, kw2 := 30 }),
     (0x24156A46B6389BDD, .preft { w := 171, sa := 20, sb := 35, hint := 91, stride := 29, kd := 3, kw0 := 17, kw1 := 6, kw2 := 30 }),
     (0x42200A4600389BC0, .send { t := 17, sa := 20, sb := 35, kd := 3, kw0 := 17, kw1 := 6, kw2 := 30 }),
     (0x46200A4600389BC0, .recv { t := 17, sa := 20, sb := 35, kd := 3, kw0 := 17, kw1 := 6, kw2 := 30 }),
     (0x4A200A4600389BC0, .recvadd { t := 17, sa := 20, sb := 35, kd := 3, kw0 := 17, kw1 := 6, kw2 := 30 }),
     (0x4E200A4600389BC0, .recvdraw { t := 17, sa := 20, sb := 35, kd := 3, kw0 := 17, kw1 := 6, kw2 := 30 }),
     (0x5220AA4600389BC0, .mcast { t := 17, w := 5, sa := 20, sb := 35, kd := 3, kw0 := 17, kw1 := 6, kw2 := 30 })] = true := by decide +kernel
theorem test_cWords_2 : allRead .c
    [(0x54000A4600389BC0, .amsg { sa := 20, sb := 35, kd := 3, kw0 := 17, kw1 := 6, kw2 := 30 }),
     (0x5A20AA4600389BC0, .ttset { t := 17, w := 5, sa := 20, sb := 35, kd := 3, kw0 := 17, kw1 := 6, kw2 := 30 }),
     (0x5C00AA4600389BC0, .ttfire { w := 5, sa := 20, sb := 35, kd := 3, kw0 := 17, kw1 := 6, kw2 := 30 }),
     (0x8015600002389BC0, .ctload { w := 171, hint := 1, kd := 3, kw0 := 17, kw1 := 6, kw2 := 30 })] = true := by decide +kernel

/-! Ill-formed terms, one for each check of `wellFormed`. -/
theorem test_illFormed_scalar :
    [Instr.shli 9 20 64, .shri 9 20 64, .srai 9 20 4095, .sysr 9 0x7, .sysw 9 0x35].all (fun i => !wellFormed i) = true := by decide +kernel
theorem test_illFormed_g :
    [Instr.ld64 { hint := 0x80 }, .ldp { sb := 8 }, .aadd { hint := 7 }, .acas { sd := 3 }, .fence { sa := 1 }, .drain { hint := 8 },
      .acq { stride := 1 }, .pref { sd := 1 }, .prefw { stride := 1 }, .pin { sd := 8 }, .unpin { sd := 1 }, .invl { sd := 1 },
      .invlAll { sd := 1, sa := 1 }, .wback { hint := 1 }, .binit { hint := 1 }, .bexpect { stride := 1 }, .lrec { sd := 9 }, .btest { sd := 8 },
      .setf { hint := 1 }, .sete { sd := 1 }, .testf { sd := 8 }].all (fun i => !wellFormed i) = true := by decide +kernel
theorem test_illFormed_g2 :
    [Instr.qsplit {}, .qjoin { sd := 8 }, .qret { sd := 2 }, .qretQw { sd := 1, sa := 1 }, .qwait { sd := 8 }, .qread { disp := 3 },
      .spawn { disp := 16 }, .lcommit { sd := 1 }, .subscrPush { sd := 16, disp := 1 }, .subscrPush {}, .subscrPull { sd := 15, disp := 1 },
      .subscrPull { sd := 16, disp := 0x800000 }, .subcan { sd := 16 }, .slotdone { sd := 16 }, .rseed { sd := 1 }, .rnext { sa := 1 },
      .escal { sb := 1 }].all (fun i => !wellFormed i) = true := by decide +kernel
theorem test_illFormed_v (p : Pipe) :
    [Instr.vadd p { op2 := 16 }, .vadd p { op3 := 1 }, .vadd p { op2 := 15, op3 := 6 }, .vadd p { op2 := 6, tc := 1 }, .vadd p { op2 := 1, sx := 1 },
      .vfma p { op2 := 6, op3 := 1 }, .vfma p { op2 := 6, sx := 1 }, .vabs p { tb := 1 }, .vand p { op2 := 1 }, .vand p { sx := 1 },
      .vcmp p { tc := 1 }, .vbcast p { ta := 1 }, .vmov p { tb := 1 }, .vcvtq p { sx := 1 }, .vhist p { tb := 1 }].all (fun i => !wellFormed i) = true := by
  cases p <;> decide +kernel
theorem test_illFormed_mc :
    [Instr.mma { tx := 1 }, .mma { flags := 2 }, .mma { imm := 1 }, .mma { sx := 1 }, .mrank { tb := 1 }, .mrank { flags := 1 }, .msparse { flags := 2 }, .mbload { td := 1 },
      .tload { hint := 0x80 }, .cpin { t := 1 }, .ctload { sa := 1 }, .ctload { hint := 2 }, .send { w := 1 }, .send { stride := 1 }, .mcast {}, .ttset { hint := 1 },
      .amsg { t := 1 }, .ttfire { t := 1 }].all (fun i => !wellFormed i) = true := by decide +kernel
theorem test_illFormed_events :
    [Instr.frozenWrite 1280, .matrixOpStart 160, .vectorOpStart 160 .p1, .coreReset 160 true, .translationWalk 4 0, .rootReturn 4 0].all (fun i => !wellFormed i) = true := by
  decide +kernel
/-- A reserved opcode is ILLEGAL_OP, a nonzero unused field ILLEGAL_ENCODING (06 R108, R115). -/
theorem test_reserved :
    (∀ x ∈ [(Slot.x, 0x18000000), (.x, 0xFF000000), (.g, 0x0D00000000000000), (.g, 0x6A00000000000000), (.v0, 0x7400000000000000), (.v0, 0xD000000000000000),
        (.m, 0x2800000000000000), (.c, 0x2800000000000000), (.c, 0x8400000000000000)], decodeSlot x.1 (BitVec.ofNat 64 x.2) = .error .illegalOp) ∧
      ∀ x ∈ [(Slot.x, 1), (.x, 0x01000001), (.g, 1), (.v1, 1), (.m, 1), (.c, 1)], decodeSlot x.1 (BitVec.ofNat 64 x.2) = .error .illegalEncoding :=
  ⟨by intro x hx; simp only [List.mem_cons, List.not_mem_nil, or_false] at hx; rcases hx with h | h | h | h | h | h | h | h | h <;> (subst h; rfl),
   by intro x hx; simp only [List.mem_cons, List.not_mem_nil, or_false] at hx; rcases hx with h | h | h | h | h | h <;> (subst h; rfl)⟩

/-! One step of a machine that holds one instruction. -/
/-- Context 0 after one step from reset over the bundle of this X word, and whether its pc moved on. -/
def xStep {α : Type} (w : Nat) (f : Ctx → α) : Option (α × Bool) :=
  match step (State.reset.withFetchWord 64 (1 + 2 ^ 32 * w)) with
  | .next t => some (f (t.m.ctx 0), (t.m.ctx 0).pc == 0x10008)
  | _ => none
/-- LI s10, 100 (07 R132). -/
theorem test_li : xStep 0x28280064 (·.regAt 10) = some (100, true) := by decide +kernel
/-- LI s10, -1 is sign-extended. -/
theorem test_li_negative : xStep 0x282BFFFF (·.regAt 10) = some (0xFFFFFFFFFFFFFFFF, true) := by decide +kernel
/-- ADDI s9, s0, -1 wraps below zero (07 R131). -/
theorem test_addi_wraps : xStep 0x20240FFF (·.regAt 9) = some (0xFFFFFFFFFFFFFFFF, true) := by decide +kernel
/-- CLZ of zero is 64 (07 R129). -/
theorem test_clz_zero : xStep 0x14240000 (·.regAt 9) = some (64, true) := by decide +kernel
/-- DIV by zero is all ones, and is not there yet after one step (07 R122, R128). -/
theorem test_div_zero :
    xStep 0x0C240000 (fun c => c.frozen.map fun f => (f.reg, f.val)) = some ([(.s 9, 0xFFFFFFFFFFFFFFFF)], true) := by decide +kernel
/-- CMPEQ p5, s0, s0 is true (07 R133). -/
theorem test_cmpeq : xStep 0x30140000 (fun c => c.preds) = some (0x21, true) := by decide +kernel
/-- A write to s0 is dropped (06 R107). -/
theorem test_s0 : xStep 0x28000064 (fun c => (c.regAt 0, c.frozen)) = some ((0, []), true) := by decide +kernel
/-- END with nothing under way releases its context at the drain, whose move comes next (07 R138). -/
theorem test_end : (match step (State.reset.withFetchWord 64 (1 + 2 ^ 32 * 0x66000000)) with | .next t => (t.m.ctx 0).life != .running | _ => false) = true := by
  decide +kernel
/-- Reset memory is canonical. -/
theorem test_reset_wf : (Memory.wf State.reset.m.mem && Memory.wf State.reset.m.hostMem && Memory.wf State.reset.m.scratch) = true := by decide +kernel

/-! A small machine: one launch with one seat of two contexts on core 0, code at 0x10000, a 1 GiB page at address 0. -/
/-- A word of two extents in the format `f`. -/
def word2 (f a b : Nat) : TypeWord := mkType [a, b] f 0 0 0 false
def testWindows : Mp Window :=
  [(0, { base := 0x3000, bound := 20, access := 3 }),
   (1, { base := 0x40000, ty := word2 2 4 4, s0 := 8, s1 := 2, bound := 4096, access := 2 }),
   (2, { base := 0x50000, ty := mkType [16] 2 0 0 0 false, s0 := 2, bound := 4096, access := 1 })]
def testKernel : Kernel :=
  { placedKernel with contexts := 2, handler := some 8, typeBase := 0x30000, typeCount := 3, entries := [0, 8], spill := 0,
                      rings := [{ id := 0, fed := true, slots := 2, bytes := 1024 }] }
def testLaunch : Launch :=
  { placedLaunch with kernel := testKernel, windows := testWindows, seats := [{ placedSeat with ctxs := [0, 1], size := 8192 }],
                      gx := 2, gy := 1, gz := 1 }
/-- Context 0: addresses in s10 to s19, a weight in QW, tiles with types. -/
def testCtx : Ctx :=
  { placedCtx with
    launch := some 0, ctxsPer := 2, tilesPer := 8
    regs := [(10, 0x1000), (11, 0x1001), (12, 0x01F0000000000000), (13, 0x40), (14, 0x10010), (15, 5), (16, 0x00FFFFFFFFFFFFFF), (17, 0x0008), (18, 17), (19, 0x10000), (20, 60), (21, 1), (22, 2), (23, 0x01F8000000000000), (24, 0x400000000), (25, 0x01F0000000000080), (26, 1), (27, 0x00040002), (28, 0x400000400000001)]
    qw := mkWeight 0 64
    qwRoot := { device := 0, domain := 0, gtag := 1 } }
/-- A bundle of 8 bytes at 0x10000 and at 0x10008, and one at 0x10010 whose header repeats. -/
def testMach : Mach :=
  let m := ({} : Mach).placeCode [1, 0, 0, 0, 0, 0, 0, 0, 1, 0, 0, 0, 0, 0, 0, 0, 1, 1, 0, 0]
  let m := { m with mem := cputN m.mem placedMap [0x15, 0] }
  let m := { m with mem := cputN m.mem 0x30000 (leBytes 48 ((word2 9 4 4 ++ word2 1 2 8) ++ word2 2 4 4).toNat) }
  { m with launches := [testLaunch], ctxs := [(0, testCtx)] }
/-- A bundle of one slot, about to issue in context 0. -/
def T : State := { m := testMach }
theorem drained_of (s : State) (h : (me s).out = []) : Drained s := by simp [Drained, h]
/-- The same with the context changed. -/
def Tc (f : Ctx → Ctx) : State := { m := testMach.modCtx 0 f }
/-- In handler mode, entered from the bundle at 0x10008. -/
def H : State := Tc fun c => { c with handler := true, entry := some .other, faultPc := 0x10008 }

theorem open_of (s : State) (r : RegRef) (h : ∀ q ∈ r.dest?.toList, q ∉ (me s).pend ∧ ∀ w ∈ (me s).frozen, w.reg ≠ q) : Open s r :=
  fun q hq => h q (by simp [hq])
theorem writable_of (s : State) (r : RegRef) (h : ∀ q ∈ r.dest?.toList, q ∉ (me s).pend) : Writable s r :=
  fun q hq => h q (by simp [hq])
theorem legal_of (s : State) (a : Word) (rep : Bool) (h : ((myLaunch s).all fun l => (targetFault s.m l a rep).isNone) = true) :
    LegalTarget s a rep := fun l hl => by simpa [hl] using h
/-- An answer of a check that is good. -/
def good {ε α : Type} : Except ε α → Bool
  | .ok _ => true
  | .error _ => false
theorem good_ok {ε α : Type} {x : Except ε α} (h : good x = true) : ∃ a, x = .ok a := by cases x <;> simp_all [good]
theorem good_error {ε α : Type} {x : Except ε α} (h : good x = false) : ∃ a, x = .error a := by cases x <;> simp_all [good]

theorem locs_of {r : Res} (h : (match r with | .locs _ => true | _ => false) = true) : ∃ ls, r = .locs ls := by
  cases r <;> simp_all
theorem fault_of {r : Res} (h : (match r with | .fault _ => true | _ => false) = true) : ∃ f, r = .fault f := by
  cases r <;> simp_all

/-! Hypotheses met: the X slot. -/
theorem witness_RegisterRegister : Solo T ∧ Free T (reg T 10) ∧ Free T (reg T 11) ∧ Free T (reg T 0) := by unfold Solo Free; decide +kernel
theorem witness_PendingStalls :
    let s := Tc fun c => { c with pend := [.s 5] }
    Solo s ∧ ¬Free s (reg s 5) ∧ ∃ r, (reg s 5).dest? = some r ∧ ¬Free s r :=
  ⟨rfl, by unfold Free; decide +kernel, .s 5, rfl, by unfold Free; decide +kernel⟩
theorem witness_ImmediateForms : Solo T ∧ Free T (reg T 10) ∧ Free T (reg T 11) ∧ Free T (reg T 5) ∧ Free T (pref 1) := by unfold Solo Free; decide +kernel
theorem witness_CountBits : Solo T ∧ Free T (reg T 10) ∧ Free T (reg T 5) := by unfold Solo Free; decide +kernel
theorem witness_ComparesAndPredicates : Solo T ∧ Free T (reg T 10) ∧ Free T (reg T 11) ∧ Free T (pref 0) ∧ Free T (pref 7) := by unfold Solo Free; decide +kernel
theorem witness_ScalarFp32 : Solo T ∧ Free T (reg T 10) ∧ Free T (reg T 11) ∧ Free T (reg T 5) ∧ Free T (pref 1) := by unfold Solo Free; decide +kernel
theorem witness_Branches :
    Solo T ∧ LegalTarget T ((me T).pc + jump20 2) true ∧ LegalTarget T ((me T).pc + jump12 2) true ∧ (me T).p 1 ≠ true ∧ (me T).s 10 - 1 ≠ 0 ∧
      Free T (reg T 63) ∧ Free T (pref 1) ∧ LegalTarget T ((me (Tc fun c => { c with pc := 0x1000 })).s 14 - 8) true ∧ LegalTarget T ((me T).s 14) false :=
  ⟨rfl, legal_of _ _ _ (by decide +kernel), legal_of _ _ _ (by decide +kernel), by decide +kernel, by decide +kernel, by unfold Free; decide +kernel, by unfold Free; decide +kernel,
   legal_of _ _ _ (by decide +kernel), legal_of _ _ _ (by decide +kernel)⟩
theorem witness_IllegalTargets :
    Solo T ∧ (me T).issued = false ∧ myLaunch T = some testLaunch ∧
      targetFault T.m testLaunch ((me T).pc + jump20 1) true = some { cause := 0x03, addr := 0x10004, info := 0 } ∧
      targetFault T.m testLaunch ((me T).s 14) true = some { cause := 0x03, addr := 0x10010, info := 1 } ∧
      targetFault T.m testLaunch ((me T).s 11) false = some { cause := 0x03, addr := 0x1001, info := 0 } := by
  refine ⟨rfl, rfl, ?_, ?_, ?_, ?_⟩ <;> decide +kernel
theorem witness_EndDrains : Solo T := rfl
theorem witness_TrapsEnterHandler : Solo T ∧ HasHandler T 0x10008 ∧ (me T).handler = false ∧ ∃ t, exec (.trap 7) T = .next t :=
  ⟨rfl, ⟨testLaunch, by decide +kernel, by decide +kernel⟩, rfl, _, rfl⟩
theorem witness_WaitkTokens :
    Solo T ∧ waitsFor T [1, 2, 31] = false ∧
      let s := Tc fun c => { c with tokens := [(31, 9)] }
      Solo s ∧ waitsFor s [0, 0, 31] = true ∧ waitsFor s [1, 2, 0] = false := by unfold Solo; decide +kernel
theorem witness_IdleWaits :
    Solo T ∧ Free T (reg T 12) ∧ (∃ k rest, scratchAt T.m 0 ((me T).s 12).toNat 1 false = .locs (.scratch k :: rest)) ∧
      (me T).idleMet = false ∧ T.m.fullAt (lineOfKey 0) = false ∧
      (let s : State := { T with m := { testMach with full := [(lineOfKey 0, true)] } }
       (me s).idleAt = none ∧ s.m.fullAt (lineOfKey 0) = true) ∧
      underReset T.m T.issue.cx [.scratch 0] = false ∧ (me T).out = [] ∧ (me (Tc fun c => { c with idleMet := true })).idleMet = true ∧
      ((me T).s 16).toNat < localBase ∧
      T.m.qGet (((me T).s 15).toNat % 4096) 16 8 = ((me T).s 5).toNat ∧ T.m.qGet (((me T).s 15).toNat % 4096) 16 8 ≠ ((me T).s 13).toNat ∧
      T.m.qFailure (((me T).s 15).toNat % 4096) = none ∧
      (({ T.m with errs := [.hbm (T.m.qAddr (((me T).s 15).toNat % 4096))] } : Mach).qFailure (((me T).s 15).toNat % 4096)).isSome = true :=
  ⟨rfl, by unfold Free; decide +kernel, ⟨0, [], rfl⟩, rfl, by decide +kernel, by decide +kernel, by decide +kernel, rfl, rfl, by decide +kernel, by decide +kernel,
   by decide +kernel, by decide +kernel, by decide +kernel⟩
/-- The launch with a second seat on core 1, which is under reset; s12 names its region. -/
def resetPeer : State :=
  let l := { testLaunch with seats := [{ placedSeat with ctxs := [0, 1], size := 8192 }, { placedSeat with no := 1, core := 1, ctxs := [8], size := 4096, first := false }] }
  let m := testMach.modCtx 0 fun c => c.setRef (.s 12) 0x01F1000000400000
  { m := { m with launches := [l], cores := [(1, { inReset := true })] } }
theorem witness_IdleWaits_reset :
    Solo resetPeer ∧ Free resetPeer (reg resetPeer 12) ∧ (me resetPeer).idleMet = false ∧
      scratchAt resetPeer.m resetPeer.issue.cx ((me resetPeer).s 12).toNat 1 false = .locs [.scratch scratchSize] ∧
      underReset resetPeer.m resetPeer.issue.cx [.scratch scratchSize] = true :=
  ⟨rfl, by unfold Free; decide +kernel, rfl, by rfl, by decide +kernel⟩
theorem witness_SystemRegisters : Solo T ∧ Open T (reg T 5) ∧ Solo H ∧ (me H).handler = true ∧ Free H (reg H 10) :=
  ⟨rfl, open_of _ _ (by decide +kernel), rfl, rfl, by unfold Free; decide +kernel⟩
theorem witness_PrivilegeInTaskMode : Solo T ∧ (me T).handler = false := ⟨rfl, rfl⟩
theorem witness_ReturnFromHandler_drains : (me (Tc fun c => { c with handler := true, entry := some .other, drains := true })).drains = true := rfl
theorem witness_ReturnFromHandler :
    Solo H ∧ (me H).handler = true ∧ (me H).entry = some .other ∧ HandlerOpsDone H ∧
      (∀ l sr, myLaunch H = some l → l.seatOf H.issue.cx = some sr → sr.resident = true) ∧ (me H).drains = false ∧
      LegalTarget H (me H).faultPc false ∧
      LegalTarget H ((me H).faultPc + BitVec.ofNat 64 (bundleLength (decodeHeader (BitVec.ofNat 32 (H.m.devNat (me H).faultPc.toNat 4))))) false := by
  refine ⟨rfl, rfl, rfl, by unfold HandlerOpsDone; decide +kernel, ?_, rfl, legal_of _ _ _ (by decide +kernel), legal_of _ _ _ (by decide +kernel)⟩
  intro l sr h1 h2
  cases (show some testLaunch = some l from (by decide +kernel : myLaunch H = some testLaunch).symm.trans h1)
  have h3 : ((testLaunch.seatOf H.issue.cx).all fun x => x.resident) = true := by decide +kernel
  simpa [h2] using h3
theorem witness_ContextItems :
    Solo H ∧ (me H).handler = true ∧ Free H (reg H 20) ∧ Free H (reg H 10) ∧ Open H (reg H 5) ∧
      ctxItem ((me H).s 20) = some (.reg 60) ∧ Free H (.s 60) ∧ ctxItem ((me H).s 16) = none ∧ BankIdle H (ctxItem ((me H).s 20)) := by
  refine ⟨rfl, rfl, by unfold Free; decide +kernel, by unfold Free; decide +kernel, open_of _ _ (by decide +kernel), by decide +kernel, by unfold Free; decide +kernel, by decide +kernel, ?_⟩
  unfold BankIdle
  intro i hi
  exact absurd (hi.symm.trans (by decide +kernel : ctxItem ((me H).s 20) = some (.reg 60))) (by simp)
theorem witness_ReplayQueues :
    Solo H ∧ (me H).handler = true ∧ Free H (reg H 11) ∧ Open H (reg H 20) ∧ (me H).awaitX = none ∧ ((me H).s 11).toNat % 64 ≠ 0 ∧
      ((me H).s 13).toNat % 64 = 0 ∧ shadowFault H.m ((me H).s 13) (me H).shadow ((me H).launch.getD 0) = none ∧
      ((me H).s 19).toNat % 64 = 0 ∧ (shadowFault H.m ((me H).s 19) (me H).shadow ((me H).launch.getD 0)).isSome = true ∧
      (me H).issued = false ∧ (me (Tc fun c => { c with handler := true, issued := true })).issued = true ∧
      ∀ a ∈ [some Await.asked, some (.answered true false 2)], (me (Tc fun c => { c with handler := true, awaitX := a })).awaitX = a :=
  ⟨rfl, rfl, by unfold Free; decide +kernel, open_of _ _ (by decide +kernel), rfl, by decide +kernel, by decide +kernel, by decide +kernel, by decide +kernel,
   by decide +kernel, rfl, rfl, fun _ _ => rfl⟩
/-- A block at 0x50000 with one entry, an MMAZ of tiles 16, 0 and 8; with `full`, the queue of the matrix engine has no room. -/
def replayMach (full : Bool) : Mach :=
  let m := { testMach with mem := cputN (cputN testMach.mem 0x50000 (leBytes 2 1)) 0x50040 (leBytes 8 1 ++ leBytes 8 0x0A00400001800000) }
  if full then m.modCore 0 fun c => { c with ops := List.replicate 16 { newOp (.mma { td := 17, ta := 0, tb := 11 }) with cx := 1, q := .m } } else m
/-- The entry queues where the queue has room, and waits where it has none. -/
theorem witness_ReplayQueues_entries : ∀ b ∈ [true, false],
    fld ((replayMach b).devRead 0x50000 2) 0 2 = 1 ∧ fld ((replayMach b).devRead (0x50000 + 64 + 256 * 0) 256) 0 1 % 2 = 1 ∧
      ((opOfEntry ((replayMach b).ctx 0) 0 ((replayMach b).devRead (0x50000 + 64 + 256 * 0) 256)).any
        fun o => (replayMach b).queueRoom 0 o.q == !b) = true ∧
      (replayFrom 0 0x50000 1 113 (replayMach b) 0 0).2.1 = if b then 0 else 1 := by decide +kernel

/-! The type instructions. -/
/-- Tiles of 4 x 4: 0 and 11 BF16, 1 and 17 FP32, 2 and 12 INT32, 3 a mask, 6 DRAW64, 8 INT8, 9 scaled INT8, 18 BF16 with a symbolic extent;
5 INT32 of 4, 10 FP32 of 4 x 1; 16 and 24 none.  Bobbin 1 is bound to 5. -/
def tileWords : List (Nat × TypeWord) :=
  [(0, word2 2 4 4), (1, word2 1 4 4), (2, word2 9 4 4), (3, word2 0x0F 4 4), (5, mkType [4] 9 0 0 0 false), (6, word2 0x13 4 4),
   (8, word2 0x0B 4 4), (9, mkType [4, 4] 0x0B 0 2 0 false), (10, word2 1 4 1), (11, word2 2 4 4), (12, word2 9 4 4), (17, word2 1 4 4),
   (18, word2 2 4 (0x800000 + 4 * 16))]
def typed : Ctx → Ctx := fun c =>
  tileWords.foldl (fun c x => c.setWord x.1 x.2) { c with bobbins := [(1, { bound := true, value := 5 })] }
def Y : State := Tc typed
/-- The word that an entry of the table reads as. -/
def testConst (s : State) (i : Nat) : TypeWord := match typeRead s i with | .ok w => w | .error _ => 0
theorem const_of (s : State) (i : Nat) (h : (!(me s).issued && good (typeRead s i)) = true) : ConstIs s i (testConst s i) := by
  unfold ConstIs testConst
  cases e : typeRead s i <;> simp_all [good]
/-- In `Y` every tile is in the share of its context; with two tiles a bank, tile 2 is not. -/
theorem witness_TypeInstalls :
    Solo Y ∧ ConstIs Y 0 (testConst Y 0) ∧ OwnTile Y 16 ∧ (∀ row ∈ installs Y 16 0 (testConst Y 0) 10 11, ∀ r ∈ row.2.2, Free Y r) ∧
      (∃ u, (bobbinsOf Y).checkWord (wordOf Y 0) = .ok u) ∧ (∃ f, (bobbinsOf Y).checkWord (word2 2 0x7FFFFF 0x7FFFFF) = .error f) ∧
      (let s := Tc fun c => { c with tilesPer := 2 }
       Solo s ∧ ¬OwnTile s 2 ∧ ConstIs s 0 (testConst s 0) ∧ ∀ row ∈ installs s 2 0 (testConst s 0) 10 11, ∀ r ∈ row.2.2, Free s r) :=
  ⟨rfl, const_of _ _ (by decide +kernel), by unfold OwnTile; decide +kernel, by unfold Free; decide +kernel, good_ok (by decide +kernel), good_error (by decide +kernel),
   rfl, by unfold OwnTile; decide +kernel, const_of _ _ (by decide +kernel), by unfold Free; decide +kernel⟩
theorem witness_TypeReads :
    Solo Y ∧ OwnTile Y 18 ∧ Free Y (reg Y 5) ∧ Free Y (reg Y 10) ∧ Free Y (pref 1) ∧
      ConstIs Y ((me Y).s 0).toNat (testConst Y ((me Y).s 0).toNat) ∧ ConstIs Y ((me Y).s 10).toNat (testConst Y ((me Y).s 10).toNat) ∧
      (∃ e, tchkSeq (bobbinsOf Y) (testConst Y ((me Y).s 0).toNat) (wordOf Y 0) 15 = .ok e) ∧
      (∃ e, tchkSeq (bobbinsOf Y) (testConst Y ((me Y).s 10).toNat) (wordOf Y 0) 15 = .error e) :=
  ⟨rfl, by unfold OwnTile; decide +kernel, by unfold Free; decide +kernel, by unfold Free; decide +kernel, by unfold Free; decide +kernel, const_of _ _ (by decide +kernel),
   const_of _ _ (by decide +kernel), good_ok (by decide +kernel), good_error (by decide +kernel)⟩
theorem witness_Bobbins :
    Solo Y ∧ Free Y (reg Y 15) ∧ ((me Y).s 15).toNat ≤ 0x7FFFFF ∧ (mget ({} : Bobbin) (me Y).bobbins 0).bound = false ∧
      (mget ({} : Bobbin) (me Y).bobbins 1).value.toNat = ((me Y).s 15).toNat ∧ (mget ({} : Bobbin) (me Y).bobbins 1).bound = true ∧
      Free Y (reg Y 18) ∧ (mget ({} : Bobbin) (me Y).bobbins 1).value.toNat ≠ ((me Y).s 18).toNat := by
  unfold Solo Free; decide +kernel

/-! The G slot. -/
theorem witness_NopsRetire : Solo T := rfl
/-- s10 names device memory at a page, s23 the notify register of die 0, s16 an address past the global range. -/
theorem witness_Loads :
    Solo T ∧ AddrFree T { sd := 5, sa := 10 } ∧ Open T (reg T 5) ∧ (∀ row ∈ loadTable, numOf T { sd := 5, sa := 10 } % row.2.2 = 0 ∧
      ∃ ls, namesAt T { sd := 5, sa := 10 } row.2.2 .read = .locs ls) ∧
      numOf T { sa := 23 } % 8 = 0 ∧ namesAt T { sa := 23 } 8 .read = .notifyReg 0 0 := by
  refine ⟨rfl, by unfold AddrFree Free; decide +kernel, open_of _ _ (by decide +kernel), ?_, by decide +kernel, by decide +kernel⟩
  intro row h
  simp only [loadTable, List.mem_cons, List.not_mem_nil, or_false] at h
  rcases h with rfl | rfl | rfl | rfl | rfl | rfl | rfl <;> exact ⟨by decide +kernel, locs_of (by decide +kernel)⟩
theorem witness_Stores :
    Solo T ∧ AddrFree T { sd := 15, sa := 10 } ∧ Free T (reg T 15) ∧ (∀ row ∈ storeTable, numOf T { sd := 15, sa := 10 } % row.2.1 = 0 ∧
      ∃ ls, namesAt T { sd := 15, sa := 10 } row.2.1 .write = .locs ls) ∧
      numOf T { sa := 23 } % 8 = 0 ∧ namesAt T { sa := 23 } 8 .write = .notifyReg 0 0 := by
  refine ⟨rfl, by unfold AddrFree Free; decide +kernel, by unfold Free; decide +kernel, ?_, by decide +kernel, by decide +kernel⟩
  intro row h
  simp only [storeTable, List.mem_cons, List.not_mem_nil, or_false] at h
  rcases h with rfl | rfl | rfl | rfl | rfl <;> exact ⟨by decide +kernel, locs_of (by decide +kernel)⟩
theorem witness_AccessFaults :
    Solo T ∧ AddrFree T { sd := 5, sa := 11 } ∧ Open T (reg T 5) ∧ Free T (reg T 5) ∧ Free T (reg T 6) ∧ numOf T { sd := 5, sa := 11 } % 8 ≠ 0 ∧
      numOf T { sd := 5, sa := 16, disp := 1 } % 8 = 0 ∧ (∃ f, namesAt T { sd := 5, sa := 16, disp := 1 } 8 .read = .fault f) ∧
      (∃ f, namesAt T { sd := 5, sa := 16, disp := 1 } 8 .write = .fault f) ∧
      (let m := { testMach with mem := cputN testMach.mem placedTable (leBytes 8 0x3F), cores := [(0, { tlb := [⟨0, 2 ^ 30, 0x3F⟩] })] }
       ∃ ls, namesAt { m := m } { sd := 5, sa := 10 } 8 .write = .locs ls ∧ reachesHost ls = true) :=
  ⟨rfl, by unfold AddrFree Free; decide +kernel, open_of _ _ (by decide +kernel), by unfold Free; decide +kernel, by unfold Free; decide +kernel, by decide +kernel, by decide +kernel,
   fault_of (by decide +kernel), fault_of (by decide +kernel), _, rfl, by decide +kernel⟩
/-- Window 0 is a parameter window of 20 bytes: offsets 8, 16 and 64; window 1 is none, window 9 is unbound. -/
theorem witness_ParameterLoads :
    Solo T ∧ Free T (reg T 0) ∧ Open T (reg T 5) ∧ (windowOf T 9).access = 0 ∧ (windowOf T 1).access ≠ 0 ∧ (windowOf T 1).access ≠ 3 ∧
      (windowOf T 0).access = 3 ∧ 12 + 2 ^ 3 ≤ (windowOf T 0).bound.toNat ∧ 16 < (windowOf T 0).bound.toNat ∧ (windowOf T 0).bound.toNat < 16 + 2 ^ 3 ∧
      (windowOf T 0).bound.toNat ≤ 20 ∧ (∃ ls, resolveAt T.m 0 (0x3000 + 12) 8 [.read] = .locs ls) ∧
      ∃ ls, resolveAt T.m 0 (0x3000 + 16) 4 [.read] = .locs ls :=
  ⟨rfl, by unfold Free; decide +kernel, open_of _ _ (by decide +kernel), by decide +kernel, by decide +kernel, by decide +kernel, by decide +kernel, by decide +kernel, by decide +kernel, by decide +kernel, by decide +kernel,
   locs_of (by decide +kernel), locs_of (by decide +kernel)⟩
theorem witness_Atomics :
    Solo T ∧ AddrFree T { sd := 5, sa := 10 } ∧ Free T (reg T 5) ∧ Free T (reg T (5 + 1)) ∧ Open T (reg T 5) ∧
      (∃ ls, namesAt T { sd := 5, sa := 10 } 8 .write = .locs ls ∧ reachesHost ls = false) ∧
      (∃ ls, namesAt T { sd := 5, sa := 10 } 4 .write = .locs ls ∧ reachesHost ls = false) :=
  ⟨rfl, by unfold AddrFree Free; decide +kernel, by unfold Free; decide +kernel, by unfold Free; decide +kernel, open_of _ _ (by decide +kernel), ⟨_, rfl, by decide +kernel⟩, _, rfl, by decide +kernel⟩
theorem witness_Ordering :
    Solo T ∧ ¬((∃ o ∈ (T.m.core (coreOf T.issue.cx)).ops, o.cx = T.issue.cx) ∨ ∃ a ∈ (me T).out, a.isPrefetch = false) ∧
      (∃ a ∈ (me (Tc fun c => { c with out := [{ uid := 1, kind := .fence }] })).out, a.isPrefetch = false) ∧
      AddrFree T { sd := 5, sa := 10 } ∧ Open T (reg T 5) ∧ numOf T { sd := 5, sa := 10 } % 8 = 0 ∧ ∃ ls, namesAt T { sd := 5, sa := 10 } 8 .read = .locs ls :=
  ⟨rfl, by decide +kernel, by decide +kernel, by unfold AddrFree Free; decide +kernel, open_of _ _ (by decide +kernel), by decide +kernel, locs_of (by decide +kernel)⟩
/-- The range of 64 bytes at offset 0 of window 1. -/
theorem witness_LineInstructions :
    Solo T ∧ AddrFree T { sa := 10 } ∧ (∀ va, namesAt T { sa := 10 } 1 .read ≠ .miss va) ∧ globalTop ≤ numOf T { sa := 12 } ∧
      AddrFree T { sb := 13, hint := 1 } ∧ Open T (predOf { sd := 1 }) ∧ PinRange T { sb := 13, hint := 1 } [.hbm 0x40000] ∧ (windowOf T 9).access = 0 ∧
      (windowOf T 1).access ≠ 0 ∧ (windowOf T 1).bound.toNat < ((me T).s 18 + 0).toNat + ((me T).s 10).toNat := by
  refine ⟨rfl, by unfold AddrFree Free; decide +kernel, ?_, by decide +kernel, by unfold AddrFree Free; decide +kernel, open_of _ _ (by decide +kernel), ?_, by decide +kernel,
    by decide +kernel, by decide +kernel⟩
  · intro va h
    have : namesAt T { sa := 10 } 1 .read = .locs [.hbm 0x1000] := by decide +kernel
    exact absurd (this.symm.trans h) (by simp)
  · exact ⟨by decide +kernel, by decide +kernel, by decide +kernel, by rfl⟩
/-- A window whose first byte stands 16 below the top of the global space. -/
def topWindow : State :=
  { m := { testMach with launches := [{ testLaunch with windows := [(1, { base := 0x00FFFFFFFFFFFFF0, ty := word2 2 4 4, bound := 4096, access := 2 })] }] } }
theorem witness_LineInstructions_top :
    Solo topWindow ∧ AddrFree topWindow { sb := 13, hint := 1 } ∧ Open topWindow (predOf { sd := 1 }) ∧ (windowOf topWindow 1).access ≠ 0 ∧
      ((me topWindow).s 0 + 0).toNat + ((me topWindow).s 13).toNat ≤ (windowOf topWindow 1).bound.toNat ∧
      globalTop < pinAt topWindow { sb := 13, hint := 1 } + ((me topWindow).s 13).toNat :=
  ⟨rfl, by unfold AddrFree Free; decide +kernel, open_of _ _ (by decide +kernel), by decide +kernel, by decide +kernel, by decide +kernel⟩
theorem witness_FullBits :
    Solo T ∧ AddrFree T { sd := 1, sa := 12 } ∧ scratchByte T { sd := 1, sa := 12 } true 0 ∧ scratchByte T { sd := 1, sa := 12 } false 0 ∧
      Open T (predOf { sd := 1, sa := 12 }) :=
  ⟨rfl, by unfold AddrFree Free; decide +kernel, ⟨[], by decide +kernel⟩, ⟨[], by decide +kernel⟩, open_of _ _ (by decide +kernel)⟩
theorem witness_BarrierInstructions :
    Solo T ∧ AddrFree T { sd := 1, sa := 12 } ∧ Free T (reg T 1) ∧ Open T (predOf { sd := 1, sa := 12 }) ∧
      barObject T (numOf T { sd := 1, sa := 12 }) true = .ok (0, 0, true) ∧ barObject T (numOf T { sd := 1, sa := 12 }) false = .ok (0, 0, true) ∧
      (me T).bwait = none ∧ (T.m.barrier (scratchKey 0 0)).phase ≠ ((me T).s 15).getLsbD 0 ∧ ¬(T.m.barrier (scratchKey 0 0)).phase ≠ ((me T).s 1).getLsbD 0 ∧
      (∀ a ∈ (me T).out, a.blocksLater = false ∧ ∀ l ∈ a.locs, l ∉ keyLocs (scratchKey 0 0)) ∧ underReset T.m T.issue.cx (keyLocs (scratchKey 0 0)) = false ∧
      (me (Tc fun c => { c with bwait := some (0, true) })).bwait = some (0, true) ∧
      (∃ a ∈ (me (Tc fun c => { c with out := [{ uid := 1, kind := .fence, blocksLater := true }] })).out, a.blocksLater = true) ∧ (me T).await = none ∧
      (∃ f, barObject T (numOf T { sd := 1, sa := 10 }) true = .error f) ∧
      (me (Tc fun c => { c with await := some (.answered true false 0) })).await = some (.answered true false 0) ∧
      (me (Tc fun c => { c with await := some (.faulted { cause := 0x0B }) })).await = some (.faulted { cause := 0x0B }) :=
  ⟨rfl, by unfold AddrFree Free; decide +kernel, by unfold Free; decide +kernel, open_of _ _ (by decide +kernel), by rfl, by rfl, rfl, by decide +kernel, by decide +kernel, by decide +kernel, by decide +kernel, rfl,
   ⟨_, List.mem_singleton.2 rfl, rfl⟩, rfl, good_error (by decide +kernel), rfl, rfl⟩
theorem witness_WeightInstructions_wait : ¬Drained (Tc fun c => { c with out := [{ uid := 1, kind := .fence }] }) := by unfold Drained; decide +kernel
theorem witness_WeightInstructions :
    Solo T ∧ Drained T ∧ Writable T (reg T 5) ∧ (∃ k g, splitWeight (me T).qw = some (k, g)) ∧ splitWeight (mkWeight 15 1) = none ∧
      Free T (reg T 15) ∧ Writable T (pOf { sd := 1 }) ∧ Open T (reg T 5) :=
  ⟨rfl, drained_of _ rfl, writable_of _ _ (by decide +kernel), ⟨_, _, rfl⟩, by decide +kernel, by unfold Free; decide +kernel, writable_of _ _ (by decide +kernel), open_of _ _ (by decide +kernel)⟩
theorem witness_QuietWait :
    Solo T ∧ Drained T ∧ Writable T (pOf { sd := 1 }) ∧ (me T).await = none ∧ myLaunch T = some testLaunch ∧ testLaunch.rootRef T.m = (me T).qwRoot ∧
      wAmount (me T).qw ≠ 0 ∧
      (let s := Tc fun c => { c with qw := 0 }
       wAmount (me s).qw = 0 ∧ (s.m.root testLaunch.domain).waiter ≠ some s.issue.cx ∧ (s.m.root testLaunch.domain).granted ≠ some s.issue.cx) ∧
      (me (Tc fun c => { c with await := some (.answered true false 0) })).await = some (.answered true false 0) ∧
      (me (Tc fun c => { c with await := some (.answered false false 0) })).await = some (.answered false false 0) :=
  ⟨rfl, drained_of _ rfl, writable_of _ _ (by decide +kernel), rfl, by decide +kernel, by decide +kernel, by decide +kernel, by decide +kernel, rfl, rfl⟩
/-- A die whose spawn list is full: 65536 tasks of another launch. -/
def fullSpawns : Launch := { testLaunch with lid := 1, spawns := List.replicate spawnCap { x := 0, y := 0, z := 0 } }
theorem noReqs : ∀ r ∈ (T.m.die testLaunch.home).reqs, ∀ a b c, r ≠ .spawn a b c := fun r hr => by
  have h0 : (T.m.die testLaunch.home).reqs = [] := by decide +kernel
  rw [h0] at hr; cases hr
theorem witness_SchedulerRequests :
    Solo T ∧ myLaunch T = some testLaunch ∧ (me T).launch = some testLaunch.lid ∧ Drained T ∧ AddrFree T { sd := 1, sa := 10 } ∧ Free T (reg T 1) ∧
      (me T).await = none ∧ (∃ k g, splitWeight (me T).qw = some (k, g)) ∧ spawnsOn T.m testLaunch.home < spawnCap ∧
      (∀ r ∈ (T.m.die testLaunch.home).reqs, ∀ a b c, r ≠ .spawn a b c) ∧ Writable T (pOf { sd := 1 }) ∧ numOf T { sd := 1, sa := 10 } % 64 = 0 ∧
      (∃ ls, namesAt T { sd := 1, sa := 10 } 64 .read = .locs ls ∧ underReset T.m T.issue.cx ls = false ∧ ∀ x ∈ ls, T.m.errAt x = false) ∧
      (me (Tc fun c => { c with await := some (.answered true false 0) })).await = some (.answered true false 0) ∧
      (me (Tc fun c => { c with await := some (.faulted { cause := 0x0A }) })).await = some (.faulted { cause := 0x0A }) :=
  ⟨rfl, by decide +kernel, by decide +kernel, drained_of _ rfl, by unfold AddrFree Free; decide +kernel, by unfold Free; decide +kernel, rfl, ⟨_, _, rfl⟩, by decide +kernel, noReqs,
   writable_of _ _ (by decide +kernel), by decide +kernel, ⟨_, rfl, by decide +kernel, by decide +kernel⟩, rfl, rfl⟩
theorem witness_SchedulerRequests_full : spawnCap ≤ spawnsOn { testMach with launches := [testLaunch, fullSpawns] } testLaunch.home := by
  simp [spawnsOn, testLaunch, fullSpawns, placedLaunch]
theorem witness_DrawGenerator : Solo T ∧ AddrFree T { sd := 5, sa := 15, sb := 10 } ∧ Writable T (reg T 5) :=
  ⟨rfl, by unfold AddrFree Free; decide +kernel, writable_of _ _ (by decide +kernel)⟩

/-! Subscriptions.  Ring 0 has two slots; window 1 holds the 2 x 4 tiles of the walk. -/
/-- The subscription of `subscr` on ring 0 with s27 and a walk of one tile. -/
def testSub (pull : Bool) : Sub :=
  { ring := 0, win := 1, pull := pull, row0 := 0, col0 := 0, h := 2, c := 4, dr := 0, dc := 0, n := 1, states := [], offset := 4096, slotBytes := 1024, base := 0 }
theorem testSub_walks (pull : Bool) : ∀ i, i < 1 → ∀ x, walkFault x (windowOf T 1) (testSub pull) i = none := by
  intro i hi x
  obtain rfl : i = 0 := by omega
  cases pull <;> rfl
theorem witness_Subscriptions :
    Solo T ∧ AddrFree T { sb := 27, hint := 1, disp := 1 } ∧ (myLaunch T).map (·.kernel) = some testKernel ∧
      testKernel.ring? (ringOf { sb := 27, hint := 1, disp := 1 }) = some { id := 0, fed := true, slots := 2, bytes := 1024 } ∧
      (me T).sub? 0 = none ∧ (windowOf T 1).access = 2 ∧ TW.rank (windowOf T 1).ty = 2 ∧ TW.geom (windowOf T 1).ty = 0 ∧
      imageBytes (TW.fmt (windowOf T 1).ty) (TW.geom (windowOf T 1).ty) [2, 4] ≤ 1024 ∧
      bits ((me T).s 27) 15 0 = 2 ∧ bits ((me T).s 27) 31 16 = 4 ∧
      (∃ ls, translateAll T.m 0 [.read] (walkPages (windowOf T 1) (testSub false)) = .ok ls) ∧
      (∃ ls, translateAll T.m 0 [.write] (walkPages (windowOf T 1) (testSub true)) = .ok ls) ∧ freeEngine T.m 0 = some 0 :=
  ⟨rfl, by unfold AddrFree Free; decide +kernel, by decide +kernel, by decide +kernel, rfl, by decide +kernel, by decide +kernel, by decide +kernel, by decide +kernel,
   by decide +kernel, by decide +kernel, good_ok (by decide +kernel), good_ok (by decide +kernel), by decide +kernel⟩
/-- Context 0 with a subscription whose slots are in these states. -/
def withSub (pull : Bool) (l : List SubSlot) : State := Tc fun c => { c with subs := [{ testSub pull with states := l }] }
theorem witness_Subscriptions_slots :
    (let s := withSub false [.full, .empty]
     Solo s ∧ (me s).sub? 0 = some { testSub false with states := [.full, .empty] } ∧ Free s (reg s 0) ∧ ((me s).s 0).toNat < 2 ∧
       2 ≤ ((me s).s 22).toNat ∧ ∀ x ∈ [SubSlot.full, .empty], x ≠ .busy) ∧
      (let s := withSub true [.empty, .full]
       Solo s ∧ (me s).sub? 0 = some { testSub true with states := [.empty, .full] }) ∧
      (let s := withSub false [.busy, .empty]
       Solo s ∧ (me s).sub? 0 = some { testSub false with states := [.busy, .empty] } ∧ SubSlot.busy ∈ [SubSlot.busy, .empty]) := by
  unfold Solo Free; decide +kernel

theorem any_scratch (ls : List Loc) (L : List Nat) :
    (∃ n ∈ L, ∃ k, Loc.scratch k ∈ ls ∧ lineOfKey k = n) ↔
      (ls.any fun l => match l with | .scratch k => L.contains (lineOfKey k) | _ => false) = true := by
  rw [List.any_eq_true]
  constructor
  · rintro ⟨_, hn, k, hk, rfl⟩
    exact ⟨_, hk, List.contains_iff_mem.mpr hn⟩
  · rintro ⟨l, hl, h⟩
    cases l
    case scratch k => exact ⟨_, List.contains_iff_mem.mp h, k, hl, rfl⟩
    all_goals exact absurd h Bool.false_ne_true
theorem any_line (k : Nat) (L : List Nat) : (∃ n ∈ L, k = n) ↔ L.contains k = true :=
  ⟨fun ⟨_, hn, e⟩ => e ▸ List.contains_iff_mem.mpr hn, fun h => ⟨k, List.contains_iff_mem.mp h, rfl⟩⟩
/-- An access to slot 0 of ring 0, a SETF of its line, and one that reaches neither. -/
theorem witness_Subscriptions_busy :
    (∀ a ∈ [({ uid := 1, kind := .fence, locs := [.scratch 4096] } : Access), { uid := 1, kind := .setFull (lineOfKey 4096) true }],
      let s := Tc fun c => { c with subs := [{ testSub false with states := [.full, .empty] }], out := [a] }
      slotBusy (me s) (slotLines s.issue.cx (me s) { testSub false with states := [.full, .empty] } 0) = true) ∧
    (let s := Tc fun c => { c with subs := [{ testSub false with states := [.full, .empty] }], out := [{ uid := 1, kind := .setFull 9999 true }] }
     slotBusy (me s) (slotLines s.issue.cx (me s) { testSub false with states := [.full, .empty] } 0) = false) ∧
    ∀ (s : State) u i, SlotBusy s u i ↔ slotBusy (me s) (slotLines s.issue.cx (me s) u i) = true := by
  refine ⟨by decide +kernel, by decide +kernel, fun s u i => ?_⟩
  simp only [SlotBusy, slotBusy, List.any_eq_true]
  refine exists_congr fun a => and_congr_right fun _ => ?_
  cases a.kind
  case setFull | testFull => exact any_line _ _
  all_goals exact any_scratch _ _

/-! The engine slots.  Each row of each table has a slot whose words pass its rule. -/
/-- For each row of a table, one of these slots is good. -/
def eachRow {σ ρ : Type} (slots : List σ) (table : σ → List ρ) (ok : σ → ρ → Bool) : Bool :=
  (upFrom 0 ((slots.head?.map table).getD []).length).all fun k => slots.any fun v => match (table v)[k]? with | some r => ok v r | none => false
def chainSlots : List VSlot :=
  [{ td := 16, ta := 1, tb := 1, tc := 1 }, { td := 16, ta := 1, tb := 2, tc := 1 }, { td := 16, ta := 2, tb := 1, tc := 1 }]
theorem witness_ChainedVectorSlots :
    Solo Y ∧ Free Y (reg Y 0) ∧ MayQueue Y .v0 0 ∧
      eachRow chainSlots (chainTable .p0) (fun v r => good (typing Y (withChain r.2.1 r.2.2 v.op2.toNat v.op3.toNat) false v.td v.ta v.tb v.tc)) = true ∧
      eachRow (chainSlots.map fun v => { v with op2 := 1, op3 := 15, td := 0 }) (chainTable .p1) (fun v r =>
        good (typing Y (withChain r.2.1 r.2.2 v.op2.toNat v.op3.toNat) false v.td v.ta v.tb v.tc)) = true := by
  unfold Solo Free MayQueue; decide +kernel
def plainSlots : List VSlot :=
  [{ td := 16, ta := 1, tb := 1 }, { td := 1 }, { td := 3 }, { td := 0, ta := 1 }, { td := 8, ta := 1, tb := 1 }, { td := 9, ta := 1, tb := 10 },
   { td := 16, ta := 6, tb := 6 }, { td := 16, ta := 1, tb := 2 }, { td := 2, ta := 2, tb := 1 }, { td := 5, ta := 2 }]
theorem witness_PlainVectorSlots :
    Solo Y ∧ Free Y (reg Y 0) ∧ MayQueue Y .v0 0 ∧
      eachRow plainSlots (fun v => plainTable .p0 v ++ reduceTable .p0 v) (fun v r => good (typing Y r.2.1 false v.td v.ta v.tb v.tc)) = true := by
  unfold Solo Free MayQueue; decide +kernel
/-- Type constant 1 is FP32 of 2 x 8, constant 2 INT32 of 4 x 4. -/
def viewSlots (td : TReg) : List VSlot := [{ td := td, ta := 1, sx := 21 }, { td := td, ta := 1, sx := 22 }]
theorem witness_ViewSlots :
    Solo Y ∧ Free Y (reg Y 21) ∧ (me Y).token 0 = 0 ∧ (∀ r ∈ [21, 22], ConstIs Y ((me Y).s r).toNat (testConst Y ((me Y).s r).toNat)) ∧
      eachRow (viewSlots 16) (fun v => viewTable .p0 v (testConst Y ((me Y).s v.sx).toNat)) (fun v r => match viewPlan r.1 v ((me Y).s v.sx) Y r.2 with | .ok pl => pl.op.isSome | _ => false) = true ∧
      eachRow (viewSlots 1) (fun v => viewTable .p0 v (testConst Y ((me Y).s v.sx).toNat)) (fun v r => match viewPlan r.1 v ((me Y).s v.sx) Y r.2 with | .ok pl => pl.op.isNone && pl.td.isSome | _ => false) = true := by
  refine ⟨rfl, by unfold Free; decide +kernel, by decide +kernel, fun r h => ?_, by decide +kernel, by decide +kernel⟩
  simp only [List.mem_cons, List.not_mem_nil, or_false] at h
  rcases h with rfl | rfl <;> exact const_of _ _ (by decide +kernel)
def matrixSlots : List MSlot :=
  [{ td := 17, ta := 0, tb := 11, tx := 5 }, { td := 24, ta := 1, tb := 11 }]
theorem witness_MatrixSlots :
    Solo Y ∧ MayQueue Y .m 0 ∧ eachRow matrixSlots mTable (fun v r => good (typing Y r.2.1 r.2.2 v.td v.ta v.tb v.tx)) = true := by
  unfold Solo MayQueue; decide +kernel
theorem resident_of (s : State) (rs : List (Nat × Nat))
    (h : (rs.all fun x => match scratchTarget s.m s.issue.cx x.1 x.2 false with | .ok (_, _, b) => b | _ => true) = true) : Resident s rs := by
  intro x hx k o e
  have := List.all_eq_true.1 h x hx
  simp [e] at this
/-- s12 is the base of the local scratchpad, s21 one line; tile 0 is BF16, tile 1 FP32, tile 6 DRAW64. -/
def copySlots : List CSlot :=
  [{ t := 0, w := 1 }, { t := 0, w := 1, sa := 12 }, { w := 1, sa := 12, sb := 21 }, { t := 1 }, { t := 6 }]
theorem witness_CopySlots :
    Solo Y ∧ Free Y (reg Y 12) ∧ Free Y (reg Y 21) ∧ MayQueue Y .c 0 ∧
      eachRow copySlots (copyTable Y) (fun _ r => match r.2.1 Y with | .ok pl => pl.op.isSome | _ => false) = true ∧
      Resident Y [((cA Y { sa := 12 }).toNat, 0)] ∧ (windowOf Y 1).access = 2 ∧ (windowOf Y 2).access = 1 ∧ TW.rank (windowOf Y 2).ty = 1 ∧
      TW.fmt (windowOf Y 2).ty = 2 ∧ TW.ext (windowOf Y 2).ty 0 % 2 ^ 23 = 16 ∧
      FabricTile Y { t := 6, w := 0, sa := 21 } (word2 0x13 4 4) [4, 4] ∧ bits (cA Y { sa := 21 }) 9 0 ≠ 0 := by
  refine ⟨rfl, by unfold Free; decide +kernel, by unfold Free; decide +kernel, by unfold MayQueue; decide +kernel, by decide +kernel, resident_of _ _ (by decide +kernel), by decide +kernel,
    by decide +kernel, by decide +kernel, by decide +kernel, by decide +kernel, by rfl, by decide +kernel⟩
/-- s24 names a task's endpoint on this device. -/
theorem witness_CarrierSlots :
    Solo Y ∧ Drained Y ∧ Free Y (reg Y 24) ∧ MayQueue Y .c 0 ∧ FabricTile Y { t := 0, sa := 24 } (word2 2 4 4) [4, 4] ∧ epBad (cA Y { sa := 24 }) = false ∧
      scratchRange Y (cA Y { sa := 12 }).toNat 16 8 false = .ok () ∧ scratchRange Y (cA Y { sa := 12 }).toNat 64 64 false = .ok () ∧
      epDevice Y.m (cB Y { sb := 24 }) = Y.m.deviceNo ∧ Resident Y [((cA Y { sa := 12 }).toNat, 0)] ∧ Resident Y [] ∧
      (∃ k g, splitWeight (me Y).qw = some (k, g)) ∧ (me (Tc fun c => { c with qw := mkWeight 15 1 })).issued = false ∧ splitWeight (me (Tc fun c => { c with qw := mkWeight 15 1 })).qw = none :=
  ⟨rfl, drained_of _ rfl, by unfold Free; decide +kernel, by unfold MayQueue; decide +kernel, by rfl, by decide +kernel, by rfl, by rfl, by decide +kernel,
   resident_of _ _ (by decide +kernel), resident_of _ _ (by decide +kernel), ⟨_, _, rfl⟩, rfl, by decide +kernel⟩
/-- A queue of 16 operations of context 1. -/
def fullQueue : State :=
  { m := testMach.modCore 0 fun c => { c with ops := List.replicate 16 { newOp (.mma { td := 17, ta := 0, tb := 11 }) with cx := 1, q := .m } } }
theorem witness_EngineSlotStalls :
    (let s := Tc fun c => { c with tokens := [(3, 7)] }
     Solo s ∧ Free s (reg s 0) ∧ (me s).token 3 ≠ 0 ∧ s.m.queueRoom 0 .v0 = true) ∧
      Solo fullQueue ∧ (me fullQueue).token 0 = 0 ∧ fullQueue.m.queueRoom 0 .m = false ∧ MayQueue T .m 0 ∧ MayQueue T .v0 0 ∧
      ((mTable { td := 17, ta := 16, tb := 16 }).all fun r => !good (typing T r.2.1 r.2.2 17 16 16 0)) = true ∧
      ((plainTable .p0 { td := 17, ta := 16 } ++ reduceTable .p0 { td := 17, ta := 16 }).all fun r => !good (typing T r.2.1 false 17 16 16 0)) = true := by
  unfold Solo Free MayQueue; decide +kernel

/-! Encodings and steps. -/
theorem witness_DecodeOfEncode :
    wellFormed (.mul 4 2 3) = true ∧ encode (.mul 4 2 3) = some (.x, 0x091020C0) ∧ decodeSlot .x 0x091020C0 = .ok (.mul 4 2 3) :=
  ⟨by decide +kernel, by decide +kernel, by rfl⟩
/-- Core 0's turn is next; its context stands before a NOP that the instruction cache holds. -/
def heldLine : List Byte := bundleBytes 1 .x 0 ++ List.replicate 120 0
def turnMach : Mach := { testMach with cores := [(0, { icache := [(0x10000 / 128, heldLine)], tlb := [⟨0, 2 ^ 30, placedLeaf⟩] })] }
def turnState : State := { m := turnMach, agenda := [.issue 0] }
theorem witness_StepRunsDecoded :
    MayTurn (tick turnState.m) 0 0 ∧
      (match fetchBundle ((tick turnState.m).modCtx 0 fun c => { c with blocked := false }) 0 with
        | (m', .bundle h len [f]) =>
          match exec f.instr ⟨m', freshIssue 0 len ((m'.ctx 0).p h.guard == h.sense) h.yield f, []⟩ with
          | .next t => !(t.m.ctx 0).blocked
          | _ => false
        | _ => false) = true := by
  unfold MayTurn; decide +kernel
theorem witness_StepRunsDecoded_fetch :
    turnMach.launchOf 0 = some testLaunch ∧ (turnMach.ctx 0).held = none ∧ wellFormed .nop = true ∧ encode .nop = some (.x, 0) ∧ headerOf 1 .x ∧
      CodeHeld turnMach 0 (bundleBytes 1 .x 0) ∧ StartMarked turnMach 0 (4 + Slot.x.bytes) testLaunch ∧
      RegRef.p (decodeHeader 1).guard.toNat ∉ (turnMach.ctx 0).pend := by
  refine ⟨by decide +kernel, by decide +kernel, by decide +kernel, by decide +kernel, by unfold headerOf; decide +kernel, fun j hj => ⟨heldLine, ?_⟩, ?_, by decide +kernel⟩
  · have h : ∀ j, j < (bundleBytes 1 .x 0).length → mget? (turnMach.core (coreOf 0)).icache (((turnMach.ctx 0).pc.toNat + j) / 128) = some heldLine ∧
        heldLine.length = 128 ∧ heldLine[((turnMach.ctx 0).pc.toNat + j) % 128]? = (bundleBytes 1 .x 0)[j]? := by decide +kernel
    exact h j hj
  · refine ⟨by decide +kernel, by decide +kernel, fun j h1 h2 => ?_, by decide +kernel⟩
    obtain rfl : j = 1 := by have : Slot.x.bytes = 4 := rfl; omega
    exact ⟨by decide +kernel, by decide +kernel⟩
theorem witness_StepRunsDecoded_fill :
    mget? (testMach.core (coreOf 0)).icache 512 = none ∧ (∃ e, testMach.cached (coreOf 0) (max 0x10000 (512 * 128)) = some e ∧ permFault e .exec = none) ∧
      testMach.errs = [] ∧ max 0x10000 (512 * 128) < globalTop :=
  ⟨by decide +kernel, ⟨⟨0, 2 ^ 30, placedLeaf⟩, by decide +kernel, by decide +kernel⟩, rfl, by decide +kernel⟩
theorem witness_CanonicalKept : Canonical turnState ∧ (match step turnState with | .next _ => true | _ => false) = true := by
  refine ⟨⟨by unfold MemoryWf; decide +kernel, fun m h => ?_⟩, by decide +kernel⟩
  cases h

/-! The events of a context's accesses and operations. -/
def hbm8 : List Loc := (upFrom 0x1000 8).map .hbm
/-- Context 0 with one outstanding access. -/
def pendingOf (k : AccKind) (ls : List Loc) : State := Tc fun c => { c with out := [{ uid := 5, kind := k, locs := ls }] }
theorem witness_OutstandingAccesses :
    (∀ k ∈ [AccKind.load (some (.s 5)) false 8, .store (leBytes 8 7), .atomic 0x10 (some (.s 5)) 1 0, .give (some (.s 5)) 1, .fence],
      MayPerform (pendingOf k hbm8) 0 { uid := 5, kind := k, locs := hbm8 }) ∧ hbm8.Nodup ∧ (leBytes 8 7).length = hbm8.length ∧ hbm8 ≠ [] ∧
      (∀ g h, CtxEvent.access g h ∉ ((pendingOf .fence hbm8).m.ctx 0).events) ∧
      (let f : FaultRec := { cause := 0x0A }
       let s := Tc fun c => { c with events := [.access f false] }
       CtxEvent.access f false ∈ (s.m.ctx 0).events) ∧
      (let s := Tc fun c => { c with frozen := [⟨.s 5, 1, 0⟩, ⟨.s 6, 1, 1⟩] }
       (s.m.ctx 0).frozen = [⟨.s 5, 1, 0⟩, ⟨.s 6, 1, 1⟩]) := by
  refine ⟨by unfold MayPerform; decide +kernel, by decide +kernel, by decide +kernel, by decide +kernel, ?_, by decide +kernel, rfl⟩
  intro f b h
  have h0 : ((pendingOf .fence hbm8).m.ctx 0).events = [] := by decide +kernel
  rw [h0] at h; cases h
/-- One miss that finds the leaf at 0, one past it that finds no entry. -/
def missState : State :=
  { m := (testMach.modCtx 0 fun c => { c with missed := true }).modDie 0 fun d => { d with misses := [⟨0, 0x1000, false, false, 0⟩, ⟨0, 0x40000000, false, false, 0⟩] } }
theorem walk_none : missState.m.walk 0x40000000 = .error 0 := by
  have h : (match missState.m.walk 0x40000000 with | .error n => n == 0 | _ => false) = true := by decide +kernel
  cases hw : missState.m.walk 0x40000000 <;> simp_all
theorem witness_TranslationWalks :
    (missState.m.die 0).misses[0]? = some ⟨0, 0x1000, false, false, 0⟩ ∧ (∃ e, missState.m.walk 0x1000 = .ok e) ∧
      (missState.m.die 0).misses[1]? = some ⟨0, 0x40000000, false, false, 0⟩ ∧ missState.m.walk 0x40000000 = .error 0 ∧ (missState.m.ctx 0).missed = true :=
  ⟨by decide +kernel, good_ok (by decide +kernel), by decide +kernel, walk_none, by decide +kernel⟩
/-- An operation of context 0: numbered 3, kd 1, over 1 x 1 words, sources in the format `f`. -/
def testOp (q : QKind) (i : Instr) (f : Nat) : EOp :=
  { newOp i with word := slotWord i, uid := 3, cx := 0, q := q, kd := 1, types := [word2 1 1 1, word2 f 1 1, word2 f 1 1, 0], exts := [[1, 1], [1, 1], [1, 1], []] }
/-- A tile whose first bytes are 0. -/
def zeroTile : Tile := { data := [(0, 0), (1, 0), (2, 0), (3, 0)] }
def opState (o : EOp) : State :=
  { m := (testMach.modCtx 0 fun c => { c with tokens := [(1, 3)], tiles := [(0, zeroTile), (1, zeroTile), (11, zeroTile)] }).modCore 0 fun c => { c with ops := [o] } }
def mOpen : EOp := testOp .m (.mmaz { td := 17, ta := 0, tb := 11 }) 2
def vOpen : EOp := testOp .v1 (.vabs .p1 { td := 16, ta := 1 }) 1
def cOpen : EOp := testOp .c (.cpin { w := 1, sa := 12 }) 1
/-- An operation alone in its core, of a context with no access or event, may start. -/
theorem mayStart_of (s : State) (o : EOp)
    (h : o.started = false ∧ o.posted = false ∧ o.handlerOp = false ∧ o.waits = [] ∧ o.bankWait = [] ∧ (s.m.core (coreOf o.cx)).ops.map (·.uid) = [o.uid] ∧
      (s.m.ctx o.cx).out = [] ∧ (s.m.ctx o.cx).engFault.isEmpty = true ∧ (s.m.ctx o.cx).events = []) : MayStart s o := by
  obtain ⟨h1, h2, h3, h4, h5, h6, h7, h8, h9⟩ := h
  refine ⟨h1, h2, h3, by simp [h4, h5], by simp [h7], by simpa using h8, by simp [h9], fun e he _ hlt => ?_⟩
  have : e.uid ∈ (s.m.core (coreOf o.cx)).ops.map (·.uid) := List.mem_map_of_mem he
  rw [h6] at this
  simp only [List.mem_singleton] at this
  omega
theorem witness_EngineOperations_start :
    MayStart (opState mOpen) mOpen ∧ MayStart (opState vOpen) vOpen ∧ MayStart (opState cOpen) cOpen ∧
      (((opState mOpen).m.core 0).inQueue .m).find? (fun x => !x.started) = some mOpen ∧
      (((opState vOpen).m.core 0).inQueue (pipeQueue .p1)).find? (fun x => !x.started) = some vOpen ∧
      cOpen.q = .c ∧ ((opState cOpen).m.core 0).op? cOpen.uid = some cOpen ∧ copyTurn (opState cOpen).m cOpen = true ∧ isMover cOpen.instr = true ∧
      ∀ c, cOpen.instr ≠ .gather c ∧ cOpen.instr ≠ .scatter c := by
  refine ⟨mayStart_of _ _ (by decide +kernel), mayStart_of _ _ (by decide +kernel), mayStart_of _ _ (by decide +kernel), by decide +kernel, by decide +kernel, rfl,
    by decide +kernel, by decide +kernel, by decide +kernel, fun c => ⟨fun h => (by cases h), fun h => (by cases h)⟩⟩
/-- A run of an operation without fault, whose result is as `p` says. -/
theorem runsTo_of (s : State) (core : Nat) (q : QKind) (o : EOp) (p : EngOut → Bool)
    (h : ((s.m.core core).inQueue q = o :: ((s.m.core core).inQueue q).tail ∧ o.started = true ∧ coreOf o.cx = core ∧ tileError s.m o = none) ∧
      (match computeOp o.instr (o.tiles (s.m.ctx o.cx)) o with | .ok r => p r | .error _ => false) = true) :
    ∃ r, RunsTo s core q o r ∧ p r = true := by
  obtain ⟨⟨h1, h2, h3, h4⟩, h5⟩ := h
  cases hc : computeOp o.instr (o.tiles (s.m.ctx o.cx)) o with
  | error f => simp [hc] at h5
  | ok r => exact ⟨r, ⟨h1, h2, h3, h4, hc⟩, by simpa [hc] using h5⟩
def mRun : EOp := { mOpen with started := true }
def vRun : EOp := { vOpen with started := true }
/-- The same with a source word that is marked degraded. -/
def vWorn : EOp := { vRun with types := [word2 1 1 1, setDegraded (word2 1 1 1) true, word2 1 1 1, 0] }
theorem witness_EngineOperations_matrix :
    ∃ r, RunsTo (opState mRun) 0 .m mRun r ∧ (r.tiles.map (·.1) == [17] && r.events == 0 && !r.drawFlag && !degrades mRun r) = true :=
  runsTo_of _ _ _ _ _ (by decide +kernel)
theorem witness_EngineOperations_vector :
    ∃ r, RunsTo (opState vRun) 0 .v1 vRun r ∧ (r.tiles.map (·.1) == [16] && r.events == 0 && !r.drawFlag && !degrades vRun r) = true :=
  runsTo_of _ _ _ _ _ (by decide +kernel)
theorem witness_EngineOperations_degrades :
    (∃ r, RunsTo (opState vWorn) 0 .v1 vWorn r ∧ (degrades vWorn r && !TW.degraded (vWorn.types.getD 0 0)) = true) ∧
      (((opState vWorn).m.ctx vWorn.cx).tile 16).gen = vWorn.gen :=
  ⟨runsTo_of _ _ _ _ _ (by decide +kernel), by decide +kernel⟩
theorem witness_EngineOperations_ends :
    (opUses mRun.instr).td = some 17 ∧ (opUses vRun.instr).td = some 16 ∧
      ((opState vRun).m.ctx 0).token vRun.kd = vRun.uid := by decide +kernel
def cDone : EOp := { cOpen with started := true }
theorem witness_EngineOperations_copy :
    ((opState cDone).m.core 0).op? cDone.uid = some cDone ∧ coreOf cDone.cx = 0 ∧ cDone.q = .c ∧ cDone.started = true ∧ isMover cDone.instr = true ∧
      (∀ c, cDone.instr ≠ .preft c ∧ cDone.instr ≠ .ctload c) ∧ tileError (opState cDone).m cDone = none ∧
      copyRest (opState cDone).m cDone = [] :=
  ⟨by decide +kernel, by decide +kernel, rfl, rfl, by decide +kernel, fun c => ⟨fun h => (by cases h), fun h => (by cases h)⟩, by decide +kernel, by decide +kernel⟩
theorem witness_EngineOperations_fault :
    let s := Tc fun c => { c with engFault := [(vOpen, { cause := 0x04 }, false)], events := [.found vOpen.uid] }
    (s.m.ctx 0).engFault = (vOpen, { cause := 0x04 }, false) :: [] ∧ (s.m.ctx 0).handler = false ∧ (s.m.ctx 0).life = .running ∧
      (s.m.ctx 0).interruptible = true ∧ (s.m.ctx 0).events = .found vOpen.uid :: [] ∧ startedOps s.m 0 = false ∧
      (unstartedOps s.m 0 false).length ≤ 111 := by decide +kernel
theorem witness_SubscriptionSlots :
    (let s := withSub false [.empty, .empty]
     let u := { testSub false with states := [.empty, .empty] }
     (s.m.ctx 0).sub? 0 = some u ∧ subMayStart s.m 0 u = true ∧ u.states.getD u.slot .empty = .empty) ∧
      (let s := withSub true [.marked, .empty]
       let u := { testSub true with states := [.marked, .empty] }
       (s.m.ctx 0).sub? 0 = some u ∧ subMayStart s.m 0 u = true ∧ u.states.getD u.slot .empty = .marked) ∧
      (∀ b ∈ [false, true],
       let u := { testSub b with states := [.busy, .empty], moved := 8 }
       let s := Tc fun c => { c with subs := [u] }
       (s.m.ctx 0).sub? 0 = some u ∧ u.inProgress = true ∧ u.moved = (subItems s.m 0 u).length) := by decide +kernel
/-- An object that expects two arrivals and has one. -/
def barState (n : Nat) : State :=
  { m := { (testMach.modCtx 0 fun c => { c with barrier := some { core := 0, seat := 0, key := 0, regionOff := 0, addr := 0x01F0000000000000, expect := false, arrivals := n, bytes := 0, gtag := 1 } }) with
           scratch := cputN [] 0 (BarObj.encode ⟨2, 1, 0, 0, false, 1⟩) } }
theorem witness_BarriersAndRoots :
    (∀ n ∈ [0, 1, 2], ∃ u, ((barState n).m.ctx 0).barrier = some u ∧ u.expect = false ∧ ((barState n).m.barrier u.key).tag = u.gtag ∧ u.arrivals = n ∧
      ((barState n).m.ctx 0).out = [] ∧ ((barState n).m.core u.core).inReset = false ∧ (barState n).m.barrier u.key = ⟨2, 1, 0, 0, false, 1⟩) ∧
      (∃ u, ((barState 1).m.ctx 0).barrier = some u ∧ InPlace (barState 1) (((barState 1).m.ctx 0).launch.getD 0) u) ∧
      (({} : Root).excess = false ∧ ({} : Root).quiet = false ∧ wScale (mkWeight 15 1) ≤ 15) := by
  refine ⟨?_, ?_, by decide +kernel⟩
  · intro n h
    simp only [List.mem_cons, List.not_mem_nil, or_false] at h
    rcases h with rfl | rfl | rfl <;> exact ⟨_, rfl, rfl, by decide +kernel, rfl, by decide +kernel, by decide +kernel, by decide +kernel⟩
  · exact ⟨_, rfl, testLaunch, { placedSeat with ctxs := [0, 1], size := 8192 }, by decide +kernel, by decide +kernel, by decide +kernel, by decide +kernel,
      by decide +kernel, by decide +kernel⟩
/-- The root of the test launch: domain 0, tag 1, with a return that stands at it, and one of another tag. -/
def rootState : State :=
  { m := testMach.modDie 0 fun d => { d with roots := [(0, { launch := some 0, gtag := 1 })], rootQ := [.ret 0 1 (mkWeight 0 64), .ret 0 2 1] } }
theorem witness_BarriersAndRoots_returns :
    (rootState.m.die 0).rootQ[0]? = some (.ret 0 1 (mkWeight 0 64)) ∧ (rootState.m.root 0).launch = some 0 ∧ (rootState.m.root 0).gtag = 1 ∧
      ((rootState.m.root 0).add (mkWeight 0 64)).quiet = false ∧ ((rootState.m.root 0).add (mkWeight 0 64)).excess = false ∧
      (rootState.m.die 0).rootQ[1]? = some (.ret 0 2 1) ∧ (rootState.m.root 0).gtag ≠ 2 := by decide +kernel

/-! Launches, queues and requests. -/
/-- The test launch with its root open, in this phase. -/
def launchState (f : Launch → Launch) (g : Root → Root) : State :=
  { m := { testMach with
      launches := [f testLaunch], dies := [(0, { roots := [(0, g { launch := some 0, gtag := 1 })] })], mgmt := mset testMach.mgmt 0x078 1 } }
def asking (code : Nat) (a b : Word) (s : State) : State :=
  { s with m := { s.m with mgmt := mset (mset (mset (mset s.m.mgmt 0x070 (BitVec.ofNat 64 code)) 0x060 a) 0x068 b) 0x078 1 } }
def ctxs (f : Ctx → Ctx) (s : State) : State := { s with m := (s.m.modCtx 0 f).modCtx 1 fun c => { c with launch := some 0 } }
theorem witness_LaunchEnds :
    (let s := launchState id fun r => { r with quiet := true }
     let l := testLaunch
     s.m.launch? 0 = some l ∧ (s.m.root l.domain).quiet = true ∧ (s.m.root l.domain).waiter = none ∧ (s.m.root l.domain).granted = none ∧
       (s.m.root l.domain).excess = false ∧ workLeft s.m l = false) ∧
      (let s := launchState id id
       s.m.launch? 0 = some testLaunch ∧ (s.m.root testLaunch.domain).quiet = false) ∧
      (let l := { testLaunch with phase := .failing, lastReturn := 0, interval := 16 }
       ∀ t ∈ [15, 16], let s := ctxs (fun _ => {}) { launchState (fun _ => l) id with m := { (launchState (fun _ => l) id).m with time := BitVec.ofNat 64 t } }
       s.m.launch? 0 = some l ∧ l.phase = .failing ∧ (∀ cx ∈ l.allCtxs, (s.m.ctx cx).life = .free) ∧ workLeft s.m l = false ∧ (l.interval ≤ (s.m.time - l.lastReturn).toNat ↔ t = 16)) ∧
      (let l := { testLaunch with interval := 16 }
       ∀ t ∈ [15, 16], let s := ctxs (fun c => { c with leaveAt := some 0 }) { launchState (fun _ => l) id with m := { (launchState (fun _ => l) id).m with time := BitVec.ofNat 64 t } }
       (s.m.ctx 0).leaveAt = some 0 ∧ s.m.launchOf 0 = some l ∧ (s.m.ctx 0).released = false ∧ (l.interval ≤ (s.m.time - 0).toNat ↔ t = 16)) ∧
      (∀ b ∈ [true, false], let l := { testLaunch with active := b, stalledAll := !b }
       let s := launchState (fun _ => l) id
       s.m.launch? 0 = some l ∧ l.phase = .running ∧ l.tickAt.toNat ≤ s.m.time.toNat ∧ l.active = b ∧ l.stalledAll = !b) ∧
      (let s := asking 5 0 0 (launchState id id)
       reqBusy s.m 5 = true ∧ arg0 s.m = 0 ∧ s.m.launch? 0 = some testLaunch ∧ testLaunch.phase ≠ .failing) := by decide +kernel

/-- Queue 1 of die 0: its table entry with these flags and indexes, its ring at 0x70000 with this head, and slot 5 when `mapped`. -/
def queueState (flags : Nat) (mapped : Bool) (head : List Byte) : State :=
  let m := testMach
  let e := leBytes 8 0x70000 ++ [4, BitVec.ofNat 8 flags, 3, 0] ++ leBytes 4 0 ++ leBytes 8 1 ++ leBytes 8 0 ++ leBytes 8 0 ++ leBytes 8 (2 ^ 64 - 1)
  let m := { m with mem := cputN (cputN m.mem 0x60040 e) 0x70000 head, mgmt := mset m.mgmt 0x010 0x60000 }
  { m := m.modDie 0 fun d => { d with slots := if mapped then [{ q := 1, no := 5 }] else [], roots := [(0, { launch := some 0, gtag := 1 })] } }
theorem witness_QueueEvents :
    (let s := queueState 1 true []
     s.m.qEnabled 0 = false ∧ s.m.qEnabled 1 = true ∧ 8 ∈ [2, 4, 8] ∧ (∃ x ∈ (s.m.die (s.m.qHome 1)).slots, x.q = 1)) ∧
      (let s := queueState 1 false []
       s.m.qEnabled 1 = true ∧ (∀ x ∈ (s.m.die (s.m.qHome 1)).slots, x.q ≠ 1)) ∧
      (let s := queueState 3 false []
       s.m.qEnabled 1 = true ∧ s.m.qHome 1 = 0 ∧ s.m.qFlag 1 1 = true ∧ (s.m.die 0).slot? 1 = none ∧ (s.m.die 0).slots.length < 64) := by
  refine ⟨⟨?_, ?_, ?_, ⟨{ q := 1, no := 5 }, ?_, rfl⟩⟩, ?_⟩ <;> decide +kernel
/-- Die 0 with all its slots in use: queue 1 the one unused longest, the others frozen elsewhere. -/
def fullSlots : State :=
  let s := queueState 9 true []
  { s with m := { s.m.modDie 0 fun d => { d with slots := { q := 1, no := 0, lastNotify := 1 } ::
                                            (upFrom 1 63).map fun n => { q := n + 100, no := n, lastNotify := 9 } } with
                  mem := cputN s.m.mem 0x60058 (leBytes 8 1) } }
theorem witness_QueueEvents_unmap :
    (fullSlots.m.die 0).slot? 1 = some { q := 1, no := 0, lastNotify := 1 } ∧ (fullSlots.m.die 0).slots.length = 64 ∧ unmappable fullSlots.m 1 = true ∧
      ((fullSlots.m.die 0).slots.all fun y => decide (1 ≤ y.lastNotify.toNat)) = true ∧ (fullSlots.m.qSetFlag 1 3 false).qFlag 1 1 = false ∧
      ((queueState 1 true []).m.die 0).slot? 1 = some { q := 1, no := 5 } ∧ ((queueState 1 true []).m.die 0).slots.length ≠ 64 := by decide +kernel
/-- The one slot of a die is decided next when its head is ready. -/
theorem decided_of (s : State) (d : BitVec 2) (q : BitVec 12) (x : HwSlot) (h : (s.m.die d.toNat).slots = [x]) (hq : x.q = q.toNat)
    (hr : (readyOf s.m q.toNat).taken = true) (hh : (headOf s.m q.toNat).isSome = true) : ∃ i bs, DecidedNext s d q x i bs := by
  obtain ⟨⟨i, bs⟩, hb⟩ := Option.isSome_iff_exists.1 hh
  refine ⟨i, bs, ?_, hq, hb⟩
  have h1 : (readyOf s.m x.q).taken = true := by rw [hq]; exact hr
  simp [decision, h, h1]
/-- A record for the launch of domain 0, batch index 0. -/
def recordState : State :=
  let s := queueState 0x11 true [1, 2]
  { s with m := { s.m with launches := [{ testLaunch with horizon := 1 }] } }
/-- A head of another version is refused, one of kind 3 is a no-op, one of kind 2 a record. -/
theorem witness_QueueEvents_refused :
    readyOf (queueState 1 true [2, 1]).m 1 = .refuse (4, none) ∧ ∃ i bs, DecidedNext (queueState 1 true [2, 1]) 0 1 { q := 1, no := 5 } i bs := by
  have h : readyOf (queueState 1 true [2, 1]).m 1 = .refuse (4, none) := by decide +kernel
  exact ⟨h, decided_of _ _ _ _ (by decide +kernel) rfl (by rw [show (1 : BitVec 12).toNat = 1 from rfl, h]; rfl) (by decide +kernel)⟩
theorem witness_QueueEvents_noop :
    readyOf (queueState 1 true [1, 3]).m 1 = .noop ∧ ∃ i bs, DecidedNext (queueState 1 true [1, 3]) 0 1 { q := 1, no := 5 } i bs := by
  have h : readyOf (queueState 1 true [1, 3]).m 1 = .noop := by decide +kernel
  exact ⟨h, decided_of _ _ _ _ (by decide +kernel) rfl (by rw [show (1 : BitVec 12).toNat = 1 from rfl, h]; rfl) (by decide +kernel)⟩
theorem witness_QueueEvents_record :
    readyOf recordState.m 1 = .record (some 0) ∧ (∃ i bs, DecidedNext recordState 0 1 { q := 1, no := 5 } i bs) ∧
      (recordState.m.launch? 0).any (fun l => l.phase != .failing) = true := by
  have h : readyOf recordState.m 1 = .record (some 0) := by decide +kernel
  exact ⟨h, decided_of _ _ _ _ (by decide +kernel) rfl (by rw [show (1 : BitVec 12).toNat = 1 from rfl, h]; rfl) (by decide +kernel), by decide +kernel⟩

/-! Scheduling. -/
def aTask : Task := { x := 0, y := 0, z := 0, entry := 1 }
theorem witness_Scheduling :
    (let l := { testLaunch with spawns := [{ x := 0, y := 0, z := 0, entry := 1 }] }
     let s := ctxs (fun _ => {}) (launchState (fun _ => l) id)
     s.m.launch? 0 = some l ∧ l.phase = .running ∧ nextCtx s.m l = some (1, 0) ∧ 1 < l.kernel.entries.length) ∧
      (∀ n ∈ [0, 1], let l := { testLaunch with next := n }
       let s := ctxs (fun _ => {}) (launchState (fun _ => l) id)
       s.m.launch? 0 = some l ∧ nextCtx s.m l = some (1, 0) ∧ l.spawns = [] ∧ l.msgs = [] ∧ l.records = [] ∧ l.next < l.gridSize ∧ 0 < l.kernel.entries.length) ∧
      (∀ b ∈ [true, false], let l := { testLaunch with msgs := if b then [aTask] else [], records := [aTask] }
       let s := ctxs (fun _ => {}) (launchState (fun _ => l) id)
       s.m.launch? 0 = some l ∧ l.phase = .running ∧ nextCtx s.m l = some (1, 0) ∧ l.spawns = [] ∧ l.msgs = (if b then [aTask] else []) ∧ l.records = [aTask] ∧
         aTask.entry < l.kernel.entries.length) ∧
      (let l := { testLaunch with next := 2 }
       let s := ctxs (fun _ => {}) (launchState (fun _ => l) id)
       s.m.launch? 0 = some l ∧ nextCtx s.m l = some (1, 0) ∧ l.hasWork = false) ∧
      (let l := { testLaunch with kernel := { testKernel with tiles := 4 } }
       let s := launchState (fun _ => l) id
       s.m.launch? 0 = some l ∧ l.phase = .running ∧ l.kernel.persistent = false ∧ l.hasWork = true ∧
         seatCore s.m l.kernel l.home l.wide = some 1 ∧ canPlace s.m l.kernel 1 = true ∧
         (creditsFor s.m l.kernel l.credits (1 :: l.seats.map (·.core))).isSome = true) := by decide +kernel
/-- Die 0 with this request, of context 0, which waits for it. -/
def requestState (f : Launch → Launch) (r : SchedReq) : State :=
  let s := launchState f id
  { s with m := (s.m.modDie 0 fun d => { d with reqs := [r] }).modCtx 0 fun c => { c with await := some .asked } }
theorem witness_Scheduling_receipts :
    (∀ b ∈ [0, 1], let f := fun l : Launch => { l with budget := b }
     let s := requestState f (.escal 0 0)
     (s.m.die 0).reqs[0]? = some (.escal 0 0) ∧ s.m.launch? 0 = some (f testLaunch) ∧ (s.m.ctx 0).await = some .asked) ∧
      (let s := requestState id (.lcommit 0 0 3)
       (s.m.die 0).reqs[0]? = some (.lcommit 0 0 3) ∧ s.m.launch? 0 = some testLaunch ∧ (s.m.ctx 0).await = some .asked) := by decide +kernel
/-- An LREC of batch index b for queue 1: no record queue, and a record queue, below the horizon, with room and full. -/
def lrecState (flags wr b : Nat) : State :=
  let s := queueState flags true []
  let l := { testLaunch with horizon := 1 }
  { s with m := { (s.m.modDie 0 fun d => { d with reqs := [.lrec 0 0 1 b (zeros 64) (mkWeight 0 1) none] }).modCtx 0 (fun c => { c with await := some .asked }) with
    launches := [l], mem := cputN s.m.mem 0x60050 (leBytes 8 wr) } }
theorem witness_Scheduling_records :
    (∀ f ∈ [0, 1, 0x10], (lrecState f 1 1).m.qEnabled 1 = false ∨ (lrecState f 1 1).m.qFlag 1 4 = false) ∧
      ∀ x ∈ [(1, 0), (1, 1), (16, 1)], let s := lrecState 0x11 x.1 x.2
        let r : SchedReq := .lrec 0 0 1 x.2 (zeros 64) (mkWeight 0 1) none
        (s.m.die 0).reqs[0]? = some r ∧ s.m.launch? 0 = some { testLaunch with horizon := 1 } ∧ (s.m.ctx 0).await = some .asked ∧
          s.m.qEnabled 1 = true ∧ s.m.qFlag 1 4 = true ∧ (2 ^ s.m.qCap 1 ≤ s.m.qGet 1 16 8 - s.m.qGet 1 24 8 ↔ x.1 = 16) ∧
          (s.m.ctx 0).qwRoot = testLaunch.rootRef s.m := by decide +kernel
theorem spawnsOn_request (n : Nat) :
    let f := fun l : Launch => { l with spawns := List.replicate n aTask }
    let s := requestState f (.spawn 0 0 aTask)
    (s.m.die 0).reqs[0]? = some (.spawn 0 0 aTask) ∧ s.m.launch? 0 = some (f testLaunch) ∧ (s.m.ctx 0).await = some .asked ∧ spawnsOn s.m 0 = n :=
  ⟨rfl, rfl, rfl, by show (List.replicate n aTask).length = n; simp⟩
theorem witness_Scheduling_spawns :
    (∃ (s : State) (r : SchedReq) (l : Launch), (s.m.die 0).reqs[0]? = some r ∧ s.m.launch? 0 = some l ∧ (s.m.ctx 0).await = some .asked ∧ r = .spawn 0 0 aTask ∧ spawnsOn s.m 0 < spawnCap) ∧
      ∃ (s : State) (r : SchedReq) (l : Launch), (s.m.die 0).reqs[0]? = some r ∧ s.m.launch? 0 = some l ∧ (s.m.ctx 0).await = some .asked ∧ r = .spawn 0 0 aTask ∧ spawnCap ≤ spawnsOn s.m 0 :=
  have a := spawnsOn_request (spawnCap - 1)
  have b := spawnsOn_request spawnCap
  ⟨⟨_, _, _, a.1, a.2.1, a.2.2.1, rfl, by rw [a.2.2.2]; decide⟩, ⟨_, _, _, b.1, b.2.1, b.2.2.1, rfl, Nat.le_of_eq b.2.2.2.symm⟩⟩
theorem witness_SwapOutAndRestore :
    (let s := asking 3 7 0 (launchState id id)
     reqBusy s.m 3 = true ∧ arg0 s.m = 7 ∧ s.m.launch? 7 = none) ∧
      (let f := fun l : Launch => { l with phase := .failing }
       let s := asking 3 0 0 (launchState f id)
       reqBusy s.m 3 = true ∧ arg0 s.m = 0 ∧ s.m.launch? 0 = some (f testLaunch)) ∧
      (let f := fun l : Launch => { l with kernel := { l.kernel with handler := none } }
       let s := asking 3 0 0 (launchState f id)
       reqBusy s.m 3 = true ∧ arg0 s.m = 0 ∧ s.m.launch? 0 = some (f testLaunch) ∧ (f testLaunch).phase = .running ∧ (f testLaunch).kernel.handler = none) ∧
      (let s := asking 3 0 0 (launchState id id)
       reqBusy s.m 3 = true ∧ arg0 s.m = 0 ∧ s.m.launch? 0 = some testLaunch ∧ testLaunch.phase = .running ∧ testLaunch.kernel.handler ≠ none ∧
         (s.m.ctx 0).life = .running) := by decide +kernel
/-- A launch that stops, its context 0 at its boundary; with `image`, its core holds a posted send of that many bytes. -/
def stoppingState (spill image : Nat) : State :=
  let f := fun l : Launch => { l with phase := .stopping, kernel := { l.kernel with spill := spill } }
  let s := asking 3 0 0 (ctxs (fun c => { c with events := [.preempt] }) (launchState f id))
  { s with m := s.m.modCore 0 fun c => { c with sends := if image = 0 then [] else
    [{ entry := 0, cx := 0, uid := 1, word := 0, tag := 0, left := 1, image := zeros image, weight := 0, root := {} }] } }
def stoppingLaunch (spill : Nat) : Launch := { testLaunch with phase := .stopping, kernel := { testKernel with spill := spill } }
theorem witness_SwapOutAndRestore_save :
    (∀ n ∈ [0, 1, 128], let s := stoppingState 128 n
     s.m.launch? 0 = some (stoppingLaunch 128) ∧ (stoppingLaunch 128).saved = [] ∧ reqBusy s.m 3 = true ∧ stopped s.m (stoppingLaunch 128) = true ∧
       (stoppingLaunch 128).handlerPc = some 0x10008 ∧ (spillPlaces 128 (stoppingLaunch 128).spillUsed (unspilled s.m (stoppingLaunch 128))).isSome = true ∧
       (s.m.ctx 0).life = .running) ∧
      (let s : State := { stoppingState 128 128 with m := (stoppingState 128 128).m.modCtx 0 fun c => { c with life := .draining, events := [] } }
       (s.m.ctx 0).life = .draining ∧ stopped s.m (stoppingLaunch 128) = true) ∧
      (let s := stoppingState 128 129
       s.m.launch? 0 = some (stoppingLaunch 128) ∧ reqBusy s.m 3 = true ∧ stopped s.m (stoppingLaunch 128) = true ∧
         spillPlaces 128 (stoppingLaunch 128).spillUsed (unspilled s.m (stoppingLaunch 128)) = none) := by decide +kernel
def savedZero : SavedCtx := { core := 0, ctx := 0, shadow := 0x400000, subs := [], qwRoot := {} }
theorem witness_SwapOutAndRestore_restore :
    (let s := asking 4 7 0 (launchState id id)
     reqBusy s.m 4 = true ∧ arg0 s.m = 7 ∧ s.m.launch? 7 = none) ∧
      (let s := asking 4 0 0 (launchState id id)
       reqBusy s.m 4 = true ∧ arg0 s.m = 0 ∧ s.m.launch? 0 = some testLaunch ∧ testLaunch.phase = .running) ∧
      (let f := fun l : Launch => { l with phase := .failing }
       let s := asking 4 0 0 (launchState f id)
       reqBusy s.m 4 = true ∧ arg0 s.m = 0 ∧ s.m.launch? 0 = some (f testLaunch)) ∧
      (let f := fun l : Launch => { l with phase := .swapped }
       let s := asking 4 0 0 (launchState f id)
       reqBusy s.m 4 = true ∧ arg0 s.m = 0 ∧ s.m.launch? 0 = some (f testLaunch)) ∧
      (let st : SeatRec := { placedSeat with ctxs := [0, 1], size := 8192 }
       let l : Launch := { testLaunch with kernel := { testKernel with tiles := 4 }, phase := .restoring, seats := [], oldSeats := [st], saved := [savedZero] }
       let s := launchState (fun _ => l) id
       s.m.launch? 0 = some l ∧ l.oldSeats.find? (fun y => y.core == 0 && y.ctxs.all (freeCtxs s.m 0).contains) = some st ∧ l.handlerPc = some 0x10008 ∧
         regionPlaces s.m 0 st.size ≠ [] ∧ (s.m.core 0).gated = false ∧ (s.m.core 0).inReset = false ∧
         tilesUsed s.m 0 + st.ctxs.length * l.kernel.tiles ≤ 8 ∧ 8 * savedZero.core + savedZero.ctx ∈ st.ctxs ∧
         (l.saved.filter fun y => 8 * y.core + y.ctx == 8 * savedZero.core + savedZero.ctx) = [savedZero] ∧
         s.m.devFailure (savedZero.shadow.toNat + 24) 8 false = none ∧
         (let g : State := { s with m := s.m.modCore 0 fun c => { c with gated := true } }
          (g.m.core 0).gated = true ∧ g.m.launch? 0 = some l ∧
            l.oldSeats.find? (fun y => y.core == 0 && y.ctxs.all (freeCtxs g.m 0).contains) = some st)) := by decide +kernel

/-! Management, power, links. -/
theorem witness_ManagementRequests :
    (reqBusy (asking 1 0 0 T).m 1 = true ∧ reqBusy (asking 2 0 0 T).m 2 = true ∧ reqBusy (asking 11 0 0 T).m 11 = true ∧ reqBusy (asking 12 0 0 T).m 12 = true) ∧
      (let s := asking 6 0 0 T
       reqBusy s.m 6 = true ∧ argCtx s.m = 0 ∧ (s.m.ctx 0).life ≠ .parked) ∧
      (∀ k ∈ [6, 7], let s := asking k 0 0 (ctxs (fun c => { c with life := .parked }) (launchState id id))
       reqBusy s.m k = true ∧ argCtx s.m = 0 ∧ (s.m.ctx 0).life = .parked ∧ s.m.launchOf 0 = some testLaunch ∧ (s.m.ctx 0).wroteOut = false) ∧
      (∀ n ∈ [4095, 4096], let q := BitVec.ofNat 64 n
       let s := asking 8 q 0 T
       reqBusy s.m 8 = true ∧ arg0 s.m = q ∧ (4096 ≤ q.toNat ↔ n = 4096)) ∧
      (∀ n ∈ [1023, 1024], let d := BitVec.ofNat 64 n
       let s := asking 9 d 0x12 T
       reqBusy s.m 9 = true ∧ arg0 s.m = d ∧ arg1 s.m = 0x12 ∧ (1024 ≤ d.toNat ↔ n = 1024)) ∧
      (∀ k ∈ [8, 2 ^ 24 + 257], let n := BitVec.ofNat 64 k
       let s := asking 10 0x10000 n T
       reqBusy s.m 10 = true ∧ arg0 s.m = 0x10000 ∧ arg1 s.m = n ∧ s.m.attest = [] ∧ (256 + 2 ^ 24 < n.toNat ↔ k ≠ 8)) ∧
      readFailure T.m 0x10000 8 = none ∧ (readFailure T.m (2 ^ 40) 8).isSome = true ∧
      mgmtMask false 0x008 = some 0x3FF ∧ mgmtMask false 0x000 = none ∧ T.m.mgmtAt 0x078 % 2 = 0 ∧ (asking 1 0 0 T).m.mgmtAt 0x078 % 2 = 1 := by
  decide +kernel
def atTime (t : Nat) (s : State) : State := { s with m := { s.m with time := BitVec.ofNat 64 t } }
theorem witness_PowerAndResets :
    (∀ t ∈ [99, 100], (t < ({ T with m := { (atTime t T).m with govAt := 100 } } : State).m.govAt.toNat ↔ t = 99)) ∧
      (seatsOn T.m 1 = [] ∧ seatsOn T.m 0 ≠ [] ∧ ∀ t ∈ [2 ^ 20 - 1, 2 ^ 20], (2 ^ 20 ≤ ((atTime t T).m.time - ((atTime t T).m.core 1).idleSince).toNat ↔ t = 2 ^ 20)) ∧
      (let s : State := { T with m := T.m.modCore 0 fun c => { c with inReset := true } }
       (s.m.core 0).inReset = true ∧ ∃ st ∈ seatsOn s.m 0, 0 < st.size) ∧
      ∀ k a, ErrSite.hbm 0 ≠ .icache k a ∧ ErrSite.hbm 0 ≠ .l1 k a := by
  refine ⟨by decide +kernel, by decide +kernel, by decide +kernel, by simp⟩
def own : MsgHdr := ⟨0, 0, 7⟩
def aPort : PortId := ⟨0, 2⟩
/-- Device 1 is reached by a port of this version, which brings a flit with this number; these weights came before, and what it brings was
sent first as number 5 of the second link of port 1. -/
def linkState (seq ver : Nat) (seen : List LinkSeq) : State :=
  { m := { testMach with routes := [(1, some aPort)], ports := [(2, { phase := .up, version := ver })], rx := some { port := aPort, seq := seq, first := some ⟨1, 2, 5⟩ },
                         seen := seen } }
def aReturn (dst : BitVec 10) : Msg := .weightReturn ⟨1, dst, 0⟩ 0 0 0 0
theorem witness_LinkMessages :
    (ByLink (linkState 1 2 []) (aReturn 0) ∧ outOfSequence (linkState 1 2 []).m = true) ∧
      (let s := linkState 0 1 []
       let x : Msg := .stealRequest ⟨1, 0, 0⟩ ⟨1, 1, 3⟩
       ByLink s x ∧ outOfSequence s.m = false ∧ unnegotiated s x = true) ∧
      (let s := linkState 0 2 []
       ByLink s (aReturn 2) ∧ outOfSequence s.m = false ∧ unnegotiated s (aReturn 2) = false ∧ (aReturn 2).hdr.dst.toNat ≠ s.m.deviceNo ∧ repeated s.m = false) ∧
      (let s := linkState 0 2 [⟨1, 2, 5⟩]
       ByLink s (aReturn 0) ∧ outOfSequence s.m = false ∧ unnegotiated s (aReturn 0) = false ∧ (aReturn 0).hdr.dst.toNat = s.m.deviceNo ∧
         (aReturn 0).isWeighted = true ∧ repeated s.m = true) ∧
      (let i : Instr := .read ⟨1, 0, 7⟩ 1 8 0
       let s := linkState 0 2 []
       isEvent i = true ∧ wellFormed i = true ∧ servedAlways i = true ∧ ∃ t, exec i (put s { s.m with rx := some { port := aPort, seq := 0 } }) = .next t) ∧
      (mgmtRead T.m 0).isSome = true ∧ OuterOk T.m 0x70000 1 true false ∧ OuterOk T.m 0x70000 1 false true ∧ OuterOk T.m 0x70000 8 true true ∧
      T.m.sysLoc 0x70000 = some (.hbm 0x70000) ∧
      (own.tag.toNat ∈ ({ testMach with hostReqs := [7] } : Mach).hostReqs) := by
  unfold ByLink OuterOk
  refine ⟨?_, ?_, ?_, ?_, ⟨by decide +kernel, by decide +kernel, by decide +kernel, _, rfl⟩, ?_⟩ <;> decide +kernel
/-- Each way a message is accepted: one of this device, one of another that carries no weight, and one that does. -/
theorem witness_LinkMessages_accepted :
    Accepted T (.read own 0 1 0x70000) T.m ∧
      (let s := linkState 0 2 []
       Accepted s (.read ⟨1, 0, 7⟩ 0 1 0x70000) (kept s (.read ⟨1, 0, 7⟩ 0 1 0x70000)) ∧ Accepted s (aReturn 0) (kept s (aReturn 0)) ∧
         (kept s (aReturn 0)).seen = [⟨portKey aPort, 0, 0⟩]) := by
  unfold Accepted ByLink
  exact ⟨.inl ⟨by decide +kernel, rfl⟩,
   .inr ⟨by decide +kernel, by decide +kernel, by decide +kernel, by decide +kernel, by decide +kernel, rfl⟩,
   .inr ⟨by decide +kernel, by decide +kernel, by decide +kernel, by decide +kernel, by decide +kernel, rfl⟩, by decide +kernel⟩
/-- A thief that a port of version 2 reaches, and a launch of its tag with two records, of which one is in excess: it is granted. -/
theorem witness_LinkMessages_steal :
    let r : Task := { x := 0, y := 0, z := 0, stealable := true }
    let m : Mach := { testMach with routes := [(1, some aPort)], ports := [(2, { phase := .up, version := 2 })], mgmt := mset testMach.mgmt 0x040 1,
                                    launches := [{ testLaunch with podTag := 3, records := [r, r] }] }
    m.rx = none ∧ own.src.toNat = m.deviceNo ∧ v2Route m 1 = true ∧ Sys2Proof.Machine.excess m 3 = 1 ∧
      (match exec (.stealRequest own ⟨1, 1, 3⟩) { m := m } with
        | .next t => (t.m.outbox.any fun x => x.hdr.dst == 1) && (t.m.launch? 0).any fun l => l.records == [r]
        | _ => false) = true := by
  decide +kernel
/-- A send-ready for context 0 of this device: launch domain 0, core 0. -/
def aReady : ReadyMsg := ⟨word2 2 4 4, 5, 48, 0x400000000, 1, 3, 4, 1⟩
def pullOp : EOp :=
  { uid := 9, cx := 0, q := .c, instr := .recv {}, word := slotWord (.recv {}), pc := 0, types := [0, word2 2 4 4], exts := [[], [4, 4]], started := true }
/-- Context 0 awaits a tile of device 1: its RECV has pulled it. -/
def pullState : State :=
  let s : State := { launchState id id with m := (launchState id id).m.modCtx 0 typed }
  { s with m := s.m.modCore 0 fun c => { c with
      recvs := [⟨0, aReady, 9, none, 0⟩]
      ops := [pullOp] } }
theorem witness_LinkMessages_tiles :
    (∀ n ∈ [0, 255], let s : State := { launchState id id with m := (launchState id id).m.modCore 0 fun c => { c with recvs := List.replicate n ⟨0, aReady, 0, none, 0⟩ } }
     s.m.wire.any (Msg.sameOrder (.sendReady own aReady)) = false ∧ targetOf s.m aReady.endpoint = .here 0 ∧ (s.m.core 0).recvs.length < 256 ∧ (s.m.core 0).table = []) ∧
      targetOf T.m aReady.endpoint = .none ∧
      (let x : SendRec := { entry := 4, cx := 0, uid := 1, word := 0, tag := 0, left := 1, image := [1], weight := 0, root := { gtag := 1 } }
       let s : State := { T with m := testMach.modCore 0 fun c => { c with sends := [x] } }
       (0 : BitVec 10).toNat = s.m.deviceNo ∧ x.spill = none ∧ (s.m.core 0).sends.find? (fun y => y.entry == 4) = some x) := by decide +kernel
theorem witness_LinkMessages_pullData :
    ∃ n o m', (pullState.m.core 0).recvs.find? (fun x => x.owner != 0 && x.ready.sender == 1 && x.ready.core == 3 && x.ready.entry == 4 && x.ready.endpoint == aReady.endpoint) = some n ∧
      coreOf (epCx aReady.endpoint) = 0 ∧ n.ready.sender.toNat ≠ pullState.m.deviceNo ∧ (pullState.m.core 0).op? n.owner = some o ∧
      (pullState.m.core 0).table = [] ∧ o.cslot.sb = 0 ∧ takeImage pullState.m o n.ready.word (zeros 32) 0 = .ok m' := by
  obtain ⟨m', h⟩ := good_ok (x := takeImage pullState.m pullOp aReady.word (zeros 32) 0) (by decide +kernel)
  exact ⟨⟨0, aReady, 9, none, 0⟩, _, m', by decide +kernel, by decide +kernel, by decide +kernel, rfl, by decide +kernel, by decide +kernel, h⟩
/-- A record for domain 0. -/
def domRecord : List Byte := [1, 2] ++ zeros 62
theorem witness_LinkMessages_work :
    (let s := launchState id id
     (1 : BitVec 16).toNat ≠ s.m.deviceNo ∧ (s.m.root 0).launch = some 0 ∧ (s.m.root 0).gtag = 1 ∧ ((s.m.root 0).add (mkWeight 0 64)).quiet = false ∧
       ((s.m.root 0).add (mkWeight 0 64)).excess = false ∧ amsgOp s.m own = none ∧
       ((s.m.root (bits aReady.endpoint 23 16)).launch.bind s.m.launch?) = some testLaunch ∧ testLaunch.phase ≠ .failing ∧ testLaunch.kernel.handle = 0 ∧
       recordLaunch s.m domRecord = some testLaunch ∧ podTags s.m = [] ∧ s.m.token = none ∧
       s.m.launches.find? (fun l => l.podTag == 0 && l.phase != .failing) = some testLaunch ∧
       (∀ l ∈ s.m.launches, l.podTag ≠ 3 ∨ l.phase = .failing) ∧ Sys2Proof.Machine.excess s.m 3 = 0 ∧ v2Route s.m 1 = false) ∧
      amsgOp T.m own = none ∧ ((T.m.root (bits aReady.endpoint 23 16)).launch.bind T.m.launch?) = none ∧
      (let s := launchState (fun l => { l with phase := .failing }) id
       recordLaunch s.m domRecord = some { testLaunch with phase := .failing }) ∧
      (∀ e ∈ [4, 5, 6], let m : Mach := { testMach with tokenEpoch := 5 }
       ((BitVec.ofNat 32 e).toNat < m.tokenEpoch.toNat ↔ e = 4)) ∧
      (let m : Mach := { testMach with token := some ⟨1, 2, [], []⟩, notices := [{ kind := 2, cause := 1, cx := 0, lid := 0, addr := 0, info := 0, time := 0 }] }
       m.token.isSome = true ∧ (m.notices[0]?).isSome = true) := by decide +kernel
theorem witness_LinkMessages_notice : T.m.brgSel = false ∧ ({ testMach with brgSel := true } : Mach).brgSel = true := ⟨rfl, rfl⟩
theorem mget_upFrom {α : Type} (x : α) (f : Nat → α) (n a d : Nat) (h1 : a ≤ d) (h2 : d < a + n) :
    mget x ((upFrom a n).map fun d => (d, f d)) d = f d := by
  induction n generalizing a with
  | zero => omega
  | succ n ih =>
    simp only [upFrom, List.map_cons, mget]
    split
    · next h => rw [h]
    · exact ih (a + 1) (by omega) (by omega)
/-- Every device of a pod of the largest size is reached through a port of version 2. -/
def podState : State :=
  atTime (2 ^ 28) { T with m := { testMach with routes := (upFrom 1 1023).map fun d => (d, some ⟨0, 2⟩), ports := [(2, { phase := .up, version := 2 })] } }
theorem witness_LinkMessages_token :
    podState.m.deviceNo = 0 ∧ Sys2Proof.Machine.excess podState.m 3 = 0 ∧ podState.m.token = none ∧ 2 ^ 28 ≤ (podState.m.time - podState.m.tokenSince).toNat ∧
      (∀ d, 1 ≤ d → d < podSize → v2Route podState.m d = true) := by
  refine ⟨by decide +kernel, by decide +kernel, by decide +kernel, by decide +kernel, fun d h1 h2 => ?_⟩
  have hp : podSize ≤ 1024 := by unfold podSize; omega
  have h := mget_upFrom (none : Option PortId) (fun _ => some ⟨0, 2⟩) 1023 1 d h1 (by omega)
  simp only [v2Route, podState, atTime]
  rw [h]
  rfl
def portState (sel : Bool) (q : Port) : State := { m := { testMach with brgSel := sel, ports := [(2, q)] } }
def aTraining : Training := { version := 2, device := 1, place := 0, chosen := 2, serial := 0 }
theorem witness_PortsAndHost :
    ((portState false {}).m.bridgePort aPort = false ∧ ((portState false {}).m.port aPort).phase = .down ∧ (portState true {}).m.bridgePort ⟨0, 1⟩ = true) ∧
      (∀ a b, let q : Port := { phase := .accepting, version := 2, sentAccept := a, gotAccept := b }
       ((portState true q).m.port aPort).phase = .accepting ∧ ((portState true q).m.port aPort).gotAccept = b ∧ ((portState true q).m.port aPort).sentAccept = a ∧
         aTraining.chosen.toNat = ((portState true q).m.port aPort).version ∧ (portState true q).m.bridgePort aPort = false) ∧
      (∀ p ∈ [PortPhase.down, .offering, .failed], let q : Port := { phase := p, version := 1 }
       ((portState true q).m.port aPort).phase = p ∧ aTraining.chosen.toNat ≠ ((portState true q).m.port aPort).version) ∧
      (aTraining.device.toNat ≠ T.m.deviceNo ∧ aTraining.device.toNat < 1024 ∧ 1 ≤ aTraining.version.toNat) ∧
      (∀ o ∈ [{ aTraining with device := 0 }, { aTraining with device := 1024 }, { aTraining with version := 0 }],
        o.device.toNat = T.m.deviceNo ∨ 1024 ≤ o.device.toNat ∨ o.version = 0) ∧
      (let q : Port := { phase := .up, unacked := [(4095, 2, .sendReady own aReady)] }
       (portState true q).m.port aPort = q ∧ q.phase = .up ∧ q.unacked = [(4095, 2, .sendReady own aReady)]) ∧
      (∀ n ∈ [15, 16], let q : Port := { phase := .up, unacked := [(4095, 2, .sendReady own aReady)], resends := n }
       ((portState true q).m.port aPort) = q ∧ q.unacked ≠ []) := by decide +kernel
theorem witness_PortsAndHost_bridge :
    (portState false {}).m.brgSel = false ∧
      let s : State := { m := { (asking 1 0 0 (portState true {})).m with mgmt := [(0x010, 0x60000), (0x018, 0x100000), (0x090, 0x80018000), (0x0B0, 16)] } }
      s.m.brgSel = true ∧ groupDevice s.m 0 = some s.m.deviceNo ∧ groupDevice s.m 1 = some 1 ∧ groupDevice s.m 2 = none ∧
        (mgmtRead s.m (0x100000 - 0x100000)).isSome = true ∧ s.m.mgmtAt 0x0B0 / 16 % 2 = 1 ∧ groupDevice s.m (s.m.mgmtAt 0x0B0 % 16) = some s.m.deviceNo ∧
        OuterOk s.m (s.m.mgmtAt 0x0B0 / 2 ^ 36 * 2 ^ 36 + 0x70000) 1 true false ∧
        OuterOk s.m (s.m.mgmtAt 0x0B0 / 2 ^ 36 * 2 ^ 36 + 0x70000) 1 false true ∧ OuterOk s.m (s.m.mgmtAt 0x0B0 / 2 ^ 36 * 2 ^ 36 + 0x70000) 8 true true ∧
        s.m.sysLoc (s.m.mgmtAt 0x0B0 / 2 ^ 36 * 2 ^ 36 + 0x70000) = some (.hbm 0x70000) ∧
        (let m : Mach := { s.m with mgmt := mset s.m.mgmt 0x0B0 17 }
         m.mgmtAt 0x0B0 / 16 % 2 = 1 ∧ groupDevice m (m.mgmtAt 0x0B0 % 16) = some 1 ∧ m.deviceNo = 0) ∧ (portState true {}).m.mgmtAt 0x0B0 / 16 % 2 = 0 ∧ reqBusy s.m 10 = false ∧
        reqBusy (asking 10 0 0 (portState true {})).m 10 = true := by unfold OuterOk; decide +kernel

/-! An admission. -/
/-- The bytes that are not 0 of queue 1's entry at 0x60040, its ring with a launch packet at 0x70000, a kernel of one context and one tile at
0x80000 and the page that maps them; the window table is at 0x90000. -/
def admitMem : List Host.Cell :=
  [(0x10000, 1), (0x20000, 1), (0x60042, 7), (0x60048, 4), (0x60049, 1), (0x6004A, 3), (0x60050, 1),
   (0x70000, 1), (0x70001, 1), (0x7000A, 8), (0x70010, 1), (0x70014, 1), (0x70018, 1), (0x70022, 9),
   (0x80000, 1), (0x80002, 1), (0x8000C, 1), (0x8000D, 1), (0x8000E, 1), (0x80010, 128), (0x8001C, 255), (0x8001D, 255), (0x8001E, 255),
   (0x8001F, 255), (0x80062, 1), (0x8006A, 2), (0x80078, 64), (0x100000, 1), (0x100002, 32), (0x200000, 31)]
def admitState : State :=
  { m := { mem := admitMem, mgmt := [(0x010, 0x60000), (0x018, 0x100000)], dies := [(0, { fw := 0, booted := true, slots := [{ q := 1, no := 5 }] })] } }
theorem pickOf_isSome {α : Type} (m : Mach) (l : List α) (h : l ≠ []) : ∃ x, m.pickOf l = some x := by
  have : 0 < l.length := List.length_pos_iff.2 h
  exact ⟨l[Config.freePick m.fresh % l.length]'(Nat.mod_lt _ this), by simp [Mach.pickOf, Nat.mod_lt _ this]⟩
theorem reservation_isSome (m : Mach) (p : Packet) (k : Nat) (c : List Nat) (h0 : ((upFrom 0 64).filter fun r => (m.root (m.qHome p.q * 64 + r)).launch.isNone) ≠ [])
    (h1 : p.kernel.spill = 0) (h2 : p.kernel.persistent = false) (h3 : seatCore m p.kernel (m.qHome p.q) (fld p.bytes 3 1 / 2 % 2 == 1) = some k)
    (h4 : creditsFor m p.kernel [] [k] = some c) (h5 : canPlace m p.kernel k = true) : ∃ r, reservation m p = some r := by
  obtain ⟨x, hx⟩ := pickOf_isSome m _ h0
  exact ⟨⟨x, 0, [k], c⟩, by simp [reservation, reserve, hx, h1, h2, h3, h4, h5]⟩
/-- One leaf of 1 GiB maps the page tables, the queue, the packet, the kernel and the window table onto themselves. -/
theorem admit_loc (a : Nat) (h : a < 2 ^ 30) : admitState.m.sysLoc a = some (.hbm a) := by
  have e1 : a / 2 ^ 39 % 2 ^ 17 = 0 := by omega
  have e2 : a / 2 ^ 30 % 512 = 0 := by omega
  have r : admitState.m.mgmtAt 0x018 / 4096 * 4096 = 0x100000 := by decide +kernel
  have p1 : admitState.m.pte 0x100000 0 = 0x200001 := by decide +kernel
  have p2 : admitState.m.pte 0x200000 0 = 31 := by decide +kernel
  have q1 : admitState.m.pteErr 0x100000 0 = false := by decide +kernel
  have q2 : admitState.m.pteErr 0x200000 0 = false := by decide +kernel
  have w : admitState.m.walk a = .ok ⟨0, 2 ^ 30, 31⟩ := by
    unfold Mach.walk
    simp only [e1, e2, r, p1, q1, show pteBit 0x200001 0 = true by decide, show pteBit 0x200001 1 = false by decide,
      show pteAddr 0x200001 = 0x200000 by decide, p2, q2, show pteBit 31 0 = true by decide, show pteBit 31 1 = true by decide]
    simp [leafEnt, show pteAddr 31 = 0 by decide, Nat.div_eq_of_lt h, show pteBit 31 5 = false by decide, hbmTop] <;> omega
  have g : a < globalTop := by unfold globalTop; omega
  unfold Mach.sysLoc
  rw [if_pos g, w]
  simp [TlbEnt.loc, Nat.mod_eq_of_lt h, show pteBit 31 5 = false by decide, show pteAddr 31 = 0 by decide] <;> omega
theorem admit_zeros (a n : Nat) (h : 0x80079 ≤ a) (h' : a + n ≤ 0x100000) : admitState.m.devRead a n = List.replicate n 0 := by
  unfold Mach.devRead
  refine (List.map_congr_left (g := fun _ => 0) fun x hx => ?_).trans (by rw [List.map_const', length_upFrom])
  have hx := (mem_upFrom _ _ _).1 hx
  have hc : ∀ l : List Host.Cell, (∀ c ∈ l, c.1 ≠ x) → cget l x = 0 := fun l => by
    induction l with
    | nil => intro _; rfl
    | cons c t ih => intro hl; simp only [cget, if_neg (hl c (List.mem_cons_self ..))]; exact ih fun d hd => hl d (List.mem_cons_of_mem _ hd)
  rw [admit_loc x (by omega)]
  refine hc _ fun c hc => ?_
  have : ∀ d ∈ admitState.m.mem, d.1 < 0x80079 ∨ 0x100000 ≤ d.1 := by decide +kernel
  have := this c hc
  omega
def okOf {ε α : Type} (x : Except ε α) : Bool := match x with | .ok _ => true | .error _ => false
theorem ok_of {ε α : Type} {x : Except ε α} (h : okOf x = true) : ∃ y, x = .ok y := by cases x with | ok y => exact ⟨y, rfl⟩ | error _ => simp [okOf] at h
theorem must_of (r : Nat) (b : Bool) (h : b = true) : must r b = .ok () := by rw [h]; rfl
theorem admit_windows (k : Kernel) (h : k.decls = []) : ∃ x, readWindows admitState.m k 0x90000 = .ok x := by
  have hw : ((upFrom 0 256).map fun i => (i, windowAt (admitState.m.devRead (0x90000 + 64 * i) 64))) =
      (upFrom 0 256).map fun i => (i, windowAt (List.replicate 64 0)) :=
    List.map_congr_left fun i hi => by rw [admit_zeros _ _ (by omega) (by have := (mem_upFrom _ _ _).1 hi; omega)]
  have hr : canRead admitState.m 2 0x90000 (16384 + 1024) = .ok () := by
    obtain ⟨⟨⟩, e⟩ := ok_of (show okOf (canRead admitState.m 2 0x90000 (16384 + 1024)) = true by decide +kernel)
    exact e
  unfold readWindows
  simp only [hw, hr, h]
  rw [must_of 2 (0x90000 % 64 == 0) (by decide), must_of 2 _ (by decide +kernel)]
  exact ⟨_, rfl⟩
/-- The packet and the header as they are read. -/
def admitHead : Nat × List Byte := (0, [1, 1, 0, 0, 0, 0, 0, 0, 0, 0, 8, 0, 0, 0, 0, 0, 1, 0, 0, 0, 1, 0, 0, 0, 1, 0, 0, 0, 0, 0, 0, 0, 0, 0, 9] ++ List.replicate 29 0)
def admitKernel : Kernel :=
  { handle := 0x80000, isa := 1, contexts := 1, tiles := 1, entries := [0], scratch := 128, codeBase := 0x10000, mapBase := 0x20000, codeSize := 64 }
theorem admit_head : headOf admitState.m 1 = some admitHead := by decide +kernel
theorem admit_kernel : readKernel admitState.m 0x80000 = .ok admitKernel := by
  have h : (match readKernel admitState.m 0x80000 with | .ok k => decide (k = admitKernel) | .error _ => false) = true := by decide +kernel
  cases e : readKernel admitState.m 0x80000 with
  | ok k => rw [e] at h; rw [of_decide_eq_true h]
  | error f => rw [e] at h; cases h
theorem checkPacket_of (m : Mach) (q i : Nat) (bs : List Byte) (k : Kernel) (w : Mp Window × Mp (BitVec 128))
    (h4 : (fld bs 0 1 == 1 && fld bs 1 1 == 1 && !m.qFlag q 4 && fld bs 2 1 < 4 && fld bs 3 1 < 8 && fld bs 4 1 ≤ 4 && fld bs 5 3 == 0 &&
      fld bs 40 8 % 32 == 0) = true) (hk : readKernel m (fld bs 8 8) = .ok k) (hw : readWindows m k (fld bs 32 8) = .ok w)
    (h3 : decide (k.contexts * k.tiles ≤ 8 ∧ k.spill ≤ (spillShare m (m.qHome q) (fld bs 3 1 / 2 % 2 == 1)).2 ∧
      k.credits * (if k.persistent then 40 else 1) ≤ 2 * creditCap) = true) : checkPacket m q i bs [] = .ok ⟨q, i, bs, k, w.1, w.2⟩ := by
  have h3 := of_decide_eq_true h3
  unfold checkPacket
  rw [must_of 4 _ h4, hk]
  simp only [bind, Except.bind, hw, List.contains_nil]
  rw [must_of 3 _ (by rw [decide_eq_true h3.1, decide_eq_true h3.2.1, decide_eq_true h3.2.2]; rfl)]
  rfl
theorem ready_of (m : Mach) (q i : Nat) (bs : List Byte) (p : Packet) (r : Reserve) (h0 : (m.qFlag q 2 || !m.qEnabled q) = false) (he : entryFailure m q i = none)
    (hh : headOf m q = some (i, bs)) (h1 : fld bs 0 1 = 1 ∧ fld bs 1 1 = 1) (hd : dependences m q i bs = [])
    (hp : checkPacket m q i bs [] = .ok p) (hr : reservation m p = some r) : readyOf m q = .accept p r := by
  simp [readyOf, h0, hh, he, h1.1, h1.2, hd, hp, hr]
theorem admit_ready (m : Mach) (q i : Nat) (bs : List Byte) (kr : Kernel) (k : Nat) (c : List Nat) (w : Mp Window × Mp (BitVec 128))
    (h0 : (m.qFlag q 2 || !m.qEnabled q) = false) (he : entryFailure m q i = none) (hh : headOf m q = some (i, bs)) (h1 : fld bs 0 1 = 1 ∧ fld bs 1 1 = 1)
    (hd : dependences m q i bs = []) (hp : checkPacket m q i bs [] = .ok ⟨q, i, bs, kr, w.1, w.2⟩) (hr : ((upFrom 0 64).filter fun r => (m.root (m.qHome q * 64 + r)).launch.isNone) ≠ [])
    (h2 : kr.spill = 0) (h3 : kr.persistent = false) (hs : seatCore m kr (m.qHome q) (fld bs 3 1 / 2 % 2 == 1) = some k)
    (hc : creditsFor m kr [] [k] = some c) (hl : canPlace m kr k = true) : ∃ p r, readyOf m q = .accept p r := by
  obtain ⟨r, e⟩ := reservation_isSome m ⟨q, i, bs, kr, w.1, w.2⟩ k c hr h2 h3 hs hc hl
  exact ⟨_, r, ready_of m q i bs _ r h0 he hh h1 hd hp e⟩
theorem admitState_ready : ∃ p r, readyOf admitState.m 1 = .accept p r := by
  obtain ⟨w, hw⟩ := admit_windows admitKernel (by decide)
  have hp := checkPacket_of admitState.m 1 admitHead.1 admitHead.2 admitKernel w (by decide +kernel) admit_kernel hw (by decide +kernel)
  obtain ⟨k, hs⟩ := Option.isSome_iff_exists.1 (show (seatCore admitState.m admitKernel (admitState.m.qHome 1) (fld admitHead.2 3 1 / 2 % 2 == 1)).isSome = true by decide +kernel)
  have h : (seatCore admitState.m admitKernel (admitState.m.qHome 1) (fld admitHead.2 3 1 / 2 % 2 == 1)).all
      (fun k => (creditsFor admitState.m admitKernel [] [k]).isSome && canPlace admitState.m admitKernel k) = true := by decide +kernel
  rw [hs] at h
  obtain ⟨hc, hl⟩ := (Bool.and_eq_true _ _).mp h
  obtain ⟨c, hc⟩ := Option.isSome_iff_exists.1 hc
  exact admit_ready admitState.m 1 admitHead.1 admitHead.2 admitKernel k c w (by decide +kernel) (by decide +kernel) admit_head ⟨by decide, by decide⟩ (by decide +kernel)
    hp (by decide +kernel) rfl rfl hs hc hl
theorem admitState_slots : (admitState.m.die (0 : BitVec 2).toNat).slots = [{ q := 1, no := 5 }] := by decide +kernel
theorem admitState_head : (headOf admitState.m (1 : BitVec 12).toNat).isSome = true := by decide +kernel
theorem witness_QueueEvents_admit :
    (∃ p r, readyOf admitState.m 1 = .accept p r ∧ ∀ x ∈ admitState.m.launches, x.lid ≠ lidOf p.q p.i) ∧ ∃ i bs, DecidedNext admitState 0 1 { q := 1, no := 5 } i bs := by
  obtain ⟨p, r, h⟩ := admitState_ready
  have e : (1 : BitVec 12).toNat = 1 := rfl
  have h1 : (readyOf admitState.m (1 : BitVec 12).toNat).taken = true := by rw [e, h]; rfl
  have h3 : admitState.m.launches = [] := rfl
  exact ⟨⟨p, r, h, fun x hx => by rw [h3] at hx; cases hx⟩, decided_of _ _ _ _ admitState_slots rfl h1 admitState_head⟩
/-! Hypotheses met: the further clauses of the statements about instructions. -/
/-- The small machine with an uncorrectable error in a byte of HBM. -/
def errState (a : Nat) : State := { m := { testMach with errs := [.hbm a] } }
theorem witness_IllegalTargets_errors :
    Solo (errState placedMap) ∧ (me (errState placedMap)).issued = false ∧ myLaunch (errState placedMap) = some testLaunch ∧
      targetFault (errState placedMap).m testLaunch ((me T).pc + jump20 2) true = some { cause := 0x0A, addr := 0x10008, info := 6 } ∧
      targetFault (errState placedMap).m testLaunch ((me T).pc + jump20 2) false = some { cause := 0x0A, addr := 0x10008, info := 6 } ∧
      targetFault (errState 0x10008).m testLaunch ((me T).pc + jump20 2) true = some { cause := 0x0A, addr := 0x10008, info := 6 } ∧
      targetFault (errState 0x10008).m testLaunch ((me T).pc + jump20 2) false = none := by
  refine ⟨rfl, rfl, ?_, ?_, ?_, ?_, ?_⟩ <;> decide +kernel
/-- Core 0's turn is next, its context 0 draining with a pin on line 3 of the L2. -/
def drainState : State :=
  { turnState with m := { (turnMach.modCtx 0 fun c => { c with life := .draining, pins := [3] }) with l2 := [(3, { pins := [0] })] } }
theorem witness_EndDrains_ends :
    drainState.m.ready = true ∧ (turnOrder (drainState.m.core 0)).head? = some 0 ∧ (drainState.m.ctx 0).life = .draining ∧
      (nextEvent (drainState.m.ctx 0)).isNone = true ∧ (drainState.m.core 0).ops = [] ∧ (drainState.m.ctx 0).pend = [] ∧ (drainState.m.ctx 0).engFault.isEmpty = true ∧
      (drainState.m.ctx 0).out = [] ∧ (drainState.m.ctx 0).pins = [3] ∧
      ((drainState.m.launchOf 0).all fun l => shadowCount drainState.m (drainState.m.ctx 0).shadow == 0 || !shadowOwn drainState.m (drainState.m.ctx 0).shadow l.lid l.gtag) = true ∧
      (drainState.m.ctx 0).qwRoot.device = drainState.m.deviceNo ∧ (drainState.m.core 0).gated = false ∧ (drainState.m.core 0).inReset = false := by
  decide +kernel
/-- Context 0 with s12, s13 and s25 past the ends of its reservation, of its peers' seats and of the apertures. -/
def pastState : State := Tc fun c => ((c.setRef (.s 12) (0x01F0000000000000 + BitVec.ofNat 64 c.reserve)).setRef (.s 13) 0x01F1000000400000).setRef (.s 25) 0x01F1000000002000
theorem witness_ApertureFault :
    (∀ n ∈ [1, 8], ∀ w ∈ [false, true], ApertureFault pastState ((me pastState).s 12).toNat n w { cause := 0x0A, addr := (me pastState).s 12, info := if w then 20 else 4 } ∧
        ApertureFault pastState ((me pastState).s 13).toNat n w { cause := 0x0A, addr := (me pastState).s 13, info := if w then 21 else 5 } ∧
        ApertureFault pastState ((me pastState).s 25).toNat n w { cause := 0x0A, addr := (me pastState).s 25, info := if w then 20 else 4 }) ∧
      (∀ n ∈ [1, 8], ((me pastState).s 12).toNat % n = 0 ∧ ((me pastState).s 13).toNat % n = 0 ∧ ((me pastState).s 25).toNat % n = 0) ∧
      (∀ w ∈ [false, true], NoAperture ((me pastState).s 10).toNat w { cause := 0x0A, addr := (me pastState).s 10, info := if w then 19 else 3 }) ∧
      Solo pastState ∧ (∀ r ∈ [10, 12, 13, 25], AddrFree pastState { sd := 5, sa := r }) ∧ Open pastState (reg pastState 5) ∧ Open pastState (predOf {}) ∧
      Free pastState (reg pastState 5) ∧ Free pastState (reg pastState 6) := by
  refine ⟨fun n hn w hw => ⟨.inl ?_, .inr (.inl ?_), .inr (.inr ⟨by decide +kernel, by decide +kernel, { placedSeat with ctxs := [0, 1], size := 8192 }, by decide +kernel, ?_⟩)⟩,
    ?_, ?_, rfl, ?_, open_of _ _ (by decide +kernel), open_of _ _ (by decide +kernel), ?_, ?_⟩
  · revert n w; decide +kernel
  · revert n w; decide +kernel
  · revert n w; decide +kernel
  · decide +kernel
  · unfold NoAperture; decide +kernel
  · unfold AddrFree Free; decide +kernel
  · unfold Free; decide +kernel
  · unfold Free; decide +kernel
theorem witness_AccessFaults_notify :
    (∀ row ∈ atomicTable, numOf T { sa := 23 } % row.2.2 = 0) ∧ namesAt T { sa := 23 } 8 .write = .notifyReg 0 0 ∧ namesAt T { sa := 23 } 4 .write = .notifyReg 0 0 ∧
      Free T (reg T 1) := by unfold Free; decide +kernel
theorem witness_ReturnFromHandler_error :
    let s : State := { H with m := { H.m with errs := [.hbm 0x10008] } }
    Solo s ∧ (me s).handler = true ∧ (me s).entry = some .other ∧ HandlerOpsDone s ∧ (me s).drains = false ∧ (me s).issued = false ∧
      s.m.devErr (me s).faultPc.toNat 4 = true := by unfold Solo HandlerOpsDone; decide +kernel
/-- The MMAZ of `replayMach` as its entry gives it, its td (tile 16) not written since the restore, and written. -/
theorem witness_ReplayQueues_words :
    (shadowRead (replayMach false) (0x50000 + 64 + 256 * 0) 256 = none ∧
      (shadowRead { replayMach false with errs := [.hbm 0x50050] } (0x50000 + 64 + 256 * 0) 256).isSome = true) ∧
      (let m := (replayMach false).modCtx 0 fun c => { c with tiles := [] }
       let n := m.modCtx 0 fun c => c.setWord 16 (word2 1 4 4)
       (opOfEntry (m.ctx 0) 0 ((replayMach false).devRead (0x50000 + 64 + 256 * 0) 256)).any (fun o =>
         (opUses o.instr).td == some 16 && (((m.enqueue o).ctx o.cx).tile 16).gen == 0 && (((n.enqueue o).ctx o.cx).tile 16).gen != 0) = true) ∧
      (let m := { testMach with mem := cputN (cputN testMach.mem 0x50000 (leBytes 2 1)) 0x50040 (leBytes 8 0 ++ leBytes 8 0x0A00400001800000) }
       fld (m.devRead (0x50000 + 64 + 256 * 0) 256) 0 1 % 2 = 0) ∧
      (me (Tc fun c => { c with handler := true, awaitX := some (.faulted { cause := 0x01 }) })).awaitX = some (.faulted { cause := 0x01 }) := by decide +kernel
theorem witness_Bobbins_values :
    (let s := Tc fun c => c.setRef (.s 18) 0x800000
     Solo s ∧ Free s (reg s 18) ∧ 0x7FFFFF < ((me s).s 18).toNat) ∧
      ((me Y).s 18).toNat ≤ 0x7FFFFF := by unfold Solo Free; decide +kernel
theorem witness_Ordering_acquires :
    AddrFree T { sd := 5, sa := 23 } ∧ numOf T { sd := 5, sa := 23 } % 8 = 0 ∧ namesAt T { sd := 5, sa := 23 } 8 .read = .notifyReg 0 0 ∧
      AddrFree T { sd := 5, sa := 11 } ∧ numOf T { sd := 5, sa := 11 } % 8 ≠ 0 ∧
      AddrFree T { sd := 5, sa := 16, disp := 1 } ∧ numOf T { sd := 5, sa := 16, disp := 1 } % 8 = 0 ∧ ∃ f, namesAt T { sd := 5, sa := 16, disp := 1 } 8 .read = .fault f := by
  refine ⟨by unfold AddrFree Free; decide +kernel, by decide +kernel, by decide +kernel, by unfold AddrFree Free; decide +kernel, by decide +kernel,
    by unfold AddrFree Free; decide +kernel, by decide +kernel, fault_of (by decide +kernel)⟩
theorem witness_FullBits_faults :
    Solo T ∧ AddrFree T { sd := 1, sa := 10 } ∧ Open T (predOf { sd := 1, sa := 10 }) ∧
      ∀ w, ∃ f, scratchAt T.m T.issue.cx (numOf T { sd := 1, sa := 10 }) 1 w = .fault f := by
  refine ⟨rfl, by unfold AddrFree Free; decide +kernel, open_of _ _ (by decide +kernel), fun w => ?_⟩
  cases w <;> exact fault_of (by decide +kernel)
/-- A barrier object at the base of a reservation whose core is under reset, and one in error. -/
theorem witness_BarrierInstructions_stops :
    (let s := { resetPeer with m := { resetPeer.m with scratch := [] } }
     Solo s ∧ AddrFree s { sd := 1, sa := 12 } ∧ Free s (reg s 1) ∧ barObject s (numOf s { sd := 1, sa := 12 }) false = .ok (1, 0, true) ∧
       underReset s.m s.issue.cx (keyLocs (scratchKey 1 0)) = true ∧ (me s).bwait = none) ∧
      (let s : State := { m := { testMach with errs := [.scratch 0 3] } }
       Solo s ∧ AddrFree s { sd := 1, sa := 12 } ∧ Free s (reg s 1) ∧ barObject s (numOf s { sd := 1, sa := 12 }) false = .ok (0, 0, true) ∧
         underReset s.m s.issue.cx (keyLocs (scratchKey 0 0)) = false ∧ (∃ l ∈ keyLocs (scratchKey 0 0), s.m.errAt l = true) ∧ (me s).bwait = none) ∧
      (∀ l ∈ keyLocs (scratchKey 0 0), T.m.errAt l = false) := by
  refine ⟨⟨rfl, by unfold AddrFree Free; decide +kernel, by unfold Free; decide +kernel, by rfl, by decide +kernel, rfl⟩,
    ⟨rfl, by unfold AddrFree Free; decide +kernel, by unfold Free; decide +kernel, by rfl, by decide +kernel, by decide +kernel, rfl⟩, by decide +kernel⟩
/-- A QJOIN whose word goes back, with an access outstanding and with none. -/
theorem witness_WeightInstructions_back :
    ∀ b ∈ [true, false], let s := Tc fun c => { c.setRef (.s 28) (mkWeight 1 1) with out := if b then [{ uid := 1, kind := .fence }] else [] }
      Solo s ∧ Free s (reg s 28) ∧ Writable s (pOf { sd := 1, sa := 28 }) ∧ Open s (reg s 5) ∧ (Drained s ↔ b = false) ∧
        wAmount ((me s).s 28) ≠ 0 ∧ wAmount (me s).qw ≠ 0 ∧ ¬(wScale ((me s).s 28) = wScale (me s).qw ∧ wAmount (me s).qw + wAmount ((me s).s 28) < 2 ^ 60) := by
  intro b hb
  simp only [List.mem_cons, List.not_mem_nil, or_false] at hb
  rcases hb with rfl | rfl <;> exact ⟨rfl, by unfold Free; decide +kernel, writable_of _ _ (by decide +kernel), open_of _ _ (by decide +kernel), by unfold Drained; decide +kernel,
    by decide +kernel, by decide +kernel, by decide +kernel⟩
/-- The registered waiter, whose QW is empty; QW of another root than its launch's; an answer that is a fault. -/
theorem witness_QuietWait_more :
    (let s : State := { m := (testMach.modCtx 0 fun c => { c with qw := 0 }).modDie 0 fun d => { d with roots := [(0, { launch := some 0, gtag := 1, waiter := some 0 })] } }
     Solo s ∧ Drained s ∧ (me s).await = none ∧ myLaunch s = some testLaunch ∧ (s.m.root testLaunch.domain).waiter = some s.issue.cx ∧
       testLaunch.rootRef s.m = (me s).qwRoot ∧ Writable s (pOf { sd := 1 })) ∧
      (let s := Tc fun c => { c with qwRoot := { c.qwRoot with domain := 9 } }
       Solo s ∧ Drained s ∧ (me s).await = none ∧ myLaunch s = some testLaunch ∧ wAmount (me s).qw ≠ 0 ∧ testLaunch.rootRef s.m ≠ (me s).qwRoot ∧
         Writable s (pOf { sd := 1 })) ∧
      (me (Tc fun c => { c with await := some (.faulted { cause := 0x0D }) })).await = some (.faulted { cause := 0x0D }) :=
  ⟨⟨rfl, drained_of _ rfl, rfl, by decide +kernel, by decide +kernel, by decide +kernel, writable_of _ _ (by decide +kernel)⟩,
   ⟨rfl, drained_of _ rfl, rfl, by decide +kernel, by decide +kernel, by decide +kernel, writable_of _ _ (by decide +kernel)⟩, rfl⟩

/-! The further clauses of the statements about subscriptions, engine slots and accesses. -/
/-- The SUBSCR of ring 0 over window 1, and one over window 3, which these words make. -/
def subSlot (w : Nat) : GSlot := { sb := 27, hint := BitVec.ofNat 8 w, disp := 1 }
def subState (base : Nat) (ty : TypeWord) : State :=
  { m := { testMach with launches := [{ testLaunch with windows := (3, { base := BitVec.ofNat 64 base, ty := ty, s0 := 64, s1 := 2, bound := 4096, access := 2 }) :: testWindows }] } }
/-- The check of R248 that a SUBSCR of this state fails first. -/
def subCause (s : State) (g : GSlot) (pull : Bool) (bytes : Nat) : Option (Nat × Nat) :=
  (subscrFault s g pull ((testKernel.ring? (ringOf g)).map fun r => { r with bytes := bytes }) (windowOf s g.hint) (subOf s g pull testKernel bytes)).map fun f => (f.cause.toNat, f.field.toNat)
theorem witness_Subscriptions_passes :
    Unfenced T ∧ 0 < (subSlot 1).disp.toInt ∧ freeEngine T.m 0 = some 0 ∧ freeEngine { testMach with subUsed := [(0, 64), (1, 64)] } 0 = none ∧
      ∀ pull ∈ [false, true], subCause T (subSlot 1) pull 1024 = none ∧
        ∃ ls, walkRes T.m 0 pull (walkPages (windowOf T 1) (subOf T (subSlot 1) pull testKernel 1024)) = .locs ls := by
  refine ⟨by unfold Unfenced; decide +kernel, by decide, by decide +kernel, by decide +kernel, fun pull h => ⟨by revert pull; decide +kernel, ?_⟩⟩
  cases pull <;> exact locs_of (by decide +kernel)
/-- Each check, at a form that fails it alone or first. -/
theorem witness_Subscriptions_checks :
    (∀ pull ∈ [false, true],
      subCause T { subSlot 1 with sb := 0 } pull 1024 = some (0x01, 0) ∧ subCause T { subSlot 1 with sd := 5 } pull 1024 = some (0x13, 0) ∧
      subCause T (subSlot 9) pull 1024 = some (0x06, 0) ∧ subCause T (subSlot 0) pull 1024 = some (0x07, 0) ∧
      subCause T { subSlot 1 with sa := 10 } pull 1024 = some (0x04, fEXT0) ∧ subCause T (subSlot 1) pull 15 = some (0x04, fCAPACITY) ∧
      subCause (subState 0x40000 (mkType [4, 64] 0x0B 0 2 0 false)) (subSlot 3) pull 1024 = some (0x04, fGEOM) ∧
      subCause (subState 0x40000 (mkType [64, 4] 0x0B 0 4 0 false)) (subSlot 3) pull 1024 = some (0x04, fGEOM)) ∧
      subCause T (subSlot 2) false 1024 = some (0x04, fRANK) ∧ subCause T (subSlot 2) true 1024 = some (0x07, 0) ∧
      (let s := subState (2 ^ 56) (word2 2 4 4)
       ∀ pull ∈ [false, true], subCause s (subSlot 3) pull 1024 = none ∧
         ∃ f, walkRes s.m 0 pull (walkPages (windowOf s 3) (subOf s (subSlot 3) pull testKernel 1024)) = .fault f) := by
  refine ⟨by decide +kernel, by decide +kernel, by decide +kernel, fun pull h => ⟨by revert pull; decide +kernel, ?_⟩⟩
  cases pull <;> exact fault_of (by decide +kernel)
theorem witness_Subscriptions_erred :
    let u : Sub := { testSub false with states := [.busy, .empty], erred := true }
    let s := Tc fun c => { c with subs := [u] }
    Solo s ∧ (me s).sub? 0 = some u ∧ u.erred = true ∧ Unfenced s := by unfold Solo Unfenced; decide +kernel
/-- Words that fail the rule of each chained slot, and a C slot whose tile or window fails its check. -/
theorem witness_EngineSlotStalls_typing :
    ((chainTable .p0 { td := 17, ta := 16 }).all fun r => !good (typing T (withChain r.2.1 r.2.2 0 0) false 17 16 0 0)) = true ∧
      MayQueue T .c 0 ∧ Free T (reg T 0) ∧ Resident T [(((cA T {}).toNat), 0)] ∧
      ((copyTable T {}).all fun r => !good (r.2.1 T)) = true :=
  ⟨by decide +kernel, by unfold MayQueue; decide +kernel, by unfold Free; decide +kernel, resident_of _ _ (by decide +kernel), by decide +kernel⟩
theorem witness_OutstandingAccesses_template :
    let r : SchedReq := .lrec 0 0 1 1 (zeros 64) (mkWeight 0 1) (some 0x8000)
    let s : State := { T with m := (T.m.modDie testLaunch.home fun d => { d with reqs := [r] }).modCtx 0 fun c => { c with await := some .asked } }
    (s.m.ctx 0).out.find? (·.uid == 7) = none ∧ s.m.launchOf 0 = some testLaunch ∧ (s.m.ctx 0).await = some .asked ∧
      (s.m.die testLaunch.home).reqs = [r] := by decide +kernel
theorem witness_OutstandingAccesses_invalidate :
    ∀ l ∈ [none, some 32], MayPerform (pendingOf (.invalidate l) []) 0 { uid := 5, kind := .invalidate l, locs := [] } := by
  unfold MayPerform; decide +kernel
theorem witness_OutstandingAccesses_errors :
    (hbm8.any isHost = false ∧ hbm8 ≠ []) ∧ (let l : List Loc := [.host 0]; l.any isHost = true) ∧
      (let a : Access := { uid := 5, kind := .store (leBytes 8 7), locs := hbm8, handlerAcc := true }
       let s := Tc fun c => { c with out := [a], handler := true }
       (s.m.ctx 0).out.find? (·.uid == 5) = some a ∧ (s.m.ctx 0).accessReady a = true) := by decide +kernel
/-- A PREFT and a TLOAD of context 0, for each of which a walk waits. -/
def prefOp : EOp := { testOp .c (.preft { w := 1 }) 1 with started := true }
def loadOp : EOp := { testOp .c (.tload { w := 1 }) 1 with started := true }
def walkState (o : EOp) : State :=
  { m := (opState o).m.modDie 0 fun d => { d with misses := [⟨0, 0x1000, false, false, o.uid⟩, ⟨0, 0x40000000, true, false, o.uid⟩] } }
theorem witness_TranslationWalks_engines :
    ∀ o ∈ [prefOp, loadOp], let s := walkState o
      (s.m.die 0).misses[0]? = some ⟨0, 0x1000, false, false, o.uid⟩ ∧ (s.m.die 0).misses[1]? = some ⟨0, 0x40000000, true, false, o.uid⟩ ∧ o.uid ≠ 0 ∧
        (match s.m.walk 0x1000 with | .ok _ => true | .error _ => false) = true ∧ (match s.m.walk 0x40000000 with | .ok _ => false | .error n => n == 0) = true ∧
        (s.m.core 0).op? o.uid = some o ∧ o.cx = 0 ∧ o.handlerOp = false ∧ (s.m.ctx 0).released = false := by decide +kernel

/-! Copies under way. -/
/-- A copy of context 0 over window 1 of the type `ty`, its tile of the same: `n` items have moved. -/
def copyOp (i : Instr) (ty : TypeWord) (a b : Word) (n : Nat) (idx : List Nat) : EOp :=
  { newOp i with word := slotWord i, uid := 3, cx := 0, q := .c, kd := 1, types := [0, ty, 0, 0], exts := [[], TW.exts ty, [], []], capA := a, capB := b,
                 index := idx, started := true, moved := upFrom 0 n }
def copyState (o : EOp) : State :=
  let w : Window := { base := 0x40000, ty := o.types.getD 1 0, s0 := 8, s1 := 1, bound := 4096, access := 2 }
  let m := { testMach with launches := [{ testLaunch with windows := (1, w) :: testWindows }] }
  { m := (m.modCtx 0 fun c => { (c.setWord 0 (o.types.getD 1 0)) with tokens := [(1, 3)] }).modCore 0 fun c => { c with ops := [o], tlb := [⟨0, 2 ^ 30, placedLeaf⟩] } }
/-- The item that the copy's move 0 moves, if the copy may move. -/
def firstItem (o : EOp) : Option CItem :=
  let s := copyState o
  if ((s.m.core 0).op? 3 == some o && coreOf o.cx == 0 && decide (o.q = .c) && o.started && isMover o.instr && decide (tileError s.m o = none)) = true then
    ((copyNext o.instr (copyRest s.m o))[0 % (copyNext o.instr (copyRest s.m o)).length]?).map (·.2) else none
theorem movesNext_of {o : EOp} {x : CItem} (h : firstItem o = some x) : ∃ i, MovesNext (copyState o) 0 o 0 i x := by
  unfold firstItem at h
  simp only at h
  split at h
  · next hc =>
    simp only [Bool.and_eq_true, beq_iff_eq, decide_eq_true_eq] at hc
    obtain ⟨⟨⟨⟨⟨h1, h2⟩, h3⟩, h4⟩, h5⟩, h6⟩ := hc
    have hu : o.uid = 3 := by simpa using op_uid h1
    cases hg : (copyNext o.instr (copyRest (copyState o).m o))[0 % (copyNext o.instr (copyRest (copyState o).m o)).length]? with
    | none => rw [hg] at h; cases h
    | some y =>
      rw [hg] at h
      simp only [Option.map_some, Option.some.injEq] at h
      exact ⟨y.1, by rw [hu]; exact h1, h2, h3, h4, h5, h6, by rw [hg, ← h]⟩
  · cases h
where
  op_uid {c : Core} {u : Nat} {o : EOp} (h : c.op? u = some o) : o.uid = u := by
    unfold Core.op? at h
    have := List.find?_some h
    simpa using this
/-- The copy's first move is of item `x`, and it may read or write the bytes that the item names, `rd` and `wr`. -/
def moves (o : EOp) (x : CItem) (rd wr : List Nat) : Bool :=
  firstItem o == some x &&
  (rd.all fun va => (mget? o.got va).isSome || (match engRead (copyState o).m 0 va 1 with | .ok [_] => true | _ => false)) &&
  wr.all fun va => match engBytes (copyState o).m 0 va 1 .write with | .ok (.inl [l]) => !underReset (copyState o).m 0 [l] | _ => false
def bf : TypeWord := word2 2 4 4
def scaled : TypeWord := mkType [4, 32] 0x0B 0 2 0 false
def localWord : Word := 0x01F0000000000000
/-- A first move of each kind into a tile: whole bytes, codes shorter than a byte, scales, rows that the window has not, bytes read ahead, and
bytes that have been. -/
theorem witness_EngineOperations_loads :
    (moves (copyOp (.tload { w := 1 }) bf 0 0 0 []) (.elem [0, 0] 0 0x40000 0) [0x40000] [] &&
      moves (copyOp (.tload { w := 1 }) (word2 0x0C 4 4) 0 0 0 []) (.elem [0, 0] 0 0x40000 0) [0x40000] [] &&
      moves (copyOp (.tload { w := 1 }) scaled 0 0 128 []) (.scale [0, 0] 0 0x40080) [0x40080] [] &&
      moves (copyOp (.gather { w := 1 }) bf localWord 0 0 [2, 0, 0, 0]) (.elem [0, 0] 0 0x40010 0) [0x40010] [] &&
      moves (copyOp (.gather { w := 1 }) bf localWord 0 0 [9, 0, 0, 0]) (.zero [0, 0]) [] [] &&
      moves (copyOp (.gather { w := 1 }) scaled localWord 0 32 [9, 0, 0, 0]) (.one [0, 0]) [] [] &&
      moves (copyOp (.tloads { w := 1 }) bf localWord 0 0 []) (.get localWord.toNat) [localWord.toNat] [] &&
      moves { copyOp (.tloads { w := 1 }) bf localWord 0 32 [] with got := (upFrom 0 32).map fun i => (localWord.toNat + i, 0) } (.elem [0, 0] 0 localWord.toNat 0)
        [localWord.toNat] []) = true := by decide +kernel
/-- The same out of a tile, and between a window and the scratchpad. -/
theorem witness_EngineOperations_stores :
    (moves (copyOp (.tstore { w := 1 }) bf 0 0 0 []) (.elem [0, 0] 0 0x40000 0) [] [0x40000] &&
      moves (copyOp (.tstore { w := 1 }) (word2 0x0C 4 4) 0 0 0 []) (.elem [0, 0] 0 0x40000 0) [] [0x40000] &&
      moves (copyOp (.tstore { w := 1 }) scaled 0 0 128 []) (.scale [0, 0] 0 0x40080) [] [0x40080] &&
      moves (copyOp (.scatter { w := 1 }) bf localWord 0 0 [2, 0, 0, 0]) (.elem [0, 0] 0 0x40010 0) [] [0x40010] &&
      moves (copyOp (.tstores { w := 1 }) bf localWord 0 0 []) (.elem [0, 0] 0 localWord.toNat 0) [] [localWord.toNat] &&
      moves (copyOp (.cpin { w := 1 }) bf localWord 1 0 []) (.pair 0x40000 localWord.toNat) [0x40000] [localWord.toNat] &&
      moves (copyOp (.cpout { w := 1 }) bf localWord 1 0 []) (.get localWord.toNat) [localWord.toNat] [] &&
      moves { copyOp (.cpout { w := 1 }) bf localWord 1 128 [] with got := (upFrom 0 128).map fun i => (localWord.toNat + i, 0) } (.pair 0x40000 localWord.toNat)
        [localWord.toNat] [0x40000]) = true := by decide +kernel
theorem witness_EngineOperations_moves : ∃ i, MovesNext (copyState (copyOp (.tload { w := 1 }) bf 0 0 0 [])) 0 (copyOp (.tload { w := 1 }) bf 0 0 0 []) 0 i (.elem [0, 0] 0 0x40000 0) :=
  movesNext_of (by decide +kernel)
/-- A GATHER whose index list may be read, and rows of both kinds. -/
theorem witness_EngineOperations_rows :
    let o := { copyOp (.gather { w := 1 }) bf localWord 0 0 [2, 9, 0, 0] with started := false, moved := [] }
    let s := copyState o
    MayStartCopy s 0 o ∧ (o.exts.getD 1 []).headD 0 ≠ 0 ∧ good (engRead s.m o.cx o.capA.toNat (4 * (o.exts.getD 1 []).headD 0)) = true ∧
      rowAt (opWindow s.m o) 2 = some 2 ∧ rowAt (opWindow s.m o) 9 = none ∧ o.index[0]? = some 2 ∧ o.index[1]? = some 9 :=
  ⟨⟨mayStart_of _ _ (by decide +kernel), rfl, rfl, by decide +kernel, by decide +kernel⟩, by decide +kernel, by decide +kernel, by decide +kernel, by decide +kernel, rfl, rfl⟩

/-! Fabric operations that start. -/
/-- An operation of the fabric, of context 0: its tile 0 is BF16 of 4 x 4. -/
def fabricOp (i : Instr) (a b : Word) : EOp :=
  { newOp i with word := slotWord i, uid := 3, cx := 0, q := .c, kd := 1, types := [0, word2 2 4 4, 0, 0], exts := [[], [4, 4], [], []], capA := a, capB := b,
                 weight := mkWeight 1 1 }
def fabricState (o : EOp) (f : Core → Core) : State :=
  { m := (testMach.modCtx 0 fun c => { (c.setWord 0 (word2 2 4 4)) with tokens := [(1, 3)] }).modCore 0 fun c => f { c with ops := [o], tlb := [⟨0, 2 ^ 30, placedLeaf⟩] } }
theorem mayStartCopy_of (s : State) (core : Nat) (o : EOp)
    (h : (o.started = false ∧ o.posted = false ∧ o.handlerOp = false ∧ o.waits = [] ∧ o.bankWait = [] ∧ (s.m.core (coreOf o.cx)).ops.map (·.uid) = [o.uid] ∧
      (s.m.ctx o.cx).out = [] ∧ (s.m.ctx o.cx).engFault.isEmpty = true ∧ (s.m.ctx o.cx).events = []) ∧
      coreOf o.cx = core ∧ o.q = .c ∧ (s.m.core core).op? o.uid = some o ∧ copyTurn s.m o = true) : MayStartCopy s core o :=
  ⟨mayStart_of s o h.1, h.2⟩
/-- s24 of the small machine: a task's endpoint on this device. -/
def here : Word := 0x400000000
def sendOp : EOp := fabricOp (.send {}) here 5
def mcastOp : EOp := fabricOp (.mcast { w := 2 }) 0x01F0000000000000 5
def fullSends (c : Core) : Core :=
  { c with sends := (upFrom 0 sendCap).map fun n => { entry := n, cx := 0, uid := 1, word := 0, tag := 0, left := 1, image := [], weight := 0, root := {} } }
/-- A SEND and an MCAST of two endpoints, with an entry free and with none. -/
theorem witness_EngineOperations_posts :
    (MayStartCopy (fabricState sendOp id) 0 sendOp ∧ postsTo (fabricState sendOp id) sendOp [here] ∧ tileError (fabricState sendOp id).m sendOp = none ∧
      freeSend ((fabricState sendOp id).m.core 0) = some 0) ∧
      (MayStartCopy (fabricState mcastOp id) 0 mcastOp ∧ (∃ eps, postsTo (fabricState mcastOp id) mcastOp eps ∧ eps.length = 2) ∧
        tileError (fabricState mcastOp id).m mcastOp = none ∧ freeSend ((fabricState mcastOp id).m.core 0) = some 0) ∧
      (MayStartCopy (fabricState sendOp fullSends) 0 sendOp ∧ postsTo (fabricState sendOp fullSends) sendOp [here] ∧
        freeSend ((fabricState sendOp fullSends).m.core 0) = none) := by
  refine ⟨⟨mayStartCopy_of _ _ _ (by decide +kernel), .inl ⟨⟨_, rfl⟩, rfl⟩, by decide +kernel, by decide +kernel⟩, ⟨mayStartCopy_of _ _ _ (by decide +kernel), ?_, by decide +kernel, by decide +kernel⟩,
    ⟨mayStartCopy_of _ _ _ (by decide +kernel), .inl ⟨⟨_, rfl⟩, rfl⟩, by decide +kernel⟩⟩
  have h : (match engRead (fabricState mcastOp id).m 0 0x01F0000000000000 16 with
      | .ok bs => ((upFrom 0 2).map fun i => BitVec.ofNat 64 (fld bs (8 * i) 8)).all fun e => !epBad e
      | .error _ => false) = true := by decide +kernel
  cases e : engRead (fabricState mcastOp id).m 0 0x01F0000000000000 16 with
  | error x => rw [e] at h; cases h
  | ok bs =>
    rw [e] at h
    refine ⟨_, .inr ⟨_, bs, rfl, e, rfl, fun e he => ?_⟩, by simp [length_upFrom]⟩
    have := List.all_eq_true.1 h e he
    simpa using this
def recvOp : EOp := fabricOp (.recv {}) 5 0
/-- A RECV with nothing delivered, with a tile of another shape, and with one that fits, its image still at its sender and with it. -/
theorem witness_EngineOperations_receives :
    let ready (w : TypeWord) : ReadyMsg := { aReady with word := w }
    let of (l : List RecvEnt) : State := fabricState recvOp fun c => { c with recvs := l }
    let due (s : State) := (s.m.core 0).recvs.find? fun e => e.cx == recvOp.cx && e.ready.tag == recvOp.capA.setWidth 32 && e.owner == 0 && ((s.m.ctx recvOp.cx).launch == some e.lid)
    (∀ l ∈ [[], [⟨0, ready (word2 2 4 8), 0, none, 0⟩], [⟨0, ready (word2 2 4 4), 0, none, 0⟩], [⟨0, ready (word2 2 4 4), 0, some [1], 0⟩]],
      MayStartCopy (of l) 0 recvOp ∧ isReceive recvOp.instr = true ∧ tagTaken ((of l).m.core 0) 0 (recvOp.capA.setWidth 32) = false ∧ due (of l) = l.head?) ∧
      (wordFault recvOp (ready (word2 2 4 8))).isSome = true ∧ (wordFault recvOp (ready (word2 2 4 4))).isNone = true := by
  refine ⟨fun l h => ?_, by decide +kernel, by decide +kernel⟩
  simp only [List.mem_cons, List.not_mem_nil, or_false] at h
  rcases h with rfl | rfl | rfl | rfl <;> exact ⟨mayStartCopy_of _ _ _ (by decide +kernel), by decide +kernel, by decide +kernel, by decide +kernel⟩
def ttsetOp : EOp := fabricOp (.ttset { w := 1 }) 2 7
def ttfireOp : EOp := fabricOp (.ttfire { w := 1 }) here 5
/-- Entry 1 of core 0's table, set by an operation that has left its queue. -/
def tabState (o : EOp) (fired armed : Bool) (f : Core → Core) : State :=
  fabricState o fun c => f { c with table := [(1, some { cx := 0, op := { ttsetOp with uid := 2 }, tag := 7, left := 1, fired := fired, fire := if armed then some ttfireOp else none })] }
theorem witness_EngineOperations_tables :
    (MayStartCopy (fabricState ttsetOp id) 0 ttsetOp ∧ ttsetOp.resume = none ∧ mget none ((fabricState ttsetOp id).m.core 0).table 1 = none ∧ bits ttsetOp.capA 9 0 ≠ 0 ∧
        ((fabricState ttsetOp id).m.core 0).recvs = []) ∧
      (MayStartCopy (tabState ttsetOp false false id) 0 ttsetOp ∧ ((mget none ((tabState ttsetOp false false id).m.core 0).table 1).any fun x => !x.fired) = true) ∧
      (MayStartCopy (tabState ttsetOp true false id) 0 ttsetOp ∧ ((mget none ((tabState ttsetOp true false id).m.core 0).table 1).any fun x => x.fired) = true) ∧
      (MayStartCopy (fabricState ttfireOp id) 0 ttfireOp ∧ mget none ((fabricState ttfireOp id).m.core 0).table 1 = none) ∧
      (MayStartCopy (tabState ttfireOp false false id) 0 ttfireOp ∧
        ((mget none ((tabState ttfireOp false false id).m.core 0).table 1).any fun x => !x.fired && x.fire.isNone) = true) ∧
      (MayStartCopy (tabState ttfireOp true false fullSends) 0 ttfireOp ∧ ((mget none ((tabState ttfireOp true false fullSends).m.core 0).table 1).any fun x => x.fired) = true ∧
        freeSend ((tabState ttfireOp true false fullSends).m.core 0) = none) :=
  ⟨⟨mayStartCopy_of _ _ _ (by decide +kernel), rfl, by decide +kernel, by decide +kernel, by decide +kernel⟩, ⟨mayStartCopy_of _ _ _ (by decide +kernel), by decide +kernel⟩,
   ⟨mayStartCopy_of _ _ _ (by decide +kernel), by decide +kernel⟩, ⟨mayStartCopy_of _ _ _ (by decide +kernel), by decide +kernel⟩,
   ⟨mayStartCopy_of _ _ _ (by decide +kernel), by decide +kernel⟩, ⟨mayStartCopy_of _ _ _ (by decide +kernel), by decide +kernel, by decide +kernel⟩⟩
def amsgOp' : EOp := fabricOp (.amsg {}) 0x01F0000000000000 here
theorem witness_EngineOperations_message :
    MayStartCopy (fabricState amsgOp' id) 0 amsgOp' ∧
      (match engRead (fabricState amsgOp' id).m 0 amsgOp'.capA.toNat 64 with | .ok bs => bs.length == 64 | .error _ => false) = true :=
  ⟨mayStartCopy_of _ _ _ (by decide +kernel), by decide +kernel⟩
/-- A fired TTFIRE that waits for a send entry, and one comes free. -/
def firedOp : EOp := { ttfireOp with started := true, posted := true, progress := 1, reads := [0] }
theorem witness_EngineOperations_fires :
    let m := (fabricState firedOp id).m
    (m.core 0).ops.filter EOp.awaitsEntry = [firedOp] ∧ (m.core 0).op? firedOp.uid = some firedOp ∧ coreOf firedOp.cx = 0 ∧
      interlockFree (m.core 0).ops firedOp = true ∧ freeSend (m.core 0) = some 0 ∧ engineStopped (m.ctx firedOp.cx) = false ∧
      tileError m firedOp = none ∧ (tileError { m with errs := [.tile 0 0 0 false] } firedOp).isSome = true := by decide +kernel
/-- Two operations of a context have faulted. -/
theorem witness_EngineOperations_faults :
    let x : EOp × FaultRec × Bool := (mOpen, { cause := 0x04 }, false)
    let s := Tc fun c => { c with engFault := [(vOpen, { cause := 0x04 }, false), x], events := [.found vOpen.uid, .found mOpen.uid] }
    (s.m.ctx 0).engFault = (vOpen, { cause := 0x04 }, false) :: [x] ∧ (s.m.ctx 0).events = .found vOpen.uid :: [.found mOpen.uid] ∧ startedOps s.m 0 = false := by
  decide +kernel
/-- The TTFIRE that a replayed TTSET arms again can be written out, once fired, to an entry that EQREPLAY takes (16 R326, 17 R343). -/
theorem test_ttfire_entry :
    (match exec (.copyOpStart 0 3) (fabricState { ttsetOp with resume := some (1, some (7, here, mkWeight 1 1)) } id) with
      | .next t => ((t.m.core 0).op? 4).any fun f => shadowEntryOk (entryBytes f false none)
      | _ => false) = true := by decide +kernel

/-! The further clauses of the statements about events. -/
/-- The update of `barState`, as `f` changes it. -/
def barUpd (f : BarUpd → BarUpd) : BarUpd :=
  f { core := 0, seat := 0, key := 0, regionOff := 0, addr := 0x01F0000000000000, expect := false, arrivals := 1, bytes := 0, gtag := 1 }
def barObj : BarObj := ⟨2, 1, 8, 8, false, 1⟩
/-- Updates that are applied, with and without a flip, that overrun in each way, and that carry another tag. -/
theorem witness_BarriersAndRoots_updates :
    UpdateDue testCtx (barUpd id) ∧
      UpdateDue { testCtx with out := [{ uid := 1, kind := .store (leBytes 8 0), locs := hbm8 }] } (barUpd fun u => { u with expect := true }) ∧
      (∀ l ∈ keyLocs 0, (barState 1).m.errAt l = false) ∧
      (overrun barObj (barUpd id)).isNone = true ∧ (updated barObj (barUpd id)).phase ≠ barObj.phase ∧ (barUpd id).bytes < 2 ^ 32 ∧
      (overrun barObj (barUpd fun u => { u with arrivals := 0 })).isNone = true ∧ (updated barObj (barUpd fun u => { u with arrivals := 0 })).phase = barObj.phase ∧
      overrun barObj (barUpd fun u => { u with arrivals := 2 }) = some 0x300000000 ∧ overrun barObj (barUpd fun u => { u with bytes := 1 }) = some 0x900000001 ∧
      overrun barObj (barUpd fun u => { u with expect := true, bytes := 7 }) = some 0x800000001 ∧
      (overrun barObj (barUpd fun u => { u with expect := true, bytes := 9 })).isNone = true ∧ barObj.tag ≠ (barUpd fun u => { u with gtag := 2 }).gtag := by
  unfold UpdateDue; decide +kernel
/-- Its core under reset; its launch swapped out, its seat not claimed again, its seat not resident; a BWAIT on it. -/
theorem witness_BarriersAndRoots_rows :
    (let s : State := { barState 1 with m := (barState 1).m.modCore 0 fun c => { c with inReset := true } }
     (s.m.core (barUpd id).core).inReset = true ∧ (s.m.ctx 0).barrier = some (barUpd id)) ∧
      (let of (l : Launch) : State := { m := { (barState 1).m with launches := [l] } }
       let st : SeatRec := { placedSeat with ctxs := [0, 1], size := 8192 }
       Away (of { testLaunch with phase := .swapped }) 0 (barUpd id) ∧ Away (of { testLaunch with seats := [], oldSeats := [st] }) 0 (barUpd id) ∧
         Away (of { testLaunch with seats := [{ st with resident := false }] }) 0 (barUpd id)) ∧
      (let s : State := { barState 1 with m := (barState 1).m.modCtx 1 fun c => { c with bwait := some (0, false) } }
       (s.m.ctx 1).bwait = some ((barUpd id).key, false)) := by
  refine ⟨by decide +kernel, ⟨⟨_, rfl, .inl rfl⟩, ⟨_, rfl, .inr (.inl ⟨_, List.mem_singleton.2 rfl, rfl⟩)⟩, ⟨_, rfl, .inr (.inr ⟨_, rfl, rfl⟩)⟩⟩, by decide +kernel⟩
theorem witness_LaunchEnds_records :
    ∀ a ∈ [0, 0x60010, 0x60000], let l := { testLaunch with record := BitVec.ofNat 64 a }
      (l.record = 0 ∨ l.record.toNat % 32 ≠ 0) ∨ (l.record ≠ 0 ∧ l.record.toNat % 32 = 0) := by decide +kernel
/-- A queue whose entry of the table can be read, and one whose entry cannot. -/
theorem witness_LaunchEnds_horizon :
    (queueState 1 true []).m.qFailure 1 = none ∧ ({ (queueState 1 true []).m with errs := [.hbm 0x60040] } : Mach).qFailure 1 ≠ none := by decide +kernel
theorem witness_QueueEvents_off : (queueState 0 true []).m.qEnabled 1 = false := by decide +kernel
/-- A claim whose only core is gated, and the restore claim likewise. -/
theorem witness_Scheduling_gated :
    let l := { testLaunch with kernel := { testKernel with tiles := 4 } }
    let s : State := { launchState (fun _ => l) id with m := (launchState (fun _ => l) id).m.modCore 1 fun c => { c with gated := true } }
    s.m.launch? 0 = some l ∧ l.phase = .running ∧ l.kernel.persistent = false ∧ l.hasWork = true ∧ seatCore s.m l.kernel l.home l.wide = some 1 ∧
      canPlace s.m l.kernel 1 = false ∧ (creditsFor s.m l.kernel l.credits (1 :: l.seats.map (·.core))).isSome = true := by decide +kernel
theorem witness_ManagementRequests_unreadable :
    let s := asking 10 0x10000000000 8 T
    reqBusy s.m 10 = true ∧ arg0 s.m = 0x10000000000 ∧ arg1 s.m = 8 ∧ s.m.attest = [] ∧ (readFailure s.m 0x10000000000 8).isSome = true := by decide +kernel
theorem witness_PowerAndResets_wakes :
    ∀ b ∈ [true, false], ((T.m.modCore 1 fun c => { c with waking := b }).core 1).waking = b ∧ seatsOn (T.m.modCore 1 fun c => { c with waking := b }) 1 = [] := by
  decide +kernel
/-- A pull of a tile whose image has been spilled. -/
theorem witness_LinkMessages_spilled :
    let x : SendRec := { entry := 4, cx := 0, uid := 1, word := 0, tag := 0, left := 1, image := [1], weight := 0, root := { gtag := 1 }, spill := some (0, 1), lid := 0 }
    let l : Launch := { testLaunch with spillBase := 0x70000 }
    let m : Mach := { testMach.modCore 0 fun c => { c with sends := [x] } with launches := [l] }
    (m.core 0).sends.find? (fun y => y.entry == 4) = some x ∧ x.spill = some (0, 1) ∧ m.launch? x.lid = some l ∧
      m.devFailure (l.spillBase + 0) x.image.length false = none := by decide +kernel
theorem witness_LinkMessages_held : ∀ l ∈ (launchState id id).m.launches, ∀ e ∈ l.held, e.cx ≠ 0 := by decide +kernel

/-! A packet whose launch waits for its core to wake. -/
def admitGated : State := { m := { admitState.m with cores := (upFrom 0 40).map fun k => (k, { gated := true }) } }
theorem wait_of (m : Mach) (q i : Nat) (bs : List Byte) (p : Packet) (r : Reserve) (h0 : (m.qFlag q 2 || !m.qEnabled q) = false) (he : entryFailure m q i = none)
    (hh : headOf m q = some (i, bs)) (h1 : fld bs 0 1 = 1 ∧ fld bs 1 1 = 1) (hd : dependences m q i bs = []) (hp : checkPacket m q i bs [] = .ok p)
    (hr : reserve m p = some r) (hc : r.cores.all (canPlace m p.kernel) = false) : readyOf m q = .wait r.cores := by
  have hn : reservation m p = none := by simp only [reservation, hr, Option.filter, hc]; rfl
  simp [readyOf, h0, hh, he, h1.1, h1.2, hd, hp, hr, hn]
theorem reserve_isSome (m : Mach) (p : Packet) (k : Nat) (c : List Nat) (h0 : ((upFrom 0 64).filter fun r => (m.root (m.qHome p.q * 64 + r)).launch.isNone) ≠ [])
    (h1 : p.kernel.spill = 0) (h2 : p.kernel.persistent = false) (h3 : seatCore m p.kernel (m.qHome p.q) (fld p.bytes 3 1 / 2 % 2 == 1) = some k)
    (h4 : creditsFor m p.kernel [] [k] = some c) : ∃ r, reserve m p = some r ∧ r.cores = [k] := by
  obtain ⟨x, hx⟩ := pickOf_isSome m _ h0
  exact ⟨⟨x, 0, [k], c⟩, by simp [reserve, hx, h1, h2, h3, h4], rfl⟩
theorem witness_QueueEvents_wait :
    ((admitGated.m.die 0).slot? 1).isSome = true ∧ ∃ k, readyOf admitGated.m 1 = .wait [k] ∧ (admitGated.m.core k).gated = true := by
  refine ⟨by decide +kernel, ?_⟩
  obtain ⟨w, hw⟩ := admit_windows admitKernel (by decide)
  have hw : readWindows admitGated.m admitKernel 0x90000 = .ok w := hw
  have hk : readKernel admitGated.m 0x80000 = .ok admitKernel := admit_kernel
  have hh : headOf admitGated.m 1 = some admitHead := admit_head
  have hp := checkPacket_of admitGated.m 1 admitHead.1 admitHead.2 admitKernel w (by decide +kernel) hk hw (by decide +kernel)
  obtain ⟨k, hs⟩ := Option.isSome_iff_exists.1 (show (seatCore admitGated.m admitKernel (admitGated.m.qHome 1) (fld admitHead.2 3 1 / 2 % 2 == 1)).isSome = true by decide +kernel)
  have h : (seatCore admitGated.m admitKernel (admitGated.m.qHome 1) (fld admitHead.2 3 1 / 2 % 2 == 1)).all
      (fun k => (creditsFor admitGated.m admitKernel [] [k]).isSome && !canPlace admitGated.m admitKernel k && (admitGated.m.core k).gated) = true := by decide +kernel
  rw [hs] at h
  simp only [Option.all_some, Bool.and_eq_true, Bool.not_eq_true'] at h
  obtain ⟨⟨hc, hl⟩, hg⟩ := h
  obtain ⟨c, hc⟩ := Option.isSome_iff_exists.1 hc
  obtain ⟨r, e, e2⟩ := reserve_isSome admitGated.m ⟨1, admitHead.1, admitHead.2, admitKernel, w.1, w.2⟩ k c
    (show ((upFrom 0 64).filter fun r => (admitGated.m.root (admitGated.m.qHome 1 * 64 + r)).launch.isNone) ≠ [] by decide +kernel) rfl rfl hs hc
  have := wait_of admitGated.m 1 admitHead.1 admitHead.2 _ r (by decide +kernel) (by decide +kernel) hh ⟨by decide, by decide⟩ (by decide +kernel) hp e (by rw [e2]; simp [hl])
  exact ⟨k, by rw [this, e2], hg⟩
end Sys2Proof.Tests
end

section
/-! SUPPORT. Rules of bundles of one slot that ask, fault or stall. -/
namespace Sys2Proof.Proofs
open Sys2Proof.Machine Sys2Proof.Safety Sys2Proof.Claims

/-! A bundle of one slot, fresh. -/

/-- What holds of every fresh bundle of one slot holds of a `Solo` state. -/
theorem forall_solo {P : State → Prop}
    (h : ∀ m cx len yield offset replayed agenda,
      P { m := m, issue := { cx := cx, len := len, yield := yield, offset := offset, replayed := replayed }, agenda := agenda })
    {s : State} (hs : Solo s) : P s := by
  obtain ⟨m, i, agenda⟩ := s
  have hi : i = { cx := i.cx, len := i.len, yield := i.yield, offset := i.offset, replayed := i.replayed } := hs
  rw [hi]
  exact h m _ _ _ _ _ agenda
/-- A bundle of one slot is its effect on the fresh bundle, closed. -/
theorem runSlot_begun {s : State} (hs : Solo s) (k : Slot) (i : Instr) (f : State → State) :
    runSlot k i f s = .next (if (newLatch k i (f (begun k s))).issue.last then finish (newLatch k i (f (begun k s)))
      else newLatch k i (f (begun k s))) :=
  forall_solo (P := fun s => runSlot k i f s = .next (if (newLatch k i (f (begun k s))).issue.last
    then finish (newLatch k i (f (begun k s))) else newLatch k i (f (begun k s)))) (fun _ _ _ _ _ _ _ => rfl) hs
/-- Effects that agree on the fresh bundle make the same bundle. -/
theorem runSlot_congr {s : State} (hs : Solo s) (k : Slot) (i : Instr) {f g : State → State} (h : f (begun k s) = g (begun k s)) :
    runSlot k i f s = runSlot k i g s := by
  rw [runSlot_begun hs, runSlot_begun hs, h]
/-- The register that a slot names is that of the context's mode (07 R127). -/
theorem sr_solo {s : State} (hs : Solo s) (r : SReg) : sr s r = reg s r :=
  forall_solo (P := fun s => sr s r = reg s r) (fun _ _ _ _ _ _ _ => rfl) hs

/-! What one slot alone makes of its bundle: a request, a fault, or a stall that asks. -/

/-- Closing a slot adds to the bundle nothing but its latch (06 R105). -/
theorem newLatch_only_latches (k : Slot) (i : Instr) (s : State) :
    ∃ L, newLatch k i s = { s with issue := { s.issue with latches := L } } := by
  unfold newLatch
  split
  · exact ⟨_, rfl⟩
  · split <;> exact ⟨_, rfl⟩

/-- A request of a bundle that has no other is made at once, unless an IDLE of the bundle holds it back. -/
theorem asksNow_single (a : Ask) : asksNow [a] = [a] := by
  cases a <;> rfl

/-- A bundle that asks and that no IDLE holds back has issued, and waits for its answers alone (17 R330). -/
theorem askCtx_of_no_idle {i : Issue} (h : i.asks.any Ask.isIdle = false) :
    askCtx i = fun c => { c with
      stalled := true, blocked := true, issued := true, idleMet := true, consts := if c.issued then c.consts else i.consts } := by
  funext c
  simp [askCtx, h]

/-- A request that a bundle makes while something else holds it back is no IDLE: an IDLE is tested at the bundle's issue (R141). -/
theorem isIdle_of_not_final {a : Ask} (h : a.final = false) : a.isIdle = false := by
  cases a with
  | idleAt n => cases h
  | _ => rfl

/-- A bundle of one slot whose only effect is a request, not an IDLE: it has issued, the request is made, and it waits. -/
theorem run_asked {s : State} (hs : Solo s) (k : Slot) (i : Instr) (f : State → State) (a : Ask) (ha : a.isIdle = false)
    (hf : f (begun k s) = askFor a (begun k s)) : runSlot k i f s = .next (asked s (applyAsk s.issue.cx s.m a)) := by
  obtain ⟨L, hL⟩ := newLatch_only_latches k i (f (begun k s))
  have hb := begun_issue hs k
  have hi : (askFor a (begun k s)).issue =
      { cx := s.issue.cx, len := (begun k s).issue.len, yield := s.issue.yield, offset := s.issue.offset,
        replayed := s.issue.replayed, old := some s.m, asks := [a] } := by
    unfold askFor
    rw [hb]
    rfl
  rw [hf] at hL
  rw [runSlot_solo hs k i f (by rw [hf, hL, hi]), hf, hL]
  unfold finish asked
  simp only [pre, hi, mergeBinds, bindClashes, firstFault, bgetStalls, asksNow_single, List.append_nil, List.foldl_nil,
    List.foldl_cons, List.any_nil, List.isEmpty_cons, Option.getD_some, Bool.false_eq_true, if_false]
  rw [askCtx_of_no_idle (by simp [ha])]
  rfl

/-- A bundle of one slot whose only effect is a fault of the slot. -/
theorem run_faulted {s : State} (hs : Solo s) (k : Slot) (i : Instr) (f : State → State) (fr : FaultRec)
    (hf : f (begun k s) = faultAt k fr (begun k s)) : runSlot k i f s = .next (trapped k fr s) := by
  refine run_trapped hs k i f fr ?_ (by rw [hf]; rfl)
  rw [hf, faultAt, begun_issue hs]
  rfl

/-- A bundle of one slot that stalls on an internal dependency and makes a request meanwhile. -/
theorem run_waiting_asking {s : State} (hs : Solo s) (k : Slot) (i : Instr) (f : State → State) (a : Ask) (ha : a.final = false)
    (hf : f (begun k s) = askFor a (stallOn .internal (begun k s))) :
    runSlot k i f s = .next (waiting true { s with m := applyAsk s.issue.cx s.m a }) := by
  obtain ⟨L, hL⟩ := newLatch_only_latches k i (f (begun k s))
  have hb := begun_issue hs k
  have hi : (askFor a (stallOn .internal (begun k s))).issue =
      { cx := s.issue.cx, len := (begun k s).issue.len, yield := s.issue.yield, offset := s.issue.offset,
        replayed := s.issue.replayed, old := some s.m, stall := some .internal, asks := [a] } := by
    unfold askFor stallOn
    rw [hb]
    rfl
  rw [hf] at hL
  rw [runSlot_solo hs k i f (by rw [hf, hL, hi]), hf, hL]
  unfold finish waiting
  simp only [pre, hi, ha, isIdle_of_not_final ha, List.filter_cons, List.filter_nil, List.foldl_nil, List.foldl_cons, List.any_nil, List.any_cons,
    Option.getD_some, Bool.or_self, Bool.not_false, if_true]
  rfl

end Sys2Proof.Proofs
end

section
/-! SUPPORT. EQREPLAY: what its bundle does, and how the entries of its block queue (07 R146, 17 R344). -/
namespace Sys2Proof.Proofs
open Sys2Proof.Machine Sys2Proof.Safety Sys2Proof.Claims

/-! The bundle. -/

/-- What EQREPLAY makes of a fresh bundle in handler mode whose registers are free: the answer it has, or else its check and its request (R146). -/
def replayEffect (s : State) (sd : RegRef) (blk : Word) : State :=
  match (me s).awaitX with
  | some (.answered _ _ n) => giveTo sd n (begun .x s)
  | some .asked => askFor (.replay blk) (begun .x s)
  | some (.faulted f) => faultAt .x f (begun .x s)
  | none =>
    if (me s).issued then askFor (.replay blk) (begun .x s)
    else if blk.toNat % 64 ≠ 0 then faultAt .x { cause := 0x08, addr := blk } (begun .x s)
    else match shadowFault s.m blk (me s).shadow ((me s).launch.getD 0) with
      | some f => faultAt .x f (begun .x s)
      | none => askFor (.replay blk) (begun .x s)

/-- EQREPLAY in handler mode with free registers runs `replayEffect`. -/
theorem exec_eqreplay {s : State} {sd sa : SReg} (hh : (me s).handler = true) (ha : Free s (reg s sa)) (hd : Open s (reg s sd)) :
    ∃ f, exec (.eqreplay sd sa) s = runSlot .x (.eqreplay sd sa) f s ∧ f (begun .x s) = replayEffect s (reg s sd) ((me s).s sa) := by
  refine ⟨_, rfl, ?_⟩
  have hr : reads [sr (begun .x s) sa] (begun .x s) = begun .x s := reads_free _ _ (by simpa [Free, reg] using ha)
  have hw : writesPending (sr (begun .x s) sd) (begun .x s) = begun .x s := writesPending_open _ _ hd
  simp only [handlerOnly, preCtx_begun, hh, if_true, hr, hw]
  rfl

/-! The entries of a shadow block. -/

/-- The error log of the dies takes no part in a write of the device's own agents. -/
theorem devWrite_dies (m : Mach) (d : Mp Die) (va : Nat) (bs : List Byte) :
    ({ m with dies := d } : Mach).devWrite va bs = { m.devWrite va bs with dies := d } := by
  have write_dies : ∀ (m : Mach) (l : Loc) (b : Byte), ({ m with dies := d } : Mach).write l b = { m.write l b with dies := d } :=
    fun m l b => by cases l <;> rfl
  unfold Mach.devWrite
  generalize (upFrom va bs.length).zip bs = cells
  induction cells generalizing m with
  | nil => rfl
  | cons x xs ih =>
    have hloc : ({ m with dies := d } : Mach).sysLoc x.1 = m.sysLoc x.1 := rfl
    simp only [List.foldl_cons, hloc]
    cases m.sysLoc x.1 with
    | none => exact ih m
    | some l => simp only [write_dies]; exact ih _

/-- A store on behalf of a die writes to memory what the plain write does: a failure of it is only logged. -/
theorem mem_devStore (m : Mach) (die va : Nat) (bs : List Byte) : (m.devStore die va bs).mem = (m.devWrite va bs).mem := by
  have hlog : m.logDev die (m.devFailure va bs.length true) = { m with dies := (m.logDev die (m.devFailure va bs.length true)).dies } := by
    cases m.devFailure va bs.length true <;> rfl
  unfold Mach.devStore
  rw [hlog, devWrite_dies]

/-- What a step of EQREPLAY leaves where it has come to the last entry: the answer, and a block that counts no entry (R146). -/
theorem replayStep_done {m m' : Mach} {cx n n' q q' : Nat} {blk : Word} (hn : (m.ctx cx).replay.getD (0, 0) = (n, q))
    (hr : replayFrom cx blk (fld (m.devRead blk.toNat 2) 0 2) 113 m n q = (m', n', q')) (hd : fld (m.devRead blk.toNat 2) 0 2 ≤ n') :
    replayStep m cx blk = (clearShadow m' cx blk).modCtx cx fun c =>
      { c with replay := none, awaitX := some (.answered true false (BitVec.ofNat 64 q')) } := by
  unfold replayStep
  rw [hn]
  dsimp only
  rw [hr]
  exact if_pos hd

/-- What it leaves where entries are left: the next entry and the number queued, and whether that entry can be read (R146). -/
theorem replayStep_left {m m' : Mach} {cx n n' q q' : Nat} {blk : Word} (hn : (m.ctx cx).replay.getD (0, 0) = (n, q))
    (hr : replayFrom cx blk (fld (m.devRead blk.toNat 2) 0 2) 113 m n q = (m', n', q')) (hd : n' < fld (m.devRead blk.toNat 2) 0 2) :
    replayStep m cx blk = m'.modCtx cx fun c => { c with
      replay := some (n', q'), replayAt := blk,
      awaitX := some (match shadowRead m' (shadowEntry blk n') 256 with | some f => .faulted f | none => .asked) } := by
  unfold replayStep
  rw [hn]
  dsimp only
  rw [hr]
  exact if_neg (Nat.not_le.2 hd)

section
variable {m : Mach} {cx count n : Nat} {blk : Word}

/-- Replay stops before an entry that cannot be read (R344; log 57). -/
theorem replayFrom_unreadable {f : FaultRec} (h : shadowRead m (shadowEntry blk n) 256 = some f) (fuel q : Nat) :
    replayFrom cx blk count (fuel + 1) m n q = (m, n, q) := by
  simp [replayFrom, h]

/-- An entry that is not valid is passed, its weights returned (R344). -/
theorem replayFrom_invalid (hn : n < count) (h : shadowRead m (shadowEntry blk n) 256 = none)
    (hv : fld (m.devRead (shadowEntry blk n) 256) 0 1 % 2 = 0) (fuel q : Nat) :
    replayFrom cx blk count (fuel + 1) m n q =
      replayFrom cx blk count fuel (m.returnAll (m.ctx cx).qwRoot (entryWeights (m.devRead (shadowEntry blk n) 256))) (n + 1) q := by
  simp [replayFrom, h, hv, hn]

/-- A valid entry is queued where its queue has room; else the context waits for room (R146, 01 R12). -/
theorem replayFrom_valid (hn : n < count) (h : shadowRead m (shadowEntry blk n) 256 = none)
    (hv : fld (m.devRead (shadowEntry blk n) 256) 0 1 % 2 = 1) {o : EOp}
    (ho : opOfEntry (m.ctx cx) cx (m.devRead (shadowEntry blk n) 256) = some o) (fuel q : Nat) :
    replayFrom cx blk count (fuel + 1) m n q =
      if m.queueRoom cx o.q then replayFrom cx blk count fuel (m.requeue o) (n + 1) (q + 1) else (m.addWaiter cx o.q, n, q) := by
  simp [replayFrom, h, hv, hn, ho]

end

/-- Numbering an armed TTFIRE that comes back with its TTSET changes no context (17 R343). -/
theorem ctx_enqueue_numbered (m : Mach) (o : EOp) (j : Nat) :
    (if (o.resume.bind (·.2)).isSome then (m.enqueue o).nextUid else m.enqueue o).ctx j = (m.enqueue o).ctx j := by
  split <;> rfl
/-- A requeued operation gives td the captured word where nothing has written td's word since the restore (R146; log 97). -/
theorem ctx_requeue_restored {m : Mach} {o : EOp} {t : Nat} (ht : (opUses o.instr).td = some t)
    (hg : (((m.enqueue o).ctx o.cx).tile t).gen = 0) :
    (m.requeue o).ctx o.cx = ((m.enqueue o).ctx o.cx).deliverWord t (o.types.getD 0 0) := by
  unfold Mach.requeue
  rw [ctx_modCtx_same, ctx_enqueue_numbered]
  simp only [ht, hg, if_true]
/-- Otherwise, or with no td, requeueing leaves the context as enqueueing does. -/
theorem ctx_requeue_written {m : Mach} {o : EOp} (hg : ∀ t, (opUses o.instr).td = some t → (((m.enqueue o).ctx o.cx).tile t).gen ≠ 0) :
    (m.requeue o).ctx o.cx = (m.enqueue o).ctx o.cx := by
  unfold Mach.requeue
  rw [ctx_modCtx_same, ctx_enqueue_numbered]
  cases ht : (opUses o.instr).td with
  | none => rfl
  | some t => simp only [hg t ht, if_false]
/-- Requeueing queues on the cores what enqueueing does. -/
theorem core_requeue (m : Mach) (o : EOp) (k : Nat) : (m.requeue o).core k = (m.enqueue o).core k := by
  unfold Mach.requeue
  rw [core_modCtx]
  split <;> rfl

/-- Every case of an EQREPLAY bundle in handler mode with free registers: its faults, its request, and its answer (R146, 17 R344). -/
theorem eqreplay_cases {s : State} {sd sa : SReg} (hs : Solo s) (hh : (me s).handler = true) (ha : Free s (reg s sa))
    (hd : Open s (reg s sd)) :
    (∀ fr, replayEffect s (reg s sd) ((me s).s sa) = faultAt .x fr (begun .x s) →
      exec (.eqreplay sd sa) s = .next (trapped .x fr s)) ∧
    (replayEffect s (reg s sd) ((me s).s sa) = askFor (.replay ((me s).s sa)) (begun .x s) →
      exec (.eqreplay sd sa) s = .next (asked s (replayStep s.m s.issue.cx ((me s).s sa)))) ∧
    (∀ n, replayEffect s (reg s sd) ((me s).s sa) = giveTo (reg s sd) n (begun .x s) →
      ∃ t, exec (.eqreplay sd sa) s = .next t ∧ Retires .x (.eqreplay sd sa) (nextPc s .x) s (gives s (reg s sd) n) t) := by
  obtain ⟨f, he, hf⟩ := exec_eqreplay hh ha hd
  rw [he]
  exact ⟨fun fr h => run_faulted hs .x _ f fr (hf.trans h), fun h => run_asked hs .x _ f _ rfl (hf.trans h),
    fun n h => run_clean hs .x _ f _ (hf.trans (h.trans (giveTo_begun .x _ n hd))) (pc_outAfter _ _ _)⟩

/-- Settles O17: each case of EQREPLAY is one of `replayEffect`, and its steps go by the laws of `replayStep` and `replayFrom`. -/
theorem replayQueues : Obligations.ReplayQueues := by
  refine ⟨fun s sd sa hs hh ha hd => ?_, fun m cx blk n q n' q' m' hn hr => ⟨fun hle => ?_, fun hlt => ?_⟩,
    fun m cx blk count fuel n q hn => ⟨fun f hf => ?_, fun hread => ⟨fun hv => ?_, fun o hv ho => ⟨fun hroom => ?_, fun hfull => ?_⟩⟩⟩,
    fun m o t ht hg => ?_, fun m o hg => ⟨?_, ?_⟩⟩
  · obtain ⟨faults, asks, answers⟩ := eqreplay_cases hs hh ha hd
    refine ⟨fun hw hi hal => faults _ ?_, fun fr hw hi hal hbad => faults _ ?_, fun hw hal hgood => asks ?_, fun hw => asks ?_,
      fun fr hw => faults _ ?_, fun ok refused n hw => answers n ?_⟩
    · simp only [replayEffect, hw, hi, Bool.false_eq_true, if_false, if_pos hal]
    · simp only [replayEffect, hw, hi, Bool.false_eq_true, if_false, hal, ne_eq, not_true_eq_false, hbad]
    · simp only [replayEffect, hw, hal, ne_eq, not_true_eq_false, if_false, hgood, ite_self]
    · rcases hw with hw | ⟨hw, hi⟩
      · simp only [replayEffect, hw]
      · simp only [replayEffect, hw, hi, if_true]
    · simp only [replayEffect, hw]
    · simp only [replayEffect, hw]
  · rw [replayStep_done hn hr hle, ctx_modCtx_same]
    exact ⟨rfl, rfl, mem_devStore m' _ _ _⟩
  · rw [replayStep_left hn hr hlt, ctx_modCtx_same]
    exact ⟨rfl, rfl⟩
  · exact replayFrom_unreadable hf fuel q
  · exact replayFrom_invalid hn hread hv fuel q
  · rw [replayFrom_valid hn hread hv ho, if_pos hroom]
  · rw [replayFrom_valid hn hread hv ho, hfull]
    rfl
  · exact ctx_requeue_restored ht hg
  · exact ctx_requeue_written hg
  · rw [core_requeue]

end Sys2Proof.Proofs
end

section
/-! SUPPORT. Engine slots that stall, wait for their queue or fault (07 R120, 01 R12, 08 R148). -/
namespace Sys2Proof.Proofs
open Sys2Proof.Machine Sys2Proof.Safety Sys2Proof.Claims

/-! The tokens of an engine slot. -/

/-- The fields of a V word are those it was made of (06 R112). -/
theorem vFields_vWord (op : BitVec 6) (v : VSlot) : vFields (vWord op v) = (op, v) := by
  have h : ∀ i n, (vWord op v).extractLsb' i n = BitVec.extractLsb' i n
      (op ++ v.op2 ++ v.op3 ++ v.td ++ v.ta ++ v.tb ++ v.tc ++ v.sx ++ v.rnd ++ v.kd ++ v.kw0 ++ v.kw1 ++ v.kw2) := fun _ _ => rfl
  simp [vFields, h, BitVec.extractLsb'_append_eq_of_le, BitVec.extractLsb'_append_eq_right, -Nat.reduceAdd]
/-- The fields of an M word are those it was made of (06 R113). -/
theorem mFields_mWord (op : BitVec 6) (m : MSlot) : mFields (mWord op m) = (op, m) := by
  have h : ∀ i n, (mWord op m).extractLsb' i n = BitVec.extractLsb' i n
      (op ++ m.td ++ m.ta ++ m.tb ++ m.tx ++ m.sx ++ m.flags ++ m.kd ++ m.kw0 ++ m.kw1 ++ m.kw2 ++ m.imm) := fun _ _ => rfl
  simp [mFields, h, BitVec.extractLsb'_append_eq_of_le, BitVec.extractLsb'_append_eq_right, -Nat.reduceAdd]
/-- The fields of a C word are those it was made of (06 R113). -/
theorem cFields_cWord (op : BitVec 6) (c : CSlot) : cFields (cWord op c) = (op, c) := by
  have h : ∀ i n, (cWord op c).extractLsb' i n = BitVec.extractLsb' i n
      (op ++ c.t ++ c.w ++ c.sa ++ c.sb ++ c.hint ++ c.kd ++ c.kw0 ++ c.kw1 ++ c.kw2 ++ c.stride) := fun _ _ => rfl
  simp [cFields, h, BitVec.extractLsb'_append_eq_of_le, BitVec.extractLsb'_append_eq_right, -Nat.reduceAdd]

theorem slotTokens_vWord (p : Pipe) (op : BitVec 6) (v : VSlot) :
    slotTokens (pipeQueue p) (vWord op v) = (v.kd.toNat, [v.kw0.toNat, v.kw1.toNat, v.kw2.toNat]) := by
  cases p <;> simp only [pipeQueue, slotTokens, vFields_vWord]
theorem slotTokens_mWord (op : BitVec 6) (m : MSlot) :
    slotTokens .m (mWord op m) = (m.kd.toNat, [m.kw0.toNat, m.kw1.toNat, m.kw2.toNat]) := by
  simp only [slotTokens, mFields_mWord]
theorem slotTokens_cWord (op : BitVec 6) (c : CSlot) :
    slotTokens .c (cWord op c) = (c.kd.toNat, [c.kw0.toNat, c.kw1.toNat, c.kw2.toNat]) := by
  simp only [slotTokens, cFields_cWord]

/-! An engine slot that does not queue. -/

/-- A context that waits for an entry of a queue stands once in the list of those that wait (01 R12). -/
theorem addWaiter_eq (m : Mach) (cx : Nat) (q : QKind) :
    m.addWaiter cx q = m.modCore (coreOf cx) fun c =>
      { c with waiters := if c.waiters.contains (q, cx) then c.waiters else c.waiters ++ [(q, cx)] } := by
  refine congrArg (m.modCore (coreOf cx)) (funext fun c => ?_)
  by_cases h : c.waiters.contains (q, cx) = true
  · simp only [h, if_true]
  · simp only [h, Bool.false_eq_true, if_false]

section
variable {s : State} {k : Slot} {q : QKind} {i : Instr} {word : BitVec 64} {regs : List RegRef} {kd : Nat} {kws : List Nat}

/-- An engine slot whose queue has room stalls while its kd is pending (07 R120). -/
theorem engine_kd_pending (hs : Solo s) (mb : Bool) (plan : State → Except FaultRec Plan) (hr : ∀ r ∈ regs, Free s r)
    (ht : slotTokens q word = (kd, kws)) (hkd : (me s).token kd ≠ 0) (hroom : s.m.queueRoom s.issue.cx q = true) :
    runSlot k i (engineIssue k q word regs mb plan) s = .next (waiting true s) := by
  have hreads : reads regs (begun k s) = begun k s := reads_free _ _ hr
  have hf : engineIssue k q word regs mb plan (begun k s) = stallOn .internal (begun k s) := by
    have hpre : pre (stallOn .internal (begun k s)) = s.m := rfl
    simp [engineIssue, ht, hreads, hkd, hpre, hroom, stallOn_internal_issue]
  exact run_waiting hs k i _ .internal ⟨_, by rw [hf, stallOn_internal_issue]⟩ (by rw [hf]; rfl)

/-- An engine slot that always queues and whose queue is full stands among those that wait for an entry of it (01 R12). -/
theorem engine_queue_full (hs : Solo s) (plan : State → Except FaultRec Plan) (hr : ∀ r ∈ regs, Free s r)
    (ht : slotTokens q word = (kd, kws)) (hkd : (me s).token kd = 0) (hfull : s.m.queueRoom s.issue.cx q = false) :
    runSlot k i (engineIssue k q word regs false plan) s = .next (waiting true { s with m := s.m.addWaiter s.issue.cx q }) := by
  refine run_waiting_asking hs k i _ (.waiter q) rfl ?_
  have hreads : reads regs (begun k s) = begun k s := reads_free _ _ hr
  have hstall : (begun k s).issue.stall = none := by rw [begun_issue hs]
  simp [engineIssue, ht, hreads, hkd, hfull, hstall]

/-- An engine slot that may queue and fails its check faults with the fault of the check (08 R148). -/
theorem engine_check_fails (hs : Solo s) (mb : Bool) (plan : State → Except FaultRec Plan) (hr : ∀ r ∈ regs, Free s r)
    (ht : slotTokens q word = (kd, kws)) (hkd : (me s).token kd = 0) (hroom : s.m.queueRoom s.issue.cx q = true) {f : FaultRec}
    (hp : plan (begun k s) = .error f) :
    runSlot k i (engineIssue k q word regs mb plan) s = .next (trapped k f s) := by
  refine run_faulted hs k i _ f ?_
  have hreads : reads regs (begun k s) = begun k s := reads_free _ _ hr
  have hstall : (begun k s).issue.stall = none := by rw [begun_issue hs]
  simp [engineIssue, ht, hreads, hkd, hroom, hstall, hp]

end

/-! What the rows of the tables run. -/

/-- A slot whose words fail their rule has no plan. -/
theorem planOf_error {s : State} {k : Slot} {i : Instr} {r : Rule} {groups : Bool} {td ta tb tc : TReg} {f : FaultRec}
    (h : typing s r groups td ta tb tc = .error f) (capA : Word) (draws : Typed → Nat) :
    planOf i r groups td ta tb tc capA draws (begun k s) = .error f := by
  have hplan : planOf i r groups td ta tb tc capA draws (begun k s) = (typing s r groups td ta tb tc >>= fun t => .ok
      { op := some { newOp i with capA := capA, types := t.types, exts := t.exts },
        td := t.word.map fun w => (td.toNat, w), binds := t.env.t, draws := draws t }) := rfl
  rw [hplan, h]
  rfl

/-- A V slot that always queues: an engine slot of the pipe's queue with the slot's tokens. -/
def IsIssueV (row : Instr) (p : Pipe) (v : VSlot) (r : Rule) : Prop :=
  (∀ s, ∃ draws, exec row s = issueV row p v r draws s) ∧
    slotTokens (pipeQueue p) (slotWord row) = (v.kd.toNat, [v.kw0.toNat, v.kw1.toNat, v.kw2.toNat])
theorem isIssueV_chainTable {p : Pipe} {v : VSlot} {row : Instr × Rule × Bool} (h : row ∈ chainTable p v) :
    IsIssueV row.1 p v (withChain row.2.1 row.2.2 v.op2.toNat v.op3.toNat) := by
  simp only [chainTable, List.mem_cons, List.not_mem_nil, or_false] at h
  rcases h with rfl | rfl | rfl | rfl | rfl | rfl | rfl | rfl | rfl | rfl | rfl | rfl | rfl | rfl | rfl | rfl | rfl | rfl <;>
    exact ⟨fun s => ⟨_, rfl⟩, slotTokens_vWord p _ v⟩
theorem isIssueV_plainTable {p : Pipe} {v : VSlot} {row : Instr × Rule × (Typed → Nat)} (h : row ∈ plainTable p v) :
    IsIssueV row.1 p v row.2.1 := by
  simp only [plainTable, List.mem_cons, List.not_mem_nil, or_false] at h
  rcases h with rfl | rfl | rfl | rfl | rfl | rfl | rfl | rfl | rfl | rfl | rfl | rfl | rfl <;>
    exact ⟨fun s => ⟨_, rfl⟩, slotTokens_vWord p _ v⟩
theorem isIssueV_reduceTable {p : Pipe} {v : VSlot} {row : Instr × Rule × (Typed → Nat)} (h : row ∈ reduceTable p v) :
    IsIssueV row.1 p v row.2.1 := by
  simp only [reduceTable, List.mem_cons, List.not_mem_nil, or_false] at h
  rcases h with rfl | rfl | rfl | rfl | rfl | rfl | rfl | rfl | rfl | rfl | rfl | rfl <;>
    exact ⟨fun s => ⟨_, rfl⟩, slotTokens_vWord p _ v⟩

/-- The M slots are engine slots of their queue with the slot's tokens. -/
theorem exec_mTable {m : MSlot} {row : Instr × Rule × Bool} (h : row ∈ mTable m) (s : State) :
    exec row.1 s = issueM row.1 m row.2.1 row.2.2 s ∧
      slotTokens .m (slotWord row.1) = (m.kd.toNat, [m.kw0.toNat, m.kw1.toNat, m.kw2.toNat]) := by
  simp only [mTable, List.mem_cons, List.not_mem_nil, or_false] at h
  rcases h with rfl | rfl | rfl | rfl | rfl | rfl | rfl | rfl | rfl <;>
    exact ⟨rfl, slotTokens_mWord _ m⟩

/-! The plans of copies: none reads what a fresh bundle has beside its context and offset. -/

section
variable {s : State} (hs : Solo s) (c : CSlot)
include hs

theorem cA_begun (k : Slot) : cA (begun k s) c = cA s c :=
  forall_solo (P := fun s => cA (begun k s) c = cA s c) (fun _ _ _ _ _ _ _ => rfl) hs
theorem tileCopyPlan_begun (i : Instr) (store scratch : Bool) :
    tileCopyPlan i c store scratch (begun .c s) = tileCopyPlan i c store scratch s :=
  forall_solo (P := fun s => tileCopyPlan i c store scratch (begun .c s) = tileCopyPlan i c store scratch s) (fun _ _ _ _ _ _ _ => rfl) hs
theorem linesPlan_begun (i : Instr) (cpin : Bool) : linesPlan i c cpin (begun .c s) = linesPlan i c cpin s :=
  forall_solo (P := fun s => linesPlan i c cpin (begun .c s) = linesPlan i c cpin s) (fun _ _ _ _ _ _ _ => rfl) hs
theorem gatherPlan_begun (i : Instr) (store : Bool) : gatherPlan i c store (begun .c s) = gatherPlan i c store s :=
  forall_solo (P := fun s => gatherPlan i c store (begun .c s) = gatherPlan i c store s) (fun _ _ _ _ _ _ _ => rfl) hs
theorem recvPlan_begun (i : Instr) (ok : TypeWord → Bool) (draws : List Nat → Nat) :
    recvPlan i c ok draws (begun .c s) = recvPlan i c ok draws s :=
  forall_solo (P := fun s => recvPlan i c ok draws (begun .c s) = recvPlan i c ok draws s) (fun _ _ _ _ _ _ _ => rfl) hs

end

/-- A copy is an engine slot of the copy queue with the slot's tokens, over the scratchpad range of its row. -/
theorem exec_copyTable {s : State} (hs : Solo s) {c : CSlot} {row : Instr × (State → Except FaultRec Plan) × List (Nat × Nat)}
    (h : row ∈ copyTable s c) :
    (∃ range, exec row.1 s = issueC row.1 c range false row.2.1 s ∧ range (begun .c s) = row.2.2) ∧
      row.2.1 (begun .c s) = row.2.1 s ∧ slotTokens .c (slotWord row.1) = (c.kd.toNat, [c.kw0.toNat, c.kw1.toNat, c.kw2.toNat]) := by
  have ha : addrRange c (begun .c s) = [((cA s c).toNat, 0)] := by rw [addrRange, cA_begun hs]
  simp only [copyTable, List.mem_cons, List.not_mem_nil, or_false] at h
  rcases h with rfl | rfl | rfl | rfl | rfl | rfl | rfl | rfl | rfl | rfl | rfl
  · exact ⟨⟨noRange, rfl, rfl⟩, tileCopyPlan_begun hs c _ _ _, slotTokens_cWord _ c⟩
  · exact ⟨⟨noRange, rfl, rfl⟩, tileCopyPlan_begun hs c _ _ _, slotTokens_cWord _ c⟩
  · exact ⟨⟨addrRange c, rfl, ha⟩, tileCopyPlan_begun hs c _ _ _, slotTokens_cWord _ c⟩
  · exact ⟨⟨addrRange c, rfl, ha⟩, tileCopyPlan_begun hs c _ _ _, slotTokens_cWord _ c⟩
  · exact ⟨⟨addrRange c, rfl, ha⟩, linesPlan_begun hs c _ _, slotTokens_cWord _ c⟩
  · exact ⟨⟨addrRange c, rfl, ha⟩, linesPlan_begun hs c _ _, slotTokens_cWord _ c⟩
  · exact ⟨⟨addrRange c, rfl, ha⟩, gatherPlan_begun hs c _ _, slotTokens_cWord _ c⟩
  · exact ⟨⟨addrRange c, rfl, ha⟩, gatherPlan_begun hs c _ _, slotTokens_cWord _ c⟩
  · exact ⟨⟨noRange, rfl, rfl⟩, recvPlan_begun hs c _ anyWord fun _ => 0, slotTokens_cWord _ c⟩
  · exact ⟨⟨noRange, rfl, rfl⟩, recvPlan_begun hs c _ (fun w => TW.fmt w == 0x01 || TW.fmt w == 0x09) fun _ => 0, slotTokens_cWord _ c⟩
  · exact ⟨⟨noRange, rfl, rfl⟩, recvPlan_begun hs c _ _ _, slotTokens_cWord _ c⟩

/-- A C slot that is no carrier and whose scratchpad range is resident runs its engine slot (17 R342). -/
theorem issueC_resident {s : State} (hs : Solo s) (i : Instr) (c : CSlot) {range : State → List (Nat × Nat)}
    (plan : State → Except FaultRec Plan) (hres : Resident s (range (begun .c s))) :
    issueC i c range false plan s = runSlot .c i (engineIssue .c .c (slotWord i) [reg s c.sa, reg s c.sb] false plan) s := by
  refine runSlot_congr hs .c i ?_
  dsimp only
  rw [if_neg]
  · rfl
  · simp only [Bool.false_and, Bool.or_false, Bool.and_eq_true, List.any_eq_true, not_and, not_exists]
    intro _ x hx
    split
    · next k o e => exact absurd e (hres x hx k o)
    · exact Bool.false_ne_true

/-- A row that is a V slot which always queues and whose words fail their rule faults with the fault of the rule. -/
theorem isIssueV_typing_fails {s : State} (hs : Solo s) {row : Instr} {p : Pipe} {v : VSlot} {r : Rule} (hrow : IsIssueV row p v r)
    (hsx : Free s (reg s v.sx)) (hq : MayQueue s (pipeQueue p) v.kd) {f : FaultRec}
    (ht : typing s r false v.td v.ta v.tb v.tc = .error f) : exec row s = .next (trapped p.slot f s) := by
  obtain ⟨hexec, htok⟩ := hrow
  obtain ⟨hroom, hkd⟩ := hq
  obtain ⟨draws, he⟩ := hexec s
  rw [he]
  exact engine_check_fails hs false _ (by simpa [sr_solo hs] using hsx) htok hkd hroom (planOf_error ht _ draws)

/-- Settles O42: each slot of the tables is an engine slot, which stalls on its kd, waits for its queue or faults with its check. -/
theorem engineSlotStalls : Obligations.EngineSlotStalls := by
  intro p v m s hs hsx
  refine ⟨fun row hrow hkd hroom => ?_, fun row hrow hkd hfull => ?_, fun row hrow f hq ht => ?_, fun row hrow f hq ht => ?_,
    fun row hrow f hq ht => isIssueV_typing_fails hs (isIssueV_chainTable hrow) hsx hq ht, fun c hsa hsb hq row hrow hres f hf => ?_⟩
  · obtain ⟨hexec, htok⟩ := isIssueV_chainTable hrow
    obtain ⟨draws, he⟩ := hexec s
    rw [he]
    exact engine_kd_pending hs false _ (by simpa [sr_solo hs] using hsx) htok hkd hroom
  · obtain ⟨he, htok⟩ := exec_mTable hrow s
    rw [he, ← addWaiter_eq]
    exact engine_queue_full (regs := []) hs _ (by simp) htok hkd hfull
  · obtain ⟨he, htok⟩ := exec_mTable hrow s
    obtain ⟨hroom, hkd⟩ := hq
    rw [he]
    exact engine_check_fails hs false _ (by simp) htok hkd hroom (planOf_error ht _ _)
  · rcases List.mem_append.1 hrow with h | h
    · exact isIssueV_typing_fails hs (isIssueV_plainTable h) hsx hq ht
    · exact isIssueV_typing_fails hs (isIssueV_reduceTable h) hsx hq ht
  · obtain ⟨⟨range, he, hrange⟩, hplan, htok⟩ := exec_copyTable hs hrow
    obtain ⟨hroom, hkd⟩ := hq
    rw [he, issueC_resident hs _ _ _ (hrange ▸ hres)]
    exact engine_check_fails hs false _ (by simp [hsa, hsb]) htok hkd hroom (hplan.trans hf)

end Sys2Proof.Proofs
end

section
/-! SUPPORT. The state after reset (18 R355, Table 18-3). -/
namespace Sys2Proof.Proofs
open Sys2Proof.Machine Sys2Proof.Safety Sys2Proof.Claims

/-- After reset no management register is listed, so each holds its reset value. -/
theorem mgmtAt_reset (off : Nat) : State.reset.m.mgmtAt off = mgmtReset State.reset.m.grpPos off := rfl
/-- A field of 16 bits of the reset value of POSITION_MAP (16 R313). -/
theorem positionMap_reset (p : Nat) (hp : p < 16) :
    State.reset.m.mgmtAt (0x090 + 8 * (p / 4)) / 2 ^ (16 * (p % 4)) % 65536 = 0x8000 + p := by
  rw [mgmtAt_reset]
  interval_cases p <;> rfl
/-- Every byte of memory reads zero after reset: none is listed (log 3). -/
theorem read_reset (l : Loc) : State.reset.m.read l = 0 := by cases l <;> rfl
/-- No context is listed after reset. -/
theorem ctx_reset (cx : Nat) : ∃ fill, State.reset.m.ctx cx = { fill := fill } := ⟨_, rfl⟩
/-- A register of a context that nothing has written reads zero (log 2). -/
theorem regAt_fresh (fill r : Nat) : ({ fill := fill } : Ctx).regAt r = 0 := by
  unfold Ctx.regAt
  split <;> rfl

/-- Settles O47: nothing is listed after reset, so every accessor gives the reset value. -/
theorem resetState : Obligations.ResetState := by
  refine ⟨⟨memoryWf_reset, ?_⟩, rfl, rfl, read_reset, fun cx => ⟨rfl, rfl⟩, rfl, fun d => ⟨rfl, rfl⟩, ?_, positionMap_reset, rfl, rfl, rfl,
    rfl, rfl, rfl, rfl, fun cx r => ?_⟩
  · rintro m ⟨⟩
  · simp only [List.forall_mem_cons, mgmtAt_reset]
    exact ⟨rfl, rfl, rfl, rfl, rfl, rfl, rfl, rfl, rfl, rfl, rfl, rfl, rfl, rfl, nofun⟩
  · obtain ⟨fill, h⟩ := ctx_reset cx
    rw [h, regAt_fresh]

end Sys2Proof.Proofs
end

section
/-! SUPPORT. Messages that a link brings: what their arrival does, and what each class does once accepted (16 R306, R308; 15 R288). -/
namespace Sys2Proof.Proofs
open Sys2Proof.Machine Sys2Proof.Safety Sys2Proof.Claims

/-! Arrival. -/

/-- The machine of the claims after the flits are accepted is the model's. -/
theorem acceptFlits_eq_received (s : State) (x : Msg) : acceptFlits s.m x = received s x := by
  unfold acceptFlits received
  cases inPort s.m x <;> rfl
/-- So is the machine that keeps the link sequence number of a message with weight. -/
theorem keepSeq_eq_kept (s : State) (x : Msg) : keepSeq s.m x (acceptFlits s.m x) = kept s x := by
  unfold keepSeq kept
  rw [acceptFlits_eq_received]
  cases x.isWeighted <;> rfl

/-- A message that no link brings acts at once. -/
theorem arrive_own {s : State} {x : Msg} (h : ¬ByLink s x) (f : Mach → Mach) : arrive x s.m f = f s.m := by
  obtain ⟨hrx, hsrc⟩ : s.m.rx = none ∧ x.hdr.src.toNat = s.m.deviceNo := by simpa [ByLink] using h
  simp [arrive, hrx, hsrc]

section
variable {s : State} {x : Msg} (hb : ByLink s x)
include hb

/-- A message by a link is not taken for one of the device's own. -/
theorem not_own_of_byLink : (s.m.rx.isNone && x.hdr.src.toNat == s.m.deviceNo) = false := by
  rw [Bool.and_eq_false_iff]
  exact hb.imp (fun h => Option.isNone_eq_false_iff.2 (Option.isSome_iff_ne_none.2 h)) fun h => by simpa using h
theorem arrive_outOfSequence (ho : outOfSequence s.m = true) (f : Mach → Mach) : arrive x s.m f = s.m := by
  rw [arrive, not_own_of_byLink hb, ho]
  rfl

variable (ho : outOfSequence s.m = false)
include ho

/-- What a message in sequence does: discarded and counted, dropped as a second copy, passed on, or acted on. -/
theorem arrive_inSequence (f : Mach → Mach) : arrive x s.m f =
    if unnegotiated s x then (received s x).lose x.flitCount
    else if x.isWeighted && repeated s.m then received s x
    else if x.hdr.dst.toNat ≠ s.m.deviceNo then { kept s x with outbox := (kept s x).outbox ++ [x] } else f (kept s x) := by
  rw [arrive, not_own_of_byLink hb, ho, ← acceptFlits_eq_received, ← keepSeq_eq_kept]
  rfl
theorem arrive_unnegotiated (hu : unnegotiated s x = true) (f : Mach → Mach) : arrive x s.m f = (received s x).lose x.flitCount := by
  rw [arrive_inSequence hb ho, if_pos hu]

variable (hu : unnegotiated s x = false)
include hu

theorem arrive_repeated (hw : x.isWeighted = true) (hr : repeated s.m = true) (f : Mach → Mach) : arrive x s.m f = received s x := by
  rw [arrive_inSequence hb ho]
  simp [hu, hw, hr]

variable (hw : (x.isWeighted && repeated s.m) = false)
include hw

theorem arrive_forward (hd : x.hdr.dst.toNat ≠ s.m.deviceNo) (f : Mach → Mach) :
    arrive x s.m f = { kept s x with outbox := (kept s x).outbox ++ [x] } := by
  rw [arrive_inSequence hb ho, hu, hw]
  exact if_pos hd
theorem arrive_here (hd : x.hdr.dst.toNat = s.m.deviceNo) (f : Mach → Mach) : arrive x s.m f = f (kept s x) := by
  rw [arrive_inSequence hb ho, hu, hw]
  exact if_neg (not_not.2 hd)
end

/-- A message with weight that is no second copy is not dropped. -/
theorem not_second_copy {s : State} {x : Msg} (hw : x.isWeighted = true → repeated s.m = false) : (x.isWeighted && repeated s.m) = false := by
  cases h : x.isWeighted with
  | false => rfl
  | true => exact hw h
/-- An accepted message acts on the machine that accepted it. -/
theorem arrive_accepted {s : State} {x : Msg} {m : Mach} (h : Accepted s x m) (f : Mach → Mach) : arrive x s.m f = f m := by
  obtain ⟨hb, rfl⟩ | ⟨hb, ho, hd, hu, hw, rfl⟩ := h
  · exact arrive_own hb f
  · exact arrive_here hb ho hu (not_second_copy hw) hd f
/-- The event of an accepted message. -/
theorem onArrival_accepted {s : State} {x : Msg} {m : Mach} (h : Accepted s x m) (f : Mach → Mach) : onArrival x s f = .next (put s (f m)) := by
  rw [onArrival, arrive_accepted h]
  rfl

/-- The event of every link message is an arrival, and what it does to the machine that accepts it depends on nothing else. -/
theorem exec_message {i : Instr} {x : Msg} (h : messageOf i = some x) : ∃ f, ∀ s, exec i s = .next (put s (arrive x s.m f)) := by
  cases i with
  | read | readAnswer | write | writeAnswer | atomic | atomicAnswer | sendReady | pull | pullData | weightReturn | activeMessage
  | loadSummaryToken | stealRequest | stealGrant | tileRecordMessage | faultNotice =>
    cases h
    exact ⟨_, fun _ => rfl⟩
  | _ => cases h

/-! Accesses of other agents (16 R311, R315). -/

/-- A change of the L2 and of the model's stamps alone. -/
def L2Only (m m2 : Mach) : Prop := m2 = { m with l2 := m2.l2, fresh := m2.fresh }
theorem L2Only.refl (m : Mach) : L2Only m m := rfl
theorem L2Only.trans {a b c : Mach} (h : L2Only a b) (k : L2Only b c) : L2Only a c := by
  unfold L2Only at *
  rw [k, h]
theorem L2Only.alloc (m : Mach) (home n : Nat) (x : L2Line) : L2Only m (l2Alloc m home n x) := rfl
theorem L2Only.touch (m : Mach) (n : Nat) (sectors : BitVec 8) (write counts : Bool) (h : Hint) : L2Only m (l2Touch m n sectors write counts h) := by
  unfold l2Touch
  cases mget? m.l2 n with
  | none =>
    dsimp only
    split
    · exact .refl m
    · exact .alloc _ _ _ _
  | some x =>
    dsimp only
    split
    · rfl
    · split
      · split <;> rfl
      · rfl
theorem L2Only.outerL2 (m : Mach) (va n : Nat) (write : Bool) : L2Only m (outerL2 m va n write) := by
  refine foldl_keeps (L2Only m) _ (fun b a hb => hb.trans ?_) _ _ (.refl m)
  split
  · exact .touch _ _ _ _ _ _
  · exact .refl b
/-- What reads no L2 reads the same before and after. -/
theorem L2Only.devRead {m m2 : Mach} (h : L2Only m m2) (va n : Nat) : m2.devRead va n = m.devRead va n := by
  rw [h]
  rfl

theorem memRead_ok {m : Mach} {va n : Nat} (h : OuterOk m va n true false) : memRead m va n = (outerL2 m va n false, 0, m.devRead va n) := by
  rw [memRead, show memStatus m va n true false = (0, none) from h]
  rfl
/-- A write of another agent that passes its checks writes the bytes that its mask enables. -/
theorem memWrite_ok {m : Mach} {va : Nat} {bs : List Byte} (mask : Word) (h : OuterOk m va bs.length false true) :
    memWrite m va mask bs = ((((upFrom 0 bs.length).zip bs).filter fun x => decide (64 < bs.length) || mask.getLsbD x.1).foldl
      (fun m x => m.devWrite (va + x.1) [x.2]) (outerL2 m va bs.length true), 0) := by
  rw [memWrite, show memStatus m va bs.length false true = (0, none) from h]
  rfl
/-- The width of an atomic (13 R241). -/
def atomicBytes (op : BitVec 8) : Nat := if op = 0x1A then 4 else 8
theorem memAtomic_unsupported {m : Mach} {op : BitVec 8} {va : Nat} (x y : Word)
    (h : op.toNat < 0x10 ∨ 0x1A < op.toNat ∨ va % atomicBytes op ≠ 0) : memAtomic m op va x y = (logOuter m (some (noAccess va)), 4, 0) :=
  if_pos h
theorem memAtomic_ok {m : Mach} {op : BitVec 8} {va : Nat} (x y : Word) (h1 : 0x10 ≤ op.toNat) (h2 : op.toNat ≤ 0x1A)
    (ha : va % atomicBytes op = 0) (h : OuterOk m va (atomicBytes op) true true) (hh : ∀ p, m.sysLoc va ≠ some (.host p)) :
    memAtomic m op va x y = ((outerL2 m va (atomicBytes op) true).devWrite va
      (leBytes (atomicBytes op) (atomicNew op (word64 (m.devRead va (atomicBytes op))) x y).toNat), 0,
      word64 (m.devRead va (atomicBytes op))) := by
  have hs : ¬(op.toNat < 0x10 ∨ 0x1A < op.toNat ∨ va % (if op = 0x1A then 4 else 8) ≠ 0) := by
    rw [← atomicBytes]
    omega
  have hst : memStatus m va (if op = 0x1A then 4 else 8) true true = (0, none) := h
  unfold memAtomic
  dsimp only
  rw [if_neg hs, hst]
  cases hl : m.sysLoc va with
  | none => rfl
  | some l =>
    cases l with
    | host p => exact absurd hl (hh p)
    | hbm p => rfl
    | scratch k => rfl
/-- An unsupported access is logged without a cause (16 R315; log 65). -/
theorem logOuter_noAccess (m : Mach) (a : Nat) : logOuter m (some (noAccess a)) = loggedNo m a := rfl

theorem bounds_of_size {n : Nat} (h1 : 1 ≤ n) (h2 : n ≤ 4096) : ¬(n = 0 ∨ 4096 < n) := by omega
theorem spaceRead_mgmt {m : Mach} {a v : Nat} (h : mgmtRead m a = some v) : spaceRead m 1 8 a = (m, 0, leBytes 8 v) := by
  simp [spaceRead, h]
theorem spaceRead_mem {m : Mach} {n a : Nat} (h1 : 1 ≤ n) (h2 : n ≤ 4096) (h : OuterOk m a n true false) :
    spaceRead m 0 n a = (outerL2 m a n false, 0, m.devRead a n) :=
  (if_neg (bounds_of_size h1 h2)).trans (memRead_ok h)
/-- There are three spaces (16 Table 16-5). -/
theorem space_cases {sp : BitVec 8} (h : 2 < sp.toNat) : sp.toNat ≠ 0 ∧ sp.toNat ≠ 1 ∧ sp.toNat ≠ 2 := by omega
theorem spaceRead_noSpace {m : Mach} {sp : BitVec 8} (n a : Nat) (h : 2 < sp.toNat) : spaceRead m sp n a = (loggedNo m a, 4, []) := by
  obtain ⟨h0, h1, h2⟩ := space_cases h
  unfold spaceRead
  dsimp only
  split
  · rfl
  · split
    case h_4 => rfl
    all_goals contradiction
theorem spaceWrite_noSpace {m : Mach} {sp : BitVec 8} (n a : Nat) (k : Word) (bs : List Byte) (h : 2 < sp.toNat) :
    spaceWrite m sp n a k bs = (loggedNo m a, 4) := by
  obtain ⟨h0, h1, h2⟩ := space_cases h
  unfold spaceWrite
  dsimp only
  split
  · rfl
  · split
    case h_4 => rfl
    all_goals contradiction
theorem spaceWrite_mgmt {m : Mach} {a : Nat} {k : Word} {bs : List Byte} (hl : bs.length = 8) (hk : k.toNat % 256 = 255)
    (h : (mgmtRead m a).isSome = true) : spaceWrite m 1 8 a k bs = (mgmtWrite m a (word64 bs), 0) := by
  simp [spaceWrite, hl, hk, h]
theorem spaceWrite_mem {m : Mach} {a : Nat} (k : Word) {bs : List Byte} (h1 : 1 ≤ bs.length) (h2 : bs.length ≤ 4096) :
    spaceWrite m 0 bs.length a k bs = memWrite m a k bs :=
  if_neg (by omega)

theorem hostAnswer_waited {m : Mach} {h : MsgHdr} (hm : h.tag.toNat ∈ m.hostReqs) (st : Nat) (data : List Byte) :
    hostAnswer m h st data =
      { m with hostReqs := m.hostReqs.erase h.tag.toNat, hostAnswers := m.hostAnswers ++ [⟨h.tag.toNat, pcieStatus st, data⟩] } :=
  if_pos (by simpa using hm)

/-! Posted tiles (16 R319 to R324). -/

@[simp] theorem deviceNo_post (m : Mach) (dst : Nat) (mk : MsgHdr → Msg) : (m.post dst mk).deviceNo = m.deviceNo := by
  unfold Mach.post
  dsimp only
  split <;> rfl

/-- No entry is set in an empty table. -/
theorem setEntries_nil {c : Core} (h : c.table = []) : setEntries c = [] := by simp [setEntries, h]
theorem claimTables_nil {m : Mach} {k : Nat} (h : (m.core k).table = []) : claimTables m k = m := by
  rw [claimTables, setEntries_nil h]
  rfl
/-- A send-ready for a resident context is listed where its core has room and no earlier delivery is held (R320). -/
theorem deliverReady_here {m : Mach} {r : ReadyMsg} {cx : Nat} (ht : targetOf m r.endpoint = .here cx)
    (hroom : (m.core (coreOf cx)).recvs.length < 256) (htab : (m.core (coreOf cx)).table = [])
    (hheld : ∀ l ∈ m.launches, ∀ e ∈ l.held, e.cx ≠ cx) :
    deliverReady m r = some (m.modCore (coreOf cx) fun c =>
      { c with recvs := c.recvs ++ [{ cx := cx, ready := r, lid := (m.ctx cx).launch.getD 0 }] }) := by
  have hroom' : recvRoom m (coreOf cx) ≠ 0 := Nat.sub_ne_zero_of_lt hroom
  have hheld' : ¬(m.launches.any fun l => l.held.any fun e => e.cx == cx) = true := by
    simpa using hheld
  rw [deliverReady, ht]
  dsimp only
  rw [if_neg (not_or.2 ⟨hroom', hheld'⟩), claimTables_nil (by simpa using htab)]
theorem deliverReady_none {m : Mach} {r : ReadyMsg} (ht : targetOf m r.endpoint = .none) : deliverReady m r = some (refuse m r) := by
  rw [deliverReady, ht]

section
variable {m : Mach} {h : MsgHdr} {v : BitVec 10} {core entry : Nat} {e : Word} {x : SendRec} (hv : v.toNat = m.deviceNo)
  (hx : (m.core core).sends.find? (fun y => y.entry == entry) = some x)
include hv hx

/-- The answer to a pull: the image of the posted tile, counted where the receiver does not count it (R321). -/
theorem pullAt_tile (hs : x.spill = none) :
    pullAt m h false v core entry e =
      if h.src.toNat = m.deviceNo then m.post h.src.toNat fun g => .pullData g v core entry x.root.gtag e x.image
      else countPull (m.post h.src.toNat fun g => .pullData g v core entry x.root.gtag e x.image) core entry x.root.gtag := by
  simp [pullAt, hx, hv, hs]
/-- The answer of a spill copy that can be read (R323). -/
theorem pullAt_spilled {sp : Nat × Nat} {l : Launch} (hs : x.spill = some sp) (hl : m.launch? x.lid = some l)
    (hf : m.devFailure (l.spillBase + sp.1) x.image.length false = none) :
    pullAt m h false v core entry e =
      if h.src.toNat = m.deviceNo then
        m.post h.src.toNat fun g => .pullData g v core entry x.root.gtag e (m.devRead (l.spillBase + sp.1) x.image.length)
      else countPull (m.post h.src.toNat fun g => .pullData g v core entry x.root.gtag e (m.devRead (l.spillBase + sp.1) x.image.length))
        core entry x.root.gtag := by
  simp [pullAt, hx, hv, hs, hl, hf]
end

/-- The data of a pull completes a receive of another device's tile that has no barrier (R321). -/
theorem pullDataAt_receive {m m' : Mach} {v : BitVec 10} {core entry : Nat} {e : Word} {image : List Byte} {n : RecvEnt} {o : EOp}
    (hn : (m.core (coreOf (epCx e))).recvs.find? (fun x => x.owner != 0 && x.ready.sender == v && x.ready.core == core &&
      x.ready.entry == entry && x.ready.endpoint == e) = some n)
    (hs : n.ready.sender.toNat ≠ m'.deviceNo) (ho : (m.core (coreOf (epCx e))).op? n.owner = some o)
    (ht : (m.core (coreOf (epCx e))).table = []) (hb : o.cslot.sb = 0) (hi : takeImage m o n.ready.word image 0 = .ok m') :
    pullDataAt m v core entry e image =
      l1Drop (removeOp (m'.modCore (coreOf (epCx e)) fun c => { c with recvs := c.recvs.erase n }) o) (coreOf (epCx e)) := by
  have hc : consumeEntry m' (coreOf (epCx e)) n = m'.modCore (coreOf (epCx e)) fun c => { c with recvs := c.recvs.erase n } := if_neg hs
  simp [pullDataAt, hn, ho, setEntries_nil ht, hi, hb, hc]

/-! Weight, active messages and records (15 R287, R289; 05 R95, R97). -/

/-- Weight that leaves its root neither quiet nor in excess only adds to it. -/
theorem addReturn_more {m : Mach} {dom lid} {w : Word} (hl : (m.root dom).launch = some lid)
    (hq : ((m.root dom).add w).quiet = false) (he : ((m.root dom).add w).excess = false) :
    addReturn m dom (m.root dom).gtag w =
      (m.setRoot dom ((m.root dom).add w)).modLaunch lid fun l => { l with active := true, lastReturn := m.time } := by
  have hr : (((m.setRoot dom ((m.root dom).add w)).modLaunch lid fun l => { l with active := true, lastReturn := m.time }).root dom) =
      (m.root dom).add w := by
    simp [Mach.root, Mach.setRoot]
  simp only [addReturn, hl, ne_eq, not_true_eq_false, if_false, afterRoot, hr, hq, he, Bool.false_and, Bool.false_eq_true]
  split <;> rfl

/-- A message of another device whose domain's launch stands and is of the kernel it names becomes a task of it (R324). -/
theorem activeAt_task {m : Mach} {h : MsgHdr} {bs : List Byte} {e : Word} {v : BitVec 10} {g : Nat} {kern : Word} {l : Launch}
    (ho : amsgOp m h = none) (hl : ((m.root (bits e 23 16)).launch.bind m.launch?) = some l) (hp : l.phase ≠ .failing)
    (hk : l.kernel.handle = kern) :
    activeAt m h bs e v g kern = m.modLaunch l.lid fun l =>
      { l with msgs := l.msgs ++ [taskOfRecord bs ⟨v.toNat, BitVec.ofNat 8 (fld bs 7 1), g⟩ false] } := by
  have hok : (((m.root (bits e 23 16)).launch.bind m.launch?).filter fun l => l.phase != .failing && l.kernel.handle == kern) = some l := by
    rw [hl]
    simp [Option.filter, hp, hk]
  simp only [activeAt, hok, ho]
theorem activeAt_noLaunch {m : Mach} {h : MsgHdr} {bs : List Byte} {e : Word} {v : BitVec 10} {g : Nat} {kern : Word}
    (ho : amsgOp m h = none) (hl : ((m.root (bits e 23 16)).launch.bind m.launch?) = none) :
    activeAt m h bs e v g kern = m.returnWeight ⟨v.toNat, BitVec.ofNat 8 (fld bs 7 1), g⟩ (BitVec.ofNat 64 (fld bs 8 8)) := by
  simp [activeAt, ho, hl]

theorem takeBack_listed {m : Mach} {r : List Byte} {l : Launch} (hl : recordLaunch m r = some l) (hp : l.phase ≠ .failing) :
    takeBack m r = m.modLaunch l.lid fun x => { x with records := taskOfRecord r (l.rootRef m) true :: x.records } := by
  simp [takeBack, hl, hp]
theorem takeBack_failing {m : Mach} {r : List Byte} {l : Launch} (hl : recordLaunch m r = some l) (hp : l.phase = .failing) :
    takeBack m r = m.returnWeight (l.rootRef m) (BitVec.ofNat 64 (fld r 8 8)) := by
  simp [takeBack, hl, hp]

/-! The token and stealing (05 R96, R97). -/

/-- A holder to whom nobody's request comes and who has no stealable launch withdraws its own offers and holds the token (R96). -/
theorem actOnToken_quiet {m : Mach} {t : LoadToken} (hr : t.reqs = []) (hp : podTags m = []) :
    actOnToken m t = { m with
      token := some { t with offers := t.offers.filter fun o => o.device != BitVec.ofNat 10 m.deviceNo }, tokenSince := m.time, tokenEpoch := t.epoch } := by
  simp [actOnToken, hr, hp]
/-- Device 0 issues the token anew, once every device of the pod is within reach (16 R309). -/
theorem newToken_issued {m : Mach} (hd : m.deviceNo = 0) (ht : m.token = none) (hl : 2 ^ 28 ≤ (m.time - m.tokenSince).toNat)
    (hr : ∀ d, 1 ≤ d → d < podSize → v2Route m d = true) :
    newToken m = { m with token := some ⟨m.tokenEpoch + 1, 0, [], []⟩, tokenEpoch := m.tokenEpoch + 1, tokenSince := m.time } := by
  have hall : (upFrom 1 (podSize - 1)).all (v2Route m) = true := by
    rw [List.all_eq_true]
    intro d h
    obtain ⟨h1, h2⟩ := (mem_upFrom _ _ _).1 h
    exact hr d h1 (by omega)
  rw [newToken, hd, ht, hall]
  exact if_pos (by simpa using hl)
theorem newToken_other {m : Mach} (hd : m.deviceNo ≠ 0) : newToken m = m := if_neg (by simp [hd])
theorem forwardToken_none {m : Mach} (ht : m.token = none) : forwardToken m = m := by rw [forwardToken, ht]
theorem forwardToken_held {m : Mach} {t : LoadToken} (ht : m.token = some t) :
    forwardToken m = { m with token := none, tokenSince := m.time }.post ((m.deviceNo + 1) % podSize) fun h =>
      .loadSummaryToken h { t with seq := t.seq + 1 } := by
  rw [forwardToken, ht]
/-- Without excess a grant takes no record (R97). -/
theorem grant_nothing {m : Mach} {r : StealReq} (he : Sys2Proof.Machine.excess m r.jobTag = 0) :
    grant m r = m.post r.thief.toNat fun h => .stealGrant h (BitVec.ofNat 10 m.deviceNo) r.jobTag [] := by
  rw [grant, he, Nat.min_zero]
  rfl
/-- A stolen record is listed by the thief's launch, or goes back. -/
theorem takeStolen_eq_stolen (v : BitVec 10) (tag : BitVec 32) : takeStolen v tag = stolen v tag := by
  funext m r
  rfl

/-- An event with the arrival that brings it is the event with that port named; none is named after it (16 R306). -/
theorem perform_arrive {s t : State} {a : Arrival} {i : Instr} (he : isEvent i = true) (hw : wellFormed i = true)
    (hr : s.m.ready = true ∨ servedAlways i = true) (h : exec i (put s { s.m with rx := some a }) = .next t) :
    perform (.arrive a i) s = .next (put t { t.m with rx := none }) := by
  have hr' : (s.m.ready || servedAlways i) = true := by simpa using hr
  have hx : exec i { s with m := { s.m with rx := some a } } = .next t := h
  simp only [perform, he, hw, hr', arriving, hx]
  rfl

end Sys2Proof.Proofs
end

section
/-! SUPPORT. The parts of O59, each an arrival with what its class does. -/
namespace Sys2Proof.Proofs
open Sys2Proof.Machine Sys2Proof.Safety Sys2Proof.Claims

section
variable {s : State} {m : Mach} {h : MsgHdr}

theorem exec_read_accepted {sp : BitVec 8} {n : Nat} {a : Word} (ha : Accepted s (.read h sp n a) m) {r : Mach × Nat × List Byte}
    (hr : spaceRead m sp n a.toNat = r) :
    exec (.read h sp n a) s = .next (put s (r.1.reply h (.readAnswer (back h) (BitVec.ofNat 3 r.2.1) n a r.2.2))) := by
  subst hr
  exact onArrival_accepted ha _
theorem exec_write_accepted {sp : BitVec 8} {n : Nat} {a k : Word} {data : List Byte} (ha : Accepted s (.write h sp n a k data) m) {r : Mach × Nat}
    (hr : spaceWrite m sp n a.toNat k data = r) :
    exec (.write h sp n a k data) s = .next (put s (r.1.reply h (.writeAnswer (back h) (BitVec.ofNat 3 r.2) n a))) := by
  subst hr
  exact onArrival_accepted ha _
theorem exec_atomic_accepted {op sc : BitVec 8} {a x y : Word} (ha : Accepted s (.atomic h op sc a x y) m) {r : Mach × Nat × Word}
    (hr : memAtomic m op a.toNat x y = r) :
    exec (.atomic h op sc a x y) s = .next (put s (r.1.reply h (.atomicAnswer (back h) (BitVec.ofNat 3 r.2.1) a r.2.2))) := by
  subst hr
  exact onArrival_accepted ha _
theorem exec_sendReady_accepted {r : ReadyMsg} (ha : Accepted s (.sendReady h r) m)
    (hw : m.wire.any (Msg.sameOrder (.sendReady h r)) = false) {t : Mach} (ht : deliverReady m r = some t) :
    exec (.sendReady h r) s = .next (put s t) := by
  refine (onArrival_accepted ha _).trans ?_
  simp [hw, ht]
theorem exec_pull_accepted {v : BitVec 10} {core entry g : Nat} {e : Word} {tag : BitVec 32}
    (ha : Accepted s (.pull h false v core entry g e tag) m) {t : Mach} (ht : pullAt m h false v core entry e = t) :
    exec (.pull h false v core entry g e tag) s = .next (put s t) := by
  subst ht
  exact onArrival_accepted ha _
end

/-- Settles O59: every event of a link message is an arrival, whose four outcomes exclude each other; an accepted one acts as its class says. -/
theorem linkMessages : Obligations.LinkMessages := by
  refine ⟨?_, ?_, ?_, ?_, ?_, ?_, ?_, ?_, ?_, ?_, ?_, ?_, ?_, ?_, ?_, ?_⟩
  · intro s i x hx hb
    obtain ⟨f, hf⟩ := exec_message hx
    simp only [hf]
    exact ⟨fun ho => by rw [arrive_outOfSequence hb ho]; rfl, fun ho hu => by rw [arrive_unnegotiated hb ho hu],
      fun ho hu hd hw => by rw [arrive_forward hb ho hu (not_second_copy hw) hd], fun ho hu hw hr => by rw [arrive_repeated hb ho hu hw hr]⟩
  · intro s a i t he hw hr h
    exact perform_arrive he hw hr h
  · intro s h m
    refine ⟨?_, ?_, ?_, ?_, ?_, ?_, ?_, ?_, ?_⟩
    · intro a v ha hv
      exact exec_read_accepted ha (spaceRead_mgmt hv)
    · intro n a ha h1 h2 ho
      exact ⟨_, L2Only.outerL2 m a.toNat n false, exec_read_accepted ha (spaceRead_mem h1 h2 ho)⟩
    · intro a k data ha hl hk hv
      exact exec_write_accepted ha (spaceWrite_mgmt hl hk hv)
    · rintro n a k data ha rfl h1 h2 ho
      exact ⟨_, L2Only.outerL2 m a.toNat data.length true, exec_write_accepted ha ((spaceWrite_mem k h1 h2).trans (memWrite_ok k ho))⟩
    · intro sp n a ha hs
      exact exec_read_accepted ha (spaceRead_noSpace n a.toNat hs)
    · intro sp n a k data ha hs
      exact exec_write_accepted ha (spaceWrite_noSpace n a.toNat k data hs)
    · intro op sc a x y ha h1 h2 n hal ho hh
      exact ⟨_, L2Only.outerL2 m a.toNat (atomicBytes op) true, exec_atomic_accepted ha (memAtomic_ok x y h1 h2 hal ho hh)⟩
    · intro op sc a x y ha hu
      exact exec_atomic_accepted ha (memAtomic_unsupported x y hu)
    · intro done hm
      refine ⟨fun st n a l ha => ?_, fun st n a ha => ?_, fun st a v ha => ?_⟩
      · exact (onArrival_accepted ha _).trans (by rw [hostAnswer_waited hm])
      · exact (onArrival_accepted ha _).trans (by rw [hostAnswer_waited hm])
      · exact (onArrival_accepted ha _).trans (by rw [hostAnswer_waited hm])
  · intro s h r m ha hw
    exact ⟨fun cx ht hr htab hh => exec_sendReady_accepted ha hw (deliverReady_here ht hr htab hh),
      fun ht => exec_sendReady_accepted ha hw (deliverReady_none ht)⟩
  · intro s h v core entry g e tag x m ha hv hs hx
    exact exec_pull_accepted ha (pullAt_tile hv hx hs)
  · intro s h v core entry g e tag x sp l m ha hv hx hs hl hf
    exact exec_pull_accepted ha (pullAt_spilled hv hx hs hl hf)
  · intro s h v core entry g e image n o m m' ha k hn hs ho ht hb hi
    exact (onArrival_accepted ha _).trans (by rw [pullDataAt_receive hn hs ho ht hb hi])
  · intro s h dev dom g w m ha
    refine ⟨fun hd => (onArrival_accepted ha _).trans (by rw [if_neg hd]), ?_⟩
    rintro lid hd hl rfl hq he
    exact (onArrival_accepted ha _).trans (by rw [if_pos hd, addReturn_more hl hq he])
  · intro s h bs e v g kern m ha ho
    exact ⟨fun l hl hp hk => (onArrival_accepted ha _).trans (by rw [activeAt_task ho hl hp hk]),
      fun hl => (onArrival_accepted ha _).trans (by rw [activeAt_noLaunch ho hl])⟩
  · intro s h t m ha
    refine ⟨fun he => (onArrival_accepted ha _).trans (by rw [if_pos he]), fun he hr hp => ?_⟩
    exact (onArrival_accepted ha _).trans (by rw [if_neg (Nat.not_lt.2 he), actOnToken_quiet hr hp])
  · intro s
    refine ⟨fun ht => ?_, fun t ht => ?_, fun hd ht hl hr => ?_, fun hd => ?_⟩
    · exact congrArg (fun m => Host.Outcome.next (put s m)) (forwardToken_none ht)
    · exact congrArg (fun m => Host.Outcome.next (put s m)) (forwardToken_held ht)
    · exact congrArg (fun m => Host.Outcome.next (put s m)) (newToken_issued hd ht hl hr)
    · exact congrArg (fun m => Host.Outcome.next (put s m)) (newToken_other hd)
  · intro s h r m ha
    refine ⟨fun hr => ?_, fun hr he => ?_, fun hr => ⟨_, _, rfl, takeRecords_length _ _ _, ?_⟩⟩
    · exact (onArrival_accepted ha _).trans (by rw [hr]; rfl)
    · exact (onArrival_accepted ha _).trans (by rw [if_pos hr, grant_nothing he])
    · exact (onArrival_accepted ha _).trans (by rw [if_pos hr]; rfl)
  · intro s h r hrx hd hr
    refine ⟨_, _, rfl, ?_⟩
    have ha : Accepted s (.stealRequest h r) s.m := .inl ⟨by simp [ByLink, hrx, Msg.hdr, hd], rfl⟩
    exact (onArrival_accepted ha _).trans (by rw [if_pos hr]; rfl)
  · intro s h v tag rs m ha
    exact (onArrival_accepted ha _).trans (by rw [takeGrant, takeStolen_eq_stolen])
  · intro s h v r m ha
    exact ⟨fun l hl hp => (onArrival_accepted ha _).trans (by rw [takeBack_listed hl hp]),
      fun l hl hp => (onArrival_accepted ha _).trans (by rw [takeBack_failing hl hp])⟩
  · intro s h n m ha
    exact ⟨fun hb => (onArrival_accepted ha _).trans (by rw [takeNotice, hb]; rfl),
      fun hb => (onArrival_accepted ha _).trans (by rw [takeNotice, hb]; rfl)⟩

end Sys2Proof.Proofs
end

section
/-! SUPPORT. Launches by number, and what a store of the device's own agents reads and leaves (12 R235). -/
namespace Sys2Proof.Proofs
open Sys2Proof.Machine Sys2Proof.Safety Sys2Proof.Claims

/-! Launches. -/

theorem lid_of_launch? {m : Mach} {lid : Word} {l : Launch} (h : m.launch? lid = some l) : l.lid = lid := by
  simpa using List.find?_some h
theorem mem_of_launch? {m : Mach} {lid : Word} {l : Launch} (h : m.launch? lid = some l) : l ∈ m.launches := List.mem_of_find?_eq_some h
theorem launch?_congr {m n : Mach} (h : n.launches = m.launches) (lid : Word) : n.launch? lid = m.launch? lid := by
  rw [Mach.launch?, h]
  rfl
/-- The launch of a number after a change that keeps numbers. -/
theorem launch?_modLaunch (m : Mach) (k lid : Word) {f : Launch → Launch} (hf : ∀ x, (f x).lid = x.lid) :
    (m.modLaunch k f).launch? lid = (m.launch? lid).map fun l => if l.lid = k then f l else l := by
  unfold Mach.launch? Mach.modLaunch lmod
  induction m.launches with
  | nil => rfl
  | cons l ls ih =>
    simp only [List.map_cons, List.find?_cons, beq_iff_eq]
    have hl : (if l.lid = k then f l else l).lid = l.lid := by
      split
      · exact hf l
      · rfl
    rw [hl]
    cases l.lid == lid with
    | true => rfl
    | false => simpa using ih
theorem launch?_modLaunch_same {m : Mach} {lid : Word} {l : Launch} {f : Launch → Launch} (hf : ∀ x, (f x).lid = x.lid)
    (h : m.launch? lid = some l) : (m.modLaunch lid f).launch? lid = some (f l) := by
  rw [launch?_modLaunch m lid lid hf, h, Option.map_some, if_pos (lid_of_launch? h)]
/-- Marking a domain's activity changes nothing else of a launch. -/
theorem launch?_touch {m : Mach} {lid : Word} {l : Launch} (h : m.launch? lid = some l) (r : RootRef) :
    ∃ b, (m.touch r).launch? lid = some { l with active := b } := by
  unfold Mach.touch
  split
  · cases (m.root r.domain.toNat).launch with
    | none => exact ⟨_, h⟩
    | some k =>
      by_cases hk : l.lid = k
      · refine ⟨true, (launch?_modLaunch m k lid ?_).trans ?_⟩
        · exact fun _ => rfl
        · rw [h, Option.map_some, if_pos hk]
      · refine ⟨l.active, (launch?_modLaunch m k lid ?_).trans ?_⟩
        · exact fun _ => rfl
        · rw [h, Option.map_some, if_neg hk]
  · exact ⟨_, h⟩
/-- Weight that returns is queued at its root's die or leaves as a message; nothing else moves. -/
theorem returnWeight_frame (m : Mach) (r : RootRef) (w : Word) : m.returnWeight r w =
    { m with dies := (m.returnWeight r w).dies, outbox := (m.returnWeight r w).outbox, msgNo := (m.returnWeight r w).msgNo, uid := (m.returnWeight r w).uid } := by
  unfold Mach.returnWeight
  split
  · rfl
  · split <;> rfl

/-! What the device's own agents read: the memories, the error marks and the registers that place the tables. -/

/-- The part of a machine on which translation and memory depend. -/
def memView (m : Mach) : Mach :=
  { mem := m.mem, hostMem := m.hostMem, scratch := m.scratch, errs := m.errs, mgmt := m.mgmt, grpPos := m.grpPos }
/-- Two machines with the same memory, as the device's agents see it. -/
def SameMem (m n : Mach) : Prop := memView n = memView m
theorem SameMem.refl (m : Mach) : SameMem m m := rfl
theorem SameMem.trans {a b c : Mach} (h : SameMem a b) (k : SameMem b c) : SameMem a c := Eq.trans k h
theorem SameMem.symm {a b : Mach} (h : SameMem a b) : SameMem b a := Eq.symm h
/-- What is read through the view of memory alone is the same. -/
theorem SameMem.read {α : Type} {m n : Mach} (h : SameMem m n) (f : Mach → α) (hf : ∀ x, f x = f (memView x)) : f n = f m := by
  rw [hf n, hf m, h]
theorem SameMem.mem {m n : Mach} (h : SameMem m n) : n.mem = m.mem := h.read (·.mem) fun _ => rfl
theorem SameMem.hostMem {m n : Mach} (h : SameMem m n) : n.hostMem = m.hostMem := h.read (·.hostMem) fun _ => rfl
theorem SameMem.write {m n : Mach} (h : SameMem m n) (l : Loc) (b : Byte) : SameMem (m.write l b) (n.write l b) := by
  have e : ∀ x : Mach, memView (x.write l b) = memView ((memView x).write l b) := fun x => by cases l <;> rfl
  rw [SameMem, e n, e m, h]
theorem SameMem.devWrite {m n : Mach} (h : SameMem m n) (va : Nat) (bs : List Byte) : SameMem (m.devWrite va bs) (n.devWrite va bs) := by
  unfold Mach.devWrite
  generalize (upFrom va bs.length).zip bs = cells
  induction cells generalizing m n with
  | nil => exact h
  | cons x xs ih =>
    refine ih ?_
    dsimp only
    rw [h.read (·.sysLoc x.1) fun _ => rfl]
    cases m.sysLoc x.1 with
    | none => exact h
    | some l => exact h.write l x.2
theorem SameMem.logErr (m : Mach) (d : Nat) (a : Word) (c x k sub : Nat) : SameMem m (m.logErr d a c x k sub) := rfl
theorem SameMem.logDev (m : Mach) (d : Nat) (f : Option (Nat × Nat × Nat)) : SameMem m (m.logDev d f) := by cases f <;> rfl
theorem SameMem.devStore {m n : Mach} (h : SameMem m n) (d e va : Nat) (bs : List Byte) : SameMem (m.devStore d va bs) (n.devStore e va bs) :=
  (((SameMem.logDev _ _ _).symm.trans h).trans (.logDev _ _ _)).devWrite va bs
/-- A store on behalf of a die writes what the plain write does. -/
theorem SameMem.devWrite_devStore (m : Mach) (d va : Nat) (bs : List Byte) : SameMem (m.devWrite va bs) (m.devStore d va bs) :=
  (SameMem.logDev m d _).devWrite va bs
theorem SameMem.qPut {m n : Mach} (h : SameMem m n) (q off k v : Nat) : SameMem (m.qPut q off k v) (n.qPut q off k v) := by
  unfold Mach.qPut
  rw [h.read (·.qAddr q) fun _ => rfl]
  exact h.devStore _ _ _ _
theorem SameMem.logQueue (m : Mach) (q : Nat) : SameMem m (m.logQueue q) := .logDev _ _ _
theorem SameMem.qChange {m n : Mach} (h : SameMem m n) (q : Nat) {f g : Mach → Mach} (hf : SameMem (f m) (g n)) :
    SameMem (m.qChange q f) (n.qChange q g) := by
  unfold Mach.qChange
  rw [h.read (·.qFailure q) fun _ => rfl]
  split
  · exact ((SameMem.logQueue m q).symm.trans h).trans (.logQueue n q)
  · exact hf
theorem SameMem.qSetFlag {m n : Mach} (h : SameMem m n) (q bit : Nat) (v : Bool) : SameMem (m.qSetFlag q bit v) (n.qSetFlag q bit v) := by
  refine h.qChange q ?_
  rw [h.read (·.qGet q 9 1) fun _ => rfl]
  exact h.qPut _ _ _ _
theorem SameMem.consumeHead {m n : Mach} (h : SameMem m n) (q : Nat) : SameMem (consumeHead m q) (consumeHead n q) := by
  unfold Machine.consumeHead
  dsimp only
  rw [h.read (·.qGet q 24 8) fun _ => rfl, h.read (fun x => slotAddr x q (m.qGet q 24 8)) fun _ => rfl]
  exact (h.devStore _ _ _ _).qPut _ _ _ _
theorem SameMem.raiseHorizon {m n : Mach} (h : SameMem m n) (hl : n.launches = m.launches) (q : Nat) :
    SameMem (raiseHorizon m q) (raiseHorizon n q) := by
  refine h.qChange q ?_
  rw [h.read (·.qGet q 24 8) fun _ => rfl, hl]
  exact h.qPut _ _ _ _

/-! What a store leaves. -/

/-- Only memory, its error marks and the error logs of the dies may differ. -/
structure StoreOnly (m n : Mach) : Prop where
  rest : n = { m with mem := n.mem, hostMem := n.hostMem, scratch := n.scratch, errs := n.errs, dies := n.dies }
  die : ∀ d, n.die d = { m.die d with errlog := (n.die d).errlog, errHead := (n.die d).errHead }
namespace StoreOnly
theorem refl (m : Mach) : StoreOnly m m := ⟨rfl, fun _ => rfl⟩
theorem trans {a b c : Mach} (h : StoreOnly a b) (k : StoreOnly b c) : StoreOnly a c :=
  ⟨by rw [k.rest, h.rest], fun d => by rw [k.die d, h.die d]⟩
theorem launches {m n : Mach} (h : StoreOnly m n) : n.launches = m.launches := by rw [h.rest]
theorem ctxs {m n : Mach} (h : StoreOnly m n) : n.ctxs = m.ctxs := by rw [h.rest]
theorem cores {m n : Mach} (h : StoreOnly m n) : n.cores = m.cores := by rw [h.rest]
theorem time {m n : Mach} (h : StoreOnly m n) : n.time = m.time := by rw [h.rest]
theorem notices {m n : Mach} (h : StoreOnly m n) : n.notices = m.notices := by rw [h.rest]
theorem notifyAt {m n : Mach} (h : StoreOnly m n) : n.notifyAt = m.notifyAt := by rw [h.rest]
theorem passedAt {m n : Mach} (h : StoreOnly m n) : n.passedAt = m.passedAt := by rw [h.rest]
theorem recRoots {m n : Mach} (h : StoreOnly m n) : n.recRoots = m.recRoots := by rw [h.rest]
theorem fresh {m n : Mach} (h : StoreOnly m n) : n.fresh = m.fresh := by rw [h.rest]
theorem lostNotifies {m n : Mach} (h : StoreOnly m n) : n.lostNotifies = m.lostNotifies := by rw [h.rest]
theorem mgmtAt {m n : Mach} (h : StoreOnly m n) (off : Nat) : n.mgmtAt off = m.mgmtAt off := by
  rw [h.rest]
  rfl
theorem deviceNo {m n : Mach} (h : StoreOnly m n) : n.deviceNo = m.deviceNo := h.mgmtAt 0
theorem ctx {m n : Mach} (h : StoreOnly m n) (cx : Nat) : n.ctx cx = m.ctx cx := by rw [Mach.ctx, h.ctxs, Mach.ctx]
theorem core {m n : Mach} (h : StoreOnly m n) (k : Nat) : n.core k = m.core k := by rw [Mach.core, h.cores, Mach.core]
theorem launch? {m n : Mach} (h : StoreOnly m n) (lid : Word) : n.launch? lid = m.launch? lid := launch?_congr h.launches lid
theorem slots {m n : Mach} (h : StoreOnly m n) (d : Nat) : (n.die d).slots = (m.die d).slots := by rw [h.die d]
theorem rr {m n : Mach} (h : StoreOnly m n) (d : Nat) : (n.die d).rr = (m.die d).rr := by rw [h.die d]
theorem root {m n : Mach} (h : StoreOnly m n) (dom : Nat) : n.root dom = m.root dom := by rw [Mach.root, h.die, Mach.root]
theorem rootRef {m n : Mach} (h : StoreOnly m n) (l : Launch) : l.rootRef n = l.rootRef m := by rw [Launch.rootRef, h.deviceNo, Launch.rootRef]

theorem write (m : Mach) (l : Loc) (b : Byte) : StoreOnly m (m.write l b) := by cases l <;> exact ⟨rfl, fun _ => rfl⟩
theorem devWrite (m : Mach) (va : Nat) (bs : List Byte) : StoreOnly m (m.devWrite va bs) := by
  refine foldl_keeps (StoreOnly m) _ (fun n x hn => hn.trans ?_) _ _ (refl m)
  cases n.sysLoc x.1 with
  | none => exact refl n
  | some l => exact write n l x.2
theorem logErr (m : Mach) (d : Nat) (a : Word) (c x k sub : Nat) : StoreOnly m (m.logErr d a c x k sub) := by
  refine ⟨rfl, fun e => ?_⟩
  by_cases h : d = e
  · subst h
    simp [Mach.logErr]
  · simp [Mach.logErr, h]
theorem logDev (m : Mach) (d : Nat) (f : Option (Nat × Nat × Nat)) : StoreOnly m (m.logDev d f) := by
  cases f with
  | none => exact refl m
  | some f => exact logErr m d _ _ _ _ _
theorem logQueue (m : Mach) (q : Nat) : StoreOnly m (m.logQueue q) := logDev m _ _
theorem devStore (m : Mach) (d va : Nat) (bs : List Byte) : StoreOnly m (m.devStore d va bs) := (logDev m d _).trans (devWrite _ va bs)
theorem qPut (m : Mach) (q off n v : Nat) : StoreOnly m (m.qPut q off n v) := devStore m _ _ _
theorem qChange {m : Mach} (q : Nat) {f : Mach → Mach} (hf : StoreOnly m (f m)) : StoreOnly m (m.qChange q f) := by
  unfold Mach.qChange
  split
  · exact logQueue m q
  · exact hf
theorem qSetFlag (m : Mach) (q bit : Nat) (v : Bool) : StoreOnly m (m.qSetFlag q bit v) := qChange q (qPut m _ _ _ _)
theorem qFail (m : Mach) (q i : Nat) : StoreOnly m (m.qFail q i) := by
  refine qChange q ?_
  split
  · exact (qPut m _ _ _ _).trans (qSetFlag _ _ _ _)
  · exact qSetFlag m _ _ _
theorem consumeHead (m : Mach) (q : Nat) : StoreOnly m (consumeHead m q) := (devStore m _ _ _).trans (qPut _ _ _ _ _)
theorem raiseHorizon (m : Mach) (q : Nat) : StoreOnly m (raiseHorizon m q) := by
  unfold Machine.raiseHorizon
  exact qChange q (qPut m _ _ _ _)
theorem writeRecord (m : Mach) (addr status reason domain lid summary : Nat) :
    StoreOnly m (writeRecord m addr status reason domain lid summary) := by
  unfold Machine.writeRecord
  split
  · exact refl m
  · exact devStore m _ _ _
end StoreOnly

end Sys2Proof.Proofs
end

section
/-! SUPPORT. Dealing, seats and the scheduler's requests (05 R90 to R94). -/
namespace Sys2Proof.Proofs
open Sys2Proof.Machine Sys2Proof.Safety Sys2Proof.Claims

/-! Dealing. -/

/-- A task of a known entry is on its context, whose core's L1 is empty; but for the activity mark nothing of a launch moves. -/
theorem startTask_known {m : Mach} {l : Launch} {cx : Nat} {t : Task} (ht : t.entry < l.kernel.entries.length) :
    Started ((startTask m l cx t).ctx cx) l t ∧
      ∀ lid x, m.launch? lid = some x → ∃ b, (startTask m l cx t).launch? lid = some { x with active := b } := by
  obtain ⟨c, e, hc⟩ : ∃ c, startTask m l cx t = l1Drop ((m.freshen.setCtx cx c).touch t.root) (coreOf cx) ∧ Started c l t := by
    refine ⟨_, if_pos ht, rfl, rfl, ?_, rfl, rfl, rfl, rfl, fun n hn => ?_, rfl⟩
    · rw [if_pos ht]
    · have h : n ≠ 0 ∧ 1 ≠ n ∧ 2 ≠ n ∧ 3 ≠ n ∧ 4 ≠ n := by omega
      obtain ⟨h0, h1, h2, h3, h4⟩ := h
      simp [Ctx.regAt, mget, h0, h1, h2, h3, h4]
  rw [e]
  constructor
  · have hx : (l1Drop ((m.freshen.setCtx cx c).touch t.root) (coreOf cx)).ctx cx = c := by
      rw [touch_setCtx]
      exact ctx_setCtx_same _ _ _
    rwa [hx]
  · intro lid x hx
    exact launch?_touch (m := m.freshen.setCtx cx c) hx t.root

/-- The dealer of an exhausted grid gives back its words: only its launch's own list changes, no context. -/
theorem dealerReturn_frame {m : Mach} {lid : Word} {l : Launch} (h : m.launch? lid = some l) :
    (dealerReturn m lid).ctxs = m.ctxs ∧ ∃ d, (dealerReturn m lid).launch? lid = some { l with dealer := d } := by
  unfold dealerReturn
  rw [h]
  dsimp only
  split
  · exact ⟨rfl, _, h⟩
  · obtain ⟨hc, hl⟩ : (l.dealer.foldl (fun m w => m.returnWeight (l.rootRef m) w) m).ctxs = m.ctxs ∧
        (l.dealer.foldl (fun m w => m.returnWeight (l.rootRef m) w) m).launches = m.launches := by
      refine foldl_keeps (fun n : Mach => n.ctxs = m.ctxs ∧ n.launches = m.launches) _ (fun n w hn => ?_) _ _ ⟨rfl, rfl⟩
      rw [returnWeight_frame]
      exact hn
    refine ⟨hc, [], (launch?_modLaunch_same (l := l) ?_ ?_)⟩
    · exact fun _ => rfl
    · rw [launch?_congr hl, h]

/-- What a launch is once the next task of its grid is taken, for the seat `key` (05 R90). -/
def gridDealt (key : Nat) (l x : Launch) : Launch :=
  { x with lastSeat := key, dealer := (dealShare l.dealt l.dealer).2, next := x.next + 1, dealt := x.dealt + 1 }

section
variable {s : State} {lid : Word} {l : Launch} (hl : s.m.launch? lid = some l)
include hl

/-- A task taken off one of the launch's lists by `f` and started. -/
theorem deal_listed {f : Launch → Launch} (hf : ∀ x, (f x).lid = x.lid) {cx : Nat} {t : Task} (ht : t.entry < l.kernel.entries.length)
    (hd : dealTask s.m lid = startTask (s.m.modLaunch lid f) l cx t) :
    ∃ u b, exec (.dealTask lid) s = .next u ∧ Started (u.m.ctx cx) l t ∧ u.m.launch? lid = some { f l with active := b } := by
  obtain ⟨hs, hx⟩ := startTask_known (m := s.m.modLaunch lid f) (cx := cx) ht
  obtain ⟨b, hb⟩ := hx lid _ (launch?_modLaunch_same hf hl)
  rw [← hd] at hs hb
  exact ⟨{ s with m := dealTask s.m lid }, b, rfl, hs, hb⟩
/-- The next task of the grid, started; the dealer of an exhausted grid gives back its words. -/
theorem deal_grid {key cx : Nat} {t : Task} (ht : t.entry < l.kernel.entries.length)
    (hd : dealTask s.m lid = dealerReturn (startTask (s.m.modLaunch lid (gridDealt key l)) l cx t) lid) :
    ∃ u b d, exec (.dealTask lid) s = .next u ∧ Started (u.m.ctx cx) l t ∧
      u.m.launch? lid = some { gridDealt key l l with active := b, dealer := d } := by
  obtain ⟨hs, hx⟩ := startTask_known (m := s.m.modLaunch lid (gridDealt key l)) (cx := cx) ht
  obtain ⟨b, hb⟩ := hx lid _ (launch?_modLaunch_same (f := gridDealt key l) (fun _ => rfl) hl)
  obtain ⟨hc, d, hdl⟩ := dealerReturn_frame hb
  rw [← hd] at hc hdl
  refine ⟨{ s with m := dealTask s.m lid }, b, d, rfl, ?_, hdl⟩
  rw [Mach.ctx] at hs
  show Started (mget {} (dealTask s.m lid).ctxs cx) l t
  rwa [hc]

/-- What DEAL_TASK does for a running launch with a free context. -/
theorem dealTask_running (hp : l.phase = .running) {key cx : Nat} (hn : nextCtx s.m l = some (key, cx)) : dealTask s.m lid =
    match l.spawns, l.msgs, l.records with
    | t :: r, _, _ => startTask (s.m.modLaunch lid fun l => { l with lastSeat := key, spawns := r }) l cx t
    | [], t :: r, _ => startTask (s.m.modLaunch lid fun l => { l with lastSeat := key, msgs := r }) l cx t
    | [], [], t :: r => startTask (s.m.modLaunch lid fun l => { l with lastSeat := key, records := r }) l cx t
    | [], [], [] =>
      if l.next < l.gridSize then
        dealerReturn (startTask (s.m.modLaunch lid (gridDealt key l)) l cx
          (gridTask l (l.rootRef s.m) (dealShare l.dealt l.dealer).1 l.next)) lid
      else s.m := by
  unfold dealTask
  rw [hl]
  dsimp only
  rw [if_neg (by simp [hp]), hn]
  dsimp only
  cases l.spawns <;> cases l.msgs <;> cases l.records <;> rfl
end

/-- DEAL_TASK (05 R90 to R92; 15 R299). -/
theorem dealTask_rule (s : State) (lid : Word) (l : Launch) (key cx : Nat) (hl : s.m.launch? lid = some l) (hp : l.phase = .running)
    (hn : nextCtx s.m l = some (key, cx)) :
    (∀ t r, l.spawns = t :: r → t.entry < l.kernel.entries.length →
      ∃ u x, exec (.dealTask lid) s = .next u ∧ Started (u.m.ctx cx) l t ∧ u.m.launch? lid = some x ∧ x.spawns = r ∧ x.lastSeat = key) ∧
    (∀ t r, l.spawns = [] → l.msgs = t :: r → t.entry < l.kernel.entries.length →
      ∃ u x, exec (.dealTask lid) s = .next u ∧ Started (u.m.ctx cx) l t ∧ u.m.launch? lid = some x ∧ x.msgs = r ∧ x.lastSeat = key) ∧
    (∀ t r, l.spawns = [] → l.msgs = [] → l.records = t :: r → t.entry < l.kernel.entries.length →
      ∃ u x, exec (.dealTask lid) s = .next u ∧ Started (u.m.ctx cx) l t ∧ u.m.launch? lid = some x ∧ x.records = r ∧ x.lastSeat = key) ∧
    (l.spawns = [] → l.msgs = [] → l.records = [] → l.next < l.gridSize → 0 < l.kernel.entries.length →
      ∃ u x, exec (.dealTask lid) s = .next u ∧
        Started (u.m.ctx cx) l (gridTask l (l.rootRef s.m) (dealShare l.dealt l.dealer).1 l.next) ∧
        u.m.launch? lid = some x ∧ x.next = l.next + 1 ∧ x.dealt = l.dealt + 1) ∧
    (l.hasWork = false → exec (.dealTask lid) s = .next s) := by
  have hd := dealTask_running hl hp hn
  refine ⟨fun t r hs ht => ?_, fun t r hs hm ht => ?_, fun t r hs hm hr ht => ?_, fun hs hm hr hg he => ?_, fun hw => ?_⟩
  · rw [hs] at hd
    obtain ⟨u, b, he, hst, hx⟩ := deal_listed hl (f := fun l => { l with lastSeat := key, spawns := r }) (fun _ => rfl) ht hd
    exact ⟨u, _, he, hst, hx, rfl, rfl⟩
  · rw [hs, hm] at hd
    obtain ⟨u, b, he, hst, hx⟩ := deal_listed hl (f := fun l => { l with lastSeat := key, msgs := r }) (fun _ => rfl) ht hd
    exact ⟨u, _, he, hst, hx, rfl, rfl⟩
  · rw [hs, hm, hr] at hd
    obtain ⟨u, b, he, hst, hx⟩ := deal_listed hl (f := fun l => { l with lastSeat := key, records := r }) (fun _ => rfl) ht hd
    exact ⟨u, _, he, hst, hx, rfl, rfl⟩
  · rw [hs, hm, hr] at hd
    dsimp only at hd
    rw [if_pos hg] at hd
    obtain ⟨u, b, d, hex, hst, hx⟩ := deal_grid hl he hd
    exact ⟨u, _, hex, hst, hx, rfl, rfl⟩
  · obtain ⟨⟨⟨hs, hm⟩, hr⟩, hg⟩ : ((l.spawns = [] ∧ l.msgs = []) ∧ l.records = []) ∧ ¬l.next < l.gridSize := by
      simpa [Launch.hasWork] using hw
    rw [hs, hm, hr] at hd
    exact congrArg (fun m => Host.Outcome.next (put s m)) (hd.trans (if_neg hg))

/-! Seats (05 R88, R92; 12 R214; 18 R356). -/

/-- A claim sets every gated core that it waits for waking, and touches nothing else. -/
theorem wakeFor_frame (m : Mach) (cores : List Nat) :
    wakeFor m cores = { m with cores := (wakeFor m cores).cores } ∧
      ∀ k, (wakeFor m cores).core k = if k ∈ cores ∧ (m.core k).gated = true then { m.core k with waking := true } else m.core k := by
  induction cores generalizing m with
  | nil => exact ⟨rfl, fun k => by simp [wakeFor]⟩
  | cons c cs ih =>
    obtain ⟨h1, h2⟩ := ih (if (m.core c).gated then m.modCore c fun x => { x with waking := true } else m)
    have e : wakeFor m (c :: cs) = wakeFor (if (m.core c).gated then m.modCore c fun x => { x with waking := true } else m) cs := rfl
    rw [e]
    by_cases hg : (m.core c).gated = true
    · simp only [hg, if_true] at h1 h2 ⊢
      refine ⟨h1, fun k => ?_⟩
      rw [h2 k]
      by_cases hk : c = k
      · subst hk
        simp [hg]
      · simp [core_modCore_ne m _ hk, Ne.symm hk]
    · simp only [hg, Bool.false_eq_true, if_false] at h1 h2 ⊢
      refine ⟨h1, fun k => ?_⟩
      rw [h2 k]
      by_cases hk : k = c
      · subst hk
        simp [hg]
      · simp [hk]
theorem woken_wakeFor (s : State) (cores : List Nat) : Woken s { s with m := wakeFor s.m cores } cores := wakeFor_frame s.m cores

/-- What is written to each of a list of contexts holds of them after all the writes. -/
theorem ctx_of_foldl_setCtx {P : Ctx → Prop} (f : Mach → Nat × Nat → Ctx) (hf : ∀ m x, P (f m x)) (xs : List (Nat × Nat)) (m : Mach) (cx : Nat)
    (h : cx ∈ xs.map Prod.snd ∨ P (m.ctx cx)) : P ((xs.foldl (fun m x => m.setCtx x.2 (f m x)) m).ctx cx) := by
  induction xs generalizing m with
  | nil => simpa using h
  | cons x xs ih =>
    refine ih _ ?_
    show _ ∨ P ((m.setCtx x.2 (f m x)).ctx cx)
    by_cases hx : x.2 = cx
    · right
      rw [hx, ctx_setCtx_same]
      exact hf m x
    · rw [ctx_setCtx_ne _ _ hx]
      simpa [Ne.symm hx] using h
/-- The machine but for its contexts is kept by writes to contexts. -/
theorem launches_foldl_setCtx (f : Mach → Nat × Nat → Ctx) (xs : List (Nat × Nat)) (m : Mach) :
    (xs.foldl (fun m x => m.setCtx x.2 (f m x)) m).launches = m.launches :=
  foldl_keeps (fun n : Mach => n.launches = m.launches) (fun m x => m.setCtx x.2 (f m x)) (fun _ _ hn => hn) _ _ rfl

/-- The contexts a claim picks are of its core. -/
theorem coreOf_picked {m n : Mach} {k j cx : Nat} (h : cx ∈ m.pickSome (freeCtxs n k) j) : coreOf cx = k := by
  have hm : cx ∈ freeCtxs n k := List.mem_of_mem_filter h
  have hu := (mem_upFrom _ _ _).1 (List.mem_of_mem_filter hm)
  show cx / 8 = k
  omega
/-- What a seat makes of its contexts (05 R92). -/
theorem giveSeat_frame (m : Mach) (l : Launch) (st : SeatRec) :
    (∀ cx ∈ st.ctxs, ((giveSeat m l st).ctx cx).life = .free ∧ ((giveSeat m l st).ctx cx).launch = some l.lid) ∧
      ∀ x, m.launch? l.lid = some x → (giveSeat m l st).launch? l.lid = some { x with seats := x.seats ++ [st] } := by
  constructor
  · intro cx hcx
    refine ctx_of_foldl_setCtx (P := fun c => c.life = .free ∧ c.launch = some l.lid)
      (fun m x => seatCtx m l st.base x.1 (st.blocks.getD x.1 x.2) x.2) (fun _ _ => ⟨rfl, rfl⟩) _ _ cx (.inl ?_)
    rwa [List.map_snd_zip (by simp)]
  · intro x hx
    refine launch?_modLaunch_same (f := fun l => { l with seats := l.seats ++ [st] }) (fun _ => rfl) ?_
    refine (launch?_congr ?_ _).trans hx
    exact launches_foldl_setCtx _ _ _
/-- The seat that a claim of a launch takes on a core: contexts and region are free picks (log 5). -/
def claimedSeat (m : Mach) (l : Launch) (k : Nat) : SeatRec :=
  let cxs := m.pickSome (freeCtxs m k) l.kernel.contexts
  { no := l.seatNo, blocks := pickBlocks (blocksUsed m) cxs, lid := l.lid, core := k, ctxs := cxs,
    base := (m.freshen.pickOf (regionPlaces m k (l.kernel.contexts * l.kernel.reservation))).getD 0,
    size := l.kernel.contexts * l.kernel.reservation, first := l.seats.isEmpty }
theorem claimOn_eq {m : Mach} {l : Launch} (k : Nat) (h : m.launch? l.lid = some l) : claimOn m l.lid k =
    (giveSeat m.freshen.freshen l (claimedSeat m l k)).modLaunch l.lid fun l => { l with seatNo := l.seatNo + 1 } := by
  rw [claimOn, h]
  rfl
/-- A claim gives its launch one more seat on the core, whose contexts are free and of the launch. -/
theorem claimOn_frame {m : Mach} {lid : Word} {l : Launch} (k : Nat) (h : m.launch? lid = some l) :
    ∃ st, (claimOn m lid k).launch? lid = some { l with seats := l.seats ++ [st], seatNo := l.seatNo + 1 } ∧ st.core = k ∧ st.resident = true ∧
      ∀ cx ∈ st.ctxs, coreOf cx = k ∧ ((claimOn m lid k).ctx cx).life = .free ∧ ((claimOn m lid k).ctx cx).launch = some lid := by
  have hid := lid_of_launch? h
  subst hid
  have hg : m.freshen.freshen.launch? l.lid = some l := h
  obtain ⟨hctx, hlaunch⟩ := giveSeat_frame m.freshen.freshen l (claimedSeat m l k)
  rw [claimOn_eq k h]
  refine ⟨claimedSeat m l k, ?_, rfl, rfl, fun cx hcx => ?_⟩
  · exact launch?_modLaunch_same (f := fun l => { l with seatNo := l.seatNo + 1 }) (fun _ => rfl) (hlaunch l hg)
  · have hk : coreOf cx = k := coreOf_picked (m := m) (n := m) (j := l.kernel.contexts) hcx
    rw [ctx_modLaunch]
    exact ⟨hk, hctx cx hcx⟩

section
variable {s : State} {lid : Word} {l : Launch} {k : Nat} {cr : List Nat} (hl : s.m.launch? lid = some l) (hp : l.phase = .running)
  (hk : l.kernel.persistent = false) (hw : l.hasWork = true) (hc : seatCore s.m l.kernel l.home l.wide = some k)
  (hcr : creditsFor s.m l.kernel l.credits (k :: l.seats.map (·.core)) = some cr)
include hl hp hk hw hc hcr

/-- CLAIM_SEAT of a running launch with work, for which there are a core and credits. -/
theorem claimSeat_running : claimSeat s.m lid =
    if canPlace s.m l.kernel k then claimOn ((s.m.useCredits cr).modLaunch lid fun l => { l with credits := addLists l.credits cr }) lid k
    else wakeFor s.m [k] := by
  unfold claimSeat
  rw [hl]
  dsimp only
  rw [if_neg (by simp [hp, hk, hw]), hc]
  dsimp only
  rw [hcr]
  dsimp only
  cases canPlace s.m l.kernel k <;> rfl
theorem claimSeat_placed (hpl : canPlace s.m l.kernel k = true) :
    ∃ t x st, exec (.claimSeat lid) s = .next t ∧ t.m.launch? lid = some x ∧ x.seats = l.seats ++ [st] ∧ st.core = k ∧ st.resident = true ∧
      ∀ cx ∈ st.ctxs, coreOf cx = k ∧ (t.m.ctx cx).life = .free ∧ (t.m.ctx cx).launch = some lid := by
  have he := claimSeat_running hl hp hk hw hc hcr
  rw [if_pos hpl] at he
  have hx : ((s.m.useCredits cr).modLaunch lid fun l => { l with credits := addLists l.credits cr }).launch? lid = _ :=
    launch?_modLaunch_same (m := s.m.useCredits cr) (fun _ => rfl) hl
  obtain ⟨st, h1, h2, h3, h4⟩ := claimOn_frame k hx
  rw [← he] at h1 h4
  exact ⟨{ s with m := claimSeat s.m lid }, _, st, rfl, h1, rfl, h2, h3, h4⟩
theorem claimSeat_waits (hpl : canPlace s.m l.kernel k = false) : ∃ t, exec (.claimSeat lid) s = .next t ∧ Woken s t [k] := by
  have he := claimSeat_running hl hp hk hw hc hcr
  rw [if_neg (by simp [hpl])] at he
  refine ⟨{ s with m := wakeFor s.m [k] }, ?_, woken_wakeFor s [k]⟩
  exact congrArg (fun m => Host.Outcome.next (put s m)) he
end

/-! Requests at the scheduler (05 R94; 10 R192; 15 R299 to R301). -/

/-- The receipt of a request that waits: performed and taken off the list, or left to wait. -/
theorem schedReceipt_waits {s : State} {d n : Nat} {r : SchedReq} {l : Launch} (h : Waits s d n r l) :
    schedReceipt s.m d n = ((performReq s.m d l r).map (served d n)).getD s.m := by
  obtain ⟨hr, hf, hl, ha⟩ := h
  have hf' : ¬(((s.m.die d).reqs.take n).any fun e => e.lid == r.lid) = true := by simpa using hf
  unfold schedReceipt
  rw [hr]
  dsimp only
  rw [if_neg hf', hl]
  dsimp only
  rw [if_neg (by simp [ha])]
  rfl
theorem exec_receipt_done {s : State} {d n : Nat} {r : SchedReq} {l : Launch} (h : Waits s d n r l) {t : Mach} (ht : performReq s.m d l r = some t) :
    exec (.schedulerReceipt d n) s = .next (put s (served d n t)) := by
  have e := schedReceipt_waits h
  rw [ht] at e
  exact congrArg (fun m => Host.Outcome.next (put s m)) e
theorem exec_receipt_waits {s : State} {d n : Nat} {r : SchedReq} {l : Launch} (h : Waits s d n r l) (ht : performReq s.m d l r = none) :
    exec (.schedulerReceipt d n) s = .next s := by
  have e := schedReceipt_waits h
  rw [ht] at e
  exact congrArg (fun m => Host.Outcome.next (put s m)) e

section
variable {m : Mach} {d cx q b : Nat} {l : Launch} {lid : Word} {bs : List Byte} {give : Word} {host : Option Word}

theorem performReq_lrec_noQueue (h : m.qEnabled q = false ∨ m.qFlag q 4 = false) :
    performReq m d l (.lrec cx lid q b bs give host) = some (answer (m.logQueue q) cx false true 0) :=
  if_pos (by simpa using h)

variable (he : m.qEnabled q = true) (hf : m.qFlag q 4 = true)
include he hf

/-- An LREC to a record queue (15 R300). -/
theorem performReq_lrec_queue : performReq m d l (.lrec cx lid q b bs give host) =
    if b < l.horizon then some (answer m cx false false 0)
    else if 2 ^ m.qCap q ≤ m.qGet q 16 8 - m.qGet q 24 8 then none
    else
      let n := (m.qPut q 16 8 (m.qGet q 16 8 + 1)).devStore (m.qHome q) (slotAddr m q (m.qGet q 16 8)) (recordBytes bs l.domain b give)
      let n := if (m.ctx cx).qwRoot = l.rootRef n then n else { n with recRoots := mset n.recRoots (lidOf q (m.qGet q 16 8)).toNat (m.ctx cx).qwRoot }
      some (answer (payShare ((n.modLaunch l.lid fun l => { l with recOut := l.recOut + 1 }).notify q) cx) cx true false 0) :=
  if_neg (by simp [he, hf])
theorem performReq_lrec_dropped (hb : b < l.horizon) : performReq m d l (.lrec cx lid q b bs give host) = some (answer m cx false false 0) := by
  rw [performReq_lrec_queue he hf, if_pos hb]
theorem performReq_lrec_full (hb : l.horizon ≤ b) (hq : 2 ^ m.qCap q ≤ m.qGet q 16 8 - m.qGet q 24 8) :
    performReq m d l (.lrec cx lid q b bs give host) = none := by
  rw [performReq_lrec_queue he hf, if_neg (Nat.not_lt.2 hb), if_pos hq]
theorem performReq_lrec_written (hb : l.horizon ≤ b) (hq : m.qGet q 16 8 - m.qGet q 24 8 < 2 ^ m.qCap q)
    (hr : (m.ctx cx).qwRoot = l.rootRef m) :
    performReq m d l (.lrec cx lid q b bs give host) = some (answer
      (((((m.qPut q 16 8 (m.qGet q 16 8 + 1)).devStore (m.qHome q)
        (m.qGet q 0 8 + 64 * (m.qGet q 16 8 % 2 ^ m.qCap q)) (recordBytes bs l.domain b give)).modLaunch l.lid
          fun l => { l with recOut := l.recOut + 1 }).notify q).modCtx cx paid) cx true false 0) := by
  have hs := ((StoreOnly.qPut m q 16 8 (m.qGet q 16 8 + 1)).trans
    (.devStore _ (m.qHome q) (slotAddr m q (m.qGet q 16 8)) (recordBytes bs l.domain b give))).rootRef l
  rw [performReq_lrec_queue he hf, if_neg (Nat.not_lt.2 hb), if_neg (Nat.not_le.2 hq)]
  dsimp only
  rw [if_pos (hr.trans hs.symm)]
  rfl
end

/-- Settles O55: dealing by the first list with a task, claims through the seat they give, and each request by what its die performs. -/
theorem scheduling : Obligations.Scheduling := by
  refine ⟨dealTask_rule, ?_, ?_, ?_⟩
  · intro s lid l k cr hl hp hk hw hc hpl hcr
    exact claimSeat_placed hl hp hk hw hc hcr hpl
  · intro s lid l k cr hl hp hk hw hc hpl hcr
    exact claimSeat_waits hl hp hk hw hc hcr hpl
  · intro s d n r l h
    refine ⟨?_, ?_, ?_, ?_⟩
    · rintro cx rfl
      exact ⟨fun hb => exec_receipt_done h (congrArg some (if_pos hb)), fun hb => exec_receipt_done h (congrArg some (if_neg hb))⟩
    · rintro cx b rfl
      exact exec_receipt_done h rfl
    · rintro cx t rfl
      exact ⟨fun hs => exec_receipt_done h (if_pos hs), fun hs => exec_receipt_waits h (if_neg (Nat.not_lt.2 hs))⟩
    · rintro cx q b bs give host rfl
      refine ⟨fun hq => exec_receipt_done h (performReq_lrec_noQueue hq), fun he hf => ⟨fun hb => ?_, fun hb hq => ?_, fun hb hq hr => ?_⟩⟩
      · exact exec_receipt_done h (performReq_lrec_dropped he hf hb)
      · exact exec_receipt_waits h (performReq_lrec_full he hf hb hq)
      · exact exec_receipt_done h (performReq_lrec_written he hf hb hq hr)

end Sys2Proof.Proofs
end

section
/-! SUPPORT. Queues: notifies, slots, and the decisions on their heads (05 R78 to R89, R94). -/
namespace Sys2Proof.Proofs
open Sys2Proof.Machine Sys2Proof.Safety Sys2Proof.Claims

/-! Notifies (05 R81, R82). -/

/-- What is done to every member of a map is done to the member read, where what is not listed stays as it is. -/
theorem mget_map {α : Type} (d : α) (f : α → α) (hf : f d = d) (t : Mp α) (k : Nat) : mget d (t.map fun x => (x.1, f x.2)) k = f (mget d t k) := by
  induction t with
  | nil => exact hf.symm
  | cons x t ih =>
    obtain ⟨j, v⟩ := x
    show (if j = k then f v else mget d (t.map fun x => (x.1, f x.2)) k) = f (if j = k then v else mget d t k)
    split
    · rfl
    · exact ih
/-- A member set in a map is found. -/
theorem mget?_mset_same {α : Type} (t : Mp α) (k : Nat) (v : α) : mget? (mset t k v) k = some v := by
  induction t with
  | nil => simp [mset, mget?]
  | cons x t ih =>
    obtain ⟨j, w⟩ := x
    unfold mset
    split
    · simp [mget?]
    · split
      · simp [mget?]
      · simp [mget?, *]
/-- A dropped member reads as one that was never listed. -/
theorem mget_mdel_same {α : Type} (d : α) (t : Mp α) (k : Nat) : mget d (mdel t k) k = d := by
  induction t with
  | nil => rfl
  | cons x t ih =>
    obtain ⟨j, w⟩ := x
    unfold mdel
    split
    · exact ih
    · simp [mget, *]

/-- A context after a notify for queue q: one that idles on it goes on (05 R81). -/
def wokenBy (q : Nat) (c : Ctx) : Ctx := if c.idleAt = some (2 ^ 32 + q) then { c with idleAt := none } else c
/-- The contexts that idle on queue q go on. -/
def wakeIdle (q : Nat) (m : Mach) : Mach := { m with ctxs := m.ctxs.map fun x => (x.1, wokenBy q x.2) }
theorem ctx_wakeIdle (q : Nat) (m : Mach) (cx : Nat) : (wakeIdle q m).ctx cx = wokenBy q (m.ctx cx) :=
  mget_map ({} : Ctx) (wokenBy q) rfl m.ctxs cx
theorem die_wakeIdle (q : Nat) (m : Mach) (d : Nat) : (wakeIdle q m).die d = m.die d := rfl
theorem idleAt_wokenBy {q : Nat} {c : Ctx} (h : c.idleAt = some (2 ^ 32 + q)) : (wokenBy q c).idleAt = none := by rw [wokenBy, if_pos h]

section
variable {m : Mach} {q : Nat}

theorem notify_lost (h : m.qEnabled q = false) : m.notify q = { m.logQueue q with lostNotifies := sat16 m.lostNotifies } := if_pos (by simp [h])
theorem notify_mapped (h : m.qEnabled q = true) (hs : ∃ x ∈ (m.die (m.qHome q)).slots, x.q = q) :
    m.notify q = wakeIdle q (m.modDie (m.qHome q) fun x => { x with
      slots := lmod (fun s => s.q == q) (fun s => { s with lastNotify := m.time }) x.slots }) := by
  refine (if_neg (by simp [h])).trans (if_pos ?_)
  simpa using hs
theorem notify_unmapped (h : m.qEnabled q = true) (hs : ∀ x ∈ (m.die (m.qHome q)).slots, x.q ≠ q) :
    m.notify q = wakeIdle q { m.qSetFlag q 1 true with notifyAt := mset m.notifyAt q m.time } := by
  refine (if_neg (by simp [h])).trans (if_neg ?_)
  simpa using hs
/-- A write of 2, 4 or 8 bytes at offset 0 of a notify register names a queue (R81). -/
theorem notifyWrite_named {size : Nat} (h : size ∈ [2, 4, 8]) (v : Word) : m.notifyWrite 0 size v = m.notify (v.toNat % 4096) :=
  if_pos (by simpa [or_assoc] using h)
theorem notifyWrite_lost {off size : Nat} (h : off ≠ 0 ∨ size ∉ [2, 4, 8]) (v : Word) :
    m.notifyWrite off size v = { m with lostNotifies := sat16 m.lostNotifies } := by
  refine if_neg ?_
  simp only [List.mem_cons, List.not_mem_nil, or_false] at h
  simp only [Bool.and_eq_true, Bool.or_eq_true, decide_eq_true_eq]
  tauto
end

/-- NOTIFY_REGISTER_WRITE of an enabled queue (05 R81, R82). -/
theorem notify_enabled {s : State} {die : BitVec 2} {off size : Nat} {v : Word} (ho : off = 0) (hs : size ∈ [2, 4, 8]) {q : Nat}
    (hq : v.toNat % 4096 = q) (he : s.m.qEnabled q = true) :
    ∃ t, exec (.notifyRegisterWrite die off size v) s = .next t ∧ t.m.lostNotifies = s.m.lostNotifies ∧
      (∀ cx, (s.m.ctx cx).idleAt = some (2 ^ 32 + q) → (t.m.ctx cx).idleAt = none) ∧
      ((∃ x ∈ (s.m.die (s.m.qHome q)).slots, x.q = q) → t.m.mem = s.m.mem ∧
        (t.m.die (s.m.qHome q)).slots = (s.m.die (s.m.qHome q)).slots.map fun x => if x.q = q then { x with lastNotify := s.m.time } else x) ∧
      ((∀ x ∈ (s.m.die (s.m.qHome q)).slots, x.q ≠ q) → t.m.mem = (s.m.qSetFlag q 1 true).mem ∧ t.m.dies = (s.m.qSetFlag q 1 true).dies ∧
        mget? t.m.notifyAt q = some s.m.time) := by
  subst ho
  have hx : exec (.notifyRegisterWrite die 0 size v) s = .next { s with m := s.m.notify q } :=
    congrArg (fun m => Host.Outcome.next (put s m)) ((notifyWrite_named hs v).trans (by rw [hq]))
  refine ⟨_, hx, ?_⟩
  show (s.m.notify q).lostNotifies = _ ∧ (∀ cx, _ → ((s.m.notify q).ctx cx).idleAt = none) ∧
    (_ → (s.m.notify q).mem = _ ∧ ((s.m.notify q).die _).slots = _) ∧ (_ → (s.m.notify q).mem = _ ∧ (s.m.notify q).dies = _ ∧ mget? (s.m.notify q).notifyAt q = _)
  by_cases hm : ∃ x ∈ (s.m.die (s.m.qHome q)).slots, x.q = q
  · rw [notify_mapped he hm]
    refine ⟨rfl, fun cx h => ?_, fun _ => ⟨rfl, ?_⟩, fun h => ?_⟩
    · rw [ctx_wakeIdle]
      exact idleAt_wokenBy h
    · rw [die_wakeIdle, die_modDie_same]
      simp [lmod]
    · obtain ⟨x, hx, e⟩ := hm
      exact absurd e (h x hx)
  · have hn : ∀ x ∈ (s.m.die (s.m.qHome q)).slots, x.q ≠ q := fun x hx e => hm ⟨x, hx, e⟩
    have hso := StoreOnly.qSetFlag s.m q 1 true
    rw [notify_unmapped he hn]
    refine ⟨hso.lostNotifies, fun cx h => ?_, fun h => absurd h hm, fun _ => ⟨rfl, rfl, ?_⟩⟩
    · rw [ctx_wakeIdle]
      exact idleAt_wokenBy ((congrArg Ctx.idleAt (hso.ctx cx)).trans h)
    · exact mget?_mset_same _ _ _

/-! Slots (05 R82, R83). -/

/-- A free pick from a list that is not empty is a member of it. -/
theorem pickOf_mem {α : Type} (m : Mach) {l : List α} (h : l ≠ []) : ∃ x, m.pickOf l = some x ∧ x ∈ l := by
  have hlt : Config.freePick m.fresh % l.length < l.length := Nat.mod_lt _ (List.length_pos_iff.2 h)
  exact ⟨_, List.getElem?_eq_getElem hlt, List.getElem_mem hlt⟩
/-- Fewer than 64 slots leave a slot number free. -/
theorem freeSlot_exists {l : List Nat} (h : l.length < 64) : ((upFrom 0 64).filter fun n => !l.contains n) ≠ [] := by
  intro hnil
  have hsub : Finset.range 64 ⊆ l.toFinset := by
    intro n hn
    by_contra hl
    have hmem : n ∈ (upFrom 0 64).filter fun n => !l.contains n := by
      rw [List.mem_filter]
      exact ⟨(mem_upFrom _ _ _).2 ⟨Nat.zero_le _, by simpa using hn⟩, by simpa using hl⟩
    rw [hnil] at hmem
    cases hmem
  have hcard := (Finset.card_le_card hsub).trans (List.toFinset_card_le l)
  rw [Finset.card_range] at hcard
  omega

/-- Slot number `no` of a die for queue q, with what stayed with the queue while it was unmapped. -/
def slotTaken (m : Mach) (d q no : Nat) : Mach :=
  Mach.modDie { m with notifyAt := mdel m.notifyAt q, passedAt := mdel m.passedAt q } d fun x => { x with
    slots := x.slots ++ [{ q := q, no := no, lastNotify := mget m.time m.notifyAt q, passed := mget 0 m.passedAt q }] }
/-- The slot of queue q given up; what slot `x` knew stays with the queue. -/
def slotGiven (m : Mach) (d q : Nat) (x : HwSlot) : Mach :=
  Mach.modDie { m with notifyAt := mset m.notifyAt q x.lastNotify,
                       passedAt := if x.passed = 0 then mdel m.passedAt q else mset m.passedAt q x.passed } d fun x => { x with
    slots := x.slots.filter (·.q != q) }
theorem slots_slotTaken (m : Mach) (d q no : Nat) : ((slotTaken m d q no).die d).slots = (m.die d).slots ++
    [{ q := q, no := no, lastNotify := mget m.time m.notifyAt q, passed := mget 0 m.passedAt q }] := by
  rw [slotTaken, die_modDie_same]
  rfl
theorem slots_slotGiven (m : Mach) (d q : Nat) (x : HwSlot) : ((slotGiven m d q x).die d).slots = (m.die d).slots.filter (fun y => y.q != q) := by
  rw [slotGiven, die_modDie_same]
  rfl
theorem passedAt_slotGiven (m : Mach) (d q : Nat) (x : HwSlot) : mget 0 (slotGiven m d q x).passedAt q = x.passed := by
  show mget 0 (if x.passed = 0 then mdel m.passedAt q else mset m.passedAt q x.passed) q = x.passed
  split
  · rw [mget_mdel_same, ‹x.passed = 0›]
  · exact mget_mset_same _ _ _ _

/-- A queue that is mapped takes a free slot number, with the time of its last notify and the decisions that have passed its head over. -/
theorem mapQueue_mapped {m : Mach} {d q : Nat} (he : m.qEnabled q = true) (hh : m.qHome q = d) (hf : m.qFlag q 1 = true)
    (hs : (m.die d).slot? q = none) (hn : (m.die d).slots.length < 64) :
    ∃ no, no < 64 ∧ (∀ x ∈ (m.die d).slots, x.no ≠ no) ∧
      ((mapQueue m d q).die d).slots = (m.die d).slots ++
        [{ q := q, no := no, lastNotify := mget m.time m.notifyAt q, passed := mget 0 m.passedAt q }] ∧
      (mapQueue m d q).mem = ((m.qSetFlag q 1 false).qSetFlag q 3 true).mem := by
  obtain ⟨no, hp, hmem⟩ := pickOf_mem m (freeSlot_exists (l := (m.die d).slots.map (·.no)) (by simpa using hn))
  obtain ⟨hlt, hfree⟩ := List.mem_filter.1 hmem
  have hso : StoreOnly m.freshen ((m.freshen.qSetFlag q 1 false).qSetFlag q 3 true) := (StoreOnly.qSetFlag _ _ _ _).trans (.qSetFlag _ _ _ _)
  have hmq : mapQueue m d q = slotTaken ((m.freshen.qSetFlag q 1 false).qSetFlag q 3 true) d q no := by
    unfold mapQueue
    dsimp only
    rw [if_pos (by simp [he, hh, hf, hs]), hp]
    rfl
  refine ⟨no, by simpa using ((mem_upFrom _ _ _).1 hlt).2, fun x hx e => ?_, ?_, ?_⟩
  · simp only [Bool.not_eq_true', List.contains_eq_mem, decide_eq_false_iff_not, List.mem_map, not_exists, not_and] at hfree
    exact hfree x hx e
  · rw [hmq, slots_slotTaken, hso.slots, hso.time, hso.notifyAt, hso.passedAt]
    rfl
  · rw [hmq]
    exact (((show SameMem m m.freshen from rfl).qSetFlag q 1 false).qSetFlag q 3 true).mem

/-- The queue without a notify for the longest gives its slot up while all are in use, and keeps what its slot knew (R83; log 87). -/
theorem unmapQueue_given {m : Mach} {d q : Nat} {x : HwSlot} (hx : (m.die d).slot? q = some x) (hn : (m.die d).slots.length = 64)
    (hu : unmappable m q = true) (ho : ∀ y ∈ (m.die d).slots, unmappable m y.q = true → x.lastNotify.toNat ≤ y.lastNotify.toNat)
    (hf : (m.qSetFlag q 3 false).qFlag q 1 = false) :
    ((unmapQueue m d q).die d).slots = (m.die d).slots.filter (fun y => y.q != q) ∧ (unmapQueue m d q).mem = (m.qSetFlag q 3 false).mem ∧
      mget? (unmapQueue m d q).notifyAt q = some x.lastNotify ∧ mget 0 (unmapQueue m d q).passedAt q = x.passed := by
  have hk : unmapQueue m d q = if ((slotGiven m d q x).qSetFlag q 3 false).qFlag q 1 then mapQueue ((slotGiven m d q x).qSetFlag q 3 false) d q
      else (slotGiven m d q x).qSetFlag q 3 false := by
    unfold unmapQueue
    dsimp only
    rw [hx]
    refine if_pos ?_
    simp only [hn, hu, decide_true, Bool.and_true, Bool.true_and, List.all_eq_true, Bool.or_eq_true, Bool.not_eq_true', decide_eq_true_eq]
    intro y hy
    cases hyu : unmappable m y.q with
    | false => exact .inl rfl
    | true => exact .inr (ho y hy hyu)
  have hm : SameMem (m.qSetFlag q 3 false) ((slotGiven m d q x).qSetFlag q 3 false) :=
    (show SameMem m (slotGiven m d q x) from rfl).qSetFlag q 3 false
  have hso := StoreOnly.qSetFlag (slotGiven m d q x) q 3 false
  rw [hk, if_neg (by simp [(hm.read (·.qFlag q 1) fun _ => rfl).trans hf])]
  refine ⟨(hso.slots d).trans (slots_slotGiven m d q x), hm.mem, ?_, ?_⟩
  · rw [hso.notifyAt]
    exact mget?_mset_same _ _ _
  · rw [hso.passedAt, passedAt_slotGiven]
theorem unmapQueue_kept {m : Mach} {d q : Nat} (hn : (m.die d).slots.length ≠ 64) : unmapQueue m d q = m := by
  unfold unmapQueue
  dsimp only
  cases (m.die d).slot? q with
  | none => rfl
  | some x => exact if_neg (by simp [hn])

/-! Decisions (05 R87). -/

/-- The round-robin pointer and the counts of a decision on queue q of a die, which slot number `no` holds (R87). -/
def turnTaken (m : Mach) (d q no : Nat) : Mach :=
  m.modDie d fun x => { x with
    rr := (no + 1) % 64
    slots := x.slots.map fun y => if y.q = q then { y with passed := 0 } else if readyOf m y.q != .no then { y with passed := y.passed + 1 } else y }
theorem sameMem_turnTaken (m : Mach) (d q no : Nat) : SameMem m (turnTaken m d q no) := rfl
theorem qHome_turnTaken (m : Mach) (d q no k : Nat) : (turnTaken m d q no).qHome k = m.qHome k :=
  (sameMem_turnTaken m d q no).read (·.qHome k) fun _ => rfl
theorem launches_turnTaken (m : Mach) (d q no : Nat) : (turnTaken m d q no).launches = m.launches := rfl
theorem rr_turnTaken (m : Mach) (d q no : Nat) : ((turnTaken m d q no).die d).rr = (no + 1) % 64 := congrArg Die.rr (die_modDie_same _ _ _)

/-- A record whose batch is gone, or of which a launch stands, at the launch of its batch (05 R94, R95). -/
def recordTo (m : Mach) (q i : Nat) (bs : List Byte) (lid : Option Word) : Mach :=
  let w := BitVec.ofNat 64 (fld bs 8 8)
  match lid.bind m.launch? with
  | none => { m with recRoots := mdel m.recRoots (lidOf q i).toNat }.returnWeight
      (mget ⟨m.deviceNo, BitVec.ofNat 8 (fld bs 7 1), 0⟩ m.recRoots (lidOf q i).toNat) w
  | some l =>
    let root := mget (l.rootRef m) m.recRoots (lidOf q i).toNat
    let m := { m.modLaunch l.lid fun l => { l with recOut := l.recOut - 1 } with recRoots := mdel m.recRoots (lidOf q i).toNat }
    if l.phase = .failing then m.returnWeight root w
    else m.modLaunch l.lid fun x => { x with records := x.records ++ [taskOfRecord bs root false] }

/-- What a decision does with the head `i`, `bs` of its queue over the machine `m`. -/
def decided (m : Mach) (q i : Nat) (bs : List Byte) : Ready → Mach
  | .no => m
  | .wait _ => m
  | .refuse r => refuseHead m q i bs r
  | .broken => finishUnrun m q i (some bs) 3 0x15
  | .accept p r => admitLaunch m p r
  | .noop => raiseHorizon (consumeHead m q) q
  | .record lid => recordTo (raiseHorizon (consumeHead m q) q) q i bs lid

/-- A head that is decided next, and that the event takes, is decided. -/
theorem decide'_next {s : State} {die : BitVec 2} {q : BitVec 12} {no : HwSlot} {i : Nat} {bs : List Byte} (h : DecidedNext s die q no i bs)
    {want : Ready → Bool} {r : Ready} (hr : readyOf s.m q.toNat = r) (hw : want r = true) (ht : r.taken = true) :
    decide' s.m die.toNat q.toNat want = decided (turnTaken s.m die.toNat q.toNat no.no) q.toNat i bs r := by
  obtain ⟨hd, hq, hh⟩ := h
  unfold decide'
  rw [hd]
  dsimp only
  rw [if_neg (not_not.2 hq), if_neg (by simp [hr, hw]), hh, hr]
  cases r with
  | no | wait => cases ht
  | refuse | broken | accept | noop | record => rfl

/-- LAUNCH_PACKET takes a head that a decision refuses, completes unrun or admits. -/
theorem launchPacket_decides {m : Mach} {d q : Nat} {r : Ready} (hr : readyOf m q = r)
    (h : (∃ e, r = .refuse e) ∨ r = .broken ∨ ∃ p v, r = .accept p v) : ∃ want, launchPacket m d q = decide' m d q want ∧ want r = true := by
  unfold launchPacket
  rw [hr]
  obtain ⟨e, rfl⟩ | rfl | ⟨p, v, rfl⟩ := h <;> cases ((m.die d).slot? q).isSome <;> exact ⟨_, rfl, rfl⟩
/-- LAUNCH_PACKET on a mapped queue whose head's reservation waits has its cores wake. -/
theorem launchPacket_wakes {m : Mach} {d q : Nat} {x : HwSlot} {cores : List Nat} (hx : (m.die d).slot? q = some x)
    (hr : readyOf m q = .wait cores) : launchPacket m d q = wakeFor m cores := by
  unfold launchPacket
  rw [hx, hr]
  rfl

section
variable {s : State} {die : BitVec 2} {q : BitVec 12} {no : HwSlot} {i : Nat} {bs : List Byte} (h : DecidedNext s die q no i bs) {r : Ready}
  (hr : readyOf s.m q.toNat = r)
include h hr

theorem exec_launchPacket_decided (hc : (∃ e, r = .refuse e) ∨ r = .broken ∨ ∃ p v, r = .accept p v) :
    exec (.launchPacket die q) s = .next (put s (decided (turnTaken s.m die.toNat q.toNat no.no) q.toNat i bs r)) := by
  obtain ⟨want, hl, hw⟩ := launchPacket_decides (d := die.toNat) hr hc
  have ht : r.taken = true := by obtain ⟨e, rfl⟩ | rfl | ⟨p, v, rfl⟩ := hc <;> rfl
  exact congrArg (fun m => Host.Outcome.next (put s m)) (hl.trans (decide'_next h hr hw ht))
theorem exec_noOp_decided (hc : r = .noop) : exec (.noOp die q) s =
    .next (put s (raiseHorizon (consumeHead (turnTaken s.m die.toNat q.toNat no.no) q.toNat) q.toNat)) := by
  subst hc
  exact congrArg (fun m => Host.Outcome.next (put s m)) (decide'_next h hr rfl rfl)
theorem exec_tileRecord_decided {lid : Option Word} (hc : r = .record lid) :
    exec (.tileRecord die q) s = .next (put s (decided (turnTaken s.m die.toNat q.toNat no.no) q.toNat i bs r)) := by
  subst hc
  exact congrArg (fun m => Host.Outcome.next (put s m)) (decide'_next h hr rfl rfl)
end

/-! Heads that do not run (05 R84, R86, R89). -/

theorem finishUnrun_frame (m : Mach) (q i : Nat) (bs : Option (List Byte)) (status reason : Nat) :
    (finishUnrun m q i bs status reason).launches = m.launches ∧ ∀ d, ((finishUnrun m q i bs status reason).die d).rr = (m.die d).rr := by
  have hn : StoreOnly m (writeRecord (consumeHead m q) (bs.elim 0 fun b => fld b 40 8) status reason 0xFF (lidOf q i).toNat 0) :=
    (StoreOnly.consumeHead m q).trans (.writeRecord _ _ _ _ _ _ _)
  have he : ∀ k, StoreOnly k ((raiseHorizon k q).qFail q i) := fun k => (StoreOnly.raiseHorizon k q).trans (.qFail _ q i)
  unfold finishUnrun
  dsimp only
  generalize writeRecord (consumeHead m q) (bs.elim 0 fun b => fld b 40 8) status reason 0xFF (lidOf q i).toNat 0 = n at hn ⊢
  split
  · exact ⟨(he _).launches.trans hn.launches, fun d => ((he _).rr d).trans (hn.rr d)⟩
  · exact ⟨(he n).launches.trans hn.launches, fun d => ((he n).rr d).trans (hn.rr d)⟩
theorem refuseHead_frame (m : Mach) (q i : Nat) (bs : List Byte) (r : Refused) :
    (refuseHead m q i bs r).launches = m.launches ∧ ∀ d, ((refuseHead m q i bs r).die d).rr = (m.die d).rr := by
  have hs := StoreOnly.logDev m (m.qHome q) r.2
  obtain ⟨hl, hd⟩ := finishUnrun_frame (m.logDev (m.qHome q) r.2) q i
    (if fld bs 0 1 = 1 ∧ fld bs 1 1 = 1 ∧ (entryFailure m q i).isNone then some bs else none) 4 r.1
  exact ⟨hl.trans hs.launches, fun d => (hd d).trans (hs.rr d)⟩

/-! Admission (05 R88 to R90). -/

theorem root_setRoot_same (m : Mach) (dom : Nat) (r : Root) : (m.setRoot dom r).root dom = r := by simp [Mach.root, Mach.setRoot]
theorem dies_foldl_setCtx (f : Mach → Nat × Nat → Ctx) (xs : List (Nat × Nat)) (m : Mach) :
    (xs.foldl (fun m x => m.setCtx x.2 (f m x)) m).dies = m.dies :=
  foldl_keeps (fun n : Mach => n.dies = m.dies) (fun m x => m.setCtx x.2 (f m x)) (fun _ _ hn => hn) _ _ rfl
/-- Seats touch no die. -/
theorem dies_giveSeat (m : Mach) (l : Launch) (st : SeatRec) : (giveSeat m l st).dies = m.dies := by
  unfold giveSeat
  rw [dies_modLaunch, dies_modCore, dies_foldl_setCtx]
  rfl
theorem dies_claimOn {m : Mach} {lid : Word} {l : Launch} (k : Nat) (h : m.launch? lid = some l) : (claimOn m lid k).dies = m.dies := by
  have hid := lid_of_launch? h
  subst hid
  rw [claimOn_eq k h, dies_modLaunch, dies_giveSeat]
  rfl
/-- Weight on its way back leaves the roots as they are. -/
theorem root_returnWeight (m : Mach) (r : RootRef) (w : Word) (dom : Nat) : (m.returnWeight r w).root dom = m.root dom := by
  unfold Mach.returnWeight
  split
  · rfl
  · split
    · unfold Mach.root
      by_cases h : r.domain.toNat / 64 = dom / 64
      · rw [h, die_modDie_same]
      · rw [die_modDie_ne _ _ h]
    · rfl
theorem root_dealerReturn (m : Mach) (lid : Word) (dom : Nat) : (dealerReturn m lid).root dom = m.root dom := by
  unfold dealerReturn
  split
  · rfl
  · split
    · rfl
    · exact foldl_keeps (fun n : Mach => n.root dom = m.root dom) _ (fun n w hn => (root_returnWeight n _ w dom).trans hn) _ _ rfl

/-- The launch of a packet stands: what the packet fixes of it, none of its tasks dealt, and its root is its own. -/
def Admitted (p : Packet) (r : Reserve) (home : Nat) (m : Mach) : Prop :=
  ∃ l, m.launch? (lidOf p.q p.i) = some l ∧ l.kernel = p.kernel ∧ l.windows = p.windows ∧ l.phase = .running ∧ l.root = r.root ∧ l.home = home ∧
    l.next = 0 ∧ (m.root (home * 64 + r.root)).launch = some (lidOf p.q p.i)
theorem Admitted.claimOn {p : Packet} {r : Reserve} {home : Nat} {m : Mach} (h : Admitted p r home m) (k : Nat) :
    Admitted p r home (claimOn m (lidOf p.q p.i) k) := by
  obtain ⟨l, hl, hk, hw, hp, hr, hh, hn, hroot⟩ := h
  obtain ⟨st, hst, -⟩ := claimOn_frame k hl
  refine ⟨_, hst, hk, hw, hp, hr, hh, hn, ?_⟩
  rwa [Mach.root, Mach.die, dies_claimOn k hl]
theorem Admitted.dealerReturn {p : Packet} {r : Reserve} {home : Nat} {m : Mach} (h : Admitted p r home m) :
    Admitted p r home (dealerReturn m (lidOf p.q p.i)) := by
  obtain ⟨l, hl, hk, hw, hp, hr, hh, hn, hroot⟩ := h
  obtain ⟨-, d, hd⟩ := dealerReturn_frame hl
  refine ⟨_, hd, hk, hw, hp, hr, hh, hn, ?_⟩
  rwa [root_dealerReturn]
/-- A launch listed under a number that no other has is the launch of that number. -/
theorem Admitted.listed {p : Packet} {r : Reserve} {home : Nat} {m : Mach} {l : Launch} (h : ∀ x ∈ m.launches, x.lid ≠ lidOf p.q p.i)
    (hid : l.lid = lidOf p.q p.i) (hk : l.kernel = p.kernel) (hw : l.windows = p.windows) (hp : l.phase = .running) (hr : l.root = r.root)
    (hh : l.home = home) (hn : l.next = 0) (hroot : (m.root (home * 64 + r.root)).launch = some (lidOf p.q p.i)) :
    Admitted p r home { m with launches := m.launches ++ [l] } := by
  have hnone : m.launches.find? (fun x => x.lid == lidOf p.q p.i) = none := List.find?_eq_none.2 fun x hx => by simpa using h x hx
  refine ⟨l, ?_, hk, hw, hp, hr, hh, hn, hroot⟩
  show (m.launches ++ [l]).find? (fun x => x.lid == lidOf p.q p.i) = some l
  rw [List.find?_append, hnone, ← hid]
  simp
theorem admitted_admitLaunch {m : Mach} {p : Packet} (r : Reserve) (h : ∀ x ∈ m.launches, x.lid ≠ lidOf p.q p.i) :
    Admitted p r (m.qHome p.q) (admitLaunch m p r) := by
  have hs : (consumeHead m.freshen.freshen p.q).launches = m.launches := (StoreOnly.consumeHead m.freshen.freshen p.q).launches
  unfold admitLaunch
  dsimp only
  generalize consumeHead m.freshen.freshen p.q = c at hs ⊢
  refine Admitted.dealerReturn (foldl_keeps (Admitted p r (m.qHome p.q)) _ (fun n k hn => hn.claimOn k) _ _ ?_)
  refine Admitted.listed ?_ rfl rfl rfl rfl rfl rfl rfl ?_
  · show ∀ x ∈ c.launches, x.lid ≠ lidOf p.q p.i
    rwa [hs]
  · exact congrArg Root.launch (root_setRoot_same _ _ _)

/-! Records (05 R94, R95). -/

theorem recordTo_listed {m : Mach} {q i : Nat} {bs : List Byte} {lid : Word} {l : Launch} (h : m.launch? lid = some l) (hp : l.phase ≠ .failing) :
    ∃ x, (recordTo m q i bs (some lid)).launch? lid = some x ∧ x.recOut = l.recOut - 1 ∧
      x.records = l.records ++ [taskOfRecord bs (mget (l.rootRef m) m.recRoots (lidOf q i).toNat) false] := by
  have hid := lid_of_launch? h
  subst hid
  have hr : (some l.lid).bind m.launch? = some l := h
  unfold recordTo
  rw [hr]
  dsimp only
  rw [if_neg hp]
  refine ⟨_, launch?_modLaunch_same (f := fun x => { x with records := x.records ++
    [taskOfRecord bs (mget (l.rootRef m) m.recRoots (lidOf q i).toNat) false] }) (fun _ => rfl)
    (launch?_modLaunch_same (f := fun l => { l with recOut := l.recOut - 1 }) (fun _ => rfl) h), rfl, rfl⟩

/-- Settles O54: notifies and slots by the rules above; a head that is decided next by what the decision does with it. -/
theorem queueEvents : Obligations.QueueEvents := by
  refine ⟨?_, ?_, ?_, ?_, ?_⟩
  · intro s die off size v q
    refine ⟨fun h => ?_, ?_, fun ho hs he => notify_enabled ho hs rfl he⟩
    · exact congrArg (fun m => Host.Outcome.next (put s m)) (notifyWrite_lost h v)
    · rintro rfl hs he
      exact congrArg (fun m => Host.Outcome.next (put s m)) ((notifyWrite_named hs v).trans (notify_lost he))
  · intro s die q he hh hf hs hn
    obtain ⟨no, h⟩ := mapQueue_mapped he hh hf hs hn
    exact ⟨{ s with m := mapQueue s.m die.toNat q.toNat }, no, rfl, h⟩
  · intro s die q x hx
    refine ⟨fun hn hu ho hf => ?_, fun hn => ?_⟩
    · exact ⟨{ s with m := unmapQueue s.m die.toNat q.toNat }, rfl, unmapQueue_given hx hn hu ho hf⟩
    · exact congrArg (fun m => Host.Outcome.next (put s m)) (unmapQueue_kept hn)
  · intro s die q x cores hx hr
    refine ⟨{ s with m := wakeFor s.m cores }, ?_, woken_wakeFor s cores⟩
    exact congrArg (fun m => Host.Outcome.next (put s m)) (launchPacket_wakes hx hr)
  · intro s die q no i bs h
    have hrr := rr_turnTaken s.m die.toNat q.toNat no.no
    refine ⟨?_, fun p r hr hf => ?_, fun hr => ?_, fun lid l hr hl hp => ?_⟩
    · rintro (hr | ⟨e, hr⟩)
      · obtain ⟨hl, hd⟩ := finishUnrun_frame (turnTaken s.m die.toNat q.toNat no.no) q.toNat i (some bs) 3 0x15
        exact ⟨_, exec_launchPacket_decided h hr (.inr (.inl rfl)), hl, (hd _).trans hrr⟩
      · obtain ⟨hl, hd⟩ := refuseHead_frame (turnTaken s.m die.toNat q.toNat no.no) q.toNat i bs e
        exact ⟨_, exec_launchPacket_decided h hr (.inl ⟨e, rfl⟩), hl, (hd _).trans hrr⟩
    · have had := admitted_admitLaunch (m := turnTaken s.m die.toNat q.toNat no.no) r hf
      rw [qHome_turnTaken] at had
      obtain ⟨l, hl, hk, hw, hp, hroot, hh, hn, hrl⟩ := had
      refine ⟨_, l, exec_launchPacket_decided h hr (.inr (.inr ⟨p, r, rfl⟩)), mem_of_launch? hl, lid_of_launch? hl, hk, hw, hp, hroot, hh, hn, ?_⟩
      rw [lid_of_launch? hl, Launch.domain, hh, hroot]
      exact hrl
    · have hso := (StoreOnly.consumeHead (turnTaken s.m die.toNat q.toNat no.no) q.toNat).trans (.raiseHorizon _ q.toNat)
      have hsm := (sameMem_turnTaken s.m die.toNat q.toNat no.no).consumeHead q.toNat
      refine ⟨_, exec_noOp_decided h hr rfl, ?_⟩
      show (raiseHorizon _ _).launches = _ ∧ ((raiseHorizon _ _).die _).rr = _ ∧ (raiseHorizon _ _).mem = _
      refine ⟨hso.launches.trans (launches_turnTaken _ _ _ _), (hso.rr _).trans hrr, (hsm.raiseHorizon ?_ q.toNat).mem⟩
      rw [(StoreOnly.consumeHead _ _).launches, (StoreOnly.consumeHead _ _).launches, launches_turnTaken]
    · have hso := (StoreOnly.consumeHead (turnTaken s.m die.toNat q.toNat no.no) q.toNat).trans (.raiseHorizon _ q.toNat)
      obtain ⟨x, hx, ho, hrec⟩ := recordTo_listed (i := i) (q := q.toNat) (bs := bs) ((hso.launch? lid).trans hl) hp
      rw [hso.rootRef, hso.recRoots] at hrec
      exact ⟨_, x, exec_tileRecord_decided h hr rfl, hx, ho, hrec⟩

end Sys2Proof.Proofs
end

section
/-! SUPPORT. The end of a launch: completion, failure, its watchdog and CANCEL (15 R279, R291; 17 R337 to R349; 18 R351, R352). -/
namespace Sys2Proof.Proofs
open Sys2Proof.Machine Sys2Proof.Safety Sys2Proof.Claims

/-! Completion (18 R351, R352). -/

theorem qFail_eq (h : Mach) (q i : Nat) : h.qFail q i =
    if h.qFailure q = none then (if h.qGet q 40 8 = 2 ^ 64 - 1 then h.qPut q 40 8 i else h).qSetFlag q 2 true else h.logQueue q := by
  unfold Mach.qFail Mach.qChange
  cases h.qFailure q <;> rfl
/-- The completed machine of the claims is the model's. -/
theorem completeLaunch_eq_completed (m : Mach) (l : Launch) : completeLaunch m l = completed m l := by
  unfold completeLaunch completed
  dsimp only
  rw [qFail_eq]
/-- A launch that is released is gone. -/
theorem launch?_releaseHeld (m : Mach) (l : Launch) : (releaseHeld m l).launch? l.lid = none := by
  refine List.find?_eq_none.2 fun x hx => ?_
  have hf := (List.mem_filter.1 hx).2
  simpa using hf
theorem completed_gone (m : Mach) (l : Launch) : (completed m l).launch? l.lid = none ∧ (completed m l).root l.domain = {} := by
  constructor
  · refine (launch?_congr ?_ _).trans (launch?_releaseHeld (recordDone m l) l)
    have hr := StoreOnly.raiseHorizon (releaseHeld (recordDone m l) l) (lidQueue l.lid)
    rw [← completeLaunch_eq_completed]
    show (if l.phase = .failing then (raiseHorizon _ _).qFail _ _ else raiseHorizon _ _).launches = _
    split
    · exact (hr.trans (.qFail _ _ _)).launches
    · exact hr.launches
  · exact root_setRoot_same _ _ _

/-- LAUNCH_COMPLETION of a quiet domain in which nothing waits and nothing is left. -/
theorem completion_quiet {m : Mach} {lid : Word} {l : Launch} (hl : m.launch? lid = some l) (hq : (m.root l.domain).quiet = true)
    (hw : (m.root l.domain).waiter = none) (hg : (m.root l.domain).granted = none) (he : (m.root l.domain).excess = false)
    (hn : workLeft m l = false) : completion m lid = completed m l := by
  unfold completion
  rw [hl, ← completeLaunch_eq_completed]
  exact if_pos (by simp [hq, hw, hg, he, hn])
theorem completion_notQuiet {m : Mach} {lid : Word} {l : Launch} (hl : m.launch? lid = some l) (hq : (m.root l.domain).quiet = false) :
    completion m lid = m := by
  unfold completion
  rw [hl]
  exact if_neg (by simp [hq])

/-- The bytes that the model writes as a record are those of Table 05-4. -/
theorem recordBytes_eq_recordOf (w : Mach) (l : Launch) :
    leBytes 1 (if !decide (l.phase = .failing) then 1 else if l.cancelled then 3 else 2) ++
      leBytes 1 (if l.phase = .failing then l.failCause.toNat else 0) ++ leBytes 1 l.domain ++ leBytes 5 0 ++ leBytes 8 l.lid.toNat ++
      leBytes 8 (if l.phase = .failing then l.failCause.toNat + l.failCtxs * 256 + l.failCore.toNat * 2 ^ 24 else 0) ++
      leBytes 8 w.time.toNat = recordOf w l := by
  have byte : ∀ n : Nat, leBytes 1 n = [BitVec.ofNat 8 n] := fun _ => rfl
  have hz : leBytes 5 0 = [0, 0, 0, 0, 0] := rfl
  unfold recordOf
  rw [byte, byte, byte, hz]
  by_cases hf : l.phase = .failing
  · cases l.cancelled <;> simp [hf]
  · simp [hf]

section
variable (m : Mach) (l : Launch)

/-- The record of a completing launch, written where it has one (18 R351). -/
def recorded (w : Mach) : Mach :=
  if l.record.toNat = 0 ∨ l.record.toNat % 32 ≠ 0 then w else w.devStore (w.qHome (l.lid.toNat / 2 ^ 52)) l.record.toNat (recordOf w l)
theorem recordDone_eq : recordDone m l = if decide (l.phase = .failing) && (l.notify || l.failCause == 0x14) then
    (recorded l (finishWrites m l)).postNotice 2 l.failCause (l.failCore.toNat * 8) l.lid 0 0 else recorded l (finishWrites m l) := by
  unfold recordDone recorded writeRecord
  dsimp only
  rw [recordBytes_eq_recordOf]
theorem storeOnly_recorded (w : Mach) : StoreOnly w (recorded l w) := by
  unfold recorded
  split
  · exact .refl w
  · exact .devStore w _ _ _
theorem sameMem_recordDone : SameMem (recorded l (finishWrites m l)) (recordDone m l) := by
  rw [recordDone_eq]
  split <;> rfl
theorem notices_recordDone : (recordDone m l).notices = (finishWrites m l).notices ++
    (if l.phase = .failing ∧ (l.notify = true ∨ l.failCause = 0x14) then
      [⟨2, l.failCause, l.failCore.toNat * 8, l.lid, 0, 0, (finishWrites m l).time, (finishWrites m l).deviceNo⟩] else []) := by
  have hs := storeOnly_recorded l (finishWrites m l)
  rw [recordDone_eq]
  by_cases h : l.phase = .failing ∧ (l.notify = true ∨ l.failCause = 0x14)
  · rw [if_pos h, if_pos (by simpa using h), Mach.postNotice, hs.notices, hs.time, hs.deviceNo]
  · rw [if_neg h, if_neg (by simpa using h), hs.notices, List.append_nil]
end

/-- The least of a list and a first value. -/
theorem foldl_min_spec (l : List Nat) (a : Nat) :
    l.foldl min a ≤ a ∧ (∀ x ∈ l, l.foldl min a ≤ x) ∧ (l.foldl min a = a ∨ l.foldl min a ∈ l) := by
  induction l generalizing a with
  | nil => exact ⟨le_rfl, nofun, .inl rfl⟩
  | cons x l ih =>
    obtain ⟨h1, h2, h3⟩ := ih (min a x)
    simp only [List.foldl_cons, List.mem_cons]
    refine ⟨by omega, ?_, ?_⟩
    · rintro y (rfl | hy)
      · omega
      · exact h2 y hy
    obtain h3 | h3 := h3
    · omega
    · exact .inr (.inr h3)
theorem raiseHorizon_unreadable {m : Mach} {q : Nat} (h : m.qFailure q ≠ none) : raiseHorizon m q = m.logQueue q :=
  if_pos (Option.isSome_iff_ne_none.2 h)
/-- The horizon is the lesser of the read index and the indices of the queue's live launches (05 R85). -/
theorem raiseHorizon_least {m : Mach} {q : Nat} (h : m.qFailure q = none) :
    ∃ k, raiseHorizon m q = m.qPut q 32 8 k ∧ k ≤ m.qGet q 24 8 ∧ (∀ l ∈ m.launches, lidQueue l.lid = q → k ≤ lidIndex l.lid) ∧
      (k = m.qGet q 24 8 ∨ ∃ l ∈ m.launches, lidQueue l.lid = q ∧ k = lidIndex l.lid) := by
  obtain ⟨h1, h2, h3⟩ := foldl_min_spec ((m.launches.filter fun l => lidQueue l.lid == q).map fun l => lidIndex l.lid) (m.qGet q 24 8)
  refine ⟨_, if_neg (by simp [h]), h1, fun l hl hq => h2 _ ?_, h3.imp id fun hm => ?_⟩
  · exact List.mem_map.2 ⟨l, List.mem_filter.2 ⟨hl, by simpa using hq⟩, rfl⟩
  · obtain ⟨l, hl, e⟩ := List.mem_map.1 hm
    obtain ⟨hl, hq⟩ := List.mem_filter.1 hl
    exact ⟨l, hl, by simpa using hq, e.symm⟩

/-! Failure (17 R337). -/

/-- What a part of a launch's failure leaves alone: every context's life, handler entry and events, and that a launch stands. -/
structure Calm (m n : Mach) : Prop where
  life : ∀ cx, (n.ctx cx).life = (m.ctx cx).life
  entry : ∀ cx, (n.ctx cx).entry = (m.ctx cx).entry
  events : ∀ cx, (n.ctx cx).events = (m.ctx cx).events
  launch : ∀ lid, (n.launch? lid).isSome = (m.launch? lid).isSome
namespace Calm
theorem of_eq {m n : Mach} (hc : n.ctxs = m.ctxs) (hl : n.launches = m.launches) : Calm m n := by
  have h : ∀ cx, n.ctx cx = m.ctx cx := fun cx => by rw [Mach.ctx, hc, Mach.ctx]
  exact ⟨fun cx => by rw [h], fun cx => by rw [h], fun cx => by rw [h], fun lid => by rw [launch?_congr hl]⟩
theorem refl (m : Mach) : Calm m m := of_eq rfl rfl
theorem trans {a b c : Mach} (h : Calm a b) (k : Calm b c) : Calm a c :=
  ⟨fun cx => (k.life cx).trans (h.life cx), fun cx => (k.entry cx).trans (h.entry cx), fun cx => (k.events cx).trans (h.events cx),
    fun lid => (k.launch lid).trans (h.launch lid)⟩
theorem foldl {α : Type} {f : Mach → α → Mach} (hf : ∀ n x, Calm n (f n x)) (xs : List α) (m : Mach) : Calm m (xs.foldl f m) :=
  foldl_keeps (Calm m) f (fun _ x hn => hn.trans (hf _ x)) xs m (refl m)
theorem store {m n : Mach} (h : StoreOnly m n) : Calm m n := of_eq h.ctxs h.launches
theorem modCtx (m : Mach) (cx : Nat) {f : Ctx → Ctx} (hl : ∀ c, (f c).life = c.life) (he : ∀ c, (f c).entry = c.entry)
    (hv : ∀ c, (f c).events = c.events) : Calm m (m.modCtx cx f) := by
  refine ⟨fun j => ?_, fun j => ?_, fun j => ?_, fun _ => rfl⟩
  all_goals
    by_cases h : cx = j
    · subst h
      simp [hl, he, hv]
    · rw [ctx_modCtx_ne _ _ h]
theorem modLaunch (m : Mach) (lid : Word) {f : Launch → Launch} (hf : ∀ x, (f x).lid = x.lid) : Calm m (m.modLaunch lid f) :=
  ⟨fun _ => rfl, fun _ => rfl, fun _ => rfl, fun k => by rw [launch?_modLaunch m lid k hf, Option.isSome_map]⟩
theorem returnWeight (m : Mach) (r : RootRef) (w : Word) : Calm m (m.returnWeight r w) := by
  rw [returnWeight_frame]
  exact of_eq rfl rfl
theorem returnAll (m : Mach) (r : RootRef) (ws : List Word) : Calm m (m.returnAll r ws) := foldl (fun n w => returnWeight n r w) ws m
theorem setTokenDone (m : Mach) (cx kd uid : Nat) : Calm m (m.modCtx cx fun c => setTokenDone c kd uid) := by
  refine modCtx m cx ?_ ?_ ?_
  all_goals
    intro c
    unfold Machine.setTokenDone
    split <;> rfl
theorem discardOps (m : Mach) (cx : Nat) : Calm m (discardOps m cx) := by
  unfold Machine.discardOps
  exact (show Calm m (m.modCore _ _) from of_eq rfl rfl).trans
    (foldl (fun (n : Mach) (o : EOp) => (setTokenDone n cx o.kd o.uid).trans (returnAll _ _ _)) _ _)
theorem drainLaunchWork (m : Mach) (l : Launch) : Calm m (drainLaunchWork m l) := by
  unfold Machine.drainLaunchWork
  refine Calm.trans (Calm.trans (foldl (fun n t => returnWeight n _ _) _ _) (foldl (fun n w => returnWeight n _ w) _ _)) (modLaunch _ _ ?_)
  exact fun _ => rfl
theorem clearShadow (m : Mach) (cx : Nat) (blk : Word) : Calm m (clearShadow m cx blk) :=
  store (.devStore m _ _ _)
theorem returnShadow (m : Mach) (cx : Nat) (l : Launch) (blk : Word) (r : RootRef) (n : Nat) : Calm m (returnShadow m cx l blk r n) := by
  unfold Machine.returnShadow
  have hf : ∀ k f, Calm k (k.logDev (dieOf (coreOf cx)) (some f)) := fun k f => store (.logDev k _ _)
  have h1 : ∀ k : Mach, Calm k ((k.devFailure blk.toNat 64 false).elim k fun f => k.logDev (dieOf (coreOf cx)) (some f)) := by
    intro k
    cases k.devFailure blk.toNat 64 false with
    | none => exact refl k
    | some f => exact hf k f
  refine (h1 m).trans ?_
  dsimp only
  split
  · exact ((foldl hf _ _).trans (returnAll _ _ _)).trans (clearShadow _ cx blk)
  · exact refl _
theorem dropSaved (m : Mach) (l : Launch) : Calm m (dropSaved m l) := by
  unfold Machine.dropSaved
  refine Calm.trans (foldl (fun n x => ?_) _ _) (modLaunch _ _ ?_)
  · split
    · exact refl n
    · exact (returnShadow n _ l _ _ _).trans (returnWeight _ _ _)
  · exact fun _ => rfl
theorem withdrawSends (m : Mach) (l : Launch) : Calm m (withdrawSends m l) := by
  unfold Machine.withdrawSends
  refine Calm.trans (Calm.trans (foldl (fun n k => foldl (fun n x => returnWeight n _ _) _ n) _ m)
    (foldl (fun n k => foldl (fun n x => ?_) _ n) _ _)) (of_eq rfl rfl)
  split
  · exact setTokenDone n x.cx _ _
  · exact refl n
theorem wakeWaiter (m : Mach) (dom : Nat) (ok : Bool) : Calm m (wakeWaiter m dom ok) := by
  unfold Machine.wakeWaiter
  dsimp only
  cases (m.root dom).waiter with
  | none => exact refl m
  | some cx =>
    dsimp only
    split
    · exact (show Calm m (m.setRoot dom _) from of_eq rfl rfl).trans (modCtx _ _ (fun _ => rfl) (fun _ => rfl) fun _ => rfl)
    · exact of_eq rfl rfl
end Calm

/-- A context gets an event before all others, a pending PREEMPT withdrawn, unless it is on its way out already. -/
def warn (e : CtxEvent) (c : Ctx) : Ctx := if c.entry = some .leave then c else { c with events := e :: c.events.filter (· != .preempt) }
theorem life_warn (e : CtxEvent) (c : Ctx) : (warn e c).life = c.life := by
  unfold warn
  split <;> rfl
theorem entry_warn (e : CtxEvent) (c : Ctx) : (warn e c).entry = c.entry := by
  unfold warn
  split <;> rfl
theorem mem_events_warn {e : CtxEvent} {c : Ctx} (h : e ∈ c.events ∨ c.entry ≠ some .leave) : e ∈ (warn e c).events := by
  unfold warn
  split
  · exact h.resolve_right (not_not.2 ‹_›)
  · exact List.mem_cons_self
/-- What a failure does to one context (R337): its unstarted operations go, its subscriptions stop, and it gets the event. -/
def failCtx (l : Launch) (why : FailBy) (but : Option Nat) (m : Mach) (cx : Nat) : Mach :=
  let m := discardOps m cx
  let m := if (m.ctx cx).subs.isEmpty then m else m.modCtx cx fun c => { c with subs := c.subs.map fun s => { s with stopped := true } }
  if some cx = but || (m.ctx cx).released then m
  else m.modCtx cx (warn (why.event l))
/-- The machine in which the launch's contexts have their event, and what follows (R337). -/
def failedFrom (m : Mach) (l : Launch) (why : FailBy) (core : Nat) : Mach :=
  let m := wakeWaiter (dropSaved (drainLaunchWork (withdrawSends m l) l) l) l.domain false
  match why with
  | .watchdog => m.postNotice 4 0x14 (core * 8) l.lid 0 (BitVec.ofNat 64 l.interval)
  | _ => m
/-- The root of a launch as its failure leaves it, and its queue frozen. -/
def failRoot (m : Mach) (l : Launch) (why : FailBy) : Mach :=
  let r := m.root l.domain
  let r := if r.granted.isSome then { r.add wholeWeight with granted := none } else r
  (m.setRoot l.domain { r with failed := true, cause := if r.failed then r.cause else why.cause }).qSetFlag (lidQueue l.lid) 2 true
/-- A launch as its failure leaves it. -/
def failedLaunch (why : FailBy) (core : Nat) (now : Word) (l : Launch) : Launch :=
  { l with phase := .failing, failCause := why.cause, failCore := BitVec.ofNat 8 core, failCtxs := if why.ofContext then 1 else 0,
           cancelled := why == .host, deferred := [], lastReturn := now }
theorem failLaunch_eq {m : Mach} {lid : Word} {l : Launch} (hl : m.launch? lid = some l) (hp : l.phase ≠ .failing) (why : FailBy) (core : Nat)
    (but : Option Nat) : ∃ now, failLaunch m lid why core but =
      (failedFrom (l.allCtxs.foldl (failCtx l why but) (failRoot m l why)) l why core).modLaunch lid (failedLaunch why core now) := by
  have hid := lid_of_launch? hl
  subst hid
  unfold failLaunch
  rw [hl]
  dsimp only
  rw [if_neg hp]
  exact ⟨_, rfl⟩

theorem calm_failRoot (m : Mach) (l : Launch) (why : FailBy) : Calm m (failRoot m l why) :=
  (show Calm m (m.setRoot _ _) from .of_eq rfl rfl).trans (.store (.qSetFlag _ _ _ _))
theorem calm_failedFrom (m : Mach) (l : Launch) (why : FailBy) (core : Nat) : Calm m (failedFrom m l why core) := by
  have h := (((Calm.withdrawSends m l).trans (.drainLaunchWork _ l)).trans (.dropSaved _ l)).trans (.wakeWaiter _ l.domain false)
  cases why with
  | watchdog => exact h.trans (.of_eq rfl rfl)
  | fault | domain | host => exact h

/-- What the failure of a context leaves of every context, the event apart: its life and entry, and an event that it has already. -/
structure Warned (e : CtxEvent) (m n : Mach) : Prop where
  life : ∀ cx, (n.ctx cx).life = (m.ctx cx).life
  entry : ∀ cx, (n.ctx cx).entry = (m.ctx cx).entry
  events : ∀ cx, e ∈ (m.ctx cx).events → e ∈ (n.ctx cx).events
  launch : ∀ lid, (n.launch? lid).isSome = (m.launch? lid).isSome
theorem Calm.warned {m n : Mach} (h : Calm m n) (e : CtxEvent) : Warned e m n := ⟨h.life, h.entry, fun cx he => by rwa [h.events], h.launch⟩
theorem Warned.trans {e : CtxEvent} {a b c : Mach} (h : Warned e a b) (k : Warned e b c) : Warned e a c :=
  ⟨fun cx => (k.life cx).trans (h.life cx), fun cx => (k.entry cx).trans (h.entry cx), fun cx he => k.events cx (h.events cx he),
    fun lid => (k.launch lid).trans (h.launch lid)⟩
theorem Warned.give (e : CtxEvent) (m : Mach) (cx : Nat) : Warned e m (m.modCtx cx (warn e)) := by
  refine ⟨fun j => ?_, fun j => ?_, fun j he => ?_, fun _ => rfl⟩
  all_goals by_cases h : cx = j
  · rw [← h, ctx_modCtx_same, life_warn]
  · rw [ctx_modCtx_ne _ _ h]
  · rw [← h, ctx_modCtx_same, entry_warn]
  · rw [ctx_modCtx_ne _ _ h]
  · subst h
    rw [ctx_modCtx_same]
    exact mem_events_warn (.inl he)
  · rwa [ctx_modCtx_ne _ _ h]

/-- The failure of one context, which gets the event if it runs and is not on its way out. -/
theorem warned_failCtx (l : Launch) (why : FailBy) (m : Mach) (cx : Nat) :
    Warned (why.event l) m (failCtx l why none m cx) ∧
      ((m.ctx cx).life = .running → (m.ctx cx).entry ≠ some .leave → why.event l ∈ ((failCtx l why none m cx).ctx cx).events) := by
  obtain ⟨n, hn, he⟩ : ∃ n, Calm m n ∧ failCtx l why none m cx = if (n.ctx cx).released then n
      else n.modCtx cx (warn (why.event l)) := by
    refine ⟨if ((discardOps m cx).ctx cx).subs.isEmpty then discardOps m cx else
      (discardOps m cx).modCtx cx fun c => { c with subs := c.subs.map fun s => { s with stopped := true } }, (Calm.discardOps m cx).trans ?_, ?_⟩
    · split
      · exact .refl _
      · exact .modCtx _ _ (fun _ => rfl) (fun _ => rfl) fun _ => rfl
    · simp [failCtx]
  rw [he]
  split
  · refine ⟨hn.warned _, fun hr => ?_⟩
    have hrel : (n.ctx cx).released = true := ‹_›
    rw [Ctx.released, hn.life, hr] at hrel
    cases hrel
  · refine ⟨(hn.warned _).trans (.give _ n cx), fun _ hl => ?_⟩
    rw [ctx_modCtx_same]
    exact mem_events_warn (.inr (by rwa [hn.entry]))
theorem warned_foldl_failCtx (l : Launch) (why : FailBy) (cxs : List Nat) (m : Mach) :
    Warned (why.event l) m (cxs.foldl (failCtx l why none) m) ∧
      ∀ cx ∈ cxs, (m.ctx cx).life = .running → (m.ctx cx).entry ≠ some .leave →
        why.event l ∈ ((cxs.foldl (failCtx l why none) m).ctx cx).events := by
  induction cxs generalizing m with
  | nil => exact ⟨(Calm.refl m).warned _, nofun⟩
  | cons c cs ih =>
    obtain ⟨hw, hc⟩ := warned_failCtx l why m c
    obtain ⟨hws, hcs⟩ := ih (failCtx l why none m c)
    refine ⟨hw.trans hws, fun cx hm hr he => ?_⟩
    obtain rfl | hm := List.mem_cons.1 hm
    · exact hws.events _ (hc hr he)
    · exact hcs cx hm (by rwa [hw.life]) (by rwa [hw.entry])

/-- A launch that fails: it stands as failing, and each of its running contexts that is not on its way out has the event (R337, R338). -/
theorem failLaunch_rule {m : Mach} {lid : Word} {l : Launch} (hl : m.launch? lid = some l) (hp : l.phase ≠ .failing) (why : FailBy) (core : Nat) :
    (∃ x now, (failLaunch m lid why core none).launch? lid = some (failedLaunch why core now x)) ∧
      ∀ cx ∈ l.allCtxs, (m.ctx cx).life = .running → (m.ctx cx).entry ≠ some .leave →
        why.event l ∈ ((failLaunch m lid why core none).ctx cx).events := by
  obtain ⟨now, he⟩ := failLaunch_eq hl hp why core none
  have hroot := calm_failRoot m l why
  obtain ⟨hw, hc⟩ := warned_foldl_failCtx l why l.allCtxs (failRoot m l why)
  have hfrom := calm_failedFrom (l.allCtxs.foldl (failCtx l why none) (failRoot m l why)) l why core
  rw [he]
  constructor
  · have hs : ((failedFrom (l.allCtxs.foldl (failCtx l why none) (failRoot m l why)) l why core).launch? lid).isSome = true := by
      rw [hfrom.launch, hw.launch, hroot.launch, hl]
      rfl
    obtain ⟨x, hx⟩ := Option.isSome_iff_exists.1 hs
    exact ⟨x, now, launch?_modLaunch_same (fun _ => rfl) hx⟩
  · intro cx hm hr hn
    rw [ctx_modLaunch, hfrom.events]
    exact hc cx hm (by rwa [hroot.life]) (by rwa [hroot.entry])

theorem failureInterval_over {m : Mach} {lid : Word} {l : Launch} (hl : m.launch? lid = some l) (hp : l.phase = .failing)
    (hf : ∀ cx ∈ l.allCtxs, (m.ctx cx).life = .free) (hw : workLeft m l = false) (ht : l.interval ≤ (m.time - l.lastReturn).toNat) :
    failureInterval m lid = completed m l := by
  have hn : noneLive m l = true := List.all_eq_true.2 fun cx hcx => by simpa using hf cx hcx
  unfold failureInterval
  rw [hl, ← completeLaunch_eq_completed]
  exact if_pos (by simp [hp, hn, hw, ht, -BitVec.toNat_sub])
theorem failureInterval_early {m : Mach} {lid : Word} {l : Launch} (hl : m.launch? lid = some l) (ht : (m.time - l.lastReturn).toNat < l.interval) :
    failureInterval m lid = m := by
  unfold failureInterval
  rw [hl]
  exact if_neg (by simp [ht, -BitVec.toNat_sub])

/-- A released context is at rest in its seat (R138, R337). -/
theorem releaseCtx_rest (m : Mach) (cx : Nat) (swap : Bool) : ((releaseCtx m cx swap).ctx cx).released = true ∧
    ((releaseCtx m cx swap).ctx cx).qw = 0 ∧ ((releaseCtx m cx swap).ctx cx).out = [] := by
  obtain ⟨n, left, he⟩ : ∃ (n : Mach) (left : Bool),
      releaseCtx m cx swap = n.modCtx cx fun c => { c.freed with life := if left then .leaving else .free } := ⟨_, _, rfl⟩
  rw [he, ctx_modCtx_same]
  cases left <;> exact ⟨rfl, rfl, rfl⟩
section
variable {m : Mach} {cx : Nat} {since : Word} {l : Launch} (ha : (m.ctx cx).leaveAt = some since) (hl : m.launchOf cx = some l)
include ha hl

theorem forcedRelease_due (hr : (m.ctx cx).released = false) (ht : l.interval ≤ (m.time - since).toNat) : forcedRelease m cx = releaseCtx m cx false := by
  unfold forcedRelease
  rw [ha, hl]
  exact if_pos (by simp [hr, ht, -BitVec.toNat_sub])
theorem forcedRelease_early (ht : (m.time - since).toNat < l.interval) : forcedRelease m cx = m := by
  unfold forcedRelease
  rw [ha, hl]
  exact if_neg (by simp [ht, -BitVec.toNat_sub])
end

/-! The watchdog and CANCEL (17 R338, R346 to R349). -/

section
variable {m : Mach} {lid : Word} {l : Launch} (hl : m.launch? lid = some l) (hp : l.phase = .running) (ht : l.tickAt.toNat ≤ m.time.toNat)
include hl hp ht

theorem watchdogTick_due : watchdogTick m lid =
    let ended := 1 + (m.time - l.tickAt).toNat / max 1 l.interval
    let quietTicks := if l.active then 0 else l.idleTicks + ended
    if !l.active && (l.stalledAll || (!l.kernel.persistent && 16 ≤ quietTicks) || l.nothing) then failLaunch m lid .watchdog 0 none
    else m.modLaunch lid fun l => { l with
      tickAt := l.tickAt + BitVec.ofNat 64 (ended * max 1 l.interval), active := false, stalledAll := true, nothing := true, idleTicks := quietTicks } := by
  unfold watchdogTick
  rw [hl]
  exact if_neg (by simp [hp, ht])
theorem watchdogTick_active (ha : l.active = true) : watchdogTick m lid = m.modLaunch lid fun x => { x with
    tickAt := x.tickAt + BitVec.ofNat 64 ((1 + (m.time - l.tickAt).toNat / max 1 l.interval) * max 1 x.interval), active := false,
    stalledAll := true, nothing := true, idleTicks := 0 } := by
  rw [watchdogTick_due hl hp ht]
  simp only [ha, Bool.not_true, Bool.false_and, Bool.false_eq_true, if_false, if_true]
theorem watchdogTick_stalled (ha : l.active = false) (hs : l.stalledAll = true) : watchdogTick m lid = failLaunch m lid .watchdog 0 none := by
  rw [watchdogTick_due hl hp ht]
  simp only [ha, hs, Bool.not_false, Bool.true_or, Bool.and_true, if_true]
end

/-- CANCEL of a launch that has not failed (R338; 18 Table 18-4). -/
theorem cancel_asked {s : State} {lid : Word} {l : Launch} (ha : Asked s 5 lid) (hl : s.m.launch? lid = some l) (hp : l.phase ≠ .failing) :
    exec (.cancelLaunch lid) s = .next (put s (reqDone (failLaunch s.m lid .host 0 none) 0)) := by
  obtain ⟨hb, harg⟩ := ha
  have hc : cancel s.m lid = reqDone (failLaunch s.m lid .host 0 none) 0 := by
    unfold cancel
    rw [hl]
    dsimp only
    rw [if_neg hp]
  have hr : onRequest 5 lid s.m (fun m => cancel m lid) = cancel s.m lid := if_pos (by simp [hb, harg])
  exact congrArg (fun m => Host.Outcome.next (put s m)) (hr.trans hc)
/-- A request that has ended with result 0 (18 R358). -/
theorem mgmtAt_reqDone_zero (m : Mach) : (reqDone m 0).mgmtAt 0x078 = 0 := by
  simp [reqDone, Mach.setMgmt, Mach.mgmtAt, mget?_mset_same]

/-- Settles O53: completion and failure end in the same release; the watchdog and CANCEL fail a launch by one rule. -/
theorem launchEnds : Obligations.LaunchEnds := by
  refine ⟨?_, ?_, ?_, ?_, ?_, ?_, ?_, ?_, ?_, ?_⟩
  · intro s lid l hl hq hw hg he hn
    have hid := lid_of_launch? hl
    refine ⟨congrArg (fun m => Host.Outcome.next (put s m)) (completion_quiet hl hq hw hg he hn), ?_⟩
    rw [← hid]
    exact completed_gone s.m l
  · intro m l w d
    refine ⟨fun h => ?_, fun h0 h32 => ?_, notices_recordDone m l⟩
    · have hr : recorded l w = w := if_pos (h.imp (fun h => by simp [h]) id)
      have hs := sameMem_recordDone m l
      rw [show recorded l (finishWrites m l) = w from hr] at hs
      exact ⟨hs.mem, hs.hostMem⟩
    · have hr : recorded l w = w.devStore (w.qHome (l.lid.toNat / 2 ^ 52)) l.record.toNat (recordOf w l) :=
        if_neg (by simpa [h32] using fun h => h0 (BitVec.eq_of_toNat_eq h))
      have hs := sameMem_recordDone m l
      rw [show recorded l (finishWrites m l) = _ from hr] at hs
      have hd := (SameMem.devWrite_devStore w _ l.record.toNat (recordOf w l)).trans hs
      exact ⟨hd.mem, hd.hostMem⟩
  · intro m q h
    exact raiseHorizon_unreadable h
  · intro m q h
    exact raiseHorizon_least h
  · intro s lid l hl hq
    exact congrArg (fun m => Host.Outcome.next (put s m)) (completion_notQuiet hl hq)
  · intro s lid l hl hp
    refine ⟨fun hf hw ht => ⟨?_, ?_⟩, fun ht => ?_⟩
    · exact congrArg (fun m => Host.Outcome.next (put s m)) (failureInterval_over hl hp hf hw ht)
    · rw [← lid_of_launch? hl]
      exact completed_gone s.m l
    · exact congrArg (fun m => Host.Outcome.next (put s m)) (failureInterval_early hl ht)
  · intro s cx since l ha hl hr
    refine ⟨fun ht => ⟨put s (releaseCtx s.m cx false), ?_, releaseCtx_rest s.m cx false⟩, fun ht => ?_⟩
    · exact congrArg (fun m => Host.Outcome.next (put s m)) (forcedRelease_due ha hl hr ht)
    · exact congrArg (fun m => Host.Outcome.next (put s m)) (forcedRelease_early ha hl ht)
  · intro s lid l hl hp ht ha
    exact congrArg (fun m => Host.Outcome.next (put s m)) (watchdogTick_active hl hp ht ha)
  · intro s lid l hl hp ht ha hs
    obtain ⟨⟨x, now, hx⟩, hev⟩ := failLaunch_rule hl (by simp [hp]) .watchdog 0
    refine ⟨put s (failLaunch s.m lid .watchdog 0 none), _, ?_, hx, rfl, rfl, hev⟩
    exact congrArg (fun m => Host.Outcome.next (put s m)) (watchdogTick_stalled hl hp ht ha hs)
  · intro s lid l ha hl hp
    obtain ⟨⟨x, now, hx⟩, hev⟩ := failLaunch_rule hl hp .host 0
    exact ⟨_, _, cancel_asked ha hl hp, hx, rfl, rfl, mgmtAt_reqDone_zero _, hev⟩

end Sys2Proof.Proofs
end

section
/-! SUPPORT. The word of a slot instruction decodes to it (06 R103, R107 to R115): the fields of a word are those it was made of, then
one line per format of 06 Tables 06-4 to 06-11. -/
namespace Sys2Proof.Proofs

/-- The fields of a G word are those it was made of (06 R111). -/
theorem gFields_gWord (op : BitVec 8) (g : GSlot) : gFields (gWord op g) = (op, g) := by
  have h : ∀ i n, (gWord op g).extractLsb' i n = BitVec.extractLsb' i n
      (op ++ g.sd ++ g.sa ++ g.sb ++ g.hint ++ g.stride ++ g.disp) := fun _ _ => rfl
  simp [gFields, h, BitVec.extractLsb'_append_eq_of_le, BitVec.extractLsb'_append_eq_right, -Nat.reduceAdd]

/-- Widening an X word to the decoder's 64 bits and cutting it back leaves it. -/
theorem setWidth_setWidth_32 (w : BitVec 32) : (w.setWidth 64).setWidth 32 = w := by simp

/-- The fields of an XR word are those it was made of (06 R110). -/
theorem xFields_xr (op : BitVec 8) (sd sa sb fn : BitVec 6) : xFields (((xr op sd sa sb fn).setWidth 64).setWidth 32) = ⟨op, sd, sa, sb, fn⟩ := by
  have h : ∀ i n, (xr op sd sa sb fn).extractLsb' i n = BitVec.extractLsb' i n (op ++ sd ++ sa ++ sb ++ fn) := fun _ _ => rfl
  rw [setWidth_setWidth_32]
  simp [xFields, h, BitVec.extractLsb'_append_eq_of_le, BitVec.extractLsb'_append_eq_right, -Nat.reduceAdd]

/-! The immediates of formats XI, XL and XB straddle the borders of the shared fields (06 Table 06-4). -/

theorem xFields_xi (op : BitVec 8) (sd sa : BitVec 6) (imm : BitVec 12) :
    xFields (((xi op sd sa imm).setWidth 64).setWidth 32) = ⟨op, sd, sa, imm.extractLsb' 6 6, imm.extractLsb' 0 6⟩ := by
  have h : ∀ i n, (xi op sd sa imm).extractLsb' i n = BitVec.extractLsb' i n (op ++ sd ++ sa ++ imm) := fun _ _ => rfl
  rw [setWidth_setWidth_32]
  simp [xFields, h, BitVec.extractLsb'_append_eq_of_le, BitVec.extractLsb'_append_eq_of_add_le, -Nat.reduceAdd]
theorem xFields_xl (op : BitVec 8) (sd : BitVec 6) (imm : BitVec 18) :
    xFields (((xl op sd imm).setWidth 64).setWidth 32) = ⟨op, sd, imm.extractLsb' 12 6, imm.extractLsb' 6 6, imm.extractLsb' 0 6⟩ := by
  have h : ∀ i n, (xl op sd imm).extractLsb' i n = BitVec.extractLsb' i n (op ++ sd ++ imm) := fun _ _ => rfl
  rw [setWidth_setWidth_32]
  simp [xFields, h, BitVec.extractLsb'_append_eq_of_le, BitVec.extractLsb'_append_eq_of_add_le, -Nat.reduceAdd]

theorem sdField_xb (op : BitVec 8) (p : BitVec 3) (s : Bool) (d : BitVec 20) :
    BitVec.extractLsb' 18 6 (op ++ p ++ BitVec.ofBool s ++ d) = p ++ BitVec.ofBool s ++ d.extractLsb' 18 2 := by
  refine BitVec.eq_of_getLsbD_eq fun i hi => ?_
  have hcases : i < 2 ∨ i = 2 ∨ 2 < i := by omega
  simp only [BitVec.getLsbD_extractLsb', BitVec.getLsbD_append, hi, decide_true, Bool.true_and]
  rcases hcases with hi | hi | hi
  · simp only [hi, show 18 + i < 20 by omega, if_true, decide_true, Bool.true_and]
  · subst hi; rfl
  · simp only [show ¬ i < 2 by omega, show ¬ 18 + i < 20 by omega, show ¬ i - 2 < 1 by omega, show ¬ 18 + i - 20 < 1 by omega, if_false,
      show i - 2 - 1 < 3 by omega, show 18 + i - 20 - 1 = i - 2 - 1 by omega, if_true]
theorem xFields_xb (op : BitVec 8) (p : BitVec 3) (s : Bool) (d : BitVec 20) :
    xFields (((xb op p s d).setWidth 64).setWidth 32) =
      ⟨op, p ++ BitVec.ofBool s ++ d.extractLsb' 18 2, d.extractLsb' 12 6, d.extractLsb' 6 6, d.extractLsb' 0 6⟩ := by
  have h : ∀ i n, (xb op p s d).extractLsb' i n = BitVec.extractLsb' i n (op ++ p ++ BitVec.ofBool s ++ d) := fun _ _ => rfl
  rw [setWidth_setWidth_32]
  simp only [xFields, h, sdField_xb]
  simp [BitVec.extractLsb'_append_eq_of_le, BitVec.extractLsb'_append_eq_of_add_le, -Nat.reduceAdd]
/-! Put together, the sixes of an immediate are the immediate. -/

theorem sixes12 (imm : BitVec 12) : imm.extractLsb' 6 6 ++ imm.extractLsb' 0 6 = imm :=
  (BitVec.extractLsb'_append_extractLsb'_eq_extractLsb' (by decide : 6 = 0 + 6)).trans BitVec.extractLsb'_eq_self
theorem sixes18 (imm : BitVec 18) : imm.extractLsb' 12 6 ++ imm.extractLsb' 6 6 ++ imm.extractLsb' 0 6 = imm := by
  rw [BitVec.extractLsb'_append_extractLsb'_eq_extractLsb' (by decide : 12 = 6 + 6)]
  exact (BitVec.extractLsb'_append_extractLsb'_eq_extractLsb' (by decide : 6 = 0 + 6)).trans BitVec.extractLsb'_eq_self
theorem sixes20 (d : BitVec 20) : d.extractLsb' 18 2 ++ d.extractLsb' 12 6 ++ d.extractLsb' 6 6 ++ d.extractLsb' 0 6 = d := by
  rw [BitVec.extractLsb'_append_extractLsb'_eq_extractLsb' (by decide : 18 = 12 + 6),
    BitVec.extractLsb'_append_extractLsb'_eq_extractLsb' (by decide : 12 = 6 + 6)]
  exact (BitVec.extractLsb'_append_extractLsb'_eq_extractLsb' (by decide : 6 = 0 + 6)).trans BitVec.extractLsb'_eq_self
theorem imm12_of_parts (op : BitVec 8) (sd sa : BitVec 6) (imm : BitVec 12) :
    XFields.imm12 ⟨op, sd, sa, imm.extractLsb' 6 6, imm.extractLsb' 0 6⟩ = imm := sixes12 imm
theorem imm18_of_parts (op : BitVec 8) (sd : BitVec 6) (imm : BitVec 18) :
    XFields.imm18 ⟨op, sd, imm.extractLsb' 12 6, imm.extractLsb' 6 6, imm.extractLsb' 0 6⟩ = imm := sixes18 imm
theorem disp20_of_parts (op : BitVec 8) (p : BitVec 3) (s : Bool) (d : BitVec 20) :
    XFields.disp20 ⟨op, p ++ BitVec.ofBool s ++ d.extractLsb' 18 2, d.extractLsb' 12 6, d.extractLsb' 6 6, d.extractLsb' 0 6⟩ = d := by
  show (p ++ BitVec.ofBool s ++ d.extractLsb' 18 2).extractLsb' 0 2 ++ d.extractLsb' 12 6 ++ d.extractLsb' 6 6 ++ d.extractLsb' 0 6 = d
  rw [BitVec.extractLsb'_append_eq_right]
  exact sixes20 d
theorem bp_of_parts (op : BitVec 8) (p : BitVec 3) (s : Bool) (d : BitVec 2) (a b c : BitVec 6) :
    XFields.bp ⟨op, p ++ BitVec.ofBool s ++ d, a, b, c⟩ = p := by
  show (p ++ BitVec.ofBool s ++ d).extractLsb' 3 3 = p
  rw [BitVec.extractLsb'_append_eq_of_le (by omega)]
  exact BitVec.extractLsb'_append_eq_left
theorem bsense_of_parts (op : BitVec 8) (p : BitVec 3) (s : Bool) (d : BitVec 2) (a b c : BitVec 6) :
    XFields.bsense ⟨op, p ++ BitVec.ofBool s ++ d, a, b, c⟩ = s := by
  show (p ++ BitVec.ofBool s ++ d).getLsbD 2 = s
  simp only [BitVec.getLsbD_append]
  simp
/-! Narrow registers in a 6-bit field (06 R107). -/

theorem lo3_setWidth (p : BitVec 3) : lo3 (p.setWidth 6) = p := by revert p; decide
theorem lo4_setWidth (p : BitVec 4) : lo4 (p.setWidth 6) = p := by revert p; decide
theorem lo5_setWidth (p : BitVec 5) : lo5 (p.setWidth 6) = p := by revert p; decide
theorem predField_setWidth (p : BitVec 3) : predField (p.setWidth 6) = true := by revert p; decide

theorem toNat_setWidth6 {b : Nat} (hb : b ≤ 6) (x : BitVec b) : (x.setWidth 6).toNat = x.toNat := by
  rw [BitVec.toNat_setWidth, Nat.mod_eq_of_lt]
  exact Nat.lt_of_lt_of_le x.isLt (Nat.pow_le_pow_right (by decide) hb)

theorem setWidth_toNat_lt {n : Nat} (hn : n ≤ 6) (x : BitVec n) : (x.setWidth 6).toNat < 2 ^ n :=
  (toNat_setWidth6 hn x).symm ▸ x.isLt
theorem sd_lt_four (d : BitVec 2) : ((0 : BitVec 3) ++ BitVec.ofBool false ++ d).toNat < 4 := by
  revert d; decide

theorem tok_lt (x : BitVec 5) : (x.setWidth 6).toNat < 32 := setWidth_toNat_lt (by decide) x
theorem bobbin_lt (x : BitVec 4) : (x.setWidth 6).toNat < 16 := setWidth_toNat_lt (by decide) x
/-- The flags of a TGET in its `fn` field. -/
theorem tgetFlags (high resolve : Bool) :
    let fn : BitVec 6 := (BitVec.ofBool resolve ++ BitVec.ofBool high).setWidth 6
    fn.toNat < 4 ∧ fn.getLsbD 0 = high ∧ fn.getLsbD 1 = resolve := by
  revert high resolve
  decide
/-- The mask and the assert bit of a TCHK in its `fn` field. -/
theorem tchkFlags (mask : BitVec 4) (assert : Bool) :
    let fn : BitVec 6 := (BitVec.ofBool assert ++ mask).setWidth 6
    fn.toNat < 32 ∧ lo4 fn = mask ∧ fn.getLsbD 4 = assert := by
  revert mask assert
  decide
/-- The index and the frame bit of a TEXT in its `fn` field. -/
theorem textFlags (k : BitVec 2) (frame : Bool) :
    let fn : BitVec 6 := (BitVec.ofBool frame ++ k).setWidth 6
    fn.toNat < 8 ∧ fn.extractLsb' 0 2 = k ∧ fn.getLsbD 2 = frame := by
  revert k frame
  decide
theorem mask16_setWidth (m : BitVec 16) : (m.setWidth 18).toNat < 65536 ∧ (m.setWidth 18).extractLsb' 0 16 = m := by
  constructor
  · rw [BitVec.toNat_setWidth]
    omega
  · rw [BitVec.extractLsb'_setWidth_of_le (by decide)]
    exact BitVec.extractLsb'_eq_self

/-- What `decodeSlot` reads before it checks the rules that need the whole instruction. -/
def slotFields (k : Slot) (w : BitVec 64) : Except EncFault Instr :=
  match k with
  | .x => xOfFields (xFields (w.setWidth 32))
  | .g => gOfFields (gFields w).1 (gFields w).2
  | .v0 => if chainCodesKnown (vFields w).2 then vOfFields .p0 (vFields w).1 (vFields w).2 else .error .illegalOp
  | .v1 => if chainCodesKnown (vFields w).2 then vOfFields .p1 (vFields w).1 (vFields w).2 else .error .illegalOp
  | .m => mOfFields (mFields w).1 (mFields w).2
  | .c => cOfFields (cFields w).1 (cFields w).2

theorem decodeSlot_eq_checked (k : Slot) (w : BitVec 64) : decodeSlot k w = checked (slotFields k w) := by
  cases k
  case v0 | v1 =>
    simp only [decodeSlot, slotFields]
    split <;> rfl
  all_goals rfl

theorem checked_ok {i : Instr} (hw : wellFormed i = true) : checked (.ok i) = .ok i := if_pos hw

/-- The word of `i`, when it has one, fits its slot, and decodes to `i` but for the rules that need the whole instruction. -/
def DecodesBack (i : Instr) : Prop := ∀ x, encode i = some x → slotFields x.1 x.2 = .ok i ∧ x.2.toNat < 256 ^ x.1.bytes

theorem DecodesBack.of {i : Instr} {k : Slot} {w : BitVec 64} (he : encode i = some (k, w)) (hs : slotFields k w = .ok i)
    (hfit : w.toNat < 256 ^ k.bytes) : DecodesBack i :=
  fun _ hx => Option.some.inj (he.symm.trans hx) ▸ ⟨hs, hfit⟩

/-- An X word takes its slot's four bytes (06 R110). -/
theorem xWord_fits (v : BitVec 32) : (v.setWidth 64).toNat < 256 ^ Slot.x.bytes := by
  rw [BitVec.toNat_setWidth_of_le (by decide)]
  exact v.isLt

theorem DecodesBack.event {i : Instr} (he : encode i = none) : DecodesBack i :=
  fun _ hx => nomatch he.symm.trans hx

/-! One rule per format (06 R110 to R113). -/

theorem DecodesBack.xr {i : Instr} {op : BitVec 8} {sd sa sb fn : BitVec 6} (he : encode i = some (.x, (xr op sd sa sb fn).setWidth 64))
    (h : xOfFields ⟨op, sd, sa, sb, fn⟩ = .ok i) : DecodesBack i :=
  .of he (by simp only [slotFields, xFields_xr]; exact h) (xWord_fits _)

theorem DecodesBack.xi {i : Instr} {op : BitVec 8} {sd sa : BitVec 6} {imm : BitVec 12} (he : encode i = some (.x, (xi op sd sa imm).setWidth 64))
    (h : xOfFields ⟨op, sd, sa, imm.extractLsb' 6 6, imm.extractLsb' 0 6⟩ = .ok i) : DecodesBack i :=
  .of he (by simp only [slotFields, xFields_xi]; exact h) (xWord_fits _)

theorem DecodesBack.xl {i : Instr} {op : BitVec 8} {sd : BitVec 6} {imm : BitVec 18} (he : encode i = some (.x, (xl op sd imm).setWidth 64))
    (h : xOfFields ⟨op, sd, imm.extractLsb' 12 6, imm.extractLsb' 6 6, imm.extractLsb' 0 6⟩ = .ok i) : DecodesBack i :=
  .of he (by simp only [slotFields, xFields_xl]; exact h) (xWord_fits _)

theorem DecodesBack.g {i : Instr} {op : BitVec 8} {g : GSlot} (he : encode i = some (.g, gWord op g)) (h : gOfFields op g = .ok i) : DecodesBack i :=
  .of he (by simp only [slotFields, gFields_gWord]; exact h) (BitVec.isLt _)
theorem DecodesBack.v {i : Instr} {p : Pipe} {op : BitVec 6} {v : VSlot} (he : encode i = some (p.slot, vWord op v))
    (hc : chainCodesKnown v = true) (h : vOfFields p op v = .ok i) : DecodesBack i :=
  .of he (by cases p <;> simp only [Pipe.slot, slotFields, vFields_vWord, if_pos hc] <;> exact h) (by cases p <;> exact BitVec.isLt _)
theorem DecodesBack.m {i : Instr} {op : BitVec 6} {m : MSlot} (he : encode i = some (.m, mWord op m)) (h : mOfFields op m = .ok i) : DecodesBack i :=
  .of he (by simp only [slotFields, mFields_mWord]; exact h) (BitVec.isLt _)
theorem DecodesBack.c {i : Instr} {op : BitVec 6} {c : CSlot} (he : encode i = some (.c, cWord op c)) (h : cOfFields op c = .ok i) : DecodesBack i :=
  .of he (by simp only [slotFields, cFields_cWord]; exact h) (BitVec.isLt _)

theorem DecodesBack.xb {i : Instr} {op : BitVec 8} {p : BitVec 3} {sense : Bool} {d : BitVec 20}
    (he : encode i = some (.x, (xb op p sense d).setWidth 64))
    (h : xOfFields ⟨op, p ++ BitVec.ofBool sense ++ d.extractLsb' 18 2, d.extractLsb' 12 6, d.extractLsb' 6 6, d.extractLsb' 0 6⟩ = .ok i) :
    DecodesBack i :=
  .of he (by simp only [slotFields, xFields_xb]; exact h) (xWord_fits _)

/-! What the whole-instruction rules say of the fields that choose an instruction. -/

theorem sd_zero_of_onlyUses {g : GSlot} {sa sb hint stride disp : Bool}
    (h : g.onlyUses false sa sb hint stride disp = true) : (g.sd == 0) = true := by
  simp only [GSlot.onlyUses, Bool.false_or, Bool.and_assoc] at h
  exact (Bool.and_eq_true_iff.mp h).1

theorem left_of_and_and {a b c : Bool} (h : (a && b && c) = true) : a = true :=
  (Bool.and_eq_true_iff.mp (Bool.and_eq_true_iff.mp h).1).1

theorem subscrPush_sd {g : GSlot} (h : wellFormed (.subscrPush g) = true) : g.sd.toNat < 16 :=
  of_decide_eq_true (left_of_and_and (a := decide _) (b := g.stride == 0) (c := decide (0 < g.disp.toInt)) h)
theorem subscrPull_sd {g : GSlot} (h : wellFormed (.subscrPull g) = true) : 16 ≤ g.sd.toNat :=
  of_decide_eq_true (Bool.and_eq_true_iff.mp (left_of_and_and (a := decide (16 ≤ g.sd.toNat) && decide (g.sd.toNat < 32))
    (b := g.stride == 0) (c := decide (0 < g.disp.toInt)) h)).1

theorem chainCodesKnown_of_wfChain {v : VSlot} {tri : Bool} (h : v.wfChain tri = true) : chainCodesKnown v = true := by
  simp only [VSlot.wfChain, Bool.and_assoc] at h
  obtain ⟨h2, h⟩ := Bool.and_eq_true_iff.mp h
  exact Bool.and_eq_true_iff.mpr ⟨h2, (Bool.and_eq_true_iff.mp h).1⟩
theorem chainCodesKnown_of_wfFixed {v : VSlot} {ta tb sx : Bool} (h : v.wfFixed ta tb sx = true) : chainCodesKnown v = true := by
  simp only [VSlot.wfFixed, VSlot.noChain, Bool.and_assoc] at h
  obtain ⟨h2, h⟩ := Bool.and_eq_true_iff.mp h
  have h3 := (Bool.and_eq_true_iff.mp h).1
  simp only [chainCodesKnown, eq_of_beq h2, eq_of_beq h3]
  decide
theorem chainCodesKnown_of_wfUn {v : VSlot} (h : v.wfUn = true) : chainCodesKnown v = true :=
  chainCodesKnown_of_wfChain (Bool.and_eq_true_iff.mp h).1

/-- An accepted instruction, from its zero fields and its operands apart. -/
theorem okIf_of {b : Bool} {i j : Instr} (hb : b = true) (hi : i = j) : okIf b i = .ok j := by
  subst hb hi
  rfl

/-- Every word of the tables decodes back: one line per format, and one for each opcode whose fields choose among instructions. -/
theorem decodesBack (i : Instr) (hw : wellFormed i = true) : DecodesBack i := by
  cases i
  case add | sub | and | or | xor | shl | shr | sra | mul | mulh | mulhu | div | divu | rem | remu | min | max | minu | maxu | clz
      | ctz | popc | fadd | fsub | fmul | fdiv | fmin | fmax | ftoi | itof | fexp2 | flog2 | ret | jmpr | endTask | ctxr | ctxw |
      eqreplay =>
    exact .xr rfl rfl
  case ld8 | ld8u | ld16 | ld16u | ld32 | ld32u | ld64 | st8 | st16 | st32 | st64 | ldp | aadd | aand | aor | axor | amin | amax |
      aminu | amaxu | aswap | acas | afadd | fence | drain | acq | rel | pref | prefw | pin | unpin | wback | binit | barrive |
      bexpect | bwait | btest | setf | sete | testf | qsplit | qjoin | qwait | qread | spawn | subcan | slotdone | rseed | rnext |
      escal | lrec | lcommit =>
    exact .g rfl rfl
  case vadd | vsub | vmul | vmin | vmax | vscale | vfma | vclamp | vsel => exact .v rfl (chainCodesKnown_of_wfChain hw) rfl
  case vabs | vneg | vrcp | vrsq | vsqrt | vexp2 | vlog2 | vtanh | vsigm => exact .v rfl (chainCodesKnown_of_wfUn hw) rfl
  case vand | vor | vxor | vshl | vshr | vcmp | vbcast | viota | vmask | vmov | vcvt | vcvtq | vcvts | vreshape | vtrans | vcast | vrsum
      | vrmax | vrmin | vrargmax | vrdraw | vrlse | vscan | vdmerge | vcompact | vperm | vroute | vhist =>
    exact .v rfl (chainCodesKnown_of_wfFixed hw) rfl
  case mma | mmaz | mabsd | mmaxp | mminp | mrank | mrankc | msparse | mbload => exact .m rfl rfl
  case tload | tstore | tloads | tstores | cpin | cpout | gather | scatter | preft | send | recv | recvadd | recvdraw | mcast |
      amsg | ttset | ttfire | ctload =>
    exact .c rfl rfl
  case cmpeq | cmpne | cmplt | cmpltu | cmple | cmpleu | fcmplt | fcmpeq | pand | por | pxor | pnot | pmov =>
    refine .xr rfl (okIf_of ?_ ?_)
    · simp [predField_setWidth]
    · simp [lo3_setWidth]
  case sel | lea =>
    refine .xr rfl (okIf_of ?_ ?_)
    · exact decide_eq_true (setWidth_toNat_lt (by decide) _)
    · simp [lo3_setWidth]
  case addi | andi | ori | xori | shli | shri | srai | muli | bdnz => exact .xi rfl (okIf_of rfl (by rw [imm12_of_parts]))
  case cmpeqi | cmplti => exact .xi rfl (okIf_of (predField_setWidth _) (by rw [imm12_of_parts, lo3_setWidth]))
  case li | lih | trap | bkpt | sysr | sysw => exact .xl rfl (okIf_of rfl (by rw [imm18_of_parts]))
  case br | call => exact .xb rfl (okIf_of (decide_eq_true (sd_lt_four _)) (by rw [disp20_of_parts]))
  case brc => exact .xb rfl (okIf_of rfl (by rw [bp_of_parts, bsense_of_parts, disp20_of_parts]))
  case waitk | tdecls | bind | bget | tclear =>
    refine .xr rfl (okIf_of ?_ ?_)
    · simp only [tok_lt, bobbin_lt, decide_true, BEq.rfl, Bool.and_true]
    · simp only [lo4_setWidth, lo5_setWidth]
  case tdecl => exact .xl rfl (okIf_of (decide_eq_true (setWidth_toNat_lt (by decide) _)) (by rw [imm18_of_parts, lo5_setWidth]))
  case tget t high resolve =>
    obtain ⟨hlt, hhigh, hresolve⟩ := tgetFlags high resolve
    refine .xr rfl (okIf_of ?_ ?_)
    · simp only [tok_lt, hlt, decide_true, BEq.rfl, Bool.and_true]
    · simp only [lo5_setWidth, hhigh, hresolve]
  case tchk t sb mask assert =>
    obtain ⟨hlt, hmask, hassert⟩ := tchkFlags mask assert
    refine .xr rfl (okIf_of ?_ ?_)
    · simp only [predField_setWidth, tok_lt, hlt, decide_true, Bool.and_true]
    · simp only [lo3_setWidth, lo5_setWidth, hmask, hassert]
  case text t k frame =>
    obtain ⟨hlt, hk, hframe⟩ := textFlags k frame
    refine .xr rfl (okIf_of ?_ ?_)
    · simp only [tok_lt, hlt, decide_true, BEq.rfl, Bool.and_true]
    · simp only [lo5_setWidth, hk, hframe]
  case unbind mask =>
    obtain ⟨hlt, hmask⟩ := mask16_setWidth mask
    refine .xl rfl (okIf_of ?_ ?_)
    · simp only [imm18_of_parts, hlt, decide_true, BEq.rfl, Bool.and_true]
    · simp only [imm18_of_parts, hmask]
  case nop | idleF | idleN | tret | tretSkip => exact .xr rfl rfl
  case gNop => exact .g rfl rfl
  case vNop => exact .v rfl rfl rfl
  case mNop => exact .m rfl rfl
  case cNop => exact .c rfl rfl
  case invlAll g | qretQw g =>
    have hsd : (g.sd == 1) = true := (Bool.and_eq_true_iff.mp hw).1
    exact .g rfl (congrArg Except.ok (if_pos hsd))
  case invl g | qret g =>
    have hsd : (g.sd == 0) = true := sd_zero_of_onlyUses hw
    exact .g rfl (congrArg Except.ok (if_neg (by rw [eq_of_beq hsd]; decide)))
  case subscrPush g =>
    have hsd : g.sd.toNat < 16 := subscrPush_sd hw
    exact .g rfl (congrArg Except.ok (if_neg (by omega)))
  case subscrPull g =>
    have hsd : 16 ≤ g.sd.toNat := subscrPull_sd hw
    exact .g rfl (congrArg Except.ok (if_pos hsd))
  -- What is left is an event, which has no word.
  all_goals exact .event rfl

/-- A well-formed instruction's word decodes to it (06 R103). -/
theorem decodeSlot_encode {i : Instr} {k : Slot} {w : BitVec 64} (hw : wellFormed i = true) (he : encode i = some (k, w)) :
    decodeSlot k w = .ok i := by
  rw [decodeSlot_eq_checked, (decodesBack i hw (k, w) he).1, checked_ok hw]
/-- A slot instruction's word fits its slot's bytes (06 R98). -/
theorem encode_fits {i : Instr} {k : Slot} {w : BitVec 64} (hw : wellFormed i = true) (he : encode i = some (k, w)) :
    w.toNat < 256 ^ k.bytes :=
  (decodesBack i hw (k, w) he).2

end Sys2Proof.Proofs
end

section
/-! SUPPORT. The fetch of a bundle of one slot, and the turn that runs it (05 R93; 06 R98, R100, R101; 12 R223). -/
namespace Sys2Proof.Proofs
open Sys2Proof.Machine Sys2Proof.Safety Sys2Proof.Claims

/-! The bytes of a number. -/
theorem length_leBytes (n v : Nat) : (leBytes n v).length = n := by
  induction n generalizing v with
  | zero => rfl
  | succ n ih => exact congrArg Nat.succ (ih _)
theorem leNat_leBytes (n v : Nat) : leNat (leBytes n v) = v % 256 ^ n := by
  induction n generalizing v with
  | zero => exact (Nat.mod_one v).symm
  | succ n ih => rw [leBytes, leNat, ih, BitVec.toNat_ofNat, (Nat.pow_succ' : 256 ^ (n + 1) = 256 * 256 ^ n), Nat.mod_mul]

/-! Code that the instruction cache holds. -/
theorem codeLine_hit {m : Mach} {cx lo hi pc line : Nat} {l : List Byte} (h : mget? (m.core (coreOf cx)).icache line = some l) :
    codeLine m cx lo hi pc line = .ok (m, l) := by
  simp only [codeLine, h]

/-- What a held line has at the place of a byte. -/
theorem codeHeld_byte {m : Mach} {cx j line : Nat} {bs l : List Byte} (h : CodeHeld m cx bs) (hj : j < bs.length)
    (hl : mget? (m.core (coreOf cx)).icache line = some l) (hline : ((m.ctx cx).pc.toNat + j) / 128 = line) :
    l.length = 128 ∧ l[((m.ctx cx).pc.toNat + j) % 128]? = bs[j]? := by
  obtain ⟨l', hl', hlen, hb⟩ := h j hj
  obtain rfl : l' = l := Option.some.inj (hl'.symm.trans (hline ▸ hl))
  exact ⟨hlen, hb⟩

theorem take_drop_congr {α : Type} {xs ys : List α} {a b c : Nat} (h : ∀ j, j < c → xs[a + j]? = ys[b + j]?) :
    (xs.drop a).take c = (ys.drop b).take c := by
  refine List.ext_getElem? fun j => ?_
  simp only [List.getElem?_take, List.getElem?_drop]
  exact ite_congr rfl (h j) fun _ => rfl

/-- A stretch of the held bytes is read from the one or two lines it lies in. -/
theorem codeBytes_held {m : Mach} {cx : Nat} {bs : List Byte} (h : CodeHeld m cx bs) (a c pc : Nat) (hc : 0 < c) (hc2 : c ≤ 128)
    (hlen : a + c ≤ bs.length) :
    codeBytes m cx ((m.ctx cx).pc.toNat + a) ((m.ctx cx).pc.toNat + a + c) pc = .ok (m, (bs.drop a).take c) := by
  obtain ⟨l1, hl1, hlen1, -⟩ := h a (by omega)
  obtain ⟨l2, hl2, -, -⟩ := h (a + c - 1) (by omega)
  have hlast : (m.ctx cx).pc.toNat + (a + c - 1) = (m.ctx cx).pc.toNat + a + c - 1 := by omega
  have hcount : (m.ctx cx).pc.toNat + a + c - ((m.ctx cx).pc.toNat + a) = c := by omega
  rw [hlast] at hl2
  have hbyte1 := fun j hj => codeHeld_byte (j := j) h hj hl1
  have hbyte2 := fun j hj => codeHeld_byte (j := j) h hj hl2
  generalize (m.ctx cx).pc.toNat = p at *
  by_cases hone : (p + a) / 128 = (p + a + c - 1) / 128
  · have hcut : (l1.drop ((p + a) % 128)).take c = (bs.drop a).take c := take_drop_congr fun j hj => by
      rw [← (hbyte1 (a + j) (by omega) (by omega)).2, show (p + a) % 128 + j = (p + (a + j)) % 128 by omega]
    simp only [codeBytes, codeLine_hit hl1, if_pos hone, hcount, ← hcut]
    rfl
  · have hcut : ((l1 ++ l2).drop ((p + a) % 128)).take c = (bs.drop a).take c := take_drop_congr fun j hj => by
      by_cases hfirst : (p + (a + j)) / 128 = (p + a) / 128
      · rw [← (hbyte1 (a + j) (by omega) hfirst).2, List.getElem?_append_left (by omega),
          show (p + a) % 128 + j = (p + (a + j)) % 128 by omega]
      · rw [← (hbyte2 (a + j) (by omega) (by omega)).2, List.getElem?_append_right (by omega), hlen1,
          show (p + a) % 128 + j - 128 = (p + (a + j)) % 128 by omega]
    simp only [codeBytes, bind, Except.bind, codeLine_hit hl1, codeLine_hit hl2, if_neg hone, hcount, ← hcut]

/-! The slots of a header that names one. -/
theorem slotsOf_one (k : Slot) : slotsOf (BitVec.ofNat 6 (2 ^ k.bit)) = [k] := by cases k <;> decide
theorem pres_one (k j : Slot) : (BitVec.ofNat 6 (2 ^ k.bit)).getLsbD j.bit = decide (j = k) := by cases k <;> cases j <;> decide

theorem bundleLength_of_headerOf {hw : BitVec 32} {k : Slot} (h : headerOf hw k) : bundleLength (decodeHeader hw) = 4 + k.bytes := by
  obtain ⟨-, -, hpres⟩ := h
  rw [bundleLength, hpres, slotsOf_one]
  rfl

theorem slotAt_one {hw : BitVec 32} {k : Slot} {w : BitVec 64} {i : Instr} (h : headerOf hw k) (hd : decodeSlot k w = .ok i) (c : Ctx) (j : Slot) :
    slotAt c (decodeHeader hw) [(k, w)] j = if j = k then some (.ok ⟨k, w, i, 0, false⟩) else none := by
  obtain ⟨-, hrep, hpres⟩ := h
  have hbit : ∀ b, (0 : BitVec 6).getLsbD b = false := fun b => BitVec.getLsbD_zero
  simp only [slotAt, hrep, hpres, pres_one, hbit]
  by_cases hj : j = k
  · subst hj
    simp [hd]
  · simp [hj]

theorem checkBundle_one {hw : BitVec 32} {k : Slot} {w : BitVec 64} {i : Instr}
    (h : headerOf hw k) (hd : decodeSlot k w = .ok i) (c : Ctx) (n : Nat) :
    checkBundle c (decodeHeader hw) n [(k, w)] = .bundle (decodeHeader hw) n [⟨k, w, i, 0, false⟩] := by
  have hall : (allSlots.filterMap fun j => (slotAt c (decodeHeader hw) [(k, w)] j).map fun r => (j, r)) =
      [(k, .ok ⟨k, w, i, 0, false⟩)] := by
    simp only [slotAt_one h hd]
    cases k <;> rfl
  have hres : (decodeHeader hw).reserved = 0 := h.1
  simp only [checkBundle, hall]
  exact if_pos ⟨hres, rfl⟩

theorem slotWords_one (k : Slot) (w : BitVec 64) (hfit : w.toNat < 256 ^ k.bytes) : slotWords [k] (leBytes k.bytes w.toNat) = [(k, w)] := by
  have hword : BitVec.ofNat 64 (leNat (leBytes k.bytes w.toNat)) = w := by
    rw [leNat_leBytes, Nat.mod_eq_of_lt hfit, BitVec.ofNat_toNat, BitVec.setWidth_eq]
  rw [slotWords, slotWords, List.take_of_length_le (length_leBytes _ _).le, hword]

/-- The code map allows the bundle (06 R101). -/
theorem bodyFault_of_startMarked {m : Mach} {cx n : Nat} {l : Launch} (h : StartMarked m cx n l) : bodyFault m l (m.ctx cx).pc.toNat n = none := by
  obtain ⟨-, -, hbody, hend⟩ := h
  have hword : ∀ x ∈ (upFrom 1 (n / 4 - 1)).map fun i => (m.ctx cx).pc.toNat + 4 * i, codeBitErr m l x = false ∧ codeBit m l x = false := by
    intro x hx
    obtain ⟨i, hi, rfl⟩ := List.mem_map.mp hx
    obtain ⟨h1, h2⟩ := (mem_upFrom 1 (n / 4 - 1) i).mp hi
    exact hbody i h1 (by omega)
  have herr := List.any_eq_false.mpr fun x hx => Bool.eq_false_iff.mp (hword x hx).1
  have hbit := List.any_eq_false.mpr fun x hx => Bool.eq_false_iff.mp (hword x hx).2
  simp only [bodyFault, herr, hbit]
  exact if_neg (by omega)

/-- The fetch cuts the one slot's instruction from the bytes held at the pc (06 R98 to R101). -/
theorem fetchBundle_one {m : Mach} {cx : Nat} {l : Launch} {i : Instr} {k : Slot} {w : BitVec 64} {hw : BitVec 32}
    (hl : m.launchOf cx = some l) (hheld : (m.ctx cx).held = none) (hwf : wellFormed i = true) (he : encode i = some (k, w))
    (hh : headerOf hw k) (hcode : CodeHeld m cx (bundleBytes hw k w)) (hstart : StartMarked m cx (4 + k.bytes) l)
    (hguard : RegRef.p (decodeHeader hw).guard.toNat ∉ (m.ctx cx).pend) :
    fetchBundle m cx = (m, .bundle (decodeHeader hw) (4 + k.bytes) [⟨k, w, i, 0, false⟩]) := by
  have hlen : (bundleBytes hw k w).length = 4 + k.bytes := by simp [bundleBytes, length_leBytes]
  have hk : 0 < k.bytes ∧ k.bytes ≤ 8 := by cases k <;> decide
  have hhead : codeBytes m cx (m.ctx cx).pc.toNat ((m.ctx cx).pc.toNat + 4) (m.ctx cx).pc.toNat = .ok (m, leBytes 4 hw.toNat) := by
    have h := codeBytes_held hcode 0 4 (m.ctx cx).pc.toNat (by omega) (by omega) (by omega)
    rwa [List.drop_zero, bundleBytes, List.take_left' (length_leBytes _ _)] at h
  have hbody : codeBytes m cx ((m.ctx cx).pc.toNat + 4) ((m.ctx cx).pc.toNat + (4 + k.bytes)) (m.ctx cx).pc.toNat =
      .ok (m, leBytes k.bytes w.toNat) := by
    have h := codeBytes_held hcode 4 k.bytes (m.ctx cx).pc.toNat (by omega) (by omega) (by omega)
    rwa [bundleBytes, List.drop_left' (length_leBytes _ _), List.take_of_length_le (length_leBytes _ _).le, Nat.add_assoc] at h
  have hword : BitVec.ofNat 32 (leNat (leBytes 4 hw.toNat)) = hw := by
    rw [leNat_leBytes, Nat.mod_eq_of_lt (show hw.toNat < 256 ^ 4 from hw.isLt), BitVec.ofNat_toNat, BitVec.setWidth_eq]
  have hpend : (m.ctx cx).pend.contains (.p (decodeHeader hw).guard.toNat) = false := by simpa using hguard
  have hne : 4 + k.bytes ≠ 4 := by omega
  obtain ⟨hbe, hb, -, -⟩ := id hstart
  simp only [fetchBundle, hl, hheld, hbe, hb, hhead, hword, hpend, bundleLength_of_headerOf hh, if_neg hne, hbody, hh.2.2, slotsOf_one,
    slotWords_one k w (encode_fits hwf he), checkBundle_one hh (decodeSlot_encode hwf he), bodyFault_of_startMarked hstart, bodyChecked]
  rfl

/-- A line that the cache does not hold is filled with the bytes of memory (12 R223; log 84). -/
theorem codeLine_miss {m : Mach} {cx line pc : Nat} {e : TlbEnt} (lo hi : Nat) (hmiss : mget? (m.core (coreOf cx)).icache line = none)
    (ht : m.cached (coreOf cx) (max pc (line * 128)) = some e) (hp : permFault e .exec = none) (herrs : m.errs = [])
    (hva : max pc (line * 128) < globalTop) :
    ∃ u, codeLine m cx lo hi pc line = .ok (u, m.readLocs ((upFrom (line * 128) 128).map e.loc)) := by
  simp only [codeLine, hmiss, if_neg (Nat.not_le.mpr hva), ht, hp, herrs]
  exact ⟨_, rfl⟩

/-! The turn. -/

/-- A bundle of one slot is `exec` of its instruction on a fresh bundle. -/
theorem runBundle_one {s t : State} {cx len : Nat} {m' : Mach} {h : Header} {f : FSlot}
    (hf : fetchBundle (s.m.modCtx cx fun c => { c with blocked := false }) cx = (m', .bundle h len [f]))
    (he : exec f.instr ⟨m', freshIssue cx len ((m'.ctx cx).p h.guard == h.sense) h.yield f, s.agenda⟩ = .next t)
    (hb : (t.m.ctx cx).blocked = false) : runBundle s cx = (.next t, .issued) := by
  have hrun : runSlots [f] { s with m := m', issue := { cx := cx, len := len, guarded := (m'.ctx cx).p h.guard == h.sense, yield := h.yield } } =
      .next t := he
  simp only [runBundle, hf, hrun, hb]
  rfl

/-- A running context without an event runs its bundle when it may issue. -/
theorem tryCtx_running {s : State} {cx : Nat} (hlife : (s.m.ctx cx).life = .running) (hev : nextEvent (s.m.ctx cx) = none)
    (hissue : mayIssue s.m cx = true) : tryCtx s cx = runBundle s cx := by
  have hrel : (s.m.ctx cx).released = false := by rw [Ctx.released, hlife]; rfl
  simp only [tryCtx, hrel, hev, hlife, hissue]
  rfl

/-- A core whose first context takes the turn: the turn is that context's. -/
theorem coreTurn_first {s t : State} {k n : Nat} {turn : Turn} (hg : (s.m.core k).gated = false) (hr : (s.m.core k).inReset = false)
    (hfirst : (turnOrder (s.m.core k)).head? = some n) (ht : tryCtx s (8 * k + n) = (.next t, turn)) (hturn : turn ≠ .blocked) :
    coreTurn s k = .next { t with m := afterTurn t.m k n turn (othersReady s k n) } := by
  obtain ⟨ns, hns⟩ : ∃ ns, turnOrder (s.m.core k) = n :: ns := List.head?_eq_some_iff.mp hfirst
  simp only [coreTurn, hg, hr, hns, turns, ht]
  cases turn with
  | blocked => exact absurd rfl hturn
  | acted => rfl
  | issued => rfl

/-- A step whose next move is a ready core's turn. -/
theorem step_issue {s u : State} {rest : List Act} {k : Nat} (hag : s.agenda = .issue k :: rest) (hk : k < 160)
    (hready : (tick s.m).ready = true) (h : coreTurn { m := tick s.m, issue := s.issue, agenda := rest } k = .next u) :
    step s = .next { u with m := aftermath u.m } := by
  have hnext : nextAct s = (.issue k, { s with agenda := rest }) := by rw [nextAct, hag]
  simp only [step, hnext, moveOnce, perform, if_neg (Nat.not_le.mpr hk), if_pos hready, h]

/-- A core's turn runs the one slot of the bundle fetched for its first context. -/
theorem step_runs {s t : State} {rest : List Act} {k cx len : Nat} {m' : Mach} {h : Header} {f : FSlot} (hag : s.agenda = .issue k :: rest)
    (hturn : MayTurn (tick s.m) k cx)
    (hf : fetchBundle ((tick s.m).modCtx cx fun c => { c with blocked := false }) cx = (m', .bundle h len [f]))
    (he : exec f.instr ⟨m', freshIssue cx len ((m'.ctx cx).p h.guard == h.sense) h.yield f, rest⟩ = .next t)
    (hb : (t.m.ctx cx).blocked = false) :
    step s = .next { t with m := aftermath (afterTurn t.m k (cx % 8) .issued
      (othersReady { m := tick s.m, issue := s.issue, agenda := rest } k (cx % 8))) } := by
  obtain ⟨hready, hk, hg, hr, hfirst, hcore, hlife, hev, hissue⟩ := hturn
  have hcx : 8 * k + cx % 8 = cx := by rw [← hcore, coreOf]; exact Nat.div_add_mod cx 8
  have hrun : tryCtx { m := tick s.m, issue := s.issue, agenda := rest } (8 * k + cx % 8) = (.next t, .issued) := by
    rw [hcx]
    exact (tryCtx_running (s := { m := tick s.m, issue := s.issue, agenda := rest }) hlife hev hissue).trans (runBundle_one hf he hb)
  have hturn := coreTurn_first (s := { m := tick s.m, issue := s.issue, agenda := rest }) hg hr hfirst hrun (by decide)
  rw [step_issue hag hk hready hturn]

/-- Settles O45: the turn falls to the first context, whose bundle is `exec` of its one slot; the fetch reads the held bytes, checks the
map and decodes the word; a line that is not held is read from memory. -/
theorem stepRunsDecoded : Obligations.StepRunsDecoded :=
  ⟨fun _ _ _ _ _ _ _ _ _ => step_runs, fun _ _ _ _ _ _ _ => fetchBundle_one, fun _ _ lo hi _ _ _ => codeLine_miss lo hi⟩

end Sys2Proof.Proofs
end

section
/-! SUPPORT. A word that decodes is the word of its instruction (06 R98, R107 to R115): a word is made of its fields, and each row of
Tables 06-9 to 06-11 remakes them from the operands that the decoder cut out of them. -/
namespace Sys2Proof.Proofs
open Sys2Proof.Machine Sys2Proof.Safety Sys2Proof.Claims

/-! A word is made of its fields (06 R110 to R113). -/

theorem xr_xFields (w : BitVec 32) : xr (xFields w).op (xFields w).sd (xFields w).sa (xFields w).sb (xFields w).fn = w := by
  simp only [xr, xFields, BitVec.extractLsb'_append_extractLsb'_eq_extractLsb']
  exact BitVec.extractLsb'_eq_self
theorem gWord_gFields (w : BitVec 64) : gWord (gFields w).1 (gFields w).2 = w := by
  simp only [gWord, gFields, BitVec.extractLsb'_append_extractLsb'_eq_extractLsb']
  exact BitVec.extractLsb'_eq_self
theorem vWord_vFields (w : BitVec 64) : vWord (vFields w).1 (vFields w).2 = w := by
  simp only [vWord, vFields, BitVec.extractLsb'_append_extractLsb'_eq_extractLsb']
  exact BitVec.extractLsb'_eq_self
theorem mWord_mFields (w : BitVec 64) : mWord (mFields w).1 (mFields w).2 = w := by
  simp only [mWord, mFields, BitVec.extractLsb'_append_extractLsb'_eq_extractLsb']
  exact BitVec.extractLsb'_eq_self
theorem cWord_cFields (w : BitVec 64) : cWord (cFields w).1 (cFields w).2 = w := by
  simp only [cWord, cFields, BitVec.extractLsb'_append_extractLsb'_eq_extractLsb']
  exact BitVec.extractLsb'_eq_self

/-! The immediates cut from the shared X fields give those fields back (06 Table 06-4). -/

theorem eq_xr_of_xFields {v : BitVec 32} {f : XFields} (h : xFields ((v.setWidth 64).setWidth 32) = f) : v = xr f.op f.sd f.sa f.sb f.fn := by
  rw [← h, setWidth_setWidth_32, xr_xFields]
theorem xi_imm12 (op : BitVec 8) (sd sa : BitVec 6) (f : XFields) : xi op sd sa f.imm12 = xr op sd sa f.sb f.fn := by
  rw [eq_xr_of_xFields (xFields_xi op sd sa f.imm12)]
  simp only [XFields.imm12, BitVec.extractLsb'_append_eq_left, BitVec.extractLsb'_append_eq_right]
theorem xl_imm18 (op : BitVec 8) (sd : BitVec 6) (f : XFields) : xl op sd f.imm18 = xr op sd f.sa f.sb f.fn := by
  rw [eq_xr_of_xFields (xFields_xl op sd f.imm18)]
  simp [XFields.imm18, BitVec.extractLsb'_append_eq_of_le, BitVec.extractLsb'_append_eq_right, -Nat.reduceAdd]
theorem sd_of_cut (sd : BitVec 6) : sd.extractLsb' 3 3 ++ BitVec.ofBool (sd.getLsbD 2) ++ sd.extractLsb' 0 2 = sd := by
  revert sd
  decide
theorem xb_disp20 (op : BitVec 8) (f : XFields) : xb op f.bp f.bsense f.disp20 = xr op f.sd f.sa f.sb f.fn := by
  have hsd : f.disp20.extractLsb' 18 2 = f.sd.extractLsb' 0 2 := by
    simp [XFields.disp20, BitVec.extractLsb'_append_eq_of_le, -Nat.reduceAdd]
  rw [eq_xr_of_xFields (xFields_xb op f.bp f.bsense f.disp20), hsd, XFields.bp, XFields.bsense, sd_of_cut]
  simp [XFields.disp20, BitVec.extractLsb'_append_eq_of_le, BitVec.extractLsb'_append_eq_right, -Nat.reduceAdd]
/-- BR and CALL have neither a predicate nor a sense. -/
theorem xb_short (op : BitVec 8) {f : XFields} (h : f.sd.toNat < 4) : xb op 0#3 false f.disp20 = xr op f.sd f.sa f.sb f.fn := by
  have hcut : ∀ sd : BitVec 6, sd.toNat < 4 → sd.extractLsb' 3 3 = 0#3 ∧ sd.getLsbD 2 = false := by decide
  obtain ⟨hp, hs⟩ := hcut f.sd h
  rw [← xb_disp20, XFields.bp, XFields.bsense, hp, hs]

/-! A wide field whose upper bits are zero is its narrow operand, widened (06 R107). -/

theorem setWidth_lo3 {r : BitVec 6} (h : r.toNat < 8) : (lo3 r).setWidth 6 = r := by revert r; decide
theorem setWidth_lo4 {r : BitVec 6} (h : r.toNat < 16) : (lo4 r).setWidth 6 = r := by revert r; decide
theorem setWidth_lo5 {r : BitVec 6} (h : r.toNat < 32) : (lo5 r).setWidth 6 = r := by revert r; decide
theorem fn_of_tgetFlags {fn : BitVec 6} (h : fn.toNat < 4) : (BitVec.ofBool fn[1] ++ BitVec.ofBool fn[0]).setWidth 6 = fn := by
  revert fn
  decide
theorem fn_of_tchkFlags {fn : BitVec 6} (h : fn.toNat < 32) : (BitVec.ofBool fn[4] ++ lo4 fn).setWidth 6 = fn := by
  revert fn
  decide
theorem fn_of_textFlags {fn : BitVec 6} (h : fn.toNat < 8) : (BitVec.ofBool fn[2] ++ fn.extractLsb' 0 2).setWidth 6 = fn := by
  revert fn
  decide
theorem setWidth_mask16 {x : BitVec 18} (h : x.toNat < 65536) : (x.extractLsb' 0 16).setWidth 18 = x := by
  apply BitVec.eq_of_toNat_eq
  simp only [BitVec.toNat_setWidth, BitVec.extractLsb'_toNat, Nat.shiftRight_zero]
  omega

/-! The rows of the tables. -/

theorem eq_ofNat_toNat {n : Nat} (x : BitVec n) : x = BitVec.ofNat n x.toNat := by
  rw [BitVec.ofNat_toNat, BitVec.setWidth_eq]
theorem okIf_eq_ok {b : Bool} {i j : Instr} (h : okIf b j = .ok i) : b = true ∧ i = j := by
  cases b <;> cases h
  exact ⟨rfl, rfl⟩
/-- A row of the X table: where its zero fields are zero, the word of its instruction is the word that was cut. -/
theorem encode_of_okIf {b : Bool} {i j : Instr} {v w : BitVec 32} (h : okIf b j = .ok i) (he : encode j = some (.x, v.setWidth 64))
    (hw : b = true → v = w) : encode i = some (.x, w.setWidth 64) := by
  obtain ⟨hb, rfl⟩ := okIf_eq_ok h
  rw [he, hw hb]

/-- The X rows of 06 Table 06-9: IDLE and TRET choose their instruction by `fn`; every other row's word is remade by the cuts above. -/
theorem encode_of_xOfFields {f : XFields} {i : Instr} (h : xOfFields f = .ok i) :
    encode i = some (.x, (xr f.op f.sd f.sa f.sb f.fn).setWidth 64) := by
  rw [eq_ofNat_toNat f.op]
  unfold xOfFields at h
  generalize f.op.toNat = op at h ⊢
  split at h
  case h_71 => -- IDLE.F and IDLE.N
    split at h
    all_goals exact encode_of_okIf h rfl fun hb => by simp_all
  case h_74 => -- TRET and TRET.SKIP
    have hskip : ∀ fn : BitVec 6, fn.toNat < 2 → fn ≠ 0 → fn = 1 := by decide
    split at h
    all_goals exact encode_of_okIf h rfl fun hb => by simp_all
  case h_87 => cases h -- no such opcode
  all_goals
    refine encode_of_okIf h rfl fun hb => ?_
    simp_all [predField, setWidth_lo3, setWidth_lo4, setWidth_lo5, fn_of_tgetFlags, fn_of_tchkFlags, fn_of_textFlags, setWidth_mask16,
      xi_imm12, xl_imm18, xb_disp20, xb_short]

/-- The G rows of 06 Table 06-9: but for the NOP, the instruction keeps all the fields. -/
theorem encode_of_gOfFields {op : BitVec 8} {g : GSlot} {i : Instr} (h : gOfFields op g = .ok i) : encode i = some (.g, gWord op g) := by
  rw [eq_ofNat_toNat op]
  unfold gOfFields at h
  generalize op.toNat = n at h ⊢
  split at h
  case h_1 => -- NOP
    obtain ⟨hg, rfl⟩ := okIf_eq_ok h
    rw [eq_of_beq hg]
    rfl
  case h_54 | h_55 | h_56 => split at h <;> cases h <;> rfl -- INVL, QRET and SUBSCR, which sd tells from a second form
  all_goals cases h
  all_goals rfl
/-- The V rows of 06 Table 06-10. -/
theorem encode_of_vOfFields {p : Pipe} {op : BitVec 6} {v : VSlot} {i : Instr} (h : vOfFields p op v = .ok i) :
    encode i = some (p.slot, vWord op v) := by
  rw [eq_ofNat_toNat op]
  unfold vOfFields at h
  generalize op.toNat = n at h ⊢
  split at h
  case h_1 => -- NOP
    obtain ⟨hv, rfl⟩ := okIf_eq_ok h
    rw [eq_of_beq hv]
    rfl
  all_goals cases h
  all_goals rfl
/-- The M rows of 06 Table 06-11. -/
theorem encode_of_mOfFields {op : BitVec 6} {m : MSlot} {i : Instr} (h : mOfFields op m = .ok i) : encode i = some (.m, mWord op m) := by
  rw [eq_ofNat_toNat op]
  unfold mOfFields at h
  generalize op.toNat = n at h ⊢
  split at h
  case h_1 => -- NOP
    obtain ⟨hm, rfl⟩ := okIf_eq_ok h
    rw [eq_of_beq hm]
    rfl
  all_goals cases h
  all_goals rfl
/-- The C rows of 06 Table 06-11. -/
theorem encode_of_cOfFields {op : BitVec 6} {c : CSlot} {i : Instr} (h : cOfFields op c = .ok i) : encode i = some (.c, cWord op c) := by
  rw [eq_ofNat_toNat op]
  unfold cOfFields at h
  generalize op.toNat = n at h ⊢
  split at h
  case h_1 => -- NOP
    obtain ⟨hc, rfl⟩ := okIf_eq_ok h
    rw [eq_of_beq hc]
    rfl
  all_goals cases h
  all_goals rfl

/-! The slots. -/

theorem chained_eq_ok {p : Pipe} {w : BitVec 64} {i : Instr}
    (h : (if chainCodesKnown (vFields w).2 then vOfFields p (vFields w).1 (vFields w).2 else .error .illegalOp) = .ok i) :
    vOfFields p (vFields w).1 (vFields w).2 = .ok i := by
  split at h
  · exact h
  · cases h
/-- What the tables read from a word has that word. -/
theorem encode_of_slotFields {k : Slot} {w : BitVec 64} {i : Instr} (hfit : k = .x → w.toNat < 2 ^ 32) (h : slotFields k w = .ok i) :
    encode i = some (k, w) := by
  cases k with
  | x =>
    have hw : (w.setWidth 32).setWidth 64 = w := by
      apply BitVec.eq_of_toNat_eq
      have := hfit rfl
      simp only [BitVec.toNat_setWidth]
      omega
    rw [encode_of_xOfFields h, xr_xFields, hw]
  | g => rw [encode_of_gOfFields h, gWord_gFields]
  | v0 => rw [encode_of_vOfFields (p := .p0) (chained_eq_ok h), vWord_vFields, Pipe.slot]
  | v1 => rw [encode_of_vOfFields (p := .p1) (chained_eq_ok h), vWord_vFields, Pipe.slot]
  | m => rw [encode_of_mOfFields h, mWord_mFields]
  | c => rw [encode_of_cOfFields h, cWord_cFields]
theorem checked_eq_ok {r : Except EncFault Instr} {i : Instr} (h : checked r = .ok i) : r = .ok i ∧ wellFormed i = true := by
  cases r with
  | error e => cases h
  | ok j =>
    obtain ⟨hj, rfl⟩ := okIf_eq_ok h
    exact ⟨rfl, hj⟩
/-- A word that decodes is the one word of its instruction, which is well-formed (06 R107, R108). -/
theorem encode_of_decodeSlot {k : Slot} {w : BitVec 64} {i : Instr} (hfit : k = .x → w.toNat < 2 ^ 32) (h : decodeSlot k w = .ok i) :
    wellFormed i = true ∧ encode i = some (k, w) := by
  rw [decodeSlot_eq_checked] at h
  obtain ⟨hf, hi⟩ := checked_eq_ok h
  exact ⟨hi, encode_of_slotFields hfit hf⟩

/-- Settles O43: the tables read back each word they make, and remake each word they read. -/
theorem decodeOfEncode : Obligations.DecodeOfEncode :=
  ⟨fun _ _ _ => decodeSlot_encode, fun _ _ _ => encode_of_decodeSlot⟩

/-- The known words are those of their instructions, each well-formed. -/
theorem encode_of_mem_knownWords : ∀ x ∈ knownWords, wellFormed x.2.2 = true ∧ encode x.2.2 = some (x.1, x.2.1) := by decide

/-- Settles O44: each known word is the word of its instruction, so it decodes to it. -/
theorem knownWords : Obligations.KnownWords := by
  intro x hx
  obtain ⟨hw, he⟩ := encode_of_mem_knownWords x hx
  exact decodeSlot_encode hw he

end Sys2Proof.Proofs
end

section
/-! SUPPORT. Branches to illegal targets, and the NOPs (06 R102, R108; 07 R137, R147). -/
namespace Sys2Proof.Proofs
open Sys2Proof.Machine Sys2Proof.Safety Sys2Proof.Claims

/-- A displacement counts words of four bytes (07 R137). -/
theorem disp20_eq_jump20 (d : BitVec 20) : disp20 d = jump20 d := by
  rw [disp20, BitVec.shiftLeft_eq_mul_twoPow]
  rfl
theorem disp12_eq_jump12 (d : BitVec 12) : disp12 d = jump12 d := by
  rw [disp12, BitVec.shiftLeft_eq_mul_twoPow]
  rfl

/-- A scalar source that is not pending holds nothing back, whatever the slot. -/
theorem reads_sr_begun {s : State} (k : Slot) {r : SReg} (h : Free s (reg s r)) : reads [sr (begun k s) r] (begun k s) = begun k s :=
  reads_free _ _ (List.forall_mem_singleton.2 h)
/-- Nor does a predicate. -/
theorem reads_pref_begun {s : State} (k : Slot) {p : PReg} (h : Free s (pref p)) : reads [pref p] (begun k s) = begun k s :=
  reads_free _ _ (List.forall_mem_singleton.2 h)
/-- A scalar write over a fresh bundle changes the machine alone. -/
theorem wrS_begun {s : State} (k : Slot) {r : SReg} (lat : Nat) (v : Word) (h : Free s (reg s r)) :
    wrS r lat v (begun k s) = { begun k s with m := frozenIn s (reg s r).dest? lat v } :=
  frozenTo_begun k (reg s r) lat v fun _ hq => dest?_eq hq ▸ h

/-- Each case of the check of a target (06 R102; 12 R222, R223): the map bit in error or clear, and with `rep` the header in error or
its repeat mask set. -/
theorem targetFault_eq_some_iff {m : Mach} {l : Launch} {a : Word} {rep : Bool} {f : FaultRec} :
    targetFault m l a rep = some f ↔
      (codeBitErr m l a.toNat = true ∧ f = { cause := 0x0A, addr := a, info := 6 }) ∨
      (codeBitErr m l a.toNat = false ∧ codeBit m l a.toNat = false ∧ f = { cause := 0x03, addr := a, info := 0 }) ∨
      (codeBitErr m l a.toNat = false ∧ codeBit m l a.toNat = true ∧ rep = true ∧ m.devErr a.toNat 4 = true ∧
        f = { cause := 0x0A, addr := a, info := 6 }) ∨
      (codeBitErr m l a.toNat = false ∧ codeBit m l a.toNat = true ∧ rep = true ∧ m.devErr a.toNat 4 = false ∧
        (decodeHeader (BitVec.ofNat 32 (m.devNat a.toNat 4))).rep ≠ 0 ∧ f = { cause := 0x03, addr := a, info := 1 }) := by
  have herr : accFault 0x0A 6 false a.toNat = { cause := 0x0A, addr := a, info := 6 } := by
    rw [accFault, BitVec.ofNat_toNat, BitVec.setWidth_eq]
    rfl
  unfold targetFault
  rw [herr]
  generalize codeBitErr m l a.toNat = mapErr, codeBit m l a.toNat = mapBit, m.devErr a.toNat 4 = headErr,
    (decodeHeader (BitVec.ofNat 32 (m.devNat a.toNat 4))).rep = mask
  cases mapErr with
  | true => simp [@eq_comm _ f]
  | false =>
    cases mapBit with
    | false => simp [@eq_comm _ f]
    | true =>
      cases rep with
      | false => simp
      | true => cases headErr <;> simp [@eq_comm _ f]

section
variable {s g : State} {l : Launch} {a : Word} {rep : Bool} {f : FaultRec}

/-- A branch to an illegal target only faults, whatever its bundle has done to the machine. -/
theorem branchTo_illegal (hi : (me s).issued = false) (hl : myLaunch s = some l) (hf : targetFault s.m l a rep = some f)
    (hg : g.issue = (begun .x s).issue) : branchTo a rep g = faultAt .x f g := by
  have hpre : pre g = s.m := by rw [pre, hg]; rfl
  have hcx : g.issue.cx = s.issue.cx := by rw [hg]; rfl
  have hctx : preCtx g = me s := by rw [preCtx, hpre, hcx]; rfl
  have hlaunch : preLaunch g = some l := by rw [preLaunch, hpre, hcx]; exact hl
  simp [branchTo, hctx, hi, hlaunch, hpre, hf]
/-- A bundle of one X slot that takes a branch to an illegal target faults, whatever else it did to the machine (06 R102). -/
theorem runX_illegal (hs : Solo s) (hi : (me s).issued = false) (hl : myLaunch s = some l) (hf : targetFault s.m l a rep = some f)
    {i : Instr} {F : State → State} (hF : F (begun .x s) = branchTo a rep g) (hg : g.issue = (begun .x s).issue) (ha : g.agenda = s.agenda) :
    runX i F s = .next (trapped .x f s) := by
  rw [branchTo_illegal hi hl hf hg] at hF
  refine run_trapped hs .x i F f ?_ (by rw [hF]; exact ha)
  rw [hF, faultAt, hg, begun_issue hs]
  rfl

/-! The branches, one by one (07 R137). -/

variable (hs : Solo s) (hi : (me s).issued = false) (hl : myLaunch s = some l)
include hs hi hl

theorem br_illegal {d : BitVec 20} (hf : targetFault s.m l ((me s).pc + jump20 d) true = some f) :
    exec (.br d) s = .next (trapped .x f s) := by
  show execBr d s = _
  unfold execBr
  exact runX_illegal hs hi hl hf (g := begun .x s) (by rw [disp20_eq_jump20]; rfl) rfl rfl
theorem call_illegal {d : BitVec 20} (hd : Free s (reg s 63)) (hf : targetFault s.m l ((me s).pc + jump20 d) true = some f) :
    exec (.call d) s = .next (trapped .x f s) := by
  show execCall d s = _
  unfold execCall
  refine runX_illegal hs hi hl hf (g := { begun .x s with m := frozenIn s (reg s 63).dest? 1 (linkPc (begun .x s)) }) ?_ rfl rfl
  rw [wrS_begun .x _ _ hd, disp20_eq_jump20]
  rfl
theorem brc_illegal {p : PReg} {sense : Bool} {d : BitVec 20} (hp : Free s (pref p)) (ht : (me s).p p ≠ sense)
    (hf : targetFault s.m l ((me s).pc + jump20 d) true = some f) : exec (.brc p sense d) s = .next (trapped .x f s) := by
  show execBrc p sense d s = _
  unfold execBrc
  refine runX_illegal hs hi hl hf (g := begun .x s) ?_ rfl rfl
  simp only [reads_pref_begun .x hp, rp_begun, bne_iff_ne.2 ht, if_true, disp20_eq_jump20]
  rfl
theorem bdnz_illegal {sd : SReg} {imm : BitVec 12} (hd : Free s (reg s sd)) (ht : (me s).s sd - 1 ≠ 0)
    (hf : targetFault s.m l ((me s).pc + jump12 imm) true = some f) : exec (.bdnz sd imm) s = .next (trapped .x f s) := by
  show execBdnz sd imm s = _
  unfold execBdnz
  refine runX_illegal hs hi hl hf (g := { begun .x s with m := frozenIn s (reg s sd).dest? 1 ((me s).s sd - 1) }) ?_ rfl rfl
  simp only [reads_sr_begun .x hd, rs_begun, wrS_begun .x _ _ hd, if_pos ht, disp12_eq_jump12]
  rfl
theorem jmpr_illegal {sd sa : SReg} (ha : Free s (reg s sa)) (hd : Free s (reg s sd))
    (hf : targetFault s.m l ((me s).s sa) true = some f) : exec (.jmpr sd sa) s = .next (trapped .x f s) := by
  show execJmpr sd sa s = _
  unfold execJmpr
  refine runX_illegal hs hi hl hf (g := { begun .x s with m := frozenIn s (reg s sd).dest? 1 (linkPc (begun .x s)) }) ?_ rfl rfl
  simp only [reads_sr_begun .x ha, wrS_begun .x _ _ hd]
  rfl
theorem ret_illegal {sa : SReg} (ha : Free s (reg s sa)) (hf : targetFault s.m l ((me s).s sa) false = some f) :
    exec (.ret sa) s = .next (trapped .x f s) := by
  show execRet sa s = _
  unfold execRet
  refine runX_illegal hs hi hl hf (g := begun .x s) ?_ rfl rfl
  simp only [reads_sr_begun .x ha]
  rfl

end

/-- Settles O8: each taken branch comes to `branchTo` over a fresh bundle, and the check of a target has the cases listed. -/
theorem illegalTargets : Obligations.IllegalTargets :=
  ⟨fun _ _ _ hs hi hl =>
    ⟨fun _ hf => ⟨br_illegal hs hi hl hf, fun hd => call_illegal hs hi hl hd hf, fun _ _ hp ht => brc_illegal hs hi hl hp ht hf⟩,
     fun _ _ hd ht hf => bdnz_illegal hs hi hl hd ht hf,
     fun _ _ ha hd hf => jmpr_illegal hs hi hl ha hd hf,
     fun _ ha hf => ret_illegal hs hi hl ha hf⟩,
   fun _ _ _ _ _ => targetFault_eq_some_iff⟩

/-- A bundle of one slot that does nothing retires over the machine as it was. -/
theorem run_id_retires {s : State} (hs : Solo s) (k : Slot) (i : Instr) : ∃ t, runSlot k i id s = .next t ∧ Retires k i (nextPc s k) s s.m t :=
  run_clean hs k i id s.m rfl rfl

/-- Settles O21: each NOP is the slot that does nothing. -/
theorem nopsRetire : Obligations.NopsRetire := by
  intro s hs row hrow
  simp only [List.mem_cons, List.not_mem_nil, or_false] at hrow
  rcases hrow with rfl | rfl | rfl | rfl | rfl | rfl
  all_goals exact run_id_retires hs _ _

end Sys2Proof.Proofs
end

section
/-! SUPPORT. The integer, predicate and FP32 instructions of the X slot (07 R124, R128 to R136): each row of the tables is one of the
forms of Machine/ScalarInt, whose bundle writes its register, or stalls. -/
namespace Sys2Proof.Proofs
open Sys2Proof.Machine Sys2Proof.Safety Sys2Proof.Claims

/-! The forms. -/

/-- The instruction is the two-source form with this latency and result. -/
def IsAlu2 (mk : SReg → SReg → SReg → Instr) (lat : Nat) (f : Word → Word → Word) : Prop :=
  ∀ sd sa sb s, exec (mk sd sa sb) s = alu2 (mk sd sa sb) lat sd sa sb f s
/-- The instruction is the one-source form with this latency and result. -/
def IsAlu1 (mk : SReg → SReg → Instr) (lat : Nat) (f : Word → Word) : Prop :=
  ∀ sd sa s, exec (mk sd sa) s = alu1 (mk sd sa) lat sd sa f s

section
variable {mk : SReg → SReg → SReg → Instr} {mk1 : SReg → SReg → Instr} {lat : Nat} {s : State} {sd sa sb : SReg}

theorem IsAlu2.congr {f g : Word → Word → Word} (h : IsAlu2 mk lat f) (e : ∀ a b, f a b = g a b) : IsAlu2 mk lat g := funext₂ e ▸ h
theorem IsAlu1.congr {f g : Word → Word} (h : IsAlu1 mk1 lat f) (e : ∀ a, f a = g a) : IsAlu1 mk1 lat g := funext e ▸ h

theorem IsAlu2.writes {f : Word → Word → Word} (h : IsAlu2 mk lat f) (hlat : 1 ≤ lat) (hs : Solo s) (ha : Free s (reg s sa))
    (hb : Free s (reg s sb)) (hd : Free s (reg s sd)) :
    ∃ t, exec (mk sd sa sb) s = .next t ∧ WritesX s t (reg s sd).dest? lat (f ((me s).s sa) ((me s).s sb)) :=
  h sd sa sb s ▸ alu2_writes hs _ lat sd sa sb f hlat ha hb hd
theorem IsAlu1.writes {f : Word → Word} (h : IsAlu1 mk1 lat f) (hlat : 1 ≤ lat) (hs : Solo s) (ha : Free s (reg s sa)) (hd : Free s (reg s sd)) :
    ∃ t, exec (mk1 sd sa) s = .next t ∧ WritesX s t (reg s sd).dest? lat (f ((me s).s sa)) :=
  h sd sa s ▸ alu1_writes hs _ lat sd sa f hlat ha hd

/-- A pending source or destination stalls the two-source form (R124). -/
theorem IsAlu2.stalls {f : Word → Word → Word} (h : IsAlu2 mk lat f) (hs : Solo s)
    (hp : ¬Free s (reg s sa) ∨ ¬Free s (reg s sb) ∨ ∃ r, (reg s sd).dest? = some r ∧ ¬Free s r) :
    exec (mk sd sa sb) s = .next (waiting true s) := by
  rw [h]
  refine runX_stalls hs _ _ [reg s sa, reg s sb] (reg s sd) lat _ (by simp only [wrS, sr_reads]; rfl) ?_
  rcases hp with hp | hp | hp
  · exact .inl ⟨_, by simp, hp⟩
  · exact .inl ⟨_, by simp, hp⟩
  · exact .inr hp
/-- And the one-source form. -/
theorem IsAlu1.stalls {f : Word → Word} (h : IsAlu1 mk1 lat f) (hs : Solo s)
    (hp : ¬Free s (reg s sa) ∨ ∃ r, (reg s sd).dest? = some r ∧ ¬Free s r) : exec (mk1 sd sa) s = .next (waiting true s) := by
  rw [h]
  refine runX_stalls hs _ _ [reg s sa] (reg s sd) lat _ (by simp only [wrS, sr_reads]; rfl) ?_
  rcases hp with hp | hp
  · exact .inl ⟨_, by simp, hp⟩
  · exact .inr hp

end

/-! The register-register and immediate forms (R124, R128, R131). -/

theorem latency_rrTable : ∀ row ∈ rrTable, 1 ≤ row.2.2.1 := by decide
theorem latency_immTable : ∀ row ∈ immTable, 1 ≤ row.2.1 := by decide

/-- Each register-register row is the two-source form; the model writes some results in other words (R128). -/
theorem isAlu2_rrTable : ∀ row ∈ rrTable, IsAlu2 row.1 row.2.2.1 row.2.2.2 := by
  simp only [rrTable, List.forall_mem_cons]
  refine ⟨?add, ?sub, ?and, ?or, ?xor, ?shl, ?shr, .congr ?sra opSra_eq, ?mul, .congr ?mulh opMulh_eq, .congr ?mulhu opMulhu_eq,
    .congr ?div opDiv_eq, .congr ?divu opDivu_eq, .congr ?rem opRem_eq, .congr ?remu opRemu_eq, .congr ?min opMin_eq,
    .congr ?max opMax_eq, .congr ?minu opMinu_eq, .congr ?maxu opMaxu_eq, nofun⟩
  all_goals exact fun _ _ _ _ => rfl

/-- Each register-register row has format XR with fn zero (06 Table 06-9). -/
theorem encode_rrTable {row : (SReg → SReg → SReg → Instr) × BitVec 8 × Nat × (Word → Word → Word)} (h : row ∈ rrTable) (sd sa sb : SReg) :
    encode (row.1 sd sa sb) = some (.x, (xr row.2.1 sd sa sb 0).setWidth 64) := by
  simp only [rrTable, List.mem_cons, List.not_mem_nil, or_false] at h
  rcases h with rfl | rfl | rfl | rfl | rfl | rfl | rfl | rfl | rfl | rfl | rfl | rfl | rfl | rfl | rfl | rfl | rfl | rfl | rfl <;> rfl

/-- Each immediate row is the one-source form over the sign-extended immediate (R131). -/
theorem isAlu1_immTable (imm : BitVec 12) : ∀ row ∈ immTable, IsAlu1 (row.1 · · imm) row.2.1 (row.2.2 · (imm.signExtend 64)) := by
  simp only [immTable, List.forall_mem_cons]
  refine ⟨?addi, ?andi, ?ori, ?xori, ?shli, ?shri, .congr ?srai fun a => opSra_eq a _, ?muli, nofun⟩
  all_goals exact fun _ _ _ => rfl

/-- Settles O1: each row is the two-source form, which writes its result at its latency. -/
theorem registerRegister : Obligations.RegisterRegister := fun row hrow sd sa sb _ hs ha hb hd =>
  ⟨encode_rrTable hrow sd sa sb, (isAlu2_rrTable row hrow).writes (latency_rrTable row hrow) hs ha hb hd⟩

/-- Settles O2: both forms stall on a pending register. -/
theorem pendingStalls : Obligations.PendingStalls :=
  ⟨fun row hrow _ _ _ _ hs hp => (isAlu2_rrTable row hrow).stalls hs hp,
   fun row hrow _ _ imm _ hs hp => (isAlu1_immTable imm row hrow).stalls hs hp⟩

section
variable {s : State} (hs : Solo s)
include hs

/-- LI writes its immediate, without a source (R132). -/
theorem li_writes {sd : SReg} (imm : BitVec 18) (hd : Free s (reg s sd)) :
    ∃ t, exec (.li sd imm) s = .next t ∧ WritesX s t (reg s sd).dest? 1 (imm.signExtend 64) :=
  runX_frozen hs _ _ [] (reg s sd) 1 _ rfl (by simp) (fun _ hq => dest?_eq hq ▸ hd) (le_refl 1) fun _ h => regOf_setRef_sref _ _ _ _ h
/-- LIH shifts its own register (R132). -/
theorem lih_writes {sd : SReg} (imm : BitVec 18) (hd : Free s (reg s sd)) :
    ∃ t, exec (.lih sd imm) s = .next t ∧ WritesX s t (reg s sd).dest? 1 (((me s).s sd <<< 18) ||| imm.setWidth 64) :=
  alu1_writes hs (.lih sd imm) 1 sd sd (fun a => (a <<< 18) ||| imm.setWidth 64) (le_refl 1) hd hd
/-- SEL reads its predicate beside its two sources (R130). -/
theorem sel_writes {sd sa sb : SReg} {p : PReg} (ha : Free s (reg s sa)) (hb : Free s (reg s sb)) (hd : Free s (reg s sd)) (hp : Free s (pref p)) :
    ∃ t, exec (.sel sd p sa sb) s = .next t ∧ WritesX s t (reg s sd).dest? 1 (if (me s).p p then (me s).s sa else (me s).s sb) := by
  show ∃ t, execSel sd p sa sb s = _ ∧ _
  refine runX_frozen hs (.sel sd p sa sb) _ [pref p, reg s sa, reg s sb] (reg s sd) 1 _ ?_ (by simp [ha, hb, hp])
    (fun _ hq => dest?_eq hq ▸ hd) (le_refl 1) fun _ h => regOf_setRef_sref _ _ _ _ h
  simp only [wrS, sr_reads]
  rfl
/-- LEA is a two-source form (R135). -/
theorem lea_writes {sd sa sb : SReg} (n : BitVec 3) (ha : Free s (reg s sa)) (hb : Free s (reg s sb)) (hd : Free s (reg s sd)) :
    ∃ t, exec (.lea sd sa sb n) s = .next t ∧ WritesX s t (reg s sd).dest? 1 ((me s).s sa + ((me s).s sb <<< n.toNat)) :=
  alu2_writes hs (.lea sd sa sb n) 1 sd sa sb (fun a b => a + (b <<< n.toNat)) (le_refl 1) ha hb hd

end

/-- Settles O3: the rows, LIH and LEA are the forms above; LI and SEL read otherwise. -/
theorem immediateForms : Obligations.ImmediateForms :=
  ⟨fun row hrow _ _ imm _ hs ha hd => (isAlu1_immTable imm row hrow).writes (latency_immTable row hrow) hs ha hd,
   fun _ imm _ hs hd => li_writes hs imm hd, fun _ imm _ hs hd => lih_writes hs imm hd,
   fun _ _ _ _ _ hs ha hb hd hp => sel_writes hs ha hb hd hp, fun _ _ _ n _ hs ha hb hd => lea_writes hs n ha hb hd⟩

end Sys2Proof.Proofs
end

section
/-! SUPPORT. Counts of bits (07 R129). -/
namespace Sys2Proof.Proofs
open Sys2Proof.Machine Sys2Proof.Safety Sys2Proof.Claims

/-- The count of leading zeros is 64 for zero, else what the top set bit leaves (R129). -/
theorem opClz_spec (a : Word) : ∃ n, opClz a = BitVec.ofNat 64 n ∧ n ≤ 64 ∧ (∀ k, k < n → a.getLsbD (63 - k) = false) ∧
    (n < 64 → a.getLsbD (63 - n) = true) := by
  by_cases ha : a = 0
  · subst ha
    exact ⟨64, rfl, le_refl _, fun k _ => BitVec.getLsbD_zero, fun h => absurd h (lt_irrefl _)⟩
  · have h0 : a.toNat ≠ 0 := fun h => ha (BitVec.eq_of_toNat_eq h)
    have hlog : a.toNat.log2 < 64 := (Nat.log2_lt h0).2 a.isLt
    refine ⟨63 - a.toNat.log2, if_neg ha, by omega, fun k hk => ?_, fun _ => ?_⟩
    · rw [← BitVec.testBit_toNat]
      exact Nat.testBit_lt_two_pow ((Nat.log2_lt h0).1 (by omega))
    · rw [← BitVec.testBit_toNat, show 63 - (63 - a.toNat.log2) = a.toNat.log2 by omega]
      exact Nat.testBit_log2 h0

/-- The first number that meets `p` meets it, and none before does. -/
theorem firstNat_some {p : Nat → Bool} {i n j : Nat} (h : firstNat p i n = some j) :
    i ≤ j ∧ j < i + n ∧ p j = true ∧ ∀ k, i ≤ k → k < j → p k = false := by
  induction n generalizing i with
  | zero => cases h
  | succ n ih =>
    unfold firstNat at h
    split at h
    · next hp =>
      cases h
      exact ⟨le_refl _, by omega, hp, by omega⟩
    · next hp =>
      obtain ⟨h1, h2, h3, h4⟩ := ih h
      refine ⟨by omega, by omega, h3, fun k hk hj => ?_⟩
      rcases hk.eq_or_lt with rfl | hk
      · simpa using hp
      · exact h4 k hk hj
theorem firstNat_none {p : Nat → Bool} {i n : Nat} (h : firstNat p i n = none) : ∀ k, i ≤ k → k < i + n → p k = false := by
  induction n generalizing i with
  | zero => omega
  | succ n ih =>
    unfold firstNat at h
    split at h
    · cases h
    · next hp =>
      intro k hk hkn
      rcases hk.eq_or_lt with rfl | hk
      · simpa using hp
      · exact ih h k hk (by omega)

/-- The count of trailing zeros is 64 for zero, else the first set bit (R129). -/
theorem opCtz_spec (a : Word) : ∃ n, opCtz a = BitVec.ofNat 64 n ∧ n ≤ 64 ∧ (∀ k, k < n → a.getLsbD k = false) ∧
    (n < 64 → a.getLsbD n = true) := by
  unfold opCtz
  cases h : firstNat (fun k => a.getLsbD k) 0 64 with
  | none => exact ⟨64, rfl, le_refl _, fun k hk => firstNat_none h k (Nat.zero_le k) (by omega), fun h => absurd h (lt_irrefl _)⟩
  | some j =>
    obtain ⟨-, hj, hbit, hlow⟩ := firstNat_some h
    exact ⟨j, rfl, by omega, fun k hk => hlow k (Nat.zero_le k) hk, fun _ => hbit⟩

theorem upFrom_eq_range' (a n : Nat) : upFrom a n = List.range' a n := by
  induction n generalizing a with
  | zero => rfl
  | succ n ih => rw [upFrom, ih, List.range'_succ]
/-- The count of ones (R129). -/
theorem opPopc_eq (a : Word) : opPopc a = BitVec.ofNat 64 ((List.range 64).countP fun k => a.getLsbD k) := by
  rw [opPopc, upFrom_eq_range', ← List.range_eq_range', List.countP_eq_length_filter]

/-- Settles O4: the counts are one-source forms, and each count is the number its bits say. -/
theorem countBits : Obligations.CountBits := by
  intro sd sa s hs ha hd
  refine ⟨rfl, rfl, rfl, ?_, ?_, ?_⟩
  · obtain ⟨t, ht, hw⟩ := alu1_writes hs (.clz sd sa) 1 sd sa opClz (le_refl 1) ha hd
    obtain ⟨n, hn, hspec⟩ := opClz_spec ((me s).s sa)
    exact ⟨t, n, ht, hn ▸ hw, hspec⟩
  · obtain ⟨t, ht, hw⟩ := alu1_writes hs (.ctz sd sa) 1 sd sa opCtz (le_refl 1) ha hd
    obtain ⟨n, hn, hspec⟩ := opCtz_spec ((me s).s sa)
    exact ⟨t, n, ht, hn ▸ hw, hspec⟩
  · rw [← opPopc_eq]
    exact alu1_writes hs (.popc sd sa) 1 sd sa opPopc (le_refl 1) ha hd

end Sys2Proof.Proofs
end

section
/-! SUPPORT. Compares, predicate operations and FP32 (07 R133, R134, R136). -/
namespace Sys2Proof.Proofs
open Sys2Proof.Machine Sys2Proof.Safety Sys2Proof.Claims

/-- A compare row is the two-source compare, in format XR (R133). -/
theorem exec_cmpTable {row : (PReg → SReg → SReg → Instr) × BitVec 8 × (Word → Word → Bool)} (h : row ∈ cmpTable) (pd : PReg) (sa sb : SReg) :
    (∀ s, exec (row.1 pd sa sb) s = cmp2 (row.1 pd sa sb) 1 pd sa sb row.2.2 s) ∧
      encode (row.1 pd sa sb) = some (.x, (xr row.2.1 (pd.setWidth 6) sa sb 0).setWidth 64) := by
  simp only [cmpTable, List.mem_cons, List.not_mem_nil, or_false] at h
  rcases h with rfl | rfl | rfl | rfl | rfl | rfl <;> exact ⟨fun _ => rfl, rfl⟩
/-- A compare row with an immediate is the one-source compare, in format XI. -/
theorem exec_cmpImmTable {row : (PReg → SReg → BitVec 12 → Instr) × BitVec 8 × (Word → Word → Bool)} (h : row ∈ cmpImmTable) (pd : PReg)
    (sa : SReg) (imm : BitVec 12) :
    (∀ s, exec (row.1 pd sa imm) s = cmp1 (row.1 pd sa imm) pd sa (row.2.2 · (imm.signExtend 64)) s) ∧
      encode (row.1 pd sa imm) = some (.x, (xi row.2.1 (pd.setWidth 6) sa imm).setWidth 64) := by
  simp only [cmpImmTable, List.mem_cons, List.not_mem_nil, or_false] at h
  rcases h with rfl | rfl <;> exact ⟨fun _ => rfl, rfl⟩

/-- A predicate row writes its result, the rows of one source too, in format XR (R134). -/
theorem predTable_writes {row : (PReg → PReg → PReg → Instr) × BitVec 8 × Bool × (Bool → Bool → Bool)} (h : row ∈ predTable)
    {s : State} (hs : Solo s) {pd pa pb : PReg} (ha : Free s (pref pa)) (hb : Free s (pref pb)) (hd : Free s (pref pd)) :
    (∃ t, exec (row.1 pd pa pb) s = .next t ∧ WritesX s t (pref pd).dest? 1 (bit (row.2.2.2 ((me s).p pa) ((me s).p pb)))) ∧
      encode (row.1 pd pa pb) =
        some (.x, (xr row.2.1 (pd.setWidth 6) (pa.setWidth 6) (if row.2.2.1 then 0 else pb.setWidth 6) 0).setWidth 64) := by
  simp only [predTable, List.mem_cons, List.not_mem_nil, or_false] at h
  rcases h with rfl | rfl | rfl | rfl | rfl
  · exact ⟨pred2_writes hs (.pand pd pa pb) pd pa pb (fun a b => a && b) ha hb hd, rfl⟩
  · exact ⟨pred2_writes hs (.por pd pa pb) pd pa pb (fun a b => a || b) ha hb hd, rfl⟩
  · exact ⟨pred2_writes hs (.pxor pd pa pb) pd pa pb (fun a b => a != b) ha hb hd, rfl⟩
  · exact ⟨pred1_writes hs (.pnot pd pa) pd pa (fun a => !a) ha hd, rfl⟩
  · exact ⟨pred1_writes hs (.pmov pd pa) pd pa id ha hd, rfl⟩

/-- Settles O5: the compares are the model's compare forms, and each predicate operation writes its predicate. -/
theorem comparesAndPredicates : Obligations.ComparesAndPredicates := by
  refine ⟨fun row hrow pd sa sb s hs ha hb hd => ?_, fun row hrow pd sa imm s hs ha hd => ?_, fun row hrow pd pa pb s hs ha hb hd => ?_⟩
  · obtain ⟨hexec, henc⟩ := exec_cmpTable hrow pd sa sb
    obtain ⟨t, ht, hw⟩ := cmp2_writes hs (row.1 pd sa sb) 1 pd sa sb row.2.2 (le_refl 1) ha hb hd
    exact ⟨t, (hexec s).trans ht, hw, henc⟩
  · obtain ⟨hexec, henc⟩ := exec_cmpImmTable hrow pd sa imm
    obtain ⟨t, ht, hw⟩ := cmp1_writes hs (row.1 pd sa imm) pd sa (row.2.2 · (imm.signExtend 64)) ha hd
    exact ⟨t, (hexec s).trans ht, hw, henc⟩
  · obtain ⟨⟨t, ht, hw⟩, henc⟩ := predTable_writes hrow hs ha hb hd
    exact ⟨t, ht, hw, henc⟩

theorem latency_fpTable : ∀ row ∈ fpTable, 1 ≤ row.2.1 := by simp [fpTable]
/-- An FP32 row of two sources is the two-source form over the low halves (R136). -/
theorem isAlu2_fpTable : ∀ row ∈ fpTable, IsAlu2 row.1 row.2.1 (fop row.2.2) := by
  simp only [fpTable, List.forall_mem_cons]
  refine ⟨?fadd, ?fsub, ?fmul, ?fdiv, ?fmin, ?fmax, nofun⟩
  all_goals exact fun _ _ _ _ => rfl
/-- An FP32 row of one source is the one-source form. -/
theorem isAlu1_fpUnTable : ∀ row ∈ fpUnTable, IsAlu1 row.1 8 fun a => BitVec.ofNat 64 (f32c (row.2 (f32 a.toNat))) := by
  simp only [fpUnTable, List.forall_mem_cons]
  refine ⟨?fexp2, ?flog2, nofun⟩
  all_goals exact fun _ _ _ => rfl
/-- An FP32 compare is the two-source compare, of latency 4. -/
theorem exec_fpCmpTable {row : (PReg → SReg → SReg → Instr) × (FV → FV → Bool)} (h : row ∈ fpCmpTable) (pd : PReg) (sa sb : SReg) (s : State) :
    exec (row.1 pd sa sb) s = cmp2 (row.1 pd sa sb) 4 pd sa sb (fun a b => row.2 (f32 a.toNat) (f32 b.toNat)) s := by
  simp only [fpCmpTable, List.mem_cons, List.not_mem_nil, or_false] at h
  rcases h with rfl | rfl <;> rfl

/-- Settles O6: each FP32 instruction is a form of its shape over the low halves. -/
theorem scalarFp32 : Obligations.ScalarFp32 := by
  refine ⟨fun row hrow sd sa sb s hs ha hb hd => ?_, fun row hrow sd sa s hs ha hd => ?_, fun row hrow pd sa sb s hs ha hb hd => ?_,
    fun sd sa s hs ha hd => ⟨?_, ?_⟩⟩
  · exact (isAlu2_fpTable row hrow).writes (latency_fpTable row hrow) hs ha hb hd
  · exact (isAlu1_fpUnTable row hrow).writes (by decide) hs ha hd
  · exact exec_fpCmpTable hrow pd sa sb s ▸ cmp2_writes hs _ 4 pd sa sb _ (by decide) ha hb hd
  · exact alu1_writes hs (.ftoi sd sa) 4 sd sa ftoiOp (by decide) ha hd
  · exact alu1_writes hs (.itof sd sa) 4 sd sa itofOp (by decide) ha hd

end Sys2Proof.Proofs
end

section
/-! SUPPORT. Branches that go where they may (06 R102, 07 R137). -/
namespace Sys2Proof.Proofs
open Sys2Proof.Machine Sys2Proof.Safety Sys2Proof.Claims

section
variable {s : State} (hs : Solo s)
include hs

/-- A bundle of one slot whose effect is a change of the machine and a branch. -/
theorem run_aimed (k : Slot) (i : Instr) (f : State → State) (m : Mach) (a : Word)
    (hf : f (begun k s) = { begun k s with m := m, issue := aimed (begun k s).issue (some a) }) (hpc : (m.ctx s.issue.cx).pc = (me s).pc) :
    ∃ t, runSlot k i f s = .next t ∧ Retires k i a s m t := by
  have hleaves : aimed (begun k s).issue (some a) = leaves (begun k s).issue [] none none (some a) := by rw [begun_issue hs k]
  obtain ⟨t, ht, hr⟩ := run_retires hs k i f [] [] none none (some a) hf hleaves rfl rfl rfl hpc
  refine ⟨t, ht, retires_congr hr (fun j => ?_) rfl⟩
  by_cases hj : s.issue.cx = j
  · subst hj; simp
  · simp [hj]

/-- A bundle of one X slot that branches to a legal target retires there (R102). -/
theorem runX_branch {i : Instr} {f : State → State} {m : Mach} {a : Word} {rep : Bool} (hl : LegalTarget s a rep)
    (hf : f (begun .x s) = branchTo a rep { begun .x s with m := m }) (hpc : (m.ctx s.issue.cx).pc = (me s).pc) :
    ∃ t, runX i f s = .next t ∧ Retires .x i a s m t := by
  have hlegal : (if (me s).issued then none else (myLaunch s).bind fun l => targetFault s.m l a rep) = none := by
    split
    · rfl
    · cases hm : myLaunch s with
      | none => rfl
      | some l => exact hl l hm
  refine run_aimed hs .x i f m a ?_ hpc
  rw [hf, branchTo]
  show (match (if (me s).issued then none else (myLaunch s).bind fun l => targetFault s.m l a rep) with | some f => _ | none => _) = _
  rw [hlegal]

end

/-- A write of latency 1 that the retiring bundle has queued stands after it (07 R122). -/
theorem regOf_retires_frozenIn {i : Instr} {npc : Word} {s t : State} {r : RegRef} {v : Word}
    (h : Retires .x i npc s (frozenIn s (some r) 1 v) t) (hr : ∀ c : Ctx, regOf (c.setRef r v) r = v) : regOf (meIn s t) r = v := by
  rw [h.here, regOf_settled]
  simp only [latched, if_true, frozenIn, ctx_modCtx_same]
  exact regOf_tick_last _ _ _ _ hr
theorem regOf_retires_link {i : Instr} {npc : Word} {s t : State} {rd : SReg} {v : Word}
    (h : Retires .x i npc s (frozenIn s (reg s rd).dest? 1 v) t) (r : RegRef) (hr : (reg s rd).dest? = some r) : regOf (meIn s t) r = v := by
  have hd := dest?_eq hr
  subst hd
  rw [hr] at h
  exact regOf_retires_frozenIn h fun c => regOf_setRef_sref _ _ _ _ hr
/-- The link register of CALL is no s0, in either mode. -/
theorem dest?_reg_link (s : State) : (reg s 63).dest? = some (reg s 63) := by
  unfold reg sref
  cases (me s).handler <;> rfl

section
variable {s : State} (hs : Solo s)
include hs

theorem br_legal {d : BitVec 20} (hl : LegalTarget s ((me s).pc + jump20 d) true) :
    ∃ t, exec (.br d) s = .next t ∧ Retires .x (.br d) ((me s).pc + jump20 d) s s.m t := by
  show ∃ t, execBr d s = _ ∧ _
  unfold execBr
  exact runX_branch hs hl (by rw [disp20_eq_jump20]; rfl) rfl
theorem ret_legal {sa : SReg} (ha : Free s (reg s sa)) (hl : LegalTarget s ((me s).s sa) false) :
    ∃ t, exec (.ret sa) s = .next t ∧ Retires .x (.ret sa) ((me s).s sa) s s.m t := by
  show ∃ t, execRet sa s = _ ∧ _
  unfold execRet
  exact runX_branch hs hl (by simp only [reads_sr_begun .x ha]; rfl) rfl
theorem call_legal {d : BitVec 20} (hd : Free s (reg s 63)) (hl : LegalTarget s ((me s).pc + jump20 d) true) :
    ∃ t, exec (.call d) s = .next t ∧ Retires .x (.call d) ((me s).pc + jump20 d) s (frozenIn s (some (reg s 63)) 1 (nextPc s .x)) t ∧
      regOf (meIn s t) (reg s 63) = nextPc s .x := by
  obtain ⟨t, ht, hr⟩ := runX_branch hs (i := .call d) hl (f := fun s => branchTo (bundlePc s + disp20 d) true (wrS 63 1 (linkPc s) s))
    (m := frozenIn s (reg s 63).dest? 1 (nextPc s .x)) (by rw [wrS_begun .x _ _ hd, disp20_eq_jump20]; rfl) (pc_frozenIn _ _ _ _)
  exact ⟨t, ht, dest?_reg_link s ▸ hr, regOf_retires_link hr _ (dest?_reg_link s)⟩
theorem jmpr_legal {sd sa : SReg} (ha : Free s (reg s sa)) (hd : Free s (reg s sd)) (hl : LegalTarget s ((me s).s sa) true) :
    ∃ t, exec (.jmpr sd sa) s = .next t ∧ Retires .x (.jmpr sd sa) ((me s).s sa) s (frozenIn s (reg s sd).dest? 1 (nextPc s .x)) t ∧
      ∀ r, (reg s sd).dest? = some r → regOf (meIn s t) r = nextPc s .x := by
  obtain ⟨t, ht, hr⟩ := runX_branch hs (i := .jmpr sd sa) hl
    (f := fun s => branchTo (rs s sa) true (wrS sd 1 (linkPc s) (reads [sr s sa] s)))
    (m := frozenIn s (reg s sd).dest? 1 (nextPc s .x)) (by rw [reads_sr_begun .x ha, wrS_begun .x _ _ hd]; rfl) (pc_frozenIn _ _ _ _)
  exact ⟨t, ht, hr, regOf_retires_link hr⟩
/-- BRC goes to its target when its predicate differs from the sense, else on (R137). -/
theorem brc_legal {p : PReg} {sense : Bool} {d : BitVec 20} (hp : Free s (pref p))
    (hl : (me s).p p ≠ sense → LegalTarget s ((me s).pc + jump20 d) true) :
    ∃ t, exec (.brc p sense d) s = .next t ∧
      Retires .x (.brc p sense d) (if (me s).p p ≠ sense then (me s).pc + jump20 d else nextPc s .x) s s.m t := by
  show ∃ t, execBrc p sense d s = _ ∧ _
  unfold execBrc
  by_cases ht : (me s).p p ≠ sense
  · rw [if_pos ht]
    refine runX_branch hs (hl ht) ?_ rfl
    simp only [reads_pref_begun .x hp, rp_begun, bne_iff_ne.2 ht, if_true, disp20_eq_jump20]
    rfl
  · rw [if_neg ht]
    refine run_clean hs .x _ _ s.m ?_ rfl
    simp only [reads_pref_begun .x hp, rp_begun, not_ne_iff.1 ht, bne_self_eq_false, Bool.false_eq_true, if_false]
    rfl
/-- BDNZ writes the decremented counter, and goes to its target while that is not zero (R137). -/
theorem bdnz_legal {sd : SReg} {imm : BitVec 12} (hd : Free s (reg s sd))
    (hl : (me s).s sd - 1 ≠ 0 → LegalTarget s ((me s).pc + jump12 imm) true) :
    ∃ t, exec (.bdnz sd imm) s = .next t ∧
      Retires .x (.bdnz sd imm) (if (me s).s sd - 1 ≠ 0 then (me s).pc + jump12 imm else nextPc s .x) s
        (frozenIn s (reg s sd).dest? 1 ((me s).s sd - 1)) t ∧
      ∀ r, (reg s sd).dest? = some r → regOf (meIn s t) r = (me s).s sd - 1 := by
  have key : ∃ t, exec (.bdnz sd imm) s = .next t ∧
      Retires .x (.bdnz sd imm) (if (me s).s sd - 1 ≠ 0 then (me s).pc + jump12 imm else nextPc s .x) s
        (frozenIn s (reg s sd).dest? 1 ((me s).s sd - 1)) t := by
    show ∃ t, execBdnz sd imm s = _ ∧ _
    unfold execBdnz
    by_cases ht : (me s).s sd - 1 ≠ 0
    · rw [if_pos ht]
      refine runX_branch hs (hl ht) ?_ (pc_frozenIn _ _ _ _)
      simp only [reads_sr_begun .x hd, rs_begun, wrS_begun .x _ _ hd, if_pos ht, disp12_eq_jump12]
      rfl
    · rw [if_neg ht]
      refine run_clean hs .x _ _ _ ?_ (pc_frozenIn _ _ _ _)
      simp only [reads_sr_begun .x hd, rs_begun, wrS_begun .x _ _ hd, if_neg ht]
  obtain ⟨t, ht, hr⟩ := key
  exact ⟨t, ht, hr, regOf_retires_link hr⟩

end

/-- Settles O7: each branch is a branch or a plain bundle over the machine with its register queued. -/
theorem branches : Obligations.Branches := fun _ hs =>
  ⟨fun _ hl => br_legal hs hl, fun _ _ _ hp hl => brc_legal hs hp hl, fun _ _ hd hl => bdnz_legal hs hd hl, fun _ hd hl => call_legal hs hd hl,
   fun _ ha hl => ret_legal hs ha hl, fun _ _ ha hd hl => jmpr_legal hs ha hd hl⟩

end Sys2Proof.Proofs
end

section
/-! SUPPORT. Bundles of one X slot that end a context's task or its handler: END and TRET (07 R138, R145). -/
namespace Sys2Proof.Proofs
open Sys2Proof.Machine Sys2Proof.Safety Sys2Proof.Claims

/-! How such a bundle commits. -/

/-- The machine as a bundle leaves it whose context retires as `c`: the launch is active, the core's turn has its yield. -/
def retired (s : State) (c : Ctx) : Mach :=
  let m := s.m.setCtx s.issue.cx c
  (match m.launchOf s.issue.cx with
    | some l => m.modLaunch l.lid fun l => { l with active := true }
    | none => m).modCore (coreOf s.issue.cx) fun x => { x with yielded := s.issue.yield }
/-- A fresh bundle of one X slot that branches, ends or returns. -/
def closing (s : State) (target : Option Word) (ends : Bool) (tret : Option Bool) : State :=
  { begun .x s with issue := { (begun .x s).issue with target := target, ends := ends, tret := tret } }
/-- The context as its bundle's retiring leaves it: at its target, or draining where it stood. -/
def closed (s : State) (target : Option Word) (ends : Bool) : Ctx :=
  let c := settled (me s) (target.getD (nextPc s .x))
  if ends then { c with life := .draining, pc := (me s).pc } else c

/-- A bundle that branches, ends or returns commits, and a return then leaves the handler. -/
theorem run_closing {s : State} (hs : Solo s) (i : Instr) (f : State → State) (target : Option Word) (ends : Bool) (tret : Option Bool)
    (hf : f (begun .x s) = closing s target ends tret) :
    runX i f s = .next { s with
      m := if tret.isSome then doTret (retired s (closed s target ends)) s.issue.cx (target.getD 0) else retired s (closed s target ends),
      issue := {} } := by
  have hi : (closing s target ends tret).issue =
      { cx := s.issue.cx, len := (begun .x s).issue.len, yield := s.issue.yield, offset := s.issue.offset, replayed := s.issue.replayed,
        old := some s.m, target := target, ends := ends, tret := tret } := by
    unfold closing
    rw [begun_issue hs]
  rw [runX, runSlot_solo hs _ _ _ (by rw [newLatch_x, hf, hi]), newLatch_x, hf,
    finish_clean (by rw [hi]) (by rw [hi]) (by rw [hi]) (by rw [hi]) (by rw [hi])]
  unfold commit
  simp only [hi, bindAll_nil, List.foldl_nil, Option.getD_none, setLatches_latches]
  rfl

theorem ctx_retired_same (s : State) (c : Ctx) : (retired s c).ctx s.issue.cx = c := by
  unfold retired
  dsimp only
  rw [ctx_modCore]
  split <;> simp
/-- Retiring moves only the context, its launch's activity and its core's turn. -/
theorem onlyCtx_retired (s : State) (c : Ctx) : OnlyCtx s { s with m := retired s c, issue := {} } :=
  (commit_tail s (mset s.m.ctxs s.issue.cx c) ((s.m.setCtx s.issue.cx c).launchOf s.issue.cx) s.issue.yield (coreOf s.issue.cx) s.issue.cx
    (fun _ hj => mget_mset_ne _ _ _ (Ne.symm hj)) rfl).2
theorem onlyCtx_modCtx {s : State} {m : Mach} (h : OnlyCtx s { s with m := m, issue := {} }) (f : Ctx → Ctx) :
    OnlyCtx s { s with m := m.modCtx s.issue.cx f, issue := {} } := by
  obtain ⟨hm, hmem, hoth, hcore, -⟩ := h
  refine ⟨?_, fun l => (read_modCtx _ _ _ _).trans (hmem l), fun j hj => (ctx_modCtx_ne _ _ (Ne.symm hj)).trans (hoth j hj), hcore, rfl⟩
  show m.modCtx s.issue.cx f = { s.m with ctxs := (m.modCtx s.issue.cx f).ctxs, launches := m.launches, cores := m.cores }
  conv_lhs => rw [show m = _ from hm]
  rfl

/-! END. -/

/-- END retires its bundle where it stands, and its context drains (R138). -/
theorem end_drains {s : State} (hs : Solo s) : ∃ t, exec .endTask s = .next t ∧ OnlyCtx s t ∧
    meIn s t = { settled (me s) (me s).pc with life := .draining } :=
  ⟨_, run_closing hs .endTask (fun s => { s with issue := { s.issue with ends := true } }) none true none
    (by unfold closing; rw [begun_issue hs]), onlyCtx_retired s _, ctx_retired_same s _⟩

end Sys2Proof.Proofs
end

section
/-! SUPPORT. The end of a drain: the turn that finds it over, and the release of the context (07 R138; 15 R290; log 74). -/
namespace Sys2Proof.Proofs
open Sys2Proof.Machine Sys2Proof.Safety Sys2Proof.Claims

/-! The turn. -/

/-- A draining context whose work is over ends its drain with its turn. -/
theorem tryCtx_drained {s : State} {cx : Nat} (hlife : (s.m.ctx cx).life = .draining) (hev : nextEvent (s.m.ctx cx) = none)
    (hd : drained s.m cx = true) : tryCtx s cx = (.next { s with m := afterReturn (releaseCtx s.m cx false) cx }, .acted) := by
  have hrel : (s.m.ctx cx).released = false := by rw [Ctx.released, hlife]; rfl
  simp only [tryCtx, hrel, hev, hlife, hd]
  rfl

/-- The step in which a core's first context ends its drain. -/
theorem step_drained {s : State} {rest : List Act} {k cx : Nat} (hag : s.agenda = .issue k :: rest) (hready : s.m.ready = true) (hk : k < 160)
    (hg : (s.m.core k).gated = false) (hr : (s.m.core k).inReset = false) (hfirst : (turnOrder (s.m.core k)).head? = some (cx % 8))
    (hcore : coreOf cx = k) (hlife : (s.m.ctx cx).life = .draining) (hev : nextEvent (s.m.ctx cx) = none) (hd : drained s.m cx = true) :
    step s = .next { s with agenda := rest, m := aftermath (afterReturn (releaseCtx (tick s.m) cx false) cx) } := by
  have hcx : 8 * k + cx % 8 = cx := by rw [← hcore, coreOf]; exact Nat.div_add_mod cx 8
  have ht : tryCtx { m := tick s.m, issue := s.issue, agenda := rest } (8 * k + cx % 8) =
      (.next ⟨afterReturn (releaseCtx (tick s.m) cx false) cx, s.issue, rest⟩, .acted) := by
    rw [hcx]
    exact tryCtx_drained (s := { m := tick s.m, issue := s.issue, agenda := rest }) hlife hev hd
  have hturn := coreTurn_first (s := { m := tick s.m, issue := s.issue, agenda := rest }) hg hr hfirst ht (by decide)
  rw [step_issue hag hk hready hturn]
  rfl

/-! Unpinning. -/

section
variable {α : Type}
theorem mget?_mset_ne (t : Mp α) {k j : Nat} (v : α) (h : k ≠ j) : mget? (mset t k v) j = mget? t j := by
  induction t with
  | nil => simp [mset, mget?, h]
  | cons x t ih =>
    obtain ⟨i, w⟩ := x
    unfold mset
    split
    · simp [mget?, h]
    · split
      · next hi => subst hi; simp [mget?, h]
      · simp [mget?, ih]
theorem mget?_mdel (t : Mp α) (k j : Nat) : mget? (mdel t k) j = if k = j then none else mget? t j := by
  induction t with
  | nil => simp [mdel, mget?]
  | cons x t ih =>
    obtain ⟨i, w⟩ := x
    unfold mdel
    split
    · next hi => subst hi; rw [ih, mget?]; split <;> rfl
    · next hi =>
      rw [mget?, mget?, ih]
      split
      · next hj => subst hj; rw [if_neg (Ne.symm hi)]
      · rfl
end

/-- What is listed after a member has been set is that, or was listed before. -/
theorem mget?_mset_cases {α : Type} {t : Mp α} {k j : Nat} {v w : α} (h : mget? (mset t k v) j = some w) : w = v ∨ (j ≠ k ∧ mget? t j = some w) := by
  by_cases hk : k = j
  · subst hk
    rw [mget?_mset_same] at h
    exact .inl (Option.some.inj h).symm
  · rw [mget?_mset_ne _ _ hk] at h
    exact .inr ⟨Ne.symm hk, h⟩
theorem mget?_of_mdel {α : Type} {t : Mp α} {k j : Nat} {w : α} (h : mget? (mdel t k) j = some w) : mget? t j = some w := by
  rw [mget?_mdel] at h
  split at h
  · cases h
  · exact h

/-- Unpinning a line moves only the L2 (13 R246). -/
theorem l2Only_unpinLine (cx : Nat) (m : Mach) (n : Nat) : L2Only m (unpinLine cx m n) := by
  unfold unpinLine
  split
  · exact .refl m
  · dsimp only
    split
    · unfold l2Move
      split <;> rfl
    · rfl
theorem l2Only_foldl_unpinLine (cx : Nat) (ns : List Nat) (m : Mach) : L2Only m (ns.foldl (unpinLine cx) m) :=
  foldl_keeps (L2Only m) _ (fun _ n h => h.trans (l2Only_unpinLine cx _ n)) ns m (.refl m)

/-- A line listed after an allocation is the new one, or was listed before. -/
theorem mget?_l2Alloc {m : Mach} {home n k : Nat} {x y : L2Line} (h : mget? (l2Alloc m home n x).l2 k = some y) :
    y.pins = x.pins ∨ (k ≠ n ∧ mget? m.l2 k = some y) := by
  unfold l2Alloc at h
  rcases mget?_mset_cases h with rfl | ⟨hk, h⟩
  · exact .inl rfl
  · refine .inr ⟨hk, ?_⟩
    split at h
    · exact mget?_of_mdel h
    · exact h
/-- A line listed after an unpinning does not hold the pin, or is another and was listed before. -/
theorem mget?_unpinLine {m : Mach} {cx n k : Nat} {y : L2Line} (h : mget? (unpinLine cx m n).l2 k = some y) :
    cx ∉ y.pins ∨ (k ≠ n ∧ mget? m.l2 k = some y) := by
  have hps : ∀ x : L2Line, cx ∉ x.pins.filter (· != cx) := by simp
  unfold unpinLine at h
  cases hn : mget? m.l2 n with
  | none =>
    rw [hn] at h
    refine .inr ⟨fun hk => ?_, h⟩
    rw [hk, hn] at h
    cases h
  | some x =>
    rw [hn] at h
    dsimp only at h
    split at h
    · unfold l2Move at h
      split at h
      · rcases mget?_mset_cases h with rfl | h
        · exact .inl (hps x)
        · exact .inr h
      · rcases mget?_l2Alloc h with e | ⟨hk, h⟩
        · exact .inl (e ▸ hps x)
        · exact .inr ⟨hk, mget?_of_mdel h⟩
    · rcases mget?_mset_cases h with rfl | h
      · exact .inl (hps x)
      · exact .inr h
/-- A context that has unpinned its lines pins none of them (R138; 13 R246). -/
theorem not_pinned_foldl_unpinLine {cx : Nat} {ns : List Nat} {m : Mach} {n : Nat} {x : L2Line}
    (h : mget? (ns.foldl (unpinLine cx) m).l2 n = some x) : cx ∉ x.pins ∨ (n ∉ ns ∧ mget? m.l2 n = some x) := by
  induction ns generalizing m with
  | nil => exact .inr ⟨List.not_mem_nil, h⟩
  | cons k ns ih =>
    rcases ih h with h | ⟨hn, h⟩
    · exact .inl h
    · exact (mget?_unpinLine h).imp_right fun ⟨hk, h⟩ => ⟨by simp [hk, hn], h⟩

/-! The release. -/

theorem l2_logDev (m : Mach) (d : Nat) (f : Option (Nat × Nat × Nat)) : (m.logDev d f).l2 = m.l2 := by cases f <;> rfl
/-- An entry of the error log leaves the queues of the roots. -/
theorem rootQ_logDev (m : Mach) (k : Nat) (f : Option (Nat × Nat × Nat)) (d : Nat) : ((m.logDev k f).die d).rootQ = (m.die d).rootQ := by
  cases f with
  | none => rfl
  | some x =>
    by_cases hd : k = d
    · subst hd
      simp [Mach.logDev, Mach.logErr]
    · simp [Mach.logDev, Mach.logErr, hd]
/-- Weight returned to a root of the device queues at the root's die (15 R282, R287). -/
theorem rootQ_returnWeight {m : Mach} {r : RootRef} (h : r.device = m.deviceNo) (w : Word) (d : Nat) :
    ((m.returnWeight r w).die d).rootQ = (m.die d).rootQ ++
      (if wAmount w ≠ 0 ∧ r.domain.toNat / 64 = d then [.ret (r.domain.toNat % 64) r.gtag w] else []) := by
  unfold Mach.returnWeight
  by_cases hw : wAmount w = 0
  · simp [hw]
  · by_cases hd : r.domain.toNat / 64 = d
    · subst hd
      simp [hw, h]
    · simp [hw, h, hd]

/-- A released context without an operation leaves nothing in its engines, and no weight returns from them. -/
theorem dropOps_idle {m : Mach} {cx : Nat} (hops : ∀ o ∈ (m.core (coreOf cx)).ops, o.cx ≠ cx) (hf : (m.ctx cx).engFault = []) :
    ∃ f : Core → Core, dropOps m cx false = m.modCore (coreOf cx) f ∧ ∀ o ∈ (f (m.core (coreOf cx))).ops, o.cx ≠ cx := by
  have hgone : ((m.core (coreOf cx)).ops.filter fun o => o.cx == cx && !o.runs && !(m.core (coreOf cx)).sends.any fun x => x.uid == o.uid) = [] :=
    List.filter_eq_nil_iff.2 fun o ho => by simp [hops o ho]
  unfold dropOps
  dsimp only
  rw [hgone, hf]
  exact ⟨_, rfl, fun o ho => hops o (List.mem_of_mem_filter ho)⟩

/-- A block that holds nothing of the launch returns no weight; what of it cannot be read is logged (17 R344). -/
theorem returnShadow_empty {m : Mach} {cx : Nat} {l : Launch} {blk : Word} (h : shadowCount m blk = 0 ∨ shadowOwn m blk l.lid l.gtag = false)
    (r : RootRef) (n : Nat) : ∃ f, returnShadow m cx l blk r n = m.logDev (dieOf (coreOf cx)) f := by
  have hlog : (m.devFailure blk.toNat 64 false).elim m (fun f => m.logDev (dieOf (coreOf cx)) (some f)) =
      m.logDev (dieOf (coreOf cx)) (m.devFailure blk.toNat 64 false) := by
    cases m.devFailure blk.toNat 64 false <;> rfl
  have hmem := SameMem.logDev m (dieOf (coreOf cx)) (m.devFailure blk.toNat 64 false)
  refine ⟨m.devFailure blk.toNat 64 false, ?_⟩
  unfold returnShadow
  dsimp only
  rw [hlog, hmem.read (shadowCount · blk) fun _ => rfl, hmem.read (shadowOwn · blk l.lid l.gtag) fun _ => rfl, if_neg]
  rcases h with h | h <;> simp [h]

/-- The machine after a draining context has let its lines and its places in the queues go. -/
def unpinned (m : Mach) (cx : Nat) : Mach :=
  ((m.ctx cx).pins.foldl (unpinLine cx) (dropOps (m.dropWaiter cx) cx false)).modCtx cx fun c => { c with pins := [] }

/-- The machine after what a released context `c` carries has returned to its root (R138). -/
def carriedBack (m : Mach) (cx : Nat) (c : Ctx) : Mach :=
  match m.launchOf cx with
  | none => m.returnWeight c.qwRoot c.qw
  | some l => (returnShadow m cx l c.shadow c.qwRoot c.replayed).returnWeight c.qwRoot c.qw
/-- The machine after the launch of a released context has noted the time of the return. -/
def notedReturn (m : Mach) (c : Ctx) : Mach :=
  match c.launch with
  | some lid => m.modLaunch lid fun l => { l with lastReturn := m.time }
  | none => m
theorem notedReturn_eq (m : Mach) (c : Ctx) : ∃ ls, notedReturn m c = { m with launches := ls } := by
  unfold notedReturn
  split <;> exact ⟨_, rfl⟩
theorem carriedBack_eq {m : Mach} {cx : Nat} {c : Ctx}
    (h : ∀ l, m.launchOf cx = some l → shadowCount m c.shadow = 0 ∨ shadowOwn m c.shadow l.lid l.gtag = false) :
    ∃ e, carriedBack m cx c = (m.logDev (dieOf (coreOf cx)) e).returnWeight c.qwRoot c.qw := by
  unfold carriedBack
  split
  · exact ⟨none, rfl⟩
  · next l hl =>
    obtain ⟨e, he⟩ := returnShadow_empty (h l hl) c.qwRoot c.replayed
    exact ⟨e, by rw [he]⟩

section
variable {m : Mach} {cx : Nat} (hops : ∀ o ∈ (m.core (coreOf cx)).ops, o.cx ≠ cx) (hf : (m.ctx cx).engFault = [])
include hops hf

/-- Letting them go moves the core's engines, the lines' pins and the context's list of them. -/
theorem unpinned_eq : ∃ (f : Core → Core) (n : Mach), (∀ o ∈ (f (m.core (coreOf cx))).ops, o.cx ≠ cx) ∧
    (∀ k x, k ∈ (m.ctx cx).pins → mget? n.l2 k = some x → cx ∉ x.pins) ∧
    unpinned m cx = { (m.modCore (coreOf cx) f).modCtx cx fun c => { c with pins := [] } with l2 := n.l2, fresh := n.fresh } := by
  obtain ⟨f, hd, hfo⟩ := dropOps_idle (m := m.dropWaiter cx) (cx := cx) (by rw [Mach.dropWaiter, core_modCore_same]; exact hops) hf
  have hcomp : (m.dropWaiter cx).modCore (coreOf cx) f =
      m.modCore (coreOf cx) fun c => f { c with waiters := c.waiters.filter fun w => w.2 != cx } := by
    simp [Mach.dropWaiter, Mach.modCore, Mach.setCore, Mach.core]
  refine ⟨fun c => f { c with waiters := c.waiters.filter fun w => w.2 != cx },
    (m.ctx cx).pins.foldl (unpinLine cx) (dropOps (m.dropWaiter cx) cx false), ?_,
    fun k x hk hx => (not_pinned_foldl_unpinLine hx).resolve_right fun h => h.1 hk, ?_⟩
  · simpa [Mach.dropWaiter] using hfo
  · have hl := l2Only_foldl_unpinLine cx (m.ctx cx).pins (dropOps (m.dropWaiter cx) cx false)
    rw [L2Only, hd, hcomp] at hl
    rw [unpinned, hd, hcomp, hl]
    rfl

/-- What a draining context with no access outstanding does when it is released. -/
theorem releaseCtx_of_draining (hlife : (m.ctx cx).life = .draining) (hout : (m.ctx cx).out = []) :
    releaseCtx m cx false = (notedReturn (carriedBack (unpinned m cx) cx (m.ctx cx)) (m.ctx cx)).modCtx cx fun c =>
      { c.freed with life :=
        if ((notedReturn (carriedBack (unpinned m cx) cx (m.ctx cx)) (m.ctx cx)).core (coreOf cx)).ops.any fun o => o.cx == cx
        then .leaving else .free } := by
  have hperf : performAll m cx = m := by rw [performAll, hout]; rfl
  have hctx : (dropOps (m.dropWaiter cx) cx false).ctx cx = m.ctx cx := by
    obtain ⟨g, hd, -⟩ := dropOps_idle (m := m.dropWaiter cx) (cx := cx) (by rw [Mach.dropWaiter, core_modCore_same]; exact hops) hf
    rw [hd, ctx_modCore, Mach.dropWaiter, ctx_modCore]
  unfold releaseCtx
  dsimp only
  rw [hperf, hctx, hlife]
  rfl

/-- The release of a drained context: its lines unpinned, its QW returned, its launch's note of the time, and the context free (R138). -/
theorem releaseCtx_drained (hlife : (m.ctx cx).life = .draining) (hout : (m.ctx cx).out = [])
    (hsh : ∀ l, m.launchOf cx = some l → shadowCount m (m.ctx cx).shadow = 0 ∨ shadowOwn m (m.ctx cx).shadow l.lid l.gtag = false) :
    ∃ e ls, releaseCtx m cx false =
      { ((unpinned m cx).logDev (dieOf (coreOf cx)) e).returnWeight (m.ctx cx).qwRoot (m.ctx cx).qw with launches := ls }.modCtx cx
        fun c => { c.freed with life := .free } := by
  obtain ⟨f, n, hfo, -, hu⟩ := unpinned_eq hops hf
  have hlo : (unpinned m cx).launchOf cx = m.launchOf cx := by
    rw [hu]
    simp [Mach.launchOf, Mach.launch?, Mach.ctx, Mach.modCtx, Mach.setCtx]
  have hmem : SameMem m (unpinned m cx) := by rw [hu]; rfl
  obtain ⟨e, he⟩ := carriedBack_eq (m := unpinned m cx) (cx := cx) (c := m.ctx cx) fun l hl => by
    rw [hmem.read (shadowCount · _) fun _ => rfl, hmem.read (shadowOwn · _ l.lid l.gtag) fun _ => rfl]
    exact hsh l (hlo ▸ hl)
  obtain ⟨ls, hls⟩ := notedReturn_eq (((unpinned m cx).logDev (dieOf (coreOf cx)) e).returnWeight (m.ctx cx).qwRoot (m.ctx cx).qw) (m.ctx cx)
  have hcore : (((unpinned m cx).logDev (dieOf (coreOf cx)) e).returnWeight (m.ctx cx).qwRoot (m.ctx cx).qw).core (coreOf cx) =
      f (m.core (coreOf cx)) := by
    rw [Mach.core, returnWeight_frame, cores_logDev, hu]
    exact core_modCore_same m (coreOf cx) f
  have hleft : ((f (m.core (coreOf cx))).ops.any fun o => o.cx == cx) = false := by simpa using hfo
  refine ⟨e, ls, ?_⟩
  rw [releaseCtx_of_draining hops hf hlife hout, he, hls, show Mach.core { Mach.returnWeight _ _ _ with launches := ls } _ = _ from hcore, hleft]
  rfl

/-- The machine after the release, field by field but for the launches and the logs. -/
theorem release_moves (hlife : (m.ctx cx).life = .draining) (hout : (m.ctx cx).out = [])
    (hsh : ∀ l, m.launchOf cx = some l → shadowCount m (m.ctx cx).shadow = 0 ∨ shadowOwn m (m.ctx cx).shadow l.lid l.gtag = false) :
    (releaseCtx m cx false).ctx cx = { (m.ctx cx).freed with life := .free, pins := [] } ∧
    (∀ j, j ≠ cx → (releaseCtx m cx false).ctx j = m.ctx j) ∧ (∀ l, (releaseCtx m cx false).read l = m.read l) ∧
    (∀ n ∈ (m.ctx cx).pins, ∀ x, mget? (releaseCtx m cx false).l2 n = some x → cx ∉ x.pins) ∧
    ((m.ctx cx).qwRoot.device = m.deviceNo → ∀ d, ((releaseCtx m cx false).die d).rootQ = (m.die d).rootQ ++
      (if wAmount (m.ctx cx).qw ≠ 0 ∧ (m.ctx cx).qwRoot.domain.toNat / 64 = d
        then [.ret ((m.ctx cx).qwRoot.domain.toNat % 64) (m.ctx cx).qwRoot.gtag (m.ctx cx).qw] else [])) := by
  obtain ⟨f, n, -, hpins, hu⟩ := unpinned_eq hops hf
  obtain ⟨e, ls, hr⟩ := releaseCtx_drained hops hf hlife hout hsh
  have hctx : ∀ j, (((unpinned m cx).logDev (dieOf (coreOf cx)) e).returnWeight (m.ctx cx).qwRoot (m.ctx cx).qw).ctx j =
      (m.modCtx cx fun c => { c with pins := [] }).ctx j := fun j => by
    rw [returnWeight_frame, Mach.ctx, ctxs_logDev, hu]
    rfl
  have hmem : SameMem m (unpinned m cx) := by rw [hu]; rfl
  rw [hr]
  refine ⟨?_, fun j hj => ?_, fun l => ?_, fun k hk x hx => hpins k x hk ?_, fun hdev d => ?_⟩
  · rw [ctx_modCtx_same]
    exact congrArg (fun c : Ctx => { c.freed with life := .free }) ((hctx cx).trans (ctx_modCtx_same _ _ _))
  · rw [ctx_modCtx_ne _ _ (Ne.symm hj)]
    exact (hctx j).trans (ctx_modCtx_ne _ _ (Ne.symm hj))
  · rw [read_modCtx]
    refine SameMem.read (m := m) ?_ (·.read l) fun _ => by cases l <;> rfl
    refine hmem.trans ((SameMem.logDev _ (dieOf (coreOf cx)) e).trans ?_)
    rw [returnWeight_frame]
    rfl
  · change mget? (Mach.returnWeight _ _ _).l2 k = some x at hx
    rw [returnWeight_frame] at hx
    change mget? (Mach.logDev _ _ _).l2 k = some x at hx
    rw [l2_logDev, hu] at hx
    exact hx
  · have hdn : ((unpinned m cx).logDev (dieOf (coreOf cx)) e).deviceNo = m.deviceNo :=
      (hmem.trans (.logDev _ _ e)).read Mach.deviceNo fun _ => rfl
    have hdies : ∀ d, (unpinned m cx).die d = m.die d := fun d => by rw [hu]; rfl
    rw [die_modCtx]
    change ((Mach.returnWeight _ _ _).die d).rootQ = _
    rw [rootQ_returnWeight (hdev.trans hdn.symm), rootQ_logDev, hdies]

end

/-- Settles O9: END is a closing bundle; its core's turn finds the drain over; the release returns what the context held. -/
theorem endDrains : Obligations.EndDrains := by
  refine ⟨fun s hs => end_drains hs, ?_, ?_⟩
  · intro s rest k cx hag hready hk hg hr hfirst hcore hlife hev hops hpend hf
    refine step_drained hag hready hk hg hr hfirst hcore hlife hev ?_
    have hnone : ((s.m.core (coreOf cx)).ops.any fun o => o.cx == cx) = false := by simpa [hcore] using hops
    rw [drained, hnone, hpend, hf]
    rfl
  · intro m cx hlife hout hops hf hsh
    obtain ⟨hctx, hoth, hread, hpins, hroot⟩ := release_moves hops hf hlife hout hsh
    refine ⟨hctx, ?_, ?_, hoth, hread, hpins, hroot⟩
    · rw [hctx]
      rfl
    · rw [hctx]

end Sys2Proof.Proofs
end

section
/-! SUPPORT. TRAP and BKPT (07 R139; 17 R333). -/
namespace Sys2Proof.Proofs
open Sys2Proof.Machine Sys2Proof.Safety Sys2Proof.Claims

/-- A context in task mode, whose launch has a handler, enters it with its fault (17 R333). -/
theorem takeFault_enters {m : Mach} {cx : Nat} {l : Launch} {h : Word} {f : FaultRec} (hl : m.launchOf cx = some l) (hh : l.handlerPc = some h)
    (ht : (m.ctx cx).handler = false) (hk : (f.cause = 0x15 && bits f.info 1 0 ≠ 2 || f.cause = 0x14) = false) (slots : BitVec 6) :
    takeFault m cx slots f = enterHandler m cx h slots (m.ctx cx).pc f .other := by
  unfold takeFault
  dsimp only
  rw [hl]
  dsimp only
  rw [ht, hh, hk]
  rfl

/-- TRAP and BKPT are their fault (R139). -/
theorem trap_faults {s : State} (hs : Solo s) (imm : BitVec 18) {row : Instr × BitVec 8}
    (h : row ∈ [(Instr.trap imm, (0x17 : BitVec 8)), (Instr.bkpt imm, 0x18)]) :
    exec row.1 s = .next (trapped .x { cause := row.2, info := imm.setWidth 64 } s) := by
  simp only [List.mem_cons, List.not_mem_nil, or_false] at h
  rcases h with rfl | rfl
  · exact run_faulted hs .x (.trap imm) (faultAt .x { cause := 0x17, info := imm.setWidth 64 }) _ rfl
  · exact run_faulted hs .x (.bkpt imm) (faultAt .x { cause := 0x18, info := imm.setWidth 64 }) _ rfl

/-- A bundle that faults in task mode, with no access's fault, has its context enter the handler of its launch. -/
theorem trapped_enters {s : State} {h : Word} {f : FaultRec} (hh : HasHandler s h) (ht : (me s).handler = false) (ha : f.ofAccess = false)
    (hk : (f.cause = 0x15 && bits f.info 1 0 ≠ 2 || f.cause = 0x14) = false) (k : Slot) :
    trapped k f s = { s with
      m := (enterHandler s.m s.issue.cx h (BitVec.ofNat 6 (2 ^ k.bit)) (me s).pc f .other).modCore (coreOf s.issue.cx) fun c =>
        { c with yielded := false }
      issue := {} } := by
  obtain ⟨l, hl, hpc⟩ := hh
  have hlog : s.m.logFault s.issue.cx f = s.m := by rw [Mach.logFault, ha]; rfl
  rw [trapped, hlog, takeFault_enters hl hpc ht hk]
  rfl

/-- Settles O10: the bundle is its fault, and a handler entry moves the context and what waits on its core alone. -/
theorem trapsEnterHandler : Obligations.TrapsEnterHandler := by
  intro s imm hs row hrow
  refine ⟨trap_faults hs imm hrow, fun h t hh ht hexec => ?_⟩
  obtain ⟨hacc, hk⟩ : (⟨row.2, 0, 0, imm.setWidth 64⟩ : FaultRec).ofAccess = false ∧
      (row.2 = 0x15 && bits (imm.setWidth 64) 1 0 ≠ 2 || row.2 = 0x14) = false := by
    simp only [List.mem_cons, List.not_mem_nil, or_false] at hrow
    rcases hrow with rfl | rfl <;> exact ⟨rfl, rfl⟩
  have he := (trap_faults hs imm hrow).symm.trans hexec
  rw [trapped_enters hh ht hacc hk] at he
  cases he
  refine ⟨rfl, rfl, fun _ => (read_modCore _ _ _ _).trans ((read_modCtx _ _ _ _).trans (read_modCore _ _ _ _)),
    fun j hj => (ctx_modCore _ _ _ _).trans ((ctx_modCtx_ne _ _ (Ne.symm hj)).trans (ctx_modCore _ _ _ _)), rfl, rfl,
    fun k => ?_, rfl, ?_⟩
  · by_cases hk : coreOf s.issue.cx = k
    · subst hk
      simp [enterHandler, Mach.dropWaiter]
    · simp [enterHandler, Mach.dropWaiter, hk]
  · rw [meIn, ctx_modCore, enterHandler, ctx_modCtx_same, Mach.dropWaiter, ctx_modCore]
    rfl

end Sys2Proof.Proofs
end

section
/-! SUPPORT. WAITK and IDLE (07 R140, R141). -/
namespace Sys2Proof.Proofs
open Sys2Proof.Machine Sys2Proof.Safety Sys2Proof.Claims

theorem mget_of_none {α : Type} {d : α} {t : Mp α} {k : Nat} (h : mget? t k = none) : mget d t k = d := by
  induction t with
  | nil => rfl
  | cons x t ih =>
    unfold mget? at h
    unfold mget
    split at h
    · cases h
    · next hk => rw [if_neg hk, ih h]
theorem token_zero (c : Ctx) : c.token 0 = 0 := rfl
/-- A token that nothing has set is done (R140). -/
theorem token_of_none {c : Ctx} {k : Nat} (h : mget? c.tokens k = none) : c.token k = 0 := by
  unfold Ctx.token
  rw [mget_of_none h, ite_self]

/-- What WAITK does to its bundle. -/
def waitkEffect (ka kb kc : Tok) (s : State) : State :=
  if [ka, kb, kc].any fun k => (preCtx s).token k.toNat != 0 then stallOn .internal s else s
theorem waitkEffect_done {s : State} {ka kb kc : Tok} (h : waitsFor s [ka, kb, kc] = false) : waitkEffect ka kb kc (begun .x s) = begun .x s :=
  if_neg (Bool.eq_false_iff.1 h)
theorem waitkEffect_waits {s : State} {ka kb kc : Tok} (h : waitsFor s [ka, kb, kc] = true) :
    waitkEffect ka kb kc (begun .x s) = stallOn .internal (begun .x s) := if_pos h

/-- Settles O11: WAITK does nothing but to hold its bundle back while a token it names is not done. -/
theorem waitkTokens : Obligations.WaitkTokens := fun s ka kb kc hs =>
  ⟨fun h => run_clean hs .x (.waitk ka kb kc) (waitkEffect ka kb kc) s.m (waitkEffect_done h) rfl,
   fun h => run_waiting hs .x (.waitk ka kb kc) (waitkEffect ka kb kc) .internal
     ⟨[], by rw [waitkEffect_waits h, stallOn_internal_issue, begun_issue hs]⟩ (by rw [waitkEffect_waits h]; rfl),
   token_zero _, fun _ => token_of_none, rfl⟩


/-! IDLE. -/

/-- A fresh bundle of one X slot that asks to be held back by an IDLE waits, idle (R141). -/
theorem run_idles {s : State} (hs : Solo s) (i : Instr) (f : State → State) (n : Nat) (hf : f (begun .x s) = askFor (.idleAt n) (begun .x s)) :
    runX i f s = .next (waiting false (withCtx s fun c => { c with idleAt := some n })) := by
  have hi : (askFor (.idleAt n) (begun .x s)).issue =
      { cx := s.issue.cx, len := (begun .x s).issue.len, yield := s.issue.yield,
        offset := s.issue.offset, replayed := s.issue.replayed, old := some s.m, asks := [.idleAt n] } := by
    unfold askFor
    rw [begun_issue hs]
    rfl
  rw [runX, runSlot_solo hs _ _ _ (by rw [newLatch_x, hf, hi]), newLatch_x, hf]
  unfold finish waiting
  simp only [pre, hi, mergeBinds, bindClashes, firstFault, bgetStalls, asksNow_single, List.append_nil, List.foldl_nil,
    List.foldl_cons, List.any_nil, List.isEmpty_cons, Option.getD_some, Bool.false_eq_true, if_false]
  rfl

/-- Beyond the reservation or the seat, or without a seat, an aperture address is its fault (12 R215, R216). -/
theorem scratchAt_of_apertureFault {s : State} {a n : Nat} {w : Bool} {f : FaultRec} (h : ApertureFault s a n w f) :
    scratchAt s.m s.issue.cx a n w = .fault f := by
  have htarget : scratchTarget s.m s.issue.cx a n w = .error f := by
    unfold scratchTarget
    have hlp : localBase ≤ peerBase := by decide
    rcases h with ⟨h1, h2, hr, rfl⟩ | ⟨h1, h2, hseat, rfl⟩ | ⟨h1, h2, st, hseat, hr, rfl⟩
    · dsimp only
      rw [if_pos (by simp [h1, h2])]
      exact if_neg (Nat.not_le.2 hr)
    · dsimp only
      rw [if_neg (by simp [Nat.not_lt.2 h1]), if_pos (by simp [h1, h2]), hseat]
      rfl
    · dsimp only
      rw [if_neg (by simp [Nat.not_lt.2 h1]), if_pos (by simp [h1, h2]), hseat]
      dsimp only
      rw [if_neg (Nat.not_le.2 hr)]
      rfl
  rw [scratchAt, htarget]
/-- Outside the apertures an address is no scratchpad's. -/
theorem scratchAt_of_noAperture {s : State} {a n : Nat} {w : Bool} {f : FaultRec} (h : NoAperture a w f) :
    scratchAt s.m s.issue.cx a n w = .fault f := by
  have htarget : scratchTarget s.m s.issue.cx a n w = .error f := by
    obtain ⟨hout, rfl⟩ := h
    have hlp : localBase ≤ peerBase := by decide
    unfold scratchTarget
    rw [if_neg, if_neg]
    · rfl
    · simp only [Bool.and_eq_true, decide_eq_true_eq]
      omega
    · simp only [Bool.and_eq_true, decide_eq_true_eq]
      omega
  rw [scratchAt, htarget]

section
variable {s : State} (hs : Solo s)
include hs

/-- An effect that waits for its registers is run where they are free. -/
theorem runX_whenFree (i : Instr) (f : State → State) (l : State → List RegRef) (hl : ∀ r ∈ l (begun .x s), Free s r) :
    runX i (fun s => whenFree f (reads (l s) s)) s = runX i f s := by
  refine runSlot_congr hs .x i ?_
  rw [reads_free _ _ hl, whenFree, begun_issue hs]
  exact if_neg (by simp)

end

/-! IDLE.F. -/

/-- What IDLE.F does with the scratchpad byte that its address names. -/
def idleLine (sa : SReg) (l : List Loc) (s : State) : State :=
  match l with
  | .scratch k :: _ =>
    if underReset (pre s) s.issue.cx l then faultAt .x { cause := 0x10, addr := rs s sa } s
    else if (preCtx s).out.any (fun a => match a.kind with | .setFull n _ => n == lineOfKey k | _ => false) then stallOn .internal s
    else if (preCtx s).idleAt.isNone && (pre s).fullAt (lineOfKey k) then s
    else askFor (.idleAt (lineOfKey k)) s
  | _ => s
/-- What IDLE.F does once its register is free. -/
def idleFTest (sa : SReg) (s : State) : State :=
  if (preCtx s).idleMet then s
  else withRes .x (scratchAt (pre s) s.issue.cx (rs s sa).toNat 1 false) false (idleLine sa) (fun _ _ s => s) s

section
variable {s : State} (hs : Solo s) {sa : SReg} (ha : Free s (reg s sa))
include hs ha

theorem exec_idleF : exec (.idleF sa) s = runX (.idleF sa) (idleFTest sa) s :=
  runX_whenFree hs (.idleF sa) (idleFTest sa) (fun s => [sr s sa]) (List.forall_mem_singleton.2 ha)

theorem idleF_met (h : (me s).idleMet = true) : ∃ t, exec (.idleF sa) s = .next t ∧ Retires .x (.idleF sa) (nextPc s .x) s s.m t :=
  exec_idleF hs ha ▸ run_clean hs .x (.idleF sa) (idleFTest sa) s.m (if_pos h) rfl

variable (h : (me s).idleMet = false)
include h

theorem idleF_faults {f : FaultRec} (hf : scratchAt s.m s.issue.cx ((me s).s sa).toNat 1 false = .fault f) :
    exec (.idleF sa) s = .next (trapped .x f s) := by
  rw [exec_idleF hs ha]
  refine run_faulted hs .x (.idleF sa) (idleFTest sa) f ((if_neg (Bool.eq_false_iff.1 h)).trans ?_)
  show withRes .x (scratchAt s.m s.issue.cx ((me s).s sa).toNat 1 false) _ _ _ _ = _
  rw [hf]
  rfl

end

section
variable {s : State} {sa : SReg} (h : (me s).idleMet = false) {k : Nat} {rest : List Loc}
  (hk : scratchAt s.m s.issue.cx ((me s).s sa).toNat 1 false = .locs (.scratch k :: rest))
include h hk

/-- An IDLE.F not met comes to the line that its address names. -/
theorem idleFTest_begun : idleFTest sa (begun .x s) = idleLine sa (.scratch k :: rest) (begun .x s) := by
  refine (if_neg (Bool.eq_false_iff.1 h)).trans ?_
  show withRes .x (scratchAt s.m s.issue.cx ((me s).s sa).toNat 1 false) _ _ _ _ = _
  rw [hk]
  rfl
theorem idleF_underReset (hs : Solo s) (ha : Free s (reg s sa)) (hr : underReset s.m s.issue.cx (.scratch k :: rest) = true) :
    exec (.idleF sa) s = .next (trapped .x { cause := 0x10, addr := (me s).s sa } s) := by
  rw [exec_idleF hs ha]
  exact run_faulted hs .x (.idleF sa) (idleFTest sa) _ ((idleFTest_begun h hk).trans (if_pos hr))

variable (hr : underReset s.m s.issue.cx (.scratch k :: rest) = false) (hout : ∀ a ∈ (me s).out, ∀ b, a.kind ≠ .setFull (lineOfKey k) b)
include hr hout

/-- With no SETF or SETE of the line outstanding, the line's full bit decides (R141). -/
theorem idleFTest_full : idleFTest sa (begun .x s) =
    if (me s).idleAt.isNone && s.m.fullAt (lineOfKey k) then begun .x s else askFor (.idleAt (lineOfKey k)) (begun .x s) := by
  refine (idleFTest_begun h hk).trans ((if_neg (Bool.eq_false_iff.1 hr)).trans (if_neg ?_))
  simp only [List.any_eq_true, not_exists, not_and, preCtx_begun]
  intro a ha
  split
  · next n b hb => exact fun hn => hout a ha b (beq_iff_eq.1 hn ▸ hb)
  · simp
theorem idleF_full (hs : Solo s) (ha : Free s (reg s sa)) (hi : (me s).idleAt = none) (hfull : s.m.fullAt (lineOfKey k) = true) :
    ∃ t, exec (.idleF sa) s = .next t ∧ Retires .x (.idleF sa) (nextPc s .x) s s.m t := by
  rw [exec_idleF hs ha]
  refine run_clean hs .x (.idleF sa) (idleFTest sa) s.m ?_ rfl
  rw [idleFTest_full h hk hr hout, hi, hfull]
  rfl
theorem idleF_waits (hs : Solo s) (ha : Free s (reg s sa)) (hi : (me s).idleAt ≠ none ∨ s.m.fullAt (lineOfKey k) = false) :
    exec (.idleF sa) s = .next (waiting false (withCtx s fun c => { c with idleAt := some (lineOfKey k) })) := by
  rw [exec_idleF hs ha]
  refine run_idles hs (.idleF sa) (idleFTest sa) _ ?_
  rw [idleFTest_full h hk hr hout, if_neg]
  rcases hi with hi | hi <;> simp [hi]

end

/-! IDLE.N. -/

/-- What IDLE.N does once its registers are free. -/
def idleNTest (sa sb : SReg) (s : State) : State :=
  let q := (rs s sa).toNat % 4096
  if (preCtx s).idleMet then s
  else if (preCtx s).idleAt.isSome then askFor (.idleAt (2 ^ 32 + q)) s
  else match (pre s).qFailure q with
    | some f => faultAt .x (devFault f) s
    | none => if (pre s).qGet q 16 8 ≠ (rs s sb).toNat then s else askFor (.idleAt (2 ^ 32 + q)) s

section
variable {s : State} (hs : Solo s) {sa sb : SReg} (ha : Free s (reg s sa)) (hb : Free s (reg s sb))
include hs ha hb

theorem exec_idleN : exec (.idleN sa sb) s = runX (.idleN sa sb) (idleNTest sa sb) s :=
  runX_whenFree hs (.idleN sa sb) (idleNTest sa sb) (fun s => [sr s sa, sr s sb]) (List.forall_mem_cons.2 ⟨ha, List.forall_mem_singleton.2 hb⟩)

/-- IDLE.N retires where it was met, or its queue's write index differs at issue (R141). -/
theorem idleN_retires (h : (me s).idleMet = true ∨ ((me s).idleAt = none ∧ s.m.qFailure (((me s).s sa).toNat % 4096) = none ∧
      s.m.qGet (((me s).s sa).toNat % 4096) 16 8 ≠ ((me s).s sb).toNat)) :
    ∃ t, exec (.idleN sa sb) s = .next t ∧ Retires .x (.idleN sa sb) (nextPc s .x) s s.m t := by
  rw [exec_idleN hs ha hb]
  refine run_clean hs .x (.idleN sa sb) (idleNTest sa sb) s.m ?_ rfl
  have he : idleNTest sa sb (begun .x s) = begun .x s := by
    unfold idleNTest
    dsimp only
    rw [preCtx_begun, rs_begun, rs_begun, show pre (begun .x s) = s.m from rfl]
    rcases h with h | ⟨hi, hq, hne⟩
    · exact if_pos h
    · rw [hi, hq]
      dsimp only
      rw [if_pos hne]
      simp
  exact he

variable (h : (me s).idleMet = false)
include h

theorem idleN_waits (hw : (me s).idleAt ≠ none ∨ (s.m.qFailure (((me s).s sa).toNat % 4096) = none ∧
      s.m.qGet (((me s).s sa).toNat % 4096) 16 8 = ((me s).s sb).toNat)) :
    exec (.idleN sa sb) s =
      .next (waiting false (withCtx s fun c => { c with idleAt := some (2 ^ 32 + ((me s).s sa).toNat % 4096) })) := by
  rw [exec_idleN hs ha hb]
  refine run_idles hs (.idleN sa sb) (idleNTest sa sb) _ ?_
  unfold idleNTest
  dsimp only
  rw [preCtx_begun, rs_begun, rs_begun, show pre (begun .x s) = s.m from rfl, if_neg (Bool.eq_false_iff.1 h)]
  rcases hw with hi | ⟨hq, he⟩
  · exact if_pos (Option.isSome_iff_ne_none.2 hi)
  · rw [hq]
    dsimp only
    rw [if_neg (not_not.2 he), ite_self]

/-- An entry of the queue table that cannot be read is IDLE.N's fault (12 R222, R235). -/
theorem idleN_faults (hi : (me s).idleAt = none) {x : Nat × Nat × Nat} (hq : s.m.qFailure (((me s).s sa).toNat % 4096) = some x) :
    exec (.idleN sa sb) s = .next (trapped .x (devFault x) s) := by
  rw [exec_idleN hs ha hb]
  refine run_faulted hs .x (.idleN sa sb) (idleNTest sa sb) _ ?_
  unfold idleNTest
  dsimp only
  rw [preCtx_begun, rs_begun, show pre (begun .x s) = s.m from rfl, if_neg (Bool.eq_false_iff.1 h), hi, hq]
  rfl

end

/-- Settles O12: the cases of IDLE.F's line and of IDLE.N's queue. -/
theorem idleWaits : Obligations.IdleWaits := by
  refine ⟨fun s sa k rest hs ha hk => ⟨fun hr h => idleF_underReset h hk hs ha hr, fun hr hout => ⟨fun hm => ?_, fun h hw =>
      idleF_waits h hk hr hout hs ha hw⟩⟩, fun s sa f hs ha h hf => idleF_faults hs ha h ?_,
    fun s sa sb hs ha hb => ⟨idleN_retires hs ha hb, idleN_waits hs ha hb, fun x h hi hq => idleN_faults hs ha hb h hi hq⟩⟩
  · cases h : (me s).idleMet with
    | true => exact idleF_met hs ha h
    | false =>
      obtain ⟨hi, hfull⟩ := hm.resolve_left (by simp [h])
      exact idleF_full h hk hr hout hs ha hi hfull
  · exact hf.elim scratchAt_of_apertureFault scratchAt_of_noAperture

end Sys2Proof.Proofs
end

section
/-! SUPPORT. System registers, and the instructions of handler mode alone (07 R142 to R146). -/
namespace Sys2Proof.Proofs
open Sys2Proof.Machine Sys2Proof.Safety Sys2Proof.Claims

/-! The mode. -/

/-- In handler mode a handler-only instruction is what it does there. -/
theorem runX_handlerOnly {s : State} (hs : Solo s) (h : (me s).handler = true) (i : Instr) (f : State → State) :
    runX i (handlerOnly f) s = runX i f s := runSlot_congr hs .x i (if_pos h)
/-- In task mode it is its PRIVILEGE fault. -/
theorem runX_handlerOnly_task {s : State} (hs : Solo s) (h : (me s).handler = false) (i : Instr) (f : State → State) :
    runX i (handlerOnly f) s = .next (trapped .x { cause := 0x12 } s) :=
  run_faulted hs .x i (handlerOnly f) _ (if_neg (Bool.eq_false_iff.1 h))

/-- Settles O14: each handler-only instruction tests its mode first. -/
theorem privilegeInTaskMode : Obligations.PrivilegeInTaskMode := by
  intro s sd sa sb sel hs h i hi
  simp only [handlerOnlyInstrs, List.mem_cons, List.not_mem_nil, or_false] at hi
  rcases hi with rfl | rfl | rfl | rfl | rfl | rfl
  all_goals exact runX_handlerOnly_task hs h _ _

/-! System registers. -/

/-- A SYSW leaves the pc of its context. -/
theorem pc_sysWrite (m : Mach) (cx : Nat) (sel : BitVec 18) (v : Word) : ((sysWrite m cx sel v).ctx cx).pc = (m.ctx cx).pc := by
  unfold sysWrite
  split
  case h_10 => split <;> rfl
  all_goals simp

section
variable {s : State} (hs : Solo s)
include hs

theorem sysr_retires {sd : SReg} (sel : BitVec 18) (hd : Open s (reg s sd)) : ∃ t, exec (.sysr sd sel) s = .next t ∧
    Retires .x (.sysr sd sel) (nextPc s .x) s (gives s (reg s sd) (sysValue s.m s.issue.cx sel)) t := by
  show ∃ t, execSysr sd sel s = _ ∧ _
  unfold execSysr
  exact run_clean hs .x (.sysr sd sel) _ _ (giveTo_begun .x (reg s sd) _ hd) (pc_outAfter _ _ _)
theorem sysw_retires {sd : SReg} (sel : BitVec 18) (h : (me s).handler = true) (hd : Free s (reg s sd)) : ∃ t, exec (.sysw sd sel) s = .next t ∧
    Retires .x (.sysw sd sel) (nextPc s .x) s (sysWrite s.m s.issue.cx sel ((me s).s sd)) t := by
  show ∃ t, execSysw sd sel s = _ ∧ _
  unfold execSysw
  rw [runX_handlerOnly hs h]
  refine run_clean hs .x (.sysw sd sel) _ _ ?_ (pc_sysWrite _ _ _ _)
  rw [reads_sr_begun .x hd]
  rfl

end

/-- A read-only register is left alone (R142). -/
theorem sysWrite_readOnly (m : Mach) (cx : Nat) (v : Word) : ∀ sel ∈ readOnly, sysWrite m cx sel v = m := by
  simp only [readOnly, List.forall_mem_cons]
  exact ⟨rfl, rfl, rfl, rfl, rfl, rfl, rfl, rfl, rfl, nofun⟩

theorem setWidth_setWidth_8 (v : Word) : (v.setWidth 8).setWidth 64 = v &&& 0xFF := by
  refine BitVec.eq_of_toNat_eq ?_
  rw [BitVec.toNat_and, BitVec.toNat_setWidth, BitVec.toNat_setWidth, 
    Nat.mod_eq_of_lt (lt_trans (Nat.mod_lt _ (by decide)) (by decide))]
  exact (Nat.and_two_pow_sub_one_eq_mod v.toNat 8).symm

/-- Settles O13: SYSR gives the value it reads, SYSW is its write, and what is written reads back. -/
theorem systemRegisters : Obligations.SystemRegisters := by
  refine ⟨fun s sd sel hs hd => sysr_retires hs sel hd, fun s sd sel hs h hd => sysw_retires hs sel h hd, fun m cx v =>
    ⟨sysWrite_readOnly m cx v, ?cause, ?pc, ?addr, ?info, ?precision, ?shadow, ?status⟩⟩
  case cause =>
    exact (congrArg (fun c : Ctx => c.faultCause.setWidth 64) (ctx_modCtx_same m cx fun c => { c with faultCause := v.setWidth 8 })).trans
      (setWidth_setWidth_8 v)
  case pc => exact congrArg Ctx.faultPc (ctx_modCtx_same m cx fun c => { c with faultPc := v })
  case addr => exact congrArg Ctx.faultAddr (ctx_modCtx_same m cx fun c => { c with faultAddr := v })
  case info => exact congrArg Ctx.faultInfo (ctx_modCtx_same m cx fun c => { c with faultInfo := v })
  case precision => exact congrArg Ctx.precision (ctx_modCtx_same m cx fun c => { c with precision := v })
  case shadow =>
    refine (congrArg (fun c : Ctx => c.shadow &&& ~~~0x3F) (ctx_modCtx_same m cx fun c => { c with shadow := v &&& ~~~0x3F })).trans ?_
    rw [BitVec.and_assoc, BitVec.and_self]
  case status =>
    refine (congrArg Ctx.statusWord (ctx_modCtx_same m cx fun c => { c with status := v &&& 0xB0 })).trans ?_
    rw [Ctx.statusWord, BitVec.and_assoc, BitVec.and_self]

end Sys2Proof.Proofs
end

section
/-! SUPPORT. TRET (07 R145; 17 R334). -/
namespace Sys2Proof.Proofs
open Sys2Proof.Machine Sys2Proof.Safety Sys2Proof.Claims

/-! A context that retires keeps where it came from. -/

theorem drains_settled (c : Ctx) (npc : Word) : (settled c npc).drains = c.drains := by
  rw [settled, tickFrozen_regs]
  rfl
theorem drainPc_settled (c : Ctx) (npc : Word) : (settled c npc).drainPc = c.drainPc := by
  rw [settled, tickFrozen_regs]
  rfl
theorem entry_settled (c : Ctx) (npc : Word) : (settled c npc).entry = c.entry := by
  rw [settled, tickFrozen_regs]
  rfl
theorem launch_settled (c : Ctx) (npc : Word) : (settled c npc).launch = c.launch := by
  rw [settled, tickFrozen_regs]
  rfl

/-- The launch of the context is there after its bundle has retired, its activity marked. -/
theorem launchOf_retired {s : State} {c : Ctx} {l : Launch} (hc : c.launch = (me s).launch) (h : (retired s c).launchOf s.issue.cx = some l) :
    ∃ l', myLaunch s = some l' ∧ l = { l' with active := true } := by
  have hX : (s.m.setCtx s.issue.cx c).launchOf s.issue.cx = myLaunch s := by
    simp only [myLaunch, Mach.launchOf, ctx_setCtx_same, hc]
    rfl
  cases hm : myLaunch s with
  | none =>
    have hr : (retired s c).launchOf s.issue.cx = none := by
      rw [retired, hX, hm]
      exact hX.trans hm
    rw [hr] at h
    cases h
  | some l' =>
    obtain ⟨lid, hlid, hl'⟩ : ∃ lid, c.launch = some lid ∧ s.m.launch? lid = some l' := by
      rw [hc]
      simp only [myLaunch, Mach.launchOf] at hm
      split at hm
      · exact ⟨_, ‹_›, hm⟩
      · cases hm
    obtain rfl := lid_of_launch? hl'
    refine ⟨l', rfl, Option.some.inj (h.symm.trans ?_)⟩
    rw [retired, hX, hm]
    have hsame := launch?_modLaunch_same (f := fun l => { l with active := true }) (fun _ => rfl) hl'
    simp only [Mach.launchOf, ctx_modCore, ctx_modLaunch, ctx_setCtx_same, hlid]
    exact hsame

/-- A context whose seat is resident leaves the handler with nothing after it. -/
theorem afterReturn_resident {m : Mach} {cx : Nat} (h : ∀ l sr, m.launchOf cx = some l → l.seatOf cx = some sr → sr.resident = true) :
    afterReturn m cx = m := by
  unfold afterReturn
  split
  · rfl
  · next l hl =>
    split
    · rfl
    · next sr hsr =>
      rw [h l sr hl hsr]
      rfl

/-! The slot. -/

/-- Leaving the handler keeps the launch of the context. -/
theorem launchOf_leaveHandler (m : Mach) (cx : Nat) (target : Word) : (leaveHandler m cx target).launchOf cx = m.launchOf cx := by
  have hl : ∀ c : Ctx, c.applyAllFrozen.launch = c.launch := fun c => by
    rw [Ctx.applyAllFrozen, foldl_setRef_regs]
  simp only [leaveHandler, Mach.launchOf, ctx_modCtx_same, hl]
  rfl
/-- A TRET that commits in an ordinary entry leaves the handler, and nothing more where the seat is resident (R145). -/
theorem doTret_ordinary {m : Mach} {cx : Nat} (hentry : (m.ctx cx).entry = some .other)
    (h : ∀ l sr, m.launchOf cx = some l → l.seatOf cx = some sr → sr.resident = true) (target : Word) :
    doTret m cx target = leaveHandler m cx target := by
  unfold doTret
  rw [hentry]
  exact afterReturn_resident fun l sr hl => h l sr (launchOf_leaveHandler m cx target ▸ hl)

/-- An ordinary entry resumes its task, unless it interrupted the drain. -/
theorem tretResumes_begun {s : State} (hentry : (me s).entry = some .other) : tretResumes (begun .x s) = !(me s).drains := by
  rw [tretResumes, preCtx_begun, hentry]
  cases (me s).drains <;> rfl
/-- Which of TRET's forms an instruction is. -/
def tretInstr (skip : Bool) : Instr := if skip then .tretSkip else .tret

theorem exec_tret {s : State} (hs : Solo s) (hh : (me s).handler = true) (skip : Bool) :
    exec (tretInstr skip) s = runX (tretInstr skip) (tretSlot skip) s := by
  cases skip
  · exact runX_handlerOnly hs hh .tret (tretSlot false)
  · exact runX_handlerOnly hs hh .tretSkip (tretSlot true)

section
variable {s : State} (hs : Solo s)
include hs

/-- The check of the resume point (R145; 12 R223). -/
theorem tretSlot_begun (hops : HandlerOpsDone s) (skip : Bool) : tretSlot skip (begun .x s) =
    match (if tretResumes (begun .x s) && !(me s).issued
      then headerFault (begun .x s) skip (myLaunch s >>= fun l => targetFault s.m l (tretTarget (begun .x s) skip) false) else none) with
    | some f => faultAt .x f (begun .x s)
    | none => closing s (some (tretTarget (begun .x s) skip)) false (some skip) := by
  have hbusy : (((pre (begun .x s)).core (coreOf (begun .x s).issue.cx)).ops.any fun o => o.cx == (begun .x s).issue.cx && o.handlerOp) = false := by
    simpa [HandlerOpsDone] using hops
  have hs' : ({ begun .x s with issue := { (begun .x s).issue with target := some (tretTarget (begun .x s) skip), tret := some skip } } : State) =
      closing s (some (tretTarget (begun .x s) skip)) false (some skip) := by
    unfold closing
    rw [begun_issue hs]
  rw [← hs']
  unfold tretSlot
  simp only [hbusy, Bool.false_eq_true, if_false]
  rfl

section
variable (hentry : (me s).entry = some .other) (hops : HandlerOpsDone s)
include hentry hops

/-- A resume point that passes its check, or that a drain does not go to, is the target of the bundle. -/
theorem tretSlot_passes {skip : Bool} (h : (me s).drains = false → LegalTarget s (tretTarget (begun .x s) skip) false ∧
      (skip = true → s.m.devErr (me s).faultPc.toNat 4 = false)) :
    tretSlot skip (begun .x s) = closing s (some (tretTarget (begun .x s) skip)) false (some skip) := by
  rw [tretSlot_begun hs hops, tretResumes_begun hentry]
  cases hd : (me s).drains with
  | true => rfl
  | false =>
    obtain ⟨hlegal, herr⟩ := h hd
    have hheader : headerFault (begun .x s) skip (myLaunch s >>= fun l => targetFault s.m l (tretTarget (begun .x s) skip) false) = none := by
      have hcond : (skip && s.m.devErr (me s).faultPc.toNat 4) = false := by
        cases skip with
        | false => rfl
        | true => exact herr rfl
      refine (if_neg (Bool.eq_false_iff.1 hcond)).trans ?_
      cases hl : myLaunch s with
      | none => rfl
      | some l => exact hlegal l hl
    rw [hheader, ite_self]

/-- A header in error at FAULT_PC is a PROTECTION fault of a TRET that skips (12 R223). -/
theorem tretSkip_faults (hh : (me s).handler = true) (hd : (me s).drains = false) (hi : (me s).issued = false)
    (herr : s.m.devErr (me s).faultPc.toNat 4 = true) :
    exec .tretSkip s = .next (trapped .x { cause := 0x0A, addr := (me s).faultPc, info := 6 } s) := by
  refine (exec_tret hs hh true).trans (run_faulted hs .x .tretSkip (tretSlot true) _ ?_)
  have hheader : ∀ f, headerFault (begun .x s) true f = some { cause := 0x0A, addr := (me s).faultPc, info := 6 } := fun f => by
    refine (if_pos herr).trans ?_
    rw [preCtx_begun, accFault, BitVec.ofNat_toNat, BitVec.setWidth_eq]
    rfl
  rw [tretSlot_begun hs hops, tretResumes_begun hentry, hd, hi, hheader]
  rfl

/-- TRET returns to the target that passes (R145). -/
theorem tret_returns (hh : (me s).handler = true)
    (hseat : ∀ l sr, myLaunch s = some l → l.seatOf s.issue.cx = some sr → sr.resident = true) {skip : Bool}
    (h : (me s).drains = false → LegalTarget s (tretTarget (begun .x s) skip) false ∧
      (skip = true → s.m.devErr (me s).faultPc.toNat 4 = false)) :
    ∃ t, exec (tretInstr skip) s = .next t ∧ OnlyCtx s t ∧
      meIn s t = { (settled (me s) (tretTarget (begun .x s) skip)).applyAllFrozen with
        handler := false, pc := if (me s).drains then (me s).drainPc else tretTarget (begun .x s) skip, entry := none,
        life := if (me s).drains then .draining else .running, drains := false, leaveAt := none } := by
  have hret : doTret (retired s (settled (me s) (tretTarget (begun .x s) skip))) s.issue.cx (tretTarget (begun .x s) skip) =
      leaveHandler (retired s (settled (me s) (tretTarget (begun .x s) skip))) s.issue.cx (tretTarget (begun .x s) skip) := by
    refine doTret_ordinary ?_ (fun l sr hl hsr => ?_) _
    · rw [ctx_retired_same, entry_settled, hentry]
    · obtain ⟨l', hl', rfl⟩ := launchOf_retired (launch_settled _ _) hl
      exact hseat l' sr hl' hsr
  refine ⟨_, (exec_tret hs hh skip).trans (run_closing hs _ _ (some (tretTarget (begun .x s) skip)) false (some skip)
    (tretSlot_passes hs hentry hops h)), ?_, ?_⟩
  · refine Eq.subst (motive := fun m => OnlyCtx s { s with m := m, issue := {} }) hret.symm ?_
    exact onlyCtx_modCtx (onlyCtx_retired s _) _
  · refine (congrArg (fun m : Mach => m.ctx s.issue.cx) hret).trans ?_
    rw [leaveHandler, ctx_modCtx_same, ctx_retired_same, drains_settled, drainPc_settled]

end
end

/-- Settles O15: TRET is a closing bundle, and the handler is left where the seat is resident. -/
theorem returnFromHandler : Obligations.ReturnFromHandler := by
  intro s hs hh hentry hops hseat
  refine ⟨fun hd hi herr => tretSkip_faults hs hentry hops hh hd hi herr, fun row hrow hlegal => ?_⟩
  simp only [List.mem_cons, List.not_mem_nil, or_false] at hrow
  rcases hrow with rfl | rfl
  · exact tret_returns hs hentry hops (skip := false) hh hseat fun hd => ⟨(hlegal hd).1, nofun⟩
  · exact tret_returns hs hentry hops (skip := true) hh hseat fun hd => ⟨(hlegal hd).1, fun _ => (hlegal hd).2 rfl⟩

end Sys2Proof.Proofs
end

section
/-! SUPPORT. The items of a context, and CTXR and CTXW (07 R144). -/
namespace Sys2Proof.Proofs
open Sys2Proof.Machine Sys2Proof.Safety Sys2Proof.Claims

/-! Items. -/

/-- The half `k` of a word of 128 bits. -/
theorem extractLsb'_eq_ofNat (x : BitVec 128) (k : Nat) : x.extractLsb' k 64 = BitVec.ofNat 64 (x.toNat / 2 ^ k) := by
  rw [BitVec.extractLsb', Nat.shiftRight_eq_div_pow]
/-- A word with its low half replaced. -/
theorem lowHalf_eq (w : BitVec 128) (v : Word) : BitVec.ofNat 128 (w.toNat / 2 ^ 64 * 2 ^ 64 + v.toNat) = w.extractLsb' 64 64 ++ v := by
  refine BitVec.eq_of_toNat_eq ?_
  have hw := w.isLt
  rw [BitVec.toNat_append, BitVec.extractLsb'_toNat, Nat.shiftRight_eq_div_pow, Nat.mod_eq_of_lt (show w.toNat / 2 ^ 64 < 2 ^ 64 by omega),
    ← Nat.shiftLeft_add_eq_or_of_lt v.isLt, Nat.shiftLeft_eq, BitVec.toNat_ofNat]
  exact Nat.mod_eq_of_lt (by omega)
/-- A word with its high half replaced. -/
theorem highHalf_eq (w : BitVec 128) (v : Word) : BitVec.ofNat 128 (w.toNat % 2 ^ 64 + v.toNat * 2 ^ 64) = v ++ w.extractLsb' 0 64 := by
  refine BitVec.eq_of_toNat_eq ?_
  have hlow : w.toNat % 2 ^ 64 < 2 ^ 64 := Nat.mod_lt _ (by decide)
  rw [BitVec.toNat_append, BitVec.extractLsb'_toNat, Nat.shiftRight_zero, ← Nat.shiftLeft_add_eq_or_of_lt hlow, Nat.shiftLeft_eq, BitVec.toNat_ofNat,
    Nat.add_comm]
  exact Nat.mod_eq_of_lt (by omega)

theorem tile_setTile_same (c : Ctx) (t : Nat) (x : Tile) : (c.setTile t x).tile t = x := mget_mset_same _ _ _ _
/-- A half of a type word reads back as the word's canonical form has it (R144; 02 R17). -/
theorem typeHalf_readBack (c : Ctx) (i : Nat) (v : Word) : (c.setItem (.typeHalf i) v).item (.typeHalf i) =
    (TW.canon (if i % 2 = 0 then (c.tile (i / 2)).word.extractLsb' 64 64 ++ v else v ++ (c.tile (i / 2)).word.extractLsb' 0 64)).extractLsb'
      (64 * (i % 2)) 64 := by
  have hword : ((c.setItem (.typeHalf i) v).tile (i / 2)).word =
      if i % 2 = 0 then (c.tile (i / 2)).word.extractLsb' 64 64 ++ v else v ++ (c.tile (i / 2)).word.extractLsb' 0 64 := by
    simp only [Ctx.setItem, Ctx.setWord, tile_setTile_same]
    split
    · exact lowHalf_eq _ v
    · exact highHalf_eq _ v
  rw [extractLsb'_eq_ofNat, ← hword]
  rfl

theorem reg_readBack (c : Ctx) {i : Nat} (v : Word) (hi : 0 < i) : (c.setItem (.reg i) v).item (.reg i) = v :=
  (regAt_setRegAt c i i v).trans (if_pos ⟨rfl, by omega⟩)
/-- Writing an item leaves the pc. -/
theorem pc_setItem (c : Ctx) (it : CtxItem) (v : Word) : (c.setItem it v).pc = c.pc := by
  cases it
  case reg i =>
    simp only [Ctx.setItem, Ctx.setRegAt]
    split <;> rfl
  case draw i =>
    simp only [Ctx.setItem]
    split <;> rfl
  all_goals rfl

/-! CTXR and CTXW. -/

/-- The registers that an item is are free, where the selector names one. -/
theorem free_itemRegs {s : State} {it : Option CtxItem} (h : ∀ x, it = some x → ∀ r ∈ x.regs, Free s r) :
    ∀ r ∈ (it.map CtxItem.regs).getD [], Free s r := by
  cases it with
  | none => exact nofun
  | some x => exact h x rfl

/-- Does a CTXW wait: does a queued operation refer to its bank entry (03 R49)? -/
def itemBusy (s : State) (it : Option CtxItem) : Bool :=
  match it with
  | some (.bank i) => ((pre s).core (coreOf s.issue.cx)).ops.any fun o => o.cx == s.issue.cx && o.bankRefs.contains (i / 16)
  | _ => false
/-- What a CTXW does with the item that its selector names. -/
def writeItem (sb : SReg) (it : Option CtxItem) (s : State) : State :=
  match it with
  | some (.draw i) =>
    let v := (rs s sb).setWidth 32
    if i = 0 then { s with issue := { s.issue with seedKey := some v } } else { s with issue := { s.issue with seedCtr := some v } }
  | some it => onCtx (fun c => c.setItem it (rs s sb)) s
  | none => s

theorem execCtxw_eq (sa sb : SReg) (s : State) : exec (.ctxw sa sb) s = runX (.ctxw sa sb) (handlerOnly fun s =>
    let it := ctxItem (rs s sa)
    let s := reads (sr s sa :: sr s sb :: (it.map CtxItem.regs).getD []) s
    writeItem sb it (if itemBusy s it then stallOn .internal s else s)) s := rfl
theorem itemBusy_begun {s : State} {it : Option CtxItem} (h : BankIdle s it) : itemBusy (begun .x s) it = false := by
  unfold itemBusy
  split
  · next i =>
    refine Bool.eq_false_iff.2 fun hany => ?_
    obtain ⟨o, ho, hc⟩ := List.any_eq_true.1 hany
    obtain ⟨hcx, href⟩ := Bool.and_eq_true_iff.1 hc
    rw [h i rfl o ho (beq_iff_eq.1 hcx)] at href
    cases href
  · rfl

/-- Writing an item is a change of the context alone (R144). -/
theorem writeItem_retires {s : State} (hs : Solo s) (i : Instr) (sb : SReg) (it : Option CtxItem) :
    ∃ t, runX i (writeItem sb it) s = .next t ∧ Retires .x i (nextPc s .x) s
      (match it with | some it => s.m.modCtx s.issue.cx fun c => c.setItem it ((me s).s sb) | none => s.m) t := by
  cases it with
  | none => exact run_clean hs .x i (writeItem sb none) s.m rfl rfl
  | some it =>
    cases it
    case draw k =>
      by_cases hk : k = 0
      · subst hk
        refine run_retires (g := { begun .x s with issue := { (begun .x s).issue with seedKey := some (((me s).s sb).setWidth 32) } }) hs .x i
          (writeItem sb (some (.draw 0))) [] [] (some (((me s).s sb).setWidth 32)) none none rfl ?_ rfl rfl rfl rfl
        rw [begun_issue hs]
      · have hset : ∀ c : Ctx, c.setItem (.draw k) ((me s).s sb) = bound c [] none (some (((me s).s sb).setWidth 32)) := fun _ => if_neg hk
        simp only [hset]
        refine run_retires (g := { begun .x s with issue := { (begun .x s).issue with seedCtr := some (((me s).s sb).setWidth 32) } }) hs .x i
          (writeItem sb (some (.draw k))) [] [] none (some (((me s).s sb).setWidth 32)) none (if_neg hk) ?_ rfl rfl rfl rfl
        rw [begun_issue hs]
    all_goals exact run_clean hs .x i (writeItem sb (some _)) _ rfl (by rw [ctx_modCtx_same, pc_setItem]; rfl)

section
variable {s : State} (hs : Solo s) (hh : (me s).handler = true)
include hs hh

theorem ctxr_retires {sd sa : SReg} (ha : Free s (reg s sa)) (hd : Open s (reg s sd))
    (hit : ∀ it, ctxItem ((me s).s sa) = some it → ∀ r ∈ it.regs, Free s r) :
    ∃ t, exec (.ctxr sd sa) s = .next t ∧ Retires .x (.ctxr sd sa) (nextPc s .x) s
      (gives s (reg s sd) (((ctxItem ((me s).s sa)).map (me s).item).getD 0)) t := by
  show ∃ t, execCtxr sd sa s = _ ∧ _
  unfold execCtxr
  rw [runX_handlerOnly hs hh]
  refine run_clean hs .x (.ctxr sd sa) _ _ ?_ (pc_outAfter _ _ _)
  have hreads : reads (sr (begun .x s) sa :: ((ctxItem ((me s).s sa)).map CtxItem.regs).getD []) (begun .x s) = begun .x s :=
    reads_free _ _ (List.forall_mem_cons.2 ⟨ha, free_itemRegs hit⟩)
  dsimp only
  rw [rs_begun, hreads]
  exact giveTo_begun .x (reg s sd) _ hd

/-- A CTXW whose registers are free, and whose bank no operation refers to, is its write. -/
theorem exec_ctxw {sa sb : SReg} (ha : Free s (reg s sa)) (hb : Free s (reg s sb))
    (hit : ∀ it, ctxItem ((me s).s sa) = some it → ∀ r ∈ it.regs, Free s r) (hbank : BankIdle s (ctxItem ((me s).s sa))) :
    exec (.ctxw sa sb) s = runX (.ctxw sa sb) (writeItem sb (ctxItem ((me s).s sa))) s := by
  refine (execCtxw_eq sa sb s).trans ((runX_handlerOnly hs hh _ _).trans (runSlot_congr hs .x (.ctxw sa sb) ?_))
  have hreads : reads (sr (begun .x s) sa :: sr (begun .x s) sb :: ((ctxItem ((me s).s sa)).map CtxItem.regs).getD []) (begun .x s) = begun .x s :=
    reads_free _ _ (List.forall_mem_cons.2 ⟨ha, List.forall_mem_cons.2 ⟨hb, free_itemRegs hit⟩⟩)
  dsimp only
  rw [rs_begun, hreads, itemBusy_begun hbank]
  rfl

theorem ctxw_retires {sa sb : SReg} (ha : Free s (reg s sa)) (hb : Free s (reg s sb))
    (hit : ∀ it, ctxItem ((me s).s sa) = some it → ∀ r ∈ it.regs, Free s r) (hbank : BankIdle s (ctxItem ((me s).s sa))) :
    ∃ t, exec (.ctxw sa sb) s = .next t ∧ Retires .x (.ctxw sa sb) (nextPc s .x) s
      (match ctxItem ((me s).s sa) with
        | some it => s.m.modCtx s.issue.cx fun c => c.setItem it ((me s).s sb)
        | none => s.m) t := by
  rw [exec_ctxw hs hh ha hb hit hbank]
  exact writeItem_retires hs _ sb _

end

/-- Settles O16: CTXR gives the item, CTXW is its write, and the items are as they read. -/
theorem contextItems : Obligations.ContextItems :=
  ⟨fun _ _ _ hs hh ha hd hit => ctxr_retires hs hh ha hd hit,
   fun _ _ _ hs hh ha hb hit hbank => ctxw_retires hs hh ha hb hit hbank,
   fun c i v => ⟨rfl, reg_readBack c v, typeHalf_readBack c i v, rfl⟩⟩

end Sys2Proof.Proofs
end

section
/-! SUPPORT. An outstanding load that drops the L1 first. -/
namespace Sys2Proof.Proofs
open Sys2Proof.Machine Sys2Proof.Safety Sys2Proof.Claims

/-- A load of one byte that drops the L1 of its core before it reads. -/
def droppingLoad : Access := { uid := 5, kind := .load (some (.s 5)) false 1, locs := [.hbm 0x1000], dropL1 := true }
/-- The load stands out in context 0; the L1 of its core holds 1 for the byte, memory 0. -/
def staleState : State :=
  { m := (({} : Mach).modCtx 0 fun c => { c with out := [droppingLoad] }).modCore 0 fun c => { c with l1 := [(32, [1])] } }

theorem mayPerform_droppingLoad : MayPerform staleState 0 droppingLoad := by
  unfold MayPerform
  decide +kernel
/-- By the L1's copy the load would see 1. -/
theorem loadSees_droppingLoad : loadSees staleState 0 droppingLoad = [1] := rfl
/-- It writes the byte of memory, the copy being dropped. -/
theorem valueWritten_droppingLoad : ((valueWritten staleState.m 0 5).ctx 0).regAt 5 = 0 := rfl

/-- Refutes O48: a load whose `dropL1` is set reads memory after the L1 is gone, and the statement gives its register the bytes the L1 held
before.  `MayPerform` admits such an access; no instruction of the model makes one, and the load clause lacks the hypothesis
`a.dropL1 = false` that the invalidation clause has. -/
theorem not_outstandingAccesses : ¬ Obligations.OutstandingAccesses := by
  rintro ⟨hperform, -⟩
  obtain ⟨hload, -⟩ := hperform staleState 0 droppingLoad mayPerform_droppingLoad
  obtain ⟨t, ht, hctx, -⟩ := hload (some (.s 5)) false 1 rfl
  have hreg : ((valueWritten staleState.m 0 5).ctx 0).regAt 5 = 1 := by
    cases ht
    rw [loadSees_droppingLoad] at hctx
    exact congrArg (Ctx.regAt · 5) hctx
  rw [valueWritten_droppingLoad] at hreg
  cases hreg

end Sys2Proof.Proofs
end

section
/-! SUPPORT. The type instructions of the X slot that install, read or check a type word (08 R158, R159). -/
namespace Sys2Proof.Proofs
open Sys2Proof.Machine Sys2Proof.Safety Sys2Proof.Claims

/-! A slot that reads a type constant keeps its word, which matters only to a bundle that asks. -/

/-- The state with the words of type constants that its bundle has read. -/
def keeping (l : List (Slot × TypeWord)) (s : State) : State := { s with issue := { s.issue with consts := l } }
/-- A bundle that asks for nothing ends as it would without the words it kept. -/
theorem finish_keeping {s : State} (h : s.issue.asks = []) (l : List (Slot × TypeWord)) : finish (keeping l s) = finish s := by
  obtain ⟨m, i, agenda⟩ := s
  unfold finish
  rw [show (keeping l ⟨m, i, agenda⟩).issue.asks = [] from h, h]
  rfl
theorem newLatch_keeping (k : Slot) (i : Instr) (l : List (Slot × TypeWord)) (s : State) :
    newLatch k i (keeping l s) = keeping l (newLatch k i s) := by
  unfold newLatch
  split
  · rfl
  · split <;> rfl

section
variable {s : State} (hs : Solo s) (k : Slot)
include hs

/-- A bundle of one slot that only faults or binds, whatever it does to the machine, runs as it would without the words it kept. -/
theorem runSlot_keeping (i : Instr) {f : State → State} {g : State} {l : List (Slot × TypeWord)} {fs : List (Slot × FaultRec)}
    {bs : List (Slot × List Binding)} (hf : f (begun k s) = keeping l g)
    (hg : g.issue = { (begun k s).issue with faults := fs, binds := bs }) : runSlot k i f s = runSlot k i (fun _ => g) s := by
  obtain ⟨L, hL⟩ := newLatch_only_latches k i g
  have hlast : (newLatch k i g).issue.last = true := by rw [hL, hg, begun_issue hs]
  have hasks : (newLatch k i g).issue.asks = [] := by rw [hL, hg, begun_issue hs]
  rw [runSlot_begun hs, runSlot_begun hs, hf, newLatch_keeping, if_pos hlast]
  exact congrArg Host.Outcome.next ((if_pos hlast).trans (finish_keeping hasks l))
/-- Such a bundle that faults. -/
theorem run_faulted_keeping (i : Instr) {f : State → State} {fr : FaultRec} {m : Mach} {l : List (Slot × TypeWord)}
    (hf : f (begun k s) = keeping l (faultAt k fr { begun k s with m := m })) : runSlot k i f s = .next (trapped k fr s) := by
  have hissue : (faultAt k fr { begun k s with m := m }).issue = { (begun k s).issue with faults := [(k, fr)] } := by
    simp only [faultAt]
    rw [begun_issue hs]
    rfl
  rw [runSlot_keeping hs k i (fs := [(k, fr)]) (bs := []) hf (by rw [hissue, begun_issue hs])]
  exact run_trapped hs k i _ fr hissue rfl
/-- Such a bundle that changes the machine alone. -/
theorem run_clean_keeping (i : Instr) {f : State → State} {m : Mach} {l : List (Slot × TypeWord)}
    (hf : f (begun k s) = keeping l { begun k s with m := m }) (hpc : (m.ctx s.issue.cx).pc = (me s).pc) :
    ∃ t, runSlot k i f s = .next t ∧ Retires k i (nextPc s k) s m t := by
  rw [runSlot_keeping hs k i (fs := []) (bs := []) hf (by rw [begun_issue hs])]
  exact run_clean hs k i _ m rfl hpc

/-- A slot that reads no constant keeps none. -/
theorem keeping_nil : keeping [] (begun k s) = begun k s := by
  have hnil : (begun k s).issue.consts = [] := by rw [begun_issue hs]
  calc keeping [] (begun k s) = keeping (begun k s).issue.consts (begun k s) := by rw [hnil]
    _ = begun k s := rfl
/-- A slot reads its type constant. -/
theorem withTypeConst_begun {i : Nat} {x : TypeWord} (h : ConstIs s i x) (f : TypeWord → State → State) :
    withTypeConst k i f (begun k s) = f x (keeping [(k, x)] (begun k s)) := by
  obtain ⟨hissued, hread⟩ := h
  have hconst : typeRead (begun k s) i = .ok x :=
    (forall_solo (P := fun s => typeRead (begun k s) i = typeRead s i) (fun _ _ _ _ _ _ _ => rfl) hs).trans hread
  have hnil : (begun k s).issue.consts = [] := by rw [begun_issue hs]
  unfold withTypeConst
  rw [preCtx_begun, hissued, hconst, hnil]
  rfl

end

/-! TDECL, TDECLS and TCLEAR. -/

theorem tileCheck_own {s : State} {t : TReg} (h : OwnTile s t) (k : Slot) (pos : Nat) : tileCheck t pos (begun k s) = begun k s := if_pos h

section
variable {s g : State} {t : TReg} {w : TypeWord} (hg : preCtx g = me s)
include hg

theorem installWord_outside (h : ¬OwnTile s t) : installWord t w g = faultAt .x (groupFault 0 (me s).tilesPer (t.toNat % 8)) g := by
  unfold installWord tileCheck
  rw [hg]
  exact (if_neg h).trans (if_neg h)
/-- A word that is zero or passes its check stands in its tile. -/
theorem installWord_passes (h : OwnTile s t) (hw : w = 0 ∨ (bobbinsOf s).checkWord w = .ok ()) :
    installWord t w g = onCtx (fun c => c.setWord t.toNat (TW.canon w)) g := by
  have hcheck : (if w = 0 then .ok () else (bobbinsOf s).checkWord w) = .ok () := by
    split
    · rfl
    · next hne => exact hw.resolve_left hne
  unfold installWord slotEnv
  rw [hg]
  refine (if_pos h).trans ?_
  change (match if w = 0 then .ok () else (bobbinsOf s).checkWord w with | .error _ => _ | .ok _ => _) = _
  rw [hcheck]
theorem installWord_fails (h : OwnTile s t) (hne : w ≠ 0) {f : FaultRec} (hf : (bobbinsOf s).checkWord w = .error f) :
    installWord t w g = faultAt .x f g := by
  unfold installWord slotEnv
  rw [hg]
  refine (if_pos h).trans ?_
  rw [if_neg hne]
  change (match (bobbinsOf s).checkWord w with | .error _ => _ | .ok _ => _) = _
  rw [hf]

end

/-- The effect that each of the three comes to, where the slot that reads a type constant keeps it. -/
theorem exec_installs {s : State} (hs : Solo s) {t : TReg} {idx : BitVec 18} {w : TypeWord} {sa sb : SReg} (hc : ConstIs s idx.toNat w)
    {row : Instr × TypeWord × List RegRef} (h : row ∈ installs s t idx w sa sb) (hr : ∀ r ∈ row.2.2, Free s r) :
    ∃ l, exec row.1 s = runX row.1 (fun s => installWord t row.2.1 (keeping l s)) s := by
  have hnil := keeping_nil hs .x
  simp only [installs, List.mem_cons, List.not_mem_nil, or_false] at h
  rcases h with rfl | rfl | rfl
  · refine ⟨[(.x, w)], ?_⟩
    show execTdecl t idx s = _
    exact runSlot_congr hs .x (.tdecl t idx) (withTypeConst_begun hs .x hc (installWord t))
  · refine ⟨[], ?_⟩
    show execTdecls t sa sb s = runX (.tdecls t sa sb) (fun g => installWord t ((me s).s sb ++ (me s).s sa) (keeping [] g)) s
    unfold execTdecls runX
    refine runSlot_congr hs .x (.tdecls t sa sb) ?_
    rw [reads_free [sr (begun .x s) sa, sr (begun .x s) sb] (begun .x s) hr, hnil]
    rfl
  · refine ⟨[], ?_⟩
    show execTclear t s = _
    exact runSlot_congr hs .x (.tclear t) (congrArg (installWord t 0) hnil.symm)

/-- Settles O18: each of the three comes to `installWord`. -/
theorem typeInstalls : Obligations.TypeInstalls := by
  refine ⟨fun s t idx w sa sb hs hc hown row hrow hr => ?_, fun s t idx w sa sb hs hc hown row hrow hr => ?_⟩
  all_goals
    obtain ⟨l, hl⟩ := exec_installs hs hc hrow hr
    have hctx : preCtx (keeping l (begun .x s)) = me s := rfl
    rw [hl]
  · exact run_faulted_keeping hs .x row.1 (installWord_outside hctx hown)
  · refine ⟨fun hw => ?_, fun f hne hf => ?_⟩
    · exact run_clean_keeping hs .x row.1 (installWord_passes hctx hown hw) (by rw [ctx_modCtx_same]; rfl)
    · exact run_faulted_keeping hs .x row.1 (installWord_fails hctx hown hne hf)

/-! TGET and TEXT. -/

section
variable {s : State} (hs : Solo s) {t : TReg} (hown : OwnTile s t)
include hs

/-- A bundle of one X slot that writes a scalar, with no source that may be pending. -/
theorem runX_wrS (i : Instr) (f : State → State) {sd : SReg} (v : Word) (hd : Free s (reg s sd)) (hf : f (begun .x s) = wrS sd 1 v (begun .x s)) :
    ∃ u, runX i f s = .next u ∧ WritesX s u (reg s sd).dest? 1 v :=
  runX_frozen hs i f [] (reg s sd) 1 v hf nofun (fun _ hq => dest?_eq hq ▸ hd) (le_refl 1) fun _ h => regOf_setRef_sref _ _ _ _ h

include hown
theorem tget_writes {sd : SReg} (high resolve : Bool) (hd : Free s (reg s sd)) :
    ∃ u, exec (.tget sd t high resolve) s = .next u ∧ WritesX s u (reg s sd).dest? 1
      ((if resolve then resolvedWord (bobbinsOf s) (wordOf s t) else wordOf s t).extractLsb' (if high then 64 else 0) 64) := by
  show ∃ u, execTget sd t high resolve s = _ ∧ _
  unfold execTget
  refine runX_wrS hs (.tget sd t high resolve) _ _ hd ?_
  dsimp only
  rw [tileCheck_own hown]
  cases high <;> rfl
theorem text_writes {sd : SReg} (k : BitVec 2) (frame : Bool) (hd : Free s (reg s sd)) :
    ∃ u, exec (.text sd t k frame) s = .next u ∧
      WritesX s u (reg s sd).dest? 1 (BitVec.ofNat 64 (textValue (me s) (wordOf s t) k.toNat frame)) := by
  show ∃ u, execText sd t k frame s = _ ∧ _
  unfold execText
  refine runX_wrS hs (.text sd t k frame) _ _ hd ?_
  rw [tileCheck_own hown]
  rfl

end

/-! TCHK. -/

/-- What TCHK does with the answer of its check. -/
def tchkEnd (pd : PReg) (assert : Bool) (answer : Except FaultRec BEnv) (s : State) : State :=
  match answer, assert with
  | .ok env, true => wrP pd 1 true { s with issue := { s.issue with binds := s.issue.binds ++ [(.x, env.t)] } }
  | .ok _, false => wrP pd 1 true s
  | .error f, true => faultAt .x f (wrP pd 1 true s)
  | .error _, false => wrP pd 1 false s

section
variable {s : State} (hs : Solo s) {t : TReg} {sb : SReg} {x : TypeWord}
include hs

/-- TCHK checks the tile's word against its constant, and ends by the answer. -/
theorem exec_tchk (hown : OwnTile s t) (hb : Free s (reg s sb)) (hc : ConstIs s ((me s).s sb).toNat x) (pd : PReg) (mask : BitVec 4) (assert : Bool) :
    exec (.tchk pd t sb mask assert) s =
      runX (.tchk pd t sb mask assert) (fun s' => tchkEnd pd assert (tchkSeq (bobbinsOf s) x (wordOf s t) mask) (keeping [(.x, x)] s')) s := by
  show execTchk pd t sb mask assert s = _
  unfold execTchk runX
  refine runSlot_congr hs .x (.tchk pd t sb mask assert) ?_
  dsimp only
  rw [reads_sr_begun .x hb, tileCheck_own hown, whenFree, if_neg (by rw [begun_issue hs]; exact nofun), rs_begun, withTypeConst_begun hs .x hc]
  rfl

end

/-- A predicate write changes the machine alone, whatever else the bundle holds. -/
theorem wrP_free {s g : State} (hm : g.m = s.m) (hcx : g.issue.cx = s.issue.cx) (hctx : preCtx g = me s) {pd : PReg} (hd : Free s (pref pd))
    (lat : Nat) (v : Bool) : wrP pd lat v g = { g with m := frozenIn s (pref pd).dest? lat (if v then 1 else 0) } := by
  unfold wrP frozenTo
  cases hq : (pref pd).dest? with
  | none =>
    show g = { g with m := s.m }
    rw [← hm]
  | some q =>
    have hfree : writesFrozen q g = g := writesFrozen_free _ _ fun r hr => by
      rw [dest?_eq hr, dest?_eq hq, hctx]
      exact hd
    dsimp only
    rw [hfree, onCtx, hm, hcx]
    rfl

section
variable {s : State} (hs : Solo s) {pd : PReg} (hd : Free s (pref pd)) (l : List (Slot × TypeWord))
include hd

theorem tchkEnd_ok (env : BEnv) : tchkEnd pd false (.ok env) (keeping l (begun .x s)) = keeping l { begun .x s with m := frozenIn s (pref pd).dest? 1 1 } :=
  wrP_free (g := keeping l (begun .x s)) rfl rfl rfl hd 1 true
theorem tchkEnd_error (f : FaultRec) :
    tchkEnd pd false (.error f) (keeping l (begun .x s)) = keeping l { begun .x s with m := frozenIn s (pref pd).dest? 1 0 } :=
  wrP_free (g := keeping l (begun .x s)) rfl rfl rfl hd 1 false
theorem tchkEnd_asserts_error (f : FaultRec) : tchkEnd pd true (.error f) (keeping l (begun .x s)) =
    keeping l (faultAt .x f { begun .x s with m := frozenIn s (pref pd).dest? 1 1 }) :=
  congrArg (faultAt .x f) (wrP_free (g := keeping l (begun .x s)) rfl rfl rfl hd 1 true)
include hs
theorem tchkEnd_asserts_ok (env : BEnv) : tchkEnd pd true (.ok env) (keeping l (begun .x s)) = keeping l
    { begun .x s with m := frozenIn s (pref pd).dest? 1 1, issue := { (begun .x s).issue with binds := [(.x, env.t)] } } := by
  have hnil : (begun .x s).issue.binds = [] := by rw [begun_issue hs]
  unfold tchkEnd
  dsimp only
  rw [show (keeping l (begun .x s)).issue.binds = [] from hnil]
  refine wrP_free (s := s) ?_ ?_ ?_ hd 1 true <;> rfl

end

/-- A bundle of one X slot that writes a predicate, whatever constant it keeps. -/
theorem runX_wrP_keeping {s : State} (hs : Solo s) (i : Instr) (f : State → State) {pd : PReg} (hd : Free s (pref pd)) (v : Bool)
    {l : List (Slot × TypeWord)} (hf : f (begun .x s) = keeping l { begun .x s with m := frozenIn s (pref pd).dest? 1 (if v then 1 else 0) }) :
    ∃ u, runX i f s = .next u ∧ WritesX s u (pref pd).dest? 1 (if v then 1 else 0) := by
  rw [runX, runSlot_keeping hs .x i (fs := []) (bs := []) hf (by rw [begun_issue hs])]
  exact runX_frozen hs i _ [] (pref pd) 1 _ (frozenTo_begun .x _ _ _ fun _ hq => dest?_eq hq ▸ hd).symm nofun (fun _ hq => dest?_eq hq ▸ hd)
    (le_refl 1) fun _ h => regOf_setRef_pref _ _ _ h

/-- TCHK with assert, its check passed, keeps its bindings (08 R159). -/
theorem tchk_binds {s : State} (hs : Solo s) (i : Instr) (f : State → State) {pd : PReg} (hd : Free s (pref pd)) (env : BEnv)
    {l : List (Slot × TypeWord)} (hf : f (begun .x s) = tchkEnd pd true (.ok env) (keeping l (begun .x s))) :
    ∃ u, runX i f s = .next u ∧ Retires .x i (nextPc s .x) s ((frozenIn s (pref pd).dest? 1 1).modCtx s.issue.cx fun c => c.bindAll env.t) u := by
  rw [runX, runSlot_keeping hs .x i (fs := []) (bs := [(.x, env.t)]) (hf.trans (tchkEnd_asserts_ok hs hd l env)) (by rw [begun_issue hs])]
  exact run_retires hs .x i _ [(.x, env.t)] env.t none none none rfl (by rw [begun_issue hs]) (mergeBinds_one _ _) (bindClashes_one _ _) rfl
    (pc_frozenIn _ _ _ _)

/-- Settles O19: TGET and TEXT write what they read, and TCHK ends by its check. -/
theorem typeReads : Obligations.TypeReads := by
  refine ⟨fun s sd t high resolve hs hown hd => tget_writes hs hown high resolve hd, fun s sd t k frame hs hown hd => text_writes hs hown k frame hd,
    fun s pd t sb mask x env hs hown hb hd hc hok => ?passes, fun s pd t sb mask x f hs hown hb hd hc herr => ?fails⟩
  case passes =>
    rw [exec_tchk hs hown hb hc, exec_tchk hs hown hb hc, hok]
    exact ⟨runX_wrP_keeping hs _ _ hd true (tchkEnd_ok hd _ env), tchk_binds hs _ _ hd env rfl⟩
  case fails =>
    rw [exec_tchk hs hown hb hc, exec_tchk hs hown hb hc, herr]
    exact ⟨runX_wrP_keeping hs _ _ hd false (tchkEnd_error hd _ f), run_faulted_keeping hs .x _ (tchkEnd_asserts_error hd _ f)⟩

end Sys2Proof.Proofs
end

section
/-! SUPPORT. BIND, UNBIND and BGET (02 R29; 08 R159). -/
namespace Sys2Proof.Proofs
open Sys2Proof.Machine Sys2Proof.Safety Sys2Proof.Claims

/-- A bundle of one slot that retires over a change of its context moves nothing else. -/
theorem onlyCtx_of_retires {k : Slot} {i : Instr} {npc : Word} {s t : State} {f : Ctx → Ctx}
    (h : Retires k i npc s (s.m.modCtx s.issue.cx f) t) : OnlyCtx s t :=
  ⟨h.machine, fun l => (h.memory l).trans (read_modCtx _ _ _ _), fun j hj => (h.others j hj).trans (ctx_modCtx_ne _ _ (Ne.symm hj)), h.cores,
    h.issue⟩

/-! BIND. -/

section
variable {s : State} (hs : Solo s) {b : BReg} {sa : SReg} (ha : Free s (reg s sa))
include hs ha

/-- BIND of a value that its bobbin takes. -/
theorem bind_retires (hle : ((me s).s sa).toNat ≤ 0x7FFFFF)
    (hold : (mget ({} : Bobbin) (me s).bobbins b.toNat).bound = true →
      (mget ({} : Bobbin) (me s).bobbins b.toNat).value.toNat = ((me s).s sa).toNat) :
    ∃ t, exec (.bind b sa) s = .next t ∧ Retires .x (.bind b sa) (nextPc s .x) s
      (s.m.modCtx s.issue.cx fun c =>
        { c with bobbins := mset c.bobbins b.toNat { bound := true, value := ((me s).s sa).setWidth 23 } }) t := by
  have hnil : (begun .x s).issue.binds = [] := by rw [begun_issue hs]
  rw [← BitVec.ofNat_toNat 23 ((me s).s sa)]
  show ∃ t, execBind b sa s = _ ∧ _
  unfold execBind
  refine run_retires hs .x (.bind b sa) _ [(.x, [⟨b.toNat, ((me s).s sa).toNat, 0, 0⟩])] [⟨b.toNat, ((me s).s sa).toNat, 0, 0⟩] none none none
    (g := { begun .x s with issue := { (begun .x s).issue with binds := [(.x, [⟨b.toNat, ((me s).s sa).toNat, 0, 0⟩])] } }) ?_
    (by rw [begun_issue hs]) (mergeBinds_one _ _) (bindClashes_one _ _) rfl rfl
  dsimp only
  rw [reads_sr_begun .x ha, preCtx_begun, rs_begun, if_neg (Nat.not_lt.2 hle), if_neg, hnil]
  · rfl
  · simpa using hold
/-- BIND of a value that no extent takes. -/
theorem bind_tooLarge (hlt : 0x7FFFFF < ((me s).s sa).toNat) : exec (.bind b sa) s =
    .next (trapped .x ((bobbinsOf s).fault fEXT0 0 (some b.toNat) 0x7FFFFF ((me s).s sa).toNat) s) := by
  show execBind b sa s = _
  unfold execBind
  refine run_faulted hs .x (.bind b sa) _ _ ?_
  dsimp only
  rw [reads_sr_begun .x ha, rs_begun, if_pos hlt]
  rfl
/-- BIND of a bobbin that is bound to another value. -/
theorem bind_clashes (hle : ((me s).s sa).toNat ≤ 0x7FFFFF) (hbound : (mget ({} : Bobbin) (me s).bobbins b.toNat).bound = true)
    (hne : (mget ({} : Bobbin) (me s).bobbins b.toNat).value.toNat ≠ ((me s).s sa).toNat) : exec (.bind b sa) s =
    .next (trapped .x ((bobbinsOf s).fault fEXT0 0 (some b.toNat) (mget ({} : Bobbin) (me s).bobbins b.toNat).value.toNat
      ((me s).s sa).toNat) s) := by
  show execBind b sa s = _
  unfold execBind
  refine run_faulted hs .x (.bind b sa) _ _ ?_
  dsimp only
  rw [reads_sr_begun .x ha, preCtx_begun, rs_begun, if_neg (Nat.not_lt.2 hle), if_pos (Bool.and_eq_true_iff.2 ⟨hbound, bne_iff_ne.2 hne⟩)]
  rfl

end

/-! UNBIND. -/

/-- The bobbins that `p` names, unbound one after another. -/
theorem mget_foldl_unbind (p : Nat → Bool) (l : List Nat) (t : Mp Bobbin) (i : Nat) :
    mget {} (l.foldl (fun m j => if p j then mset m j {} else m) t) i = if i ∈ l ∧ p i then {} else mget {} t i := by
  induction l generalizing t with
  | nil => simp
  | cons j l ih =>
    rw [List.foldl_cons, ih]
    cases hp : p j with
    | true =>
      rw [if_pos rfl, mget_mset]
      by_cases hj : j = i
      · subst hj
        simp [hp]
      · simp [hj, Ne.symm hj]
    | false =>
      by_cases hj : i = j
      · subst hj
        simp [hp]
      · simp [hj]

/-- Due writes leave the bobbins. -/
theorem setRef_bobbins (c : Ctx) (r : RegRef) (v : Word) (b : Mp Bobbin) : ({ c with bobbins := b } : Ctx).setRef r v = { c.setRef r v with bobbins := b } := by
  cases r <;> simp only [Ctx.setRef, Ctx.setRegAt, Ctx.setPredAt] <;> split <;> rfl
theorem foldl_setRef_bobbins (l : List FrozenW) (c : Ctx) (b : Mp Bobbin) :
    l.foldl (fun c w => c.setRef w.reg w.val) { c with bobbins := b } = { l.foldl (fun c w => c.setRef w.reg w.val) c with bobbins := b } := by
  induction l generalizing c with
  | nil => rfl
  | cons w l ih => rw [List.foldl_cons, setRef_bobbins, ih, List.foldl_cons]
theorem settled_bobbins (c : Ctx) (npc : Word) (b : Mp Bobbin) : settled { c with bobbins := b } npc = { settled c npc with bobbins := b } := by
  unfold settled Ctx.tickFrozen
  dsimp only
  rw [foldl_setRef_bobbins]
  rfl

/-- The bobbins without those of a mask. -/
def unbound (mask : BitVec 16) (t : Mp Bobbin) : Mp Bobbin :=
  (upFrom 0 16).foldl (fun m i => if mask.getLsbD i then mset m i {} else m) t
theorem mget_unbound (mask : BitVec 16) (t : Mp Bobbin) {i : Nat} (h : i < 16) :
    mget ({} : Bobbin) (unbound mask t) i = if mask.getLsbD i then {} else mget {} t i := by
  rw [unbound, mget_foldl_unbind mask.getLsbD]
  simp [mem_upFrom, h]

theorem unbind_unbinds {s : State} (hs : Solo s) (mask : BitVec 16) : ∃ t, exec (.unbind mask) s = .next t ∧ OnlyCtx s t ∧
    meIn s t = { settled (me s) (nextPc s .x) with bobbins := unbound mask (me s).bobbins } := by
  obtain ⟨t, ht, hret⟩ := run_clean hs .x (.unbind mask) (onCtx fun c => { c with bobbins := unbound mask c.bobbins })
    (s.m.modCtx s.issue.cx fun c => { c with bobbins := unbound mask c.bobbins }) rfl (by rw [ctx_modCtx_same]; rfl)
  refine ⟨t, ht, onlyCtx_of_retires hret, ?_⟩
  rw [hret.here, ctx_modCtx_same]
  exact settled_bobbins (me s) _ _

/-! BGET. -/

/-- A bundle whose one slot reads bobbin `n` into `r`, and that binds none, writes it as it retires (08 R159). -/
theorem run_bget {s : State} (hs : Solo s) (i : Instr) (f : State → State) (r : RegRef) (n : Nat)
    (hf : f (begun .x s) = { begun .x s with issue := { (begun .x s).issue with bget := [(r, n)] } }) :
    runX i f s = .next { s with
      m := (retired s (settled (me s) (nextPc s .x))).modCtx s.issue.cx fun c => c.setRef r (bobbinWord (me s) n), issue := {} } := by
  have hi : (f (begun .x s)).issue =
      { cx := s.issue.cx, len := (begun .x s).issue.len, yield := s.issue.yield, offset := s.issue.offset, replayed := s.issue.replayed,
        old := some s.m, bget := [(r, n)] } := by
    rw [hf, begun_issue hs]
  rw [runX, runSlot_solo hs _ _ _ (by rw [newLatch_x, hi]), newLatch_x]
  unfold finish
  simp only [pre, hi, mergeBinds, bindClashes, firstFault, bgetStalls, List.flatMap_nil, List.append_nil, List.foldl_nil, List.any_nil,
    List.any_cons, Bool.false_and, Bool.or_self, Bool.false_eq_true, if_false, List.isEmpty_nil, if_true]
  unfold commit
  simp only [hi, bindAll_nil, List.foldl_nil, List.foldl_cons, List.any_nil, Option.getD_none, setLatches_latches, Option.isSome_none,
    Bool.false_eq_true, if_false]
  rw [hf]
  rfl

theorem bget_reads {s : State} (hs : Solo s) {sd : SReg} (b : BReg) (hd : Free s (reg s sd)) :
    ∃ t, exec (.bget sd b) s = .next t ∧ OnlyCtx s t ∧
      meIn s t = match (reg s sd).dest? with
        | some r => (settled (me s) (nextPc s .x)).setRef r (bobbinWord (me s) b.toNat)
        | none => settled (me s) (nextPc s .x) := by
  show ∃ t, execBget sd b s = _ ∧ _
  unfold execBget
  cases hdest : (reg s sd).dest? with
  | none =>
    refine ⟨_, run_closing hs (.bget sd b) _ none false none ?_, onlyCtx_retired s _, ctx_retired_same s _⟩
    have hissue : { (begun .x s).issue with target := none, ends := false, tret := none } = (begun .x s).issue := by rw [begun_issue hs]
    show (match (reg s sd).dest? with | none => _ | some r => _) = _
    rw [hdest, closing, hissue]
  | some r =>
    have hfree : writesFrozen r (begun .x s) = begun .x s := writesFrozen_free _ _ fun q hq => by rw [dest?_eq hq, dest?_eq hdest]; exact hd
    have hnil : (begun .x s).issue.bget = [] := by rw [begun_issue hs]
    refine ⟨_, run_bget hs (.bget sd b) _ r b.toNat ?_, onlyCtx_modCtx (onlyCtx_retired s _) _, ?_⟩
    · show (match (reg s sd).dest? with | none => _ | some r => _) = _
      rw [hdest]
      dsimp only
      rw [hfree, hnil]
      rfl
    · exact (ctx_modCtx_same _ _ _).trans (congrArg (fun c : Ctx => c.setRef r (bobbinWord (me s) b.toNat)) (ctx_retired_same s _))

/-- Settles O20: BIND's three cases, the bobbins of a mask, and the committed bobbin. -/
theorem bobbins : Obligations.Bobbins := by
  refine ⟨fun s b sa hs ha hle hold => bind_retires hs ha hle hold, fun s b sa hs ha => ⟨fun hlt => bind_tooLarge hs ha hlt, fun hle hbound hne =>
    bind_clashes hs ha hle hbound hne⟩, fun s mask hs => ?unbind, fun s sd b hs hd => bget_reads hs b hd⟩
  obtain ⟨t, ht, honly, hme⟩ := unbind_unbinds hs mask
  refine ⟨t, ht, honly, by rw [hme], fun i hi => ?_⟩
  rw [hme]
  exact mget_unbound mask (me s).bobbins hi

end Sys2Proof.Proofs
end

section
/-! SUPPORT. V and M slots that queue their operation (08 R148 to R152; 09 R163; 11 R194 to R212). -/
namespace Sys2Proof.Proofs
open Sys2Proof.Machine Sys2Proof.Safety Sys2Proof.Claims

/-! Counter positions (03 R56). -/

theorem coinIf_eq (v : VSlot) (b : Typed → Bool) (t : Typed) : coinIf v b t = if b t then Claims.coin v 0 else 0 := by
  cases h : b t <;> simp [coinIf, stochastic, Claims.coin, h]
theorem coinIf_true (v : VSlot) : (coinIf v fun _ => true) = fun _ => Claims.coin v 0 := funext fun t => coinIf_eq v _ t
theorem vbcast_positions (v : VSlot) :
    (coinIf v fun t => TW.fmt (t.ty 0) != 0x13) = fun t => if TW.fmt (t.ty 0) = 0x13 then 0 else Claims.coin v 0 := by
  funext t
  simp [coinIf_eq]
theorem viota_positions (v : VSlot) :
    (coinIf v fun t => TW.fmt (t.ty 0) == 0x01) = fun t => if TW.fmt (t.ty 0) = 0x01 then Claims.coin v 0 else 0 := by
  funext t
  simp [coinIf_eq]
theorem vcompact_positions (v : VSlot) :
    (coinIf v fun t => decide (2 ≤ TW.geom (t.ty 1))) = fun t => if 2 ≤ TW.geom (t.ty 1) then Claims.coin v 0 else 0 := by
  funext t
  simp [coinIf_eq]
theorem vperm_positions (v : VSlot) :
    (coinIf v fun t => !(TW.fmt (t.ty 0) == TW.fmt (t.ty 1) && TW.geom (t.ty 0) == TW.geom (t.ty 1) && decide (TW.geom (t.ty 1) ≤ 1))) =
      fun t => if TW.fmt (t.ty 0) = TW.fmt (t.ty 1) ∧ TW.geom (t.ty 0) = TW.geom (t.ty 1) ∧ TW.geom (t.ty 1) ≤ 1 then 0 else Claims.coin v 0 := by
  funext t
  rw [coinIf_eq]
  by_cases h : TW.fmt (t.ty 0) = TW.fmt (t.ty 1) ∧ TW.geom (t.ty 0) = TW.geom (t.ty 1) ∧ TW.geom (t.ty 1) ≤ 1
  · rw [if_pos h]
    simp [h]
  · rw [if_neg h, if_pos]
    simpa [imp_iff_not_or, or_assoc] using h
theorem stochastic_two (v : VSlot) : (if stochastic v 2 then 1 else 0) = Claims.coin v 2 := by
  simp [stochastic, Claims.coin]

/-! The plans of the rules. -/

/-- A slot whose words pass their rule plans the operation that they type. -/
theorem planOf_ok {s : State} {k : Slot} {i : Instr} {r : Rule} {groups : Bool} {td ta tb tc : TReg} {t : Typed}
    (h : typing s r groups td ta tb tc = .ok t) (capA : Word) (draws : Typed → Nat) :
    planOf i r groups td ta tb tc capA draws (begun k s) = .ok
      { op := some { newOp i with capA := capA, types := t.types, exts := t.exts },
        td := t.word.map fun w => (td.toNat, w), binds := t.env.t, draws := draws t } := by
  have hplan : planOf i r groups td ta tb tc capA draws (begun k s) = (typing s r groups td ta tb tc >>= fun t => .ok
      { op := some { newOp i with capA := capA, types := t.types, exts := t.exts },
        td := t.word.map fun w => (td.toNat, w), binds := t.env.t, draws := draws t }) := rfl
  rw [hplan, h]
  rfl

/-- The instruction is the V slot of this rule, with these counter positions. -/
def RunsV (row : Instr) (p : Pipe) (v : VSlot) (r : Rule) (draws : Typed → Nat) : Prop := ∀ s, exec row s = issueV row p v r draws s

section
variable {row : Instr} {p : Pipe} {v : VSlot} {r : Rule} {d e : Typed → Nat}

theorem RunsV.congr (h : RunsV row p v r d) (he : d = e) : RunsV row p v r e := he ▸ h
/-- A V slot whose words pass its rule queues its operation. -/
theorem RunsV.queues (h : RunsV row p v r d) (hrow : IsIssueV row p v r) {s : State} (hs : Solo s) (hsx : Free s (reg s v.sx))
    (hq : MayQueue s (pipeQueue p) v.kd) {t : Typed} (ht : typing s r false v.td v.ta v.tb v.tc = .ok t) :
    ∃ u, exec row s = .next u ∧ Queues p.slot (pipeQueue p) row s (vOp s v t (d t)) u := by
  obtain ⟨hroom, hkd⟩ := hq
  rw [h]
  exact engine_queues hs p.slot (pipeQueue p) row _ [sr s v.sx] false (fun s => planOf row r false v.td v.ta v.tb v.tc (rs s v.sx) d s) _ _ _ _
    (by simpa [sr_solo hs] using hsx) hrow.2 hkd hroom (planOf_ok ht ((me s).s v.sx) d) rfl rfl ⟨rfl, rfl⟩

end

/-- A chained row takes its coin (03 R56). -/
theorem runsV_chainTable {p : Pipe} {v : VSlot} {row : Instr × Rule × Bool} (h : row ∈ chainTable p v) :
    RunsV row.1 p v (withChain row.2.1 row.2.2 v.op2.toNat v.op3.toNat) fun _ => Claims.coin v 0 := by
  rw [← coinIf_true]
  simp only [chainTable, List.mem_cons, List.not_mem_nil, or_false] at h
  rcases h with rfl | rfl | rfl | rfl | rfl | rfl | rfl | rfl | rfl | rfl | rfl | rfl | rfl | rfl | rfl | rfl | rfl | rfl
  all_goals exact fun _ => rfl

/-- The positions of the rows without chain are those of their rules. -/
theorem runsV_plainTable (p : Pipe) (v : VSlot) : ∀ row ∈ plainTable p v, RunsV row.1 p v row.2.1 row.2.2 := by
  simp only [plainTable, List.forall_mem_cons]
  refine ⟨?vand, ?vor, ?vxor, ?vshl, ?vshr, ?vcmp, .congr ?vbcast (vbcast_positions v), .congr ?viota (viota_positions v), ?vmask, ?vmov,
    .congr ?vcvt (coinIf_true v), .congr ?vcvtq (funext fun _ => stochastic_two v), .congr ?vcvts (coinIf_true v), List.forall_mem_nil _⟩
  all_goals exact fun _ => rfl
theorem runsV_reduceTable (p : Pipe) (v : VSlot) : ∀ row ∈ reduceTable p v, RunsV row.1 p v row.2.1 row.2.2 := by
  simp only [reduceTable, List.forall_mem_cons]
  refine ⟨.congr ?vrsum (coinIf_true v), .congr ?vrmax (coinIf_true v), .congr ?vrmin (coinIf_true v), .congr ?vrlse (coinIf_true v), ?vrargmax,
    ?vrdraw, .congr ?vscan (coinIf_true v), ?vdmerge, .congr ?vcompact (vcompact_positions v), .congr ?vperm (vperm_positions v), ?vroute,
    ?vhist, List.forall_mem_nil _⟩
  all_goals exact fun _ => rfl

/-- Settles O36: each chained row is a V slot that takes its coin. -/
theorem chainedVectorSlots : Obligations.ChainedVectorSlots := fun _ _ _ hs hsx hq _ hrow _ ht =>
  (runsV_chainTable hrow).queues (isIssueV_chainTable hrow) hs hsx hq ht

/-- Settles O37: each row is a V slot that takes the positions of its rule. -/
theorem plainVectorSlots : Obligations.PlainVectorSlots := by
  intro p v s hs hsx hq row hrow t ht
  rcases List.mem_append.1 hrow with h | h
  · exact (runsV_plainTable p v row h).queues (isIssueV_plainTable h) hs hsx hq ht
  · exact (runsV_reduceTable p v row h).queues (isIssueV_reduceTable h) hs hsx hq ht

/-- Settles O39: each M row is an engine slot of the matrix queue. -/
theorem matrixSlots : Obligations.MatrixSlots := by
  intro m s hs hq row hrow t ht
  obtain ⟨hexec, htok⟩ := exec_mTable hrow s
  obtain ⟨hroom, hkd⟩ := hq
  rw [hexec]
  exact engine_queues hs .m .m row.1 _ [] false _ _ _ _ _ (by simp) htok hkd hroom (planOf_ok ht 0 fun _ => 0) rfl rfl ⟨rfl, rfl⟩

end Sys2Proof.Proofs
end

section
/-! SUPPORT. A type constant with a reserved bit set (02 R17; 08 R155). -/
namespace Sys2Proof.Proofs
open Sys2Proof.Machine Sys2Proof.Safety Sys2Proof.Claims

/-- A rank-0 FP32 word. -/
def scalarWord : TypeWord := mkType [] 1 0 0 0 false
/-- The same with bit 20 set, which 02 R17 reserves. -/
def reservedWord : TypeWord := scalarWord ||| BitVec.ofNat 128 (2 ^ 20)
/-- Context 0 has the FP32 word in tile 0; its launch has one type constant, at address 0, whose line the instruction cache of core 0 holds. -/
def reservedState : State :=
  { m := (({ ({} : Mach) with
        launches := [{ lid := 0, home := 0, kernel := { typeCount := 1 } }] }.modCtx 0 fun c =>
      { c.setWord 0 scalarWord with launch := some 0, tilesPer := 8 }).modCore 0 fun c => { c with icache := [(0, leBytes 128 reservedWord.toNat)] }) }

theorem constIs_reservedWord : ConstIs reservedState 0 reservedWord := ⟨rfl, rfl⟩
/-- The plan of a VRESHAPE in place to the word as it stands in the table. -/
theorem viewPlan_reservedWord : viewPlan (.vreshape .p0 {}) {} ((me reservedState).s 0) reservedState (reshapeSteps 0 0 reservedWord) =
    .ok { op := none, td := some (0, reservedWord) } := by decide +kernel
/-- The word of a tile of the issuing context after an instruction. -/
def wordAfter (i : Instr) (s : State) (t : Nat) : TypeWord :=
  match exec i s with
  | .next u => ((meIn s u).tile t).word
  | _ => 0
theorem wordAfter_of_next {i : Instr} {s u : State} (h : exec i s = .next u) (t : Nat) : wordAfter i s t = ((meIn s u).tile t).word := by
  rw [wordAfter, h]
/-- The model installs the word with its reserved bit zero. -/
theorem wordAfter_vreshape : wordAfter (.vreshape .p0 {}) reservedState 0 = scalarWord := by decide +kernel

/-- Retiring and its latch leave the tiles. -/
theorem tile_settled (c : Ctx) (npc : Word) (t : Nat) : (settled c npc).tile t = c.tile t := by
  rw [settled, tickFrozen_regs]
  rfl
theorem tile_latched (k : Slot) (i : Instr) (s : State) (c : Ctx) (t : Nat) : (latched k i s c).tile t = c.tile t := by
  unfold latched Ctx.setLatches
  split
  · rfl
  · split
    · split <;> rfl
    · rfl
/-- A word that a retiring bundle installs stands in its tile. -/
theorem word_of_retires_setWord {k : Slot} {i : Instr} {npc : Word} {s u : State} {t : Nat} {w : TypeWord} {l : List Binding}
    (h : Retires k i npc s (onMe s s.m fun c => (c.setWord t w).bindAll l) u) : ((meIn s u).tile t).word = w := by
  rw [h.here, tile_settled, tile_latched, onMe, ctx_modCtx_same]
  exact congrArg Tile.word (tile_setTile_same (s.m.ctx s.issue.cx) t _)

/-- Refutes O38: of a type constant with a reserved bit set VRESHAPE and VCAST take the canonical form (02 R17), and the statement's table
takes the constant as it stands; in place it has td get bit 20, which the model leaves zero. -/
theorem not_viewSlots : ¬ Obligations.ViewSlots := by
  intro h
  obtain ⟨-, htypeOnly⟩ := h .p0 {} reservedState reservedWord _ rfl (by unfold Free; decide +kernel) rfl constIs_reservedWord
    (.vreshape .p0 {}, reshapeSteps 0 0 reservedWord) (List.mem_cons_self ..) viewPlan_reservedWord
  obtain ⟨u, hu, hretires⟩ := htypeOnly (0, reservedWord) rfl rfl (by decide +kernel)
  have hword : scalarWord = reservedWord :=
    wordAfter_vreshape.symm.trans ((wordAfter_of_next hu 0).trans (word_of_retires_setWord hretires))
  exact absurd hword (by decide)

end Sys2Proof.Proofs
end

section
/-! SUPPORT. A GATHER that starts beside an operation of its own number (13 R258). -/
namespace Sys2Proof.Proofs
open Sys2Proof.Machine Sys2Proof.Safety Sys2Proof.Claims

/-- A GATHER of four rows, its list of indices at address 0. -/
def fourRows : EOp := { uid := 1, cx := 0, q := .c, instr := .gather {}, word := 0, pc := 0, exts := [[], [4, 4], [], []] }
/-- A GATHER of two rows under the same number. -/
def twoRows : EOp := { fourRows with exts := [[], [2, 4], [], []] }
/-- Both wait in core 0, which has translated the page at address 0. -/
def twinState : State :=
  { m := ({} : Mach).modCore 0 fun c => { c with ops := [fourRows, twoRows], tlb := [⟨0, 2 ^ 30, 0x1F⟩] } }

theorem mayStartCopy_fourRows : MayStartCopy twinState 0 fourRows :=
  ⟨by unfold MayStart; decide +kernel, rfl, rfl, by decide +kernel, by decide +kernel⟩
/-- The list that it reads at its start. -/
theorem engRead_fourRows : engRead twinState.m 0 0 16 = .ok (List.replicate 16 0) := rfl

/-- How many rows each operation of core 0 holds an index of. -/
def indexedRows (m : Mach) : List Nat := (m.core 0).ops.map fun e => e.index.length
/-- The model gives every operation of the number the list of the one that starts. -/
theorem indexedRows_copyStart : indexedRows (copyStart twinState.m 0 1) = [4, 4] := by decide +kernel
/-- The statement gives each an index for every row of its own region. -/
theorem indexedRows_stated : indexedRows (twinState.m.modOp 0 1 fun o => { o with
    started := true
    index := (upFrom 0 ((o.exts.getD 1 []).headD 0)).map fun i =>
      unsgn 64 (sgn 32 (fld (List.replicate 16 0) (4 * i) 4) + o.capB.toNat) }) = [4, 2] := by decide +kernel

/-- Refutes O50: where two operations of a core have one number, the clause on the start of a GATHER counts the rows of each by its own
extents, and the model by those of the one that starts.  `MayStartCopy` admits such a state; `Mach.enqueue` numbers operations apart, and
the clause lacks the hypothesis that no other operation of the core has the number. -/
theorem not_engineOperations : ¬ Obligations.EngineOperations := by
  rintro ⟨hstarts, -⟩
  obtain ⟨-, -, hcopy⟩ := hstarts twinState 0 fourRows mayStartCopy_fourRows.1 rfl
  obtain ⟨-, hrows⟩ := hcopy mayStartCopy_fourRows rfl
  have hstart := hrows (List.replicate 16 0) {} (.inl rfl) (by decide) engRead_fourRows
  have hm : copyStart twinState.m 0 1 = _ := congrArg State.m (Host.Outcome.next.inj hstart)
  exact absurd (indexedRows_copyStart.symm.trans ((congrArg indexedRows hm).trans indexedRows_stated)) (by decide)

end Sys2Proof.Proofs
end

section
/-! SUPPORT. Accesses of the G slot: the address, the registers it waits for, and what an access that fails its checks does
(06 R111; 12 R215, R216, R235; 13 R237). -/
namespace Sys2Proof.Proofs
open Sys2Proof.Machine Sys2Proof.Safety Sys2Proof.Claims

/-! The address and the registers over a fresh bundle. -/

@[simp] theorem gNat_begun (k : Slot) (s : State) (g : GSlot) : gNat (begun k s) g = numOf s g := rfl
/-- The register that a slot names, over the fresh bundle. -/
theorem sr_begun_eq_reg (k : Slot) (s : State) (r : SReg) : sr (begun k s) r = reg s r := rfl
/-- The fault records of the model carry the address as a number, the statements as a word. -/
theorem ofNat_numOf (s : State) (g : GSlot) : BitVec.ofNat 64 (numOf s g) = addrOf s g := by
  rw [numOf, BitVec.ofNat_toNat, BitVec.setWidth_eq]
theorem alignFault_numOf (s : State) (g : GSlot) : alignFault (numOf s g) = { cause := 0x08, addr := addrOf s g } := by
  rw [alignFault, ofNat_numOf]
/-- The launch of a fresh bundle's context and its windows are read in the machine itself. -/
theorem preLaunch_solo {s : State} (hs : Solo s) : preLaunch s = myLaunch s := by rw [preLaunch, pre, Solo.old hs]; rfl
theorem windowOf_begun {s : State} (hs : Solo s) (k : Slot) (w : BitVec 8) : windowOf (begun k s) w = windowOf s w := by
  rw [windowOf, windowOf, preLaunch_begun, preLaunch_solo hs]

/-- A slot whose registers are free goes on over the fresh bundle. -/
theorem whenFree_begun {s : State} (hs : Solo s) (k : Slot) (f : State → State) : whenFree f (begun k s) = f (begun k s) := by
  rw [whenFree, begun_issue hs]
  exact if_neg (by simp)
theorem reads_begun {s : State} {k : Slot} {l : List RegRef} (h : ∀ r ∈ l, Free s r) : reads l (begun k s) = begun k s := reads_free _ _ h
theorem reads_addr {s : State} {g : GSlot} (h : AddrFree s g) : ∀ r ∈ gSources (begun .g s) g, Free s r :=
  List.forall_mem_cons.2 ⟨h.1, List.forall_mem_singleton.2 h.2⟩
theorem writesPending_begun {s : State} {k : Slot} {r : RegRef} (h : Open s r) : writesPending r (begun k s) = begun k s :=
  writesPending_open _ _ h

/-! An access: ALIGNMENT, then what its address names (R237). -/

/-- What an access of `n` bytes makes of its fresh bundle. -/
def accessEffect (s : State) (g : GSlot) (n : Nat) (p : Perm) (onLocs : List Loc → State → State) (onNotify : Nat → Nat → State → State) : State :=
  if numOf s g % n ≠ 0 then faultAt .g { cause := 0x08, addr := addrOf s g } (begun .g s)
  else withRes .g (namesAt s g n p) p.isWrite onLocs onNotify (begun .g s)
/-- The instruction is an access, whose bundle does what `onLocs` says with the bytes its address names and what `onNotify` says with a
notify register. -/
def RunsAccess (s : State) (i : Instr) (g : GSlot) (n : Nat) (p : Perm) (onLocs : List Loc → State → State)
    (onNotify : Nat → Nat → State → State) : Prop :=
  ∃ f, exec i s = runSlot .g i f s ∧ f (begun .g s) = accessEffect s g n p onLocs onNotify

/-- An aperture address beyond its reservation or seat is the fault of that, for a load or a store (R213, R235). -/
theorem resolveAt_of_apertureFault {s : State} {a n : Nat} {p : Perm} {f : FaultRec} (h : ApertureFault s a n p.isWrite f) :
    resolveAt s.m s.issue.cx a n [p] = .fault f := by
  have hrange : globalTop ≤ a ∧ localBase ≤ a ∧ a < peerBase + 0x1000000 := by
    have hgl : globalTop ≤ localBase := by decide
    have hlp : localBase ≤ peerBase := by decide
    rcases h with ⟨h1, h2, -⟩ | ⟨h1, h2, -⟩ | ⟨h1, h2, -⟩ <;> omega
  obtain ⟨hg, hl, hp⟩ := hrange
  have hw : [p].any Perm.isWrite = p.isWrite := Bool.or_false _
  unfold resolveAt
  dsimp only
  rw [if_neg (Nat.not_lt.2 hg), if_pos (by simp [hl, hp]), hw]
  exact scratchAt_of_apertureFault h

section
variable {s : State} (hs : Solo s) {i : Instr} {g : GSlot} {n : Nat} {p : Perm} {onLocs : List Loc → State → State}
  {onNotify : Nat → Nat → State → State} (h : RunsAccess s i g n p onLocs onNotify)
include h

/-- An aligned access does what its address says. -/
theorem RunsAccess.aligned (ha : numOf s g % n = 0) :
    ∃ f, exec i s = runSlot .g i f s ∧ f (begun .g s) = withRes .g (namesAt s g n p) p.isWrite onLocs onNotify (begun .g s) := by
  obtain ⟨f, he, hf⟩ := h
  exact ⟨f, he, hf.trans (if_neg (not_not.2 ha))⟩

include hs

theorem RunsAccess.misaligned (ha : numOf s g % n ≠ 0) : exec i s = .next (trapped .g { cause := 0x08, addr := addrOf s g } s) := by
  obtain ⟨f, he, hf⟩ := h
  rw [he]
  exact run_faulted hs .g i f _ (hf.trans (if_pos ha))
theorem RunsAccess.unresolved (ha : numOf s g % n = 0) {fr : FaultRec}
    (hn : namesAt s g n p = .fault fr ∨ ApertureFault s (numOf s g) n p.isWrite fr) : exec i s = .next (trapped .g fr s) := by
  have hname : namesAt s g n p = .fault fr := hn.elim id resolveAt_of_apertureFault
  obtain ⟨f, he, hf⟩ := h.aligned ha
  rw [he]
  exact run_faulted hs .g i f fr (by rw [hf, hname]; rfl)
theorem RunsAccess.faultsAtLocs (ha : numOf s g % n = 0) {ls : List Loc} (hn : namesAt s g n p = .locs ls) {fr : FaultRec}
    (hf : onLocs ls (begun .g s) = faultAt .g fr (begun .g s)) : exec i s = .next (trapped .g fr s) := by
  obtain ⟨f, he, hfe⟩ := h.aligned ha
  rw [he]
  exact run_faulted hs .g i f fr (by rw [hfe, hn]; exact hf)
theorem RunsAccess.faultsAtNotify (ha : numOf s g % n = 0) {d o : Nat} (hn : namesAt s g n p = .notifyReg d o) {fr : FaultRec}
    (hf : onNotify d o (begun .g s) = faultAt .g fr (begun .g s)) : exec i s = .next (trapped .g fr s) := by
  obtain ⟨f, he, hfe⟩ := h.aligned ha
  rw [he]
  exact run_faulted hs .g i f fr (by rw [hfe, hn]; exact hf)

end

/-! Loads, stores and atomics are accesses (R239, R241; 14 R265). -/

/-- What a load does with the bytes its address names. -/
def loadAt (g : GSlot) (r : RegRef) (signed : Bool) (width : Nat) (l : List Loc) (s : State) : State :=
  pushAccess { uid := 0, kind := .load r.dest? signed width, locs := l, addr := gAddr s g, hint := g.hint } (pendOn r s)
/-- What a store or a release does with the bytes its address names, and with a notify register. -/
def storeAt (g : GSlot) (v : Word) (width : Nat) (rel : Bool) (l : List Loc) (s : State) : State :=
  pushAccess { uid := 0, kind := .store (leBytes width v.toNat), locs := l, addr := gAddr s g, hint := if rel then 0 else g.hint,
               needsEarlier := rel } s
def notifyAt (g : GSlot) (v : Word) (width : Nat) (rel : Bool) (d o : Nat) (s : State) : State :=
  pushAccess { uid := 0, kind := .notify d o width v, addr := gAddr s g, needsEarlier := rel } s
/-- What an atomic does with the bytes its address `a` names: a host page is PROTECTION 10 (R241). -/
def atomicAt (op : BitVec 8) (g : GSlot) (r : RegRef) (a : Nat) (l : List Loc) (s : State) : State :=
  if l.any isHost then faultAt .g (accFault 0x0A 10 true a) s
  else pushAccess { uid := 0, kind := .atomic op r.dest? (rs s g.sd) (rs s (g.sd + 1)), locs := l, addr := gAddr s g,
                    needsEarlier := coreScope g.hint, blocksLater := coreScope g.hint, dropL1 := coreScope g.hint } (pendOn r s)

section
variable {s : State} (hs : Solo s) {g : GSlot} (ha : AddrFree s g)
include hs ha

theorem runsAccess_loadG (i : Instr) (signed : Bool) (n : Nat) (hexec : exec i s = loadG i g signed n s) (hd : Open s (reg s g.sd)) :
    RunsAccess s i g n .read (loadAt g (reg s g.sd) signed n) fun _ _ => giveTo (reg s g.sd) 0 := by
  unfold loadG runG at hexec
  refine ⟨_, hexec, ?_⟩
  dsimp only
  rw [reads_begun (reads_addr ha), sr_begun_eq_reg, writesPending_begun hd, whenFree_begun hs, gNat_begun, alignFault_numOf]
  rfl
theorem runsAccess_storeG (i : Instr) (n : Nat) (rel : Bool) (hexec : exec i s = storeG i g n rel s) (hd : Free s (reg s g.sd)) :
    RunsAccess s i g n .write (storeAt g ((me s).s g.sd) n rel) (notifyAt g ((me s).s g.sd) n rel) := by
  unfold storeG runG at hexec
  refine ⟨_, hexec, ?_⟩
  dsimp only
  rw [sr_begun_eq_reg, reads_begun (List.forall_mem_cons.2 ⟨hd, reads_addr ha⟩), whenFree_begun hs, gNat_begun, alignFault_numOf]
  rfl
theorem runsAccess_atomicG (i : Instr) (op : BitVec 8) (n : Nat) (hexec : exec i s = atomicG i op g n s) (hd : Free s (reg s g.sd))
    (hd' : op = 0x19 → Free s (reg s (g.sd + 1))) (ho : Open s (reg s g.sd)) :
    RunsAccess s i g n .write (atomicAt op g (reg s g.sd) (numOf s g)) fun _ _ => faultAt .g (accFault 0x0A 11 true (numOf s g)) := by
  have hmore : ∀ r ∈ (if op = 0x19 then [reg s (g.sd + 1)] else []), Free s r := by
    split
    · next h => exact List.forall_mem_singleton.2 (hd' h)
    · exact List.forall_mem_nil _
  unfold atomicG runG at hexec
  refine ⟨_, hexec, ?_⟩
  simp only [sr_begun_eq_reg]
  rw [reads_begun (List.forall_mem_append.2 ⟨List.forall_mem_cons.2 ⟨hd, hmore⟩, reads_addr ha⟩), writesPending_begun ho,
    whenFree_begun hs, gNat_begun, alignFault_numOf]
  rfl

end

/-- The rows of the tables are these forms. -/
theorem exec_loadTable {row : (GSlot → Instr) × Bool × Nat} (h : row ∈ loadTable) (g : GSlot) (s : State) :
    exec (row.1 g) s = loadG (row.1 g) g row.2.1 row.2.2 s := by
  simp only [loadTable, List.mem_cons, List.not_mem_nil, or_false] at h
  rcases h with rfl | rfl | rfl | rfl | rfl | rfl | rfl
  all_goals rfl
theorem exec_storeTable {row : (GSlot → Instr) × Nat × Bool} (h : row ∈ storeTable) (g : GSlot) (s : State) :
    exec (row.1 g) s = storeG (row.1 g) g row.2.1 row.2.2 s := by
  simp only [storeTable, List.mem_cons, List.not_mem_nil, or_false] at h
  rcases h with rfl | rfl | rfl | rfl | rfl
  all_goals rfl
theorem exec_atomicTable {row : (GSlot → Instr) × BitVec 8 × Nat} (h : row ∈ atomicTable) (g : GSlot) (s : State) :
    exec (row.1 g) s = atomicG (row.1 g) row.2.1 g row.2.2 s := by
  simp only [atomicTable, List.mem_cons, List.not_mem_nil, or_false] at h
  rcases h with rfl | rfl | rfl | rfl | rfl | rfl | rfl | rfl | rfl | rfl | rfl
  all_goals rfl

/-- The write of an atomic that device memory does not take, with the bit of a write (R235, R241). -/
theorem accFault_write (s : State) (g : GSlot) (sub : Nat) :
    accFault 0x0A sub true (numOf s g) = { cause := 0x0A, addr := addrOf s g, info := BitVec.ofNat 64 (sub + 16) } := by
  rw [accFault, ofNat_numOf]
  rfl

/-- Settles O24: each row is an access, whose checks come in the order of R237; an atomic also refuses host pages and notify registers. -/
theorem accessFaults : Obligations.AccessFaults := by
  refine ⟨fun row hrow g s hs ha hd => ?_, fun row hrow g s hs ha hd => ?_, fun row hrow g s hs ha hd hd' ho => ?_⟩
  · have h := runsAccess_loadG hs ha _ _ _ (exec_loadTable hrow g s) hd
    exact ⟨h.misaligned hs, fun f hal => h.unresolved hs hal⟩
  · have h := runsAccess_storeG hs ha _ _ _ (exec_storeTable hrow g s) hd
    exact ⟨h.misaligned hs, fun f hal => h.unresolved hs hal⟩
  · have h := runsAccess_atomicG hs ha _ _ _ (exec_atomicTable hrow g s) hd hd' ho
    refine ⟨h.misaligned hs, fun f hal => h.unresolved hs hal, fun d o hal hn => ?_, fun ls hal hn hhost => ?_⟩
    · exact h.faultsAtNotify hs hal hn (congrArg (faultAt .g · _) (accFault_write s g 11))
    · exact h.faultsAtLocs hs hal hn ((if_pos hhost).trans (congrArg (faultAt .g · _) (accFault_write s g 10)))

end Sys2Proof.Proofs
end

section
/-! SUPPORT. Line instructions, pins and unpins of the G slot (12 R228; 13 R242 to R246; 14 R262). -/
namespace Sys2Proof.Proofs
open Sys2Proof.Machine Sys2Proof.Safety Sys2Proof.Claims

theorem maskOf_begun {s : State} (hs : Solo s) (w : Window) : maskOf (begun .g s) w = maskOf s w := by
  rw [maskOf, maskOf, preLaunch_begun, preLaunch_solo hs]

/-- What PIN does with the lines of its range: false at once where the range reaches a host page, else their pinning (R245). -/
def pinLinesOf (g : GSlot) (w : Window) (ls : List Nat) (host : Bool) (s : State) : State :=
  if host then giveTo (predOf g) 0 s
  else pushAccess { uid := 0, kind := .pin ls (maskOf s w) (predOf g).dest? } (pendOn (predOf g) s)
/-- What PIN makes of its bundle: its predicate may be set pending, then the checks of its range. -/
def pinEffect (g : GSlot) (s : State) : State := pinRange g (pinLinesOf g) (writesPending (predOf g) s)
theorem exec_pin (g : GSlot) (s : State) : exec (.pin g) s = runSlot .g (.pin g) (pinEffect g) s := rfl

section
variable {s : State} (hs : Solo s) {g : GSlot} (ha : AddrFree s g)
include hs ha

/-! Instructions that do nothing where a check fails (R237, R242 to R244). -/

section
variable (hk : globalTop ≤ numOf s g ∨ ∀ va, namesAt s g 1 .read ≠ .miss va)
include hk

/-- What a line instruction makes of its fresh bundle, where its page is known or its address is none of the global space. -/
theorem quietLine_begun (unit : Nat) (f : Nat → State → State) :
    quietLine g unit f (begun .g s) = (lineByte s g).elim (begun .g s) fun pa => f (pa / unit) (begun .g s) := by
  unfold quietLine lineByte
  dsimp only
  rw [reads_begun (reads_addr ha), whenFree_begun hs, gNat_begun, pre_begun]
  by_cases htop : globalTop ≤ numOf s g
  · rw [if_pos htop, if_pos htop]
    rfl
  · rw [if_neg htop, if_neg htop]
    have hmiss := hk.resolve_left htop
    unfold namesAt at hmiss ⊢
    rw [begun_cx]
    cases hn : resolveAt s.m s.issue.cx (numOf s g) 1 [.read] with
    | miss va => exact absurd hn (hmiss va)
    | notifyReg d o => rfl
    | fault fr => rfl
    | wait => rfl
    | locs ls =>
      cases ls with
      | nil => rfl
      | cons l ls => cases l <;> rfl

variable {i : Instr} {unit : Nat} {f : Nat → State → State}

/-- A line instruction whose address names an HBM byte retires with what it does to the byte's line. -/
theorem quietLine_retires (hexec : exec i s = runSlot .g i (quietLine g unit f) s) {pa : Nat} (hb : lineByte s g = some pa) {m : Mach}
    (hf : f (pa / unit) (begun .g s) = { begun .g s with m := m }) (hpc : (m.ctx s.issue.cx).pc = (me s).pc) :
    ∃ t, exec i s = .next t ∧ Retires .g i (nextPc s .g) s m t := by
  rw [hexec]
  exact run_clean hs .g i _ m (by rw [quietLine_begun hs ha hk, hb]; exact hf) hpc
theorem quietLine_nothing (hexec : exec i s = runSlot .g i (quietLine g unit f) s) (hb : lineByte s g = none) :
    ∃ t, exec i s = .next t ∧ Retires .g i (nextPc s .g) s s.m t := by
  rw [hexec]
  exact run_clean hs .g i _ s.m (by rw [quietLine_begun hs ha hk, hb]; rfl) rfl

/-- Each line instruction that names an HBM byte retires with its access outstanding; PREFW with `noAlloc` does nothing (R242). -/
theorem lineTable_retires {pa : Nat} (hb : lineByte s g = some pa) :
    ∀ row ∈ lineTable s g, ∃ t, exec row.1 s = .next t ∧ Retires .g row.1 (nextPc s .g) s (row.2 pa) t := by
  simp only [lineTable, List.forall_mem_cons]
  refine ⟨?pref, ?prefw, ?invl, ?wback, List.forall_mem_nil _⟩
  case pref => exact quietLine_retires hs ha hk rfl hb (push_begun .g _) (pc_outAfter ..)
  case invl => exact quietLine_retires hs ha hk rfl hb (push_begun .g _) (pc_outAfter ..)
  case wback => exact quietLine_retires hs ha hk rfl hb (push_begun .g _) (pc_outAfter ..)
  case prefw =>
    by_cases hno : g.hint.getLsbD 2 = true
    · rw [if_pos hno]
      exact quietLine_retires hs ha hk rfl hb (if_pos hno) rfl
    · rw [if_neg hno]
      exact quietLine_retires hs ha hk rfl hb ((if_neg hno).trans (push_begun .g _)) (pc_outAfter ..)
theorem lineTable_nothing (hb : lineByte s g = none) :
    ∀ row ∈ lineTable s g, ∃ t, exec row.1 s = .next t ∧ Retires .g row.1 (nextPc s .g) s s.m t := by
  simp only [lineTable, List.forall_mem_cons]
  refine ⟨?pref, ?prefw, ?invl, ?wback, List.forall_mem_nil _⟩
  all_goals exact quietLine_nothing hs ha hk rfl hb

end

/-! PIN and UNPIN (R245, R246). -/

/-- The fault of a PIN or UNPIN whose window is unbound, whose range passes its bound, or whose range passes the global space. -/
def PinFault (s : State) (g : GSlot) (f : FaultRec) : Prop :=
  let o := ((me s).s g.sa + g.disp.signExtend 64).toNat
  let n := ((me s).s g.sb).toNat
  let w := windowOf s g.hint
  (w.access = 0 ∧ f = { cause := 0x06 }) ∨
  (w.access ≠ 0 ∧ w.bound.toNat < o + n ∧ f = { cause := 0x07, addr := BitVec.ofNat 64 (pinAt s g) }) ∨
  (w.access ≠ 0 ∧ o + n ≤ w.bound.toNat ∧ globalTop < pinAt s g + n ∧ f = accFault 0x0A 3 false (pinAt s g))

theorem pinRange_faults (f : Window → List Nat → Bool → State → State) {fr : FaultRec} (hf : PinFault s g fr) :
    pinRange g f (begun .g s) = faultAt .g fr (begun .g s) := by
  unfold pinRange
  dsimp only
  rw [← gSources, reads_begun (reads_addr ha), whenFree_begun hs, windowOf_begun hs, rs_begun, rs_begun]
  rcases hf with ⟨hw, rfl⟩ | ⟨hw, hbound, rfl⟩ | ⟨hw, hbound, htop, rfl⟩
  · exact if_pos hw
  · rw [if_neg hw]
    exact if_pos hbound
  · rw [if_neg hw, if_neg (Nat.not_lt.2 hbound)]
    exact if_pos htop
/-- A range that passes its checks is known by its L2 lines, and by whether it reaches a host page. -/
theorem pinRange_passes (f : Window → List Nat → Bool → State → State) {ls : List Loc} (hr : PinRange s g ls) :
    pinRange g f (begun .g s) = f (windowOf s g.hint) (pinLines s g ls) (ls.any isHost) (begun .g s) := by
  obtain ⟨hw, hbound, htop, hpages⟩ := hr
  unfold pinRange
  dsimp only
  rw [← gSources, reads_begun (reads_addr ha), whenFree_begun hs, windowOf_begun hs, rs_begun, rs_begun, if_neg hw, if_neg (Nat.not_lt.2 hbound)]
  refine (if_neg (Nat.not_lt.2 htop)).trans ?_
  show withRes .g (match translateAll s.m s.issue.cx [.read] (pageAddrs (pinAt s g) ((me s).s g.sb).toNat) with
    | .ok l => .locs l | .error r => r) _ _ _ _ = _
  rw [hpages]
  rfl

/-- PIN retires with its predicate pending on the pinning, or false at once where the range reaches a host page (R245). -/
theorem pin_retires {ls : List Loc} (ho : Open s (predOf g)) (hr : PinRange s g ls) :
    ∃ t, exec (.pin g) s = .next t ∧ Retires .g (.pin g) (nextPc s .g) s
      (if ls.any isHost then gives s (predOf g) 0
       else outAfter s (predOf g).dest? { uid := 0, kind := .pin (pinLines s g ls) (maskOf s (windowOf s g.hint)) (predOf g).dest? }) t := by
  rw [exec_pin]
  refine run_clean hs .g (.pin g) (pinEffect g) _ ?_ ?_
  · rw [pinEffect, writesPending_begun ho, pinRange_passes hs ha _ hr, pinLinesOf]
    split
    · exact giveTo_begun .g _ 0 ho
    · rw [maskOf_begun hs]
      exact push_pend .g _ _ ho
  · split
    · exact pc_outAfter ..
    · exact pc_outAfter ..
theorem unpin_retires {ls : List Loc} (hr : PinRange s g ls) :
    ∃ t, exec (.unpin g) s = .next t ∧ Retires .g (.unpin g) (nextPc s .g) s (outAfter s none { uid := 0, kind := .unpin (pinLines s g ls) }) t :=
  run_clean hs .g (.unpin g) _ _ ((pinRange_passes hs ha _ hr).trans (push_begun .g _)) (pc_outAfter ..)
theorem unpin_faults {f : FaultRec} (hf : PinFault s g f) : exec (.unpin g) s = .next (trapped .g f s) :=
  run_faulted hs .g (.unpin g) _ f (pinRange_faults hs ha _ hf)
theorem pin_faults {f : FaultRec} (ho : Open s (predOf g)) (hf : PinFault s g f) : exec (.pin g) s = .next (trapped .g f s) := by
  rw [exec_pin]
  exact run_faulted hs .g (.pin g) (pinEffect g) f (by rw [pinEffect, writesPending_begun ho, pinRange_faults hs ha _ hf])

end

/-- Settles O28: the line instructions by the byte they name, INVL.ALL, and PIN and UNPIN by the checks of their range. -/
theorem lineInstructions : Obligations.LineInstructions := by
  refine ⟨fun g s hs => ⟨fun ha hk => ?_, ?_⟩, fun g s hs ha => ⟨fun ls ho hr => pin_retires hs ha ho hr, fun ls hr => unpin_retires hs ha hr,
    fun f hf => ⟨unpin_faults hs ha hf, fun ho => pin_faults hs ha ho hf⟩⟩⟩
  · cases hb : lineByte s g with
    | some pa => exact lineTable_retires hs ha hk hb
    | none => exact lineTable_nothing hs ha hk hb
  · exact run_clean hs .g (.invlAll g) _ _ (push_begun .g _) (pc_outAfter ..)

end Sys2Proof.Proofs
end

section
/-! SUPPORT. Barrier instructions of the G slot: the object, and each instruction over a fresh bundle (12 R216, R222; 14 R273 to R276). -/
namespace Sys2Proof.Proofs
open Sys2Proof.Machine Sys2Proof.Safety Sys2Proof.Claims

/-- A bundle of one slot whose effect is an internal stall. -/
theorem run_stalled {s : State} (hs : Solo s) (k : Slot) (i : Instr) (f : State → State) (hf : f (begun k s) = stallOn .internal (begun k s)) :
    runSlot k i f s = .next (waiting true s) :=
  run_waiting hs k i f .internal ⟨[], by rw [hf, stallOn_internal_issue, begun_issue hs]⟩ (by rw [hf]; rfl)

/-! The object (R273). -/

theorem barObject_begun {s : State} (hs : Solo s) (k : Slot) (a : Nat) (write : Bool) : barObject (begun k s) a write = barObject s a write := by
  have hpre : pre s = s.m := by rw [pre, Solo.old hs]; rfl
  rw [barObject, barObject, pre_begun, hpre, begun_cx]

/-- What an instruction on a barrier object makes of its fresh bundle: the fault of the object's checks, a wait for its region, or `body`. -/
def objectEffect (s : State) (g : GSlot) (write : Bool) (body : Nat → State) : State :=
  match barObject s (numOf s g) write with
  | .error f => faultAt .g f (begun .g s)
  | .ok (_, _, false) => stallOn .internal (begun .g s)
  | .ok (k, o, true) => body (scratchKey k o)
/-- The instruction acts on the barrier object that its address names. -/
def RunsObject (s : State) (i : Instr) (g : GSlot) (write : Bool) (body : Nat → State) : Prop :=
  ∃ f, exec i s = runSlot .g i f s ∧ f (begun .g s) = objectEffect s g write body

section
variable {s : State} (hs : Solo s) {i : Instr} {g : GSlot} {write : Bool} {body : Nat → State} (h : RunsObject s i g write body)
include h

/-- On a resident object the instruction does what its body says of the object's key. -/
theorem RunsObject.resident {k o : Nat} (hb : barObject s (numOf s g) write = .ok (k, o, true)) :
    ∃ f, exec i s = runSlot .g i f s ∧ f (begun .g s) = body (scratchKey k o) := by
  obtain ⟨f, he, hf⟩ := h
  exact ⟨f, he, by rw [hf, objectEffect, hb]⟩

include hs

theorem RunsObject.faults {fr : FaultRec} (hb : barObject s (numOf s g) write = .error fr) : exec i s = .next (trapped .g fr s) := by
  obtain ⟨f, he, hf⟩ := h
  rw [he]
  exact run_faulted hs .g i f fr (by rw [hf, objectEffect, hb])
theorem RunsObject.retires {k o : Nat} (hb : barObject s (numOf s g) write = .ok (k, o, true)) {m : Mach}
    (hbody : body (scratchKey k o) = { begun .g s with m := m }) (hpc : (m.ctx s.issue.cx).pc = (me s).pc) :
    ∃ t, exec i s = .next t ∧ Retires .g i (nextPc s .g) s m t := by
  obtain ⟨f, he, hf⟩ := h.resident hb
  rw [he]
  exact run_clean hs .g i f m (hf.trans hbody) hpc
theorem RunsObject.traps {k o : Nat} (hb : barObject s (numOf s g) write = .ok (k, o, true)) {fr : FaultRec}
    (hbody : body (scratchKey k o) = faultAt .g fr (begun .g s)) : exec i s = .next (trapped .g fr s) := by
  obtain ⟨f, he, hf⟩ := h.resident hb
  rw [he]
  exact run_faulted hs .g i f fr (hf.trans hbody)
theorem RunsObject.stalls {k o : Nat} (hb : barObject s (numOf s g) write = .ok (k, o, true))
    (hbody : body (scratchKey k o) = stallOn .internal (begun .g s)) : exec i s = .next (waiting true s) := by
  obtain ⟨f, he, hf⟩ := h.resident hb
  rw [he]
  exact run_stalled hs .g i f (hf.trans hbody)
theorem RunsObject.asks {k o : Nat} (hb : barObject s (numOf s g) write = .ok (k, o, true)) {a : Ask} (ha : a.isIdle = false)
    (hbody : body (scratchKey k o) = askFor a (begun .g s)) : exec i s = .next (asked s (applyAsk s.issue.cx s.m a)) := by
  obtain ⟨f, he, hf⟩ := h.resident hb
  rw [he]
  exact run_asked hs .g i f a ha (hf.trans hbody)

end

/-! BINIT, BTEST and BWAIT (R273, R275). -/

/-- The object that BINIT stores (R271, R272). -/
def initialObject (s : State) (g : GSlot) : BarObj :=
  ⟨((me s).s g.sd).toNat % 2 ^ 16, 0, ((me s).s g.sd).toNat / 2 ^ 32, 0, false, myTag s⟩
/-- The store of BINIT. -/
def binitAccess (s : State) (g : GSlot) (key : Nat) : Access :=
  { uid := 0, kind := .store (initialObject s g).encode, locs := keyLocs key, addr := addrOf s g }
/-- The read of BTEST, an acquire. -/
def btestAccess (s : State) (g : GSlot) (key : Nat) : Access :=
  { uid := 0, kind := .barrierTest key (predOf g).dest?, locs := keyLocs key, addr := addrOf s g, blocksLater := true, dropL1 := wide g }
/-- An access of the context that stands before a BWAIT on the object: a fence or an acquire, or one that reaches the object (R262, R265). -/
def heldBack (s : State) (key : Nat) : Bool :=
  (me s).out.any (fun a => execBwait.overlapLocs a.locs (keyLocs key)) || (me s).out.any (·.blocksLater)
/-- What BWAIT makes of its fresh bundle on a resident object (R275). -/
def bwaitEffect (s : State) (g : GSlot) (key : Nat) : State :=
  match (me s).bwait with
  | some (_, true) => pushAccess (acquireAt g.hint) (begun .g s)
  | w =>
    if underReset s.m s.issue.cx (keyLocs key) then faultAt .g { cause := 0x10, addr := addrOf s g } (begun .g s)
    else if (keyLocs key).any s.m.errAt then faultAt .g { cause := 0x0A, addr := addrOf s g, info := 6 } (begun .g s)
    else if w.isSome || heldBack s key then stallOn .internal (begun .g s)
    else if (s.m.barrier key).phase != ((me s).s g.sd).getLsbD 0 then pushAccess (acquireAt g.hint) (begun .g s)
    else askFor (.bwait key) (begun .g s)

section
variable {s : State} (hs : Solo s) {g : GSlot} (ha : AddrFree s g)
include hs ha

theorem runsObject_binit (hd : Free s (reg s g.sd)) :
    RunsObject s (.binit g) g true fun key => pushAccess (binitAccess s g key) (begun .g s) := by
  have hexec : exec (.binit g) s = execBinit g s := rfl
  unfold execBinit runG at hexec
  refine ⟨_, hexec, ?_⟩
  dsimp only
  rw [sr_begun_eq_reg, reads_begun (List.forall_mem_cons.2 ⟨hd, reads_addr ha⟩), whenFree_begun hs, gNat_begun, barObject_begun hs]
  rfl
theorem runsObject_btest (ho : Open s (predOf g)) :
    RunsObject s (.btest g) g false fun key => pushAccess (btestAccess s g key) (pendOn (predOf g) (begun .g s)) := by
  have hexec : exec (.btest g) s = execBtest g s := rfl
  unfold execBtest runG at hexec
  refine ⟨_, hexec, ?_⟩
  dsimp only
  rw [reads_begun (reads_addr ha), show RegRef.p (g.sd.toNat % 8) = predOf g from rfl, writesPending_begun ho, whenFree_begun hs, gNat_begun,
    barObject_begun hs]
  rfl
theorem runsObject_bwait (hd : Free s (reg s g.sd)) : RunsObject s (.bwait g) g false (bwaitEffect s g) := by
  have herr : accFault 0x0A 6 false (numOf s g) = { cause := 0x0A, addr := addrOf s g, info := 6 } := by
    rw [accFault, ofNat_numOf]
    rfl
  have hexec : exec (.bwait g) s = execBwait g s := rfl
  unfold execBwait runG at hexec
  refine ⟨_, hexec, ?_⟩
  dsimp only
  rw [sr_begun_eq_reg, reads_begun (List.forall_mem_cons.2 ⟨hd, reads_addr ha⟩), whenFree_begun hs, gNat_begun, barObject_begun hs, herr]
  simp only [Bool.or_assoc]
  rfl

end

section
variable {s : State} {g : GSlot} {key : Nat}

/-- No access before a BWAIT holds it back just when none is a fence or acquire and none reaches the object. -/
theorem heldBack_eq_false :
    heldBack s key = false ↔ ∀ a ∈ (me s).out, a.blocksLater = false ∧ ∀ l ∈ a.locs, l ∉ keyLocs key := by
  simp only [heldBack, execBwait.overlapLocs, Bool.or_eq_false_iff, List.any_eq_false, List.contains_iff_mem, Bool.not_eq_true]
  exact ⟨fun ⟨h1, h2⟩ a ha => ⟨h2 a ha, h1 a ha⟩, fun h => ⟨fun a ha => (h a ha).2, fun a ha => (h a ha).1⟩⟩

/-- A BWAIT whose advance has come retires. -/
theorem bwaitEffect_woken {k : Nat} (hw : (me s).bwait = some (k, true)) :
    bwaitEffect s g key = pushAccess (acquireAt g.hint) (begun .g s) := by
  rw [bwaitEffect, hw]
/-- One whose advance has not come checks its object first. -/
theorem bwaitEffect_waiting (hw : ∀ k, (me s).bwait ≠ some (k, true)) : bwaitEffect s g key =
    if underReset s.m s.issue.cx (keyLocs key) then faultAt .g { cause := 0x10, addr := addrOf s g } (begun .g s)
    else if (keyLocs key).any s.m.errAt then faultAt .g { cause := 0x0A, addr := addrOf s g, info := 6 } (begun .g s)
    else if (me s).bwait.isSome || heldBack s key then stallOn .internal (begun .g s)
    else if (s.m.barrier key).phase != ((me s).s g.sd).getLsbD 0 then pushAccess (acquireAt g.hint) (begun .g s)
    else askFor (.bwait key) (begun .g s) := by
  unfold bwaitEffect
  split
  · next k hk => exact absurd hk (hw k)
  · rfl

variable (hw : ∀ k, (me s).bwait ≠ some (k, true))
include hw

theorem bwaitEffect_reset (hr : underReset s.m s.issue.cx (keyLocs key) = true) :
    bwaitEffect s g key = faultAt .g { cause := 0x10, addr := addrOf s g } (begun .g s) :=
  (bwaitEffect_waiting hw).trans (if_pos hr)

variable (hr : underReset s.m s.issue.cx (keyLocs key) = false)
include hr

theorem bwaitEffect_error (he : ∃ l ∈ keyLocs key, s.m.errAt l = true) :
    bwaitEffect s g key = faultAt .g { cause := 0x0A, addr := addrOf s g, info := 6 } (begun .g s) := by
  rw [bwaitEffect_waiting hw, if_neg (Bool.eq_false_iff.1 hr)]
  exact if_pos (List.any_eq_true.2 he)

end

section
variable {s : State} {g : GSlot} {key : Nat} (hw : (me s).bwait = none) (hr : underReset s.m s.issue.cx (keyLocs key) = false)
  (he : ∀ l ∈ keyLocs key, s.m.errAt l = false)
include hw hr he

/-- On an object that can be used, a first BWAIT is held back, passes or waits. -/
theorem bwaitEffect_usable : bwaitEffect s g key =
    if heldBack s key then stallOn .internal (begun .g s)
    else if (s.m.barrier key).phase != ((me s).s g.sd).getLsbD 0 then pushAccess (acquireAt g.hint) (begun .g s)
    else askFor (.bwait key) (begun .g s) := by
  have herr : (keyLocs key).any s.m.errAt = false := List.any_eq_false.2 fun l hl => by simp [he l hl]
  rw [bwaitEffect_waiting (by simp [hw]), hr, herr, hw]
  rfl
theorem bwaitEffect_held (hc : heldBack s key = true) : bwaitEffect s g key = stallOn .internal (begun .g s) :=
  (bwaitEffect_usable hw hr he).trans (if_pos hc)
theorem bwaitEffect_passed (hc : heldBack s key = false) (hp : (s.m.barrier key).phase ≠ ((me s).s g.sd).getLsbD 0) :
    bwaitEffect s g key = pushAccess (acquireAt g.hint) (begun .g s) := by
  rw [bwaitEffect_usable hw hr he, hc]
  exact if_pos (bne_iff_ne.2 hp)
theorem bwaitEffect_asks (hc : heldBack s key = false) (hp : ¬(s.m.barrier key).phase ≠ ((me s).s g.sd).getLsbD 0) :
    bwaitEffect s g key = askFor (.bwait key) (begun .g s) := by
  rw [bwaitEffect_usable hw hr he, hc]
  exact if_neg fun h => hp (bne_iff_ne.1 h)

end

/-! BARRIVE and BEXPECT (R274, R276). -/

/-- What an update makes of its fresh bundle: the answer it has, or else the object's check and the request. -/
def updateEffect (s : State) (g : GSlot) (expect : Bool) : State :=
  match (me s).await with
  | some .asked => askFor .hold (begun .g s)
  | some (.answered _ _ _) => begun .g s
  | some (.faulted f) => faultAt .g f (begun .g s)
  | none =>
    match barObject s (numOf s g) true with
    | .error f => faultAt .g f (begun .g s)
    | .ok (k, o, _) => askFor (.barrier (updateOf s g expect k o)) (begun .g s)
/-- The request that the model makes is that of the claims. -/
theorem updateOf_eq (s : State) (g : GSlot) (expect : Bool) (k o : Nat) : updateOf s g expect k o =
    { core := k, seat := (seatNamed s.m s.issue.cx (numOf s g)).elim 0 (·.no), key := scratchKey k o,
      regionOff := o - (seatNamed s.m s.issue.cx (numOf s g)).elim 0 (·.base), addr := addrOf s g, expect := expect,
      arrivals := if expect then 0 else ((me s).s g.sd).toNat % 2 ^ 16,
      bytes := if expect then ((me s).s g.sd).toNat % 2 ^ 32 else ((me s).s g.sd).toNat / 2 ^ 32, gtag := myTag s } := by
  unfold updateOf
  cases seatNamed s.m s.issue.cx (numOf s g) <;> rfl

section
variable {s : State} (hs : Solo s) {g : GSlot} (ha : AddrFree s g) {i : Instr} {expect : Bool} (hexec : exec i s = barUpdateG i g expect s)
  (hd : Free s (reg s g.sd))
include hs ha hexec hd

theorem exec_update : ∃ f, exec i s = runSlot .g i f s ∧ f (begun .g s) = updateEffect s g expect := by
  unfold barUpdateG runG at hexec
  refine ⟨_, hexec, ?_⟩
  dsimp only
  rw [sr_begun_eq_reg, reads_begun (List.forall_mem_cons.2 ⟨hd, reads_addr ha⟩), whenFree_begun hs, gNat_begun, barObject_begun hs]
  unfold updateEffect
  simp only [updateOf_eq]
  rfl
theorem update_asks (hw : (me s).await = none) {k o : Nat} {r : Bool} (hb : barObject s (numOf s g) true = .ok (k, o, r)) :
    exec i s = .next (asked s (applyAsk s.issue.cx s.m (.barrier (updateOf s g expect k o)))) := by
  obtain ⟨f, he, hf⟩ := exec_update hs ha hexec hd
  rw [he]
  exact run_asked hs .g i f _ rfl (by rw [hf, updateEffect, hw, hb])
theorem update_answered {ok refused : Bool} {v : Word} (hw : (me s).await = some (.answered ok refused v)) :
    ∃ t, exec i s = .next t ∧ Retires .g i (nextPc s .g) s s.m t := by
  obtain ⟨f, he, hf⟩ := exec_update hs ha hexec hd
  rw [he]
  exact run_clean hs .g i f s.m (by rw [hf, updateEffect, hw]; rfl) rfl
theorem update_faulted {fr : FaultRec} (hw : (me s).await = some (.faulted fr)) : exec i s = .next (trapped .g fr s) := by
  obtain ⟨f, he, hf⟩ := exec_update hs ha hexec hd
  rw [he]
  exact run_faulted hs .g i f fr (by rw [hf, updateEffect, hw])
theorem update_unresolved (hw : (me s).await = none) {fr : FaultRec} (hb : barObject s (numOf s g) true = .error fr) :
    exec i s = .next (trapped .g fr s) := by
  obtain ⟨f, he, hf⟩ := exec_update hs ha hexec hd
  rw [he]
  exact run_faulted hs .g i f fr (by rw [hf, updateEffect, hw, hb])

end

/-- Settles O30: BINIT, BTEST and BWAIT act on the object their address names; BARRIVE and BEXPECT ask its controller. -/
theorem barrierInstructions : Obligations.BarrierInstructions := by
  intro g s hs ha
  refine ⟨fun k o hd hb => (runsObject_binit hs ha hd).retires hs hb (push_begun .g _) (pc_outAfter ..),
    fun k o ho hb => (runsObject_btest hs ha ho).retires hs hb (push_pend .g _ _ ho) (pc_outAfter ..),
    fun k o hd hb => ?bwait, fun row hrow hd => ?update,
    fun f hb => ⟨fun hd => (runsObject_bwait hs ha hd).faults hs hb, fun ho => (runsObject_btest hs ha ho).faults hs hb⟩,
    fun f hd hb => (runsObject_binit hs ha hd).faults hs hb⟩
  case bwait =>
    have h := runsObject_bwait hs ha hd
    refine ⟨fun hw => ⟨fun hr => h.traps hs hb (bwaitEffect_reset hw hr), fun hr he => h.traps hs hb (bwaitEffect_error hw hr he)⟩, ?retires,
      fun ⟨hr, he⟩ hw => ⟨fun hc => ?held, fun hc hp => ?asks⟩⟩
    case retires =>
      rintro (⟨k', hw⟩ | ⟨⟨hr, he⟩, hw, hp, hc⟩)
      · exact h.retires hs hb ((bwaitEffect_woken hw).trans (push_begun .g _)) (pc_outAfter ..)
      · exact h.retires hs hb ((bwaitEffect_passed hw hr he (heldBack_eq_false.2 hc) hp).trans (push_begun .g _)) (pc_outAfter ..)
    case held =>
      exact h.stalls hs hb (bwaitEffect_held hw hr he (Bool.eq_true_of_not_eq_false fun hf => hc (heldBack_eq_false.1 hf)))
    case asks => exact h.asks hs hb rfl (bwaitEffect_asks hw hr he (heldBack_eq_false.2 hc) hp)
  case update =>
    have hexec : exec row.1 s = barUpdateG row.1 g row.2 s := by
      simp only [List.mem_cons, List.not_mem_nil, or_false] at hrow
      rcases hrow with rfl | rfl
      all_goals rfl
    exact ⟨fun k o r hw hb => update_asks hs ha hexec hd hw hb, fun _ _ _ hw => update_answered hs ha hexec hd hw,
      fun f hw => update_faulted hs ha hexec hd hw, fun f hw hb => update_unresolved hs ha hexec hd hw hb⟩

end Sys2Proof.Proofs
end

section
/-! SUPPORT. The walk of a parked miss (12 R233 to R235; 13 R259). -/
namespace Sys2Proof.Proofs
open Sys2Proof.Machine Sys2Proof.Safety Sys2Proof.Claims

/-! A leaf covers the address that the walk was for. -/

/-- What a walk of `va` answers, if it succeeds, covers `va`. -/
def Covering (va : Nat) (r : Except Nat TlbEnt) : Prop := ∀ e, r = .ok e → e.covers va = true
theorem Covering.error (va sub : Nat) : Covering va (.error sub) := nofun
theorem Covering.ite {va : Nat} {p : Prop} [Decidable p] {a b : Except Nat TlbEnt} (ha : Covering va a) (hb : Covering va b) :
    Covering va (if p then a else b) := by
  split
  · exact ha
  · exact hb
theorem Covering.leafEnt (va e : Nat) {size : Nat} (hs : 0 < size) : Covering va (leafEnt va e size) := by
  unfold Machine.leafEnt
  refine .ite (.error _ _) (.ite (.error _ _) ?_)
  rintro _ ⟨⟩
  have hlow : va / size * size ≤ va := Nat.div_mul_le_self va size
  have hhigh : va < va / size * size + size := Nat.lt_div_mul_add hs
  simp [TlbEnt.covers, hlow, hhigh]
/-- Each level of the walk ends in a failure, a leaf of its size, or the next level (R233). -/
theorem walk_covering (m : Mach) (va : Nat) : Covering va (m.walk va) := by
  unfold Mach.walk
  dsimp only
  have level4 : ∀ {p q : Prop} [Decidable p] [Decidable q] (e : Nat),
      Covering va (if p then .error 6 else if q then .error 0 else Machine.leafEnt va e (2 ^ 16)) := fun e =>
    .ite (.error _ _) (.ite (.error _ _) (.leafEnt va e (by decide)))
  have leafOr : ∀ {p q r t : Prop} [Decidable p] [Decidable q] [Decidable r] [Decidable t] (e : Nat) {size : Nat} {next : Except Nat TlbEnt},
      0 < size → Covering va next →
      Covering va (if p then .error 6 else if q then .error 0 else if r then Machine.leafEnt va e size else if t then .error 2 else next) :=
    fun e _ _ hs hn => .ite (.error _ _) (.ite (.error _ _) (.ite (.leafEnt va e hs) (.ite (.error _ _) hn)))
  exact .ite (.error _ _) (.ite (.error _ _) (.ite (.error _ _) (.ite (.error _ _) (leafOr _ (by decide) (leafOr _ (by decide) (level4 _))))))

/-- The leaf put in last is found (R234). -/
theorem tlbFind_tlbPut {e : TlbEnt} {va : Nat} (h : e.covers va = true) (l : List TlbEnt) (n : Nat) : tlbFind (tlbPut l (n + 1) e) va = some e := by
  rw [tlbFind, tlbPut, List.take_succ_cons]
  exact List.find?_cons_of_pos h

/-! The walk of a miss. -/

/-- The machine with the `n`th parked miss of die `d`, `v`, taken out, and its bundle no longer waiting for it. -/
def unparked (m : Mach) (d n : Nat) (v : Miss) : Mach :=
  let m := m.modDie d fun x => { x with misses := x.misses.eraseIdx n }
  if v.uid = 0 then m.modCtx v.cx fun c => { c with missed := false } else m
theorem sameMem_unparked (m : Mach) (d n : Nat) (v : Miss) : SameMem m (unparked m d n v) := by
  unfold unparked
  dsimp only
  split <;> rfl
theorem walk_unparked (m : Mach) (d n : Nat) (v : Miss) (va : Nat) : (unparked m d n v).walk va = m.walk va :=
  (sameMem_unparked m d n v).read (·.walk va) fun _ => rfl
theorem ctx_unparked_same (m : Mach) (d n : Nat) (v : Miss) :
    (unparked m d n v).ctx v.cx = if v.uid = 0 then { m.ctx v.cx with missed := false } else m.ctx v.cx := by
  unfold unparked
  dsimp only
  split
  · simp
  · rfl
theorem ctx_unparked_ne (m : Mach) (d n : Nat) (v : Miss) {j : Nat} (h : j ≠ v.cx) : (unparked m d n v).ctx j = m.ctx j := by
  unfold unparked
  dsimp only
  split
  · rw [ctx_modCtx_ne _ _ (Ne.symm h), ctx_modDie]
  · rfl
@[simp] theorem core_unparked (m : Mach) (d n : Nat) (v : Miss) (k : Nat) : (unparked m d n v).core k = m.core k := by
  unfold unparked
  dsimp only
  split <;> rfl
@[simp] theorem read_unparked (m : Mach) (d n : Nat) (v : Miss) (l : Loc) : (unparked m d n v).read l = m.read l :=
  (sameMem_unparked m d n v).read (·.read l) fun _ => by cases l <;> rfl
@[simp] theorem misses_unparked (m : Mach) (d n : Nat) (v : Miss) : ((unparked m d n v).die d).misses = (m.die d).misses.eraseIdx n := by
  unfold unparked
  dsimp only
  split <;> simp
theorem unparked_eng {m : Mach} {d n : Nat} {v : Miss} (h : v.uid ≠ 0) :
    unparked m d n v = m.modDie d fun x => { x with misses := x.misses.eraseIdx n } := if_neg h

section
variable {m : Mach} {d n : Nat} {v : Miss} (hv : (m.die d).misses[n]? = some v)
include hv

theorem walkMiss_ok {e : TlbEnt} (hw : m.walk v.va.toNat = .ok e) : walkMiss m d n =
    ((unparked m d n v).modCore (coreOf v.cx) fun c => { c with tlb := tlbPut c.tlb 512 e }).modDie d fun x =>
      { x with tlb := tlbPut x.tlb 32768 e } := by
  have hw' : (unparked m d n v).walk v.va.toNat = .ok e := (walk_unparked ..).trans hw
  unfold walkMiss
  rw [hv]
  dsimp only
  rw [← unparked, hw']

variable {sub : Nat} (hw : m.walk v.va.toNat = .error sub)
include hw

/-- The failure of a bundle's miss waits for the bundle (R235). -/
theorem walkMiss_failed (hu : v.uid = 0) (hm : (m.ctx v.cx).missed = true) : walkMiss m d n =
    (unparked m d n v).modCtx v.cx fun c => { c with walkFail := some (v.va, BitVec.ofNat 4 sub, v.fetch) } := by
  have hw' : (unparked m d n v).walk v.va.toNat = .error sub := (walk_unparked ..).trans hw
  unfold walkMiss
  rw [hv]
  dsimp only
  rw [← unparked, hw', ctx_modDie, hm]
  exact (if_neg (not_not.2 hu)).trans (if_pos rfl)
/-- The failure of an operation's miss is the operation's (R234). -/
theorem walkMiss_operation (hu : v.uid ≠ 0) {o : EOp} (ho : (m.core (coreOf v.cx)).op? v.uid = some o) :
    walkMiss m d n = missFault (unparked m d n v) o v sub := by
  have hw' : (unparked m d n v).walk v.va.toNat = .error sub := (walk_unparked ..).trans hw
  have ho' : ((unparked m d n v).core (coreOf v.cx)).op? v.uid = some o := by rw [core_unparked]; exact ho
  unfold walkMiss
  rw [hv]
  dsimp only
  rw [← unparked, hw']
  exact (if_pos hu).trans (by rw [ho'])

end

/-! Operations by number. -/

theorem uid_of_op? {c : Core} {uid : Nat} {o : EOp} (h : c.op? uid = some o) : o.uid = uid := by simpa using List.find?_some h
/-- The operation of a number after a change that keeps its number. -/
theorem op?_modOp {m : Mach} {k uid : Nat} {o : EOp} {f : EOp → EOp} (hf : ∀ x, (f x).uid = x.uid) (h : (m.core k).op? uid = some o) :
    ((m.modOp k uid f).core k).op? uid = some (f o) := by
  unfold Mach.modOp
  rw [core_modCore_same]
  unfold Core.op? at h ⊢
  unfold lmod
  dsimp only
  rw [List.find?_map]
  have hkey : ((fun x : EOp => x.uid == uid) ∘ fun x => if (x.uid == uid) = true then f x else x) = fun x => x.uid == uid := by
    funext x
    by_cases hx : x.uid = uid
    · simp [hx, hf]
    · simp [hx]
  have ho : o.uid = uid := by simpa using List.find?_some h
  rw [hkey, h, Option.map_some, if_pos (beq_iff_eq.2 ho)]
/-- No operation of a number is left once those of the number are taken out. -/
theorem op?_filter (c : Core) (uid : Nat) : Core.op? { c with ops := c.ops.filter (·.uid != uid) } uid = none :=
  List.find?_eq_none.2 fun o ho => by simpa using (List.mem_filter.1 ho).2

theorem ctx_logFault (m : Mach) (cx : Nat) (f : FaultRec) (j : Nat) : (m.logFault cx f).ctx j = m.ctx j := by
  rw [Mach.ctx, ctxs_logFault, Mach.ctx]
/-- A PREFT whose line has no translation goes on to its next line (R259). -/
theorem missFault_preft (m : Mach) {o : EOp} {c : CSlot} (hi : o.instr = .preft c) (v : Miss) (sub : Nat) :
    missFault m o v sub = m.modOp (coreOf o.cx) o.uid fun o => { o with progress := o.progress + 1 } := by
  rw [missFault, hi]
theorem missFault_other (m : Mach) {o : EOp} (hi : ∀ c, o.instr ≠ .preft c) (v : Miss) (sub : Nat) :
    missFault m o v sub = engineFault m o (leafFault sub v.write v.va.toNat) false := by
  unfold missFault
  split
  · next c hc => exact absurd hc (hi c)
  · rfl
/-- A fault that an engine finds in a task-mode operation of a live context: logged, the operation out of its queue, the event and the
fault with its context (17 R329, R335). -/
theorem engineFault_task {m : Mach} {o : EOp} (hh : o.handlerOp = false) (hr : (m.ctx o.cx).released = false) (f : FaultRec) :
    engineFault m o f false = ((m.logFault o.cx f).modCore (coreOf o.cx) fun c => { c with ops := c.ops.filter (·.uid != o.uid) }).modCtx o.cx
      fun c => { c.addFault (.found o.uid) with engFault := c.engFault ++ [({ o with started := false }, f, false)] } := by
  have hr' : ((m.logFault o.cx f).ctx o.cx).released = false := by rw [ctx_logFault]; exact hr
  unfold engineFault
  dsimp only
  rw [hr', hh]
  rfl
theorem engineFault_leaves {m : Mach} {o : EOp} (hh : o.handlerOp = false) (hr : (m.ctx o.cx).released = false) (f : FaultRec) :
    ((engineFault m o f false).core (coreOf o.cx)).op? o.uid = none ∧ (engineFault m o f false).ctx o.cx =
      { (m.ctx o.cx).addFault (.found o.uid) with engFault := (m.ctx o.cx).engFault ++ [({ o with started := false }, f, false)] } := by
  rw [engineFault_task hh hr f]
  refine ⟨?_, ?_⟩
  · rw [core_modCtx, core_modCore_same, op?_filter]
  · rw [ctx_modCtx_same, ctx_modCore, ctx_logFault]
/-- The fault of a failed walk, its subcode with the bit of a write (R235). -/
theorem leafFault_toNat (sub : Nat) (w : Bool) (va : Word) : leafFault sub w va.toNat =
    { cause := if sub = 6 then 0x0A else 0x09, addr := va, info := BitVec.ofNat 64 (sub + if w then 16 else 0) } := by
  unfold leafFault accFault
  rw [BitVec.ofNat_toNat, BitVec.setWidth_eq]
  split <;> rfl

/-- Settles O49: the walk fills both caches, or leaves its failure with the bundle or the operation that waits for it. -/
theorem translationWalks : Obligations.TranslationWalks := by
  intro s d n v hv
  have hexec : exec (.translationWalk d n) s = .next (put s (walkMiss s.m d n)) := rfl
  refine ⟨fun e hw => ?filled, fun sub hw hu hm => ?failed, fun sub o hw hu ho hcx => ?operation⟩
  case filled =>
    have hcov := walk_covering s.m v.va.toNat e hw
    rw [hexec, walkMiss_ok hv hw]
    refine ⟨_, rfl, hcov, ?_, ?_, ?_, ?_, fun j hj => ?_, fun l => ?_⟩
    · simp [put, tlbFind_tlbPut hcov]
    · simp [put, tlbFind_tlbPut hcov]
    · simp [put]
    · simp [put, ctx_unparked_same]
    · simp [put, ctx_unparked_ne _ _ _ _ hj]
    · simp [put]
  case failed =>
    rw [hexec, walkMiss_failed hv hw hu hm]
    refine ⟨_, rfl, ?_, fun j hj => ?_, fun k => ?_, ?_⟩
    · simp [put, ctx_unparked_same, hu]
    · simp [put, ctx_unparked_ne _ _ _ _ hj, Ne.symm hj]
    · simp [put]
    · simp [put]
  case operation =>
    have huid := uid_of_op? ho
    rw [hexec, walkMiss_operation hv hw hu ho, unparked_eng hu, ← hcx, ← huid]
    rw [← hcx, ← huid] at ho
    refine ⟨fun c hi => ?preft, fun hi hh hr => ?engine⟩
    case preft =>
      rw [missFault_preft _ hi]
      exact ⟨_, rfl, op?_modOp (f := fun o => { o with progress := o.progress + 1 }) (fun _ => rfl) ho, rfl⟩
    case engine =>
      rw [missFault_other _ hi, leafFault_toNat]
      exact ⟨_, rfl, engineFault_leaves (m := s.m.modDie d fun x => { x with misses := x.misses.eraseIdx n }) hh hr _⟩

end Sys2Proof.Proofs
end

section
/-! SUPPORT. The slots of subscriptions (12 R225, R229 to R231; 13 R249). -/
namespace Sys2Proof.Proofs
open Sys2Proof.Machine Sys2Proof.Safety Sys2Proof.Claims

/-! Full bits. -/

theorem fullAt_setFullAt (m : Mach) (k n : Nat) (v : Bool) : (m.setFullAt k v).fullAt n = if k = n then v else m.fullAt n := by
  have hfull : (m.setFullAt k v).full = mset m.full k v := by cases v <;> rfl
  rw [Mach.fullAt, hfull, mget_mset, Mach.fullAt]
/-- The lines that change together stand as they were set. -/
theorem fullAt_setLines {m : Mach} {ls : List Nat} {v : Bool} {n : Nat} (h : n ∈ ls ∨ m.fullAt n = v) : (m.setLines ls v).fullAt n = v := by
  induction ls generalizing m with
  | nil => exact h.resolve_left List.not_mem_nil
  | cons k ls ih =>
    refine ih ?_
    rw [fullAt_setFullAt]
    rcases h with h | h
    · rcases List.mem_cons.1 h with rfl | h
      · exact .inr (if_pos rfl)
      · exact .inl h
    · exact .inr (by rw [h, ite_self])
theorem SameMem.setFullAt (m : Mach) (k : Nat) (v : Bool) : SameMem m (m.setFullAt k v) := by cases v <;> rfl
theorem SameMem.setLines (m : Mach) (ls : List Nat) (v : Bool) : SameMem m (m.setLines ls v) :=
  foldl_keeps (SameMem m) _ (fun n k hn => hn.trans (.setFullAt n k v)) _ _ (.refl m)
theorem SameMem.readLoc {m n : Mach} (h : SameMem m n) (l : Loc) : n.read l = m.read l := h.read (·.read l) fun _ => by cases l <;> rfl

/-! The L2 takes no part. -/

theorem L2Only.setFullAt {m n : Mach} (h : L2Only m n) (k : Nat) (v : Bool) : L2Only (m.setFullAt k v) (n.setFullAt k v) := by
  rw [L2Only, h]
  cases v <;> rfl
theorem L2Only.setLines {m n : Mach} (h : L2Only m n) (ls : List Nat) (v : Bool) : L2Only (m.setLines ls v) (n.setLines ls v) := by
  induction ls generalizing m n with
  | nil => exact h
  | cons k ls ih => exact ih (h.setFullAt k v)
theorem L2Only.ctx {m n : Mach} (h : L2Only m n) (cx : Nat) : n.ctx cx = m.ctx cx := by rw [h]; rfl
theorem L2Only.sameMem {m n : Mach} (h : L2Only m n) : SameMem m n := by rw [h]; rfl
theorem L2Only.span (m : Mach) (pas : List Nat) (write counts : Bool) (h : Hint) : L2Only m (l2Span m pas write counts h) :=
  foldl_keeps (L2Only m) _ (fun n x hn => hn.trans (.touch n x.1 x.2 write counts h)) _ _ (.refl m)
theorem L2Only.subL2 (m : Mach) (cx : Nat) (u : Sub) (items : List SubItem) : L2Only m (subL2 m cx u items) := .span m _ _ _ _

/-! A slot starts and ends. -/

/-- The state that a slot of a push-fed or a pull-fed subscription starts from, and the one that it ends in (R229, R230). -/
def startsFrom (pull : Bool) : SubSlot := if pull then .marked else .empty
def endsIn (pull : Bool) : SubSlot := if pull then .empty else .full
/-- With no item left to move nothing moves. -/
theorem subMoves_nil (cx : Nat) (u : Sub) (n : Nat) (m : Mach) : subMoves cx u n [] m = (m, true) := by cases n <;> rfl

section
variable {m : Mach} {cx ring : Nat} {u : Sub} (hu : (m.ctx cx).sub? ring = some u) {pull : Bool} (hp : u.pull = pull)
include hu hp

theorem subStart_starts (hmay : subMayStart m cx u = true) (hst : u.states.getD u.slot .empty = startsFrom pull) :
    subStart m cx ring pull = m.modCtx cx fun c => c.modSub ring fun u => { u with states := lset u.states u.slot .busy, moved := 0 } := by
  unfold subStart
  rw [hu]
  refine if_pos ?_
  rw [hp, hmay, hst]
  cases pull <;> rfl

/-- A slot whose last item has moved ends: the L2 has seen its lines, their full bits change together, and the next slot's turn comes. -/
theorem subEnd_ends (hprog : u.inProgress = true) (hmoved : u.moved = (subItems m cx u).length) :
    subEnd m cx ring pull = ((subL2 m cx u (subItems m cx u)).setLines (slotLines cx (m.ctx cx) u u.slot) (!pull)).modCtx cx fun c =>
      c.modSub ring fun u => { u with states := lset u.states u.slot (endsIn pull), next := u.next + 1, moved := 0 } := by
  have hrest : (subItems m cx u).drop u.moved = [] := by rw [hmoved, List.drop_length]
  unfold subEnd
  rw [hu]
  dsimp only
  rw [hprog, hp, hrest, subMoves_nil, if_neg (by simp)]
  dsimp only
  rw [(L2Only.subL2 m cx u _).ctx]
  cases pull <;> rfl
/-- What the end of a slot leaves: the context's subscription moved on, the lines' bits as set, and every byte. -/
theorem subEnd_leaves (hprog : u.inProgress = true) (hmoved : u.moved = (subItems m cx u).length) :
    (subEnd m cx ring pull).ctx cx = ((m.setLines (slotLines cx (m.ctx cx) u u.slot) (!pull)).ctx cx).modSub ring (fun u =>
      { u with states := lset u.states u.slot (endsIn pull), next := u.next + 1, moved := 0 }) ∧
    (∀ n ∈ slotLines cx (m.ctx cx) u u.slot, (subEnd m cx ring pull).fullAt n = !pull) ∧ ∀ l, (subEnd m cx ring pull).read l = m.read l := by
  have hl2 := L2Only.subL2 m cx u (subItems m cx u)
  rw [subEnd_ends hu hp hprog hmoved]
  refine ⟨?_, fun n hn => fullAt_setLines (.inl hn), fun l => ?_⟩
  · rw [ctx_modCtx_same, (hl2.setLines _ _).ctx]
  · rw [read_modCtx, (hl2.sameMem.trans (.setLines _ _ _)).readLoc]

end

/-- Settles O51: a slot starts from its state alone, and ends once nothing is left to move. -/
theorem subscriptionSlots : Obligations.SubscriptionSlots := by
  intro s cx ring u hu
  refine ⟨fun hmay => ⟨fun hp hst => ?_, fun hp hst => ?_⟩, fun hprog hmoved => ⟨fun hp => ?_, fun hp => ?_⟩⟩
  · exact congrArg (fun m => Host.Outcome.next (put s m)) (subStart_starts hu hp hmay hst)
  · exact congrArg (fun m => Host.Outcome.next (put s m)) (subStart_starts hu hp hmay hst)
  · exact ⟨_, rfl, subEnd_leaves hu hp hprog hmoved⟩
  · exact ⟨_, rfl, subEnd_leaves hu hp hprog hmoved⟩

end Sys2Proof.Proofs
end

section
/-! SUPPORT. What a context's release from its seat does to the device's time: nothing (00 R72; 12 R222, R231; 14 R276). -/
namespace Sys2Proof.Proofs
open Sys2Proof.Machine Sys2Proof.Safety Sys2Proof.Claims

theorem L2Only.move (m : Mach) (home n : Nat) (x : L2Line) : L2Only m (l2Move m home n x) := by
  unfold l2Move
  split <;> rfl

/-- Time stands still between two machines of one step. -/
def SameTime (m n : Mach) : Prop := n.time = m.time
namespace SameTime
theorem refl (m : Mach) : SameTime m m := rfl
theorem trans {a b c : Mach} (h : SameTime a b) (k : SameTime b c) : SameTime a c := Eq.trans k h
theorem foldl {α : Type} {f : Mach → α → Mach} (hf : ∀ n x, SameTime n (f n x)) (xs : List α) (m : Mach) : SameTime m (xs.foldl f m) :=
  foldl_keeps (SameTime m) f (fun _ x hn => hn.trans (hf _ x)) xs m (refl m)
theorem ite {m a b : Mach} {p : Prop} [Decidable p] (ha : SameTime m a) (hb : SameTime m b) : SameTime m (if p then a else b) := by
  split
  · exact ha
  · exact hb
theorem l2 {m n : Mach} (h : L2Only m n) : SameTime m n := by rw [h]; rfl
theorem l2Span (m : Mach) (pas : List Nat) (w c : Bool) (h : Hint) : SameTime m (l2Span m pas w c h) := l2 (.span m _ _ _ _)
theorem store {m n : Mach} (h : StoreOnly m n) : SameTime m n := h.time

/-! Parts of an access. -/
theorem write (m : Mach) (l : Loc) (b : Byte) : SameTime m (m.write l b) := .store (.write m l b)
theorem writeLocs (m : Mach) (ls : List Loc) (bs : List Byte) : SameTime m (m.writeLocs ls bs) := foldl (fun n (x : Loc × Byte) => write n x.1 x.2) _ _
theorem writePart (m : Mach) (ls : List Loc) (b : Byte) (whole : Bool) : SameTime m (m.writePart ls b whole) := writeLocs m ls [b]
theorem setFullAt (m : Mach) (k : Nat) (v : Bool) : SameTime m (m.setFullAt k v) := by cases v <;> rfl
theorem setLines (m : Mach) (ls : List Nat) (v : Bool) : SameTime m (m.setLines ls v) := foldl (fun n k => setFullAt n k v) _ _
theorem notify (m : Mach) (q : Nat) : SameTime m (m.notify q) := by
  unfold Mach.notify
  dsimp only
  split
  · exact (store (.logQueue m q) : SameTime m (m.logQueue q))
  · split
    · rfl
    · exact (store (.qSetFlag m q 1 true) : SameTime m (m.qSetFlag q 1 true))
theorem notifyWrite (m : Mach) (o n : Nat) (v : Word) : SameTime m (m.notifyWrite o n v) := by
  unfold Mach.notifyWrite
  split
  · exact notify m _
  · rfl
theorem l1Fill (m : Mach) (core line : Nat) : SameTime m (l1Fill m core line) := by
  unfold Machine.l1Fill
  split <;> rfl
theorem loadBytes (m : Mach) (core : Nat) (ls : List Loc) (hint : BitVec 8) : SameTime m (loadBytes m core ls hint).1 := by
  unfold Machine.loadBytes
  dsimp only
  split
  · exact l2Span m _ _ _ _
  · exact (l2Span m _ _ _ _).trans (foldl (fun n k => l1Fill n core k) _ _)
theorem storeBytes (m : Mach) (core : Nat) (ls : List Loc) (bs : List Byte) (hint : BitVec 8) : SameTime m (storeBytes m core ls bs hint) := by
  unfold Machine.storeBytes
  refine (l2Span m _ _ _ _).trans (foldl (fun n x => ?_) _ _)
  split <;> exact write n _ _
theorem l2Atomic (m : Mach) (pa : Nat) : SameTime m (l2Atomic m pa) := by
  unfold Machine.l2Atomic
  dsimp only
  have hread : SameTime m (l2Access m pa false true ⟨0, false, 0⟩) := l2 (.touch m _ _ _ _ _)
  split
  · exact hread
  · exact hread
theorem pinLine (cx : Nat) (mask : Option Nat) (m : Mach) (n : Nat) : SameTime m (pinLine cx mask m n) := by
  unfold Machine.pinLine
  dsimp only
  split
  · exact l2 (.alloc m _ _ _)
  · exact l2 (.move m _ _ _)
theorem unpinLines (cx : Nat) (ns : List Nat) (m : Mach) : SameTime m (ns.foldl (unpinLine cx) m) := l2 (l2Only_foldl_unpinLine cx ns m)
theorem postCommit (m : Mach) (cx : Nat) (a : Access) (cause : BitVec 8) (sub : Nat) : SameTime m (postCommit m cx a cause sub) := rfl

/-- Performing an access takes no time of its own. -/
theorem performAccess (m : Mach) (cx : Nat) (a : Access) : SameTime m (performAccess m cx a) := by
  have hdrop : SameTime m (if a.dropL1 then l1Drop m (coreOf cx) else m) := by split <;> rfl
  unfold Machine.performAccess
  dsimp only
  generalize (if a.dropL1 then l1Drop m (coreOf cx) else m) = n at hdrop ⊢
  refine hdrop.trans ?_
  refine .ite (postCommit n cx a _ _) (.ite (postCommit n cx a _ _) ?_)
  cases a.kind with
  | load d signed width => exact loadBytes n _ _ _
  | store data => exact storeBytes n _ _ _ _
  | atomic op d x y =>
    refine SameTime.trans ?_ (writeLocs _ a.locs _)
    split
    · exact l2Atomic n _
    · rfl
  | acquire d => exact l2Span n _ _ _ _
  | notify d o size v => exact notifyWrite n _ _ _
  | setFull line v => exact setFullAt n _ _
  | writeBack line =>
    dsimp only
    cases mget? n.l2 line <;> rfl
  | prefetch line l1 l2' =>
    have hl2 : SameTime n (if l2' then l2Access n (line * 128) false false (hintOf a.hint).prefetch else n) := by
      split
      · exact l2 (.touch n _ _ _ _ _)
      · rfl
    exact hl2.trans (.ite (l1Fill _ _ _) (refl _))
  | pin lines home d =>
    dsimp only
    split
    · exact foldl (fun k x => pinLine cx home k x) lines n
    · rfl
  | unpin lines => exact unpinLines cx _ n
  | invalidate line => cases line <;> rfl
  | readRoot k d =>
    dsimp only
    split <;> rfl
  | fence | testFull | barrierTest | give => rfl
theorem performAll (m : Mach) (cx : Nat) : SameTime m (performAll m cx) := foldl (fun n a => performAccess n cx a) _ _

/-! A seat that goes. -/
theorem engWrite {m n : Mach} {cx va : Nat} {bs : List Byte} {sub : Bool} (h : engWrite m cx va bs sub = .ok n) : SameTime m n := by
  unfold Machine.engWrite at h
  cases hb : engBytes m cx va bs.length .write sub with
  | error e => rw [hb] at h; cases h
  | ok r =>
    rw [hb] at h
    cases r with
    | inr d => cases h; exact notifyWrite m _ _ _
    | inl ls =>
      change (if underReset m cx ls then _ else Except.ok (m.writeLocs ls bs)) = Except.ok n at h
      split at h
      · cases h
      · cases h; exact writeLocs m _ _
theorem engWriteBits {m n : Mach} {cx va bit w code : Nat} {whole sub : Bool} (h : engWriteBits m cx va bit w code whole sub = .ok n) :
    SameTime m n := by
  unfold Machine.engWriteBits at h
  cases hb : engBytes m cx va 1 .write sub with
  | error e => rw [hb] at h; cases h
  | ok r =>
    rw [hb] at h
    cases r with
    | inr d => cases h; exact notifyWrite m _ _ _
    | inl ls =>
      change (if underReset m cx ls then _ else Except.ok (m.writePart ls _ whole)) = Except.ok n at h
      split at h
      · cases h
      · cases h; exact writePart m _ _ _
theorem moveSub {m n : Mach} {cx : Nat} {c : Ctx} {u : Sub} {x : SubItem} (h : moveSub m cx c u x = .ok n) : SameTime m n := by
  have stops : ∀ e : CopyStop, (match e with | .fault f => Except.error f | _ => .error { cause := 0x0A, addr := BitVec.ofNat 64 x.va }) ≠
      (Except.ok n : Except FaultRec Mach) := fun e => by cases e <;> nofun
  unfold Machine.moveSub at h
  dsimp only at h
  split at h
  · split at h
    · cases h
    · split at h
      · split at h
        · exact absurd h (stops _)
        · next hw => cases h; exact engWriteBits hw
      · split at h
        · exact absurd h (stops _)
        · next hw => cases h; exact engWrite hw
  · split at h
    · exact absurd h (stops _)
    · cases h
      split
      · exact writePart m _ _ _
      · exact writeLocs m _ _
theorem subMoves (cx : Nat) (u : Sub) (n : Nat) (xs : List SubItem) (m : Mach) : SameTime m (subMoves cx u n xs m).1 := by
  induction n generalizing xs m with
  | zero => rfl
  | succ n ih =>
    cases xs with
    | nil => rfl
    | cons x xs =>
      unfold Machine.subMoves
      cases hm : Machine.moveSub m cx (m.ctx cx) u x with
      | error f => rfl
      | ok k => exact (moveSub hm).trans (ih xs _)
theorem subEnd (m : Mach) (cx ring : Nat) (pull : Bool) : SameTime m (subEnd m cx ring pull) := by
  unfold Machine.subEnd
  cases (m.ctx cx).sub? ring with
  | none => rfl
  | some u =>
    dsimp only
    split
    · rfl
    · have hmoves := subMoves cx u (subItems m cx u).length ((subItems m cx u).drop u.moved) m
      generalize Machine.subMoves cx u _ _ m = r at hmoves ⊢
      obtain ⟨k, moved⟩ := r
      cases moved with
      | false => exact hmoves
      | true => exact hmoves.trans ((l2 (.subL2 k cx u _)).trans (setLines _ _ _))
theorem endSubs (m : Mach) (cx : Nat) : SameTime m (endSubs m cx) := by
  unfold Machine.endSubs
  refine foldl (fun n u => ?_) _ _
  exact (subEnd n cx u.ring.toNat u.pull)
theorem returnWeight (m : Mach) (r : RootRef) (w : Word) : SameTime m (m.returnWeight r w) := by rw [returnWeight_frame]; rfl
theorem returnAll (m : Mach) (r : RootRef) (ws : List Word) : SameTime m (m.returnAll r ws) := foldl (fun n w => returnWeight n r w) _ _
theorem dropOps (m : Mach) (cx : Nat) (swap : Bool) : SameTime m (dropOps m cx swap) := by
  unfold Machine.dropOps
  cases swap with
  | true => rfl
  | false => exact returnAll m _ _
/-- What a seat's end does to one context of it: its accesses land, its subscriptions end, its pins and its operations go. -/
theorem leave (m : Mach) (cx : Nat) (pins : List Nat) :
    SameTime m (Machine.dropOps (pins.foldl (unpinLine cx) (Machine.endSubs ((Machine.performAll m cx).dropWaiter cx) cx)) cx true) := by
  have hwaiter : SameTime (Machine.performAll m cx) ((Machine.performAll m cx).dropWaiter cx) := rfl
  exact (performAll m cx).trans (hwaiter.trans ((endSubs _ cx).trans ((unpinLines cx _ _).trans (dropOps _ cx true))))
/-- Taking a seat from a launch takes no time of its own. -/
theorem dropSeat (m : Mach) (st : SeatRec) : SameTime m (dropSeat m st) := by
  unfold Machine.dropSeat
  refine SameTime.trans (foldl (fun n cx => ?_) st.ctxs m) (.ite rfl rfl)
  exact leave n cx _
theorem zeroRegion (m : Mach) (k base size : Nat) : SameTime m (zeroRegion m k base size) := rfl
end SameTime

end Sys2Proof.Proofs
end

section
/-! SUPPORT. The governor, power gating, the resets and soft errors (12 R222, R223; 14 R276; 16 R316; 18 R355, R356). -/
namespace Sys2Proof.Proofs
open Sys2Proof.Machine Sys2Proof.Safety Sys2Proof.Claims

/-! The governor and the gate. -/
theorem governor_early {m : Mach} {avg : Nat} (h : m.time.toNat < m.govAt.toNat) : governor m avg = m := if_pos h
/-- At its sample the governor moves its clock by the band the average is in. -/
theorem governor_due {m : Mach} {avg : Nat} (h : m.govAt.toNat ≤ m.time.toNat) :
    (governor m avg).govAt = m.time + 65536 ∧ (governor m avg).ctxs = m.ctxs ∧ (governor m avg).govK =
      if m.mgmtAt 0x048 < avg then max 16 (m.govK - 1) else if 100 * avg < 95 * m.mgmtAt 0x048 then min 32 (m.govK + 1) else m.govK := by
  unfold governor
  rw [if_neg (by omega)]
  exact ⟨rfl, rfl, rfl⟩
theorem gateCore_idle {m : Mach} {k : Nat} (hs : seatsOn m k = []) (hw : (m.core k).waking = false)
    (hi : 2 ^ 20 ≤ (m.time - (m.core k).idleSince).toNat) :
    gateCore m k = m.modCore k fun c => { c with gated := true, icache := [], l1 := [], tlb := [] } := by
  unfold gateCore
  rw [if_pos (by rw [hs, hw, decide_eq_true hi]; rfl)]
theorem gateCore_busy {m : Mach} {k : Nat}
    (h : seatsOn m k ≠ [] ∨ (m.core k).waking = true ∨ (m.time - (m.core k).idleSince).toNat < 2 ^ 20) : gateCore m k = m := by
  unfold gateCore
  rw [if_neg]
  simp only [Bool.and_eq_true, List.isEmpty_iff, Bool.not_eq_true', decide_eq_true_eq]
  rintro ⟨⟨hs, hw⟩, hi⟩
  rcases h with h | h | h
  · exact h hs
  · rw [hw] at h
    cases h
  · exact absurd hi (Nat.not_le.2 h)
theorem wakeCore_waking {m : Mach} {k : Nat} (h : (m.core k).waking = true) : wakeCore m k = m.modCore k fun c => { c with gated := false } := if_pos h
theorem wakeCore_asleep {m : Mach} {k : Nat} (h : (m.core k).waking = false) : wakeCore m k = m := if_neg (by simp [h])

/-! A core's reset. -/
/-- A fold has what one of its steps establishes and every step keeps. -/
theorem foldl_establishes {α β : Type} {P : β → Prop} {f : β → α → β} {l : List α} {x : α} (hx : x ∈ l) (hp : ∀ b, P (f b x))
    (hk : ∀ b a, P b → P (f b a)) (b : β) : P (l.foldl f b) := by
  obtain ⟨xs, ys, rfl⟩ := List.append_of_mem hx
  rw [List.foldl_append]
  exact foldl_keeps P f hk ys _ (hp _)
theorem cget_filter (p : Nat → Bool) (l : List Host.Cell) (k : Nat) : cget (l.filter fun c => p c.1) k = if p k then cget l k else 0 := by
  induction l with
  | nil => simp [cget]
  | cons x l ih =>
    obtain ⟨j, v⟩ := x
    by_cases hj : j = k
    · subst hj
      cases hp : p j <;> simp_all [cget]
    · cases hp : p j <;> simp [hp, cget, ih, hj]
/-- A region made zero reads zero; every other location reads as before. -/
theorem read_zeroRegion (m : Mach) (k base size a : Nat) : (zeroRegion m k base size).read (.scratch a) =
    if scratchKey k base ≤ a ∧ a < scratchKey k base + size then 0 else m.read (.scratch a) := by
  refine (cget_filter (fun a => !(decide (scratchKey k base ≤ a) && decide (a < scratchKey k base + size))) m.scratch a).trans ?_
  by_cases ha : scratchKey k base ≤ a ∧ a < scratchKey k base + size
  · simp [ha]
  · rw [if_neg ha, if_pos]
    · rfl
    · simp only [not_and, Nat.not_lt] at ha
      simp only [Bool.not_eq_true', Bool.and_eq_false_imp, decide_eq_true_eq, decide_eq_false_iff_not, Nat.not_lt]
      exact ha
/-- The contexts of some seats, made free. -/
def freeSeats (m : Mach) (seats : List SeatRec) : Mach := seats.foldl (fun m st => st.ctxs.foldl (fun m cx => m.setCtx cx {}) m) m
/-- The seats of a core, dropped with their regions zero. -/
def dropSeats (m : Mach) (k : Nat) (seats : List SeatRec) : Mach :=
  seats.foldl (fun m st => zeroRegion m k st.base st.size) (seats.foldl dropSeat m)
theorem time_dropSeats (m : Mach) (k : Nat) (seats : List SeatRec) : SameTime m (dropSeats m k seats) :=
  (SameTime.foldl SameTime.dropSeat seats m).trans (.foldl (fun n (st : SeatRec) => .zeroRegion n k st.base st.size) _ _)
theorem read_dropSeats (m : Mach) (k : Nat) {seats : List SeatRec} {st : SeatRec} {o : Nat} (hst : st ∈ seats) (ho : o < st.size) :
    (dropSeats m k seats).read (.scratch (scratchKey k (st.base + o))) = 0 := by
  refine foldl_establishes (P := fun n : Mach => n.read (.scratch (scratchKey k (st.base + o))) = 0) hst (fun n => ?_) (fun n x hn => ?_) _
  · rw [read_zeroRegion, if_pos]
    unfold scratchKey
    omega
  · rw [read_zeroRegion, hn, ite_self]
theorem freeSeats_keeps {P : Mach → Prop} (hP : ∀ n cx, P n → P (n.setCtx cx {})) {m : Mach} (seats : List SeatRec) (h : P m) : P (freeSeats m seats) :=
  foldl_keeps P _ (fun n st hn => foldl_keeps P _ hP st.ctxs n hn) seats m h
theorem ctx_freeSeats (m : Mach) {seats : List SeatRec} {st : SeatRec} {cx : Nat} (hst : st ∈ seats) (hcx : cx ∈ st.ctxs) :
    (freeSeats m seats).ctx cx = {} := by
  have hkeep : ∀ (n : Mach) (j : Nat), n.ctx cx = {} → (n.setCtx j {}).ctx cx = {} := fun n j hn => by
    by_cases hj : j = cx
    · rw [hj, ctx_setCtx_same]
    · rw [ctx_setCtx_ne n _ hj, hn]
  exact foldl_establishes (P := fun n : Mach => n.ctx cx = {}) hst
    (fun n => foldl_establishes (P := fun n : Mach => n.ctx cx = {}) hcx (fun k => ctx_setCtx_same k cx {}) hkeep n)
    (fun n x hn => foldl_keeps (fun n : Mach => n.ctx cx = {}) _ hkeep x.ctxs n hn) m
theorem coreReset_leave {m : Mach} {k : Nat} (h : (m.core k).inReset = true) :
    coreReset m k true = (freeSeats (dropSeats m k (seatsOn m k)) (seatsOn m k)).setCore k { idleSince := m.time } := by
  have htime : (freeSeats (dropSeats m k (seatsOn m k)) (seatsOn m k)).time = m.time :=
    freeSeats_keeps (fun _ _ hn => hn) _ (time_dropSeats m k _)
  rw [← htime]
  unfold coreReset
  rw [if_neg (by simp), if_neg (by simp [h])]
  rfl

/-! Soft errors. -/
theorem mem_marked {errs : List ErrSite} {site x : ErrSite} : x ∈ (errs ++ [site]).eraseDups ↔ x ∈ errs ∨ x = site := by simp [List.mem_eraseDups]
theorem tile_setTile_ne (c : Ctx) {n k : Nat} (x : Tile) (h : k ≠ n) : (c.setTile n x).tile k = c.tile k := mget_mset_ne _ _ _ (Ne.symm h)
theorem softError_marks {m : Mach} {site : ErrSite} (hc : ∀ k a, site ≠ .icache k a ∧ site ≠ .l1 k a) (ht : ∀ cx n i sc, site ≠ .tile cx n i sc) :
    softError m site false = { m with errs := (m.errs ++ [site]).eraseDups } := by
  cases site with
  | icache k a => exact absurd rfl (hc k a).1
  | l1 k l => exact absurd rfl (hc k l).2
  | tile cx n i sc => exact absurd rfl (ht cx n i sc)
  | hbm pa => rfl
  | scratch k o => rfl
  | bank cx b => rfl

/-- A soft error in a tile drops its byte, leaves every other tile and context, and marks its site. -/
theorem softError_tile (m : Mach) (cx n i : Nat) (sc : Bool) :
    let t := softError m (.tile cx n i sc) false
    t = { m with ctxs := t.ctxs, errs := t.errs } ∧ t.errs = (m.errs ++ [ErrSite.tile cx n i sc]).eraseDups ∧ (∀ j, j ≠ cx → t.ctx j = m.ctx j) ∧
    (∀ k, k ≠ n → (t.ctx cx).tile k = (m.ctx cx).tile k) ∧ (t.ctx cx).tile n = (let x := (m.ctx cx).tile n
      if sc then { x with scales := mdel x.scales i } else { x with data := mdel x.data i, part := mdel x.part i }) := by
  refine ⟨rfl, rfl, fun j hj => ?_, fun k hk => ?_, ?_⟩
  · exact mget_mset_ne _ m.ctxs _ (Ne.symm hj)
  · refine (congrArg (fun c => c.tile k) (mget_mset_same _ m.ctxs cx _)).trans ?_
    exact tile_setTile_ne _ _ hk
  · refine (congrArg (fun c => c.tile n) (mget_mset_same _ m.ctxs cx _)).trans ?_
    exact tile_setTile_same _ _ _

/-! The statement. -/
theorem next_put {s : State} {m n : Mach} (h : m = n) : (.next { s with m := m } : Host.Outcome State Fault Refusal) = .next (put s n) := by rw [h]; rfl

/-- Settles O58: the governor by its band, the gate by its three conditions, a core's reset by the folds over its seats, a soft error by its site. -/
theorem powerAndResets : Obligations.PowerAndResets := by
  unfold Obligations.PowerAndResets
  refine ⟨fun s avg => ⟨fun h => next_put (governor_early h), fun h => ?governor⟩,
    fun s k => ⟨fun hs hw hi => next_put (gateCore_idle hs hw hi), fun h => next_put (gateCore_busy h), fun h => next_put (wakeCore_waking h),
      fun h => next_put (wakeCore_asleep h)⟩,
    fun s k => ⟨rfl, fun h => ?coreReset⟩, fun s b g => ⟨_, rfl, rfl, rfl, rfl, rfl, rfl, rfl, rfl, rfl, rfl, rfl, rfl, rfl⟩,
    fun s site => rfl, fun s k a => rfl, fun s k l => rfl, fun s cx n i sc => ?tile,
    fun s site hc ht => ⟨_, next_put (softError_marks hc ht), rfl, fun x => mem_marked⟩⟩
  case governor =>
    obtain ⟨hat, hctxs, hk⟩ := governor_due (avg := avg) h
    refine ⟨put s (governor s.m avg), rfl, hat, hctxs, fun hhigh => ?_, fun hlow => ?_, fun hle hge => ?_⟩
    · exact hk.trans (if_pos hhigh)
    · exact hk.trans ((if_neg (by omega)).trans (if_pos hlow))
    · exact hk.trans ((if_neg (by omega)).trans (if_neg (by omega)))
  case coreReset =>
    refine ⟨_, next_put (coreReset_leave h), core_setCore_same _ k _, fun st hst => ⟨fun cx hcx => ctx_freeSeats _ hst hcx, fun o ho => ?_⟩⟩
    refine (read_setCore _ k _ _).trans ?_
    exact freeSeats_keeps (P := fun n : Mach => n.read (.scratch (scratchKey k (st.base + o))) = 0) (fun n cx hn => (read_setCtx n cx {} _).trans hn) _
      (read_dropSeats s.m k hst ho)
  case tile =>
    obtain ⟨hm, herrs, hctx, htile, hsame⟩ := softError_tile s.m cx n i sc
    refine ⟨put s (softError s.m (.tile cx n i sc) false), rfl, hm, fun x => ?_, hctx, htile, hsame⟩
    exact (iff_of_eq (congrArg (x ∈ ·) herrs)).trans mem_marked

end Sys2Proof.Proofs
end

section
/-! SUPPORT. Accesses of the G slot that go out: loads, stores, releases and atomics, the fences and the acquire (13 R237 to R241; 14 R265, R266). -/
namespace Sys2Proof.Proofs
open Sys2Proof.Machine Sys2Proof.Safety Sys2Proof.Claims

/-! An access that goes out. -/

section
variable {s : State} (hs : Solo s) {i : Instr} {g : GSlot} {n : Nat} {p : Perm} {onLocs : List Loc → State → State}
  {onNotify : Nat → Nat → State → State} (h : RunsAccess s i g n p onLocs onNotify) (ha : numOf s g % n = 0)
include hs h ha

theorem RunsAccess.retiresAtLocs {ls : List Loc} (hn : namesAt s g n p = .locs ls) {m : Mach}
    (hm : onLocs ls (begun .g s) = { begun .g s with m := m }) (hpc : (m.ctx s.issue.cx).pc = (me s).pc) :
    ∃ t, exec i s = .next t ∧ Retires .g i (nextPc s .g) s m t := by
  obtain ⟨f, he, hf⟩ := h.aligned ha
  rw [he]
  exact run_clean hs .g i f m (by rw [hf, hn]; exact hm) hpc
theorem RunsAccess.retiresAtNotify {d o : Nat} (hn : namesAt s g n p = .notifyReg d o) {m : Mach}
    (hm : onNotify d o (begun .g s) = { begun .g s with m := m }) (hpc : (m.ctx s.issue.cx).pc = (me s).pc) :
    ∃ t, exec i s = .next t ∧ Retires .g i (nextPc s .g) s m t := by
  obtain ⟨f, he, hf⟩ := h.aligned ha
  rw [he]
  exact run_clean hs .g i f m (by rw [hf, hn]; exact hm) hpc

end

/-- Settles O22: a load is an access; its register waits for its bytes, or is given zero of a notify register. -/
theorem loads : Obligations.Loads := by
  intro row hrow g s hs ha hd hal
  have h := runsAccess_loadG hs ha _ _ _ (exec_loadTable hrow g s) hd
  exact ⟨fun ls hn => h.retiresAtLocs hs hal hn (push_pend .g _ _ hd) (pc_outAfter ..),
    fun d o hn => h.retiresAtNotify hs hal hn (giveTo_begun .g _ 0 hd) (pc_outAfter ..)⟩

/-- Settles O23: a store or a release is an access with the bytes of sd, or a notify. -/
theorem stores : Obligations.Stores := by
  intro row hrow g s hs ha hd hal
  have h := runsAccess_storeG hs ha _ _ _ (exec_storeTable hrow g s) hd
  exact ⟨fun ls hn => h.retiresAtLocs hs hal hn (push_begun .g _) (pc_outAfter ..),
    fun d o hn => h.retiresAtNotify hs hal hn (push_begun .g _) (pc_outAfter ..)⟩

/-- Settles O26: an atomic is an access, and one that reaches no host page goes out, in order as its scope says. -/
theorem atomics : Obligations.Atomics := by
  intro row hrow g s ls hs ha hd hd' ho hal hn hhost
  have h := runsAccess_atomicG hs ha _ _ _ (exec_atomicTable hrow g s) hd hd' ho
  refine h.retiresAtLocs hs hal hn ((if_neg (Bool.eq_false_iff.1 hhost)).trans ?_) (pc_outAfter ..)
  rw [rs_begun, rs_begun]
  exact push_pend .g _ _ ho

/-! FENCE, DRAIN and ACQ (14 R265). -/

/-- What an acquire does with the bytes its address names, and with a notify register, which reads zero. -/
def acquireFrom (g : GSlot) (r : RegRef) (l : List Loc) (s : State) : State :=
  pushAccess { uid := 0, kind := .acquire r.dest?, locs := l, addr := gAddr s g, blocksLater := true, dropL1 := wide g } (pendOn r s)
def acquireZero (g : GSlot) (r : RegRef) (_ _ : Nat) (s : State) : State :=
  pushAccess { uid := 0, kind := .give r.dest? 0, addr := gAddr s g, blocksLater := true, dropL1 := wide g } (pendOn r s)
theorem runsAccess_acq {s : State} (hs : Solo s) {g : GSlot} (ha : AddrFree s g) (hd : Open s (reg s g.sd)) :
    RunsAccess s (.acq g) g 8 .read (acquireFrom g (reg s g.sd)) (acquireZero g (reg s g.sd)) := by
  have hexec : exec (.acq g) s = execAcq g s := rfl
  unfold execAcq runG at hexec
  refine ⟨_, hexec, ?_⟩
  dsimp only
  rw [reads_begun (reads_addr ha), sr_begun_eq_reg, writesPending_begun hd, whenFree_begun hs, gNat_begun, alignFault_numOf]
  rfl

/-- DRAIN waits for these: an engine operation of the context, or an access of it but a prefetch. -/
def drainBusy (s : State) : Bool :=
  (s.m.core (coreOf s.issue.cx)).ops.any (fun o => o.cx == s.issue.cx) || (me s).busyOut
theorem drainBusy_iff (s : State) : drainBusy s = true ↔
    (∃ o ∈ (s.m.core (coreOf s.issue.cx)).ops, o.cx = s.issue.cx) ∨ ∃ a ∈ (me s).out, a.isPrefetch = false := by
  simp [drainBusy, Ctx.busyOut]
/-- What DRAIN makes of its fresh bundle. -/
def drainEffect (g : GSlot) (s : State) : State :=
  pushAccess (fenceAccess g.hint) (if drainBusy s then stallOn .internal (begun .g s) else begun .g s)
theorem exec_drain {s : State} (g : GSlot) : ∃ f, exec (.drain g) s = runSlot .g (.drain g) f s ∧ f (begun .g s) = drainEffect g s := by
  have hexec : exec (.drain g) s = execDrain g s := rfl
  unfold execDrain runG at hexec
  exact ⟨_, hexec, rfl⟩
theorem drain_retires {s : State} (hs : Solo s) (g : GSlot) (h : drainBusy s = false) :
    ∃ t, exec (.drain g) s = .next t ∧ Retires .g (.drain g) (nextPc s .g) s (outAfter s none (fenceAccess g.hint)) t := by
  obtain ⟨f, he, hf⟩ := exec_drain (s := s) g
  rw [he]
  refine run_clean hs .g _ f _ ?_ (pc_outAfter ..)
  rw [hf, drainEffect, h]
  exact push_begun .g _
theorem drain_waits {s : State} (hs : Solo s) (g : GSlot) (h : drainBusy s = true) : exec (.drain g) s = .next (waiting true s) := by
  obtain ⟨f, he, hf⟩ := exec_drain (s := s) g
  rw [he]
  refine run_waiting hs .g _ f .internal ⟨[], ?_⟩ (by rw [hf, drainEffect, h]; rfl)
  rw [hf, drainEffect, h]
  exact (stallOn_internal_issue _).trans (by rw [begun_issue hs])

/-- Settles O27: FENCE goes out, DRAIN once nothing holds it back, and ACQ is an access. -/
theorem ordering : Obligations.Ordering := by
  intro g s hs
  dsimp only
  rw [← drainBusy_iff]
  refine ⟨run_clean hs .g (.fence g) _ _ (push_begun .g _) (pc_outAfter ..), fun h => drain_retires hs g (Bool.eq_false_iff.2 h), drain_waits hs g,
    fun ls ha hd hal hn => (runsAccess_acq hs ha hd).retiresAtLocs hs hal hn (push_pend .g _ _ hd) (pc_outAfter ..),
    fun d o ha hd hal hn => (runsAccess_acq hs ha hd).retiresAtNotify hs hal hn (push_pend .g _ _ hd) (pc_outAfter ..),
    fun ha hd => (runsAccess_acq hs ha hd).misaligned hs,
    fun f ha hd hal => (runsAccess_acq hs ha hd).unresolved hs hal⟩

end Sys2Proof.Proofs
end

section
/-! SUPPORT. LDP (13 R240; 04 R77). -/
namespace Sys2Proof.Proofs
open Sys2Proof.Machine Sys2Proof.Safety Sys2Proof.Claims

/-- A parameter load within a bundle that has set PARAM_BOUND is the load, and the bit beside it. -/
theorem push_pend_paramBound {s : State} (k : Slot) (r : RegRef) (a : Access) (h : Open s r) :
    pushAccess a (pendOn r (onCtx Ctx.setParamBound (begun k s))) =
      { begun k s with m := (outAfter s r.dest? a).modCtx s.issue.cx Ctx.setParamBound } := by
  have hw : ∀ q, r.dest? = some q → writesPending q (onCtx Ctx.setParamBound (begun k s)) = onCtx Ctx.setParamBound (begun k s) := fun q hq =>
    writesPending_open _ _ fun q' hq' => by
      rw [dest?_eq hq']
      exact h _ hq
  unfold pendOn
  cases hd : r.dest? with
  | none => simp [pushAccess, outAfter, Mach.nextUid, onCtx, Mach.modCtx, Mach.setCtx, Mach.ctx, Ctx.setParamBound]
  | some q =>
    simp only [hw q hd]
    simp [pushAccess, outAfter, Mach.nextUid, onCtx, Mach.modCtx, Mach.setCtx, Mach.ctx, Ctx.setParamBound]

/-- The byte offset of an LDP in its window, and the number of its bytes. -/
def ldpOffset (s : State) (g : GSlot) : Nat := ((me s).s g.sa + (g.disp + s.issue.offset).signExtend 64).toNat
def ldpWidth (g : GSlot) : Nat := 2 ^ (g.sb.toNat % 4)
/-- The address of its first byte, and how many of its bytes lie within the bound. -/
def ldpAt (s : State) (g : GSlot) : Nat := ((windowOf s g.hint).base.toNat + ldpOffset s g) % 2 ^ 64
def ldpBytes (s : State) (g : GSlot) : Nat := min (ldpWidth g) ((windowOf s g.hint).bound.toNat - ldpOffset s g)
/-- What LDP makes of its bundle, once the bytes within the bound are known. -/
def ldpRead (s : State) (g : GSlot) (t : State) : State :=
  if ldpBytes s g = 0 then giveTo (reg s g.sd) 0 t
  else withRes .g (resolveAt s.m s.issue.cx (ldpAt s g) (ldpBytes s g) [.read]) false
    (fun l t => pushAccess { uid := 0, kind := .load (reg s g.sd).dest? (g.sb.getLsbD 2 && ldpBytes s g == ldpWidth g) (ldpWidth g), locs := l,
                             addr := BitVec.ofNat 64 (ldpAt s g) } (pendOn (reg s g.sd) t))
    (fun _ _ t => giveTo (reg s g.sd) 0 t) t
/-- What LDP makes of its fresh bundle. -/
def ldpEffect (s : State) (g : GSlot) : State :=
  if (windowOf s g.hint).access = 0 then faultAt .g { cause := 0x06 } (begun .g s)
  else if (windowOf s g.hint).access ≠ 3 then faultAt .g { cause := 0x07 } (begun .g s)
  else ldpRead s g (if ldpBytes s g < ldpWidth g then onCtx Ctx.setParamBound (begun .g s) else begun .g s)

section
variable {s : State} (hs : Solo s) {g : GSlot} (ha : Free s (reg s g.sa)) (hd : Open s (reg s g.sd))
include hs ha hd

theorem exec_ldp : ∃ f, exec (.ldp g) s = runSlot .g (.ldp g) f s ∧ f (begun .g s) = ldpEffect s g := by
  have hexec : exec (.ldp g) s = execLdp g s := rfl
  have hset : ∀ p : Prop, [Decidable p] → pre (if p then onCtx Ctx.setParamBound (begun .g s) else begun .g s) = s.m ∧
      (if p then onCtx Ctx.setParamBound (begun .g s) else begun .g s).issue.cx = s.issue.cx := fun p _ => by split <;> exact ⟨rfl, rfl⟩
  unfold execLdp runG at hexec
  refine ⟨_, hexec, ?_⟩
  dsimp only
  rw [sr_begun_eq_reg, sr_begun_eq_reg, reads_begun (List.forall_mem_singleton.2 ha), writesPending_begun hd, whenFree_begun hs, windowOf_begun hs]
  simp only [(hset _).1, (hset _).2]
  rfl
theorem ldp_faults {f : FaultRec} (hf : ldpEffect s g = faultAt .g f (begun .g s)) : exec (.ldp g) s = .next (trapped .g f s) := by
  obtain ⟨e, he, hfe⟩ := exec_ldp hs ha hd
  rw [he]
  exact run_faulted hs .g _ e f (hfe.trans hf)
theorem ldp_retires {m : Mach} (hm : ldpEffect s g = { begun .g s with m := m }) (hpc : (m.ctx s.issue.cx).pc = (me s).pc) :
    ∃ t, exec (.ldp g) s = .next t ∧ Retires .g (.ldp g) (nextPc s .g) s m t := by
  obtain ⟨e, he, hfe⟩ := exec_ldp hs ha hd
  rw [he]
  exact run_clean hs .g _ e m (hfe.trans hm) hpc

end
theorem ldpWidth_pos (g : GSlot) : 0 < ldpWidth g := Nat.two_pow_pos _
theorem ldpEffect_parameter {s : State} {g : GSlot} (hw : (windowOf s g.hint).access = 3) :
    ldpEffect s g = ldpRead s g (if ldpBytes s g < ldpWidth g then onCtx Ctx.setParamBound (begun .g s) else begun .g s) := by
  rw [ldpEffect, hw]
  rfl
section
variable {s : State} {g : GSlot} (hd : Open s (reg s g.sd)) (hw : (windowOf s g.hint).access = 3)
include hd hw

theorem ldpEffect_within {ls : List Loc} (hb : ldpOffset s g + ldpWidth g ≤ (windowOf s g.hint).bound.toNat)
    (hn : resolveAt s.m s.issue.cx (ldpAt s g) (ldpWidth g) [.read] = .locs ls) :
    ldpEffect s g = { begun .g s with m := (outAfter s (reg s g.sd).dest?
      { uid := 0, kind := .load (reg s g.sd).dest? (g.sb.getLsbD 2) (ldpWidth g), locs := ls, addr := BitVec.ofNat 64 (ldpAt s g) }) } := by
  have hwidth := ldpWidth_pos g
  have hbytes : ldpBytes s g = ldpWidth g := Nat.min_eq_left (by omega)
  rw [ldpEffect_parameter hw, ldpRead, hbytes, if_neg (by omega), if_neg (by omega), hn]
  simp only [beq_self_eq_true, Bool.and_true]
  exact push_pend .g _ _ hd
theorem ldpEffect_across {ls : List Loc} (ho : ldpOffset s g < (windowOf s g.hint).bound.toNat)
    (hb : (windowOf s g.hint).bound.toNat < ldpOffset s g + ldpWidth g)
    (hn : resolveAt s.m s.issue.cx (ldpAt s g) ((windowOf s g.hint).bound.toNat - ldpOffset s g) [.read] = .locs ls) :
    ldpEffect s g = { begun .g s with
      m := (outAfter s (reg s g.sd).dest?
        { uid := 0, kind := .load (reg s g.sd).dest? false (ldpWidth g), locs := ls, addr := BitVec.ofNat 64 (ldpAt s g) }).modCtx
          s.issue.cx Ctx.setParamBound } := by
  have hbytes : ldpBytes s g = (windowOf s g.hint).bound.toNat - ldpOffset s g := Nat.min_eq_right (by omega)
  have hne : ((windowOf s g.hint).bound.toNat - ldpOffset s g == ldpWidth g) = false := beq_eq_false_iff_ne.2 (by omega)
  rw [ldpEffect_parameter hw, ldpRead, hbytes, if_neg (by omega), if_pos (by omega), hn, hne, Bool.and_false]
  exact push_pend_paramBound .g _ _ hd
theorem ldpEffect_beyond (hb : (windowOf s g.hint).bound.toNat ≤ ldpOffset s g) :
    ldpEffect s g = { begun .g s with m := (gives s (reg s g.sd) 0).modCtx s.issue.cx Ctx.setParamBound } := by
  have hwidth := ldpWidth_pos g
  have hbytes : ldpBytes s g = 0 := by unfold ldpBytes; omega
  rw [ldpEffect_parameter hw, ldpRead, hbytes, if_pos rfl, if_pos hwidth]
  exact push_pend_paramBound .g _ _ hd

end
/-- PARAM_BOUND leaves the pc. -/
theorem pc_modCtx_paramBound (m : Mach) (cx : Nat) : ((m.modCtx cx Ctx.setParamBound).ctx cx).pc = (m.ctx cx).pc := by
  rw [ctx_modCtx_same]
  rfl

/-- Settles O25: the access of the window, then the place of the bytes against its bound. -/
theorem parameterLoads : Obligations.ParameterLoads := by
  intro g s hs ha hd
  refine ⟨fun hw => ldp_faults hs ha hd (if_pos hw), fun h0 h3 => ldp_faults hs ha hd ((if_neg h0).trans (if_pos h3)),
    fun ls hw hb hn => ldp_retires hs ha hd (ldpEffect_within hd hw hb hn) (pc_outAfter ..),
    fun ls hw ho hb hn => ldp_retires hs ha hd (ldpEffect_across hd hw ho hb hn) ((pc_modCtx_paramBound ..).trans (pc_outAfter ..)),
    fun hw hb => ldp_retires hs ha hd (ldpEffect_beyond hd hw hb) ((pc_modCtx_paramBound ..).trans (pc_outAfter ..))⟩

end Sys2Proof.Proofs
end

section
/-! SUPPORT. SETF, SETE and TESTF (13 R247). -/
namespace Sys2Proof.Proofs
open Sys2Proof.Machine Sys2Proof.Safety Sys2Proof.Claims

/-- What an instruction on a full bit makes of its fresh bundle. -/
theorem bitLine_begun {s : State} (hs : Solo s) {g : GSlot} (ha : AddrFree s g) (write : Bool) (f : Nat → State → State) :
    bitLine g write f (begun .g s) = withRes .g (scratchAt s.m s.issue.cx (numOf s g) 1 write) write
      (fun l s => match l with | .scratch k :: _ => f (lineOfKey k) s | _ => s) (fun _ _ s => s) (begun .g s) := by
  rw [bitLine, reads_begun (reads_addr ha), whenFree_begun hs]
  rfl
theorem bitLine_scratch {s : State} (hs : Solo s) {g : GSlot} (ha : AddrFree s g) {write : Bool} (f : Nat → State → State) {k : Nat}
    (hk : scratchByte s g write k) : bitLine g write f (begun .g s) = f (lineOfKey k) (begun .g s) := by
  obtain ⟨rest, hk⟩ := hk
  rw [bitLine_begun hs ha, hk]
  rfl
theorem bitLine_faults {s : State} (hs : Solo s) {g : GSlot} (ha : AddrFree s g) {write : Bool} (f : Nat → State → State) {fr : FaultRec}
    (hf : scratchAt s.m s.issue.cx (numOf s g) 1 write = .fault fr ∨ ApertureFault s (numOf s g) 1 write fr ∨ NoAperture (numOf s g) write fr) :
    bitLine g write f (begun .g s) = faultAt .g fr (begun .g s) := by
  have hf' : scratchAt s.m s.issue.cx (numOf s g) 1 write = .fault fr :=
    hf.elim id fun h => h.elim scratchAt_of_apertureFault scratchAt_of_noAperture
  rw [bitLine_begun hs ha, hf']
  rfl
/-- TESTF over a fresh bundle: its predicate may be set pending. -/
theorem exec_testf {s : State} (g : GSlot) (ho : Open s (predOf g)) :
    ∃ f, exec (.testf g) s = runSlot .g (.testf g) f s ∧ f (begun .g s) = bitLine g false (fun n s =>
      pushAccess { uid := 0, kind := .testFull n (predOf g).dest?, addr := gAddr s g } (pendOn (predOf g) s)) (begun .g s) := by
  have hexec : exec (.testf g) s = execTestf g s := rfl
  unfold execTestf runG at hexec
  refine ⟨_, hexec, ?_⟩
  dsimp only
  rw [show RegRef.p (g.sd.toNat % 8) = predOf g from rfl, writesPending_begun ho]

/-- Settles O29: each acts on the line that its aperture address names, or is the fault of the address. -/
theorem fullBits : Obligations.FullBits := by
  refine ⟨fun g s f hs ha => ⟨fun hf => ⟨?_, ?_⟩, fun ho hf => ?_⟩, fun g s k hs ha => ⟨fun hk => ⟨?_, ?_⟩, fun hk ho => ?_⟩⟩
  · exact run_faulted hs .g (.setf g) _ f (bitLine_faults hs ha _ hf)
  · exact run_faulted hs .g (.sete g) _ f (bitLine_faults hs ha _ hf)
  · obtain ⟨e, he, hfe⟩ := exec_testf g ho
    rw [he]
    exact run_faulted hs .g _ e f (hfe.trans (bitLine_faults hs ha _ hf))
  · exact run_clean hs .g (.setf g) _ _ ((bitLine_scratch hs ha _ hk).trans (push_begun .g _)) (pc_outAfter ..)
  · exact run_clean hs .g (.sete g) _ _ ((bitLine_scratch hs ha _ hk).trans (push_begun .g _)) (pc_outAfter ..)
  · obtain ⟨e, he, hfe⟩ := exec_testf g ho
    rw [he]
    exact run_clean hs .g _ e _ (hfe.trans ((bitLine_scratch hs ha _ hk).trans (push_pend .g _ _ ho))) (pc_outAfter ..)

end Sys2Proof.Proofs
end

section
/-! SUPPORT. RSEED and RNEXT (13 R252). -/
namespace Sys2Proof.Proofs
open Sys2Proof.Machine Sys2Proof.Safety Sys2Proof.Claims

/-- RSEED over a fresh bundle leaves its seeds to the commit. -/
theorem exec_rseed {s : State} {g : GSlot} (ha : AddrFree s g) :
    ∃ f, exec (.rseed g) s = runSlot .g (.rseed g) f s ∧ f (begun .g s) = { begun .g s with issue := { (begun .g s).issue with
      seedKey := some (((me s).s g.sa).setWidth 32), seedCtr := some (((me s).s g.sb).setWidth 32) } } := by
  have hexec : exec (.rseed g) s = execRseed g s := rfl
  unfold execRseed runG at hexec
  refine ⟨_, hexec, ?_⟩
  dsimp only
  rw [← gSources, reads_begun (reads_addr ha)]
  rfl
theorem rseed_retires {s : State} (hs : Solo s) {g : GSlot} (ha : AddrFree s g) :
    ∃ t, exec (.rseed g) s = .next t ∧ Retires .g (.rseed g) (nextPc s .g) s
      (onMe s s.m fun c => { c with drawKey := ((me s).s g.sa).setWidth 32, drawCtr := ((me s).s g.sb).setWidth 32 }) t := by
  obtain ⟨f, he, hf⟩ := exec_rseed ha
  rw [he]
  obtain ⟨t, ht, hr⟩ := run_retires hs .g (.rseed g) f [] [] (some (((me s).s g.sa).setWidth 32)) (some (((me s).s g.sb).setWidth 32)) none hf
    (by rw [begun_issue hs]) rfl rfl rfl rfl
  exact ⟨t, ht, hr⟩
/-- A frozen write and the counter's step together (07 R122; R252). -/
theorem frozenTo_counted {s : State} (k : Slot) (r : RegRef) (v : Word) (hd : Writable s r) :
    onCtx (fun c => { c with drawCtr := c.drawCtr + 1 }) (frozenTo r 1 v (begun k s)) =
      { begun k s with m := onMe s s.m fun c => { andWrites c r.dest? v with drawCtr := c.drawCtr + 1 } } := by
  rw [frozenTo_begun k r 1 v hd]
  cases r.dest? <;> simp [frozenIn, onCtx, onMe, andWrites, Mach.modCtx, Mach.setCtx, Mach.ctx]
theorem rnext_retires {s : State} (hs : Solo s) {g : GSlot} (hd : Writable s (reg s g.sd)) :
    ∃ t, exec (.rnext g) s = .next t ∧ Retires .g (.rnext g) (nextPc s .g) s
      (onMe s s.m fun c =>
        { andWrites c (reg s g.sd).dest? ((mix ((me s).drawKey ^^^ (me s).drawCtr)).setWidth 64) with drawCtr := c.drawCtr + 1 }) t := by
  have hexec : exec (.rnext g) s = execRnext g s := rfl
  unfold execRnext runG at hexec
  rw [hexec]
  exact run_clean hs .g (.rnext g) _ (onMe s s.m fun c => _) (frozenTo_counted .g (reg s g.sd) _ hd) (by rw [onMe, ctx_modCtx_same]; rfl)

/-- Settles O34: RSEED leaves its seeds to the commit, RNEXT writes its draw and steps the counter. -/
theorem drawGenerator : Obligations.DrawGenerator := fun _ _ hs => ⟨rseed_retires hs, rnext_retires hs⟩

end Sys2Proof.Proofs
end

section
/-! SUPPORT. Subscriptions of the G slot: SUBSCR, SUBCAN and SLOTDONE (13 R248, R250, R251; 14 R262, R265). -/
namespace Sys2Proof.Proofs
open Sys2Proof.Machine Sys2Proof.Safety Sys2Proof.Claims

/-! Fences. -/

theorem afterFences_begun {s : State} (hs : Solo s) (hu : Unfenced s) (f : State → State) : afterFences f (begun .g s) = f (begun .g s) := by
  have hout : (preCtx (begun .g s)).out.any (·.blocksLater) = false := List.any_eq_false.2 fun a ha => by simp [hu a ha]
  rw [afterFences, hout, if_neg Bool.false_ne_true, whenFree_begun hs]

/-- A change of the issuing context that leaves its pc. -/
theorem pc_onMe {s : State} {m : Mach} {f : Ctx → Ctx} (hf : ∀ c, (f c).pc = c.pc) :
    ((onMe s m f).ctx s.issue.cx).pc = (m.ctx s.issue.cx).pc := by
  rw [onMe, ctx_modCtx_same, hf]

/-! Checks in a row (R248): the first that fails is the fault. -/

/-- The fault of the first check that fails, or else what comes after them. -/
def afterChecks (checks : List (Option FaultRec)) (t go : State) : State :=
  match checks.findSome? id with
  | some f => faultAt .g f t
  | none => go

section
variable {checks : List (Option FaultRec)} {t go : State}

theorem afterChecks_cons (c : Option FaultRec) :
    afterChecks (c :: checks) t go = match c with | some f => faultAt .g f t | none => afterChecks checks t go := by
  cases c <;> rfl
theorem afterChecks_cons_if (p : Prop) [Decidable p] (f : FaultRec) :
    afterChecks ((if p then some f else none) :: checks) t go = if p then faultAt .g f t else afterChecks checks t go := by
  split <;> rfl
theorem afterChecks_fails {f : FaultRec} (h : checks.findSome? id = some f) : afterChecks checks t go = faultAt .g f t := by rw [afterChecks, h]
theorem afterChecks_pass (h : checks.findSome? id = none) : afterChecks checks t go = go := by rw [afterChecks, h]

end

/-! Block borders (R248, R255). -/

/-- A step of 16 bits as the shape fault reports it: in 16 bits where it is negative. -/
theorem unsgn_step (y : Nat) : unsgn (if sgn 16 y < 0 then 16 else 32) (sgn 16 y) = unsgn 16 (sgn 16 y) := by
  have hrange : -(2 ^ 15 : Int) ≤ sgn 16 y ∧ sgn 16 y < 2 ^ 15 := by
    unfold sgn
    split <;> omega
  split
  · rfl
  · unfold unsgn
    omega
theorem unsgn_natCast {x : Nat} (h : x < 2 ^ 32) : unsgn (if (x : Int) < 0 then 16 else 32) x = x := by
  rw [if_neg (by omega), unsgn]
  omega
/-- The first of the three numbers of an axis that is no multiple of the block. -/
theorem find?_off (n : Nat) (a d e : Int) : ([a, d, e].find? fun x : Int => x % n ≠ 0) =
    if a % n ≠ 0 then some a else if d % n ≠ 0 then some d else if e % n ≠ 0 then some e else none := by
  simp only [List.find?_cons, List.find?_nil]
  split_ifs <;> simp_all

/-- The check of the block borders (R248, R255): of the columns for scales along a row, of the rows for scales of a square block. -/
def borderFault (s : State) (g : GSlot) (w : Window) (u : Sub) : Option FaultRec :=
  let geom := TW.geom w.ty
  let off (n : Nat) (a d e : Int) : Option Int := [a, d, e].find? fun x => x % n ≠ 0
  (if geom = 2 ∨ geom = 3 then off (if geom = 2 then 32 else 16) u.col0 u.dc u.c
   else if geom = 4 ∨ geom = 5 then off 32 u.row0 u.dr u.h else none).map
    fun x => { cause := 0x04, field := BitVec.ofNat 4 fGEOM, addr := descriptorAt s g,
               info := shapeInfo (unsgn (if x < 0 then 16 else 32) x) 0 false none 4 }
/-- One axis of it, as the model goes through its three numbers. -/
theorem border_axis {n a e : Nat} {d : Int} (ha : a < 2 ^ 32) (hd : ∃ y, d = sgn 16 y) (he : e < 2 ^ 32) (F : Nat → FaultRec) :
    ([(a : Int), d, e].find? fun x : Int => x % n ≠ 0).map (fun x => F (unsgn (if x < 0 then 16 else 32) x)) =
      if a % n ≠ 0 ∨ d % n ≠ 0 ∨ e % n ≠ 0 then some (F (if a % n ≠ 0 then a else if d % n ≠ 0 then unsgn 16 d else e)) else none := by
  obtain ⟨y, rfl⟩ := hd
  have hcast : ∀ x : Nat, ((x : Int) % (n : Int) ≠ 0) ↔ x % n ≠ 0 := fun x => by exact_mod_cast Iff.rfl
  rw [find?_off]
  simp only [hcast]
  by_cases h1 : a % n = 0
  · by_cases h2 : sgn 16 y % n = 0
    · by_cases h3 : e % n = 0
      · simp [h1, h2, h3]
      · simp [h1, h2, h3, unsgn_natCast he]
    · simp [h1, h2, unsgn_step]
  · simp [h1, unsgn_natCast ha]

/-- The shape fault of the block borders for one of the three numbers of an axis. -/
def borderRec (s : State) (g : GSlot) (x : Nat) : FaultRec :=
  { cause := 0x04, field := BitVec.ofNat 4 fGEOM, addr := descriptorAt s g, info := shapeInfo x 0 false none 4 }
theorem bits_lt {w : Nat} (x : BitVec w) {hi lo n : Nat} (h : hi + 1 - lo ≤ n) : bits x hi lo < 2 ^ n :=
  Nat.lt_of_lt_of_le (Nat.mod_lt _ (Nat.two_pow_pos _)) (Nat.pow_le_pow_right (by decide) h)
section
variable (s : State) (g : GSlot) (pull : Bool) (k : Kernel) (n : Nat) (w : Window)

theorem borderFault_columns (h : TW.geom w.ty = 2 ∨ TW.geom w.ty = 3) :
    let u := subOf s g pull k n
    let blk := if TW.geom w.ty = 2 then 32 else if TW.geom w.ty = 3 then 16 else 1
    borderFault s g w u = if u.col0 % blk ≠ 0 ∨ u.dc % blk ≠ 0 ∨ u.c % blk ≠ 0 then
      some (borderRec s g (if u.col0 % blk ≠ 0 then u.col0 else if u.dc % blk ≠ 0 then unsgn 16 u.dc else u.c)) else none := by
  intro u blk
  have hblk : (if TW.geom w.ty = 2 then 32 else 16) = blk := by rcases h with h | h <;> simp [blk, h]
  refine Eq.trans ?_ (border_axis (bits_lt _ (by decide)) ⟨_, rfl⟩ (bits_lt _ (by decide)) (borderRec s g))
  unfold borderFault
  dsimp only
  rw [if_pos h, hblk]
  rfl
theorem borderFault_rows (hc : ¬(TW.geom w.ty = 2 ∨ TW.geom w.ty = 3)) (h : TW.geom w.ty = 4 ∨ TW.geom w.ty = 5) :
    let u := subOf s g pull k n
    borderFault s g w u = if u.row0 % 32 ≠ 0 ∨ u.dr % (32 : Nat) ≠ 0 ∨ u.h % 32 ≠ 0 then
      some (borderRec s g (if u.row0 % 32 ≠ 0 then u.row0 else if u.dr % (32 : Nat) ≠ 0 then unsgn 16 u.dr else u.h)) else none := by
  intro u
  refine Eq.trans ?_ (border_axis (bits_lt _ (by decide)) ⟨_, rfl⟩ (bits_lt _ (by decide)) (borderRec s g))
  unfold borderFault
  dsimp only
  rw [if_neg hc, if_pos h]
  rfl
theorem borderFault_unscaled (u : Sub) (hc : ¬(TW.geom w.ty = 2 ∨ TW.geom w.ty = 3)) (h : ¬(TW.geom w.ty = 4 ∨ TW.geom w.ty = 5)) :
    borderFault s g w u = none := by
  unfold borderFault
  dsimp only
  rw [if_neg hc, if_neg h]
  rfl
/-- The border checks as the model goes through them: the columns, then the rows. -/
theorem afterChecks_border (checks : List (Option FaultRec)) (t go : State) :
    let u := subOf s g pull k n
    let geom := TW.geom w.ty
    let blk := if geom = 2 then 32 else if geom = 3 then 16 else 1
    afterChecks (borderFault s g w u :: checks) t go =
      if (geom = 2 ∨ geom = 3) ∧ (u.col0 % blk ≠ 0 ∨ u.dc % blk ≠ 0 ∨ u.c % blk ≠ 0) then
        faultAt .g (borderRec s g (if u.col0 % blk ≠ 0 then u.col0 else if u.dc % blk ≠ 0 then unsgn 16 u.dc else u.c)) t
      else if (geom = 4 ∨ geom = 5) ∧ (u.row0 % 32 ≠ 0 ∨ u.dr % (32 : Nat) ≠ 0 ∨ u.h % 32 ≠ 0) then
        faultAt .g (borderRec s g (if u.row0 % 32 ≠ 0 then u.row0 else if u.dr % (32 : Nat) ≠ 0 then unsgn 16 u.dr else u.h)) t
      else afterChecks checks t go := by
  intro u geom blk
  by_cases hc : geom = 2 ∨ geom = 3
  · have hr : ¬(geom = 4 ∨ geom = 5) := by omega
    rw [borderFault_columns s g pull k n w hc, afterChecks_cons_if]
    exact (if_congr (and_iff_right hc) rfl (if_neg fun h => hr h.1)).symm
  · refine Eq.trans ?_ (if_neg fun h => hc h.1).symm
    by_cases hr : geom = 4 ∨ geom = 5
    · rw [borderFault_rows s g pull k n w hc hr, afterChecks_cons_if]
      exact (if_congr (and_iff_right hr) rfl rfl).symm
    · rw [borderFault_unscaled s g w _ hc hr]
      exact (if_neg fun h => hr h.1).symm

end

/-! SUBSCR (R248). -/

/-- A ring that is declared otherwise (R250), named without a slot. -/
theorem ringFault_zero (ring : Nat) : ringFault ring 0 = { cause := 0x13, info := BitVec.ofNat 64 ring } := by simp [ringFault]
/-- The tiles of a walk are checked between the other checks. -/
theorem walk_checks {c : Option FaultRec} {t x y : State} (h : x = y) :
    (match c with | some f => faultAt .g f t | none => x) = match c with | some f => faultAt .g f t | none => y := by rw [h]

/-- The subscription that SUBSCR asks for, with slots of its ring's bytes. -/
def ringSub (s : State) (g : GSlot) (pull : Bool) (k : Kernel) : Sub := subOf s g pull k (((k.ring? (ringOf g)).map (·.bytes)).getD 0)
/-- What a SUBSCR that passes its checks makes of its bundle: it takes an engine and lists its subscription, or waits for an engine. -/
def subscribed (s : State) (u : Sub) (r : Option Ring) (pull : Bool) (t : State) : State :=
  match freeEngine s.m (dieOf (coreOf s.issue.cx)) with
  | none => askFor .hold t
  | some e => onMach (fun m => { m with subUsed := mset m.subUsed e (mget 0 m.subUsed e + 1) })
      (onCtx (fun c => { c with subs := c.subs ++ [withEngine s u e ((r.map (·.slots)).getD 0) pull] }) t)

/-- What a SUBSCR that passes the checks of its table makes of its fresh bundle: the first page that fails is its fault. -/
def walkEffect (s : State) (g : GSlot) (pull : Bool) (k : Kernel) : State :=
  withRes .g (walkRes s.m s.issue.cx pull (walkPages (windowOf s g.hint) (ringSub s g pull k))) pull
    (fun _ => subscribed s (ringSub s g pull k) (k.ring? (ringOf g)) pull) (fun _ _ t => t) (begun .g s)

section
variable {s : State} (hs : Solo s) {g : GSlot} (ha : AddrFree s g) (hu : Unfenced s) {k : Kernel} (hk : (myLaunch s).map (·.kernel) = some k)
  {i : Instr} {pull : Bool} (hexec : exec i s = subscrG i g pull s)
include hs ha hu hk hexec

theorem exec_subscr : ∃ f, exec i s = runSlot .g i f s ∧ f (begun .g s) =
    match subscrFault s g pull (k.ring? (ringOf g)) (windowOf s g.hint) (ringSub s g pull k) with
    | some f => faultAt .g f (begun .g s)
    | none => walkEffect s g pull k := by
  unfold subscrG runG at hexec
  refine ⟨_, hexec, ?_⟩
  dsimp only
  rw [← gSources, reads_begun (reads_addr ha), afterFences_begun hs hu, windowOf_begun hs, preLaunch_begun, hk]
  dsimp only
  show _ = afterChecks _ _ _
  rw [afterChecks_cons_if, afterChecks_cons_if, afterChecks_cons_if, afterChecks_cons_if, afterChecks_cons_if, afterChecks_cons]
  refine if_congr ?extents rfl (if_congr ?ring ?ringFault (if_congr ?unbound rfl (if_congr ?access rfl (if_congr ?rank rfl ?walk))))
  case extents => simp only [Bool.or_eq_true, beq_iff_eq]; rfl
  case ring => simp only [Bool.or_eq_true, bne_iff_ne]; rfl
  case ringFault => rw [ringFault_zero]; rfl
  case unbound => exact beq_iff_eq.symm
  case access => simp only [Bool.or_eq_true, Bool.and_eq_true, beq_iff_eq, bne_iff_ne]
  case rank => exact bne_iff_ne.symm
  case walk =>
    refine walk_checks ?_
    refine Eq.trans ?_ (afterChecks_border s g pull k _ (windowOf s g.hint) _ _ _).symm
    refine if_congr Iff.rfl rfl (if_congr Iff.rfl rfl ?_)
    rw [afterChecks_cons_if]
    exact if_congr decide_eq_true_iff.symm rfl rfl

theorem subscr_faults {f : FaultRec}
    (hf : subscrFault s g pull (k.ring? (ringOf g)) (windowOf s g.hint) (ringSub s g pull k) = some f) :
    exec i s = .next (trapped .g f s) := by
  obtain ⟨e, he, hfe⟩ := exec_subscr hs ha hu hk hexec
  rw [he]
  exact run_faulted hs .g i e f (by rw [hfe, hf])

variable (hp : subscrFault s g pull (k.ring? (ringOf g)) (windowOf s g.hint) (ringSub s g pull k) = none)
include hp

/-- A SUBSCR that passes the checks of its table does what the pages of its walk say. -/
theorem exec_subscr_walk : ∃ f, exec i s = runSlot .g i f s ∧ f (begun .g s) = walkEffect s g pull k := by
  obtain ⟨e, he, hfe⟩ := exec_subscr hs ha hu hk hexec
  exact ⟨e, he, by rw [hfe, hp]⟩
theorem subscr_pageFault {f : FaultRec}
    (hf : walkRes s.m s.issue.cx pull (walkPages (windowOf s g.hint) (ringSub s g pull k)) = .fault f) :
    exec i s = .next (trapped .g f s) := by
  obtain ⟨e, he, hfe⟩ := exec_subscr_walk hs ha hu hk hexec hp
  rw [he]
  exact run_faulted hs .g i e f (by rw [hfe, walkEffect, hf]; rfl)

variable {ls : List Loc}
  (hl : walkRes s.m s.issue.cx pull (walkPages (windowOf s g.hint) (ringSub s g pull k)) = .locs ls)
include hl

theorem subscr_takes {e : Nat} {x : Ring} (he : freeEngine s.m (dieOf (coreOf s.issue.cx)) = some e) (hx : k.ring? (ringOf g) = some x) :
    ∃ t, exec i s = .next t ∧ Retires .g i (nextPc s .g) s
      (onMe s { s.m with subUsed := mset s.m.subUsed e (mget 0 s.m.subUsed e + 1) } fun c =>
        { c with subs := c.subs ++ [withEngine s (ringSub s g pull k) e x.slots pull] }) t := by
  obtain ⟨f, hf, hfe⟩ := exec_subscr_walk hs ha hu hk hexec hp
  rw [hf]
  refine run_clean hs .g i f _ ?_ (pc_onMe fun _ => rfl)
  rw [hfe, walkEffect, hl, withRes, subscribed, he, hx]
  rfl
theorem subscr_waits (he : freeEngine s.m (dieOf (coreOf s.issue.cx)) = none) :
    exec i s = .next (asked s (onMe s s.m fun c => { c with await := some .asked })) := by
  obtain ⟨f, hf, hfe⟩ := exec_subscr_walk hs ha hu hk hexec hp
  rw [hf]
  refine run_asked hs .g i f .hold rfl ?_
  rw [hfe, walkEffect, hl, withRes, subscribed, he]

end

/-! SUBCAN (R251). -/

/-- What SUBCAN makes of its fresh bundle. -/
def subcanEffect (s : State) (g : GSlot) : State :=
  match (me s).sub? (ringOf g) with
  | none => begun .g s
  | some u =>
    if u.states.any (· == .busy) && !u.erred then askFor (.subcan (ringOf g)) (begun .g s)
    else onMach (fun m => m.endSub s.issue.cx (ringOf g)) (begun .g s)
theorem exec_subcan (s : State) (g : GSlot) : ∃ f, exec (.subcan g) s = runSlot .g (.subcan g) f s ∧ f (begun .g s) = subcanEffect s g := by
  have hexec : exec (.subcan g) s = execSubcan g s := rfl
  unfold execSubcan runG at hexec
  exact ⟨_, hexec, rfl⟩
theorem endSub_eq {s : State} {ring : Nat} {u : Sub} (hu : (me s).sub? ring = some u) : s.m.endSub s.issue.cx ring =
    onMe s { s.m with subUsed := mset s.m.subUsed u.base (mget 0 s.m.subUsed u.base - 1) } fun c =>
      { c with subs := c.subs.filter fun x => x.ring.toNat != ring } := by
  unfold Mach.endSub
  rw [show (s.m.ctx s.issue.cx).sub? ring = some u from hu]
  rfl

section
variable {s : State} (hs : Solo s) (g : GSlot)
include hs

theorem subcan_none (hu : (me s).sub? (ringOf g) = none) : ∃ t, exec (.subcan g) s = .next t ∧ Retires .g (.subcan g) (nextPc s .g) s s.m t := by
  obtain ⟨f, hf, hfe⟩ := exec_subcan s g
  rw [hf]
  exact run_clean hs .g _ f s.m (by rw [hfe, subcanEffect, hu]; rfl) rfl

variable {u : Sub} (hu : (me s).sub? (ringOf g) = some u)
include hu

theorem subcan_ends (hrest : u.erred = true ∨ ∀ x ∈ u.states, x ≠ .busy) :
    ∃ t, exec (.subcan g) s = .next t ∧ Retires .g (.subcan g) (nextPc s .g) s
      (onMe s { s.m with subUsed := mset s.m.subUsed u.base (mget 0 s.m.subUsed u.base - 1) } fun c =>
        { c with subs := c.subs.filter fun x => x.ring.toNat != ringOf g }) t := by
  have hidle : ¬(u.states.any (· == .busy) && !u.erred) = true := by
    simp only [Bool.and_eq_true, List.any_eq_true, beq_iff_eq, Bool.not_eq_true']
    rintro ⟨⟨x, hx, rfl⟩, he⟩
    rcases hrest with h | h
    · rw [h] at he
      cases he
    · exact h _ hx rfl
  obtain ⟨f, hf, hfe⟩ := exec_subcan s g
  rw [hf, ← endSub_eq hu]
  refine run_clean hs .g _ f _ (by rw [hfe, subcanEffect, hu]; exact if_neg hidle) ?_
  rw [endSub_eq hu]
  exact pc_onMe fun _ => rfl
theorem subcan_waits (he : u.erred = false) (hb : SubSlot.busy ∈ u.states) : exec (.subcan g) s = .next (asked s (onMe s s.m fun c =>
    { c with subs := lmod (fun x => x.ring.toNat == ringOf g) (fun x => { x with stopped := true }) c.subs })) := by
  have hbusy : (u.states.any (· == .busy) && !u.erred) = true := by
    rw [he, Bool.and_eq_true]
    exact ⟨List.any_eq_true.2 ⟨_, hb, rfl⟩, rfl⟩
  obtain ⟨f, hf, hfe⟩ := exec_subcan s g
  rw [hf]
  exact run_asked hs .g _ f (.subcan (ringOf g)) rfl (by rw [hfe, subcanEffect, hu]; exact if_pos hbusy)

end

/-! SLOTDONE (R250; 14 R262). -/

theorem slotBusy_iff (s : State) (u : Sub) (i : Nat) : slotBusy (me s) (slotLines s.issue.cx (me s) u i) = true ↔ SlotBusy s u i := by
  unfold slotBusy SlotBusy
  rw [List.any_eq_true]
  refine exists_congr fun a => and_congr_right fun _ => ?_
  cases a.kind with
  | setFull k v => simp
  | testFull k d => simp
  | _ =>
    simp only [List.any_eq_true]
    constructor
    · rintro ⟨l, hl, hn⟩
      cases l with
      | scratch n => exact ⟨_, List.contains_iff_mem.1 hn, n, hl, rfl⟩
      | hbm | host => cases hn
    · rintro ⟨_, hn, n, hl, rfl⟩
      exact ⟨_, hl, List.contains_iff_mem.2 hn⟩

/-- What SLOTDONE makes of its fresh bundle for slot `i` of a subscription, when the slot goes to `v` with full bits `full`. -/
def slotMarked (s : State) (g : GSlot) (u : Sub) (i : Nat) (v : SubSlot) (full : Bool) : Mach :=
  onMe s (s.m.setLines (slotLines s.issue.cx (me s) u i) full) fun c => c.modSub (ringOf g) fun u => { u with states := lset u.states i v }
def slotMark (s : State) (g : GSlot) (u : Sub) (i : Nat) (v : SubSlot) (full : Bool) : State :=
  if slotBusy (me s) (slotLines s.issue.cx (me s) u i) then stallOn .internal (begun .g s) else { begun .g s with m := slotMarked s g u i v full }
def slotdoneEffect (s : State) (g : GSlot) (u : Sub) (i : Nat) : State :=
  if u.states.length ≤ i then faultAt .g (ringFault (ringOf g) i) (begun .g s)
  else if !u.pull && u.states.getD i .empty == .full then slotMark s g u i .empty false
  else if u.pull && u.states.getD i .full == .empty then slotMark s g u i .marked true
  else begun .g s

/-- A context after a line has become full: one that waits idle for the line is awake (13 R247). -/
def wokenAt (n : Nat) (c : Ctx) : Ctx := if c.idleAt = some n then { c with idleAt := none, idleMet := true } else c
theorem pc_ctx_setFullAt (m : Mach) (n : Nat) (v : Bool) (cx : Nat) : ((m.setFullAt n v).ctx cx).pc = (m.ctx cx).pc := by
  cases v with
  | false => rfl
  | true =>
    refine (congrArg Ctx.pc (mget_map ({} : Ctx) (wokenAt n) rfl m.ctxs cx)).trans ?_
    unfold wokenAt
    split <;> rfl
theorem pc_ctx_setLines (m : Mach) (ls : List Nat) (v : Bool) (cx : Nat) : ((m.setLines ls v).ctx cx).pc = (m.ctx cx).pc :=
  foldl_keeps (fun n : Mach => (n.ctx cx).pc = (m.ctx cx).pc) _ (fun n k hn => (pc_ctx_setFullAt n k v cx).trans hn) ls m rfl

theorem pc_slotMarked (s : State) (g : GSlot) (u : Sub) (i : Nat) (v : SubSlot) (full : Bool) :
    ((slotMarked s g u i v full).ctx s.issue.cx).pc = (me s).pc := by
  rw [slotMarked, pc_onMe]
  · exact pc_ctx_setLines ..
  · exact fun _ => rfl

section
variable {s : State} (hs : Solo s) {g : GSlot} {u : Sub} (hu : (me s).sub? (ringOf g) = some u) (hf : Unfenced s) (ha : Free s (reg s g.sa)) {i : Nat}
  (hi : ((me s).s g.sa).toNat = i)
include hs hu hf ha hi

theorem exec_slotdone : ∃ f, exec (.slotdone g) s = runSlot .g (.slotdone g) f s ∧ f (begun .g s) = slotdoneEffect s g u i := by
  have hexec : exec (.slotdone g) s = execSlotdone g s := rfl
  unfold execSlotdone runG at hexec
  refine ⟨_, hexec, ?_⟩
  dsimp only
  rw [sr_begun_eq_reg, reads_begun (List.forall_mem_singleton.2 ha), afterFences_begun hs hf, rs_begun, hi, preCtx_begun,
    show (me s).sub? (g.sd.toNat % 16) = some u from hu]
  rfl

theorem slotdone_undeclared (hlen : u.states.length ≤ i) : exec (.slotdone g) s = .next
    (trapped .g { cause := 0x13, info := BitVec.ofNat 64 (ringOf g + i % 2 ^ 16 * 2 ^ 16) } s) := by
  obtain ⟨f, he, hfe⟩ := exec_slotdone hs hu hf ha hi
  rw [he]
  exact run_faulted hs .g _ f _ (hfe.trans (if_pos hlen))

variable {v : SubSlot} {full : Bool} (heff : slotdoneEffect s g u i = slotMark s g u i v full)
include heff

theorem slotdone_waits (hb : SlotBusy s u i) : exec (.slotdone g) s = .next (waiting true s) := by
  obtain ⟨f, he, hfe⟩ := exec_slotdone hs hu hf ha hi
  rw [he]
  exact run_stalled hs .g _ f ((hfe.trans heff).trans (if_pos ((slotBusy_iff s u i).2 hb)))
theorem slotdone_marks (hb : ¬SlotBusy s u i) :
    ∃ t, exec (.slotdone g) s = .next t ∧ Retires .g (.slotdone g) (nextPc s .g) s (slotMarked s g u i v full) t := by
  obtain ⟨f, he, hfe⟩ := exec_slotdone hs hu hf ha hi
  rw [he]
  exact run_clean hs .g _ f _ ((hfe.trans heff).trans (if_neg fun h => hb ((slotBusy_iff s u i).1 h)))
    (pc_slotMarked ..)

end

section
variable {s : State} {g : GSlot} {u : Sub} {i : Nat} (hi : i < u.states.length)
include hi

/-- A full slot that is pushed goes empty; an empty one that is pulled is handed over. -/
theorem slotdoneEffect_push (hp : u.pull = false) (hst : u.states.getD i .empty = .full) :
    slotdoneEffect s g u i = slotMark s g u i .empty false := by
  rw [slotdoneEffect, if_neg (Nat.not_le.2 hi), hp, hst]
  rfl
theorem slotdoneEffect_pull (hp : u.pull = true) (hst : u.states.getD i .full = .empty) :
    slotdoneEffect s g u i = slotMark s g u i .marked true := by
  rw [slotdoneEffect, if_neg (Nat.not_le.2 hi), hp, hst]
  rfl

end

/-- Settles O35: SUBSCR by the first check that fails, SUBCAN by whether a slot is in progress, SLOTDONE by what stands out for its slot. -/
theorem subscriptions : Obligations.Subscriptions := by
  refine ⟨fun g s k hs ha hf _ hk row hrow => ?subscr, fun g s hs hu => subcan_none hs g hu, fun g s u hs hu =>
    ⟨subcan_ends hs g hu, subcan_waits hs g hu, fun i hf ha hi hlen => ⟨?busy, ?push, ?pull⟩,
      fun i hf ha hi hlen => slotdone_undeclared hs hu hf ha hi hlen⟩⟩
  case subscr =>
    have hexec : exec row.1 s = subscrG row.1 g row.2 s := by
      simp only [List.mem_cons, List.not_mem_nil, or_false] at hrow
      rcases hrow with rfl | rfl
      all_goals rfl
    exact ⟨fun f => subscr_faults hs ha hf hk hexec, fun hp => ⟨fun f => subscr_pageFault hs ha hf hk hexec hp, fun ls hl =>
      ⟨fun e x => subscr_takes hs ha hf hk hexec hp hl, subscr_waits hs ha hf hk hexec hp hl⟩⟩⟩
  case busy =>
    rintro (⟨hp, hst⟩ | ⟨hp, hst⟩) hb
    · exact slotdone_waits hs hu hf ha hi (slotdoneEffect_push hlen hp hst) hb
    · exact slotdone_waits hs hu hf ha hi (slotdoneEffect_pull hlen hp hst) hb
  case push => exact fun hb hp hst => slotdone_marks hs hu hf ha hi (slotdoneEffect_push hlen hp hst) hb
  case pull => exact fun hb hp hst => slotdone_marks hs hu hf ha hi (slotdoneEffect_pull hlen hp hst) hb

end Sys2Proof.Proofs
end

section
/-! SUPPORT. C slots that queue their operation with the addresses their registers held (13 R253 to R260; 16 R321, R325). -/
namespace Sys2Proof.Proofs
open Sys2Proof.Machine Sys2Proof.Safety Sys2Proof.Claims

/-- The plan, where the checks pass, queues the operation with the words and extents of a copy and the addresses its registers held. -/
def PlansCopy (i : Instr) (s : State) (c : CSlot) (x : Except FaultRec Plan) : Prop :=
  ∀ pl, x = .ok pl → ∃ w e binds draws, pl = { planC i s c w e binds with draws := draws }

section
variable {i : Instr} {s : State} {c : CSlot}

theorem PlansCopy.ok (w : TypeWord) (e : List Nat) (binds : List Binding) (draws : Nat) :
    PlansCopy i s c (.ok { planC i s c w e binds with draws := draws }) := by
  rintro _ ⟨⟩
  exact ⟨w, e, binds, draws, rfl⟩
theorem PlansCopy.bind {α : Type} {x : Except FaultRec α} {f : α → Except FaultRec Plan} (h : ∀ a, PlansCopy i s c (f a)) :
    PlansCopy i s c (x >>= f) := by
  cases x with
  | error e => exact fun _ he => by cases he
  | ok a => exact h a
/-- A check that is made only in some cases. -/
theorem PlansCopy.guard {α : Type} {p : Prop} [Decidable p] {x : Except FaultRec α} {y : Except FaultRec Plan} (h : PlansCopy i s c y) :
    PlansCopy i s c (if p then x >>= fun _ => y else y) := by
  split
  · exact .bind fun _ => h
  · exact h

theorem plansCopy_tile (store scratch : Bool) : PlansCopy i s c (tileCopyPlan i c store scratch s) := by
  unfold tileCopyPlan
  dsimp only
  refine .bind fun _ => .bind fun _ => .bind fun win => .guard (.bind fun _ => .guard ?_)
  exact .bind fun env => .bind fun _ => .bind fun _ => .bind fun e => .guard (.ok _ _ _ 0)
theorem plansCopy_lines (cpin : Bool) : PlansCopy i s c (linesPlan i c cpin s) := by
  unfold linesPlan
  dsimp only
  exact .bind fun _ => .bind fun _ => .guard (.bind fun _ => .ok _ _ _ 0)
theorem plansCopy_gather (store : Bool) : PlansCopy i s c (gatherPlan i c store s) := by
  unfold gatherPlan
  dsimp only
  refine .bind fun _ => .bind fun _ => .bind fun _ => .bind fun _ => .bind fun _ => .bind fun _ => ?_
  exact .bind fun _ => .bind fun _ => .bind fun _ => .bind fun _ => .bind fun _ => .ok _ _ _ 0
theorem plansCopy_recv (ok : TypeWord → Bool) (draws : List Nat → Nat) : PlansCopy i s c (recvPlan i c ok draws s) := by
  unfold recvPlan
  dsimp only
  exact .bind fun _ => .guard (.ok _ _ _ _)

end

theorem plansCopy_copyTable (s : State) (c : CSlot) : ∀ row ∈ copyTable s c, PlansCopy row.1 s c (row.2.1 s) := by
  simp only [copyTable, List.forall_mem_cons]
  exact ⟨plansCopy_tile _ _, plansCopy_tile _ _, plansCopy_tile _ _, plansCopy_tile _ _, plansCopy_lines _, plansCopy_lines _,
    plansCopy_gather _, plansCopy_gather _, plansCopy_recv _ _, plansCopy_recv _ _, plansCopy_recv _ _, List.forall_mem_nil _⟩

/-- The instruction is a C slot, no carrier, with this range and this plan over its fresh bundle. -/
def RunsC (i : Instr) (s : State) (c : CSlot) (range : List (Nat × Nat)) (x : Except FaultRec Plan) : Prop :=
  ∃ ranges plan, exec i s = issueC i c ranges false plan s ∧ ranges (begun .c s) = range ∧ plan (begun .c s) = x ∧
    slotTokens .c (slotWord i) = (c.kd.toNat, [c.kw0.toNat, c.kw1.toNat, c.kw2.toNat])

section
variable {s : State} (hs : Solo s) {c : CSlot}
include hs

theorem cA_solo : cA s c = (me s).s c.sa + s.issue.offset.signExtend 64 :=
  forall_solo (P := fun s => cA s c = (me s).s c.sa + s.issue.offset.signExtend 64) (fun _ _ _ _ _ _ _ => rfl) hs
theorem cB_solo : cB s c = (me s).s c.sb := forall_solo (P := fun s => cB s c = (me s).s c.sb) (fun _ _ _ _ _ _ _ => rfl) hs
theorem planC_begun (i : Instr) (k : Slot) (w : TypeWord) (e : List Nat) (l : List Binding) : planC i (begun k s) c w e l = planC i s c w e l :=
  forall_solo (P := fun s => planC i (begun k s) c w e l = planC i s c w e l) (fun _ _ _ _ _ _ _ => rfl) hs
theorem resolvedTile_begun (k : Slot) (ok : TypeWord → Bool) : resolvedTile (begun k s) c ok = resolvedTile s c ok :=
  forall_solo (P := fun s => resolvedTile (begun k s) c ok = resolvedTile s c ok) (fun _ _ _ _ _ _ _ => rfl) hs

variable (ha : Free s (reg s c.sa)) (hb : Free s (reg s c.sb)) (hq : MayQueue s .c c.kd)
include ha hb hq

/-- A C slot whose range is resident and whose plan is a copy's queues its operation with the addresses its registers held. -/
theorem RunsC.queues {i : Instr} {range : List (Nat × Nat)} {w : TypeWord} {e : List Nat} {binds : List Binding} {draws : Nat}
    (h : RunsC i s c range (.ok { planC i s c w e binds with draws := draws })) (hres : Resident s range) :
    ∃ u, exec i s = .next u ∧ Queues .c .c i s
      (cOp s c { op := none, binds := binds, draws := draws } { newOp i with types := [0, w, 0, 0], exts := [[], e, [], []] }) u := by
  obtain ⟨ranges, plan, he, hrange, hplan, htok⟩ := h
  obtain ⟨hroom, hkd⟩ := hq
  have hq := engine_queues hs .c .c i (slotWord i) [reg s c.sa, reg s c.sb] false plan _ _ _ _ (by simp [ha, hb]) htok hkd hroom hplan rfl rfl
    ⟨rfl, rfl⟩
  rw [he, issueC_resident hs _ _ _ (hrange ▸ hres)]
  rw [cA_solo hs, cB_solo hs] at hq
  exact hq

end

theorem runsC_copyTable {s : State} (hs : Solo s) {c : CSlot} {row : Instr × (State → Except FaultRec Plan) × List (Nat × Nat)}
    (h : row ∈ copyTable s c) : RunsC row.1 s c row.2.2 (row.2.1 s) := by
  obtain ⟨⟨range, he, hrange⟩, hplan, htok⟩ := exec_copyTable hs h
  exact ⟨range, row.2.1, he, hrange, hplan, htok⟩

section
variable {s : State} (hs : Solo s) {c : CSlot}
include hs

/-- The window of a bound copy that may read it. -/
theorem copyWindow_readable (h : (windowOf s c.w).access = 1 ∨ (windowOf s c.w).access = 2) :
    copyWindow (begun .c s) c [1, 2] = .ok (windowOf s c.w) := by
  rw [copyWindow, windowOf_begun hs]
  rcases h with h | h <;> simp [h]
theorem runsC_preft (h : (windowOf s c.w).access = 1 ∨ (windowOf s c.w).access = 2) :
    RunsC (.preft c) s c [] (.ok { planC (.preft c) s c 0 [] [] with draws := 0 }) := by
  refine ⟨noRange, _, rfl, rfl, ?_, slotTokens_cWord _ c⟩
  dsimp only
  rw [copyWindow_readable hs h, planC_begun hs]
  rfl
theorem runsC_ctload (h : (windowOf s c.w).access = 1 ∨ (windowOf s c.w).access = 2) (hrank : TW.rank (windowOf s c.w).ty = 1)
    (hfmt : TW.fmt (windowOf s c.w).ty = 2) (hext : TW.ext (windowOf s c.w).ty 0 % 2 ^ 23 = 16) :
    RunsC (.ctload c) s c [] (.ok { planC (.ctload c) s c 0 [] [] with draws := 0 }) := by
  refine ⟨noRange, _, rfl, rfl, ?_, slotTokens_cWord _ c⟩
  dsimp only
  rw [copyWindow_readable hs h, planC_begun hs]
  simp only [hrank, hfmt, hext, BEnv.admitRank, bind, Except.bind, beq_self_eq_true, if_true, ne_eq, not_true_eq_false, if_false]
  rfl
theorem runsC_ttset {w : TypeWord} {e : List Nat} (ht : FabricTile s c w e) (hentry : c.w.toNat / 32 = s.issue.cx % 8)
    (hn : bits (cA s c) 9 0 ≠ 0) : RunsC (.ttset c) s c []
      (.ok { planC (.ttset c) s c w e [] with draws := if TW.fmt w = 0x13 then bits (cA s c) 9 0 * prod e else 0 }) := by
  refine ⟨noRange, _, rfl, rfl, ?_, slotTokens_cWord _ c⟩
  dsimp only
  have hcheck : entryCheck (begun .c s) c = .ok () := if_pos hentry
  rw [resolvedTile_begun hs, ht, cA_begun hs, hcheck]
  simp only [hn, bind, Except.bind, if_false, planC_begun hs]

end

/-- Settles O40: each is a C slot whose plan takes the addresses its registers held. -/
theorem copySlots : Obligations.CopySlots := by
  intro c s hs ha hb hq
  refine ⟨fun row hrow pl o hres hpl ho => ?copy, fun hw => ⟨?preft, fun hrank hfmt hext => ?ctload⟩, fun w e ht hentry hn => ?ttset⟩
  case copy =>
    obtain ⟨w, e, binds, draws, rfl⟩ := plansCopy_copyTable s c row hrow pl hpl
    cases ho
    have h := runsC_copyTable hs hrow
    rw [hpl] at h
    exact h.queues hs ha hb hq hres
  case preft => exact (runsC_preft hs hw).queues hs ha hb hq (List.forall_mem_nil _)
  case ctload => exact (runsC_ctload hs hw hrank hfmt hext).queues hs ha hb hq (List.forall_mem_nil _)
  case ttset => exact (runsC_ttset hs ht hentry hn).queues hs ha hb hq (List.forall_mem_nil _)

end Sys2Proof.Proofs
end

section
/-! SUPPORT. Every operation of the machine keeps the canonical form of the byte memories: memory, accesses, queues and launches (14 R261). -/
namespace Sys2Proof.Safety
open Sys2Proof.Machine Sys2Proof.Proofs

section
variable {m : Mach} (h : MemoryWf m)
include h

/-! The parts of the machine that an access changes. -/
omit h in
theorem MemoryWf.ite {p : Prop} [Decidable p] {a b : Mach} (ha : MemoryWf a) (hb : MemoryWf b) : MemoryWf (if p then a else b) := by
  split
  · exact ha
  · exact hb
omit h in
theorem MemoryWf.foldl {α : Type} {m : Mach} {f : Mach → α → Mach} (h : MemoryWf m) (xs : List α)
    (hf : ∀ n x, MemoryWf n → MemoryWf (f n x)) : MemoryWf (xs.foldl f m) := foldl_keeps MemoryWf f hf xs m h
theorem MemoryWf.modCtx (cx : Nat) (f : Ctx → Ctx) : MemoryWf (m.modCtx cx f) := h
theorem MemoryWf.modCore (k : Nat) (f : Core → Core) : MemoryWf (m.modCore k f) := h
theorem MemoryWf.modDie (d : Nat) (f : Die → Die) : MemoryWf (m.modDie d f) := h
theorem MemoryWf.modLaunch (lid : Word) (f : Launch → Launch) : MemoryWf (m.modLaunch lid f) := h
theorem MemoryWf.modOp (core uid : Nat) (f : EOp → EOp) : MemoryWf (m.modOp core uid f) := h
theorem MemoryWf.l2 {n : Mach} (hl : L2Only m n) : MemoryWf n := by
  rw [hl]
  exact h
theorem MemoryWf.l2Span (pas : List Nat) (w c : Bool) (x : Hint) : MemoryWf (Machine.l2Span m pas w c x) := h.l2 (.span m pas w c x)
theorem MemoryWf.l2Access (pa : Nat) (w c : Bool) (x : Hint) : MemoryWf (Machine.l2Access m pa w c x) := h.l2 (.touch m _ _ w c x)
theorem MemoryWf.setFullAt (k : Nat) (v : Bool) : MemoryWf (m.setFullAt k v) := by cases v <;> exact h
theorem MemoryWf.setLines (ls : List Nat) (v : Bool) : MemoryWf (m.setLines ls v) := h.foldl ls fun _ n hn => hn.setFullAt n v
theorem MemoryWf.logFault (cx : Nat) (f : FaultRec) : MemoryWf (m.logFault cx f) := MemoryWf.ite h h
theorem MemoryWf.notify (q : Nat) : MemoryWf (m.notify q) := by
  unfold Mach.notify
  dsimp only
  split
  · exact h.logDev _ _
  · split
    · exact h
    · exact h.qSetFlag q 1 true
theorem MemoryWf.notifyWrite (o n : Nat) (v : Word) : MemoryWf (m.notifyWrite o n v) := MemoryWf.ite (h.notify _) h
theorem MemoryWf.touch (r : RootRef) : MemoryWf (m.touch r) := by
  unfold Mach.touch
  split
  · split <;> exact h
  · exact h
theorem MemoryWf.returnWeight (r : RootRef) (w : Word) : MemoryWf (m.returnWeight r w) := by
  rw [returnWeight_frame]
  exact h
theorem MemoryWf.returnAll (r : RootRef) (ws : List Word) : MemoryWf (m.returnAll r ws) := h.foldl ws fun _ w hn => hn.returnWeight r w
theorem MemoryWf.writePart (ls : List Loc) (b : Byte) (whole : Bool) : MemoryWf (m.writePart ls b whole) := h.writeLocs ls [b]
theorem MemoryWf.l1Fill (core line : Nat) : MemoryWf (Machine.l1Fill m core line) := MemoryWf.ite h h
theorem MemoryWf.loadBytes (core : Nat) (ls : List Loc) (hint : BitVec 8) : MemoryWf (Machine.loadBytes m core ls hint).1 := by
  exact .ite (h.l2Span _ _ _ _) ((h.l2Span _ _ _ _).foldl _ fun _ n hn => hn.l1Fill core n)
theorem MemoryWf.storeBytes (core : Nat) (ls : List Loc) (bs : List Byte) (hint : BitVec 8) :
    MemoryWf (Machine.storeBytes m core ls bs hint) := by
  refine (h.l2Span _ _ _ _).foldl _ fun n x hn => ?_
  split <;> exact hn.write _ _
theorem MemoryWf.l2Atomic (pa : Nat) : MemoryWf (Machine.l2Atomic m pa) := by
  have hread : MemoryWf (Machine.l2Access m pa false true ⟨0, false, 0⟩) := h.l2Access _ _ _ _
  unfold Machine.l2Atomic
  dsimp only
  split <;> exact hread
theorem MemoryWf.pinLine (cx : Nat) (mask : Option Nat) (n : Nat) : MemoryWf (Machine.pinLine cx mask m n) := by
  unfold Machine.pinLine
  dsimp only
  split
  · exact h.l2 (.alloc m _ _ _)
  · exact h.l2 (.move m _ _ _)
theorem MemoryWf.unpinLines (cx : Nat) (ns : List Nat) : MemoryWf (ns.foldl (unpinLine cx) m) := h.l2 (l2Only_foldl_unpinLine cx ns m)
theorem MemoryWf.advanceBarrier (key : Nat) (o : BarObj) : MemoryWf (m.advanceBarrier key o) := by
  unfold Mach.advanceBarrier
  split
  · exact h.setBarrier key { o with phase := !o.phase, arr := 0, bytes := 0 }
  · exact h.setBarrier key o
theorem MemoryWf.updateBarrier {key arrivals bytes : Nat} {expect : Bool} {n : Mach} (he : m.updateBarrier key expect arrivals bytes = .ok n) :
    MemoryWf n := by
  unfold Mach.updateBarrier at he
  dsimp only at he
  split at he
  · split at he
    · cases he
    · cases he
      exact h.advanceBarrier _ _
  · split at he
    · cases he
    · split at he
      · cases he
      · cases he
        exact h.advanceBarrier _ _

/-! Performing an access. -/
theorem MemoryWf.performAccess (cx : Nat) (a : Access) : MemoryWf (Machine.performAccess m cx a) := by
  have hdrop : MemoryWf (if a.dropL1 then l1Drop m (coreOf cx) else m) := MemoryWf.ite h h
  unfold Machine.performAccess
  dsimp only
  generalize (if a.dropL1 then l1Drop m (coreOf cx) else m) = n at hdrop ⊢
  refine .ite hdrop (.ite hdrop ?_)
  cases a.kind with
  | load d signed width => exact hdrop.loadBytes _ _ _
  | store data => exact hdrop.storeBytes _ _ _ _
  | atomic op d x y =>
    refine MemoryWf.writeLocs ?_ a.locs _
    split
    · exact hdrop.l2Atomic _
    · exact hdrop
  | acquire d => exact hdrop.l2Span _ _ _ _
  | notify d o size v => exact hdrop.notifyWrite _ _ _
  | setFull line v => exact hdrop.setFullAt _ _
  | writeBack line =>
    dsimp only
    cases mget? n.l2 line <;> exact hdrop
  | prefetch line l1 l2' =>
    have hl2 : MemoryWf (if l2' then Machine.l2Access n (line * 128) false false (hintOf a.hint).prefetch else n) :=
      .ite (hdrop.l2Access _ _ _ _) hdrop
    exact MemoryWf.ite (hl2.l1Fill _ _) hl2
  | pin lines home d => exact MemoryWf.ite (hdrop.foldl lines fun _ x hk => hk.pinLine cx home x) hdrop
  | unpin lines => exact hdrop.unpinLines cx _
  | invalidate line => cases line <;> exact hdrop
  | readRoot k d =>
    dsimp only
    split <;> exact hdrop
  | fence | testFull | barrierTest | give => exact hdrop
theorem MemoryWf.performAll (cx : Nat) : MemoryWf (Machine.performAll m cx) := h.foldl _ fun _ a hn => hn.performAccess cx a

/-! Engine queues. -/
theorem MemoryWf.requeue (o : EOp) : MemoryWf (m.requeue o) := by
  unfold Mach.requeue
  dsimp only
  split <;> exact h
omit h in
theorem MemoryWf.replayFrom (cx : Nat) (blk : Word) (count fuel : Nat) {m : Mach} (h : MemoryWf m) (n q : Nat) :
    MemoryWf (Machine.replayFrom cx blk count fuel m n q).1 := by
  induction fuel generalizing m n q with
  | zero => exact h
  | succ fuel ih =>
    unfold Machine.replayFrom
    dsimp only
    split
    · exact h
    · split
      · exact ih (h.returnAll _ _) _ _
      · split
        · exact ih h _ _
        · split
          · exact ih (h.requeue _) _ _
          · exact h
theorem MemoryWf.clearShadow (cx : Nat) (blk : Word) : MemoryWf (Machine.clearShadow m cx blk) := h.devStore _ _ _
theorem MemoryWf.replayStep (cx : Nat) (blk : Word) : MemoryWf (Machine.replayStep m cx blk) := by
  unfold Machine.replayStep
  split
  next n q _ =>
    extract_lets count
    have hfrom := h.replayFrom cx blk count 113 n q
    generalize Machine.replayFrom cx blk count 113 m n q = r at hfrom ⊢
    exact MemoryWf.ite (hfrom.clearShadow cx blk) hfrom

/-! Leaving a context, and the failure of a launch. -/
theorem MemoryWf.dropOps (cx : Nat) (swap : Bool) : MemoryWf (Machine.dropOps m cx swap) := by
  cases swap with
  | true => exact h
  | false => exact h.returnAll _ _
theorem MemoryWf.returnShadow (cx : Nat) (l : Launch) (blk : Word) (root : RootRef) (n : Nat) :
    MemoryWf (Machine.returnShadow m cx l blk root n) := by
  unfold Machine.returnShadow
  dsimp only
  have hlog (k : Mach) (f : Nat × Nat × Nat) (hk : MemoryWf k) : MemoryWf (k.logDev (dieOf (coreOf cx)) (some f)) := hk.logDev _ _
  have hread : MemoryWf ((m.devFailure blk.toNat 64 false).elim m fun f => m.logDev (dieOf (coreOf cx)) (some f)) := by
    cases m.devFailure blk.toNat 64 false with
    | none => exact h
    | some f => exact h.logDev (dieOf (coreOf cx)) (some f)
  exact .ite (((hread.foldl _ hlog).returnAll _ _).clearShadow _ _) hread
end

end Sys2Proof.Safety
end

section
/-! SUPPORT. The canonical form through a context's release, the failure of a launch, a fault and the end of a bundle (14 R261). -/
namespace Sys2Proof.Safety
open Sys2Proof.Machine Sys2Proof.Proofs

section
variable {m : Mach} (h : MemoryWf m)
include h

theorem MemoryWf.releaseCtx (cx : Nat) (swap : Bool) : MemoryWf (Machine.releaseCtx m cx swap) := by
  have hdrop : MemoryWf (Machine.dropOps ((Machine.performAll m cx).dropWaiter cx) cx swap) := 
    MemoryWf.dropOps (m := (Machine.performAll m cx).dropWaiter cx) (h.performAll cx) cx swap
  unfold Machine.releaseCtx
  extract_lets n c unpinned returned counted left
  have hunpinned : MemoryWf unpinned := .ite (hdrop.unpinLines cx _) hdrop
  have hreturned : MemoryWf returned := by
    refine .ite hunpinned ?_
    split
    · exact hunpinned.returnWeight _ _
    · exact (hunpinned.returnShadow _ _ _ _ _).returnWeight _ _
  have hcounted : MemoryWf counted := by
    unfold counted
    split <;> exact hreturned
  exact hcounted
theorem MemoryWf.discardOps (cx : Nat) : MemoryWf (Machine.discardOps m cx) := by
  refine MemoryWf.foldl (m := m.modCore (coreOf cx) _) h _ fun n o hn => ?_
  exact MemoryWf.returnAll (m := n.modCtx cx _) hn _ _
theorem MemoryWf.drainLaunchWork (l : Launch) : MemoryWf (Machine.drainLaunchWork m l) :=
  (h.foldl _ fun _ t hn => hn.returnWeight t.root t.weight).foldl _ fun _ w hn => hn.returnWeight _ w
theorem MemoryWf.withdrawSends (l : Launch) : MemoryWf (Machine.withdrawSends m l) := by
  unfold Machine.withdrawSends
  extract_lets mine cores returned gone waits done
  have hreturned : MemoryWf returned := h.foldl _ fun n k hn => hn.foldl _ fun n x hn => hn.returnWeight x.root x.weight
  have hdone : MemoryWf done := hreturned.foldl _ fun n k hn => hn.foldl _ fun n x hn => by
    split <;> exact hn
  exact hdone
theorem MemoryWf.wakeWaiter (dom : Nat) (ok : Bool) : MemoryWf (Machine.wakeWaiter m dom ok) := by
  unfold Machine.wakeWaiter
  dsimp only
  split
  · exact h
  · split <;> exact h
theorem MemoryWf.dropSaved (l : Launch) : MemoryWf (Machine.dropSaved m l) := by
  unfold Machine.dropSaved
  extract_lets out back
  refine MemoryWf.foldl h _ fun n x hn => ?_
  exact MemoryWf.ite hn ((hn.returnShadow _ _ _ _ _).returnWeight _ _)
theorem MemoryWf.failLaunch (lid : Word) (why : FailBy) (core : Nat) (but : Option Nat) : MemoryWf (Machine.failLaunch m lid why core but) := by
  unfold Machine.failLaunch
  split
  · exact h
  · next l _ =>
    split
    · exact h
    · extract_lets r added r' marked frozen stopped withdrawn drained woken noticed
      have hfrozen : MemoryWf frozen := MemoryWf.qSetFlag (m := marked) h _ 2 true
      have hstopped : MemoryWf stopped := hfrozen.foldl _ fun n cx hn => by
        have hdiscard := hn.discardOps cx
        exact .ite (.ite hdiscard hdiscard) (MemoryWf.ite hdiscard hdiscard)
      have hwoken : MemoryWf woken := (((hstopped.withdrawSends l).drainLaunchWork l).dropSaved l).wakeWaiter _ false
      have hnoticed : MemoryWf noticed := by
        unfold noticed
        split <;> exact hwoken
      exact hnoticed
theorem MemoryWf.takeFault (cx : Nat) (slots : BitVec 6) (f : FaultRec) : MemoryWf (Machine.takeFault m cx slots f) := by
  unfold Machine.takeFault
  extract_lets c
  split
  · exact h
  · next l _ =>
    have hfails : MemoryWf (Machine.releaseCtx (Machine.failLaunch (m.modCtx cx fun c => c.setFault slots c.pc f) l.lid (.fault f.cause)
        (coreOf cx) (some cx)) cx false) :=
      MemoryWf.releaseCtx (MemoryWf.failLaunch (m := m.modCtx cx fun c => c.setFault slots c.pc f) h _ _ _ _) cx false
    split
    · exact hfails
    · split
      · exact h
      · split
        · exact h
        · exact hfails

/-! The end of a bundle. -/
theorem MemoryWf.residentSeat (lid : Word) (sr : SeatRec) : MemoryWf (Machine.residentSeat m lid sr) := by
  unfold Machine.residentSeat
  split
  · exact h
  · extract_lets mine enter opened entered ap deliver
    have hdeliver (n : Mach) (hn : MemoryWf n) (f : FaultRec) : MemoryWf (deliver n f) := hn.logFault _ f
    refine MemoryWf.foldl (m := entered) h mine fun n d hn => ?_
    extract_lets key
    split
    · exact hdeliver n hn _
    · split
      · exact hdeliver n hn _
      · split
        · next hu => exact hn.updateBarrier hu
        · exact hdeliver n hn _
theorem MemoryWf.afterReturn (cx : Nat) : MemoryWf (Machine.afterReturn m cx) := by
  unfold Machine.afterReturn
  split
  · exact h
  · split
    · exact h
    · exact .ite (h.residentSeat _ _) h
theorem MemoryWf.leaveSave (cx : Nat) : MemoryWf (Machine.leaveSave m cx) := by
  have hall := h.performAll cx
  unfold Machine.leaveSave
  extract_lets n c keep kept
  have hkept : MemoryWf kept := by
    unfold kept
    split <;> exact hall
  exact hkept.releaseCtx cx true
theorem MemoryWf.doTret (cx : Nat) (target : Word) : MemoryWf (Machine.doTret m cx target) := by
  unfold Machine.doTret
  split
  · exact .ite h (h.leaveSave cx)
  · exact h
  · exact MemoryWf.afterReturn (m := leaveHandler m cx target) h cx
theorem MemoryWf.applyAsk (cx : Nat) (a : Ask) : MemoryWf (Machine.applyAsk cx m a) := by
  cases a with
  | sched r | qwait w =>
    unfold Machine.applyAsk
    dsimp only
    split <;> exact h
  | miss v =>
    unfold Machine.applyAsk
    exact MemoryWf.ite h h
  | replay blk => exact h.replayStep cx blk
  | load l => exact h.loadBytes _ l 0
  | barrier | waiter | bwait | idleAt | hold | subcan => exact h
theorem MemoryWf.applyAsks (cx : Nat) (l : List Ask) : MemoryWf (l.foldl (Machine.applyAsk cx) m) := h.foldl l fun _ a hn => hn.applyAsk cx a
theorem MemoryWf.takeEvent (cx : Nat) (e : CtxEvent) : MemoryWf (Machine.takeEvent m cx e) := by
  unfold Machine.takeEvent
  extract_lets n leave
  have hn : MemoryWf n := h
  have hleave (f : FaultRec) : MemoryWf (leave f) := by
    unfold leave
    split
    · exact hn
    · exact hn.releaseCtx cx false
  cases e with
  | cancel | watchdog => exact hleave _
  | engine slots f => exact hn.takeFault cx slots f
  | access f => exact hn.takeFault cx 2 f
  | found | preempt => exact hn
theorem MemoryWf.fetchFault (cx : Nat) (slots : BitVec 6) (f : FaultRec) : MemoryWf (Machine.fetchFault m cx slots f) :=
  (h.logFault cx f).takeFault cx slots f
end

end Sys2Proof.Safety
end

section
/-! SUPPORT. The canonical form through the fetch of a bundle, the engines, the copies and the arrival of a message (14 R261). -/
namespace Sys2Proof.Safety
open Sys2Proof.Machine Sys2Proof.Proofs

/-- A chain that succeeds succeeds at its first step, and then at the rest. -/
theorem bind_ok {ε α β : Type} {x : Except ε α} {f : α → Except ε β} {b : β} (he : (x >>= f) = .ok b) : ∃ a, x = .ok a ∧ f a = .ok b := by
  cases x with
  | error e => cases he
  | ok a => exact ⟨a, rfl, he⟩

section
variable {m : Mach} (h : MemoryWf m)
include h

/-! The fetch of a bundle. -/
theorem MemoryWf.codeLine {cx lo hi pc line : Nat} {r : Mach × List Byte} (he : Machine.codeLine m cx lo hi pc line = .ok r) : MemoryWf r.1 := by
  unfold Machine.codeLine at he
  dsimp only at he
  split at he
  · cases he
    exact h
  · split at he
    · cases he
    · split at he
      · split at he
        · split at he
          · cases he
          · cases he
        · cases he
      · split at he
        · cases he
        · split at he
          · cases he
          · split at he
            · cases he
              exact h
            · cases he
              exact h.modCore _ _
theorem MemoryWf.codeBytes {cx lo hi pc : Nat} {r : Mach × List Byte} (he : Machine.codeBytes m cx lo hi pc = .ok r) : MemoryWf r.1 := by
  unfold Machine.codeBytes at he
  obtain ⟨⟨n, l⟩, hn, he⟩ := bind_ok he
  obtain ⟨⟨k, l'⟩, hk, he⟩ := bind_ok he
  have hwf : MemoryWf n := h.codeLine hn
  cases he
  change MemoryWf k
  dsimp only at hk
  split at hk
  · cases hk
    exact hwf
  · obtain ⟨x, hx, hk⟩ := bind_ok hk
    cases hk
    exact hwf.codeLine hx
theorem MemoryWf.fetchBundle (cx : Nat) : MemoryWf (Machine.fetchBundle m cx).1 := by
  unfold Machine.fetchBundle
  extract_lets c pc
  split
  · exact h
  · split
    · exact h
    · split
      · exact h
      · split
        · exact h
        · split
          · exact h
          · exact h
          · next hcode =>
            have hn := h.codeBytes hcode
            extract_lets head len outside
            split
            · exact hn
            · split
              · exact hn
              · split
                · exact hn
                · exact hn
                · next hbody => exact hn.codeBytes hbody
theorem MemoryWf.afterTurn (core n : Nat) (t : Turn) (others : Bool) : MemoryWf (Machine.afterTurn m core n t others) := by
  cases t <;> exact h

/-! The engines. -/
theorem MemoryWf.endSub (cx ring : Nat) : MemoryWf (m.endSub cx ring) := by
  unfold Mach.endSub
  split <;> exact h
theorem MemoryWf.startHead (core : Nat) (q : QKind) : MemoryWf (Machine.startHead m core q) := by
  unfold Machine.startHead
  split
  · exact MemoryWf.ite h h
  · exact h
theorem MemoryWf.removeOp (o : EOp) : MemoryWf (Machine.removeOp m o) := h
theorem MemoryWf.engineFault (o : EOp) (f : FaultRec) (gone : Bool) : MemoryWf (Machine.engineFault m o f gone) := by
  have hlog := h.logFault o.cx f
  unfold Machine.engineFault
  extract_lets k n left
  refine .ite (.ite hlog hlog) (.ite ?_ ?_)
  · refine MemoryWf.takeFault (MemoryWf.ite hlog ?_) _ _ _
    exact MemoryWf.returnAll (m := Machine.removeOp n o) hlog _ _
  · have hleft : MemoryWf left := MemoryWf.ite hlog hlog
    exact hleft
theorem MemoryWf.putTiles (cx : Nat) (ts : List (Nat × Tile)) : MemoryWf (ts.foldl (fun n x => n.putTile cx x.1 x.2) m) := h.foldl ts fun _ _ hn => hn
theorem MemoryWf.deliverOut (o : EOp) (r : EngOut) : MemoryWf (Machine.deliverOut m o r) := by
  have htiles := h.putTiles o.cx r.tiles
  unfold Machine.deliverOut
  extract_lets n k deg
  have hk : MemoryWf k := htiles
  split
  · exact MemoryWf.ite hk hk
  · exact hk
theorem MemoryWf.consumeOp (core uid : Nat) : MemoryWf (Machine.consumeOp m core uid) := by
  unfold Machine.consumeOp
  split
  · exact MemoryWf.ite h h
  · exact h
theorem MemoryWf.completeHead (core : Nat) (q : QKind) : MemoryWf (Machine.completeHead m core q) := by
  unfold Machine.completeHead
  split
  · exact h
  · next o _ _ =>
    refine .ite h ?_
    split
    · exact h.engineFault o _ false
    · split
      · exact h.engineFault o _ false
      · exact (h.deliverOut o _).removeOp o
theorem MemoryWf.writeShadow (cx reason : Nat) (pc : Word) (entries : List (List Byte)) : MemoryWf (Machine.writeShadow m cx reason pc entries) :=
  (h.devStore _ _ _).foldl _ fun _ _ hn => hn.devStore _ _ _
theorem MemoryWf.writeOut (cx reason : Nat) (tables : Bool) : MemoryWf (Machine.writeOut m cx reason tables) := by
  unfold Machine.writeOut
  extract_lets c due first ops shadowed fires uids rest marked done
  have hshadowed : MemoryWf shadowed := h.writeShadow cx reason _ _
  exact (((hshadowed.modCore _ _).modCtx cx _).modCtx cx _).modCtx cx _
theorem MemoryWf.engineFound (cx : Nat) : MemoryWf (Machine.engineFound m cx) := MemoryWf.ite (h.writeOut cx 2 false) h
theorem MemoryWf.valueWritten (cx uid : Nat) : MemoryWf (Machine.valueWritten m cx uid) := by
  unfold Machine.valueWritten
  extract_lets c
  split
  · exact .ite (h.performAccess cx _) h
  · exact h
theorem MemoryWf.postCommitErr (cx uid : Nat) (sub : BitVec 4) : MemoryWf (Machine.postCommitErr m cx uid sub) := by
  unfold Machine.postCommitErr
  extract_lets c d
  split
  · exact MemoryWf.ite h h
  · split
    · exact MemoryWf.ite h h
    · exact h

/-! The copies. -/
theorem MemoryWf.parkEng (o : EOp) (va : Nat) (write : Bool) : MemoryWf (Machine.parkEng m o va write) := MemoryWf.ite h h
theorem MemoryWf.engStop (o : EOp) (e : CopyStop) : MemoryWf (Machine.engStop m o e) := by
  cases e with
  | fault f => exact h.engineFault o f false
  | miss va w => exact h.parkEng o va w
  | wait => exact h
theorem MemoryWf.engWrite {n : Mach} {cx va : Nat} {bs : List Byte} {sub : Bool} (he : Machine.engWrite m cx va bs sub = .ok n) : MemoryWf n := by
  obtain ⟨r, _, he⟩ := bind_ok he
  cases r with
  | inr d => cases he; exact h.notifyWrite _ _ _
  | inl ls =>
    dsimp only at he
    split at he
    · cases he
    · cases he; exact h.writeLocs _ _
theorem MemoryWf.engWriteBits {n : Mach} {cx va bit w code : Nat} {whole sub : Bool}
    (he : Machine.engWriteBits m cx va bit w code whole sub = .ok n) : MemoryWf n := by
  obtain ⟨r, _, he⟩ := bind_ok he
  cases r with
  | inr d => cases he; exact h.notifyWrite _ _ _
  | inl ls =>
    dsimp only at he
    split at he
    · cases he
    · cases he; exact h.writePart _ _ _
theorem MemoryWf.setFullLine (o : EOp) (line : Nat) : MemoryWf (Machine.setFullLine m o line) := by
  unfold Machine.setFullLine
  split
  · exact h.setFullAt _ _
  · exact h
theorem MemoryWf.moveItem {n : Mach} {o : EOp} {x : CItem} (he : Machine.moveItem m o x = .ok n) : MemoryWf n := by
  unfold Machine.moveItem at he
  dsimp only at he
  cases x with
  | elem ix j va bit =>
    dsimp only at he
    split at he
    · split at he
      · exact h.engWriteBits he
      · exact h.engWrite he
    · obtain ⟨b, _, he⟩ := bind_ok he
      cases he
      exact h
  | scale blk j va =>
    dsimp only at he
    split at he
    · exact h.engWrite he
    · obtain ⟨b, _, he⟩ := bind_ok he
      cases he
      exact h
  | zero | one => cases he; exact h
  | pair va sp =>
    dsimp only at he
    obtain ⟨b, _, he⟩ := bind_ok he
    exact h.engWrite he
  | get sp =>
    dsimp only at he
    obtain ⟨b, _, he⟩ := bind_ok he
    cases he
    exact h
omit h in
theorem MemoryWf.moveItems (core uid : Nat) (others : List (Nat × CItem)) {m : Mach} (h : MemoryWf m) (xs : List (Nat × CItem)) :
    MemoryWf (Machine.moveItems core uid others xs m).1 := by
  induction xs generalizing m with
  | nil => exact h
  | cons x xs ih =>
    obtain ⟨i, x⟩ := x
    unfold Machine.moveItems
    split
    · exact h
    · next o _ =>
      split
      · exact h
      · next n hm =>
        extract_lets moved full
        have hmoved : MemoryWf moved := MemoryWf.moveItem (n := n) h hm
        refine ih ?_
        unfold full
        split
        · exact .ite hmoved (hmoved.setFullLine o _)
        · exact hmoved
omit h in
theorem MemoryWf.preftSome (o : EOp) (x : Hint) (ss : List Nat) (n : Nat) {m : Mach} (h : MemoryWf m) :
    MemoryWf (Machine.preftSome o x ss n m) := by
  induction ss generalizing m n with
  | nil => exact h
  | cons s ss ih =>
    unfold Machine.preftSome
    refine .ite (ih _ h) ?_
    split
    · refine ih _ ?_
      split
      · exact h.l2Access _ _ _ _
      · exact h
    · exact MemoryWf.parkEng (m := m.modOp (coreOf o.cx) o.uid _) h o _ _
    · exact ih _ h
theorem MemoryWf.doPreft (o : EOp) : MemoryWf (Machine.doPreft m o) := .ite h (h.preftSome o _ _ _)
theorem MemoryWf.missFault (o : EOp) (v : Miss) (sub : Nat) : MemoryWf (Machine.missFault m o v sub) := by
  unfold Machine.missFault
  split
  · exact h
  · exact h.engineFault o _ false
theorem MemoryWf.startCopy (o : EOp) : MemoryWf (Machine.startCopy m o) := by
  unfold Machine.startCopy
  extract_lets n read
  refine .ite h ?_
  split
  · exact h.engStop o _
  · exact h
theorem MemoryWf.copySome (core uid n : Nat) : MemoryWf (Machine.copySome m core uid n) := by
  unfold Machine.copySome
  split
  · exact h
  · next o _ =>
    refine .ite h ?_
    split
    · exact h.engineFault o _ false
    · extract_lets rest next
      split
      · exact h
      · next x _ =>
        have hmove := h.moveItems core uid (rest.filter (·.1 != x.1)) [x]
        generalize Machine.moveItems core uid _ [x] m = r at hmove ⊢
        obtain ⟨k, e⟩ := r
        cases e with
        | none => exact hmove
        | some e => exact hmove.engStop o e
theorem MemoryWf.copyL2 (o : EOp) (xs : List CItem) : MemoryWf (Machine.copyL2 m o xs) := h.l2Span _ _ _ _
theorem MemoryWf.loadBank (o : EOp) (bs : List Byte) : MemoryWf (Machine.loadBank m o bs) := h
theorem MemoryWf.completeCopy (o : EOp) : MemoryWf (Machine.completeCopy m o) := by
  unfold Machine.completeCopy
  extract_lets core
  split
  · exact h.doPreft o
  · split
    · exact h.engStop o _
    · next bs _ =>
      have hread := h.l2Span (sectorsOf m (upFrom (opWindow m o).base.toNat 32)) false false (hintOf 0)
      exact (hread.loadBank o bs).removeOp o
  · split
    · exact h.engineFault o _ false
    · have hmove := h.moveItems core o.uid [] (copyRest m o)
      split
      · next n hr =>
        rw [hr] at hmove
        exact (hmove.copyL2 o _).removeOp o
      · next n e hr =>
        rw [hr] at hmove
        exact hmove.engStop o e

/-! A message that comes in. -/
theorem MemoryWf.linkIdle (p : PortId) (valid : Bool) (ack : Nat) : MemoryWf (Machine.linkIdle m p valid ack) := MemoryWf.ite h h
theorem MemoryWf.acceptFlits (x : Msg) : MemoryWf (Machine.acceptFlits m x) := by
  unfold Machine.acceptFlits
  split
  · next p q _ =>
    extract_lets q' src n
    have hn : MemoryWf n := h
    split
    · exact hn.linkIdle p true _
    · exact hn
  · exact h
theorem MemoryWf.arrive (x : Msg) {f : Mach → Mach} (hf : ∀ n, MemoryWf n → MemoryWf (f n)) : MemoryWf (Machine.arrive x m f) := by
  have haccept := h.acceptFlits x
  unfold Machine.arrive
  refine .ite (hf m h) (.ite h ?_)
  extract_lets n k
  refine .ite haccept (.ite haccept ?_)
  have hk : MemoryWf k := MemoryWf.ite haccept haccept
  exact MemoryWf.ite hk (hf k hk)
end

end Sys2Proof.Safety
end

section
/-! SUPPORT. The canonical form through sends, receives, the collective tile table, active messages and barrier updates (14 R261). -/
namespace Sys2Proof.Safety
open Sys2Proof.Machine Sys2Proof.Proofs

section
variable {m : Mach} (h : MemoryWf m)
include h

theorem MemoryWf.post (dst : Nat) (mk : MsgHdr → Msg) : MemoryWf (m.post dst mk) := MemoryWf.ite h h

/-! Barrier updates. -/
theorem MemoryWf.applyBarrier {n : Mach} {lid : Word} {u : BarUpd} (he : Machine.applyBarrier m lid u = .ok n) : MemoryWf n := by
  unfold Machine.applyBarrier at he
  extract_lets reset l st key away at he
  split at he
  · cases he
  · split at he
    · cases he
      exact h.modLaunch lid _
    · split at he
      · cases he
      · split at he
        · cases he
        · split at he
          · next hu =>
            cases he
            exact h.updateBarrier hu
          · cases he
theorem MemoryWf.creditBarrier {n : Mach} {cx : Nat} {addr : Word} {bytes : Nat} (he : Machine.creditBarrier m cx addr bytes = .ok n) :
    MemoryWf n := by
  unfold Machine.creditBarrier at he
  split at he
  · cases he
  · cases he
    exact h
  · extract_lets st at he
    split at he
    · cases he
    · exact h.applyBarrier he
theorem MemoryWf.barrierAt (cx : Nat) : MemoryWf (Machine.barrierAt m cx) := by
  unfold Machine.barrierAt
  extract_lets c
  split
  · exact h
  · next u _ =>
    refine .ite h ?_
    split
    · next hu => exact (h.applyBarrier hu).modCtx cx _
    · exact h.modCtx cx _

/-! Sends. -/
theorem MemoryWf.postSend (o : EOp) (entry : Nat) (word : TypeWord) (tile : Nat) (image : List Byte) (eps : List Word) :
    MemoryWf (Machine.postSend m o entry word tile image eps) :=
  ((h.modOp _ _ _).modCore _ _).foldl eps fun _ _ hn => hn.post _ _
theorem MemoryWf.startSend (o : EOp) : MemoryWf (Machine.startSend m o) := by
  unfold Machine.startSend
  split
  · exact h
  · exact h.engineFault o _ false
  · extract_lets t v go
    have hgo (eps : List Word) : MemoryWf (go m eps) := h.postSend o _ _ _ _ eps
    split
    · split
      · exact h.engStop o _
      · extract_lets eps
        split
        · exact h.engineFault o _ false
        · exact hgo _
    · exact hgo _
theorem MemoryWf.fireWaiting (k : Nat) : MemoryWf (Machine.fireWaiting m k) := by
  refine h.foldl _ fun n o hn => ?_
  split
  · exact hn
  · exact hn
  · extract_lets t v
    refine .ite hn ?_
    split
    · exact hn.engineFault _ _ false
    · exact (hn.modOp k o.uid _).postSend _ _ _ _ _ _
theorem MemoryWf.removeOp? (x : Option EOp) : MemoryWf (match x with | some o => Machine.removeOp m o | none => m) := by
  cases x with
  | none => exact h
  | some o => exact h.removeOp o
theorem MemoryWf.countPull (k entry gtag : Nat) : MemoryWf (Machine.countPull m k entry gtag) := by
  unfold Machine.countPull
  split
  · exact h
  · next x _ =>
    refine .ite (h.modCore k _) ?_
    extract_lets returned kept freed done
    have hkept : MemoryWf kept := ((h.returnWeight _ _).touch _).modCore k _
    have hfreed : MemoryWf freed := by
      unfold freed
      split
      · exact hkept.modLaunch _ _
      · exact hkept
    exact MemoryWf.fireWaiting (hfreed.removeOp? _) k
theorem MemoryWf.senderFault (x : SendRec) (f : FaultRec) : MemoryWf (Machine.senderFault m x f) := by
  unfold Machine.senderFault
  extract_lets o out take
  exact .ite ((h.logFault x.cx f).modLaunch x.lid _) (.ite h (h.engineFault o f true))

/-! Deliveries; where a word is checked, the check stays opaque, so that the kernel need not evaluate it. -/
theorem MemoryWf.claimEntry (k uid : Nat) (e : RecvEnt) : MemoryWf (Machine.claimEntry m k uid e) := by
  unfold Machine.claimEntry
  extract_lets n
  have hn : MemoryWf n := h.modCore k _
  split <;> exact hn.post _ _
theorem MemoryWf.fireEntry (k n : Nat) (t : TabEnt) : MemoryWf (Machine.fireEntry m k n t) := by
  unfold Machine.fireEntry
  extract_lets fired done
  have hdone : MemoryWf done := MemoryWf.removeOp? (m := fired) (h.modCore k _) _
  split
  · exact hdone
  · exact (hdone.modOp k _ _).fireWaiting k
theorem MemoryWf.tableFault (k n : Nat) (t : TabEnt) (f : FaultRec) : MemoryWf (Machine.tableFault m k n t f) := by
  unfold Machine.tableFault
  extract_lets gone done
  have hgone : MemoryWf gone := h.modCore k _
  have hdone : MemoryWf done := by
    unfold done
    split
    · exact hgone.modCtx _ _
    · exact hgone
  exact hdone.engineFault _ f false
theorem MemoryWf.claimTables (k : Nat) : MemoryWf (Machine.claimTables m k) := by
  unfold Machine.claimTables
  obtain ⟨wf, hwf⟩ : ∃ wf, wf = wordFault := ⟨wordFault, rfl⟩
  rw [← hwf]
  refine h.foldl _ fun n x hn => ?_
  extract_lets c
  split
  · exact hn
  · refine .ite hn ?_
    split
    · exact hn
    · split
      · exact hn.tableFault k _ _ _
      · exact hn.claimEntry k _ _
theorem MemoryWf.deliverReady {n : Mach} {r : ReadyMsg} (he : Machine.deliverReady m r = some n) : MemoryWf n := by
  unfold Machine.deliverReady at he
  split at he
  · cases he
    exact h.post _ _
  · cases he
    exact h.modLaunch _ _
  · extract_lets k at he
    split at he
    · cases he
    · cases he
      exact MemoryWf.claimTables (h.modCore k _) k
theorem MemoryWf.enterHeld : MemoryWf (Machine.enterHeld m) := by
  refine h.foldl _ fun n l hn => hn.foldl _ fun n e hn => ?_
  split
  · exact .ite ((hn.modLaunch l.lid _).modCore _ _) hn
  · exact hn

/-! Receives. -/
theorem MemoryWf.startRecv (o : EOp) : MemoryWf (Machine.startRecv m o) := by
  unfold Machine.startRecv
  obtain ⟨wf, hwf⟩ : ∃ wf, wf = wordFault := ⟨wordFault, rfl⟩
  rw [← hwf]
  extract_lets k c tag
  refine .ite h ?_
  split
  · exact h
  · split
    · exact h.engineFault o _ false
    · exact MemoryWf.claimEntry (m := startOp m o) (h.modOp _ _ _) k o.uid _
theorem MemoryWf.takeImage {n : Mach} {o : EOp} {w : TypeWord} {image : List Byte} {k : Nat} (he : Machine.takeImage m o w image k = .ok n) :
    MemoryWf n := by
  unfold Machine.takeImage at he
  split at he
  · cases he
  · obtain ⟨⟨v, flag⟩, _, he⟩ := bind_ok he
    cases he
    have htile : MemoryWf (m.putTile o.cx o.cslot.t.toNat v.tile) := h
    exact .ite (htile.modCtx _ _) htile
theorem MemoryWf.consumeEntry (k : Nat) (e : RecvEnt) : MemoryWf (Machine.consumeEntry m k e) :=
  MemoryWf.ite ((h.modCore k _).countPull _ _ _) (h.modCore k _)
theorem MemoryWf.keepEntry (k : Nat) (e : RecvEnt) (image : List Byte) : MemoryWf (Machine.keepEntry m k e image) := h.modCore k _
theorem MemoryWf.pullDataAt (sender : BitVec 10) (core entry : Nat) (endpoint : Word) (image : List Byte) :
    MemoryWf (Machine.pullDataAt m sender core entry endpoint image) := by
  unfold Machine.pullDataAt
  extract_lets k
  split
  · exact h
  · next e _ =>
    split
    · exact h.keepEntry k e image
    · split
      · exact (h.keepEntry k e image).tableFault k _ _ _
      · next n' hn =>
        extract_lets t' consumed
        have hconsumed : MemoryWf consumed := ((h.takeImage hn).modCore k _).consumeEntry k e
        exact MemoryWf.claimTables (.ite (hconsumed.fireEntry k _ _) hconsumed) k
    · next o _ _ =>
      split
      · exact (h.keepEntry k e image).engineFault o _ false
      · next n' hn =>
        extract_lets consumed r
        have hconsumed : MemoryWf consumed := (h.takeImage hn).consumeEntry k e
        have hcredit : ∀ k', r = .ok k' → MemoryWf k' := fun k' hr => by
          unfold r at hr
          split at hr
          · cases hr
            exact hconsumed
          · exact hconsumed.creditBarrier hr
        clear_value r
        cases r with
        | ok k' => exact ((hcredit k' rfl).removeOp o).modCore k _
        | error f => exact MemoryWf.engineFault ((hconsumed.removeOp o).modCore k _) o f true
theorem MemoryWf.pullAt (x : MsgHdr) (refusal : Bool) (sender : BitVec 10) (core entry : Nat) (endpoint : Word) :
    MemoryWf (Machine.pullAt m x refusal sender core entry endpoint) := by
  unfold Machine.pullAt
  split
  · exact h
  · next y _ =>
    extract_lets gtag copy
    refine .ite h (.ite ((h.senderFault y _).countPull _ _ _) ?_)
    split
    · exact h.senderFault y _
    · exact .ite (h.post _ _) ((h.post _ _).countPull _ _ _)

/-! The table's operations, and active messages. -/
theorem MemoryWf.startTtset (o : EOp) : MemoryWf (Machine.startTtset m o) := by
  unfold Machine.startTtset
  extract_lets k n busy count left started
  refine .ite h ?_
  have hstarted : MemoryWf started := h.modOp k _ _
  split
  next q fire hq =>
    have hqueued : MemoryWf q := by
      split at hq
      · cases hq
        exact hstarted
      · cases hq
        exact hstarted.modCore k _
    extract_lets t set
    exact .ite (MemoryWf.fireEntry (hqueued.modCore k _) k n t) (MemoryWf.claimTables (hqueued.modCore k _) k)
theorem MemoryWf.startTtfire (o : EOp) : MemoryWf (Machine.startTtfire m o) := by
  unfold Machine.startTtfire
  extract_lets k n started
  split
  · exact h.engineFault o _ false
  · have hstarted : MemoryWf started := h.modOp k _ _
    exact .ite ((hstarted.modOp k _ _).fireWaiting k) (.ite h (hstarted.modCore k _))
theorem MemoryWf.startAmsg (o : EOp) : MemoryWf (Machine.startAmsg m o) := by
  unfold Machine.startAmsg
  split
  · exact h.engStop o _
  · exact (h.modOp _ _ _).post _ _
theorem MemoryWf.amsgAnswer (core uid : Nat) : MemoryWf (Machine.amsgAnswer m core uid) := by
  have hfresh (o : EOp) : MemoryWf (Machine.removeOp { m with fresh := m.fresh + 1 } o) := h
  unfold Machine.amsgAnswer
  split
  · exact h
  · next o _ => exact .ite h (.ite (hfresh o) ((hfresh o).engineFault o _ true))
theorem MemoryWf.activeAt (x : MsgHdr) (bs : List Byte) (endpoint : Word) (sender : BitVec 10) (gtag : Nat) (kernel : Word) :
    MemoryWf (Machine.activeAt m x bs endpoint sender gtag kernel) := by
  unfold Machine.activeAt
  extract_lets root ok op returned
  clear_value ok op
  cases ok with
  | some l => exact (h.modLaunch l.lid _).removeOp? op
  | none =>
    have hreturned : MemoryWf returned := h.returnWeight _ _
    cases op with
    | some o => exact (hreturned.removeOp o).engineFault o _ true
    | none => exact hreturned

/-! The copy engine's start and completion. -/
theorem MemoryWf.startC (o : EOp) : MemoryWf (Machine.startC m o) := by
  unfold Machine.startC
  split
  · exact h.startSend o
  · exact h.startSend o
  · exact h.startRecv o
  · exact h.startRecv o
  · exact h.startRecv o
  · exact h.startAmsg o
  · exact h.startTtset o
  · exact h.startTtfire o
  · exact h.startCopy o
theorem MemoryWf.copyStart (core uid : Nat) : MemoryWf (Machine.copyStart m core uid) := by
  unfold Machine.copyStart
  split
  · exact .ite (h.startC _) h
  · exact h
theorem MemoryWf.copyComplete (core uid : Nat) : MemoryWf (Machine.copyComplete m core uid) := by
  unfold Machine.copyComplete
  split
  · exact .ite (h.completeCopy _) h
  · exact h
end

end Sys2Proof.Safety
end

section
/-! SUPPORT. The canonical form through the subscriptions and the schedulers (14 R261). -/
namespace Sys2Proof.Safety
open Sys2Proof.Machine Sys2Proof.Proofs

section
variable {m : Mach} (h : MemoryWf m)
include h

/-! Subscriptions. -/
theorem MemoryWf.moveSub {n : Mach} {cx : Nat} {c : Ctx} {u : Sub} {x : SubItem} (he : Machine.moveSub m cx c u x = .ok n) : MemoryWf n := by
  have stops : ∀ e : CopyStop, (match e with | .fault f => Except.error f | _ => .error { cause := 0x0A, addr := BitVec.ofNat 64 x.va }) ≠
      (Except.ok n : Except FaultRec Mach) := fun e => by cases e <;> nofun
  unfold Machine.moveSub at he
  dsimp only at he
  split at he
  · split at he
    · cases he
    · split at he
      · split at he
        · exact absurd he (stops _)
        · next hw => cases he; exact h.engWriteBits hw
      · split at he
        · exact absurd he (stops _)
        · next hw => cases he; exact h.engWrite hw
  · split at he
    · exact absurd he (stops _)
    · cases he
      exact .ite (h.writePart _ _ _) (h.writeLocs _ _)
theorem MemoryWf.subStop (cx ring : Nat) (f : FaultRec) : MemoryWf (Machine.subStop m cx ring f) := h
omit h in
theorem MemoryWf.subMoves (cx : Nat) (u : Sub) (n : Nat) (xs : List SubItem) {m : Mach} (h : MemoryWf m) :
    MemoryWf (Machine.subMoves cx u n xs m).1 := by
  induction n generalizing xs m with
  | zero => exact h
  | succ n ih =>
    cases xs with
    | nil => exact h
    | cons x xs =>
      unfold Machine.subMoves
      split
      · exact h.subStop cx _ _
      · next hm => exact ih xs (MemoryWf.modCtx (h.moveSub hm) cx _)
theorem MemoryWf.subSome (cx ring n : Nat) : MemoryWf (Machine.subSome m cx ring n) := by
  unfold Machine.subSome
  split
  · exact h
  · exact .ite (h.subMoves cx _ n _) h
theorem MemoryWf.subStart (cx ring : Nat) (pull : Bool) : MemoryWf (Machine.subStart m cx ring pull) := by
  unfold Machine.subStart
  split
  · exact h
  · exact MemoryWf.ite (h.modCtx cx _) h
theorem MemoryWf.subEnd (cx ring : Nat) (pull : Bool) : MemoryWf (Machine.subEnd m cx ring pull) := by
  unfold Machine.subEnd
  split
  · exact h
  · next u _ =>
    refine .ite h ?_
    extract_lets items
    have hmoves := h.subMoves cx u items.length (items.drop u.moved)
    split
    · next hr =>
      rw [hr] at hmoves
      exact hmoves
    · next k hr =>
      rw [hr] at hmoves
      have hl2 : MemoryWf (subL2 k cx u items) := MemoryWf.l2 hmoves (.subL2 k cx u items)
      exact (hl2.setLines _ _).modCtx cx _
theorem MemoryWf.endSubs (cx : Nat) : MemoryWf (Machine.endSubs m cx) := h.foldl _ fun _ u hn => hn.subEnd cx u.ring.toNat u.pull

/-! Misses and queue slots. -/
theorem MemoryWf.freshen : MemoryWf m.freshen := h
theorem MemoryWf.setCtx (cx : Nat) (c : Ctx) : MemoryWf (m.setCtx cx c) := h
theorem MemoryWf.useCredits (l : List Nat) : MemoryWf (m.useCredits l) := h
theorem MemoryWf.setRoot (dom : Nat) (x : Root) : MemoryWf (m.setRoot dom x) := h
theorem MemoryWf.walkMiss (d n : Nat) : MemoryWf (Machine.walkMiss m d n) := by
  unfold Machine.walkMiss
  split
  · exact h
  · next v _ =>
    extract_lets k wanted seen
    have hseen : MemoryWf seen := .ite (MemoryWf.modCtx (h.modDie d _) _ _) (h.modDie d _)
    split
    · exact (hseen.modCore _ _).modDie d _
    · split
      · split
        · exact hseen.missFault _ v _
        · exact hseen
      · exact .ite (hseen.modCtx _ _) hseen
theorem MemoryWf.mapQueue (d q : Nat) : MemoryWf (Machine.mapQueue m d q) := by
  unfold Machine.mapQueue
  extract_lets used free flagged
  have hflagged : MemoryWf flagged := (h.freshen.qSetFlag q 1 false).qSetFlag q 3 true
  refine .ite ?_ h
  split
  · exact h
  · refine MemoryWf.modDie ?_ d _
    exact hflagged.of_eq rfl rfl rfl rfl
theorem MemoryWf.unmapQueue (d q : Nat) : MemoryWf (Machine.unmapQueue m d q) := by
  unfold Machine.unmapQueue
  extract_lets x
  split
  · exact h
  · refine .ite ?_ h
    extract_lets n unmapped
    have hunmapped : MemoryWf unmapped := MemoryWf.qSetFlag (m := n.modDie d _) h q 3 false
    exact .ite (hunmapped.mapQueue d q) hunmapped
theorem MemoryWf.lookAt (d q : Nat) : MemoryWf (Machine.lookAt m d q) := MemoryWf.ite h ((h.logDev _ _).logDev _ _)
theorem MemoryWf.consumeHead (q : Nat) : MemoryWf (Machine.consumeHead m q) := (h.devStore _ _ _).qPut q 24 8 _
theorem MemoryWf.raiseHorizon (q : Nat) : MemoryWf (Machine.raiseHorizon m q) := h.qChange q _ (h.qPut q 32 8 _)

/-! Seats. -/
theorem MemoryWf.giveSeat (l : Launch) (st : SeatRec) : MemoryWf (Machine.giveSeat m l st) := by
  have hzero : MemoryWf (Machine.zeroRegion m st.core st.base st.size).freshen := (h.zeroRegion _ _ _).freshen
  unfold Machine.giveSeat
  exact ((hzero.foldl _ fun _ _ hn => hn.setCtx _ _).modCore _ _).modLaunch _ _
theorem MemoryWf.claimOn (lid : Word) (k : Nat) : MemoryWf (Machine.claimOn m lid k) := by
  unfold Machine.claimOn
  split
  · exact h
  · exact (h.freshen.freshen.giveSeat _ _).modLaunch lid _
theorem MemoryWf.dropSeat (st : SeatRec) : MemoryWf (Machine.dropSeat m st) := by
  unfold Machine.dropSeat
  extract_lets left dropped
  have hleft : MemoryWf left := h.foldl _ fun n cx hn => by
    have hended := MemoryWf.endSubs (m := (Machine.performAll n cx).dropWaiter cx) (hn.performAll cx) cx
    exact ((hended.unpinLines cx _).dropOps cx true).modCtx cx _
  exact .ite (MemoryWf.modCore (hleft.modLaunch st.lid _) st.core _) (hleft.modLaunch st.lid _)

/-! Admission and decisions. -/
theorem MemoryWf.writeRecord (addr status reason domain lid summary : Nat) : MemoryWf (Machine.writeRecord m addr status reason domain lid summary) :=
  MemoryWf.ite h (h.devStore _ _ _)
theorem MemoryWf.finishUnrun (q i : Nat) (bs : Option (List Byte)) (status reason : Nat) : MemoryWf (Machine.finishUnrun m q i bs status reason) := by
  unfold Machine.finishUnrun
  extract_lets consumed recorded noticed
  have hrecorded : MemoryWf recorded := (h.consumeHead q).writeRecord _ _ _ _ _ _
  have hnoticed : MemoryWf noticed := MemoryWf.ite hrecorded hrecorded
  exact (hnoticed.raiseHorizon q).qFail q i
theorem MemoryWf.refuseHead (q i : Nat) (bs : List Byte) (r : Refused) : MemoryWf (Machine.refuseHead m q i bs r) :=
  (h.logDev _ _).finishUnrun q i _ 4 r.1
theorem MemoryWf.dealerReturn (lid : Word) : MemoryWf (Machine.dealerReturn m lid) := by
  unfold Machine.dealerReturn
  split
  · exact h
  · exact .ite h ((h.foldl _ fun _ w hn => hn.returnWeight _ w).modLaunch lid _)
theorem MemoryWf.admitLaunch (p : Packet) (r : Reserve) : MemoryWf (Machine.admitLaunch m p r) := by
  unfold Machine.admitLaunch
  extract_lets d lid bs live consumed gtag l rooted listed
  have hconsumed : MemoryWf consumed := h.freshen.freshen.consumeHead p.q
  clear_value consumed
  have hrooted : MemoryWf rooted := (hconsumed.freshen.useCredits _).setRoot _ _
  clear_value rooted
  have hlisted : MemoryWf listed := hrooted.of_eq rfl rfl rfl rfl
  clear_value listed
  exact (hlisted.foldl _ fun _ k hn => hn.claimOn lid k).dealerReturn lid
theorem MemoryWf.decide' (d q : Nat) (want : Ready → Bool) : MemoryWf (Machine.decide' m d q want) := by
  unfold Machine.decide'
  split
  · exact h.lookAt d q
  · split
    · exact h.lookAt d q
    split
    · exact h
    extract_lets r n k
    have hn : MemoryWf n := h.modDie d _
    have hk : MemoryWf k := (hn.consumeHead q).raiseHorizon q
    clear_value k n
    split
    · exact h
    · clear_value r
      cases r with
      | no | wait => exact h
      | refuse r => exact hn.refuseHead q _ _ r
      | broken => exact hn.finishUnrun q _ _ 3 0x15
      | accept p r => exact hn.admitLaunch p r
      | noop => exact (hn.consumeHead q).raiseHorizon q
      | record lid =>
        dsimp only
        split
        · refine MemoryWf.returnWeight ?_ _ _
          exact hk.of_eq rfl rfl rfl rfl
        · next l _ =>
          refine MemoryWf.ite (MemoryWf.returnWeight ?_ _ _) (MemoryWf.modLaunch ?_ _ _)
          all_goals exact hk.of_eq rfl rfl rfl rfl
theorem MemoryWf.wakeFor (cores : List Nat) : MemoryWf (Machine.wakeFor m cores) := h.foldl cores fun _ k hn => .ite (hn.modCore k _) hn
theorem MemoryWf.launchPacket (d q : Nat) : MemoryWf (Machine.launchPacket m d q) := by
  unfold Machine.launchPacket
  split
  · exact h.wakeFor _
  · exact h.decide' d q _

/-! Dealing and claims. -/
theorem MemoryWf.startTask (l : Launch) (cx : Nat) (t : Task) : MemoryWf (Machine.startTask m l cx t) := by
  unfold Machine.startTask
  extract_lets c n pc regs new started
  have hstarted : MemoryWf started := MemoryWf.modCore ((h.freshen.setCtx cx new).touch t.root) _ _
  exact .ite hstarted (hstarted.takeFault cx 0 _)
theorem MemoryWf.dealTask (lid : Word) : MemoryWf (Machine.dealTask m lid) := by
  unfold Machine.dealTask
  split
  · exact h
  · refine .ite h ?_
    split
    · exact h
    · split
      · exact (h.modLaunch lid _).startTask _ _ _
      · exact (h.modLaunch lid _).startTask _ _ _
      · exact (h.modLaunch lid _).startTask _ _ _
      · exact .ite (((h.modLaunch lid _).startTask _ _ _).dealerReturn lid) h
theorem MemoryWf.claimSeat (lid : Word) : MemoryWf (Machine.claimSeat m lid) := by
  unfold Machine.claimSeat
  split
  · exact h
  · refine .ite h ?_
    split
    · exact h
    · split
      · exact h
      · exact .ite (h.wakeFor _) (((h.useCredits _).modLaunch lid _).claimOn lid _)
theorem MemoryWf.settle : MemoryWf m.settle := by
  refine MemoryWf.foldl (m := m.freeLeft) h _ fun n l hn => ?_
  have hdrained : MemoryWf (if l.phase = .failing then Machine.drainLaunchWork n l else n) := .ite (hn.drainLaunchWork l) hn
  exact .ite hdrained (hdrained.foldl _ fun _ st hk => hk.dropSeat st)

/-! Requests at a scheduler. -/
theorem MemoryWf.answer (cx : Nat) (ok refused : Bool) (v : Word) : MemoryWf (Machine.answer m cx ok refused v) := h
theorem MemoryWf.payShare (cx : Nat) : MemoryWf (Machine.payShare m cx) := h
theorem MemoryWf.logQueue (q : Nat) : MemoryWf (m.logQueue q) := h.logDev _ _
theorem MemoryWf.performReq {n : Mach} {d : Nat} {l : Launch} {r : SchedReq} (he : Machine.performReq m d l r = some n) : MemoryWf n := by
  cases r with
  | escal cx lid =>
    cases he
    exact MemoryWf.ite (h.answer cx _ _ _) ((h.modLaunch l.lid _).answer cx _ _ _)
  | lcommit cx lid b =>
    cases he
    exact (h.modLaunch l.lid _).answer cx _ _ _
  | spawn cx lid t =>
    rw [Machine.performReq] at he
    split at he
    · cases he
      exact ((h.modLaunch l.lid _).payShare cx).answer cx _ _ _
    · cases he
  | lrec cx lid q b t give host =>
    rw [Machine.performReq] at he
    split at he
    · cases he
      exact (h.logQueue q).answer cx _ _ _
    · split at he
      · cases he
        exact h.answer cx _ _ _
      · extract_lets i root written rooted at he
        have hwritten : MemoryWf written := (h.qPut q 16 8 (i + 1)).devStore _ _ _
        clear_value written
        have hrooted : MemoryWf rooted := .ite hwritten (hwritten.of_eq rfl rfl rfl rfl)
        clear_value rooted
        split at he
        · cases he
        · cases he
          exact ((((hrooted.modLaunch l.lid _).notify q).payShare cx).answer cx _ _ _)
theorem MemoryWf.schedReceipt (d n : Nat) : MemoryWf (Machine.schedReceipt m d n) := by
  unfold Machine.schedReceipt
  split
  · exact h
  · extract_lets drop
    have hdrop {k : Mach} (hk : MemoryWf k) : MemoryWf (drop k) := hk.modDie d _
    refine .ite h ?_
    split
    · exact hdrop h
    · next l _ =>
      refine .ite (hdrop h) ?_
      cases hp : Machine.performReq m d l _ with
      | none => exact h
      | some k => exact hdrop (h.performReq hp)

/-! Completion. -/
theorem MemoryWf.refuseEntries (l : Launch) : MemoryWf (Machine.refuseEntries m l) := by
  unfold Machine.refuseEntries
  extract_lets mine returned gone
  have hreturned : MemoryWf returned := h.foldl _ fun _ y hn => hn.returnWeight y.root y.weight
  exact MemoryWf.foldl (m := gone) hreturned _ fun _ e hn => hn.post _ _
theorem MemoryWf.finishWrites (l : Launch) : MemoryWf (Machine.finishWrites m l) :=
  h.foldl _ fun _ cx hn => ((hn.performAll cx).endSubs cx).modCtx cx _
theorem MemoryWf.recordDone (l : Launch) : MemoryWf (Machine.recordDone m l) := by
  unfold Machine.recordDone
  extract_lets failed status reason summary recorded
  have hrecorded : MemoryWf recorded := (h.finishWrites l).writeRecord _ _ _ _ _ _
  exact MemoryWf.ite hrecorded hrecorded
theorem MemoryWf.releaseHeld (l : Launch) : MemoryWf (Machine.releaseHeld m l) := by
  unfold Machine.releaseHeld
  extract_lets refused dropped given subs ended
  have hdropped : MemoryWf dropped := (h.refuseEntries l).foldl _ fun _ st hn => hn.dropSeat st
  have hended : MemoryWf ended := MemoryWf.foldl (m := given) hdropped _ fun _ _ hn => hn
  exact hended
theorem MemoryWf.completeLaunch (l : Launch) : MemoryWf (Machine.completeLaunch m l) := by
  unfold Machine.completeLaunch
  extract_lets raised failed
  have hraised : MemoryWf raised := ((h.recordDone l).releaseHeld l).raiseHorizon _
  have hfailed : MemoryWf failed := .ite (hraised.qFail _ _) hraised
  exact MemoryWf.modDie (hfailed.modDie l.home _) _ _
theorem MemoryWf.completion (lid : Word) : MemoryWf (Machine.completion m lid) := by
  unfold Machine.completion
  split
  · exact h
  · exact .ite (h.completeLaunch _) h
end

end Sys2Proof.Safety
end

section
/-! SUPPORT. The canonical form through roots, failure, pre-emption, restore and the requests that name a launch (14 R261). -/
namespace Sys2Proof.Safety
open Sys2Proof.Machine Sys2Proof.Proofs

section
variable {m : Mach} (h : MemoryWf m)
include h

/-! Roots. -/
theorem MemoryWf.afterRoot (dom : Nat) : MemoryWf (Machine.afterRoot m dom) := by
  unfold Machine.afterRoot
  extract_lets r
  split
  · exact h
  · split
    · exact .ite h (h.failLaunch _ _ _ _)
    · split
      · split
        · exact h
        · extract_lets noted
          have hnoted : MemoryWf noted := h.modLaunch _ _
          exact .ite ((hnoted.setRoot dom _).wakeWaiter dom true) (hnoted.setRoot dom _)
      · exact h
theorem MemoryWf.addReturn (dom gtag : Nat) (w : Word) : MemoryWf (Machine.addReturn m dom gtag w) := by
  unfold Machine.addReturn
  extract_lets r
  split
  · exact h
  · exact .ite h (((h.setRoot dom _).modLaunch _ _).afterRoot dom)
theorem MemoryWf.waitAtRoot (dom cx : Nat) : MemoryWf (Machine.waitAtRoot m dom cx) := by
  unfold Machine.waitAtRoot
  extract_lets r c reply
  have hreply {n : Mach} (hn : MemoryWf n) (a : Await) (qw : Word) : MemoryWf (reply n a qw) := hn.modCtx cx _
  clear_value reply
  split
  · exact h
  · split
    · exact h
    · split
      · exact hreply (h.setRoot dom _) _ _
      · split
        · exact hreply h _ _
        · split
          · extract_lets paid
            have hpaid : MemoryWf paid := .ite h ((h.setRoot dom _).modLaunch _ _)
            exact (hreply hpaid _ _).afterRoot dom
          · exact (MemoryWf.modCtx ((h.setRoot dom _).modLaunch _ _) cx _).afterRoot dom
theorem MemoryWf.rootEvent (d n : Nat) : MemoryWf (Machine.rootEvent m d n) := by
  unfold Machine.rootEvent
  split
  · exact h
  · extract_lets dropped
    have hdropped : MemoryWf dropped := h.modDie d _
    split
    · exact hdropped.addReturn _ _ _
    · exact hdropped.waitAtRoot _ _

/-! Failure and the watchdog. -/
theorem MemoryWf.forcedRelease (cx : Nat) : MemoryWf (Machine.forcedRelease m cx) := by
  unfold Machine.forcedRelease
  split
  · exact .ite (h.releaseCtx cx false) h
  · exact h
theorem MemoryWf.failureInterval (lid : Word) : MemoryWf (Machine.failureInterval m lid) := by
  unfold Machine.failureInterval
  split
  · exact h
  · exact .ite (h.completeLaunch _) h
theorem MemoryWf.watchdogTick (lid : Word) : MemoryWf (Machine.watchdogTick m lid) := by
  unfold Machine.watchdogTick
  split
  · exact h
  · refine .ite h ?_
    exact .ite (h.failLaunch lid _ _ _) (h.modLaunch lid _)
theorem MemoryWf.watchStalls : MemoryWf (Machine.watchStalls m) := h

/-! Pre-emption. -/
theorem MemoryWf.setMgmt (off v : Nat) : MemoryWf (m.setMgmt off v) := h
theorem MemoryWf.reqDone (result : Nat) : MemoryWf (Machine.reqDone m result) := h.setMgmt _ _
theorem MemoryWf.onRequest (code : Nat) (v : Word) {f : Mach → Mach} (hf : MemoryWf (f m)) : MemoryWf (Machine.onRequest code v m f) := .ite hf h
theorem MemoryWf.preempt (lid : Word) : MemoryWf (Machine.preempt m lid) := by
  unfold Machine.preempt
  split
  · exact h.reqDone 2
  · next l _ =>
    split
    · exact h.reqDone 1
    · exact h.reqDone 0
    · exact .ite h (h.reqDone 0)
    · exact h
    · refine .ite (h.reqDone 1) ?_
      extract_lets marked
      have hmarked : MemoryWf marked := h.foldl _ fun _ cx hn => hn.modCtx cx _
      exact hmarked.modLaunch lid _
theorem MemoryWf.spillOne (l : Launch) (x : SendRec × Nat × Nat) : MemoryWf (Machine.spillOne l m x) := by
  unfold Machine.spillOne
  extract_lets k stored noted released
  have hnoted : MemoryWf noted := (h.devStore _ _ _).modCore k _
  clear_value noted
  have hreleased : MemoryWf released := by
    dsimp only [released]
    split
    · exact hnoted.removeOp _
    · exact hnoted
  exact hreleased.modLaunch l.lid _
theorem MemoryWf.enterHandler (cx : Nat) (entryPc : Word) (slots : BitVec 6) (pc : Word) (f : FaultRec) (kind : EntryKind) :
    MemoryWf (Machine.enterHandler m cx entryPc slots pc f kind) := h
theorem MemoryWf.saveCtx (lid pc : Word) (cx : Nat) : MemoryWf (Machine.saveCtx lid pc m cx) := by
  unfold Machine.saveCtx
  split
  · exact h
  · extract_lets written c evs cleared entered fired
    have hwritten : MemoryWf written := h.writeOut cx 1 true
    clear_value written
    have hentered : MemoryWf entered := (hwritten.modCtx cx _).enterHandler cx pc 0 _ _ _
    clear_value entered
    exact hentered.modLaunch lid _
theorem MemoryWf.declinePreempt (l : Launch) : MemoryWf (Machine.declinePreempt m l) := by
  have hcleared := h.foldl l.allCtxs fun n cx hn => MemoryWf.modCtx hn cx fun c => { c with events := c.events.filter (· != .preempt) }
  exact (hcleared.modLaunch l.lid _).reqDone 1
theorem MemoryWf.saveEntry (lid : Word) : MemoryWf (Machine.saveEntry m lid) := by
  unfold Machine.saveEntry
  split
  · exact h
  · next l _ =>
    refine .ite h ?_
    split
    · exact ((h.foldl _ fun _ x hn => hn.spillOne l x).foldl _ fun _ cx hn => hn.saveCtx lid _ cx).reqDone 0
    · exact h.declinePreempt l
theorem MemoryWf.swapOut (l : Launch) : MemoryWf (Machine.swapOut m l) := by
  unfold Machine.swapOut
  extract_lets cxs kept saved ended subs clear cleared left away
  have hcleared : MemoryWf cleared := h.of_eq rfl rfl rfl rfl
  have hleft : MemoryWf left := hcleared.foldl _ fun _ cx hn => hn.modCtx cx _
  exact hleft.modLaunch l.lid _
theorem MemoryWf.finishSwaps : MemoryWf (Machine.finishSwaps m) := h.foldl _ fun _ l hn => .ite (hn.swapOut l) hn

/-! Restore. -/
theorem MemoryWf.restore (lid : Word) : MemoryWf (Machine.restore m lid) := by
  unfold Machine.restore
  split
  · exact h.reqDone 2
  · split
    · exact h
    · exact (h.modLaunch lid _).reqDone 0
    · exact h.reqDone 1
theorem MemoryWf.restoreCtx (l : Launch) (pc : Word) (x : SavedCtx) : MemoryWf (Machine.restoreCtx l pc m x) := by
  unfold Machine.restoreCtx
  extract_lets cx bad resume given entered listed
  have hgiven : MemoryWf given := MemoryWf.modCtx (h.logDev _ _) cx _
  clear_value given
  have hentered : MemoryWf entered := hgiven.enterHandler cx pc 0 _ _ _
  clear_value entered
  have hlisted : MemoryWf listed := hentered.modCore x.core _
  exact hlisted.freshen.modLaunch l.lid _
theorem MemoryWf.restoreSeat (lid : Word) (core : Nat) : MemoryWf (Machine.restoreSeat m lid core) := by
  unfold Machine.restoreSeat
  split
  · exact h
  · next l _ =>
    extract_lets free
    split
    · extract_lets places here mine n
      refine .ite (h.wakeFor _) (.ite h ?_)
      split
      · exact h
      · next base _ =>
        extract_lets st' given trimmed listed subbed resumed
        have hgiven : MemoryWf given := h.freshen.giveSeat l st'
        clear_value given
        have hlisted : MemoryWf listed := MemoryWf.modCore (hgiven.modLaunch lid _) core _
        clear_value listed
        have hsubbed : MemoryWf subbed := hlisted.foldl _ fun _ x hk => hk.modCtx x.1 _
        clear_value subbed
        have hresumed : MemoryWf resumed := hsubbed.foldl _ fun _ x hk => hk.restoreCtx l _ x
        exact .ite (hresumed.residentSeat lid st') hresumed
    · exact h

/-! Cancellation, parked contexts, queues and caches. -/
theorem MemoryWf.cancel (lid : Word) : MemoryWf (Machine.cancel m lid) := by
  unfold Machine.cancel
  split
  · exact h.reqDone 2
  · exact (MemoryWf.ite h (h.failLaunch lid _ _ _)).reqDone 0
theorem MemoryWf.onParked (code cx : Nat) {f : Mach → Launch → Mach} (hf : ∀ l, MemoryWf (f m l)) : MemoryWf (Machine.onParked code cx m f) := by
  unfold Machine.onParked
  refine .ite h ?_
  split
  · exact .ite (hf _) (h.reqDone 2)
  · exact h.reqDone 2
theorem MemoryWf.parkedReplay (cx : Nat) : MemoryWf (Machine.parkedReplay m cx).1 := by
  unfold Machine.parkedReplay
  extract_lets c blk count
  split
  · exact h
  · obtain ⟨n, q⟩ := c.replay.getD (0, 0)
    dsimp only
    have hfrom := h.replayFrom cx blk count 113 n q
    generalize Machine.replayFrom cx blk count 113 m n q = r at hfrom ⊢
    obtain ⟨k, n', q'⟩ := r
    split
    · exact (hfrom.clearShadow cx blk).modCtx cx _
    · exact MemoryWf.modCtx hfrom cx _
theorem MemoryWf.resumeParked (cx : Nat) (l : Launch) : MemoryWf (Machine.resumeParked cx m l) := by
  unfold Machine.resumeParked
  extract_lets c
  split
  · refine MemoryWf.reqDone ?_ 2
    exact .ite h h
  · have hreplay := h.parkedReplay cx
    generalize Machine.parkedReplay m cx = r at hreplay ⊢
    obtain ⟨k, done⟩ := r
    exact .ite hreplay (MemoryWf.reqDone (MemoryWf.modCtx hreplay cx _) 0)
theorem MemoryWf.failParked (cx : Nat) (l : Launch) : MemoryWf (Machine.failParked cx m l) :=
  ((h.failLaunch l.lid _ _ _).releaseCtx cx false).reqDone 0
theorem MemoryWf.clearFrozen (q : Word) : MemoryWf (Machine.clearFrozen q m) := by
  unfold Machine.clearFrozen
  refine .ite (h.reqDone 2) ?_
  extract_lets n cleared mapped
  have hcleared : MemoryWf cleared := (h.qSetFlag n 2 false).qPut n 40 8 _
  exact (MemoryWf.ite (hcleared.qSetFlag n 1 true) hcleared).reqDone 0
theorem MemoryWf.dropCode : MemoryWf (Machine.dropCode m) := h.of_eq rfl rfl rfl rfl
theorem MemoryWf.dropTlbs : MemoryWf (Machine.dropTlbs m) := h.of_eq rfl rfl rfl rfl
end

end Sys2Proof.Safety
end

section
/-! SUPPORT. The canonical form through the links, the messages of other devices, the token and stealing (14 R261). -/
namespace Sys2Proof.Safety
open Sys2Proof.Machine Sys2Proof.Proofs

section
variable {m : Mach} (h : MemoryWf m)
include h

/-! Ports and routes. -/
theorem MemoryWf.setPort (p : PortId) (x : Port) : MemoryWf (m.setPort p x) := h
theorem MemoryWf.putFlits (p : PortId) (fs : List (List Byte)) : MemoryWf (m.putFlits p fs) := h
theorem MemoryWf.postNotice (kind : Nat) (cause : BitVec 8) (cx : Nat) (lid addr info : Word) :
    MemoryWf (m.postNotice kind cause cx lid addr info) := h
theorem MemoryWf.pullLost (x : Msg) : MemoryWf (Machine.pullLost m x) := by
  unfold Machine.pullLost
  split
  · dsimp only
    split
    · exact h
    · exact h.modCore _ _
  · exact h
theorem MemoryWf.loseMsg (x : Msg) : MemoryWf (Machine.loseMsg m x) := by
  unfold Machine.loseMsg
  split
  · exact h
  · extract_lets noted
    have hnoted : MemoryWf noted := (h.pullLost x).postNotice _ _ _ _ _ _
    refine hnoted.foldl _ fun n r hn => ?_
    split
    · exact .ite hn (hn.failLaunch _ _ _ _)
    · exact hn
theorem MemoryWf.flushOut : MemoryWf (Machine.flushOut m) := by
  unfold Machine.flushOut
  extract_lets r
  have hr : MemoryWf r.1 := by
    refine foldl_keeps (fun a : Mach × List Msg × List Nat => MemoryWf a.1) _ (fun a x ha => ?_) _ _ h
    obtain ⟨n, kept, held⟩ := a
    dsimp only
    split
    · exact MemoryWf.loseMsg ha x
    · split
      · exact MemoryWf.loseMsg ha x
      · split
        · exact ha
        · exact (MemoryWf.setPort ha _ _).putFlits _ _
  exact hr
theorem MemoryWf.dropPort (p : PortId) (phase : PortPhase) : MemoryWf (Machine.dropPort m p phase) := h
theorem MemoryWf.latchNumber : MemoryWf m.latchNumber := h
theorem MemoryWf.logLink (p : PortId) : MemoryWf (Machine.logLink m p) := h

/-! Training and acknowledgement. -/
theorem MemoryWf.laneLock (p : PortId) : MemoryWf (Machine.laneLock m p) := MemoryWf.ite h (h.latchNumber.setPort p _)
theorem MemoryWf.offerTimer (p : PortId) : MemoryWf (Machine.offerTimer m p) := by
  unfold Machine.offerTimer
  exact .ite ((h.putFlits p _).setPort p _) (.ite (h.putFlits p _) h)
theorem MemoryWf.takeOffer (p : PortId) (o : Training) : MemoryWf (Machine.takeOffer m p o) := by
  unfold Machine.takeOffer
  extract_lets q dropped q' v
  have hdropped : MemoryWf dropped := .ite (h.dropPort p _).latchNumber h
  exact .ite h (.ite ((hdropped.setPort p _).logLink p) (hdropped.setPort p _))
theorem MemoryWf.takeAccept (p : PortId) (o : Training) : MemoryWf (Machine.takeAccept m p o) := MemoryWf.ite (h.setPort p _) h
theorem MemoryWf.retrain : MemoryWf (Machine.retrain m) := h.latchNumber.foldl _ fun _ p hn => .ite hn (hn.dropPort p _)
theorem MemoryWf.setRoute (dst port : Word) : MemoryWf (Machine.setRoute m dst port) := MemoryWf.ite (h.reqDone 2) h
theorem MemoryWf.lineIdle (p : PortId) : MemoryWf (Machine.lineIdle m p) := MemoryWf.ite (h.putFlits p _) h
theorem MemoryWf.replayTimeout (p : PortId) : MemoryWf (Machine.replayTimeout m p) := by
  unfold Machine.replayTimeout
  exact .ite h (.ite ((h.setPort p _).putFlits p _) ((h.dropPort p _).logLink p))

/-! Accesses of other agents. -/
theorem MemoryWf.logOuter (f : Option FaultRec) : MemoryWf (Machine.logOuter m f) := by cases f <;> exact h
theorem MemoryWf.outerL2 (va n : Nat) (write : Bool) : MemoryWf (Machine.outerL2 m va n write) := h.l2 (.outerL2 m va n write)
theorem MemoryWf.memRead (va n : Nat) : MemoryWf (Machine.memRead m va n).1 := by
  unfold Machine.memRead
  dsimp only
  split
  · exact h.outerL2 va n false
  · exact h.logOuter _
theorem MemoryWf.memWrite (va : Nat) (mask : Word) (bs : List Byte) : MemoryWf (Machine.memWrite m va mask bs).1 := by
  unfold Machine.memWrite
  dsimp only
  split
  · exact h.logOuter _
  · exact (h.outerL2 va bs.length true).foldl _ fun _ x hn => hn.devWrite _ _
theorem MemoryWf.memAtomic (op : BitVec 8) (va : Nat) (x swap : Word) : MemoryWf (Machine.memAtomic m op va x swap).1 := by
  unfold Machine.memAtomic
  extract_lets n old
  split
  · exact h.logOuter _
  · dsimp only
    split
    · exact h.logOuter _
    · split
      · exact h.logOuter _
      · exact (h.outerL2 va n true).devWrite va _
theorem MemoryWf.writePower (v : Word) : MemoryWf (Machine.writePower m v) := h
theorem MemoryWf.writeRequest (v : Word) : MemoryWf (Machine.writeRequest m v) := by
  unfold Machine.writeRequest
  exact .ite h (.ite ((h.setMgmt _ _).reqDone 2) ((h.setMgmt _ _).setMgmt _ _))
theorem MemoryWf.mgmtWrite (off : Nat) (v : Word) : MemoryWf (Machine.mgmtWrite m off v) := by
  unfold Machine.mgmtWrite
  refine .ite (h.writePower v) (.ite (h.writeRequest v) ?_)
  split
  · exact h.setMgmt _ _
  · exact h
theorem MemoryWf.spaceRead (space : BitVec 8) (size addr : Nat) : MemoryWf (Machine.spaceRead m space size addr).1 := by
  unfold Machine.spaceRead
  extract_lets no
  have hno : MemoryWf no.1 := h.logOuter _
  clear_value no
  split
  · exact hno
  · split
    · exact h.memRead addr size
    · split
      · split
        · exact h
        · exact hno
      · exact hno
    · split
      · split
        · exact h
        · exact hno
      · exact hno
    · exact hno
theorem MemoryWf.spaceWrite (space : BitVec 8) (size addr : Nat) (mask : Word) (data : List Byte) :
    MemoryWf (Machine.spaceWrite m space size addr mask data).1 := by
  unfold Machine.spaceWrite
  extract_lets no
  have hno : MemoryWf no.1 := h.logOuter _
  clear_value no
  split
  · exact hno
  · split
    · exact h.memWrite addr mask data
    · split
      · exact h.mgmtWrite addr _
      · exact hno
    · split
      · exact h.notifyWrite _ _ _
      · exact hno
    · exact hno
theorem MemoryWf.reply (hd : MsgHdr) (x : Msg) : MemoryWf (m.reply hd x) := MemoryWf.ite h h
theorem MemoryWf.hostAnswer (hd : MsgHdr) (st : Nat) (data : List Byte) : MemoryWf (Machine.hostAnswer m hd st data) := MemoryWf.ite h h
theorem MemoryWf.sendNotice (n : Nat) : MemoryWf (Machine.sendNotice m n) := by
  unfold Machine.sendNotice
  split
  · refine MemoryWf.post ?_ _ _
    exact h.of_eq rfl rfl rfl rfl
  · exact h
theorem MemoryWf.takeNotice (n : Notice) : MemoryWf (Machine.takeNotice m n) := by
  unfold Machine.takeNotice
  refine .ite (MemoryWf.raiseVector ?_ _) h
  exact h.of_eq rfl rfl rfl rfl

/-! The token and stealing. -/
theorem MemoryWf.takeRecord {n : Mach} {tag : BitVec 32} {r : List Byte} (he : Machine.takeRecord m tag = some (n, r)) : MemoryWf n := by
  unfold Machine.takeRecord at he
  split at he
  · next l _ =>
    obtain ⟨t, _, ht⟩ := Option.map_eq_some_iff.1 he
    cases ht
    exact h.modLaunch l.lid _
  · obtain ⟨⟨q, i, l⟩, _, hq⟩ := Option.map_eq_some_iff.1 he
    cases hq
    exact MemoryWf.modLaunch (MemoryWf.modDie ((h.consumeHead q).raiseHorizon q) _ _) l.lid _
omit h in
theorem MemoryWf.takeRecords (tag : BitVec 32) (n : Nat) {m : Mach} (h : MemoryWf m) : MemoryWf (Machine.takeRecords tag n m).1 := by
  induction n generalizing m with
  | zero => exact h
  | succ n ih =>
    unfold Machine.takeRecords
    split
    · exact h
    · next hr => exact ih (h.takeRecord hr)
theorem MemoryWf.grant (r : StealReq) : MemoryWf (Machine.grant m r) := (h.takeRecords _ _).post _ _
theorem MemoryWf.actOnToken (t : LoadToken) : MemoryWf (Machine.actOnToken m t) := by
  unfold Machine.actOnToken
  extract_lets me kept
  have hgrants : MemoryWf (kept.reqs.foldl (fun (a : Mach × List StealReq) r =>
      if 0 < excess a.1 r.jobTag && v2Route a.1 r.thief.toNat then (Machine.grant a.1 r, a.2) else (a.1, a.2 ++ [r])) (m, [])).1 := by
    refine foldl_keeps (fun a : Mach × List StealReq => MemoryWf a.1) _ (fun a x ha => ?_) _ _ h
    split
    · exact MemoryWf.grant ha x
    · exact ha
  generalize List.foldl _ (m, []) kept.reqs = a at hgrants ⊢
  obtain ⟨n, reqs⟩ := a
  dsimp only at hgrants ⊢
  generalize hb : List.foldl _ (n, reqs) (podTags n) = b
  have hasks : MemoryWf b.1 := by
    rw [← hb]
    refine foldl_keeps (fun a : Mach × List StealReq => MemoryWf a.1) _ (fun a x ha => ?_) _ _ hgrants
    split
    · exact ha
    · exact MemoryWf.foldl (MemoryWf.freshen (MemoryWf.freshen ha)) _ fun _ o hk => hk.post _ _
  exact hasks
theorem MemoryWf.forwardToken : MemoryWf (Machine.forwardToken m) := by
  unfold Machine.forwardToken
  split
  · exact h
  · refine MemoryWf.post ?_ _ _
    exact h.of_eq rfl rfl rfl rfl
theorem MemoryWf.newToken : MemoryWf (Machine.newToken m) := MemoryWf.ite h h
theorem MemoryWf.takeStolen (victim : BitVec 10) (tag : BitVec 32) (r : List Byte) : MemoryWf (Machine.takeStolen victim tag m r) := by
  unfold Machine.takeStolen
  split
  · exact h.modLaunch _ _
  · exact h.post _ _
theorem MemoryWf.takeGrant (victim : BitVec 10) (tag : BitVec 32) (rs : List (List Byte)) : MemoryWf (Machine.takeGrant m victim tag rs) :=
  h.foldl rs fun _ r hn => hn.takeStolen victim tag r
theorem MemoryWf.takeBack (r : List Byte) : MemoryWf (Machine.takeBack m r) := by
  unfold Machine.takeBack
  split
  · exact .ite (h.returnWeight _ _) (h.modLaunch _ _)
  · exact h.returnWeight _ _
end

end Sys2Proof.Safety
end

section
/-! SUPPORT. The canonical form through firmware, the host's accesses, power and resets (14 R261). -/
namespace Sys2Proof.Safety
open Sys2Proof.Machine Sys2Proof.Proofs

section
variable {m : Mach} (h : MemoryWf m)
include h

/-! Firmware and attestation. -/
theorem MemoryWf.eachDie (f : Die → Die) : MemoryWf (Machine.eachDie m f) := h.foldl _ fun _ d hn => hn.modDie d f
theorem MemoryWf.bootDie (d : Nat) : MemoryWf (Machine.bootDie m d) := MemoryWf.ite h (h.modDie d _)
theorem MemoryWf.attest (nonce : List Byte) : MemoryWf (Machine.attest m nonce) := MemoryWf.ite h (.ite h (h.complete _ _ _))
theorem MemoryWf.loadFirmware (addr bytes : Word) : MemoryWf (Machine.loadFirmware m addr bytes) := by
  unfold Machine.loadFirmware
  extract_lets bad bs st loaded
  have hloaded : MemoryWf loaded := by
    dsimp only [loaded]
    split
    · exact (h.logDev 0 bad).reqDone 2
    · exact .ite ((h.eachDie _).reqDone 0) ((h.eachDie _).reqDone 1)
  clear_value loaded
  refine MemoryWf.foldl ?_ _ fun _ n hn => hn.complete _ _ _
  exact hloaded.of_eq rfl rfl rfl rfl
theorem MemoryWf.discover (index : Nat) : MemoryWf (Machine.discover m index) := MemoryWf.ite h (h.complete _ _ _)
theorem MemoryWf.clearCounters : MemoryWf (Machine.clearCounters m) := by
  refine MemoryWf.eachDie ?_ _
  exact h.of_eq rfl rfl rfl rfl

/-! Power. -/
theorem MemoryWf.governor (avg : Nat) : MemoryWf (Machine.governor m avg) := by
  unfold Machine.governor
  refine .ite h (MemoryWf.setMgmt ?_ _ _)
  exact h.of_eq rfl rfl rfl rfl
theorem MemoryWf.gateCore (core : Nat) : MemoryWf (Machine.gateCore m core) := MemoryWf.ite (h.modCore core _) h
theorem MemoryWf.wakeCore (core : Nat) : MemoryWf (Machine.wakeCore m core) := MemoryWf.ite (h.modCore core _) h

/-! The host bridge. -/
theorem MemoryWf.hostAccess (dev : Nat) (op : HostOp) (space : BitVec 8) (size addr : Nat) (data : List Byte) :
    MemoryWf (Machine.hostAccess m dev op space size addr data) := by
  unfold Machine.hostAccess
  split
  · cases op with
    | read => exact (h.spaceRead space size addr).complete _ _ _
    | write => exact (h.spaceWrite space size addr _ data).complete _ _ _
    | atomic o => exact (h.memAtomic o addr _ _).complete _ _ _
  · exact h.of_eq rfl rfl rfl rfl
theorem MemoryWf.bar0 (write : Bool) (off size : Nat) (v : Word) : MemoryWf (Machine.bar0 m write off size v) := by
  unfold Machine.bar0
  refine .ite h (.ite (h.unsupported off) ?_)
  split
  · exact h.unsupported off
  · exact .ite (h.hostAccess _ _ _ _ _ _) (.ite (h.unsupported off) (.ite (h.unsupported off) (h.hostAccess _ _ _ _ _ _)))
theorem MemoryWf.bar2 (op : HostOp) (off size : Nat) (data : List Byte) : MemoryWf (Machine.bar2 m op off size data) := by
  unfold Machine.bar2
  refine .ite h (.ite (h.unsupported off) ?_)
  split
  · exact h.unsupported off
  · exact h.hostAccess _ _ _ _ _ _

/-! Errors and resets. -/
theorem MemoryWf.softError (site : ErrSite) (correctable : Bool) : MemoryWf (Machine.softError m site correctable) := by
  unfold Machine.softError
  split
  · exact h.of_eq rfl rfl rfl rfl
  · cases site with
    | icache core va => exact h.modCore core _
    | l1 core line => exact h.modCore core _
    | tile cx t i sc => exact h.of_eq rfl rfl rfl rfl
    | _ => exact h.of_eq rfl rfl rfl rfl
theorem MemoryWf.coreReset (core : Nat) (leave : Bool) : MemoryWf (Machine.coreReset m core leave) := by
  unfold Machine.coreReset
  refine .ite (h.modCore core _) (.ite h ?_)
  extract_lets seats zeroed left
  have hzeroed : MemoryWf zeroed := (h.foldl seats fun _ st hn => hn.dropSeat st).foldl _ fun _ st hn => hn.zeroRegion core st.base st.size
  have hleft : MemoryWf left := hzeroed.foldl seats fun _ st hn => hn.foldl st.ctxs fun _ cx hk => hk.setCtx cx {}
  exact hleft.of_eq rfl rfl rfl rfl
end

end Sys2Proof.Safety
end

section
/-! SUPPORT. Issuing a bundle keeps the canonical form: what a slot may do, and how a bundle ends (14 R261). -/
namespace Sys2Proof.Claims
open Sys2Proof.Machine Sys2Proof.Safety Sys2Proof.Proofs
open Host (Outcome)

/-- A move goes on in a canonical state, or does not go on. -/
def Kept : Outcome State Fault Refusal → Prop
  | .next t => Canonical t
  | _ => True

section
variable {s : State} (h : Canonical s)
include h

/-! The parts of the state that a slot changes. -/
theorem Canonical.pre : MemoryWf (Machine.pre s) := by
  obtain ⟨hm, hold⟩ := h
  unfold Machine.pre
  cases ho : s.issue.old with
  | none => exact hm
  | some m => exact hold m ho
theorem Canonical.mach {m : Mach} (hm : MemoryWf m) : Canonical { s with m := m } := ⟨hm, h.2⟩
omit h in
theorem Canonical.ended (s : State) {m : Mach} (hm : MemoryWf m) : Canonical { s with m := m, issue := {} } := ⟨hm, nofun⟩
omit h in
theorem Canonical.ite {p : Prop} [Decidable p] {a b : State} (ha : Canonical a) (hb : Canonical b) : Canonical (if p then a else b) := by
  split
  · exact ha
  · exact hb
theorem Canonical.onMach {f : Mach → Mach} (hf : MemoryWf (f s.m)) : Canonical (Machine.onMach f s) := h.mach hf
theorem Canonical.onCtx (f : Ctx → Ctx) : Canonical (Machine.onCtx f s) := h
theorem Canonical.faultAt (k : Slot) (f : FaultRec) : Canonical (Machine.faultAt k f s) := h
theorem Canonical.stallOn (st : Stall) : Canonical (Machine.stallOn st s) := h
theorem Canonical.askFor (a : Ask) : Canonical (Machine.askFor a s) := h
theorem Canonical.pushAccess (a : Access) : Canonical (Machine.pushAccess a s) := h
theorem Canonical.setQw (w : Word) : Canonical (Machine.setQw w s) := h
theorem Canonical.moveWeight : Canonical (Machine.moveWeight s) := h.onMach (h.1.touch _)
theorem Canonical.giveBack (w : Word) : Canonical (Machine.giveBack w s) := h.onMach (h.1.returnWeight _ w)

/-! Registers. -/
theorem Canonical.reads (l : List RegRef) : Canonical (Machine.reads l s) := Canonical.ite (h.stallOn _) h
theorem Canonical.writesFrozen (r : RegRef) : Canonical (Machine.writesFrozen r s) := by
  unfold Machine.writesFrozen
  split
  · exact h
  · exact h.reads _
theorem Canonical.writesPending (r : RegRef) : Canonical (Machine.writesPending r s) := by
  unfold Machine.writesPending
  split
  · exact h
  · exact .ite (h.stallOn _) h
theorem Canonical.frozenTo (r : RegRef) (lat : Nat) (v : Word) : Canonical (Machine.frozenTo r lat v s) := by
  unfold Machine.frozenTo
  split
  · exact h
  · exact (h.writesFrozen _).onCtx _
theorem Canonical.wrS (r : SReg) (lat : Nat) (v : Word) : Canonical (Machine.wrS r lat v s) := h.frozenTo _ _ _
theorem Canonical.wrP (r : PReg) (lat : Nat) (v : Bool) : Canonical (Machine.wrP r lat v s) := h.frozenTo _ _ _
theorem Canonical.pendOn (r : RegRef) : Canonical (Machine.pendOn r s) := by
  unfold Machine.pendOn
  split
  · exact h
  · exact (h.writesPending _).onCtx _
theorem Canonical.giveTo (r : RegRef) (v : Word) : Canonical (Machine.giveTo r v s) := (h.pendOn r).pushAccess _

/-! What a slot runs under a condition. -/
theorem Canonical.whenFree {f : State → State} (hf : ∀ t, Canonical t → Canonical (f t)) : Canonical (Machine.whenFree f s) :=
  Canonical.ite h (hf s h)
theorem Canonical.afterAccesses {f : State → State} (hf : ∀ t, Canonical t → Canonical (f t)) : Canonical (Machine.afterAccesses f s) := by
  have hwaits : Canonical (if (preCtx s).busyOut then Machine.stallOn .internal s else s) := .ite (h.stallOn _) h
  exact hwaits.whenFree hf
theorem Canonical.afterFences {f : State → State} (hf : ∀ t, Canonical t → Canonical (f t)) : Canonical (Machine.afterFences f s) := by
  have hwaits : Canonical (if (preCtx s).out.any (·.blocksLater) then Machine.stallOn .internal s else s) := .ite (h.stallOn _) h
  exact hwaits.whenFree hf
theorem Canonical.handlerOnly {f : State → State} (hf : ∀ t, Canonical t → Canonical (f t)) : Canonical (Machine.handlerOnly f s) :=
  Canonical.ite (hf s h) (h.faultAt _ _)
theorem Canonical.splitQw (k : Slot) {f : Word → Word → State → State} (hf : ∀ keep give t, Canonical t → Canonical (f keep give t)) :
    Canonical (Machine.splitQw k f s) := by
  unfold Machine.splitQw
  split
  · exact h.faultAt _ _
  · exact hf _ _ _ h.moveWeight
theorem Canonical.withRes (k : Slot) (r : Res) (write : Bool) {f : List Loc → State → State} {onNotify : Nat → Nat → State → State}
    (hf : ∀ l t, Canonical t → Canonical (f l t)) (hn : ∀ d o t, Canonical t → Canonical (onNotify d o t)) :
    Canonical (Machine.withRes k r write f onNotify s) := by
  cases r with
  | locs l => exact hf l s h
  | notifyReg d o => exact hn d o s h
  | fault x => exact h.faultAt k x
  | miss va => exact (h.stallOn _).askFor _
  | wait => exact h.stallOn _
theorem Canonical.withTypeConst (k : Slot) (i : Nat) {f : TypeWord → State → State} (hf : ∀ w t, Canonical t → Canonical (f w t)) :
    Canonical (Machine.withTypeConst k i f s) := by
  unfold Machine.withTypeConst
  split
  · exact hf _ _ h
  · exact h.faultAt _ _
  · exact (h.stallOn _).askFor _
theorem Canonical.branchTo (a : Word) (rep : Bool) : Canonical (Machine.branchTo a rep s) := by
  unfold Machine.branchTo
  split
  · exact h.faultAt _ _
  · exact h
theorem Canonical.tileCheck (t : TReg) (pos : Nat) : Canonical (Machine.tileCheck t pos s) := Canonical.ite h (h.faultAt _ _)
theorem Canonical.installWord (t : TReg) (w : TypeWord) : Canonical (Machine.installWord t w s) := by
  unfold Machine.installWord
  split
  · split
    · exact h.faultAt _ _
    · exact h.onCtx _
  · exact h.tileCheck t 0
theorem Canonical.tretSlot (skip : Bool) : Canonical (Machine.tretSlot skip s) := by
  unfold Machine.tretSlot
  extract_lets cx busy t a
  have ht : Canonical t := .ite (h.stallOn _) h
  clear_value t
  split
  · exact ht.faultAt _ _
  · exact ht
theorem Canonical.engineIssue (k : Slot) (q : QKind) (word : BitVec 64) (regs : List RegRef) (only : Bool) (plan : State → Except FaultRec Plan) :
    Canonical (Machine.engineIssue k q word regs only plan s) := by
  unfold Machine.engineIssue
  extract_lets c read full done
  obtain ⟨kd, kws⟩ := slotTokens q word
  dsimp -zeta only
  extract_lets t room
  have ht : Canonical t := .ite ((h.reads regs).stallOn _) (h.reads regs)
  have hfull {u : State} (hu : Canonical u) : Canonical (full u) := (hu.stallOn _).askFor _
  have hdone (p : Plan) {u : State} (hu : Canonical u) : Canonical (done p u) := hu
  clear_value t full done
  refine .ite (.ite ht (hfull ht)) (.ite (hfull ht) ?_)
  split
  · exact ht.faultAt _ _
  · next p _ =>
    split
    · exact .ite (ht.stallOn _) (hdone p (ht.onCtx _))
    · refine .ite (hfull ht) ?_
      extract_lets delivered weighed o
      have hdelivered : Canonical delivered := ht.onCtx _
      have hweighed : Canonical weighed := by
        dsimp only [weighed]
        split
        · exact (hdelivered.onCtx _).moveWeight
        · exact hdelivered
      clear_value weighed
      refine hdone p (Canonical.onMach (hweighed.onCtx _) ?_)
      exact hweighed.1

/-! How a bundle ends. -/
theorem Canonical.commit (binds : List Binding) : Canonical (Machine.commit s binds) := by
  unfold Machine.commit
  extract_lets cx len stepped active yielded given
  have hactive : MemoryWf active := by
    dsimp only [active]
    split
    · exact MemoryWf.modLaunch (h.1.modCtx cx _) _ _
    · exact h.1.modCtx cx _
  clear_value active
  have hgiven : MemoryWf given := (hactive.modCore _ _).foldl _ fun _ x hn => .ite hn (hn.modCtx cx _)
  clear_value given
  exact .ended s (.ite (hgiven.doTret cx _) hgiven)
theorem Canonical.finish : Canonical (Machine.finish s) := by
  have hold := h.pre
  unfold Machine.finish
  extract_lets old cx asked binds fs
  split
  · exact .ended s ((hold.applyAsks cx _).modCtx cx _)
  · split
    · exact .ended s (((hold.logFault cx _).takeFault cx _ _).modCore _ _)
    · exact .ite (.ended s (hold.modCtx cx _)) (.ite (h.commit binds) (.ended s ((hold.applyAsks cx _).modCtx cx _)))
theorem Canonical.newLatch (k : Slot) (i : Instr) : Canonical (Machine.newLatch k i s) := by
  unfold Machine.newLatch
  refine .ite h ?_
  split
  · exact h
  · exact h
theorem Canonical.runSlot (k : Slot) (i : Instr) {f : State → State} (hf : ∀ t, Canonical t → Canonical (f t)) : Kept (Machine.runSlot k i f s) := by
  unfold Machine.runSlot
  extract_lets issue begun ran
  have hbegun : Canonical begun := ⟨h.1, fun m hm => Option.some.inj hm ▸ h.pre⟩
  clear_value begun
  have hran : Canonical ran := (Canonical.ite hbegun (hf _ hbegun)).newLatch k i
  exact Canonical.ite hran.finish hran
theorem Canonical.runX (i : Instr) {f : State → State} (hf : ∀ t, Canonical t → Canonical (f t)) : Kept (Machine.runX i f s) := h.runSlot .x i hf
theorem Canonical.runG (i : Instr) {f : State → State} (hf : ∀ t, Canonical t → Canonical (f t)) : Kept (Machine.runG i f s) := h.runSlot .g i hf
end

end Sys2Proof.Claims
end

section
/-! SUPPORT. Every slot instruction keeps the canonical form (14 R261). -/
namespace Sys2Proof.Claims
open Sys2Proof.Machine Sys2Proof.Safety Sys2Proof.Proofs
open Host (Outcome)

section
variable {s : State} (h : Canonical s)
include h

/-! The X slot: operations, branches and waits. -/
theorem Canonical.alu2 (i : Instr) (lat : Nat) (sd sa sb : SReg) (f : Word → Word → Word) : Kept (Machine.alu2 i lat sd sa sb f s) :=
  h.runX i fun _ ht => (ht.reads _).wrS _ _ _
theorem Canonical.alu1 (i : Instr) (lat : Nat) (sd sa : SReg) (f : Word → Word) : Kept (Machine.alu1 i lat sd sa f s) :=
  h.runX i fun _ ht => (ht.reads _).wrS _ _ _
theorem Canonical.cmp2 (i : Instr) (lat : Nat) (pd : PReg) (sa sb : SReg) (f : Word → Word → Bool) : Kept (Machine.cmp2 i lat pd sa sb f s) :=
  h.runX i fun _ ht => (ht.reads _).wrP _ _ _
theorem Canonical.cmp1 (i : Instr) (pd : PReg) (sa : SReg) (f : Word → Bool) : Kept (Machine.cmp1 i pd sa f s) :=
  h.runX i fun _ ht => (ht.reads _).wrP _ _ _
theorem Canonical.pred2 (i : Instr) (pd pa pb : PReg) (f : Bool → Bool → Bool) : Kept (Machine.pred2 i pd pa pb f s) :=
  h.runX i fun _ ht => (ht.reads _).wrP _ _ _
theorem Canonical.pred1 (i : Instr) (pd pa : PReg) (f : Bool → Bool) : Kept (Machine.pred1 i pd pa f s) :=
  h.runX i fun _ ht => (ht.reads _).wrP _ _ _
theorem Canonical.execSel (sd : SReg) (p : PReg) (sa sb : SReg) : Kept (Machine.execSel sd p sa sb s) := h.runX _ fun _ ht => (ht.reads _).wrS _ _ _
theorem Canonical.execLi (sd : SReg) (imm : BitVec 18) : Kept (Machine.execLi sd imm s) := h.runX _ fun _ ht => ht.wrS _ _ _
theorem Canonical.execBr (d : BitVec 20) : Kept (Machine.execBr d s) := h.runX _ fun _ ht => ht.branchTo _ _
theorem Canonical.execBrc (p : PReg) (sense : Bool) (d : BitVec 20) : Kept (Machine.execBrc p sense d s) :=
  h.runX _ fun _ ht => .ite ((ht.reads _).branchTo _ _) (ht.reads _)
theorem Canonical.execBdnz (sd : SReg) (imm : BitVec 12) : Kept (Machine.execBdnz sd imm s) :=
  h.runX _ fun _ ht => .ite (((ht.reads _).wrS _ _ _).branchTo _ _) ((ht.reads _).wrS _ _ _)
theorem Canonical.execCall (d : BitVec 20) : Kept (Machine.execCall d s) := h.runX _ fun _ ht => (ht.wrS _ _ _).branchTo _ _
theorem Canonical.execRet (sa : SReg) : Kept (Machine.execRet sa s) := h.runX _ fun _ ht => (ht.reads _).branchTo _ _
theorem Canonical.execJmpr (sd sa : SReg) : Kept (Machine.execJmpr sd sa s) := h.runX _ fun _ ht => ((ht.reads _).wrS _ _ _).branchTo _ _
theorem Canonical.execEnd : Kept (Machine.execEnd s) := h.runX _ fun _ ht => ht
theorem Canonical.execTrap (imm : BitVec 18) : Kept (Machine.execTrap imm s) := h.runX _ fun _ ht => ht.faultAt _ _
theorem Canonical.execBkpt (imm : BitVec 18) : Kept (Machine.execBkpt imm s) := h.runX _ fun _ ht => ht.faultAt _ _
theorem Canonical.execWaitk (ka kb kc : Tok) : Kept (Machine.execWaitk ka kb kc s) := h.runX _ fun _ ht => .ite (ht.stallOn _) ht
theorem Canonical.execIdleF (sa : SReg) : Kept (Machine.execIdleF sa s) := by
  refine h.runX _ fun t ht => (ht.reads _).whenFree fun u hu => .ite hu (hu.withRes _ _ _ (fun l v hv => ?_) fun _ _ _ hv => hv)
  split
  · exact .ite (hv.faultAt _ _) (.ite (hv.stallOn _) (.ite hv (hv.askFor _)))
  · exact hv
theorem Canonical.execIdleN (sa sb : SReg) : Kept (Machine.execIdleN sa sb s) := by
  refine h.runX _ fun t ht => (ht.reads _).whenFree fun u hu => .ite hu (.ite (hu.askFor _) ?_)
  split
  · exact hu.faultAt _ _
  · exact .ite hu (hu.askFor _)

/-! The X slot: types and bobbins. -/
theorem Canonical.execTdecl (t : TReg) (idx : BitVec 18) : Kept (Machine.execTdecl t idx s) :=
  h.runX _ fun _ hu => hu.withTypeConst _ _ fun w _ hv => hv.installWord t w
theorem Canonical.execTdecls (t : TReg) (sa sb : SReg) : Kept (Machine.execTdecls t sa sb s) := h.runX _ fun _ hu => (hu.reads _).installWord t _
theorem Canonical.execTclear (t : TReg) : Kept (Machine.execTclear t s) := h.runX _ fun _ hu => hu.installWord t 0
theorem Canonical.execTget (sd : SReg) (t : TReg) (high resolve : Bool) : Kept (Machine.execTget sd t high resolve s) :=
  h.runX _ fun _ hu => (hu.tileCheck t 1).wrS _ _ _
theorem Canonical.execBind (b : BReg) (sa : SReg) : Kept (Machine.execBind b sa s) :=
  h.runX _ fun _ ht => .ite ((ht.reads _).faultAt _ _) (.ite ((ht.reads _).faultAt _ _) (ht.reads _))
theorem Canonical.execUnbind (mask : BitVec 16) : Kept (Machine.execUnbind mask s) := h.runX _ fun _ ht => ht.onCtx _
theorem Canonical.execBget (sd : SReg) (b : BReg) : Kept (Machine.execBget sd b s) := by
  refine h.runX _ fun t ht => ?_
  split
  · exact ht
  · exact ht.writesFrozen _
theorem Canonical.execTchk (pd : PReg) (t : TReg) (sb : SReg) (mask : BitVec 4) (assert : Bool) : Kept (Machine.execTchk pd t sb mask assert s) := by
  refine h.runX _ fun u hu => ((hu.reads _).tileCheck t 1).whenFree fun v hv => hv.withTypeConst _ _ fun x w hw => ?_
  split
  · refine Canonical.wrP ?_ _ _ _
    exact hw
  · exact hw.wrP _ _ _
  · exact (hw.wrP _ _ _).faultAt _ _
  · exact hw.wrP _ _ _
theorem Canonical.execText (sd : SReg) (t : TReg) (k : BitVec 2) (frame : Bool) : Kept (Machine.execText sd t k frame s) :=
  h.runX _ fun _ hu => (hu.tileCheck t 1).wrS _ _ _

/-! The X slot: system registers and handler mode. -/
theorem Canonical.execSysr (sd : SReg) (sel : BitVec 18) : Kept (Machine.execSysr sd sel s) := h.runX _ fun _ ht => ht.giveTo _ _
omit h in
theorem memoryWf_sysWrite {m : Mach} (hm : MemoryWf m) (cx : Nat) (sel : BitVec 18) (v : Word) : MemoryWf (sysWrite m cx sel v) := by
  unfold sysWrite
  split
  case h_10 =>
    split
    · exact hm.modLaunch _ _
    · exact hm
  all_goals exact hm
theorem Canonical.execSysw (sd : SReg) (sel : BitVec 18) : Kept (Machine.execSysw sd sel s) :=
  h.runX _ fun _ ht => ht.handlerOnly fun _ hu => (hu.reads _).onMach (memoryWf_sysWrite (hu.reads _).1 _ _ _)
theorem Canonical.execTret : Kept (Machine.execTret s) := h.runX _ fun _ ht => ht.handlerOnly fun _ hu => hu.tretSlot false
theorem Canonical.execTretSkip : Kept (Machine.execTretSkip s) := h.runX _ fun _ ht => ht.handlerOnly fun _ hu => hu.tretSlot true
theorem Canonical.execCtxr (sd sa : SReg) : Kept (Machine.execCtxr sd sa s) :=
  h.runX _ fun _ ht => ht.handlerOnly fun _ hu => (hu.reads _).giveTo _ _
theorem Canonical.execCtxw (sa sb : SReg) : Kept (Machine.execCtxw sa sb s) := by
  refine h.runX _ fun t ht => ht.handlerOnly fun u hu => ?_
  extract_lets it read busy waited
  have hread : Canonical read := hu.reads _
  have hwaited : Canonical waited := .ite (hread.stallOn _) hread
  clear_value waited it
  split
  · exact .ite hwaited hwaited
  · exact hwaited.onCtx _
  · exact hwaited
theorem Canonical.execEqreplay (sd sa : SReg) : Kept (Machine.execEqreplay sd sa s) := by
  refine h.runX _ fun t ht => ht.handlerOnly fun u hu => ?_
  extract_lets blk v
  have hv : Canonical v := (hu.reads _).writesPending _
  clear_value v
  split
  · exact hv.giveTo _ _
  · exact hv.askFor _
  · exact hv.faultAt _ _
  · refine .ite (hv.askFor _) (.ite (hv.faultAt _ _) ?_)
    split
    · exact hv.faultAt _ _
    · exact hv.askFor _

/-! The G slot: accesses. -/
theorem Canonical.loadG (i : Instr) (g : GSlot) (signed : Bool) (width : Nat) : Kept (Machine.loadG i g signed width s) :=
  h.runG i fun _ ht => ((ht.reads _).writesPending _).whenFree fun _ hu => .ite (hu.faultAt _ _)
    (hu.withRes _ _ _ (fun _ _ hv => (hv.pendOn _).pushAccess _) fun _ _ _ hv => hv.giveTo _ _)
theorem Canonical.storeG (i : Instr) (g : GSlot) (width : Nat) (rel : Bool) : Kept (Machine.storeG i g width rel s) :=
  h.runG i fun _ ht => (ht.reads _).whenFree fun _ hu => .ite (hu.faultAt _ _)
    (hu.withRes _ _ _ (fun _ _ hv => hv.pushAccess _) fun _ _ _ hv => hv.pushAccess _)
theorem Canonical.execLdp (g : GSlot) : Kept (Machine.execLdp g s) := by
  refine h.runG _ fun t ht => ((ht.reads _).writesPending _).whenFree fun u hu => .ite (hu.faultAt _ _) (.ite (hu.faultAt _ _) ?_)
  extract_lets v
  have hv : Canonical v := .ite (hu.onCtx _) hu
  exact .ite (hv.giveTo _ _) (hv.withRes _ _ _ (fun _ _ hw => (hw.pendOn _).pushAccess _) fun _ _ _ hw => hw.giveTo _ _)
theorem Canonical.atomicG (i : Instr) (op : BitVec 8) (g : GSlot) (width : Nat) : Kept (Machine.atomicG i op g width s) :=
  h.runG i fun _ ht => ((ht.reads _).writesPending _).whenFree fun _ hu => .ite (hu.faultAt _ _)
    (hu.withRes _ _ _ (fun _ _ hv => .ite (hv.faultAt _ _) ((hv.pendOn _).pushAccess _)) fun _ _ _ hv => hv.faultAt _ _)
theorem Canonical.quietLine (g : GSlot) (unit : Nat) {f : Nat → State → State} (hf : ∀ n t, Canonical t → Canonical (f n t)) :
    Canonical (Machine.quietLine g unit f s) := by
  refine (h.reads _).whenFree fun t ht => .ite ht ?_
  split
  · exact hf _ _ ht
  · exact (ht.stallOn _).askFor _
  · exact ht
theorem Canonical.execPref (g : GSlot) : Kept (Machine.execPref g s) := h.runG _ fun _ ht => ht.quietLine g 128 fun _ _ hu => hu.pushAccess _
theorem Canonical.execPrefw (g : GSlot) : Kept (Machine.execPrefw g s) :=
  h.runG _ fun _ ht => ht.quietLine g 128 fun _ _ hu => .ite hu (hu.pushAccess _)
theorem Canonical.execInvl (g : GSlot) : Kept (Machine.execInvl g s) := h.runG _ fun _ ht => ht.quietLine g 128 fun _ _ hu => hu.pushAccess _
theorem Canonical.execInvlAll (g : GSlot) : Kept (Machine.execInvlAll g s) := h.runG _ fun _ ht => ht.pushAccess _
theorem Canonical.execWback (g : GSlot) : Kept (Machine.execWback g s) := h.runG _ fun _ ht => ht.quietLine g 1024 fun _ _ hu => hu.pushAccess _
theorem Canonical.pinRange (g : GSlot) {f : Window → List Nat → Bool → State → State} (hf : ∀ w ls host t, Canonical t → Canonical (f w ls host t)) :
    Canonical (Machine.pinRange g f s) :=
  (h.reads _).whenFree fun _ ht => .ite (ht.faultAt _ _) (.ite (ht.faultAt _ _) (.ite (ht.faultAt _ _)
    (ht.withRes _ _ _ (fun _ _ hu => hf _ _ _ _ hu) fun _ _ _ hu => hu)))
theorem Canonical.execPin (g : GSlot) : Kept (Machine.execPin g s) :=
  h.runG _ fun _ ht => (ht.writesPending _).pinRange g fun _ _ _ _ hu => .ite (hu.giveTo _ _) ((hu.pendOn _).pushAccess _)
theorem Canonical.execUnpin (g : GSlot) : Kept (Machine.execUnpin g s) := h.runG _ fun _ ht => ht.pinRange g fun _ _ _ _ hu => hu.pushAccess _
theorem Canonical.bitLine (g : GSlot) (write : Bool) {f : Nat → State → State} (hf : ∀ n t, Canonical t → Canonical (f n t)) :
    Canonical (Machine.bitLine g write f s) := by
  refine (h.reads _).whenFree fun t ht => ht.withRes _ _ _ (fun l u hu => ?_) fun _ _ _ hu => hu
  split
  · exact hf _ _ hu
  · exact hu
theorem Canonical.execSetf (g : GSlot) : Kept (Machine.execSetf g s) := h.runG _ fun _ ht => ht.bitLine g true fun _ _ hu => hu.pushAccess _
theorem Canonical.execSete (g : GSlot) : Kept (Machine.execSete g s) := h.runG _ fun _ ht => ht.bitLine g true fun _ _ hu => hu.pushAccess _
theorem Canonical.execTestf (g : GSlot) : Kept (Machine.execTestf g s) :=
  h.runG _ fun _ ht => (ht.writesPending _).bitLine g false fun _ _ hu => (hu.pendOn _).pushAccess _

/-! The G slot: ordering and barriers. -/
theorem Canonical.execFence (g : GSlot) : Kept (Machine.execFence g s) := h.runG _ fun _ ht => ht.pushAccess _
theorem Canonical.execDrain (g : GSlot) : Kept (Machine.execDrain g s) :=
  h.runG _ fun _ ht => (Canonical.ite (ht.stallOn _) ht).pushAccess _
theorem Canonical.execAcq (g : GSlot) : Kept (Machine.execAcq g s) :=
  h.runG _ fun _ ht => ((ht.reads _).writesPending _).whenFree fun _ hu => .ite (hu.faultAt _ _)
    (hu.withRes _ _ _ (fun _ _ hv => (hv.pendOn _).pushAccess _) fun _ _ _ hv => (hv.pendOn _).pushAccess _)
theorem Canonical.execBinit (g : GSlot) : Kept (Machine.execBinit g s) := by
  refine h.runG _ fun t ht => (ht.reads _).whenFree fun u hu => ?_
  split
  · exact hu.faultAt _ _
  · exact hu.stallOn _
  · exact hu.pushAccess _
theorem Canonical.barUpdateG (i : Instr) (g : GSlot) (expect : Bool) : Kept (Machine.barUpdateG i g expect s) := by
  refine h.runG i fun t ht => (ht.reads _).whenFree fun u hu => ?_
  split
  · exact hu.askFor _
  · exact hu
  · exact hu.faultAt _ _
  · split
    · exact hu.faultAt _ _
    · exact hu.askFor _
theorem Canonical.execBwait (g : GSlot) : Kept (Machine.execBwait g s) := by
  refine h.runG _ fun t ht => (ht.reads _).whenFree fun u hu => ?_
  split
  · exact hu.faultAt _ _
  · exact hu.stallOn _
  · dsimp only
    split
    · exact hu.pushAccess _
    · exact .ite (hu.faultAt _ _) (.ite (hu.faultAt _ _) (.ite (hu.stallOn _) (.ite (hu.pushAccess _) (hu.askFor _))))
theorem Canonical.execBtest (g : GSlot) : Kept (Machine.execBtest g s) := by
  refine h.runG _ fun t ht => ((ht.reads _).writesPending _).whenFree fun u hu => ?_
  split
  · exact hu.faultAt _ _
  · exact hu.stallOn _
  · exact (hu.pendOn _).pushAccess _

/-! The G slot: weights, spawns, records and escalation. -/
theorem Canonical.execQsplit (g : GSlot) : Kept (Machine.execQsplit g s) :=
  h.runG _ fun _ ht => (ht.writesFrozen _).afterAccesses fun _ hu => hu.splitQw _ fun _ _ _ hv => (hv.wrS _ _ _).setQw _
theorem Canonical.execQjoin (g : GSlot) : Kept (Machine.execQjoin g s) :=
  h.runG _ fun _ ht => ((ht.reads _).writesFrozen _).whenFree fun _ hu => .ite (hu.wrP _ _ _) (.ite ((hu.moveWeight.setQw _).wrP _ _ _)
    (.ite ((hu.moveWeight.setQw _).wrP _ _ _) (hu.afterAccesses fun _ hv => (hv.giveBack _).wrP _ _ _)))
theorem Canonical.execQret (g : GSlot) : Kept (Machine.execQret g s) := h.runG _ fun _ ht => (ht.reads _).afterAccesses fun _ hu => hu.giveBack _
theorem Canonical.execQretQw (g : GSlot) : Kept (Machine.execQretQw g s) := h.runG _ fun _ ht => ht.afterAccesses fun _ hu => (hu.giveBack _).setQw 0
theorem Canonical.execQwait (g : GSlot) : Kept (Machine.execQwait g s) := by
  refine h.runG _ fun t ht => (ht.writesFrozen _).afterAccesses fun u hu => ?_
  split
  · exact hu.askFor _
  · exact hu.faultAt _ _
  · exact .ite (((hu.setQw _).wrP _ _ _).pushAccess _) ((hu.setQw _).wrP _ _ _)
  · exact .ite (hu.faultAt _ _) (.ite (hu.faultAt _ _) (hu.askFor _))
theorem Canonical.execQread (g : GSlot) : Kept (Machine.execQread g s) := h.runG _ fun _ ht => .ite (ht.giveTo _ _) ((ht.pendOn _).pushAccess _)
theorem Canonical.execSpawn (g : GSlot) : Kept (Machine.execSpawn g s) := by
  refine h.runG _ fun t ht => (ht.reads _).afterAccesses fun u hu => ?_
  split
  · exact hu.askFor _
  · exact hu.moveWeight
  · refine hu.splitQw _ fun keep give v hv => ?_
    split
    · exact hv
    · exact .ite ((hv.onMach hv.1).setQw _) ((hv.setQw _).askFor _)
theorem Canonical.execLrec (g : GSlot) : Kept (Machine.execLrec g s) := by
  refine h.runG _ fun t ht => ((ht.reads _).writesFrozen _).afterAccesses fun u hu => ?_
  dsimp only
  split
  · exact hu.askFor _
  · exact hu.faultAt _ _
  · exact hu.faultAt _ _
  · exact hu.wrP _ _ _
  · exact hu.moveWeight.wrP _ _ _
  · exact .ite (hu.faultAt _ _) (hu.withRes _ _ _ (fun _ _ hv => .ite (hv.faultAt _ _) (.ite (hv.faultAt _ _)
      (hv.splitQw _ fun _ _ _ hw => ((hw.setQw _).askFor _).askFor _))) fun _ _ _ hv => hv)
theorem Canonical.execLcommit (g : GSlot) : Kept (Machine.execLcommit g s) := by
  refine h.runG _ fun t ht => (ht.reads _).whenFree fun u hu => ?_
  split
  · exact hu.askFor _
  · exact hu
  · exact hu.askFor _
theorem Canonical.execEscal (g : GSlot) : Kept (Machine.execEscal g s) := by
  refine h.runG _ fun t ht => (ht.writesFrozen _).whenFree fun u hu => ?_
  split
  · exact hu.askFor _
  · exact hu.wrS _ _ _
  · exact hu.faultAt _ _
  · exact hu.askFor _

/-! The G slot: draws and subscriptions. -/
theorem Canonical.execRseed (g : GSlot) : Kept (Machine.execRseed g s) := h.runG _ fun _ ht => ht.reads _
theorem Canonical.execRnext (g : GSlot) : Kept (Machine.execRnext g s) := h.runG _ fun _ ht => (ht.wrS _ _ _).onCtx _
theorem Canonical.subscrG (i : Instr) (g : GSlot) (pull : Bool) : Kept (Machine.subscrG i g pull s) := by
  refine h.runG i fun t ht => (ht.reads _).afterFences fun u hu => ?_
  dsimp only
  split
  · exact hu
  · refine .ite (hu.faultAt _ _) (.ite (hu.faultAt _ _) (.ite (hu.faultAt _ _) (.ite (hu.faultAt _ _) (.ite (hu.faultAt _ _) ?_))))
    split
    · exact hu.faultAt _ _
    · refine .ite (hu.faultAt _ _) (.ite (hu.faultAt _ _) (.ite (hu.faultAt _ _) (hu.withRes _ _ _ (fun _ v hv => ?_) fun _ _ _ hv => hv)))
      split
      · exact hv.askFor _
      · exact (hv.onCtx _).onMach hv.1
theorem Canonical.execSubcan (g : GSlot) : Kept (Machine.execSubcan g s) := by
  refine h.runG _ fun t ht => ?_
  dsimp only
  split
  · exact ht
  · exact .ite (ht.askFor _) (ht.onMach (ht.1.endSub _ _))
theorem Canonical.execSlotdone (g : GSlot) : Kept (Machine.execSlotdone g s) := by
  refine h.runG _ fun t ht => (ht.reads _).afterFences fun u hu => ?_
  split
  · exact hu.faultAt _ _
  · extract_lets mark
    have hmark (v : SubSlot) (full : Bool) : Canonical (mark v full) :=
      .ite (hu.stallOn _) (hu.onMach (MemoryWf.modCtx (hu.1.setLines _ _) _ _))
    exact .ite (hu.faultAt _ _) (.ite (hmark _ _) (.ite (hmark _ _) hu))

/-! The engine slots. -/
theorem Canonical.issueM (i : Instr) (x : MSlot) (r : Rule) (groups : Bool) : Kept (Machine.issueM i x r groups s) :=
  h.runSlot .m i fun _ ht => ht.engineIssue _ _ _ _ _ _
theorem Canonical.issueV (i : Instr) (p : Pipe) (v : VSlot) (r : Rule) (draws : Typed → Nat) : Kept (Machine.issueV i p v r draws s) :=
  h.runSlot _ i fun _ ht => ht.engineIssue _ _ _ _ _ _
theorem Canonical.issueView (i : Instr) (p : Pipe) (v : VSlot) (steps : BEnv → TypeWord → Except FaultRec (BEnv × TypeWord × Mask × Bool)) :
    Canonical (Machine.issueView i p v steps s) := h.engineIssue _ _ _ _ _ _
theorem Canonical.issueConst (i : Instr) (p : Pipe) (v : VSlot)
    (steps : TypeWord → BEnv → TypeWord → Except FaultRec (BEnv × TypeWord × Mask × Bool)) : Kept (Machine.issueConst i p v steps s) :=
  h.runSlot _ i fun _ ht => (ht.reads _).whenFree fun _ hu => hu.withTypeConst _ _ fun _ _ hv => hv.issueView i p v _
theorem Canonical.execVtrans (p : Pipe) (v : VSlot) : Kept (Machine.execVtrans p v s) :=
  h.runSlot _ _ fun _ ht => (ht.reads _).issueView _ p v _
theorem Canonical.issueC (i : Instr) (c : CSlot) (range : State → List (Nat × Nat)) (carrier : Bool) (plan : State → Except FaultRec Plan) :
    Kept (Machine.issueC i c range carrier plan s) :=
  h.runSlot .c i fun _ ht => (Canonical.ite (ht.stallOn _) ht).engineIssue _ _ _ _ _ _
end

end Sys2Proof.Claims
end

section
/-! SUPPORT. Every instruction, every event, every turn and every move keeps the canonical form (14 R261). -/
namespace Sys2Proof.Claims
open Sys2Proof.Machine Sys2Proof.Safety Sys2Proof.Proofs
open Host (Outcome)

section
variable {s : State} (h : Canonical s)
include h

/-! Messages that reach this device. -/
theorem Canonical.onArrival (x : Msg) {f : Mach → Mach} (hf : ∀ n, MemoryWf n → MemoryWf (f n)) : Kept (Machine.onArrival x s f) :=
  h.mach (h.1.arrive x hf)
theorem Canonical.execSendReady (x : MsgHdr) (r : ReadyMsg) : Kept (Machine.execSendReady x r s) := by
  refine h.onArrival _ fun n hn => .ite hn ?_
  cases hd : deliverReady n r with
  | none => exact hn
  | some k => exact hn.deliverReady hd

/-! The device's own requests. -/
theorem Canonical.execDeviceReset (b : Bool) (g : BitVec 4) : Kept (Machine.execDeviceReset b g s) := .ended s (h.1.deviceReset b g)
theorem Canonical.execSetRoutingEntry (dst port : Word) : Kept (Machine.execSetRoutingEntry dst port s) :=
  h.mach (h.1.onRequest 9 dst (.ite (h.1.setRoute dst port) h.1))
theorem Canonical.execLoadFirmware (addr bytes : Word) : Kept (Machine.execLoadFirmware addr bytes s) :=
  h.mach (h.1.onRequest 10 addr (.ite (h.1.loadFirmware addr bytes) h.1))

/-! Every instruction and event. -/
theorem Canonical.exec (i : Instr) : Kept (Machine.exec i s) := by
  unfold Machine.exec
  cases i with
  | nop => exact h.runX _ fun _ ht => ht
  | add | sub | and | or | xor | shl | shr | sra | mul | mulh | mulhu | div | divu | rem | remu | min | max | minu | maxu | lea
  | fadd | fsub | fmul | fdiv | fmin | fmax => exact h.alu2 _ _ _ _ _ _
  | clz | ctz | popc | addi | andi | ori | xori | shli | shri | srai | muli | lih | ftoi | itof | fexp2 | flog2 => exact h.alu1 _ _ _ _ _
  | cmpeq | cmpne | cmplt | cmpltu | cmple | cmpleu | fcmplt | fcmpeq => exact h.cmp2 _ _ _ _ _ _
  | cmpeqi | cmplti => exact h.cmp1 _ _ _ _
  | pand | por | pxor => exact h.pred2 _ _ _ _ _
  | pnot | pmov => exact h.pred1 _ _ _ _
  | sel sd p sa sb => exact h.execSel sd p sa sb
  | li sd imm => exact h.execLi sd imm
  | br d => exact h.execBr d
  | brc p sense d => exact h.execBrc p sense d
  | bdnz sd imm => exact h.execBdnz sd imm
  | call d => exact h.execCall d
  | ret sa => exact h.execRet sa
  | jmpr sd sa => exact h.execJmpr sd sa
  | endTask => exact h.execEnd
  | trap imm => exact h.execTrap imm
  | bkpt imm => exact h.execBkpt imm
  | waitk ka kb kc => exact h.execWaitk ka kb kc
  | idleF sa => exact h.execIdleF sa
  | idleN sa sb => exact h.execIdleN sa sb
  | sysr sd sel => exact h.execSysr sd sel
  | sysw sd sel => exact h.execSysw sd sel
  | tret => exact h.execTret
  | tretSkip => exact h.execTretSkip
  | ctxr sd sa => exact h.execCtxr sd sa
  | ctxw sa sb => exact h.execCtxw sa sb
  | eqreplay sd sa => exact h.execEqreplay sd sa
  | tdecl t idx => exact h.execTdecl t idx
  | tdecls t sa sb => exact h.execTdecls t sa sb
  | tget sd t high resolve => exact h.execTget sd t high resolve
  | bind b sa => exact h.execBind b sa
  | unbind mask => exact h.execUnbind mask
  | bget sd b => exact h.execBget sd b
  | tchk pd t sb mask assert => exact h.execTchk pd t sb mask assert
  | tclear t => exact h.execTclear t
  | text sd t k frame => exact h.execText sd t k frame
  | gNop => exact h.runG _ fun _ ht => ht
  | ld8 | ld8u | ld16 | ld16u | ld32 | ld32u | ld64 => exact h.loadG _ _ _ _
  | st8 | st16 | st32 | st64 | rel => exact h.storeG _ _ _ _
  | aadd | aand | aor | axor | amin | amax | aminu | amaxu | aswap | acas | afadd => exact h.atomicG _ _ _ _
  | ldp g => exact h.execLdp g
  | fence g => exact h.execFence g
  | drain g => exact h.execDrain g
  | acq g => exact h.execAcq g
  | pref g => exact h.execPref g
  | prefw g => exact h.execPrefw g
  | pin g => exact h.execPin g
  | unpin g => exact h.execUnpin g
  | invl g => exact h.execInvl g
  | invlAll g => exact h.execInvlAll g
  | wback g => exact h.execWback g
  | binit g => exact h.execBinit g
  | barrive | bexpect => exact h.barUpdateG _ _ _
  | bwait g => exact h.execBwait g
  | btest g => exact h.execBtest g
  | setf g => exact h.execSetf g
  | sete g => exact h.execSete g
  | testf g => exact h.execTestf g
  | qsplit g => exact h.execQsplit g
  | qjoin g => exact h.execQjoin g
  | qret g => exact h.execQret g
  | qretQw g => exact h.execQretQw g
  | qwait g => exact h.execQwait g
  | qread g => exact h.execQread g
  | spawn g => exact h.execSpawn g
  | subscrPush | subscrPull => exact h.subscrG _ _ _
  | subcan g => exact h.execSubcan g
  | slotdone g => exact h.execSlotdone g
  | rseed g => exact h.execRseed g
  | rnext g => exact h.execRnext g
  | escal g => exact h.execEscal g
  | lrec g => exact h.execLrec g
  | lcommit g => exact h.execLcommit g
  | vNop | mNop | cNop => exact h.runSlot _ _ fun _ ht => ht
  | vadd | vsub | vmul | vfma | vmin | vmax | vabs | vneg | vrcp | vrsq | vsqrt | vexp2 | vlog2 | vtanh | vsigm | vclamp | vscale | vsel
  | vand | vor | vxor | vshl | vshr | vcmp | vbcast | viota | vmask | vmov | vcvt | vcvtq | vcvts | vrsum | vrmax | vrmin | vrargmax | vrdraw
  | vrlse | vscan | vdmerge | vcompact | vperm | vroute | vhist => exact h.issueV _ _ _ _ _
  | vreshape | vcast => exact h.issueConst _ _ _ _
  | vtrans p v => exact h.execVtrans p v
  | mma | mmaz | mabsd | mmaxp | mminp | mrank | mrankc | msparse | mbload => exact h.issueM _ _ _ _
  | tload | tstore | tloads | tstores | cpin | cpout | gather | scatter | preft | send | recv | recvadd | recvdraw | mcast | amsg | ttset
  | ttfire | ctload => exact h.issueC _ _ _ _ _
  | pendingValueWritten cx uid => exact h.mach (h.1.valueWritten cx uid)
  | frozenWrite cx => exact h.mach (h.1.modCtx cx _)
  | translationWalk die n => exact h.mach (h.1.walkMiss die n)
  | matrixOpStart core => exact h.mach (h.1.startHead core _)
  | matrixOpComplete core => exact h.mach (h.1.completeHead core _)
  | vectorOpStart core p => exact h.mach (h.1.startHead core _)
  | vectorOpComplete core p => exact h.mach (h.1.completeHead core _)
  | copyOpStart core uid => exact h.mach (h.1.copyStart core uid)
  | copyOpComplete core uid => exact h.mach (h.1.copyComplete core uid)
  | engineFoundFault cx => exact h.mach (h.1.engineFound cx)
  | postCommitError cx uid sub => exact h.mach (h.1.postCommitErr cx uid sub)
  | barrierUpdate cx => exact h.mach (h.1.barrierAt cx)
  | rootReturn die n => exact h.mach (h.1.rootEvent die n)
  | launchCompletion lid => exact h.mach (h.1.completion lid)
  | forcedRelease cx => exact h.mach (h.1.forcedRelease cx)
  | failureInterval lid => exact h.mach (h.1.failureInterval lid)
  | watchdogTick lid => exact h.mach (h.1.watchdogTick lid)
  | notifyRegisterWrite die offset size value => exact h.mach (h.1.notifyWrite offset size value)
  | queueMap die q => exact h.mach (h.1.mapQueue _ _)
  | queueUnmap die q => exact h.mach (h.1.unmapQueue _ _)
  | launchPacket die q => exact h.mach (h.1.launchPacket _ _)
  | noOp | tileRecord => exact h.mach (h.1.decide' _ _ _)
  | dealTask lid => exact h.mach (h.1.dealTask lid)
  | claimSeat lid => exact h.mach (h.1.claimSeat lid)
  | schedulerReceipt die n => exact h.mach (h.1.schedReceipt die n)
  | preemptLaunch lid => exact h.mach (h.1.onRequest 3 lid (h.1.preempt lid))
  | saveEntry lid => exact h.mach (h.1.saveEntry lid)
  | restoreLaunch lid => exact h.mach (h.1.onRequest 4 lid (h.1.restore lid))
  | restoreSeatClaim lid core => exact h.mach (h.1.restoreSeat lid core)
  | cancelLaunch lid => exact h.mach (h.1.onRequest 5 lid (h.1.cancel lid))
  | invalidateInstructionCaches => exact h.mach (.ite (h.1.dropCode.reqDone 0) h.1)
  | invalidateTranslationCaches => exact h.mach (.ite (h.1.dropTlbs.reqDone 0) h.1)
  | resumeParked cx => exact h.mach (h.1.onParked 6 cx fun l => h.1.resumeParked cx l)
  | failParked cx => exact h.mach (h.1.onParked 7 cx fun l => h.1.failParked cx l)
  | clearQueueFrozen q => exact h.mach (h.1.onRequest 8 q (h.1.clearFrozen q))
  | setRoutingEntry dst port => exact h.execSetRoutingEntry dst port
  | loadFirmware addr bytes => exact h.execLoadFirmware addr bytes
  | clearCounters => exact h.mach (.ite (h.1.clearCounters.reqDone 0) h.1)
  | retrainLinks => exact h.mach (.ite (h.1.retrain.reqDone 0) h.1)
  | powerLimitWrite v => exact h.mach (h.1.writePower v)
  | mgmtRegisterWrite offset v => exact h.mach (h.1.mgmtWrite offset v)
  | governorSample average => exact h.mach (h.1.governor average)
  | powerGate core => exact h.mach (h.1.gateCore core)
  | coreWake core => exact h.mach (h.1.wakeCore core)
  | deviceReset b g => exact h.execDeviceReset b g
  | pushSlotFilling | pullSlotDraining => exact h.mach (h.1.subStart _ _ _)
  | pushSlotFull | pullSlotDrained => exact h.mach (h.1.subEnd _ _ _)
  | read x space size addr => exact h.onArrival _ fun _ hn => (hn.spaceRead space size _).reply x _
  | write x space size addr mask data => exact h.onArrival _ fun _ hn => (hn.spaceWrite space size _ mask data).reply x _
  | atomic x op scope addr v swap => exact h.onArrival _ fun _ hn => (hn.memAtomic op _ v swap).reply x _
  | readAnswer | writeAnswer | atomicAnswer => exact h.onArrival _ fun _ hn => hn.hostAnswer _ _ _
  | sendReady x r => exact h.execSendReady x r
  | pull x refusal sender core entry gtag ep tag => exact h.onArrival _ fun _ hn => hn.pullAt x refusal sender core entry ep
  | pullData x sender core entry gtag ep image => exact h.onArrival _ fun _ hn => hn.pullDataAt sender core entry ep image
  | weightReturn x device domain gtag w => exact h.onArrival _ fun _ hn => .ite (hn.addReturn _ gtag w) hn
  | faultNotice n => exact h.onArrival _ fun _ hn => hn.takeNotice n.notice
  | activeMessage x t ep sender gtag kernel => exact h.onArrival _ fun _ hn => hn.activeAt x t ep sender gtag kernel
  | loadSummaryToken x t => exact h.onArrival _ fun _ hn => .ite hn (hn.actOnToken t)
  | tokenHoldExpiry => exact h.mach h.1.forwardToken
  | tokenLossTimeout => exact h.mach h.1.newToken
  | stealRequest x r => exact h.onArrival _ fun _ hn => .ite (hn.grant r) hn
  | stealGrant x victim tag rs => exact h.onArrival _ fun _ hn => hn.takeGrant victim tag rs
  | tileRecordMessage x victim r => exact h.onArrival _ fun _ hn => hn.takeBack r
  | laneLock p => exact h.mach (h.1.laneLock p)
  | trainingOfferTimer p => exact h.mach (h.1.offerTimer p)
  | trainingOffer p o => exact h.mach (h.1.takeOffer p o)
  | trainingAccept p o => exact h.mach (h.1.takeAccept p o)
  | linkIdle p valid ack => exact h.mach (h.1.linkIdle p valid _)
  | replayTimeout p => exact h.mach (h.1.replayTimeout p)
  | hostBar0Access write offset size v => exact h.mach (h.1.bar0 write offset size v)
  | hostBar2Access op offset size data => exact h.mach (h.1.bar2 op offset size data)
  | attestationRequest nonce => exact h.mach (h.1.attest nonce)
  | doeDiscovery index => exact h.mach (h.1.discover index)
  | softError site correctable => exact h.mach (h.1.softError site correctable)
  | coreReset core leave => exact h.mach (h.1.coreReset core leave)
  | discardedFlit p why => exact h.mach (.ite h.1 h.1)
  | hostBar4Access write offset size v => exact h.mach (h.1.bar4 write offset size v)
end

end Sys2Proof.Claims
end

section
/-! SUPPORT. The invariant of 14 R261: a core's turn, every move of the device, and the step. -/
namespace Sys2Proof.Claims
open Sys2Proof.Machine Sys2Proof.Safety Sys2Proof.Proofs
open Host (Outcome)

/-! A core's turn. -/
theorem Canonical.runSlots (fs : List FSlot) {s : State} (h : Canonical s) : Kept (Machine.runSlots fs s) := by
  induction fs generalizing s with
  | nil => exact h.finish
  | cons f fs ih =>
    cases fs with
    | nil => exact Canonical.exec (s := { s with issue := { s.issue with last := true, offset := f.offset, replayed := f.replayed } }) h f.instr
    | cons g rest =>
      have hexec := Canonical.exec (s := { s with issue := { s.issue with last := false, offset := f.offset, replayed := f.replayed } }) h f.instr
      unfold Machine.runSlots
      split
      · next t ht =>
        rw [ht] at hexec
        exact ih hexec
      · trivial
      · trivial

section
variable {s : State} (h : Canonical s)
include h

theorem Canonical.runBundle (cx : Nat) : Kept (Machine.runBundle s cx).1 := by
  have hfetch := MemoryWf.fetchBundle (h.1.modCtx cx fun c => { c with blocked := false }) cx
  unfold Machine.runBundle
  generalize fetchBundle _ cx = r at hfetch ⊢
  obtain ⟨m, b⟩ := r
  cases b with
  | nothing => exact h.mach hfetch
  | miss va => exact h.mach (MemoryWf.modCtx (MemoryWf.applyAsk hfetch cx _) cx _)
  | pendingGuard => exact h.mach (MemoryWf.modCtx hfetch cx _)
  | fault slots f => exact h.mach (MemoryWf.fetchFault hfetch cx slots f)
  | bundle x len slots =>
    dsimp only
    have hslots := Canonical.runSlots slots (s := { s with
      m := m, issue := { cx := cx, len := len, guarded := (m.ctx cx).p x.guard == x.sense, yield := x.yield } }) ⟨hfetch, nofun⟩
    split
    · next t ht =>
      rw [ht] at hslots
      split
      · exact Canonical.ite (hslots.mach (hslots.1.modCtx cx _)) hslots
      · exact hslots
    · exact hslots
theorem Canonical.tryCtx (cx : Nat) : Kept (Machine.tryCtx s cx).1 := by
  unfold Machine.tryCtx
  extract_lets c
  split
  · exact h
  · split
    · exact h.mach (h.1.takeEvent cx _)
    · split
      · split
        · exact h.mach ((h.1.releaseCtx cx false).afterReturn cx)
        · exact h
      · split
        · exact h.runBundle cx
        · exact h
omit h in
theorem Canonical.turns (s0 : State) (core : Nat) (ns : List Nat) {s : State} (h : Canonical s) : Kept (Machine.turns s0 core ns s) := by
  induction ns generalizing s with
  | nil => exact h
  | cons n ns ih =>
    have htry := h.tryCtx (8 * core + n)
    unfold Machine.turns
    split
    · next ht =>
      rw [ht] at htry
      exact ih htry
    · next t turn _ ht =>
      rw [ht] at htry
      exact Canonical.mach htry (MemoryWf.afterTurn htry.1 core n turn _)
    · next ht =>
      rw [ht] at htry
      exact htry
theorem Canonical.coreTurn (core : Nat) : Kept (Machine.coreTurn s core) := by
  unfold Machine.coreTurn
  split
  · exact h
  · exact h.turns s core _

/-! The moves of the device's agents. -/
theorem Canonical.runMsg (x : Msg) : Kept (Machine.runMsg x s) := by
  cases x with
  | read x space size addr => exact h.exec (.read x space size addr)
  | readAnswer x st size addr data => exact h.exec (.readAnswer x st size addr data)
  | write x space size addr mask data => exact h.exec (.write x space size addr mask data)
  | writeAnswer x st size addr => exact h.exec (.writeAnswer x st size addr)
  | atomic x op scope addr v swap => exact h.exec (.atomic x op scope addr v swap)
  | atomicAnswer x st addr old => exact h.exec (.atomicAnswer x st addr old)
  | sendReady x r => exact h.exec (.sendReady x r)
  | pull x refusal sender core entry gtag ep tag => exact h.exec (.pull x refusal sender core entry gtag ep tag)
  | pullData x sender core entry gtag ep image => exact h.exec (.pullData x sender core entry gtag ep image)
  | weightReturn x dev dom gtag w => exact h.exec (.weightReturn x dev dom gtag w)
  | activeMessage x t ep sender gtag kernel => exact h.exec (.activeMessage x t ep sender gtag kernel)
  | loadSummaryToken x t => exact h.exec (.loadSummaryToken x t)
  | stealRequest x r => exact h.exec (.stealRequest x r)
  | stealGrant x v tag rs => exact h.exec (.stealGrant x v tag rs)
  | tileRecordMessage x v r => exact h.exec (.tileRecordMessage x v r)
  | faultNotice x n => exact h.exec (.faultNotice ⟨x, n⟩)
theorem Canonical.deliver (n : Nat) : Kept (Machine.deliver n s) := by
  unfold Machine.deliver
  split
  · exact h
  · next x _ =>
    split
    · exact h
    · have hm : MemoryWf { s.m with wire := s.m.wire.eraseIdx n } := h.1.of_eq rfl rfl rfl rfl
      generalize { s.m with wire := s.m.wire.eraseIdx n } = m at hm ⊢
      dsimp only
      split
      · next x r _ _ =>
        refine h.mach ?_
        cases hd : deliverReady m r with
        | none => exact h.1
        | some k => exact hm.deliverReady hd
      · exact (h.mach hm).runMsg x
theorem Canonical.runRequest : Kept (Machine.runRequest s) := by
  unfold Machine.runRequest
  extract_lets a b
  split
  · exact h
  · split
    · exact h.exec .invalidateInstructionCaches
    · exact h.exec .invalidateTranslationCaches
    · exact h.exec (.preemptLaunch a)
    · exact h.exec (.restoreLaunch a)
    · exact h.exec (.cancelLaunch a)
    · exact h.exec (.resumeParked (argCtx s.m))
    · exact h.exec (.failParked (argCtx s.m))
    · exact h.exec (.clearQueueFrozen a)
    · exact h.exec (.setRoutingEntry a b)
    · exact h.exec (.loadFirmware a b)
    · exact h.exec .clearCounters
    · exact h.exec .retrainLinks
    · exact h
theorem Canonical.runAuto (e : Auto) : Kept (Machine.runAuto e s) := by
  cases e with
  | walk d n => exact h.exec (.translationWalk d n)
  | value cx uid => exact h.exec (.pendingValueWritten cx uid)
  | amsg core uid => exact h.mach (h.1.amsgAnswer core uid)
  | start core q uid =>
    cases q with
    | m => exact h.exec (.matrixOpStart core)
    | v0 => exact h.exec (.vectorOpStart core .p0)
    | v1 => exact h.exec (.vectorOpStart core .p1)
    | c => exact h.exec (.copyOpStart core uid)
  | complete core q uid =>
    cases q with
    | m => exact h.exec (.matrixOpComplete core)
    | v0 => exact h.exec (.vectorOpComplete core .p0)
    | v1 => exact h.exec (.vectorOpComplete core .p1)
    | c => exact h.exec (.copyOpComplete core uid)
  | engineFault cx => exact h.exec (.engineFoundFault cx)
  | barrier cx => exact h.exec (.barrierUpdate cx)
  | rootReturn d n => exact h.exec (.rootReturn d n)
  | completion lid => exact h.exec (.launchCompletion lid)
  | forced cx => exact h.exec (.forcedRelease cx)
  | interval lid => exact h.exec (.failureInterval lid)
  | watchdog lid => exact h.exec (.watchdogTick lid)
  | queueMap d q => exact h.exec (.queueMap d q)
  | queueUnmap d q => exact h.exec (.queueUnmap d q)
  | packet d q => exact h.exec (.launchPacket d q)
  | noOp d q => exact h.exec (.noOp d q)
  | record d q => exact h.exec (.tileRecord d q)
  | deal lid => exact h.exec (.dealTask lid)
  | claim lid => exact h.exec (.claimSeat lid)
  | receipt d n => exact h.exec (.schedulerReceipt d n)
  | save lid => exact h.exec (.saveEntry lid)
  | seat lid core => exact h.exec (.restoreSeatClaim lid core)
  | pushFill cx r => exact h.exec (.pushSlotFilling cx r)
  | pushFull cx r => exact h.exec (.pushSlotFull cx r)
  | pullDrain cx r => exact h.exec (.pullSlotDraining cx r)
  | pullDone cx r => exact h.exec (.pullSlotDrained cx r)
  | deliver n => exact h.deliver n
  | notice n => exact h.mach (h.1.sendNotice n)
  | tokenHold => exact h.exec .tokenHoldExpiry
  | tokenLoss => exact h.exec .tokenLossTimeout
  | request => exact h.runRequest
  | offerTimer p => exact h.exec (.trainingOfferTimer p)
  | replay p => exact h.exec (.replayTimeout p)
  | gate core => exact h.exec (.powerGate core)
  | wake core => exact h.exec (.coreWake core)
  | governor avg => exact h.exec (.governorSample avg)
  | boot d => exact h.mach (h.1.bootDie d)
  | lineIdle p => exact h.mach (h.1.lineIdle p)
theorem Canonical.arriving (a : Arrival) (i : Instr) : Kept (Machine.arriving a i s) := by
  have hexec := (h.mach (m := { s.m with rx := some a }) (h.1.of_eq rfl rfl rfl rfl)).exec i
  unfold Machine.arriving
  split
  · next t ht =>
    rw [ht] at hexec
    exact Canonical.mach hexec (MemoryWf.of_eq hexec.1 rfl rfl rfl rfl)
  · exact hexec
theorem Canonical.perform (a : Act) : Kept (Machine.perform a s) := by
  unfold Machine.perform
  split
  · exact h
  · next i =>
    split
    · exact h
    · split
      · trivial
      · split
        · exact h.exec i
        · exact h
  · next a i =>
    split
    · exact h
    · split
      · trivial
      · split
        · exact h.arriving a i
        · exact h
  · split
    · exact h.runRequest
    · exact h.mach (.ite (h.1.reqDone 2) h.1)
  · next core =>
    split
    · trivial
    · split
      · exact h.coreTurn core
      · exact h
  · next d =>
    split
    · exact h.mach (h.1.bootDie d)
    · trivial
  · next e _ _ =>
    split
    · exact h.runAuto e
    · exact h
  · next core uid n => exact h.mach (h.1.copySome core uid n)
  · next cx ring n => exact h.mach (h.1.subSome cx ring n)
  · next core uid => exact h.mach (h.1.consumeOp core uid)
  · next core line => exact h.mach (h.1.modCore core _)
  · next core die n => exact h.mach (.ite (h.1.modDie _ _) (h.1.modCore core _))
  · next core line => exact h.mach (h.1.modCore core _)
omit h in
theorem memoryWf_aftermath {m : Mach} (hm : MemoryWf m) : MemoryWf (aftermath m) := by
  have hheld : MemoryWf (enterHeld (watchStalls (finishSwaps m.settle))) := hm.settle.finishSwaps.watchStalls.enterHeld
  exact (hheld.foldl _ fun _ x hn => (hn.claimTables x.1).fireWaiting x.1).flushOut
theorem Canonical.tick : Canonical { s with m := Machine.tick s.m } := h.mach (h.1.of_eq rfl rfl rfl rfl)
theorem Canonical.moveOnce (a : Act) : Kept (Machine.moveOnce a s) := by
  have hmoved := h.tick.perform a
  unfold Machine.moveOnce
  split
  · next t ht =>
    rw [ht] at hmoved
    exact Canonical.mach hmoved (memoryWf_aftermath hmoved.1)
  · trivial
  · trivial
theorem Canonical.nextAct : Canonical (Machine.nextAct s).2 := by
  unfold Machine.nextAct
  split
  · exact h
  · exact h
theorem Canonical.step : Kept (Machine.step s) := h.nextAct.moveOnce _
end

/-- Settles O46: every step is one move of one agent and what follows it; each keeps the machine and the start of the bundle under way
canonical. -/
theorem canonicalKept : Obligations.CanonicalKept := by
  intro s t hs ht
  have hstep := hs.step
  rw [ht] at hstep
  exact hstep

end Sys2Proof.Claims
end

section
/-! SUPPORT. The accumulators of a root (15 R282): what a return adds, and when its root is quiet or in excess. -/
namespace Sys2Proof.Proofs
open Sys2Proof.Machine Sys2Proof.Safety Sys2Proof.Claims

/-! Worth. -/

/-- What one unit of an accumulator is worth, in units of the smallest scale (R281). -/
def unitWorth (t : Nat) : Nat := 2 ^ (59 * (15 - t))
/-- A power is named by its exponent: comparing 2⁸⁸⁵ itself would evaluate it. -/
theorem pow_eq_unitWorth {t e : Nat} (h : e = 59 * (15 - t)) : 2 ^ e = unitWorth t := by rw [h, unitWorth]
theorem unitWorth_carry {t : Nat} (ht : t < 15) : unitWorth t = 2 ^ 59 * unitWorth (t + 1) := by
  rw [unitWorth, unitWorth, ← pow_add]
  congr 1
  omega
theorem worth_eq_sum (acc : Mp Nat) : worth acc = ∑ t ∈ Finset.range 16, mget 0 acc t * unitWorth t := by
  rw [worth, upFrom_eq_range', ← List.range_eq_range']
  rfl
/-- Setting one accumulator exchanges its old worth for the new. -/
theorem worth_mset (acc : Mp Nat) {t : Nat} (ht : t < 16) (v : Nat) :
    worth (mset acc t v) + mget 0 acc t * unitWorth t = worth acc + v * unitWorth t := by
  have hmem : t ∈ Finset.range 16 := Finset.mem_range.2 ht
  have hrest : ∑ k ∈ (Finset.range 16).erase t, mget 0 (mset acc t v) k * unitWorth k =
      ∑ k ∈ (Finset.range 16).erase t, mget 0 acc k * unitWorth k :=
    Finset.sum_congr rfl fun k hk => by rw [mget_mset_ne _ _ _ (Finset.ne_of_mem_erase hk).symm]
  rw [worth_eq_sum, worth_eq_sum, ← Finset.add_sum_erase _ _ hmem, ← Finset.add_sum_erase _ _ hmem, hrest, mget_mset_same]
  omega
theorem worth_added (acc : Mp Nat) {t : Nat} (ht : t < 16) (a : Nat) :
    worth (mset acc t (mget 0 acc t + a)) = worth acc + a * unitWorth t := by
  have h := worth_mset acc ht (mget 0 acc t + a)
  rw [Nat.add_mul] at h
  omega

/-! Normalising. -/

/-- One carry of `carryAcc`, from accumulator t + 1 into t. -/
def carried (acc : Mp Nat) (t : Nat) : Mp Nat :=
  mset (mset acc (t + 1) (mget 0 acc (t + 1) % 2 ^ 59)) t (mget 0 acc t + mget 0 acc (t + 1) / 2 ^ 59)
theorem carryAcc_succ (acc : Mp Nat) (t : Nat) : carryAcc acc (t + 1) = carryAcc (carried acc t) t := rfl
theorem mget_carried_from (acc : Mp Nat) (t : Nat) : mget 0 (carried acc t) (t + 1) = mget 0 acc (t + 1) % 2 ^ 59 := by
  rw [carried, mget_mset_ne _ _ _ (by omega), mget_mset_same]
theorem mget_carried_above (acc : Mp Nat) {t k : Nat} (hk : t + 1 < k) : mget 0 (carried acc t) k = mget 0 acc k := by
  rw [carried, mget_mset_ne _ _ _ (by omega), mget_mset_ne _ _ _ (by omega)]
theorem worth_carried (acc : Mp Nat) {t : Nat} (ht : t < 15) : worth (carried acc t) = worth acc := by
  have hfrom := worth_mset acc (show t + 1 < 16 by omega) (mget 0 acc (t + 1) % 2 ^ 59)
  have hinto := worth_mset (mset acc (t + 1) (mget 0 acc (t + 1) % 2 ^ 59)) (show t < 16 by omega) (mget 0 acc t + mget 0 acc (t + 1) / 2 ^ 59)
  rw [mget_mset_ne _ _ _ (by omega)] at hinto
  have hsplit : mget 0 acc (t + 1) * unitWorth (t + 1) =
      mget 0 acc (t + 1) % 2 ^ 59 * unitWorth (t + 1) + mget 0 acc (t + 1) / 2 ^ 59 * unitWorth t := by
    calc mget 0 acc (t + 1) * unitWorth (t + 1)
        = (mget 0 acc (t + 1) % 2 ^ 59 + 2 ^ 59 * (mget 0 acc (t + 1) / 2 ^ 59)) * unitWorth (t + 1) := by rw [Nat.mod_add_div]
      _ = _ := by rw [unitWorth_carry ht]; ring
  rw [Nat.add_mul] at hinto
  rw [carried]
  omega

theorem worth_carryAcc {n : Nat} (hn : n ≤ 15) (acc : Mp Nat) : worth (carryAcc acc n) = worth acc := by
  induction n generalizing acc with
  | zero => rfl
  | succ t ih => rw [carryAcc_succ, ih (by omega), worth_carried acc (by omega)]
theorem mget_carryAcc_above {n k : Nat} (hk : n < k) (acc : Mp Nat) : mget 0 (carryAcc acc n) k = mget 0 acc k := by
  induction n generalizing acc with
  | zero => rfl
  | succ t ih => rw [carryAcc_succ, ih (by omega), mget_carried_above acc hk]
/-- Normalising leaves every accumulator that carries below 2⁵⁹. -/
theorem mget_carryAcc_lt {n k : Nat} (h1 : 1 ≤ k) (hk : k ≤ n) (acc : Mp Nat) : mget 0 (carryAcc acc n) k < 2 ^ 59 := by
  induction n generalizing acc with
  | zero => omega
  | succ t ih =>
    rw [carryAcc_succ]
    rcases Nat.lt_or_eq_of_le hk with hlt | rfl
    · exact ih (by omega) _
    · rw [mget_carryAcc_above (by omega), mget_carried_from]
      exact Nat.mod_lt _ (by positivity)

/-! Quiet and excess. -/

/-- What the accumulators below the first are worth. -/
def lowWorth (acc : Mp Nat) (n : Nat) : Nat := ∑ t ∈ Finset.range n, mget 0 acc (t + 1) * unitWorth (t + 1)
theorem worth_eq_low (acc : Mp Nat) : worth acc = mget 0 acc 0 * unitWorth 0 + lowWorth acc 15 := by
  rw [worth_eq_sum, Finset.sum_range_succ', Nat.add_comm]
  rfl
/-- Normalised accumulators below the first are worth less than one unit of the first. -/
theorem lowWorth_lt {acc : Mp Nat} (h : ∀ t, 1 ≤ t → t ≤ 15 → mget 0 acc t < 2 ^ 59) {n : Nat} (hn : n ≤ 15) :
    lowWorth acc n + unitWorth n ≤ unitWorth 0 := by
  induction n with
  | zero => simp [lowWorth]
  | succ t ih =>
    have hprev := ih (by omega)
    have hterm := Nat.mul_le_mul_right (unitWorth (t + 1)) (h (t + 1) (by omega) hn)
    rw [← unitWorth_carry (by omega), Nat.succ_mul] at hterm
    rw [lowWorth, Finset.sum_range_succ, ← lowWorth]
    omega
theorem lowWorth_eq_zero {acc : Mp Nat} : lowWorth acc 15 = 0 ↔ ∀ t ∈ upFrom 1 15, mget 0 acc t = 0 := by
  simp only [lowWorth, Finset.sum_eq_zero_iff, Finset.mem_range, Nat.mul_eq_zero, unitWorth, pow_eq_zero_iff', mem_upFrom]
  constructor
  · intro h t ht
    have hprev := h (t - 1) (by omega)
    rw [Nat.sub_add_cancel ht.1] at hprev
    simpa using hprev
  · exact fun h t ht => .inl (h (t + 1) (by omega))

/-- The accumulators of a root after a return (R282). -/
def accAfter (r : Root) (w : Word) : Mp Nat := carryAcc (mset r.acc (wScale w) (mget 0 r.acc (wScale w) + wAmount w)) 15
/-- Some accumulator below the first is not zero. -/
def lowLeft (acc : Mp Nat) : Bool := (upFrom 1 15).any fun t => mget 0 acc t != 0
theorem lowLeft_eq_true {acc : Mp Nat} : lowLeft acc = true ↔ 0 < lowWorth acc 15 := by
  rw [Nat.pos_iff_ne_zero, Ne, lowWorth_eq_zero]
  simp [lowLeft]

theorem worth_accAfter (r : Root) {w : Word} (hw : wScale w ≤ 15) : worth (accAfter r w) = worth r.acc + wAmount w * unitWorth (wScale w) := by
  rw [accAfter, worth_carryAcc le_rfl, worth_added _ (by omega)]
theorem lowWorth_accAfter_lt (r : Root) (w : Word) : lowWorth (accAfter r w) 15 < unitWorth 0 :=
  lowWorth_lt (fun _ h1 h15 => mget_carryAcc_lt h1 h15 _) le_rfl

/-- The whole is the first accumulator at 2⁵⁹ and nothing below it. -/
theorem worth_eq_whole {acc : Mp Nat} (h : lowWorth acc 15 < unitWorth 0) :
    worth acc = 2 ^ 59 * unitWorth 0 ↔ mget 0 acc 0 = 2 ^ 59 ∧ lowLeft acc = false := by
  rw [worth_eq_low, ← Bool.not_eq_true, lowLeft_eq_true]
  constructor
  · intro he
    rcases Nat.lt_trichotomy (mget 0 acc 0) (2 ^ 59) with hlt | heq | hgt
    · have := Nat.mul_le_mul_right (unitWorth 0) hlt
      rw [Nat.succ_mul] at this
      omega
    · rw [heq] at he
      exact ⟨heq, by omega⟩
    · have := Nat.mul_le_mul_right (unitWorth 0) hgt
      rw [Nat.succ_mul] at this
      omega
  · rintro ⟨h0, hz⟩
    rw [h0]
    omega
/-- More than the whole is a first accumulator past 2⁵⁹, or at it with something below. -/
theorem whole_lt_worth {acc : Mp Nat} (h : lowWorth acc 15 < unitWorth 0) :
    2 ^ 59 * unitWorth 0 < worth acc ↔ 2 ^ 59 < mget 0 acc 0 ∨ mget 0 acc 0 = 2 ^ 59 ∧ lowLeft acc = true := by
  rw [worth_eq_low, lowLeft_eq_true]
  rcases Nat.lt_trichotomy (mget 0 acc 0) (2 ^ 59) with hlt | heq | hgt
  · have := Nat.mul_le_mul_right (unitWorth 0) hlt
    rw [Nat.succ_mul] at this
    omega
  · rw [heq]
    omega
  · have := Nat.mul_le_mul_right (unitWorth 0) hgt
    rw [Nat.succ_mul] at this
    omega

section
variable {r : Root} {w : Word}

theorem acc_add (r : Root) (w : Word) : (r.add w).acc = accAfter r w := by
  simp only [Root.add, accAfter]
  generalize carryAcc _ 15 = acc
  split_ifs <;> rfl
/-- What a return makes of a root that is not in excess (R282). -/
theorem add_eq (hx : r.excess = false) : r.add w =
    if 2 ^ 59 < mget 0 (accAfter r w) 0 ∨ mget 0 (accAfter r w) 0 = 2 ^ 59 ∧ lowLeft (accAfter r w) = true then
      { r with acc := accAfter r w, excess := true, failed := true, cause := if r.failed then r.cause else 0x0D }
    else { r with acc := accAfter r w, quiet := mget 0 (accAfter r w) 0 == 2 ^ 59 && !lowLeft (accAfter r w) } := by
  simp only [Root.add, accAfter, lowLeft, hx, Bool.or_eq_true, Bool.and_eq_true, decide_eq_true_eq, beq_iff_eq, Bool.false_eq_true, if_false]
theorem excess_add (hx : r.excess = false) : (r.add w).excess = true ↔ 2 ^ 59 * unitWorth 0 < worth (accAfter r w) := by
  rw [whole_lt_worth (lowWorth_accAfter_lt r w), add_eq hx]
  split
  · next h => exact ⟨fun _ => h, fun _ => rfl⟩
  · next h => exact iff_of_false (by simp [hx]) h
theorem quiet_add (hx : r.excess = false) (hq : r.quiet = false) : (r.add w).quiet = true ↔ worth (accAfter r w) = 2 ^ 59 * unitWorth 0 := by
  rw [worth_eq_whole (lowWorth_accAfter_lt r w), add_eq hx]
  split
  · next h =>
    refine ⟨fun hquiet => absurd hquiet (by simp [hq]), fun ⟨h0, hz⟩ => ?_⟩
    simp [h0, hz] at h
  · simp
/-- A return adds its worth exactly, and the root's tests compare the sum with the whole (R282). -/
theorem add_worth (hx : r.excess = false) (hq : r.quiet = false) (hw : wScale w ≤ 15) {unit first : Nat} (hunit : unit = unitWorth (wScale w))
    (hfirst : first = unitWorth 0) : worth (r.add w).acc = worth r.acc + wAmount w * unit ∧
      ((r.add w).quiet = true ↔ worth r.acc + wAmount w * unit = 2 ^ 59 * first) ∧
      ((r.add w).excess = true ↔ 2 ^ 59 * first < worth r.acc + wAmount w * unit) := by
  rw [hunit, hfirst, ← worth_accAfter r hw, acc_add]
  exact ⟨rfl, quiet_add hx hq, excess_add hx⟩
end

/-! A return at its root (R289). -/

theorem rootEvent_ret {m : Mach} {d n k g : Nat} {w : Word} (h : (m.die d).rootQ[n]? = some (.ret k g w)) :
    rootEvent m d n = addReturn (m.modDie d fun x => { x with rootQ := x.rootQ.eraseIdx n }) (d * 64 + k) g w := by
  simp only [rootEvent, h]
/-- A return that no root of its tag takes is counted and discarded. -/
theorem addReturn_lost {m : Mach} {dom g : Nat} {w : Word} (h : (m.root dom).launch = none ∨ (m.root dom).gtag ≠ g) :
    addReturn m dom g w = { m with lostReturns := sat16 m.lostReturns } := by
  cases hl : (m.root dom).launch with
  | none => simp only [addReturn, hl]
  | some lid =>
    have hg : (m.root dom).gtag ≠ g := h.resolve_left (by simp [hl])
    simp only [addReturn, hl, if_pos hg]

end Sys2Proof.Proofs
end

section
/-! SUPPORT. Barrier objects and their updates (14 R271, R274, R276). -/
namespace Sys2Proof.Proofs
open Sys2Proof.Machine Sys2Proof.Safety Sys2Proof.Claims

/-! The fields of a record. -/

theorem leNat_lt (bs : List Byte) : leNat bs < 256 ^ bs.length := by
  induction bs with
  | nil => exact Nat.one_pos
  | cons b bs ih =>
    rw [leNat, List.length_cons, Nat.pow_succ]
    have := b.isLt
    omega
theorem fld_lt (bs : List Byte) (off n : Nat) : fld bs off n < 256 ^ n :=
  (leNat_lt _).trans_le (Nat.pow_le_pow_right (by decide) (List.length_take_le _ _))
theorem fld_leBytes_append (n v : Nat) (bs : List Byte) : fld (leBytes n v ++ bs) 0 n = v % 256 ^ n := by
  rw [fld, List.drop_zero, List.take_left' (length_leBytes _ _), leNat_leBytes]
/-- A field past a number is a field of what follows it. -/
theorem fld_past_leBytes {k off : Nat} (h : k ≤ off) (v : Nat) (bs : List Byte) (n : Nat) : fld (leBytes k v ++ bs) off n = fld bs (off - k) n := by
  rw [fld, fld, List.drop_append, List.drop_eq_nil_of_le (by rw [length_leBytes]; exact h), length_leBytes]
  rfl
/-- A run of bytes reads back as it was written. -/
theorem cgetN_cputN_same (m : List Host.Cell) (a : Nat) (bs : List Byte) : cgetN (cputN m a bs) a bs.length = bs := by
  induction bs generalizing m a with
  | nil => rfl
  | cons b bs ih =>
    rw [cputN, List.length_cons, cgetN, ih, cget_cputN_out _ _ _ _ (.inl (by omega)), cget_cput, if_pos rfl]

/-! The object in its 16 bytes (R271). -/

/-- Every field of an object fits its place. -/
def FitsObject (o : BarObj) : Prop :=
  o.expArr < 256 ^ 2 ∧ o.arr < 256 ^ 2 ∧ o.expBytes < 256 ^ 4 ∧ o.bytes < 256 ^ 4 ∧ o.tag < 2 ^ 15
theorem fitsObject_barrier (m : Mach) (key : Nat) : FitsObject (m.barrier key) :=
  ⟨fld_lt _ 0 2, fld_lt _ 2 2, fld_lt _ 4 4, fld_lt _ 8 4, Nat.mod_lt _ (by decide)⟩
theorem length_encode (o : BarObj) : o.encode.length = 16 := by simp [BarObj.encode, length_leBytes]

/-- The word of an object's phase and tag. -/
def phaseTag (o : BarObj) : Nat := (if o.phase then 2 ^ 15 else 0) + o.tag
theorem phaseTag_fields {o : BarObj} (h : o.tag < 2 ^ 15) :
    phaseTag o < 256 ^ 2 ∧ decide (phaseTag o / 2 ^ 15 = 1) = o.phase ∧ phaseTag o % 2 ^ 15 = o.tag := by
  unfold phaseTag
  cases o.phase with
  | true =>
    simp only [if_true, decide_eq_true_eq]
    omega
  | false =>
    simp only [Bool.false_eq_true, if_false, decide_eq_false_iff_not]
    omega
theorem encode_eq {o : BarObj} (h : o.tag < 2 ^ 15) : o.encode =
    leBytes 2 o.expArr ++ (leBytes 2 o.arr ++ (leBytes 4 o.expBytes ++ (leBytes 4 o.bytes ++ (leBytes 2 (phaseTag o) ++ [0, 0])))) := by
  rw [BarObj.encode, Nat.mod_eq_of_lt h]
  simp only [phaseTag, List.append_assoc]
theorem barrier_setBarrier (m : Mach) (key : Nat) {o : BarObj} (h : FitsObject o) : (m.setBarrier key o).barrier key = o := by
  obtain ⟨hea, ha, heb, hb, ht⟩ := h
  obtain ⟨hlt, hphase, htag⟩ := phaseTag_fields ht
  have hbytes : cgetN (cputN m.scratch key o.encode) key 16 = o.encode := by
    rw [← length_encode o]
    exact cgetN_cputN_same _ _ _
  simp only [Mach.barrier, Mach.setBarrier, hbytes]
  simp (disch := decide) only [encode_eq ht, fld_leBytes_append, fld_past_leBytes, Nat.reduceSub,
    Nat.mod_eq_of_lt hea, Nat.mod_eq_of_lt ha, Nat.mod_eq_of_lt heb, Nat.mod_eq_of_lt hb, Nat.mod_eq_of_lt hlt, hphase, htag]
theorem read_setBarrier (m : Mach) (key : Nat) (o : BarObj) {l : Loc} (hl : ∀ i, i < 16 → l ≠ .scratch (key + i)) :
    (m.setBarrier key o).read l = m.read l := by
  cases l with
  | hbm | host => rfl
  | scratch k =>
    refine cget_cputN_out _ _ _ _ ?_
    rw [length_encode]
    by_contra hin
    refine hl (k - key) (by omega) ?_
    rw [show key + (k - key) = k by omega]

/-! One update of an object (R274). -/

/-- An object with an update counted, before its phase is judged. -/
def counted (o : BarObj) (u : BarUpd) : BarObj :=
  if u.expect then { o with expBytes := u.bytes } else { o with arr := o.arr + u.arrivals, bytes := o.bytes + u.bytes }
/-- Both counts stand as expected. -/
def CountsMet (o : BarObj) : Prop := o.arr = o.expArr ∧ o.bytes = o.expBytes
theorem updated_met {o : BarObj} {u : BarUpd} (h : CountsMet (counted o u)) :
    updated o u = { counted o u with phase := !(counted o u).phase, arr := 0, bytes := 0 } := if_pos h
theorem updated_unmet {o : BarObj} {u : BarUpd} (h : ¬CountsMet (counted o u)) : updated o u = counted o u := if_neg h
theorem phase_counted (o : BarObj) (u : BarUpd) : (counted o u).phase = o.phase := by
  unfold counted
  split <;> rfl
/-- Only an object whose counts are met changes its phase. -/
theorem countsMet_of_phase_ne {o : BarObj} {u : BarUpd} (h : (updated o u).phase ≠ o.phase) : CountsMet (counted o u) := by
  by_contra hc
  rw [updated_unmet hc] at h
  exact h (phase_counted o u)

section
variable {o : BarObj} {u : BarUpd}

theorem overrun_arrive (he : u.expect = false) : overrun o u = none ↔ o.arr + u.arrivals ≤ o.expArr ∧ o.bytes + u.bytes ≤ o.expBytes := by
  unfold overrun
  rw [he]
  simp only [Bool.false_eq_true, if_false]
  split_ifs with ha hb
  · exact iff_of_false nofun (by omega)
  · exact iff_of_false nofun (by omega)
  · exact iff_of_true rfl (by omega)
theorem fitsObject_counted (h : FitsObject o) (ho : overrun o u = none) (hu : u.bytes < 2 ^ 32) : FitsObject (counted o u) := by
  obtain ⟨hea, ha, heb, hb, ht⟩ := h
  unfold counted
  cases he : u.expect with
  | true => exact ⟨hea, ha, hu, hb, ht⟩
  | false =>
    obtain ⟨hle, hbe⟩ := (overrun_arrive he).1 ho
    exact ⟨hea, hle.trans_lt hea, heb, hbe.trans_lt heb, ht⟩
theorem fitsObject_updated (h : FitsObject o) (ho : overrun o u = none) (hu : u.bytes < 2 ^ 32) : FitsObject (updated o u) := by
  have hfits := fitsObject_counted h ho hu
  by_cases hc : CountsMet (counted o u)
  · obtain ⟨hea, -, heb, -, ht⟩ := hfits
    rw [updated_met hc]
    exact ⟨hea, Nat.two_pow_pos 16, heb, Nat.two_pow_pos 32, ht⟩
  · rwa [updated_unmet hc]
end

/-- A context that waits at an object whose phase has flipped goes on (R275). -/
def wokenAtObject (key : Nat) (c : Ctx) : Ctx := if c.bwait = some (key, false) then { c with bwait := some (key, true) } else c
/-- The machine after an update of an object: its bytes, and with a flip the BWAITs it wakes. -/
def objectUpdated (m : Mach) (u : BarUpd) (key : Nat) : Mach := m.advanceBarrier key (counted (m.barrier key) u)

section
variable {m : Mach} {u : BarUpd} {key : Nat}

theorem objectUpdated_met (h : CountsMet (counted (m.barrier key) u)) :
    objectUpdated m u key = { m.setBarrier key (updated (m.barrier key) u) with ctxs := m.ctxs.map fun x => (x.1, wokenAtObject key x.2) } := by
  rw [updated_met h]
  exact if_pos h
theorem objectUpdated_unmet (h : ¬CountsMet (counted (m.barrier key) u)) :
    objectUpdated m u key = m.setBarrier key (updated (m.barrier key) u) := by
  rw [updated_unmet h]
  exact if_neg h
theorem scratch_objectUpdated : (objectUpdated m u key).scratch = (m.setBarrier key (updated (m.barrier key) u)).scratch := by
  by_cases h : CountsMet (counted (m.barrier key) u)
  · rw [objectUpdated_met h]
  · rw [objectUpdated_unmet h]
theorem barrier_objectUpdated (ho : overrun (m.barrier key) u = none) (hu : u.bytes < 2 ^ 32) :
    (objectUpdated m u key).barrier key = updated (m.barrier key) u := by
  rw [Mach.barrier, scratch_objectUpdated]
  exact barrier_setBarrier m key (fitsObject_updated (fitsObject_barrier m key) ho hu)
theorem read_objectUpdated {l : Loc} (hl : ∀ i, i < 16 → l ≠ .scratch (key + i)) : (objectUpdated m u key).read l = m.read l := by
  rw [← read_setBarrier m key (updated (m.barrier key) u) hl]
  by_cases h : CountsMet (counted (m.barrier key) u)
  · rw [objectUpdated_met h]
    cases l <;> rfl
  · rw [objectUpdated_unmet h]
/-- A flip wakes every BWAIT on the object. -/
theorem bwait_objectUpdated {j : Nat} (hw : (m.ctx j).bwait = some (key, false))
    (hflip : (updated (m.barrier key) u).phase ≠ (m.barrier key).phase) : ((objectUpdated m u key).ctx j).bwait = some (key, true) := by
  have hctx : (objectUpdated m u key).ctx j = wokenAtObject key (m.ctx j) := by
    rw [objectUpdated_met (countsMet_of_phase_ne hflip)]
    exact mget_map ({} : Ctx) (wokenAtObject key) rfl m.ctxs j
  rw [hctx, wokenAtObject, if_pos hw]

/-- An update that overruns is refused with its FAULT_INFO; any other is counted. -/
theorem updateBarrier_eq : m.updateBarrier key u.expect u.arrivals u.bytes =
    match overrun (m.barrier key) u with
    | some info => .error info
    | none => .ok (objectUpdated m u key) := by
  unfold Mach.updateBarrier overrun objectUpdated counted
  cases u.expect with
  | true =>
    simp only [if_true, gt_iff_lt]
    split <;> rfl
  | false =>
    simp only [Bool.false_eq_true, if_false, gt_iff_lt, Nat.zero_add]
    split
    · rfl
    · split <;> rfl
end

/-! The cases of Table 14-13, in row order. -/

section
variable {s : State} {lid : Word} {u : BarUpd}

theorem applyBarrier_reset (hr : (s.m.core u.core).inReset = true) : applyBarrier s.m lid u = .error { cause := 0x10, addr := u.addr } :=
  if_pos hr
/-- An update of an object that is away is recorded (R276, R277). -/
theorem applyBarrier_away (hr : (s.m.core u.core).inReset = false) (ha : Away s lid u) : applyBarrier s.m lid u =
    .ok (s.m.modLaunch lid fun l => { l with deferred := l.deferred ++ [⟨u.core, u.seat, u.expect, u.arrivals, u.bytes, u.regionOff⟩] }) := by
  obtain ⟨l, hl, hcase⟩ := ha
  refine (if_neg (by simp [hr])).trans (if_pos ?_)
  rw [hl]
  rcases hcase with hp | ⟨x, hx, hno⟩ | ⟨st, hst, hres⟩
  · simp [hp]
  · have hold : (l.oldSeats.any fun y => y.no == u.seat) = true := List.any_eq_true.2 ⟨x, hx, beq_iff_eq.2 hno⟩
    simp [hold]
  · simp [hst, hres]
/-- An update of an object in place meets its tag, then R274. -/
theorem applyBarrier_inPlace (hr : (s.m.core u.core).inReset = false) (hp : InPlace s lid u) (he : ∀ l ∈ keyLocs u.key, s.m.errAt l = false) :
    applyBarrier s.m lid u = if (s.m.barrier u.key).tag ≠ u.gtag then .error { cause := 0x10, addr := u.addr } else
      match overrun (s.m.barrier u.key) u with
      | some info => .error { cause := 0x0B, addr := u.addr, info := info }
      | none => .ok (objectUpdated s.m u u.key) := by
  obtain ⟨l, st, hl, hphase, hold, hst, hres, hkey⟩ := hp
  have hold' : (l.oldSeats.any fun y => y.no == u.seat) = false := by simpa using hold
  have herr : (keyLocs u.key).any s.m.errAt = false := by simpa using he
  unfold applyBarrier
  rw [hr, hl]
  simp only [Option.bind_some, hst, Option.elim_some, ← hkey, Option.any_some, hold', hres, herr, updateBarrier_eq, Bool.or_false, beq_iff_eq, hphase,
    Bool.not_true, Bool.false_eq_true, if_false]
  cases overrun (s.m.barrier u.key) u <;> rfl

variable (hr : (s.m.core u.core).inReset = false) (hp : InPlace s lid u) (he : ∀ l ∈ keyLocs u.key, s.m.errAt l = false)
include hr hp he

theorem applyBarrier_stale (ht : (s.m.barrier u.key).tag ≠ u.gtag) : applyBarrier s.m lid u = .error { cause := 0x10, addr := u.addr } :=
  (applyBarrier_inPlace hr hp he).trans (if_pos ht)
theorem applyBarrier_overruns (ht : (s.m.barrier u.key).tag = u.gtag) {info : Word} (ho : overrun (s.m.barrier u.key) u = some info) :
    applyBarrier s.m lid u = .error { cause := 0x0B, addr := u.addr, info := info } := by
  rw [applyBarrier_inPlace hr hp he, if_neg (not_not_intro ht), ho]
theorem applyBarrier_applied (ht : (s.m.barrier u.key).tag = u.gtag) (ho : overrun (s.m.barrier u.key) u = none) :
    applyBarrier s.m lid u = .ok (objectUpdated s.m u u.key) := by
  rw [applyBarrier_inPlace hr hp he, if_neg (not_not_intro ht), ho]
end

/-! The update of a waiting BARRIVE or BEXPECT. -/

section
variable {s : State} {cx : Nat} {u : BarUpd}

theorem updateReady_of_due {c : Ctx} (h : UpdateDue c u) : c.updateReady u = true := by
  obtain ⟨harrive, hexpect⟩ := h
  unfold Ctx.updateReady
  cases he : u.expect with
  | true => simpa using hexpect he
  | false => simpa [Ctx.busyOut] using harrive he

variable (hb : (s.m.ctx cx).barrier = some u) (hd : UpdateDue (s.m.ctx cx) u)
include hb hd

theorem barrierUpdate_refused {f : FaultRec} (h : applyBarrier s.m ((s.m.ctx cx).launch.getD 0) u = .error f) :
    exec (.barrierUpdate cx) s = .next (put s (s.m.modCtx cx fun c => { c with barrier := none, await := some (.faulted f) })) := by
  have hat : barrierAt s.m cx = s.m.modCtx cx fun c => { c with barrier := none, await := some (.faulted f) } := by
    simp only [barrierAt, hb, updateReady_of_due hd, h, Bool.not_true, Bool.false_eq_true, if_false]
  exact congrArg (fun m => Host.Outcome.next (put s m)) hat
theorem barrierUpdate_answered {m : Mach} (h : applyBarrier s.m ((s.m.ctx cx).launch.getD 0) u = .ok m) :
    exec (.barrierUpdate cx) s = .next (put s (m.modCtx cx fun c => { c with barrier := none, await := some (.answered true false 0) })) := by
  have hat : barrierAt s.m cx = m.modCtx cx fun c => { c with barrier := none, await := some (.answered true false 0) } := by
    simp only [barrierAt, hb, updateReady_of_due hd, h, Bool.not_true, Bool.false_eq_true, if_false]
  exact congrArg (fun m => Host.Outcome.next (put s m)) hat
end

/-- The answer of an update changes no wait at an object. -/
theorem bwait_answered (m : Mach) (cx j : Nat) (a : Option Await) :
    ((m.modCtx cx fun c => { c with barrier := none, await := a }).ctx j).bwait = (m.ctx j).bwait := by
  by_cases h : cx = j
  · subst h
    rw [ctx_modCtx_same]
  · rw [ctx_modCtx_ne _ _ h]

/-- Settles O52: the rows of Table 14-13 in order, then one update of the object in its bytes; and at a root, carrying keeps the worth and leaves
less than one unit below the first accumulator, so that its tests compare worths. -/
theorem barriersAndRoots : Obligations.BarriersAndRoots := by
  refine ⟨fun s cx u hb hd => ⟨fun hr => ?reset, fun hr ha => ?away, fun hr hp he => ?inPlace⟩, fun r w hx hq hw => ?adds, fun s d n k g w hn => ?returns⟩
  case reset => exact barrierUpdate_refused hb hd (applyBarrier_reset hr)
  case away => exact barrierUpdate_answered hb hd (applyBarrier_away hr ha)
  case inPlace =>
    refine ⟨fun ht => barrierUpdate_refused hb hd (applyBarrier_stale hr hp he ht), fun ht =>
      ⟨fun info ho => barrierUpdate_refused hb hd (applyBarrier_overruns hr hp he ht ho), fun ho hu =>
        ⟨_, barrierUpdate_answered hb hd (applyBarrier_applied hr hp he ht ho), ?barrier, ?await, ?object, fun j hj hflip => ?wakes, fun l hl => ?frame⟩⟩⟩
    case barrier => exact congrArg Ctx.barrier (ctx_modCtx_same _ _ _)
    case await => exact congrArg Ctx.await (ctx_modCtx_same _ _ _)
    case object => exact barrier_objectUpdated ho hu
    case wakes => exact (bwait_answered _ _ _ _).trans (bwait_objectUpdated hj hflip)
    case frame => exact (read_modCtx _ _ _ _).trans (read_objectUpdated hl)
  case adds =>
    generalize hfirst : 2 ^ (59 * 15) = first
    exact add_worth hx hq hw (pow_eq_unitWorth rfl) (hfirst.symm.trans (pow_eq_unitWorth rfl))
  case returns =>
    have hexec : exec (.rootReturn d n) s = .next (put s (rootEvent s.m d n)) := rfl
    rw [hexec, rootEvent_ret hn]
    refine ⟨fun lid hl hg hquiet hexcess => ?_, fun hlost => by rw [addReturn_lost hlost]⟩
    rw [← hg, addReturn_more hl hquiet hexcess]

end Sys2Proof.Proofs
end

section
/-! SUPPORT. What a G slot makes of its fresh bundle, for the instructions of weight and of the schedulers: requests, frozen writes beside
another change, and the wait for the accesses of the context (07 R122; 15 R292; 17 R330). -/
namespace Sys2Proof.Proofs
open Sys2Proof.Machine Sys2Proof.Safety Sys2Proof.Claims

/-! Requests. -/

/-- A bundle of one slot whose only outcome is its requests, none an IDLE, drops what else it did: it has issued, and the requests are made
over the machine from before it (17 R330). -/
theorem run_asks {s : State} (hs : Solo s) (k : Slot) (i : Instr) (f : State → State) {as : List Ask} (hne : as.isEmpty = false)
    (hidle : as.any Ask.isIdle = false) (hi : (f (begun k s)).issue = { (begun k s).issue with asks := as })
    (ha : (f (begun k s)).agenda = s.agenda) :
    runSlot k i f s = .next (asked s ((asksNow as).foldl (applyAsk s.issue.cx) s.m)) := by
  obtain ⟨L, hL⟩ := newLatch_only_latches k i (f (begun k s))
  have hissue : (newLatch k i (f (begun k s))).issue =
      { cx := s.issue.cx, len := (begun k s).issue.len, yield := s.issue.yield, offset := s.issue.offset,
        replayed := s.issue.replayed, old := some s.m, asks := as, latches := L } := by rw [hL, hi, begun_issue hs]
  rw [runSlot_solo hs k i f (by rw [hissue])]
  unfold finish asked
  simp only [pre, hissue, mergeBinds, bindClashes, firstFault, bgetStalls, hne, List.append_nil, List.foldl_nil, List.flatMap_nil, List.any_nil,
    Option.getD_some, Bool.false_eq_true, if_false]
  rw [askCtx_of_no_idle hidle, hL]
  simp only [ha]

/-! What a G slot makes of its fresh bundle. -/

/-- The instruction is a G slot that makes `t` of its fresh bundle. -/
def Makes (s : State) (i : Instr) (t : State) : Prop := ∃ f, exec i s = runSlot .g i f s ∧ f (begun .g s) = t

section
variable {s : State} (hs : Solo s) {i : Instr}
include hs

theorem Makes.stalls (h : Makes s i (stallOn .internal (begun .g s))) : exec i s = .next (waiting true s) := by
  obtain ⟨f, he, hf⟩ := h
  rw [he]
  exact run_stalled hs .g i f hf
theorem Makes.faults {fr : FaultRec} (h : Makes s i (faultAt .g fr (begun .g s))) : exec i s = .next (trapped .g fr s) := by
  obtain ⟨f, he, hf⟩ := h
  rw [he]
  exact run_faulted hs .g i f fr hf
theorem Makes.retires {m : Mach} (h : Makes s i { begun .g s with m := m }) (hpc : (m.ctx s.issue.cx).pc = (me s).pc) :
    ∃ t, exec i s = .next t ∧ Retires .g i (nextPc s .g) s m t := by
  obtain ⟨f, he, hf⟩ := h
  rw [he]
  exact run_clean hs .g i f m hf hpc
/-- A request, whatever the slot did to the machine before it. -/
theorem Makes.asks {a : Ask} {m : Mach} (h : Makes s i (askFor a { begun .g s with m := m })) (ha : a.isIdle = false) :
    exec i s = .next (asked s (applyAsk s.issue.cx s.m a)) := by
  obtain ⟨f, he, hf⟩ := h
  rw [he, run_asks hs .g i f (as := [a]) rfl (by simp [ha]) (by rw [hf, askFor, begun_issue hs]; rfl) (by rw [hf]; rfl), asksNow_single]
  rfl

end

/-! Frozen writes beside another change of the context (07 R122). -/

/-- Two changes of the issuing context are one. -/
theorem onMe_onMe (s : State) (m : Mach) (f h : Ctx → Ctx) : onMe s (onMe s m f) h = onMe s m fun c => h (f c) := by
  simp [onMe, Mach.modCtx, Mach.setCtx, Mach.ctx]
theorem pc_onMe_of {s : State} {m : Mach} {f : Ctx → Ctx} (hf : ∀ c, (f c).pc = c.pc) (hm : (m.ctx s.issue.cx).pc = (me s).pc) :
    ((onMe s m f).ctx s.issue.cx).pc = (me s).pc := (pc_onMe hf).trans hm
/-- A write to a register that discards adds nothing. -/
theorem andWrites_none (c : Ctx) (v : Word) : andWrites c none v = c := by simp [andWrites]

section
variable {s : State} {k : Slot} {r : RegRef} (hr : Writable s r)
include hr

/-- A frozen write of a slot that has changed the machine. -/
theorem frozenTo_over (m : Mach) (v : Word) : frozenTo r 1 v { begun k s with m := m } =
    { begun k s with m := match r.dest? with | none => m | some _ => onMe s m fun c => andWrites c r.dest? v } := by
  unfold frozenTo
  cases hd : r.dest? with
  | none => rfl
  | some q =>
    have hw : writesFrozen q { begun k s with m := m } = { begun k s with m := m } := writesFrozen_free _ _ fun q' hq' => by
      rw [dest?_eq hq']
      exact hr q hd
    simp only [hw]
    rfl
/-- A frozen write after a change of the context, and one before it. -/
theorem frozenTo_onMe (m : Mach) (f : Ctx → Ctx) (v : Word) : frozenTo r 1 v { begun k s with m := onMe s m f } =
    { begun k s with m := onMe s m fun c => andWrites (f c) r.dest? v } := by
  rw [frozenTo_over hr]
  cases r.dest? with
  | none => simp only [andWrites_none]
  | some q => simp only [onMe_onMe]
theorem onCtx_frozenTo (m : Mach) (f : Ctx → Ctx) (v : Word) : onCtx f (frozenTo r 1 v { begun k s with m := m }) =
    { begun k s with m := onMe s m fun c => f (andWrites c r.dest? v) } := by
  rw [frozenTo_over hr]
  cases r.dest? with
  | none => simp only [andWrites_none]; rfl
  | some q => exact congrArg (fun m => { begun k s with m := m }) (onMe_onMe ..)
/-- A G slot that changes the machine and queues one frozen write. -/
theorem Makes.writes (hs : Solo s) {i : Instr} {m : Mach} {v : Word} (h : Makes s i (frozenTo r 1 v { begun .g s with m := m }))
    (hpc : (m.ctx s.issue.cx).pc = (me s).pc) :
    ∃ t, exec i s = .next t ∧ Retires .g i (nextPc s .g) s (onMe s m fun c => andWrites c r.dest? v) t := by
  rw [frozenTo_over hr] at h
  cases hd : r.dest? with
  | none =>
    rw [hd] at h
    obtain ⟨t, ht, hret⟩ := h.retires hs hpc
    refine ⟨t, ht, retires_congr hret (fun j => ?_) rfl⟩
    simp only [andWrites_none, onMe]
    by_cases hj : s.issue.cx = j
    · rw [← hj, ctx_modCtx_same]
    · rw [ctx_modCtx_ne _ _ hj]
  | some q =>
    rw [hd] at h
    exact h.retires hs (pc_onMe_of (fun _ => rfl) hpc)

end

/-! The accesses of the context (15 R292). -/

theorem busyOut_eq_false_iff (s : State) : (me s).busyOut = false ↔ Drained s := by simp [Ctx.busyOut, Drained]

theorem afterAccesses_begun {s : State} (hs : Solo s) (k : Slot) (f : State → State) (hd : Drained s) : afterAccesses f (begun k s) = f (begun k s) := by
  rw [afterAccesses, preCtx_begun, (busyOut_eq_false_iff s).2 hd, if_neg Bool.false_ne_true, whenFree_begun hs]
theorem afterAccesses_busy {s : State} (k : Slot) (f : State → State) (hd : ¬Drained s) : afterAccesses f (begun k s) = stallOn .internal (begun k s) := by
  have hbusy : (me s).busyOut = true := Bool.eq_true_of_not_eq_false fun h => hd ((busyOut_eq_false_iff s).1 h)
  rw [afterAccesses, preCtx_begun, hbusy, if_pos rfl, whenFree, stallOn_internal_issue]
  exact if_pos rfl

/-! Weight (15 R281, R287). -/

theorem ctx_touch (m : Mach) (r : RootRef) (j : Nat) : (m.touch r).ctx j = m.ctx j := by
  rw [touch_launches]
  rfl
theorem ctx_returnWeight (m : Mach) (r : RootRef) (w : Word) (j : Nat) : (m.returnWeight r w).ctx j = m.ctx j := by
  rw [returnWeight_frame]
  rfl
theorem pc_moved (s : State) : ((moved s).ctx s.issue.cx).pc = (me s).pc := congrArg Ctx.pc (ctx_touch ..)
/-- A slot that splits QW goes on with the two parts, the move marked; weight that does not split is its fault (R281, R303). -/
theorem splitQw_some {s : State} {keep give : Word} (h : splitWeight (me s).qw = some (keep, give)) (k : Slot) (f : Word → Word → State → State) :
    splitQw k f (begun k s) = f keep give { begun k s with m := moved s } := by
  rw [splitQw, preCtx_begun, h]
  rfl
theorem splitQw_none {s : State} (h : splitWeight (me s).qw = none) (k : Slot) (f : Word → Word → State → State) :
    splitQw k f (begun k s) = faultAt k { cause := 0x0C, info := (me s).qw } (begun k s) := by
  rw [splitQw, preCtx_begun, h]
theorem writesFrozen_begun {s : State} {k : Slot} {r : RegRef} (h : Writable s r) : writesFrozen r (begun k s) = begun k s :=
  writesFrozen_free _ _ h

end Sys2Proof.Proofs
end

section
/-! SUPPORT. QSPLIT, QJOIN, QRET and QREAD (15 R281, R292 to R296, R298). -/
namespace Sys2Proof.Proofs
open Sys2Proof.Machine Sys2Proof.Safety Sys2Proof.Claims

/-! QSPLIT, QRET and QREAD over their fresh bundles. -/

section
variable {s : State} {g : GSlot}

theorem makes_qsplit (hd : Writable s (reg s g.sd)) :
    Makes s (.qsplit g) (afterAccesses (splitQw .g fun keep give t => setQw keep (wrS g.sd 1 give t)) (begun .g s)) := by
  have hexec : exec (.qsplit g) s = execQsplit g s := rfl
  unfold execQsplit runG at hexec
  refine ⟨_, hexec, ?_⟩
  rw [sr_begun_eq_reg, writesFrozen_begun hd]
theorem makes_qret (ha : Free s (reg s g.sa)) : Makes s (.qret g) (afterAccesses (giveBack ((me s).s g.sa)) (begun .g s)) := by
  have hexec : exec (.qret g) s = execQret g s := rfl
  unfold execQret runG at hexec
  refine ⟨_, hexec, ?_⟩
  rw [sr_begun_eq_reg, reads_begun (List.forall_mem_singleton.2 ha), rs_begun]
theorem makes_qretQw : Makes s (.qretQw g) (afterAccesses (fun t => setQw 0 (giveBack (preCtx t).qw t)) (begun .g s)) := by
  have hexec : exec (.qretQw g) s = execQretQw g s := rfl
  unfold execQretQw runG at hexec
  exact ⟨_, hexec, rfl⟩
theorem makes_qread : Makes s (.qread g)
    (if g.disp = 0 then giveTo (reg s g.sd) (me s).qw (begun .g s)
     else pushAccess { uid := 0, kind := .readRoot g.disp.toNat (reg s g.sd).dest? } (pendOn (reg s g.sd) (begun .g s))) := by
  have hexec : exec (.qread g) s = execQread g s := rfl
  unfold execQread runG at hexec
  exact ⟨_, hexec, rfl⟩

end

section
variable {s : State} (hs : Solo s) {g : GSlot}
include hs

theorem qsplit_splits (hd : Writable s (reg s g.sd)) (hq : Drained s) {keep give : Word} (hw : splitWeight (me s).qw = some (keep, give)) :
    ∃ t, exec (.qsplit g) s = .next t ∧ Retires .g (.qsplit g) (nextPc s .g) s
      (onMe s (moved s) fun c => { andWrites c (reg s g.sd).dest? give with qw := keep }) t := by
  have h := makes_qsplit hd
  have ht : setQw keep (wrS g.sd 1 give { begun .g s with m := moved s }) = _ := onCtx_frozenTo hd (moved s) _ give
  rw [afterAccesses_begun hs _ _ hq, splitQw_some hw, ht] at h
  exact h.retires hs (pc_onMe_of (fun _ => rfl) (pc_moved s))
theorem qsplit_faults (hd : Writable s (reg s g.sd)) (hq : Drained s) (hw : splitWeight (me s).qw = none) :
    exec (.qsplit g) s = .next (trapped .g { cause := 0x0C, info := (me s).qw } s) := by
  have h := makes_qsplit hd
  rw [afterAccesses_begun hs _ _ hq, splitQw_none hw] at h
  exact h.faults hs
theorem qret_returns (ha : Free s (reg s g.sa)) (hq : Drained s) :
    ∃ t, exec (.qret g) s = .next t ∧ Retires .g (.qret g) (nextPc s .g) s (s.m.returnWeight (me s).qwRoot ((me s).s g.sa)) t := by
  have h := makes_qret ha
  rw [afterAccesses_begun hs _ _ hq] at h
  exact Makes.retires hs h (congrArg Ctx.pc (ctx_returnWeight ..))
theorem qretQw_returns (hq : Drained s) :
    ∃ t, exec (.qretQw g) s = .next t ∧
      Retires .g (.qretQw g) (nextPc s .g) s (onMe s (s.m.returnWeight (me s).qwRoot (me s).qw) fun c => { c with qw := 0 }) t := by
  have h := makes_qretQw (s := s) (g := g)
  rw [afterAccesses_begun hs _ _ hq] at h
  exact Makes.retires hs (m := onMe s (s.m.returnWeight (me s).qwRoot (me s).qw) fun c => { c with qw := 0 }) h
    (pc_onMe_of (fun _ => rfl) (congrArg Ctx.pc (ctx_returnWeight ..)))
theorem qread_gives (ho : Open s (reg s g.sd)) :
    ∃ t, exec (.qread g) s = .next t ∧ Retires .g (.qread g) (nextPc s .g) s
      (if g.disp = 0 then gives s (reg s g.sd) (me s).qw
       else outAfter s (reg s g.sd).dest? { uid := 0, kind := .readRoot g.disp.toNat (reg s g.sd).dest? }) t := by
  have h := makes_qread (s := s) (g := g)
  split at h
  · next hg =>
    rw [giveTo_begun .g _ _ ho] at h
    rw [if_pos hg]
    exact h.retires hs (pc_outAfter ..)
  · next hg =>
    rw [push_pend .g _ _ ho] at h
    rw [if_neg hg]
    exact h.retires hs (pc_outAfter ..)

end

/-! QJOIN (R295). -/

/-- What QJOIN of the word `w` makes of its fresh bundle. -/
def qjoinEffect (s : State) (g : GSlot) (w : Word) : State :=
  if wAmount w = 0 then wrP (lo3 g.sd) 1 true (begun .g s)
  else if wAmount (me s).qw = 0 then wrP (lo3 g.sd) 1 true (setQw w (moveWeight (begun .g s)))
  else if wScale w = wScale (me s).qw ∧ wAmount (me s).qw + wAmount w < 2 ^ 60 then
    wrP (lo3 g.sd) 1 true (setQw (mkWeight (wScale (me s).qw) (wAmount (me s).qw + wAmount w)) (moveWeight (begun .g s)))
  else afterAccesses (fun t => wrP (lo3 g.sd) 1 false (giveBack w t)) (begun .g s)

section
variable {s : State} (hs : Solo s) {g : GSlot} (ha : Free s (reg s g.sa)) (hp : Writable s (pOf g))
include hs ha hp

theorem makes_qjoin : Makes s (.qjoin g) (qjoinEffect s g ((me s).s g.sa)) := by
  have hexec : exec (.qjoin g) s = execQjoin g s := rfl
  unfold execQjoin runG at hexec
  refine ⟨_, hexec, ?_⟩
  dsimp only
  rw [sr_begun_eq_reg, reads_begun (List.forall_mem_singleton.2 ha), show pref (lo3 g.sd) = pOf g from rfl, writesFrozen_begun hp,
    whenFree_begun hs]
  rfl
/-- QW becomes `q`, and p is true. -/
theorem qjoin_keeps {q : Word} (h : qjoinEffect s g ((me s).s g.sa) = wrP (lo3 g.sd) 1 true (setQw q (moveWeight (begun .g s)))) :
    ∃ t, exec (.qjoin g) s = .next t ∧ Retires .g (.qjoin g) (nextPc s .g) s
      (onMe s (moved s) fun c => { andWrites c (pOf g).dest? 1 with qw := q }) t := by
  have hm := makes_qjoin hs ha hp
  have ht : wrP (lo3 g.sd) 1 true (setQw q (moveWeight (begun .g s))) = _ := frozenTo_onMe hp (moved s) (fun c => { c with qw := q }) 1
  rw [h, ht] at hm
  exact hm.retires hs (pc_onMe_of (fun _ => rfl) (pc_moved s))
theorem qjoin_empty (hw : wAmount ((me s).s g.sa) = 0) : ∃ t, exec (.qjoin g) s = .next t ∧
    Retires .g (.qjoin g) (nextPc s .g) s (onMe s s.m fun c => andWrites c (pOf g).dest? 1) t := by
  have hm := makes_qjoin hs ha hp
  rw [qjoinEffect, if_pos hw] at hm
  exact Makes.writes hp hs (m := s.m) hm rfl

variable (hw : wAmount ((me s).s g.sa) ≠ 0) (hq : wAmount (me s).qw ≠ 0)
  (hsum : ¬(wScale ((me s).s g.sa) = wScale (me s).qw ∧ wAmount (me s).qw + wAmount ((me s).s g.sa) < 2 ^ 60))
include hw hq hsum

theorem makes_qjoin_back : Makes s (.qjoin g)
    (afterAccesses (fun t => wrP (lo3 g.sd) 1 false (giveBack ((me s).s g.sa) t)) (begun .g s)) := by
  have hm := makes_qjoin hs ha hp
  rwa [qjoinEffect, if_neg hw, if_neg hq, if_neg hsum] at hm
theorem qjoin_returns (hd : Drained s) : ∃ t, exec (.qjoin g) s = .next t ∧ Retires .g (.qjoin g) (nextPc s .g) s
    (onMe s (s.m.returnWeight (me s).qwRoot ((me s).s g.sa)) fun c => andWrites c (pOf g).dest? 0) t := by
  have hm := makes_qjoin_back hs ha hp hw hq hsum
  rw [afterAccesses_begun hs _ _ hd] at hm
  exact Makes.writes hp hs hm (congrArg Ctx.pc (ctx_returnWeight ..))
theorem qjoin_waits (hd : ¬Drained s) : exec (.qjoin g) s = .next (waiting true s) := by
  have hm := makes_qjoin_back hs ha hp hw hq hsum
  rw [afterAccesses_busy _ _ hd] at hm
  exact hm.stalls hs

end

/-- Settles O31: each instruction by what it makes of its fresh bundle; QJOIN by its cases in order. -/
theorem weightInstructions : Obligations.WeightInstructions := by
  refine ⟨fun g s hs hd => ⟨fun hw => ?split, fun ha => ?ret, ?retQw⟩,
    fun g s hs => ⟨fun ha hp => ⟨fun ⟨hw, hq, hsum⟩ => qjoin_waits hs ha hp hw hq hsum, fun hback => ?join⟩, qread_gives hs⟩,
    fun g s hs hd => ⟨fun keep give hw => qsplit_splits hs hw hd, fun hw => qsplit_faults hs hw hd, fun ha => qret_returns hs ha hd,
      qretQw_returns hs hd⟩⟩
  case split => exact Makes.stalls hs (afterAccesses_busy .g _ hd ▸ makes_qsplit hw)
  case ret => exact Makes.stalls hs (afterAccesses_busy .g _ hd ▸ makes_qret ha)
  case retQw => exact Makes.stalls hs (afterAccesses_busy .g _ hd ▸ makes_qretQw)
  case join =>
    split_ifs with hw hq hsum
    · exact qjoin_empty hs ha hp hw
    · exact qjoin_keeps hs ha hp (by rw [qjoinEffect, if_neg hw, if_pos hq])
    · exact qjoin_keeps hs ha hp (by rw [qjoinEffect, if_neg hw, if_neg hq, if_pos hsum])
    · exact qjoin_returns hs ha hp hw hq hsum (hback ⟨hw, hq, hsum⟩)

end Sys2Proof.Proofs
end

section
/-! SUPPORT. QWAIT (15 R292, R297). -/
namespace Sys2Proof.Proofs
open Sys2Proof.Machine Sys2Proof.Safety Sys2Proof.Claims

/-- The acquire of a QWAIT that finds its unit quiet. -/
def quietAcquire : Access := { uid := 0, kind := .fence, blocksLater := true, dropL1 := true }
/-- What QWAIT makes of its fresh bundle once the accesses of its context are done: its answer, or else its checks and its request. -/
def qwaitEffect (s : State) (g : GSlot) : State :=
  match (me s).await with
  | some .asked => askFor .hold (begun .g s)
  | some (.faulted f) => faultAt .g f (begun .g s)
  | some (.answered ok _ w) =>
    let t := wrP (lo3 g.sd) 1 ok (setQw w (begun .g s))
    if ok then pushAccess quietAcquire t else t
  | none =>
    if wAmount (me s).qw = 0 && !isWaiter (begun .g s) then faultAt .g (quietFault 1) (begun .g s)
    else if (myLaunch s).any (fun l => l.rootRef s.m != (me s).qwRoot) then faultAt .g (quietFault 3) (begun .g s)
    else askFor (.qwait (me s).qw) (begun .g s)

/-- An access queued beside a change of QW and a frozen write. -/
theorem pushAccess_answered (s : State) (k : Slot) (a : Access) (d : Option RegRef) (v w : Word) :
    pushAccess a { begun k s with m := onMe s s.m fun c => { andWrites c d v with qw := w } } =
      { begun k s with m := onMe s (outAfter s none a) fun c => { andWrites c d v with qw := w } } := by
  simp [pushAccess, outAfter, onMe, andWrites, Mach.nextUid, Mach.modCtx, Mach.setCtx, Mach.ctx]

/-- The registered waiter of its launch's root, or the context that the root has answered. -/
theorem isWaiter_begun {s : State} {l : Launch} (hl : myLaunch s = some l) (k : Slot) : isWaiter (begun k s) = true ↔
    (s.m.root l.domain).waiter = some s.issue.cx ∨ (s.m.root l.domain).granted = some s.issue.cx := by
  simp [isWaiter, hl]

section
variable {s : State} (hs : Solo s) (hd : Drained s) {g : GSlot} (hp : Writable s (pOf g))
include hs hd hp

theorem makes_qwait : Makes s (.qwait g) (qwaitEffect s g) := by
  have hexec : exec (.qwait g) s = execQwait g s := rfl
  unfold execQwait runG at hexec
  refine ⟨_, hexec, ?_⟩
  dsimp only
  rw [show pref (lo3 g.sd) = pOf g from rfl, writesFrozen_begun hp, afterAccesses_begun hs _ _ hd]
  rfl
theorem qwait_faulted {f : FaultRec} (hw : (me s).await = some (.faulted f)) : exec (.qwait g) s = .next (trapped .g f s) := by
  have h := makes_qwait hs hd hp
  rw [qwaitEffect, hw] at h
  exact Makes.faults hs h
theorem qwait_quiet {refused : Bool} {w : Word} (hw : (me s).await = some (.answered true refused w)) :
    ∃ t, exec (.qwait g) s = .next t ∧ Retires .g (.qwait g) (nextPc s .g) s
      (onMe s (outAfter s none quietAcquire) fun c => { andWrites c (pOf g).dest? 1 with qw := w }) t := by
  have h := makes_qwait hs hd hp
  rw [qwaitEffect, hw] at h
  have ht : wrP (lo3 g.sd) 1 true (setQw w (begun .g s)) = _ := frozenTo_onMe hp s.m (fun c => { c with qw := w }) 1
  dsimp only at h
  rw [if_pos rfl, ht] at h
  have hpush : pushAccess quietAcquire _ = _ := pushAccess_answered s .g quietAcquire (pOf g).dest? 1 w
  exact Makes.retires hs (hpush ▸ h) (pc_onMe_of (fun _ => rfl) (pc_outAfter ..))
theorem qwait_notQuiet {refused : Bool} {w : Word} (hw : (me s).await = some (.answered false refused w)) :
    ∃ t, exec (.qwait g) s = .next t ∧ Retires .g (.qwait g) (nextPc s .g) s
      (onMe s s.m fun c => { andWrites c (pOf g).dest? 0 with qw := w }) t := by
  have h := makes_qwait hs hd hp
  rw [qwaitEffect, hw] at h
  have ht : wrP (lo3 g.sd) 1 false (setQw w (begun .g s)) = _ := frozenTo_onMe hp s.m (fun c => { c with qw := w }) 0
  dsimp only at h
  rw [if_neg Bool.false_ne_true, ht] at h
  exact h.retires hs (pc_onMe_of (fun _ => rfl) rfl)

variable (hw : (me s).await = none) {l : Launch} (hl : myLaunch s = some l)
include hw hl

theorem makes_qwait_first : Makes s (.qwait g)
    (if wAmount (me s).qw = 0 && !isWaiter (begun .g s) then faultAt .g (quietFault 1) (begun .g s)
     else if l.rootRef s.m != (me s).qwRoot then faultAt .g (quietFault 3) (begun .g s)
     else askFor (.qwait (me s).qw) (begun .g s)) := by
  have h := makes_qwait hs hd hp
  rwa [qwaitEffect, hw, hl] at h
theorem qwait_noWeight (hq : wAmount (me s).qw = 0) (hwait : (s.m.root l.domain).waiter ≠ some s.issue.cx)
    (hgrant : (s.m.root l.domain).granted ≠ some s.issue.cx) : exec (.qwait g) s = .next (trapped .g { cause := 0x0D, info := 1 } s) := by
  have hnot : isWaiter (begun .g s) = false :=
    Bool.eq_false_iff.2 fun h => ((isWaiter_begun hl .g).1 h).elim hwait hgrant
  have h := makes_qwait_first hs hd hp hw hl
  rw [if_pos (by simp [hq, hnot])] at h
  exact Makes.faults hs h

variable (hq : wAmount (me s).qw ≠ 0 ∨ (s.m.root l.domain).waiter = some s.issue.cx ∨ (s.m.root l.domain).granted = some s.issue.cx)
include hq

/-- A context with weight, or the waiter, has only its root checked. -/
theorem makes_qwait_entitled : Makes s (.qwait g)
    (if l.rootRef s.m != (me s).qwRoot then faultAt .g (quietFault 3) (begun .g s) else askFor (.qwait (me s).qw) (begun .g s)) := by
  have h := makes_qwait_first hs hd hp hw hl
  rwa [if_neg] at h
  simp only [Bool.and_eq_true, decide_eq_true_eq, Bool.not_eq_true', not_and, Bool.not_eq_false, isWaiter_begun hl]
  exact fun h0 => hq.resolve_left fun hne => hne h0
theorem qwait_asks (hroot : l.rootRef s.m = (me s).qwRoot) : exec (.qwait g) s = .next (asksRoot s l) := by
  have h := makes_qwait_entitled hs hd hp hw hl hq
  rw [if_neg (by simp [hroot])] at h
  have hlaunch : s.m.launchOf s.issue.cx = some l := hl
  rw [Makes.asks hs (m := s.m) h rfl, applyAsk, hlaunch]
  rfl
theorem qwait_otherRoot (hroot : l.rootRef s.m ≠ (me s).qwRoot) : exec (.qwait g) s = .next (trapped .g { cause := 0x0D, info := 3 } s) := by
  have h := makes_qwait_entitled hs hd hp hw hl hq
  rw [if_pos (bne_iff_ne.2 hroot)] at h
  exact Makes.faults hs h

end

/-- Settles O32: QWAIT by the answer it has, or by its checks. -/
theorem quietWait : Obligations.QuietWait := fun _ _ hs hd hp =>
  ⟨fun _ hw hl hq => ⟨qwait_asks hs hd hp hw hl hq, qwait_otherRoot hs hd hp hw hl hq⟩, fun _ => qwait_faulted hs hd hp,
    fun _ _ => qwait_quiet hs hd hp, fun _ _ => qwait_notQuiet hs hd hp, fun _ hw hl => qwait_noWeight hs hd hp hw hl⟩

end Sys2Proof.Proofs
end

section
/-! SUPPORT. SPAWN, LREC, LCOMMIT and ESCAL (15 R299 to R301; 10 R192; log 29). -/
namespace Sys2Proof.Proofs
open Sys2Proof.Machine Sys2Proof.Safety Sys2Proof.Claims

/-! A request to the scheduler (05 R94). -/

/-- A request to the scheduler goes to the die where the launch is at home, and the context waits for its answer. -/
theorem applyAsk_sched {m : Mach} {cx : Nat} {l : Launch} (hl : m.launchOf cx = some l) (r : SchedReq) : applyAsk cx m (.sched r) =
    (m.modDie l.home fun d => { d with reqs := d.reqs ++ [r] }).modCtx cx fun c => { c with await := some .asked } := by
  rw [applyAsk, hl]
theorem asked_sched {s : State} {l : Launch} (hl : myLaunch s = some l) (r : SchedReq) :
    asked s (applyAsk s.issue.cx s.m (.sched r)) = asks s l r := congrArg (asked s) (applyAsk_sched hl r)

/-! SPAWN (R299). -/

/-- A spawn that waits for room in the list. -/
def isSpawn (r : SchedReq) : Bool := match r with | .spawn _ _ _ => true | _ => false
theorem any_isSpawn_eq_false {rs : List SchedReq} (h : ∀ r ∈ rs, ∀ a b c, r ≠ .spawn a b c) : rs.any isSpawn = false := by
  refine List.any_eq_false.2 fun r hr => ?_
  cases r with
  | spawn a b c => exact absurd rfl (h _ hr a b c)
  | _ => exact Bool.false_ne_true

/-- What SPAWN makes of its fresh bundle once the accesses of its context are done: its answer, or else the task listed or asked for. -/
def spawnEffect (s : State) (g : GSlot) (l : Launch) : State :=
  match (me s).await with
  | some .asked => askFor .hold (begun .g s)
  | some _ => { begun .g s with m := moved s }
  | none => splitQw .g (fun keep give _ =>
      if spawnsOn s.m l.home < spawnCap && !(s.m.die l.home).reqs.any isSpawn then
        { begun .g s with m := onMe s ((moved s).modLaunch l.lid fun l => { l with spawns := l.spawns ++ [spawnOf s g give] }) fun c => { c with qw := keep } }
      else askFor (.sched (.spawn s.issue.cx l.lid (spawnOf s g give))) { begun .g s with m := onMe s (moved s) fun c => { c with qw := keep } })
      (begun .g s)

section
variable {s : State} (hs : Solo s) (hd : Drained s) {g : GSlot} (ha : AddrFree s g) (hsd : Free s (reg s g.sd)) {l : Launch} (hl : myLaunch s = some l)
include hs hd ha hsd hl

theorem makes_spawn : Makes s (.spawn g) (spawnEffect s g l) := by
  have hpre : preLaunch { begun .g s with m := moved s } = some l := hl
  have hexec : exec (.spawn g) s = execSpawn g s := rfl
  unfold execSpawn runG at hexec
  refine ⟨_, hexec, ?_⟩
  dsimp only
  rw [sr_begun_eq_reg, sr_begun_eq_reg, sr_begun_eq_reg,
    reads_begun (List.forall_mem_cons.2 ⟨ha.1, List.forall_mem_cons.2 ⟨ha.2, List.forall_mem_singleton.2 hsd⟩⟩), afterAccesses_begun hs _ _ hd]
  unfold spawnEffect awaiting
  rw [preCtx_begun]
  cases (me s).await with
  | some a => cases a <;> rfl
  | none =>
    cases hq : splitWeight (me s).qw with
    | none =>
      dsimp only
      rw [splitQw_none hq, splitQw_none hq]
    | some split =>
      dsimp only
      rw [splitQw_some hq, splitQw_some hq, hpre]
      rfl
theorem spawn_answered {ok refused : Bool} {v : Word} (hw : (me s).await = some (.answered ok refused v)) :
    ∃ t, exec (.spawn g) s = .next t ∧ Retires .g (.spawn g) (nextPc s .g) s (moved s) t := by
  have h := makes_spawn hs hd ha hsd hl
  rw [spawnEffect, hw] at h
  exact Makes.retires hs h (pc_moved s)

variable (hw : (me s).await = none) {keep give : Word} (hq : splitWeight (me s).qw = some (keep, give))
include hw hq

theorem spawn_lists (hroom : spawnsOn s.m l.home < spawnCap) (hnone : ∀ r ∈ (s.m.die l.home).reqs, ∀ a b c, r ≠ .spawn a b c) :
    ∃ t, exec (.spawn g) s = .next t ∧ Retires .g (.spawn g) (nextPc s .g) s
      (onMe s ((moved s).modLaunch l.lid fun l => { l with spawns := l.spawns ++ [spawnOf s g give] }) fun c => { c with qw := keep }) t := by
  have h := makes_spawn hs hd ha hsd hl
  rw [spawnEffect, hw] at h
  dsimp only at h
  rw [splitQw_some hq, if_pos (by simp [hroom, any_isSpawn_eq_false hnone])] at h
  exact h.retires hs (pc_onMe_of (fun _ => rfl) (pc_moved s))
theorem spawn_asks (hfull : spawnCap ≤ spawnsOn s.m l.home) :
    exec (.spawn g) s = .next (asks s l (.spawn s.issue.cx l.lid (spawnOf s g give))) := by
  have h := makes_spawn hs hd ha hsd hl
  rw [spawnEffect, hw] at h
  dsimp only at h
  rw [splitQw_some hq, if_neg (by simp [Nat.not_lt.2 hfull])] at h
  exact (h.asks hs rfl).trans (congrArg _ (asked_sched hl _))

end

/-! LREC (R300). -/

/-- Reading the template leaves the contexts and the launches. -/
theorem launchOf_loadBytes (m : Mach) (core : Nat) (ls : List Loc) (hint : BitVec 8) (cx : Nat) :
    (loadBytes m core ls hint).1.launchOf cx = m.launchOf cx := by
  have hspan : ∀ pas, (l2Span m pas false true (hintOf hint)).launchOf cx = m.launchOf cx := fun pas => by
    rw [L2Only.span m pas false true (hintOf hint)]
    rfl
  have hfill : ∀ (n : Mach) line, (l1Fill n core line).launchOf cx = n.launchOf cx := fun n line => by
    unfold l1Fill
    split <;> rfl
  unfold loadBytes
  dsimp only
  split
  · exact hspan _
  · exact foldl_keeps (fun n : Mach => n.launchOf cx = m.launchOf cx) _ (fun n k hn => (hfill n k).trans hn) _ _ (hspan _)

/-- The record that an LREC of the launch `lid` asks for, with the template at `ls`. -/
def recordOf (s : State) (g : GSlot) (lid : Word) (ls : List Loc) (give : Word) : SchedReq :=
  let t := (loadBytes s.m (coreOf s.issue.cx) ls 0).2
  .lrec s.issue.cx lid (fld t 28 2 % 4096) (fld t 4 4 % 2 ^ 24) t give (if reachesHost ls then some (addrOf s g) else none)
/-- What an LREC that has not asked makes of its fresh bundle with the template at `ls`: it asks to read the template and for its record. -/
def lrecAt (s : State) (g : GSlot) (ls : List Loc) : State :=
  if underReset s.m s.issue.cx ls then faultAt .g { cause := 0x10, addr := BitVec.ofNat 64 (numOf s g) } (begun .g s)
  else if ls.any (fun x => s.m.errAt x && !l1Has s.m (coreOf s.issue.cx) x) then faultAt .g (accFault 0x0A 6 false (numOf s g)) (begun .g s)
  else splitQw .g (fun keep give _ => askFor (.sched (recordOf s g ((me s).launch.getD 0) ls give))
    (askFor (.load ls) { begun .g s with m := onMe s (moved s) fun c => { c with qw := keep } })) (begun .g s)
/-- What LREC makes of its fresh bundle once the accesses of its context are done. -/
def lrecEffect (s : State) (g : GSlot) : State :=
  match (me s).await with
  | some .asked => askFor .hold (begun .g s)
  | some (.faulted f) => faultAt .g f (begun .g s)
  | some (.answered _ true _) => faultAt .g (accFault 0x0A 8 false (numOf s g)) (begun .g s)
  | some (.answered ok false _) => frozenTo (pOf g) 1 (bit ok) { begun .g s with m := if ok then moved s else s.m }
  | none =>
    if numOf s g % 64 ≠ 0 then faultAt .g (alignFault (numOf s g)) (begun .g s)
    else withRes .g (namesAt s g 64 .read) false (fun ls _ => lrecAt s g ls) (fun _ _ t => t) (begun .g s)

section
variable {s : State} (hs : Solo s) (hd : Drained s) {g : GSlot} (ha : AddrFree s g) (hp : Writable s (pOf g))
include hs hd ha hp

theorem makes_lrec : Makes s (.lrec g) (lrecEffect s g) := by
  have hexec : exec (.lrec g) s = execLrec g s := rfl
  unfold execLrec runG at hexec
  refine ⟨_, hexec, ?_⟩
  dsimp only
  rw [reads_begun (reads_addr ha), show pref (lo3 g.sd) = pOf g from rfl, writesFrozen_begun hp, afterAccesses_begun hs _ _ hd]
  unfold lrecEffect awaiting
  rw [preCtx_begun]
  cases (me s).await with
  | none => rfl
  | some a =>
    cases a with
    | answered ok refused v => cases ok <;> cases refused <;> rfl
    | _ => rfl
theorem lrec_answered {ok : Bool} {v : Word} (hw : (me s).await = some (.answered ok false v)) :
    ∃ t, exec (.lrec g) s = .next t ∧ Retires .g (.lrec g) (nextPc s .g) s
      (onMe s (if ok then moved s else s.m) fun c => andWrites c (pOf g).dest? (bit ok)) t := by
  have h := makes_lrec hs hd ha hp
  rw [lrecEffect, hw] at h
  refine Makes.writes hp hs h ?_
  split
  · exact pc_moved s
  · rfl
theorem lrec_faulted {f : FaultRec} (hw : (me s).await = some (.faulted f)) : exec (.lrec g) s = .next (trapped .g f s) := by
  have h := makes_lrec hs hd ha hp
  rw [lrecEffect, hw] at h
  exact Makes.faults hs h

variable (hal : numOf s g % 64 = 0) (hw : (me s).await = none) {keep give : Word} (hq : splitWeight (me s).qw = some (keep, give))
  {ls : List Loc} (hn : namesAt s g 64 .read = .locs ls) (hr : underReset s.m s.issue.cx ls = false) (he : ∀ x ∈ ls, s.m.errAt x = false)
include hal hw hq hn hr he

/-- With a template that may be read and weight that splits. -/
theorem makes_lrec_asks : Makes s (.lrec g) (askFor (.sched (recordOf s g ((me s).launch.getD 0) ls give))
    (askFor (.load ls) { begun .g s with m := onMe s (moved s) fun c => { c with qw := keep } })) := by
  have herr : ¬(ls.any fun x => s.m.errAt x && !l1Has s.m (coreOf s.issue.cx) x) = true := by
    rw [List.any_eq_true]
    rintro ⟨x, hx, hbad⟩
    simp [he x hx] at hbad
  have hat : lrecAt s g ls = _ := (if_neg (Bool.eq_false_iff.1 hr)).trans ((if_neg herr).trans (splitQw_some hq .g _))
  have h := makes_lrec hs hd ha hp
  rw [lrecEffect, hw] at h
  dsimp only at h
  rw [if_neg (not_not.2 hal), hn, withRes, hat] at h
  exact h
theorem lrec_asks {l : Launch} (hl : myLaunch s = some l) (hlid : (me s).launch = some l.lid) :
    exec (.lrec g) s = .next (asked s (onMe s ((loadBytes s.m (coreOf s.issue.cx) ls 0).1.modDie l.home fun d =>
      { d with reqs := d.reqs ++ [recordOf s g l.lid ls give] }) fun c => { c with await := some .asked })) := by
  obtain ⟨f, hexec, hf⟩ := makes_lrec_asks hs hd ha hp hal hw hq hn hr he
  rw [hlid, Option.getD_some] at hf
  rw [hexec, run_asks hs .g _ f (as := [.load ls, .sched (recordOf s g l.lid ls give)]) rfl rfl
    (by rw [hf, askFor, askFor, begun_issue hs]; rfl) (by rw [hf]; rfl)]
  exact congrArg (fun m => Host.Outcome.next (asked s m)) (applyAsk_sched ((launchOf_loadBytes ..).trans hl) _)

end

/-! LCOMMIT and ESCAL (R301; 10 R192). -/

/-- What LCOMMIT and ESCAL make of their fresh bundles. -/
def lcommitEffect (s : State) (g : GSlot) : State :=
  match (me s).await with
  | some .asked => askFor .hold (begun .g s)
  | some _ => begun .g s
  | none => askFor (.sched (.lcommit s.issue.cx ((me s).launch.getD 0) (((me s).s g.sa).toNat % 2 ^ 24))) (begun .g s)
def escalEffect (s : State) (g : GSlot) : State :=
  match (me s).await with
  | some .asked => askFor .hold (begun .g s)
  | some (.answered true _ v) => frozenTo (reg s g.sd) 1 v (begun .g s)
  | some _ => faultAt .g { cause := 0x0E } (begun .g s)
  | none => askFor (.sched (.escal s.issue.cx ((me s).launch.getD 0))) (begun .g s)

section
variable {s : State} (hs : Solo s) {g : GSlot}
include hs

theorem makes_lcommit (ha : Free s (reg s g.sa)) : Makes s (.lcommit g) (lcommitEffect s g) := by
  have hexec : exec (.lcommit g) s = execLcommit g s := rfl
  unfold execLcommit runG at hexec
  refine ⟨_, hexec, ?_⟩
  dsimp only
  rw [sr_begun_eq_reg, reads_begun (List.forall_mem_singleton.2 ha), whenFree_begun hs]
  rfl
theorem makes_escal (hsd : Writable s (reg s g.sd)) : Makes s (.escal g) (escalEffect s g) := by
  have hexec : exec (.escal g) s = execEscal g s := rfl
  unfold execEscal runG at hexec
  refine ⟨_, hexec, ?_⟩
  dsimp only
  rw [sr_begun_eq_reg, writesFrozen_begun hsd, whenFree_begun hs]
  rfl

theorem lcommit_answered (ha : Free s (reg s g.sa)) {ok refused : Bool} {v : Word} (hw : (me s).await = some (.answered ok refused v)) :
    ∃ t, exec (.lcommit g) s = .next t ∧ Retires .g (.lcommit g) (nextPc s .g) s s.m t := by
  have h := makes_lcommit hs ha
  rw [lcommitEffect, hw] at h
  exact Makes.retires hs (m := s.m) h rfl
theorem escal_granted (hsd : Writable s (reg s g.sd)) {refused : Bool} {v : Word} (hw : (me s).await = some (.answered true refused v)) :
    ∃ t, exec (.escal g) s = .next t ∧ Retires .g (.escal g) (nextPc s .g) s (frozenIn s (reg s g.sd).dest? 1 v) t := by
  have h := makes_escal hs hsd
  rw [escalEffect, hw] at h
  exact Makes.retires hs (frozenTo_begun .g _ 1 v hsd ▸ h) (pc_frozenIn ..)
theorem escal_refused (hsd : Writable s (reg s g.sd)) {refused : Bool} {v : Word} (hw : (me s).await = some (.answered false refused v)) :
    exec (.escal g) s = .next (trapped .g { cause := 0x0E } s) := by
  have h := makes_escal hs hsd
  rw [escalEffect, hw] at h
  exact Makes.faults hs h

variable {l : Launch} (hl : myLaunch s = some l) (hlid : (me s).launch = some l.lid) (hw : (me s).await = none)
include hl hlid hw

theorem lcommit_asks (ha : Free s (reg s g.sa)) :
    exec (.lcommit g) s = .next (asks s l (.lcommit s.issue.cx l.lid (((me s).s g.sa).toNat % 2 ^ 24))) := by
  have h := makes_lcommit hs ha
  rw [lcommitEffect, hw, hlid] at h
  exact (Makes.asks hs (m := s.m) h rfl).trans (congrArg _ (asked_sched hl _))
theorem escal_asks (hsd : Writable s (reg s g.sd)) : exec (.escal g) s = .next (asks s l (.escal s.issue.cx l.lid)) := by
  have h := makes_escal hs hsd
  rw [escalEffect, hw, hlid] at h
  exact (Makes.asks hs (m := s.m) h rfl).trans (congrArg _ (asked_sched hl _))

end

/-- Settles O33: SPAWN lists its task or asks for room; LREC, LCOMMIT and ESCAL ask, and end by their answers. -/
theorem schedulerRequests : Obligations.SchedulerRequests := fun _ _ _ hs hl hlid =>
  ⟨fun _ _ hd ha hsd hw hq => ⟨spawn_lists hs hd ha hsd hl hw hq, spawn_asks hs hd ha hsd hl hw hq⟩,
    fun _ _ _ hd ha hp hal hw hq hn hr he => lrec_asks hs hd ha hp hal hw hq hn hr he hl hlid,
    fun _ _ hd ha hp => lrec_answered hs hd ha hp, fun _ hd ha hp => lrec_faulted hs hd ha hp,
    fun _ _ hd ha hsd => spawn_answered hs hd ha hsd hl,
    fun hw ha => lcommit_asks hs hl hlid hw ha, fun _ _ _ hw ha => lcommit_answered hs ha hw,
    fun hw hsd => escal_asks hs hl hlid hw hsd, fun _ _ hw hsd => escal_granted hs hsd hw, fun _ _ hw hsd => escal_refused hs hsd hw⟩

end Sys2Proof.Proofs
end

section
/-! SUPPORT. SEND, MCAST, AMSG and TTFIRE (15 R285; 16 R318, R319, R324, R326). -/
namespace Sys2Proof.Proofs
open Sys2Proof.Machine Sys2Proof.Safety Sys2Proof.Claims

/-- The instruction is a carrier with this range and this tile, which splits QW for its operation once its other checks have passed (R285). -/
def RunsCarrier (i : Instr) (s : State) (c : CSlot) (range : List (Nat × Nat)) (w : TypeWord) (e : List Nat) : Prop :=
  ∃ ranges plan, exec i s = issueC i c ranges true plan s ∧ ranges (begun .c s) = range ∧
    plan (begun .c s) = splitFor (begun .c s) (planC i s c w e []) ∧
    slotTokens .c (slotWord i) = (c.kd.toNat, [c.kw0.toNat, c.kw1.toNat, c.kw2.toNat])

section
variable {s : State} (hs : Solo s) {c : CSlot}
include hs

/-- A carrier whose range is resident and whose context's accesses are done runs its engine slot (15 R292, 17 R342). -/
theorem issueC_carrier (hd : Drained s) (i : Instr) {range : State → List (Nat × Nat)} (plan : State → Except FaultRec Plan)
    (hres : Resident s (range (begun .c s))) :
    issueC i c range true plan s = runSlot .c i (engineIssue .c .c (slotWord i) [reg s c.sa, reg s c.sb] false plan) s := by
  rw [← issueC_resident hs i c plan hres]
  refine runSlot_congr hs .c i ?_
  dsimp only
  rw [preCtx_begun, (busyOut_eq_false_iff s).2 hd]
  rfl

/-! The checks of each over its fresh bundle. -/

theorem scratchRange_begun (k : Slot) (a n align : Nat) (write : Bool) : scratchRange (begun k s) a n align write = scratchRange s a n align write :=
  forall_solo (P := fun s => scratchRange (begun k s) a n align write = scratchRange s a n align write) (fun _ _ _ _ _ _ _ => rfl) hs
theorem cB_begun (k : Slot) : cB (begun k s) c = cB s c := forall_solo (P := fun s => cB (begun k s) c = cB s c) (fun _ _ _ _ _ _ _ => rfl) hs
omit hs in
theorem epCheck_ok {x : Word} (h : epBad x = false) : epCheck x = .ok () := if_neg (Bool.eq_false_iff.1 h)

theorem runsCarrier_send {w : TypeWord} {e : List Nat} (ht : FabricTile s c w e) (he : epBad (cA s c) = false) :
    RunsCarrier (.send c) s c [] w e := by
  refine ⟨noRange, _, rfl, rfl, ?_, slotTokens_cWord _ c⟩
  dsimp only
  rw [resolvedTile_begun hs, ht, cA_begun hs, epCheck_ok he]
  simp only [bind, Except.bind, planC_begun hs]
theorem runsCarrier_mcast {w : TypeWord} {e : List Nat} (ht : FabricTile s c w e)
    (hr : scratchRange s (cA s c).toNat (8 * c.w.toNat) 8 false = .ok ()) : RunsCarrier (.mcast c) s c [((cA s c).toNat, 0)] w e := by
  refine ⟨addrRange c, _, rfl, by rw [addrRange, cA_begun hs], ?_, slotTokens_cWord _ c⟩
  dsimp only
  rw [resolvedTile_begun hs, ht, cA_begun hs, scratchRange_begun hs, hr]
  simp only [bind, Except.bind, planC_begun hs]
theorem runsCarrier_amsg (hr : scratchRange s (cA s c).toNat 64 64 false = .ok ()) (he : epBad (cB s c) = false)
    (hroute : epDevice s.m (cB s c) = s.m.deviceNo ∨ v2Route s.m (epDevice s.m (cB s c)) = true) :
    RunsCarrier (.amsg c) s c [((cA s c).toNat, 0)] 0 [] := by
  refine ⟨addrRange c, _, rfl, by rw [addrRange, cA_begun hs], ?_, slotTokens_cWord _ c⟩
  dsimp only
  rw [cA_begun hs, scratchRange_begun hs, hr, cB_begun hs, epCheck_ok he, planC_begun hs, pre_begun]
  simp only [bind, Except.bind]
  rw [if_neg]
  simp only [not_and, Bool.not_eq_true', Bool.not_eq_false]
  exact fun hne _ => hroute.resolve_left hne
theorem runsCarrier_ttfire (hentry : c.w.toNat / 32 = s.issue.cx % 8) (he : epBad (cA s c) = false) : RunsCarrier (.ttfire c) s c [] 0 [] := by
  have hcheck : entryCheck (begun .c s) c = .ok () := if_pos hentry
  refine ⟨noRange, _, rfl, rfl, ?_, slotTokens_cWord _ c⟩
  rw [hcheck, cA_begun hs, epCheck_ok he, planC_begun hs]
  rfl
/-- Each row of the table is a carrier with the range, word and extents of the row. -/
theorem runsCarrier_carrierTable {w : TypeWord} {e : List Nat} {row : Instr × Prop × List TypeWord × List (List Nat) × List (Nat × Nat)}
    (h : row ∈ carrierTable s c w e) (hpass : row.2.1) :
    ∃ w' e', row.2.2.1 = [0, w', 0, 0] ∧ row.2.2.2.1 = [[], e', [], []] ∧ RunsCarrier row.1 s c row.2.2.2.2 w' e' := by
  simp only [carrierTable, List.mem_cons, List.not_mem_nil, or_false] at h
  rcases h with rfl | rfl | rfl | rfl
  · exact ⟨w, e, rfl, rfl, runsCarrier_send hs hpass.1 hpass.2⟩
  · exact ⟨w, e, rfl, rfl, runsCarrier_mcast hs hpass.1 hpass.2⟩
  · exact ⟨0, [], rfl, rfl, runsCarrier_amsg hs hpass.1 hpass.2.1 hpass.2.2⟩
  · exact ⟨0, [], rfl, rfl, runsCarrier_ttfire hs hpass.1 hpass.2⟩

/-! The split (15 R281, R285). -/

section
variable {i : Instr} {range : List (Nat × Nat)} {w : TypeWord} {e : List Nat} (h : RunsCarrier i s c range w e) (hd : Drained s)
  (ha : Free s (reg s c.sa)) (hb : Free s (reg s c.sb)) (hq : MayQueue s .c c.kd) (hres : Resident s range)
include h hd ha hb hq hres

theorem RunsCarrier.queues {keep give : Word} (hw : splitWeight (me s).qw = some (keep, give)) :
    ∃ u, exec i s = .next u ∧ Queues .c .c i s
      (cOp s c { op := none, qw := some keep } { newOp i with weight := give, types := [0, w, 0, 0], exts := [[], e, [], []] }) u := by
  obtain ⟨ranges, plan, he, hrange, hplan, htok⟩ := h
  obtain ⟨hroom, hkd⟩ := hq
  have hsplit : splitFor (begun .c s) (planC i s c w e []) = .ok
      { planC i s c w e [] with op := (planC i s c w e []).op.map fun o => { o with weight := give }, qw := some keep } := by
    rw [splitFor, show curCtx (begun .c s) = me s from rfl, hw]
  have hqueues := engine_queues hs .c .c i (slotWord i) [reg s c.sa, reg s c.sb] false plan _ _ _ _ (by simp [ha, hb]) htok hkd hroom
    (hplan.trans hsplit) rfl rfl ⟨rfl, rfl⟩
  rw [he, issueC_carrier hs hd _ _ (hrange ▸ hres)]
  rw [cA_solo hs, cB_solo hs] at hqueues
  exact hqueues
theorem RunsCarrier.tooDeep (hi : (me s).issued = false) (hw : splitWeight (me s).qw = none) :
    exec i s = .next (trapped .c { cause := 0x0C, info := (me s).qw } s) := by
  obtain ⟨ranges, plan, he, hrange, hplan, htok⟩ := h
  obtain ⟨hroom, hkd⟩ := hq
  have hsplit : splitFor (begun .c s) (planC i s c w e []) = .error { cause := 0x0C, info := (me s).qw } := by
    rw [splitFor, show curCtx (begun .c s) = me s from rfl, hw, preCtx_begun, hi]
    rfl
  rw [he, issueC_carrier hs hd _ _ (hrange ▸ hres)]
  exact engine_check_fails hs false plan (by simp [ha, hb]) htok hkd hroom (hplan.trans hsplit)

end
end

/-- Settles O41: each row is a carrier, whose plan is the split of QW. -/
theorem carrierSlots : Obligations.CarrierSlots := by
  intro c s w e hs hd ha hb hq row hrow hpass hres
  obtain ⟨w', e', htypes, hexts, h⟩ := runsCarrier_carrierTable hs hrow hpass
  rw [htypes, hexts]
  exact ⟨fun keep give hw => h.queues hs hd ha hb hq hres hw, h.tooDeep hs hd ha hb hq hres⟩

end Sys2Proof.Proofs
end

section
/-! SUPPORT. How a port trains, is acknowledged and fails (16 R304 to R310). -/
namespace Sys2Proof.Proofs
open Sys2Proof.Machine Sys2Proof.Safety Sys2Proof.Claims

section
variable {m : Mach} {p : PortId}

theorem laneLock_offers (hb : m.bridgePort p = false) (hp : (m.port p).phase = .down) :
    laneLock m p = m.latchNumber.setPort p { phase := .offering, life := (m.port p).life } := if_neg (by simp [hb, hp])
theorem laneLock_ignored (h : m.bridgePort p = true ∨ (m.port p).phase ≠ .down) : laneLock m p = m := if_pos (by simpa using h)

/-- A port is up once it has sent an accept and received a matching one (R310). -/
theorem linkUp_both {q : Port} (hp : q.phase = .accepting) (hs : q.sentAccept = true) (hg : q.gotAccept = true) :
    linkUp q = { q with phase := .up, life := q.life + 1, txSeq := 0, rxSeq := 0, rxAny := false, unacked := [], resends := 0 } :=
  if_pos (by simp [hp, hs, hg])
theorem linkUp_waits {q : Port} (h : q.sentAccept = false ∨ q.gotAccept = false) : linkUp q = q :=
  if_neg (by rcases h with h | h <;> simp [h])

theorem offerTimer_accepting (hp : (m.port p).phase = .accepting) : offerTimer m p =
    (m.putFlits p [controlFlit none (trainingBytes m p)]).setPort p (linkUp { m.port p with sentAccept := true }) := if_pos hp
theorem offerTimer_offering (hp : (m.port p).phase = .offering) :
    offerTimer m p = m.putFlits p [controlFlit none (trainingBytes m p)] :=
  (if_neg (by simp [hp])).trans (if_pos hp)
theorem offerTimer_silent (ha : (m.port p).phase ≠ .accepting) (ho : (m.port p).phase ≠ .offering) : offerTimer m p = m :=
  (if_neg ha).trans (if_neg ho)

section
variable (hb : m.bridgePort p = false) (ht : (m.port p).phase = .offering ∨ (m.port p).phase = .accepting) {o : Training}
include hb ht

/-- A port in training refuses an offer by R309 and stays down, or goes on to accepts of the version it leads to. -/
theorem takeOffer_training : takeOffer m p o =
    if o.device.toNat = m.deviceNo ∨ 1023 < o.device.toNat ∨ min 2 o.version.toNat = 0 then
      logLink (m.setPort p { m.port p with phase := .offering, sentAccept := false, gotAccept := false }) p
    else
      let same := (m.port p).phase == .accepting && (m.port p).version == min 2 o.version.toNat
      m.setPort p
        { m.port p with phase := .accepting, version := min 2 o.version.toNat, partner := o.device.toNat,
                        sentAccept := same && (m.port p).sentAccept, gotAccept := same && (m.port p).gotAccept } := by
  obtain ⟨hdown, hfailed, hup⟩ : (m.port p).phase ≠ .down ∧ (m.port p).phase ≠ .failed ∧ (m.port p).phase ≠ .up := by
    rcases ht with h | h <;> simp [h]
  unfold takeOffer
  simp only [hb, hdown, hfailed, hup, decide_false, Bool.or_self, Bool.false_eq_true, if_false]
theorem takeOffer_accepted (hd : o.device.toNat ≠ m.deviceNo) (hl : o.device.toNat < 1024) (hv : 1 ≤ o.version.toNat) :
    takeOffer m p o =
      let same := decide ((m.port p).phase = .accepting ∧ (m.port p).version = min 2 o.version.toNat)
      m.setPort p
        { m.port p with phase := .accepting, version := min 2 o.version.toNat, partner := o.device.toNat,
                        sentAccept := same && (m.port p).sentAccept, gotAccept := same && (m.port p).gotAccept } := by
  rw [takeOffer_training hb ht, if_neg (by omega)]
  simp only [Bool.decide_and]
  rfl
theorem takeOffer_refused (h : o.device.toNat = m.deviceNo ∨ 1024 ≤ o.device.toNat ∨ o.version = 0) :
    takeOffer m p o = logLink (m.setPort p { m.port p with phase := .offering, sentAccept := false, gotAccept := false }) p := by
  rw [takeOffer_training hb ht, if_pos]
  exact h.imp_right (Or.imp id fun hv => by simp [hv])
end
theorem takeOffer_ignored (h : m.bridgePort p = true ∨ (m.port p).phase = .down ∨ (m.port p).phase = .failed) (o : Training) :
    takeOffer m p o = m := if_pos (by simpa [or_assoc] using h)

theorem takeAccept_matching {o : Training} (hp : (m.port p).phase = .accepting) (hv : o.chosen.toNat = (m.port p).version) :
    takeAccept m p o = m.setPort p (linkUp { m.port p with gotAccept := true }) := if_pos (by simp [hp, hv])
theorem takeAccept_ignored {o : Training} (h : (m.port p).phase ≠ .accepting ∨ o.chosen.toNat ≠ (m.port p).version) :
    takeAccept m p o = m := if_neg (by rcases h with h | h <;> simp [h])

/-! Acknowledgement and failure (R306). -/
theorem linkIdle_ignored {valid : Bool} (h : (m.port p).phase ≠ .up ∨ valid = false) (ack : Nat) : linkIdle m p valid ack = m :=
  if_pos (by simpa using h)
/-- An acknowledgement of the last flit of the only message in the buffer empties it. -/
theorem ackTo_whole {sq n : Nat} (x : Msg) (hs : sq < 4096) (h1 : 1 ≤ n) (h2 : n ≤ 2048) : ackTo ((sq + n - 1) % 4096) [(sq, n, x)] = [] := by
  have hd : ((sq + n - 1) % 4096 + 1 + 4096 - sq) % 4096 = n := by omega
  have hin : ¬(2048 < n ∨ n = 0) := by omega
  simp [ackTo, hd, hin]
theorem linkIdle_whole {sq n : Nat} {x : Msg} (hp : (m.port p).phase = .up) (hu : (m.port p).unacked = [(sq, n, x)]) (hs : sq < 4096)
    (h1 : 1 ≤ n) (h2 : n ≤ 2048) :
    linkIdle m p true (BitVec.ofNat 12 (sq + n - 1)).toNat = m.setPort p { m.port p with unacked := [], resends := 0 } := by
  unfold linkIdle
  rw [if_neg (by simp [hp]), hu, BitVec.toNat_ofNat, ackTo_whole x hs h1 h2]
  rfl

theorem replayTimeout_idle (h : (m.port p).phase ≠ .up ∨ (m.port p).unacked = []) : replayTimeout m p = m := if_pos (by simpa using h)
section
variable (hp : (m.port p).phase = .up) (hu : (m.port p).unacked ≠ [])
include hp hu
theorem replayTimeout_resends (hr : (m.port p).resends < 16) :
    replayTimeout m p = (m.setPort p { m.port p with resends := (m.port p).resends + 1 }).putFlits p
      ((m.port p).unacked.flatMap fun u => u.2.2.lastFlits u.1 u.2.1 (m.port p).ack) :=
  (if_neg (by simp [hp, hu])).trans (if_pos hr)
theorem replayTimeout_fails (hr : 16 ≤ (m.port p).resends) : replayTimeout m p = logLink (dropPort m p .failed) p :=
  (if_neg (by simp [hp, hu])).trans (if_neg (Nat.not_lt.2 hr))
end
@[simp] theorem port_logLink (m : Mach) (p q : PortId) : (logLink m p).port q = m.port q := rfl
@[simp] theorem outbox_logLink (m : Mach) (p : PortId) : (logLink m p).outbox = m.outbox := rfl
/-- An event of a link is one more entry in the error log of its die. -/
theorem errHead_logLink (m : Mach) (p : PortId) : ((logLink m p).die p.die.toNat).errHead = (m.die p.die.toNat).errHead + 1 := by
  simp [logLink, Mach.logErr]
/-- A port that is given up keeps nothing but its count of links. -/
theorem dropPort_port (m : Mach) (p : PortId) (x : PortPhase) : (dropPort m p x).port p = { phase := x, life := (m.port p).life } :=
  port_setPort_same m p _

end

end Sys2Proof.Proofs
end

section
/-! SUPPORT. The accesses of the host: where the bridge takes each of its three windows, and how an access of this device's own spaces
ends (16 R313 to R316). -/
namespace Sys2Proof.Proofs
open Sys2Proof.Machine Sys2Proof.Safety Sys2Proof.Claims

/-! Accesses of the spaces, as the bridge makes them (16 R315). -/

theorem word64_leBytes (v : Word) : word64 (leBytes 8 v.toNat) = v := by
  rw [word64, leNat_leBytes, Nat.mod_eq_of_lt (by omega), BitVec.ofNat_toNat, BitVec.setWidth_eq]
/-- A mask of ones enables every byte: the bytes past the 64 of the mask have no bit, and a write so long needs none. -/
theorem filter_maskOnes (bs : List Byte) :
    ((upFrom 0 bs.length).zip bs).filter (fun x => decide (64 < bs.length) || (BitVec.ofNat 64 (2 ^ 64 - 1)).getLsbD x.1) =
      (upFrom 0 bs.length).zip bs := by
  refine List.filter_eq_self.2 fun x hx => ?_
  have hlt : x.1 < bs.length := by simpa using ((mem_upFrom _ _ _).1 (List.of_mem_zip hx).1).2
  by_cases h : 64 < bs.length
  · simp [h]
  · have hones : (BitVec.ofNat 64 (2 ^ 64 - 1)).getLsbD x.1 = true := by
      rw [BitVec.getLsbD_ofNat, Nat.testBit_two_pow_sub_one]
      simp only [Bool.and_self, decide_eq_true_eq]
      omega
    rw [hones, Bool.or_true]
/-- The bytes of a host's write, each written at its place. -/
def putBytes (a : Nat) (m : Mach) (cells : List (Nat × Byte)) : Mach := cells.foldl (fun m x => m.devWrite (a + x.1) [x.2]) m
theorem SameMem.putBytes {m n : Mach} (h : SameMem m n) (a : Nat) (cells : List (Nat × Byte)) :
    SameMem (putBytes a m cells) (putBytes a n cells) := by
  induction cells generalizing m n with
  | nil => exact h
  | cons x cells ih => exact ih (h.devWrite (a + x.1) [x.2])
theorem StoreOnly.putBytes (a : Nat) (m : Mach) (cells : List (Nat × Byte)) : StoreOnly m (putBytes a m cells) :=
  foldl_keeps (StoreOnly m) _ (fun _ _ hn => hn.trans (.devWrite _ _ _)) _ _ (.refl m)
theorem StoreOnly.hostAnswers {m n : Mach} (h : StoreOnly m n) : n.hostAnswers = m.hostAnswers := by rw [h.rest]
theorem L2Only.hostAnswers {m n : Mach} (h : L2Only m n) : n.hostAnswers = m.hostAnswers := by rw [h]
/-- A write of another agent with every byte enabled, past the L2. -/
theorem memWrite_whole {m : Mach} {va : Nat} {bs : List Byte} (h : OuterOk m va bs.length false true) :
    memWrite m va (BitVec.ofNat 64 (2 ^ 64 - 1)) bs = (putBytes va (outerL2 m va bs.length true) ((upFrom 0 bs.length).zip bs), 0) := by
  rw [memWrite_ok _ h, filter_maskOnes]
  rfl
/-- An atomic of an integer operation acts on 8 bytes (13 R241). -/
theorem memAtomic_wide {m : Mach} {op : BitVec 8} {va : Nat} (x y : Word) (h1 : 0x10 ≤ op.toNat) (h2 : op.toNat ≤ 0x19) (ha : va % 8 = 0)
    (h : OuterOk m va 8 true true) (hh : ∀ p, m.sysLoc va ≠ some (.host p)) :
    memAtomic m op va x y = ((outerL2 m va 8 true).devWrite va (leBytes 8 (atomicNew op (word64 (m.devRead va 8)) x y).toNat), 0,
      word64 (m.devRead va 8)) := by
  have hop : op ≠ 0x1A := by
    rintro rfl
    simp at h2
  have h8 : atomicBytes op = 8 := if_neg hop
  have hok := memAtomic_ok (m := m) (va := va) x y h1 (by omega)
  rw [h8] at hok
  exact hok ha h hh
theorem spaceWrite_notify {m : Mach} {a : Nat} (k : Word) {bs : List Byte} (h1 : 1 ≤ bs.length) (h2 : bs.length ≤ 4096) (ha : a < 0x40000) :
    spaceWrite m 2 bs.length a k bs = (m.notifyWrite (a % 0x10000) bs.length (word64 bs), 0) := by
  have hsize : ¬(bs.length = 0 ∨ 4096 < bs.length ∨ bs.length ≠ bs.length) := by omega
  unfold spaceWrite
  rw [if_neg hsize]
  simp [notifyDie, ha]

/-! An access of a device's space. -/

section
variable {m : Mach} {space : BitVec 8} {n a : Nat} {data : List Byte}

theorem hostAccess_read {m' : Mach} {bs : List Byte} (h : spaceRead m space n a = (m', 0, bs)) :
    hostAccess m m.deviceNo .read space n a data = m'.complete noTag 0 bs := by
  refine (if_pos rfl).trans ?_
  dsimp only
  rw [h]
  rfl
theorem hostAccess_write {m' : Mach} (h : spaceWrite m space n a (BitVec.ofNat 64 (2 ^ 64 - 1)) data = (m', 0)) :
    hostAccess m m.deviceNo .write space n a data = m'.complete noTag 0 [] := by
  refine (if_pos rfl).trans ?_
  dsimp only
  rw [h]
  rfl
theorem hostAccess_atomic {o : BitVec 8} {m' : Mach} {old : Word}
    (h : memAtomic m o a (word64 (data.take 8)) (word64 ((data.drop 8).take 8)) = (m', 0, old)) :
    hostAccess m m.deviceNo (.atomic o) space n a data = m'.complete noTag 0 (leBytes 8 old.toNat) := by
  refine (if_pos rfl).trans ?_
  dsimp only
  rw [h]
  rfl
/-- An access of another device leaves as a message, and its tag waits for the answer (R315). -/
theorem hostAccess_other {dev : Nat} (hd : dev ≠ m.deviceNo) (op : HostOp) : hostAccess m dev op space n a data =
    { m with hostReqs := m.hostReqs ++ [(m.header dev).tag.toNat] }.postOut (hostMsg (m.header dev) op space n a data) := if_neg hd
end

/-! A request that has ended. -/
theorem mem_ended (s : State) (m : Mach) (status : Nat) (data : List Byte) : (ended s m status data).m.mem = m.mem := rfl
theorem hostAnswers_ended (s : State) (m : Mach) (status : Nat) (data : List Byte) :
    (ended s m status data).m.hostAnswers = m.hostAnswers ++ [⟨4096, status, data⟩] := rfl

/-! The windows. -/

section
variable {m : Mach}

/-- An access that reaches nothing is logged and answered as unsupported (R315). -/
theorem unsupported_eq (m : Mach) (off : Nat) : unsupported m off = (loggedNo m off).complete noTag 2 [] := rfl

variable (hs : m.brgSel = true)
include hs

theorem bar0_open (wr : Bool) (off n : Nat) (v : Word) (ho : off < 2 ^ 25) {dev : Nat} (hd : groupDevice m (off / 2 ^ 21) = some dev) :
    bar0 m wr off n v =
      if off % 2 ^ 21 < 0x40000 then hostAccess m dev (if wr then .write else .read) 2 n (off % 2 ^ 21) (leBytes n v.toNat)
      else if off % 2 ^ 21 < 0x100000 then unsupported m off
      else if n ≠ 8 then unsupported m off
      else hostAccess m dev (if wr then .write else .read) 1 8 (off % 2 ^ 21 - 0x100000) (leBytes 8 v.toNat) := by
  unfold bar0
  rw [if_neg (by simp [hs]), if_neg (Nat.not_le.2 ho), hd]
theorem bar0_nothing {wr : Bool} {off n : Nat} {v : Word} (h : 2 ^ 25 ≤ off ∨ groupDevice m (off / 2 ^ 21) = none) :
    bar0 m wr off n v = (loggedNo m off).complete noTag 2 [] := by
  unfold bar0
  rw [if_neg (by simp [hs]), unsupported_eq]
  split
  · rfl
  · next hlt => rw [h.resolve_left hlt]
section
variable {off n dev : Nat} {wr : Bool} {v : Word} (ho : off < 2 ^ 25) (hd : groupDevice m (off / 2 ^ 21) = some dev)
include ho hd

theorem bar0_gap (hlow : 0x40000 ≤ off % 2 ^ 21) (h : off % 2 ^ 21 < 0x100000 ∨ n ≠ 8) :
    bar0 m wr off n v = (loggedNo m off).complete noTag 2 [] := by
  rw [bar0_open hs wr off n v ho hd, if_neg (Nat.not_lt.2 hlow), unsupported_eq]
  split
  · rfl
  · next hlt => exact if_pos (h.resolve_left hlt)
theorem bar0_notify (h : off % 2 ^ 21 < 0x40000) :
    bar0 m wr off n v = hostAccess m dev (if wr then .write else .read) 2 n (off % 2 ^ 21) (leBytes n v.toNat) := by
  rw [bar0_open hs wr off n v ho hd, if_pos h]
theorem bar0_mgmt (h : 0x100000 ≤ off % 2 ^ 21) :
    bar0 m wr off 8 v = hostAccess m dev (if wr then .write else .read) 1 8 (off % 2 ^ 21 - 0x100000) (leBytes 8 v.toNat) := by
  rw [bar0_open hs wr off 8 v ho hd, if_neg (by omega), if_neg (Nat.not_lt.2 h), if_neg (by simp)]
end
theorem bar2_closed {op : HostOp} {off n : Nat} {data : List Byte} (h : m.mgmtAt 0x0B0 / 16 % 2 = 0) :
    bar2 m op off n data = (loggedNo m off).complete noTag 2 [] := by
  unfold bar2
  rw [if_neg (by simp [hs])]
  exact if_pos (.inl h)
theorem bar2_open {op : HostOp} {off n : Nat} {data : List Byte} {dev : Nat} (h : m.mgmtAt 0x0B0 / 16 % 2 = 1) (hn : off + n ≤ 2 ^ 36)
    (hd : groupDevice m (m.mgmtAt 0x0B0 % 16) = some dev) :
    bar2 m op off n data = hostAccess m dev op 0 n (m.mgmtAt 0x0B0 / 2 ^ 36 * 2 ^ 36 + off) data := by
  unfold bar2
  rw [if_neg (by simp [hs])]
  dsimp only
  rw [if_neg (by omega), hd]
theorem bar4_inside {wr : Bool} {off n : Nat} {v : Word} (hin : off + n ≤ 65536) (hn : n = 4 ∨ n = 8) (ha : off % 4 = 0) :
    bar4 m wr off n v = if wr then (msixWrite m off (leBytes n v.toNat)).complete noTag 0 []
      else m.complete noTag 0 ((upFrom off n).map (msixByte m)) := by
  unfold bar4
  rw [if_neg (by simp [hs]), if_neg (by omega)]
theorem attest_waits {nonce : List Byte} (hl : nonce.length = 32) (h : reqBusy m 10 = true) :
    attest m nonce = { m with attest := m.attest ++ [nonce] } := (if_neg (by simp [hs, hl])).trans (if_pos h)
theorem attest_answers {nonce : List Byte} (hl : nonce.length = 32) (h : reqBusy m 10 = false) :
    attest m nonce = m.complete noTag 0 (attestation m nonce) := (if_neg (by simp [hs, hl])).trans (if_neg (by simp [h]))
theorem discover_answers (n : Nat) : discover m n = m.complete noTag 0
    (if n = 0 then leBytes 2 1 ++ [0, 1] else if n = 1 then leBytes 4 (Config.doeProtocol % 2 ^ 24) else leBytes 4 0xFFFF) :=
  if_neg (by simp [hs])
end
/-- A report starts with the nonce of its request (18 R354). -/
theorem attestation_nonce (m : Mach) {nonce : List Byte} (h : nonce.length = 32) : (attestation m nonce).take 32 = nonce := by
  simp only [attestation, List.append_assoc]
  exact List.take_left' h

section
variable {m : Mach} (h : m.brgSel = false)
include h
theorem bar0_noBridge (wr : Bool) (off n : Nat) (v : Word) : bar0 m wr off n v = m := if_pos (by simp [h])
theorem bar2_noBridge (op : HostOp) (off n : Nat) (data : List Byte) : bar2 m op off n data = m := if_pos (by simp [h])
theorem bar4_noBridge (wr : Bool) (off n : Nat) (v : Word) : bar4 m wr off n v = m := if_pos (by simp [h])
theorem attest_noBridge (nonce : List Byte) : attest m nonce = m := if_pos (by simp [h])
theorem discover_noBridge (n : Nat) : discover m n = m := if_pos (by simp [h])
end

end Sys2Proof.Proofs
end

section
/-! SUPPORT. The parts of O60: the ports, and the bridge by its windows. -/
namespace Sys2Proof.Proofs
open Sys2Proof.Machine Sys2Proof.Safety Sys2Proof.Claims

/-- Settles O60: each event of a port by its phase; each access of the host by the window and the space it names. -/
theorem portsAndHost : Obligations.PortsAndHost := by
  unfold Obligations.PortsAndHost
  refine ⟨fun s p => ?ports, fun s hs wr op off n v data => ?noBridge, fun s hs => ?bridge⟩
  case ports =>
    refine ⟨fun hb hp => next_put (laneLock_offers hb hp), fun h => next_put (laneLock_ignored h), ?timer,
      fun o hb ht => ⟨fun hd hl hv => next_put (takeOffer_accepted hb ht hd hl hv), fun h => ?refused⟩,
      fun o h => next_put (takeOffer_ignored h o), fun o hp hv => ?accept, fun o h => next_put (takeAccept_ignored h),
      fun ack => ⟨fun h => next_put (linkIdle_ignored (.inl h) _), next_put (linkIdle_ignored (.inr rfl) _)⟩,
      fun sq n x hp hu hs h1 h2 => next_put (linkIdle_whole hp hu hs h1 h2),
      fun hp hu => ⟨fun hr => next_put (replayTimeout_resends hp hu hr), fun hr => ?fails⟩, fun h => next_put (replayTimeout_idle h),
      fun hp => next_put (if_pos (by simp [hp])), fun why h => next_put (if_neg (by rcases h with h | h <;> simp [h]))⟩
    case timer =>
      refine ⟨fun hp hg => ?_, fun hp hg => ?_, fun hp => next_put (offerTimer_offering hp), fun ha ho => next_put (offerTimer_silent ha ho)⟩
      · exact next_put ((offerTimer_accepting hp).trans (congrArg (Mach.setPort _ p) (linkUp_waits (.inr hg))))
      · exact next_put ((offerTimer_accepting hp).trans (congrArg (Mach.setPort _ p) (linkUp_both hp rfl hg)))
    case refused =>
      refine ⟨_, next_put (takeOffer_refused hb ht h), ?_, errHead_logLink _ p⟩
      exact (port_logLink _ p p).trans (port_setPort_same _ p _)
    case accept =>
      refine ⟨fun hsent => ?_, fun hsent => ?_⟩
      · exact next_put ((takeAccept_matching hp hv).trans (congrArg (Mach.setPort _ p) (linkUp_both hp hsent rfl)))
      · exact next_put ((takeAccept_matching hp hv).trans (congrArg (Mach.setPort _ p) (linkUp_waits (.inl hsent))))
    case fails =>
      refine ⟨_, next_put (replayTimeout_fails hp hu hr), ?_, outbox_logLink _ p⟩
      exact congrArg Port.phase ((port_logLink _ p p).trans (dropPort_port s.m p .failed))
  case noBridge =>
    exact ⟨next_put (bar0_noBridge hs wr off n v), next_put (bar2_noBridge hs op off n data), next_put (bar4_noBridge hs wr off n v),
      next_put (attest_noBridge hs data), next_put (discover_noBridge hs n)⟩
  case bridge =>
    refine ⟨fun wr off n v h => next_put (bar0_nothing hs h), fun wr off n v dev ho hd hlow h => next_put (bar0_gap hs ho hd hlow h),
      fun off n v ho hd hn h1 h8 => ?notify, fun off v x ho hd hm hx => ?mgmtRead, fun off v ho hd hm hx => ?mgmtWrite,
      fun off v dev ho hd hne hm => ⟨_, next_put ((bar0_mgmt hs ho hd hm).trans (hostAccess_other hne _)), rfl, rfl⟩,
      fun op off n data h => next_put (bar2_closed hs h), fun off n data ho hn hd h1 h2 => ⟨?memRead, ?memWrite, ?memAtomic⟩,
      fun op off n data dev ho hn hd hne => ⟨_, next_put ((bar2_open hs ho hn hd).trans (hostAccess_other hne op)), rfl, rfl⟩,
      fun off n v hin hn ha => ⟨next_put (bar4_inside hs hin hn ha), next_put (bar4_inside hs hin hn ha)⟩,
      fun nonce hl => ⟨fun h => next_put (attest_waits hs hl h), fun h => ⟨_, next_put (attest_answers hs hl h), attestation_nonce s.m hl⟩⟩,
      fun n => next_put (discover_answers hs n)⟩
    case notify =>
      have hlen := length_leBytes n v.toNat
      have hw := spaceWrite_notify (m := s.m) (BitVec.ofNat 64 (2 ^ 64 - 1)) (hlen.symm ▸ h1) (by omega) hn
      rw [hlen, Nat.mod_mod_of_dvd off (by decide : 0x10000 ∣ 2 ^ 21)] at hw
      exact next_put ((bar0_notify hs ho hd hn).trans (hostAccess_write hw))
    case mgmtRead => exact next_put ((bar0_mgmt hs ho hd hm).trans (hostAccess_read (spaceRead_mgmt hx)))
    case mgmtWrite =>
      have hw := spaceWrite_mgmt (k := BitVec.ofNat 64 (2 ^ 64 - 1)) (length_leBytes 8 v.toNat) (by decide) hx
      rw [word64_leBytes] at hw
      exact next_put ((bar0_mgmt hs ho hd hm).trans (hostAccess_write hw))
    case memRead =>
      intro hok
      have hl2 := L2Only.outerL2 s.m (s.m.mgmtAt 0x0B0 / 2 ^ 36 * 2 ^ 36 + off) n false
      refine ⟨ended s _ 0 _, next_put ((bar2_open hs ho hn hd).trans (hostAccess_read (spaceRead_mem h1 h2 hok))),
        (mem_ended _ _ _ _).trans hl2.sameMem.mem, (hostAnswers_ended _ _ _ _).trans ?_⟩
      rw [hl2.hostAnswers]
    case memWrite =>
      rintro rfl hok
      have hl2 := L2Only.outerL2 s.m (s.m.mgmtAt 0x0B0 / 2 ^ 36 * 2 ^ 36 + off) data.length true
      have hw := (spaceWrite_mem (m := s.m) _ h1 h2).trans (memWrite_whole hok)
      refine ⟨ended s _ 0 _, next_put ((bar2_open hs ho hn hd).trans (hostAccess_write hw)),
        (mem_ended _ _ _ _).trans (hl2.sameMem.putBytes _ _).mem, (hostAnswers_ended _ _ _ _).trans ?_⟩
      rw [(StoreOnly.putBytes _ _ _).hostAnswers, hl2.hostAnswers]
    case memAtomic =>
      intro o hlow hhigh ha hok hhost
      have hl2 := L2Only.outerL2 s.m (s.m.mgmtAt 0x0B0 / 2 ^ 36 * 2 ^ 36 + off) 8 true
      have hat := memAtomic_wide (m := s.m) (word64 (data.take 8)) (word64 ((data.drop 8).take 8)) hlow hhigh ha hok hhost
      refine ⟨ended s _ 0 _, next_put ((bar2_open hs ho hn hd).trans (hostAccess_atomic hat)),
        (mem_ended _ _ _ _).trans (hl2.sameMem.devWrite _ _).mem, (hostAnswers_ended _ _ _ _).trans ?_⟩
      rw [(StoreOnly.devWrite _ _ _).hostAnswers, hl2.hostAnswers]

end Sys2Proof.Proofs
end

section
/-! SUPPORT. What the device's own agents read: zeroing a region of scratchpad changes none of it (12 R214, R222, R235). -/
namespace Sys2Proof.Proofs
open Sys2Proof.Machine Sys2Proof.Safety Sys2Proof.Claims

/-- The device's own agents read the same by virtual address: they reach HBM and the host's memory, never a scratchpad. -/
structure SameDevice (m n : Mach) : Prop where
  mem : n.mem = m.mem
  hostMem : n.hostMem = m.hostMem
  mgmt : n.mgmt = m.mgmt
  grpPos : n.grpPos = m.grpPos
  hbmErr : ∀ pa, n.errAt (.hbm pa) = m.errAt (.hbm pa)
/-- An access of the device's own agents lands in HBM or in the host's memory (12 R233). -/
theorem sysLoc_ne_scratch (m : Mach) (va k : Nat) : m.sysLoc va ≠ some (.scratch k) := by
  unfold Mach.sysLoc
  split
  · split
    · unfold TlbEnt.loc
      split <;> simp
    · simp
  · simp
/-- Where no site is in error, no location is. -/
theorem errAt_of_isEmpty {m : Mach} (h : m.errs.isEmpty = true) (l : Loc) : m.errAt l = false := by
  rw [List.isEmpty_iff] at h
  cases l <;> simp [Mach.errAt, h]
theorem pteErr_eq (m : Mach) (table ix : Nat) : m.pteErr table ix = (upFrom (table + 8 * ix) 8).any fun a => m.errAt (.hbm a) := by
  unfold Mach.pteErr
  cases h : m.errs.isEmpty with
  | false => rfl
  | true => simp [errAt_of_isEmpty h]
/-- What an access of the device's agents meets at the page of an address (12 R235). -/
def pageFailure (m : Mach) (va : Nat) : Option (Nat × Nat × Nat) :=
  if globalTop ≤ va then some (va, 0x0A, 3)
  else match m.walk va with
    | .error sub => some (va, if sub = 6 then 0x0A else 0x09, sub)
    | .ok _ => none
/-- An access meets the first page that fails, or for a read the first byte in error. -/
theorem devFailure_eq (m : Mach) (a n : Nat) (write : Bool) : m.devFailure a n write =
    ((pageAddrs a n).findSome? (pageFailure m)).or
      (if write then none else ((upFrom a n).find? fun x => (m.sysLoc x).any m.errAt).map fun x => (x, 0x0A, 6)) := by
  refine congrArg (Option.or _) ?_
  cases write with
  | true => rfl
  | false =>
    cases h : m.errs.isEmpty with
    | false => rfl
    | true =>
      have hnone : ((upFrom a n).find? fun x => (m.sysLoc x).any m.errAt) = none := List.find?_eq_none.2 fun x _ => by
        cases m.sysLoc x <;> simp [errAt_of_isEmpty h]
      rw [hnone]
      rfl
namespace SameDevice
theorem refl (m : Mach) : SameDevice m m := ⟨rfl, rfl, rfl, rfl, fun _ => rfl⟩
theorem trans {a b c : Mach} (h : SameDevice a b) (k : SameDevice b c) : SameDevice a c :=
  ⟨k.mem.trans h.mem, k.hostMem.trans h.hostMem, k.mgmt.trans h.mgmt, k.grpPos.trans h.grpPos, fun pa => (k.hbmErr pa).trans (h.hbmErr pa)⟩
theorem of_sameMem {m n : Mach} (h : SameMem m n) : SameDevice m n :=
  ⟨h.mem, h.hostMem, h.read (·.mgmt) fun _ => rfl, h.read (·.grpPos) fun _ => rfl, fun pa => h.read (·.errAt (.hbm pa)) fun _ => rfl⟩
theorem zeroRegion (m : Mach) (k base size : Nat) : SameDevice m (zeroRegion m k base size) := by
  refine ⟨rfl, rfl, rfl, rfl, fun pa => ?_⟩
  simp [Mach.errAt, Machine.zeroRegion, List.contains_eq_mem]

variable {m n : Mach} (h : SameDevice m n)
include h
theorem walk (va : Nat) : n.walk va = m.walk va := by
  have hmgmt : n.mgmtAt 0x018 = m.mgmtAt 0x018 := by rw [Mach.mgmtAt, h.mgmt, h.grpPos, Mach.mgmtAt]
  have hpte : ∀ t ix, n.pte t ix = m.pte t ix := fun t ix => by rw [Mach.pte, h.mem, Mach.pte]
  have herr : ∀ t ix, n.pteErr t ix = m.pteErr t ix := fun t ix => by simp only [pteErr_eq, h.hbmErr]
  simp only [Mach.walk, hmgmt, hpte, herr]
theorem sysLoc (va : Nat) : n.sysLoc va = m.sysLoc va := by rw [Mach.sysLoc, h.walk, Mach.sysLoc]
theorem read {va : Nat} {l : Loc} (hl : m.sysLoc va = some l) : n.read l = m.read l := by
  cases l with
  | hbm pa => exact congrArg (cget · pa) h.mem
  | host pa => exact congrArg (cget · pa) h.hostMem
  | scratch k => exact absurd hl (sysLoc_ne_scratch m va k)
theorem errAt {va : Nat} {l : Loc} (hl : m.sysLoc va = some l) : n.errAt l = m.errAt l := by
  cases l with
  | hbm pa => exact h.hbmErr pa
  | host pa => rfl
  | scratch k => exact absurd hl (sysLoc_ne_scratch m va k)
theorem devNat (va k : Nat) : n.devNat va k = m.devNat va k := by
  refine congrArg leNat (List.map_congr_left fun a _ => ?_)
  rw [h.sysLoc]
  cases hl : m.sysLoc a with
  | none => rfl
  | some l => exact h.read hl
theorem devFailure (a k : Nat) (write : Bool) : n.devFailure a k write = m.devFailure a k write := by
  have hany : ∀ x, (n.sysLoc x).any n.errAt = (m.sysLoc x).any m.errAt := fun x => by
    rw [h.sysLoc]
    cases hl : m.sysLoc x with
    | none => rfl
    | some l => exact h.errAt hl
  have hpage : pageFailure n = pageFailure m := funext fun va => by rw [pageFailure, h.walk, pageFailure]
  simp only [devFailure_eq, hpage, hany]
end SameDevice

end Sys2Proof.Proofs
end

section
/-! SUPPORT. Pre-emption and restore: PREEMPT, the save entry, RESTORE, and the restore entry of a seat claimed again (17 R339 to R342; 18 R358). -/
namespace Sys2Proof.Proofs
open Sys2Proof.Machine Sys2Proof.Safety Sys2Proof.Claims

/-! Requests (18 R358). -/

/-- A request that is asked for runs over the machine. -/
theorem onRequest_asked {s : State} {code : Nat} {v : Word} (h : Asked s code v) (f : Mach → Mach) : onRequest code v s.m f = f s.m :=
  if_pos (by simp [h.1, h.2])
theorem mgmtAt_setMgmt_same (m : Mach) (off v : Nat) : (m.setMgmt off v).mgmtAt off = v % 2 ^ 64 := by
  simp [Mach.setMgmt, Mach.mgmtAt, mget?_mset_same]
theorem mgmtAt_setMgmt_ne (m : Mach) {off o : Nat} (v : Nat) (h : off ≠ o) : (m.setMgmt off v).mgmtAt o = m.mgmtAt o := by
  simp [Mach.setMgmt, Mach.mgmtAt, mget?_mset_ne _ _ h]
theorem mgmtAt_reqDone (m : Mach) (result : Nat) : (reqDone m result).mgmtAt 0x078 = result * 16 % 2 ^ 64 := mgmtAt_setMgmt_same m 0x078 _

/-! Handler entries for a save or a restore (17 R333). -/

/-- The entry moves no context but its own. -/
theorem ctx_enterHandler_ne (m : Mach) {cx j : Nat} (pc : Word) (slots : BitVec 6) (resume : Word) (f : FaultRec) (k : EntryKind) (h : cx ≠ j) :
    (enterHandler m cx pc slots resume f k).ctx j = m.ctx j := by
  rw [enterHandler, ctx_modCtx_ne _ _ h, Mach.dropWaiter, ctx_modCore]
/-- The context stands at its handler's first bundle, and FAULT_PC is its point of resumption. -/
theorem enterHandler_entered (m : Mach) (cx : Nat) (pc : Word) (slots : BitVec 6) (resume : Word) {f : FaultRec} (hf : f.cause = 0x16)
    (k : EntryKind) : AtHandler ((enterHandler m cx pc slots resume f k).ctx cx) pc f.info k ∧
      ((enterHandler m cx pc slots resume f k).ctx cx).faultPc = resume := by
  rw [enterHandler, ctx_modCtx_same]
  exact ⟨⟨rfl, rfl, rfl, hf, rfl, rfl⟩, rfl⟩

/-! PREEMPT (R339). -/

/-- A running context has a PREEMPT after its other events. -/
def askedToStop (c : Ctx) : Ctx := if c.life == .running then { c with events := c.events ++ [.preempt] } else c
theorem life_askedToStop (c : Ctx) : (askedToStop c).life = c.life := by
  unfold askedToStop
  split <;> rfl
theorem mem_events_askedToStop {c : Ctx} (h : c.life = .running) : CtxEvent.preempt ∈ (askedToStop c).events := by simp [askedToStop, h]
/-- Contexts are changed one by one: what is not listed stays. -/
theorem ctx_foldl_modCtx_of_notMem (f : Ctx → Ctx) {cxs : List Nat} {cx : Nat} (h : cx ∉ cxs) (m : Mach) :
    (cxs.foldl (fun m cx => m.modCtx cx f) m).ctx cx = m.ctx cx := by
  induction cxs generalizing m with
  | nil => rfl
  | cons c cs ih =>
    obtain ⟨hc, hcs⟩ := List.ne_and_not_mem_of_not_mem_cons h
    exact (ih hcs _).trans (ctx_modCtx_ne _ _ (Ne.symm hc))
/-- What a change gives every context, and what another change of it keeps, a listed context has in the end. -/
theorem ctx_foldl_modCtx_of_mem {P Q : Ctx → Prop} {f : Ctx → Ctx} (hQ : ∀ c, Q c → Q (f c)) (hP : ∀ c, Q c → P (f c)) {cxs : List Nat} {cx : Nat}
    (h : cx ∈ cxs) {m : Mach} (hq : Q (m.ctx cx)) : P ((cxs.foldl (fun m cx => m.modCtx cx f) m).ctx cx) := by
  induction cxs generalizing m with
  | nil => cases h
  | cons c cs ih =>
    have hq' : Q ((m.modCtx c f).ctx cx) := by
      by_cases hc : c = cx
      · subst hc
        rw [ctx_modCtx_same]
        exact hQ _ hq
      · rwa [ctx_modCtx_ne _ _ hc]
    by_cases hmem : cx ∈ cs
    · exact ih hmem hq'
    · obtain rfl := (List.mem_cons.1 h).resolve_right hmem
      refine (ctx_foldl_modCtx_of_notMem f hmem _).symm ▸ ?_
      rw [ctx_modCtx_same]
      exact hP _ hq
/-- The machine in which every running context of a launch has its PREEMPT, and the launch stops. -/
def stopping (m : Mach) (l : Launch) : Mach :=
  (l.allCtxs.foldl (fun m cx => m.modCtx cx askedToStop) m).modLaunch l.lid fun l => { l with phase := .stopping, stopAt := m.time }
section
variable {m : Mach} {lid : Word} {l : Launch} (hl : m.launch? lid = some l)
include hl
theorem preempt_refused (h : l.phase = .failing ∨ l.phase = .running ∧ l.kernel.handler = none) : preempt m lid = reqDone m 1 := by
  unfold preempt
  rw [hl]
  rcases h with h | ⟨h, hh⟩
  · simp only [h]
  · simp only [h, hh, Option.isNone_none, if_true]
theorem preempt_running (h : l.phase = .running) (hh : l.kernel.handler ≠ none) : preempt m lid = stopping m l := by
  obtain rfl := lid_of_launch? hl
  have htime : (l.allCtxs.foldl (fun m cx => m.modCtx cx askedToStop) m).time = m.time :=
    foldl_keeps (fun n : Mach => n.time = m.time) (fun n cx => n.modCtx cx askedToStop) (fun _ _ hn => hn) _ _ rfl
  unfold preempt stopping
  rw [hl, ← htime]
  simp only [h]
  exact if_neg (by simpa using hh)
end
/-- A launch that stops: nothing moves but the events of its contexts and its phase. -/
theorem stopping_frame {m : Mach} {l : Launch} (hl : m.launch? l.lid = some l) :
    (stopping m l).launch? l.lid = some { l with phase := .stopping, stopAt := m.time } ∧
    (∀ cx ∈ l.allCtxs, (m.ctx cx).life = .running → CtxEvent.preempt ∈ ((stopping m l).ctx cx).events) ∧
    (∀ cx, cx ∉ l.allCtxs → (stopping m l).ctx cx = m.ctx cx) ∧ (stopping m l).mgmt = m.mgmt ∧ ∀ a, (stopping m l).read a = m.read a := by
  have hrest : ∀ {P : Mach → Prop}, (∀ n cx, P n → P (n.modCtx cx askedToStop)) → P m → P (l.allCtxs.foldl (fun m cx => m.modCtx cx askedToStop) m) :=
    fun hP => foldl_keeps _ _ hP _ _
  refine ⟨launch?_modLaunch_same (fun _ => rfl) ?_, fun cx hcx hr => ?_, fun cx hcx => ?_, ?_, fun a => ?_⟩
  · exact hrest (P := fun n => n.launch? l.lid = some l) (fun _ _ hn => hn) hl
  · exact ctx_foldl_modCtx_of_mem (P := fun c => CtxEvent.preempt ∈ c.events) (Q := fun c => c.life = .running)
      (fun c hc => (life_askedToStop c).trans hc) (fun _ hc => mem_events_askedToStop hc) hcx hr
  · exact ctx_foldl_modCtx_of_notMem askedToStop hcx m
  · exact hrest (P := fun n => n.mgmt = m.mgmt) (fun _ _ hn => hn) rfl
  · exact (read_modLaunch _ _ _ _).trans (hrest (P := fun n => n.read a = m.read a) (fun n cx hn => (read_modCtx n cx _ a).trans hn) rfl)

/-! The save entry (R340). -/

theorem Calm.modCore (m : Mach) (k : Nat) (f : Core → Core) : Calm m (m.modCore k f) := .of_eq rfl rfl
theorem Calm.removeOp (m : Mach) (o : EOp) : Calm m (removeOp m o) :=
  (Calm.modCore m (coreOf o.cx) fun c => { c with ops := c.ops.filter (·.uid != o.uid), staged := restage o c.staged }).trans
    (.setTokenDone _ o.cx o.kd o.uid)
/-- The spill of an image ends its send: no context's life or events move. -/
theorem Calm.spillOne (l : Launch) (m : Mach) (x : SendRec × Nat × Nat) : Calm m (spillOne l m x) := by
  unfold Machine.spillOne
  dsimp only
  generalize hn : Mach.modCore (m.devStore l.home (l.spillBase + x.2.1) x.1.image) _ _ = n
  have hcalm : Calm m n := by
    rw [← hn]
    exact (Calm.store (.devStore m _ _ _)).trans (.modCore _ _ _)
  refine (hcalm.trans ?_).trans (.modLaunch _ _ fun _ => rfl)
  split
  · exact .removeOp n _
  · exact .refl n

/-- A write-out moves no context but its own. -/
theorem ctx_writeOut_ne (m : Mach) {cx j : Nat} (reason : Nat) (tables : Bool) (h : cx ≠ j) : (writeOut m cx reason tables).ctx j = m.ctx j := by
  have hshadow : ∀ pc es, StoreOnly m (writeShadow m cx reason pc es) := fun pc es => by
    unfold writeShadow
    exact foldl_keeps (StoreOnly m) _ (fun n x hn => hn.trans (.devStore n _ _ _)) _ _ (.devStore m _ _ _)
  unfold writeOut
  dsimp only
  rw [ctx_modCtx_ne _ _ h, ctx_modCtx_ne _ _ h, ctx_modCtx_ne _ _ h, ctx_modCore]
  exact (hshadow _ _).ctx j
theorem saveCtx_of_not_running {m : Mach} {cx : Nat} (h : (m.ctx cx).life ≠ .running) (lid pc : Word) : saveCtx lid pc m cx = m := if_pos h
/-- A context that runs is written out, enters its handler and is listed with its launch. -/
theorem saveCtx_running {m : Mach} {cx : Nat} (h : (m.ctx cx).life = .running) (lid pc : Word) : ∃ f resume g, saveCtx lid pc m cx =
    (enterHandler ((writeOut m cx 1 true).modCtx cx f) cx pc 0 resume { cause := 0x16 } .save).modLaunch lid g :=
  ⟨_, _, _, if_neg (not_not.2 h)⟩
theorem ctx_saveCtx_ne (lid pc : Word) (m : Mach) {cx j : Nat} (h : cx ≠ j) : (saveCtx lid pc m cx).ctx j = m.ctx j := by
  by_cases hr : (m.ctx cx).life = .running
  · obtain ⟨f, resume, g, he⟩ := saveCtx_running hr lid pc
    rw [he, ctx_modLaunch, ctx_enterHandler_ne _ _ _ _ _ _ h, ctx_modCtx_ne _ _ h, ctx_writeOut_ne _ _ _ h]
  · rw [saveCtx_of_not_running hr]
theorem saveCtx_entered {m : Mach} {cx : Nat} (h : (m.ctx cx).life = .running) (lid pc : Word) :
    AtHandler ((saveCtx lid pc m cx).ctx cx) pc 0 .save := by
  obtain ⟨f, resume, g, he⟩ := saveCtx_running h lid pc
  rw [he, ctx_modLaunch]
  exact (enterHandler_entered _ cx pc 0 resume rfl .save).1
/-- The save entry of some contexts: those that run enter their handler, each other stays as it is. -/
theorem foldl_saveCtx_ctx (lid pc : Word) (cxs : List Nat) (m : Mach) (cx : Nat) :
    ((m.ctx cx).life ≠ .running → (cxs.foldl (saveCtx lid pc) m).ctx cx = m.ctx cx) ∧
      ((m.ctx cx).life = .running → cx ∈ cxs ∨ AtHandler (m.ctx cx) pc 0 .save → AtHandler ((cxs.foldl (saveCtx lid pc) m).ctx cx) pc 0 .save) := by
  induction cxs generalizing m with
  | nil => exact ⟨fun _ => rfl, fun _ h => h.resolve_left List.not_mem_nil⟩
  | cons c cs ih =>
    obtain ⟨ih1, ih2⟩ := ih (saveCtx lid pc m c)
    by_cases hc : c = cx
    · subst hc
      refine ⟨fun h => ?_, fun h _ => ?_⟩
      · have hs := saveCtx_of_not_running h lid pc
        exact (ih1 (by rwa [hs])).trans (congrArg (fun n : Mach => n.ctx c) hs)
      · have he := saveCtx_entered h lid pc
        exact ih2 he.1 (.inr he)
    · have hs := ctx_saveCtx_ne lid pc m hc
      rw [hs] at ih1 ih2
      exact ⟨ih1, fun h hm => ih2 h (hm.imp_left fun hm => (List.mem_cons.1 hm).resolve_left (Ne.symm hc))⟩

section
variable {m : Mach} {lid : Word} {l : Launch} (hl : m.launch? lid = some l) (hp : l.phase = .stopping) (hs : l.saved = [])
  (hb : reqBusy m 3 = true) (hst : stopped m l = true)
include hl hp hs hb hst
/-- SAVE_ENTRY once everything has stopped. -/
theorem saveEntry_stopped : saveEntry m lid =
    match l.handlerPc, spillPlaces l.kernel.spill l.spillUsed (unspilled m l) with
    | some pc, some ps => reqDone (l.allCtxs.foldl (saveCtx lid pc) (ps.foldl (spillOne l) m)) 0
    | _, _ => declinePreempt m l := by
  unfold saveEntry
  rw [hl]
  exact if_neg (by simp [hp, hs, hb, hst])
theorem saveEntry_enters {pc : Word} {ps : List (SendRec × Nat × Nat)} (hpc : l.handlerPc = some pc)
    (hps : spillPlaces l.kernel.spill l.spillUsed (unspilled m l) = some ps) :
    saveEntry m lid = reqDone (l.allCtxs.foldl (saveCtx lid pc) (ps.foldl (spillOne l) m)) 0 := by
  rw [saveEntry_stopped hl hp hs hb hst, hpc, hps]
theorem saveEntry_declines (hps : spillPlaces l.kernel.spill l.spillUsed (unspilled m l) = none) : saveEntry m lid = declinePreempt m l := by
  rw [saveEntry_stopped hl hp hs hb hst, hps]
  cases l.handlerPc <;> rfl
end
/-- Each context of the launch at its handler, or draining on. -/
theorem saved_ctx (m : Mach) (l : Launch) (lid pc : Word) (ps : List (SendRec × Nat × Nat)) {cx : Nat} (hcx : cx ∈ l.allCtxs) :
    let n := reqDone (l.allCtxs.foldl (saveCtx lid pc) (ps.foldl (spillOne l) m)) 0
    ((m.ctx cx).life = .running → AtHandler (n.ctx cx) pc 0 .save) ∧ ((m.ctx cx).life = .draining → (n.ctx cx).life = .draining) := by
  have hlife := (Calm.foldl (Calm.spillOne l) ps m).life cx
  obtain ⟨hstays, henters⟩ := foldl_saveCtx_ctx lid pc l.allCtxs (ps.foldl (spillOne l) m) cx
  rw [hlife] at hstays henters
  refine ⟨fun h => henters h (.inl hcx), fun h => ?_⟩
  exact (congrArg Ctx.life (hstays (by simp [h]))).trans (hlife.trans h)
/-- A context whose PREEMPT is withdrawn. -/
def notAsked (c : Ctx) : Ctx := { c with events := c.events.filter (· != .preempt) }
theorem declinePreempt_frame {m : Mach} {l : Launch} (hl : m.launch? l.lid = some l) :
    (declinePreempt m l).mgmtAt 0x078 = 16 ∧ (∃ x, (declinePreempt m l).launch? l.lid = some x ∧ x.phase = .running) ∧
      ∀ cx ∈ l.allCtxs, CtxEvent.preempt ∉ ((declinePreempt m l).ctx cx).events := by
  refine ⟨mgmtAt_reqDone _ 1, ⟨_, launch?_modLaunch_same (l := l) (fun _ => rfl) ?_, rfl⟩, fun cx hcx => ?_⟩
  · exact foldl_keeps (fun n : Mach => n.launch? l.lid = some l) (fun n cx => n.modCtx cx notAsked) (fun _ _ hn => hn) _ _ hl
  · exact ctx_foldl_modCtx_of_mem (Q := fun _ => True) (P := fun c => CtxEvent.preempt ∉ c.events) (f := notAsked) (fun _ _ => trivial)
      (fun c _ => by simp [notAsked]) hcx trivial

/-! RESTORE, and the restore entry (R341). -/

/-- A launch that restores from now on, its watchdog's first interval beginning (R341). -/
def restarted (now : Word) (l : Launch) : Launch := { l with
  phase := .restoring, tickAt := now + BitVec.ofNat 64 l.interval, active := false, stalledAll := false, nothing := false, idleTicks := 0 }
section
variable {m : Mach} {lid : Word} {l : Launch} (hl : m.launch? lid = some l)
include hl
theorem restore_refused (h : l.phase = .running ∨ l.phase = .failing) : restore m lid = reqDone m 1 := by
  unfold restore
  rw [hl]
  rcases h with h | h <;> simp only [h]
theorem restore_swapped (h : l.phase = .swapped) : restore m lid = reqDone (m.modLaunch lid (restarted m.time)) 0 := by
  unfold restore
  rw [hl]
  simp only [h]
  rfl
end

/-- A saved context with what it is given back, the failure to read its point of resumption logged. -/
def givenBack (m : Mach) (x : SavedCtx) : Mach :=
  (m.logDev (dieOf x.core) (m.devFailure (x.shadow.toNat + 24) 8 false)).modCtx x.cx fun c => { c with
    life := .running, shadow := x.shadow, subs := x.subs, qwRoot := x.qwRoot, events := x.events, engFault := x.engFault,
    tiles := [], bobbins := [], fill := m.fresh * 2048 + x.cx }
/-- Where a saved context goes on: a free value where that cannot be read (log 96). -/
def resumption (m : Mach) (x : SavedCtx) : Word :=
  if (m.devFailure (x.shadow.toNat + 24) 8 false).isSome then Config.freeWord m.fresh else BitVec.ofNat 64 (m.devNat (x.shadow.toNat + 24) 8)
/-- A saved context that has entered its handler. -/
def reentered (pc : Word) (m : Mach) (x : SavedCtx) : Mach :=
  enterHandler (givenBack m x) x.cx pc 0 (resumption m x) { cause := 0x16, info := 1 } .restore
theorem restoreCtx_eq (l : Launch) (pc : Word) (m : Mach) (x : SavedCtx) : ∃ f, restoreCtx l pc m x =
    ((reentered pc m x).modCore x.core f).freshen.modLaunch l.lid fun l => { l with saved := l.saved.erase x } := ⟨_, rfl⟩
/-- The rest of a restore entry moves no context. -/
theorem ctx_restoreCtx (l : Launch) (pc : Word) (m : Mach) (x : SavedCtx) (j : Nat) : (restoreCtx l pc m x).ctx j = (reentered pc m x).ctx j := by
  obtain ⟨f, he⟩ := restoreCtx_eq l pc m x
  rw [he, ctx_modLaunch]
  generalize reentered pc m x = n
  rfl
/-- The device's agents find their memory as it was after a context's restore entry. -/
theorem sameDevice_restoreCtx (l : Launch) (pc : Word) (m : Mach) (x : SavedCtx) : SameDevice m (restoreCtx l pc m x) := by
  have henter : ∀ n : Mach, SameMem n (enterHandler n x.cx pc 0 (resumption m x) { cause := 0x16, info := 1 } .restore) := fun _ => rfl
  have hback : SameMem m (reentered pc m x) := (SameMem.logDev m _ _).trans (henter (givenBack m x))
  obtain ⟨f, he⟩ := restoreCtx_eq l pc m x
  rw [he]
  generalize reentered pc m x = n at hback
  exact .of_sameMem (hback.trans rfl)
/-- A restore entry moves no context but its own. -/
theorem ctx_restoreCtx_ne (l : Launch) (pc : Word) (m : Mach) {x : SavedCtx} {j : Nat} (h : x.cx ≠ j) : (restoreCtx l pc m x).ctx j = m.ctx j := by
  rw [ctx_restoreCtx, reentered, ctx_enterHandler_ne _ _ _ _ _ _ h, givenBack, ctx_modCtx_ne _ _ h]
  exact (StoreOnly.logDev m _ _).ctx j
/-- The context stands at its handler; its point of resumption is the saved one, where that can be read. -/
theorem restoreCtx_entered (l : Launch) (pc : Word) (m : Mach) (x : SavedCtx) :
    AtHandler ((restoreCtx l pc m x).ctx x.cx) pc 1 .restore ∧ ((restoreCtx l pc m x).ctx x.cx).faultPc = resumption m x := by
  rw [ctx_restoreCtx]
  exact enterHandler_entered (givenBack m x) x.cx pc 0 (resumption m x) (f := { cause := 0x16, info := 1 }) rfl .restore
theorem SameDevice.resumption {m n : Mach} (h : SameDevice m n) {x : SavedCtx} (hr : m.devFailure (x.shadow.toNat + 24) 8 false = none) :
    resumption n x = BitVec.ofNat 64 (m.devNat (x.shadow.toNat + 24) 8) := by
  rw [Proofs.resumption, h.devFailure, h.devNat, hr]
  rfl
theorem launch?_restoreCtx (l : Launch) (pc : Word) (m : Mach) (x : SavedCtx) {z : Launch} (hz : m.launch? l.lid = some z) :
    (restoreCtx l pc m x).launch? l.lid = some { z with saved := z.saved.erase x } := by
  have hback : (reentered pc m x).launches = m.launches := (StoreOnly.logDev m _ _).launches
  obtain ⟨f, he⟩ := restoreCtx_eq l pc m x
  rw [he]
  generalize reentered pc m x = n at hback
  exact launch?_modLaunch_same (fun _ => rfl) ((launch?_congr hback l.lid).trans hz)
/-- Of several saved contexts that are restored, one whose context no other names stands at its handler in the end. -/
theorem foldl_restoreCtx_entered (l : Launch) (pc : Word) {xs : List SavedCtx} {x : SavedCtx} (h : xs.filter (fun y => y.cx == x.cx) = [x])
    {m n : Mach} (hdev : SameDevice m n) :
    AtHandler ((xs.foldl (restoreCtx l pc) n).ctx x.cx) pc 1 .restore ∧ (m.devFailure (x.shadow.toNat + 24) 8 false = none →
      ((xs.foldl (restoreCtx l pc) n).ctx x.cx).faultPc = BitVec.ofNat 64 (m.devNat (x.shadow.toNat + 24) 8)) := by
  obtain ⟨as, bs, rfl, -, -, hbs⟩ := List.filter_eq_cons_iff.1 h
  have hmid : SameDevice m (as.foldl (restoreCtx l pc) n) :=
    foldl_keeps (SameDevice m) _ (fun k y hk => hk.trans (sameDevice_restoreCtx l pc k y)) _ _ hdev
  have hrest : ∀ k : Mach, (bs.foldl (restoreCtx l pc) k).ctx x.cx = k.ctx x.cx := by
    clear h
    induction bs with
    | nil => exact fun _ => rfl
    | cons y bs ih =>
      rw [List.filter_eq_nil_iff, List.forall_mem_cons] at hbs
      obtain ⟨hy, hbs⟩ := hbs
      exact fun k => (ih (List.filter_eq_nil_iff.2 hbs) _).trans (ctx_restoreCtx_ne l pc k (by simpa using hy))
  obtain ⟨hat, hpc⟩ := restoreCtx_entered l pc (as.foldl (restoreCtx l pc) n) x
  rw [List.foldl_append, List.foldl_cons, hrest]
  exact ⟨hat, fun hr => hpc.trans (hmid.resumption hr)⟩

/-- A launch, one of whose seats has been claimed again: of the entries kept for the seat its core has had `n`, and the rest are held
(16 R320). -/
def reclaimed (st : SeatRec) (mine : List RecvEnt) (n : Nat) (l : Launch) : Launch := { l with
  oldSeats := l.oldSeats.erase st, held := mine.drop n ++ l.held, kept := l.kept.filter fun e => !st.ctxs.contains e.cx,
  savedSubs := l.savedSubs.filter fun x => !st.ctxs.contains x.1 }
/-- The machine in which a seat has been claimed again, its contexts not yet at their restore entry. -/
def reseated (m : Mach) (l : Launch) (core : Nat) (st : SeatRec) (base : Nat) : Mach :=
  let mine := l.kept.filter fun e => st.ctxs.contains e.cx
  let seated := (giveSeat m.freshen l { st with base := base }).modLaunch l.lid (reclaimed st mine (recvRoom m core))
  (l.savedSubs.filter fun x => st.ctxs.contains x.1).foldl (fun m x => m.modCtx x.1 fun c => { c with subs := x.2 })
    (seated.modCore core fun c => { c with recvs := c.recvs ++ mine.take (recvRoom m core) })
/-- Changes of contexts leave memory and launches. -/
theorem foldl_setCtx_frame {α : Type} (g : α → Nat) (f : Mach → α → Ctx) (xs : List α) (m : Mach) :
    SameMem m (xs.foldl (fun m x => m.setCtx (g x) (f m x)) m) ∧ (xs.foldl (fun m x => m.setCtx (g x) (f m x)) m).launches = m.launches :=
  foldl_keeps (fun n : Mach => SameMem m n ∧ n.launches = m.launches) (fun m x => m.setCtx (g x) (f m x)) (fun _ _ h => ⟨h.1.trans rfl, h.2⟩) _ _
    ⟨rfl, rfl⟩
/-- A seat given leaves the memory of the device's agents: it zeroes scratchpad alone (12 R214). -/
theorem sameDevice_giveSeat (m : Mach) (l : Launch) (st : SeatRec) : SameDevice m (giveSeat m l st) := by
  have hctxs : ∀ n : Mach, SameMem n (((upFrom 0 st.ctxs.length).zip st.ctxs).foldl
      (fun m x => m.setCtx x.2 (seatCtx m l st.base x.1 (st.blocks.getD x.1 x.2) x.2)) n.freshen) := fun n =>
    (show SameMem n n.freshen from rfl).trans (foldl_setCtx_frame Prod.snd (fun m x => seatCtx m l st.base x.1 (st.blocks.getD x.1 x.2) x.2) _ _).1
  exact (SameDevice.zeroRegion m st.core st.base st.size).trans (.of_sameMem ((hctxs _).trans rfl))
/-- A seat claimed again is its launch's, and waits for restore no longer; the device's agents find their memory as it was. -/
theorem reseated_frame {m : Mach} {l : Launch} (hl : m.launch? l.lid = some l) (core : Nat) (st : SeatRec) (base : Nat) :
    SameDevice m (reseated m l core st base) ∧ ∃ z, (reseated m l core st base).launch? l.lid = some z ∧ z.oldSeats = l.oldSeats.erase st ∧
      z.seats.length = l.seats.length + 1 := by
  have hseat : SameDevice m (giveSeat m.freshen l { st with base := base }) :=
    (SameDevice.of_sameMem (show SameMem m m.freshen from rfl)).trans (sameDevice_giveSeat m.freshen l _)
  have hgiven := (giveSeat_frame m.freshen l { st with base := base }).2 l hl
  unfold reseated
  generalize giveSeat m.freshen l { st with base := base } = n at hseat hgiven
  obtain ⟨hmem, hlaunches⟩ := foldl_setCtx_frame (α := Nat × List Sub) Prod.fst (fun m x => { m.ctx x.1 with subs := x.2 })
    (l.savedSubs.filter fun x => st.ctxs.contains x.1)
    ((n.modLaunch l.lid (reclaimed st (l.kept.filter fun e => st.ctxs.contains e.cx) (recvRoom m core))).modCore core fun c =>
      { c with recvs := c.recvs ++ (l.kept.filter fun e => st.ctxs.contains e.cx).take (recvRoom m core) })
  refine ⟨hseat.trans (.of_sameMem ((show SameMem n _ from rfl).trans hmem)), _,
    (launch?_congr hlaunches _).trans (launch?_modLaunch_same (fun _ => rfl) hgiven), rfl, ?_⟩
  simp [reclaimed]
/-- RESTORE_SEAT_CLAIM where the seat has a place: the saved contexts of the seat enter their handlers (R341). -/
theorem restoreSeat_claimed {m : Mach} {lid : Word} {l : Launch} {core : Nat} {st : SeatRec} {pc : Word} {base : Nat} (hl : m.launch? lid = some l)
    (hp : l.phase = .restoring) (hst : l.oldSeats.find? (fun y => y.core == core && y.ctxs.all (freeCtxs m core).contains) = some st)
    (hpc : l.handlerPc = some pc) (hb : m.pickOf (regionPlaces m core st.size) = some base) (hg : (m.core core).gated = false)
    (hr : (m.core core).inReset = false) (ht : tilesUsed m core + st.ctxs.length * l.kernel.tiles ≤ 8)
    (hs : l.saved.filter (fun y => st.ctxs.contains y.cx) ≠ []) :
    restoreSeat m lid core = (l.saved.filter fun y => st.ctxs.contains y.cx).foldl (restoreCtx l pc) (reseated m l core st base) := by
  obtain rfl := lid_of_launch? hl
  unfold restoreSeat
  rw [hl]
  dsimp only
  rw [hp, hst, hpc]
  dsimp only
  rw [if_neg (by simp [hg]), if_neg (by simp [hr, ht]), hb]
  exact if_neg (by simpa using hs)
/-- The launch and a saved context after the restore of the context's seat. -/
theorem restored_frame {m : Mach} {l : Launch} (hl : m.launch? l.lid = some l) (core : Nat) (st : SeatRec) (base : Nat) (pc : Word) {x : SavedCtx}
    (hx : x.cx ∈ st.ctxs) (h : l.saved.filter (fun y => y.cx == x.cx) = [x]) :
    let n := (l.saved.filter fun y => st.ctxs.contains y.cx).foldl (restoreCtx l pc) (reseated m l core st base)
    (∃ z, n.launch? l.lid = some z ∧ z.oldSeats = l.oldSeats.erase st ∧ z.seats.length = l.seats.length + 1) ∧
      AtHandler (n.ctx x.cx) pc 1 .restore ∧ (m.devFailure (x.shadow.toNat + 24) 8 false = none →
        (n.ctx x.cx).faultPc = BitVec.ofNat 64 (m.devNat (x.shadow.toNat + 24) 8)) := by
  obtain ⟨hdev, hz⟩ := reseated_frame hl core st base
  have hone : (l.saved.filter fun y => st.ctxs.contains y.cx).filter (fun y => y.cx == x.cx) = [x] := by
    rw [List.filter_comm, h]
    simp [hx]
  refine ⟨?_, foldl_restoreCtx_entered l pc hone hdev⟩
  refine foldl_keeps (fun n : Mach => ∃ z, n.launch? l.lid = some z ∧ z.oldSeats = l.oldSeats.erase st ∧ z.seats.length = l.seats.length + 1) _
    (fun n y hn => ?_) _ _ hz
  obtain ⟨z, hz, hold, hseats⟩ := hn
  exact ⟨_, launch?_restoreCtx l pc n y hz, hold, hseats⟩
theorem restoreSeat_gated {m : Mach} {lid : Word} {l : Launch} {core : Nat} {st : SeatRec} {pc : Word} (hl : m.launch? lid = some l)
    (hp : l.phase = .restoring) (hst : l.oldSeats.find? (fun y => y.core == core && y.ctxs.all (freeCtxs m core).contains) = some st)
    (hpc : l.handlerPc = some pc) (hg : (m.core core).gated = true) : restoreSeat m lid core = wakeFor m [core] := by
  unfold restoreSeat
  rw [hl]
  dsimp only
  rw [hp, hst, hpc]
  exact if_pos hg

/-- Settles O56: each request by the launch's phase; the save entry by its folds over spills and contexts; the restore entry by what the
device's agents read and by its fold over the saved contexts. -/
theorem swapOutAndRestore : Obligations.SwapOutAndRestore := by
  unfold Obligations.SwapOutAndRestore
  refine ⟨fun s lid ha => ⟨fun hl => ?preemptNone, fun l hl h => ?preemptRefused, fun l hl hp hh => ?preempted⟩,
    fun s lid l hl hp hs hb hst => ⟨fun pc ps hpc hps => ?saved, fun hps => ?declined⟩,
    fun s lid ha => ⟨fun hl => ?restoreNone, fun l hl h => ?restoreRefused, fun l hl hp => ?restoring⟩,
    fun s lid core l st pc x hl hp hst hpc hroom hg hr ht hc hx hone => ?restored,
    fun s lid core l st pc hl hp hst hpc hg => ⟨_, next_put (restoreSeat_gated hl hp hst hpc hg), woken_wakeFor s [core]⟩⟩
  case preemptNone => exact next_put ((onRequest_asked ha _).trans (by rw [preempt, hl]))
  case preemptRefused => exact next_put ((onRequest_asked ha _).trans (preempt_refused hl h))
  case preempted =>
    obtain rfl := lid_of_launch? hl
    obtain ⟨hx, hrest⟩ := stopping_frame hl
    exact ⟨_, _, next_put ((onRequest_asked ha _).trans (preempt_running hl hp hh)), hx, rfl, hrest⟩
  case saved =>
    exact ⟨_, next_put (saveEntry_enters hl hp hs hb hst hpc hps), mgmtAt_reqDone_zero _, fun cx hcx => saved_ctx s.m l lid pc ps hcx⟩
  case declined =>
    obtain rfl := lid_of_launch? hl
    obtain ⟨hres, ⟨x, hx, hrun⟩, hev⟩ := declinePreempt_frame hl
    exact ⟨_, x, next_put (saveEntry_declines hl hp hs hb hst hps), hres, hx, hrun, hev⟩
  case restoreNone => exact next_put ((onRequest_asked ha _).trans (by rw [restore, hl]))
  case restoreRefused => exact next_put ((onRequest_asked ha _).trans (restore_refused hl h))
  case restoring =>
    exact ⟨_, restarted s.m.time l, next_put ((onRequest_asked ha _).trans (restore_swapped hl hp)), launch?_modLaunch_same (fun _ => rfl) hl, rfl,
      mgmtAt_reqDone_zero _, rfl⟩
  case restored =>
    obtain rfl := lid_of_launch? hl
    obtain ⟨base, hb, -⟩ := pickOf_mem s.m hroom
    have hback : l.saved.filter (fun y => st.ctxs.contains y.cx) ≠ [] := by
      have hmem : x ∈ l.saved.filter fun y => 8 * y.core + y.ctx == 8 * x.core + x.ctx := by simp [hone]
      exact List.ne_nil_of_mem (List.mem_filter.2 ⟨List.mem_of_mem_filter hmem, by simpa [SavedCtx.cx] using hx⟩)
    obtain ⟨⟨z, hz, hold, hseats⟩, hat, hpc'⟩ := restored_frame hl core st base pc hx hone
    exact ⟨_, z, next_put (restoreSeat_claimed hl hp hst hpc hb hg hr ht hback), hz, hold, hat, hpc', hseats⟩

end Sys2Proof.Proofs
end

section
/-! SUPPORT. What releasing a context and failing its launch leave of the launches: each stands, and a failed one is failing (17 R337). -/
namespace Sys2Proof.Proofs
open Sys2Proof.Machine Sys2Proof.Safety Sys2Proof.Claims

/-- The launches are as they were. -/
def SameLaunches (m n : Mach) : Prop := n.launches = m.launches
namespace SameLaunches
theorem refl (m : Mach) : SameLaunches m m := rfl
theorem trans {a b c : Mach} (h : SameLaunches a b) (k : SameLaunches b c) : SameLaunches a c := Eq.trans k h
theorem foldl {α : Type} {f : Mach → α → Mach} (hf : ∀ n x, SameLaunches n (f n x)) (xs : List α) (m : Mach) : SameLaunches m (xs.foldl f m) :=
  foldl_keeps (SameLaunches m) f (fun _ x hn => hn.trans (hf _ x)) xs m (refl m)
theorem ite {m a b : Mach} {p : Prop} [Decidable p] (ha : SameLaunches m a) (hb : SameLaunches m b) : SameLaunches m (if p then a else b) := by
  split
  · exact ha
  · exact hb
theorem l2 {m n : Mach} (h : L2Only m n) : SameLaunches m n := by rw [h]; rfl
theorem store {m n : Mach} (h : StoreOnly m n) : SameLaunches m n := h.launches
theorem write (m : Mach) (l : Loc) (b : Byte) : SameLaunches m (m.write l b) := store (.write m l b)
theorem l2Span (m : Mach) (pas : List Nat) (w c : Bool) (h : Hint) : SameLaunches m (l2Span m pas w c h) := l2 (.span m pas w c h)
theorem l1Fill (m : Mach) (core line : Nat) : SameLaunches m (l1Fill m core line) := ite rfl rfl
theorem notifyWrite (m : Mach) (o n : Nat) (v : Word) : SameLaunches m (m.notifyWrite o n v) := by
  have hnotify : ∀ q, SameLaunches m (m.notify q) := fun q => by
    have hlog : SameLaunches m (m.logQueue q) := store (.logQueue m q)
    have hflag : SameLaunches m (m.qSetFlag q 1 true) := store (.qSetFlag m q 1 true)
    exact ite hlog (ite rfl hflag)
  exact ite (hnotify _) rfl

theorem loadBytes (m : Mach) (core : Nat) (ls : List Loc) (hint : BitVec 8) : SameLaunches m (loadBytes m core ls hint).1 :=
  ite (l2Span m _ _ _ _) ((l2Span m _ _ _ _).trans (foldl (fun k line => l1Fill k core line) _ _))
theorem storeBytes (m : Mach) (core : Nat) (ls : List Loc) (bs : List Byte) (hint : BitVec 8) : SameLaunches m (storeBytes m core ls bs hint) := by
  refine (l2Span m _ _ _ _).trans (foldl (fun k x => ?_) _ _)
  split <;> exact write k _ _
theorem l2Atomic (m : Mach) (pa : Nat) : SameLaunches m (l2Atomic m pa) := by
  have hread : SameLaunches m (l2Access m pa false true ⟨0, false, 0⟩) := l2 (.touch m _ _ _ _ _)
  unfold Machine.l2Atomic
  dsimp only
  split
  · exact hread
  · exact hread
theorem pinLine (cx : Nat) (mask : Option Nat) (m : Mach) (n : Nat) : SameLaunches m (pinLine cx mask m n) := by
  unfold Machine.pinLine
  dsimp only
  split
  · exact l2 (.alloc m _ _ _)
  · exact l2 (.move m _ _ _)
theorem unpinLines (cx : Nat) (ns : List Nat) (m : Mach) : SameLaunches m (ns.foldl (unpinLine cx) m) := l2 (l2Only_foldl_unpinLine cx ns m)

/-- Performing an access moves no launch. -/
theorem performAccess (m : Mach) (cx : Nat) (a : Access) : SameLaunches m (performAccess m cx a) := by
  have hdrop : SameLaunches m (if a.dropL1 then l1Drop m (coreOf cx) else m) := ite rfl rfl
  unfold Machine.performAccess
  dsimp only
  generalize (if a.dropL1 then l1Drop m (coreOf cx) else m) = n at hdrop ⊢
  refine hdrop.trans (ite rfl (ite rfl ?_))
  cases a.kind with
  | load d signed width => exact loadBytes n _ _ _
  | store data => exact storeBytes n _ _ _ _
  | atomic op d x y =>
    refine SameLaunches.trans ?_ (foldl (fun k (x : Loc × Byte) => write k x.1 x.2) _ _)
    split
    · exact l2Atomic n _
    · rfl
  | acquire d => exact l2Span n _ _ _ _
  | notify d o size v => exact notifyWrite n _ _ _
  | setFull line v => cases v <;> rfl
  | writeBack line =>
    dsimp only
    cases mget? n.l2 line <;> rfl
  | prefetch line l1 l2' =>
    have hl2 : SameLaunches n (if l2' then l2Access n (line * 128) false false (hintOf a.hint).prefetch else n) :=
      ite (l2 (.touch n _ _ _ _ _)) rfl
    exact hl2.trans (ite (l1Fill _ _ _) (refl _))
  | pin lines home d =>
    dsimp only
    split
    · exact foldl (pinLine cx home) lines n
    · rfl
  | unpin lines => exact unpinLines cx _ n
  | invalidate line => cases line <;> rfl
  | readRoot k d =>
    dsimp only
    split <;> rfl
  | fence | testFull | barrierTest | give => rfl

/-! The release of a context (07 R138; 15 R290). -/
theorem returnWeight (m : Mach) (r : RootRef) (w : Word) : SameLaunches m (m.returnWeight r w) := by rw [returnWeight_frame]; rfl
theorem returnAll (m : Mach) (r : RootRef) (ws : List Word) : SameLaunches m (m.returnAll r ws) := foldl (fun n w => returnWeight n r w) ws m
theorem dropOps (m : Mach) (cx : Nat) (swap : Bool) : SameLaunches m (dropOps m cx swap) := by
  cases swap with
  | true => rfl
  | false => exact returnAll m _ _
theorem returnShadow (m : Mach) (cx : Nat) (l : Launch) (blk : Word) (r : RootRef) (n : Nat) : SameLaunches m (returnShadow m cx l blk r n) := by
  have hlog : ∀ k f, SameLaunches k (k.logDev (dieOf (coreOf cx)) (some f)) := fun k f => store (.logDev k _ _)
  have hread : SameLaunches m ((m.devFailure blk.toNat 64 false).elim m fun f => m.logDev (dieOf (coreOf cx)) (some f)) := by
    cases m.devFailure blk.toNat 64 false with
    | none => rfl
    | some f => exact hlog m f
  have hclear : ∀ k, SameLaunches k (clearShadow k cx blk) := fun k => store (.devStore k _ _ _)
  exact hread.trans (ite (((foldl hlog _ _).trans (returnAll _ _ _)).trans (hclear _)) rfl)
theorem carriedBack (m : Mach) (cx : Nat) (c : Ctx) : SameLaunches m (carriedBack m cx c) := by
  unfold Proofs.carriedBack
  split
  · exact returnWeight m _ _
  · exact (returnShadow m _ _ _ _ _).trans (returnWeight _ _ _)
end SameLaunches

/-- The machine in which a released context has let its lines go, where it drains (log 105). -/
def linesGone (m : Mach) (cx : Nat) : Mach :=
  if (m.ctx cx).life = .draining then ((m.ctx cx).pins.foldl (unpinLine cx) m).modCtx cx fun c => { c with pins := [] } else m
/-- A release takes back what the context carries, notes its time with the launch, and leaves the context at rest. -/
theorem releaseCtx_eq {m n : Mach} {cx : Nat} (hn : dropOps ((performAll m cx).dropWaiter cx) cx false = n) : ∃ f, releaseCtx m cx false =
    (notedReturn (carriedBack (linesGone n cx) cx (n.ctx cx)) (n.ctx cx)).modCtx cx f := by
  have hgone : linesGone n cx = if (false || decide ((n.ctx cx).life = .draining)) then
      ((n.ctx cx).pins.foldl (unpinLine cx) n).modCtx cx fun c => { c with pins := [] } else n := by simp [linesGone]
  unfold releaseCtx
  dsimp only
  rw [hn, ← hgone]
  generalize linesGone n cx = k
  exact ⟨_, rfl⟩
theorem SameLaunches.linesGone (m : Mach) (cx : Nat) : SameLaunches m (linesGone m cx) := .ite (.unpinLines cx _ _) rfl
theorem launch?_notedReturn {n : Mach} {lid : Word} {x : Launch} (h : n.launch? lid = some x) (c : Ctx) :
    ∃ t, (notedReturn n c).launch? lid = some { x with lastReturn := t } := by
  unfold notedReturn
  split
  · next k _ =>
    have hk := launch?_modLaunch n k lid (f := fun l => { l with lastReturn := n.time }) fun _ => rfl
    rw [hk, h, Option.map_some]
    by_cases hx : x.lid = k
    · exact ⟨_, congrArg some (if_pos hx)⟩
    · exact ⟨x.lastReturn, congrArg some (if_neg hx)⟩
  · exact ⟨_, h⟩
/-- A launch stands after the release of a context as it did, but for the time of its last return. -/
theorem launch?_releaseCtx {m : Mach} {lid : Word} {x : Launch} (h : m.launch? lid = some x) (cx : Nat) :
    ∃ t, (releaseCtx m cx false).launch? lid = some { x with lastReturn := t } := by
  have hall : SameLaunches m (performAll m cx) := .foldl (fun k a => .performAccess k cx a) _ _
  have hops : SameLaunches m (dropOps ((performAll m cx).dropWaiter cx) cx false) := hall.trans (.dropOps ((performAll m cx).dropWaiter cx) cx false)
  generalize hn : dropOps ((performAll m cx).dropWaiter cx) cx false = n at hops
  obtain ⟨f, he⟩ := releaseCtx_eq hn
  rw [he]
  exact launch?_notedReturn ((launch?_congr ((hops.trans (.linesGone n cx)).trans (.carriedBack _ cx _)) lid).trans h) (n.ctx cx)

/-- The failure of one context leaves every launch standing. -/
theorem isSome_launch?_failCtx (l : Launch) (why : FailBy) (but : Option Nat) (m : Mach) (cx : Nat) (lid : Word) :
    ((failCtx l why but m cx).launch? lid).isSome = (m.launch? lid).isSome := by
  refine (congrArg Option.isSome (launch?_congr ?_ lid)).trans ((Calm.discardOps m cx).launch lid)
  have hsubs : SameLaunches (discardOps m cx) (if ((discardOps m cx).ctx cx).subs.isEmpty then discardOps m cx else
      (discardOps m cx).modCtx cx fun c => { c with subs := c.subs.map fun s => { s with stopped := true } }) := .ite rfl rfl
  exact hsubs.trans (.ite rfl rfl)
/-- A launch that is failed stands, and is failing, whether it failed before or not, and whichever context takes no event (R337). -/
theorem failLaunch_failing {m : Mach} {lid : Word} {l : Launch} (hl : m.launch? lid = some l) (why : FailBy) (core : Nat) (but : Option Nat) :
    ∃ x, (failLaunch m lid why core but).launch? lid = some x ∧ x.phase = .failing := by
  by_cases hp : l.phase = .failing
  · refine ⟨{ l with failCtxs := if why.ofContext then min 255 (l.failCtxs + 1) else l.failCtxs }, ?_, hp⟩
    unfold failLaunch
    rw [hl]
    dsimp only
    rw [if_pos hp]
    exact launch?_modLaunch_same (fun _ => rfl) hl
  · obtain ⟨now, he⟩ := failLaunch_eq hl hp why core but
    have hctxs : ((l.allCtxs.foldl (failCtx l why but) (failRoot m l why)).launch? lid).isSome = true := by
      refine foldl_keeps (fun n : Mach => (n.launch? lid).isSome = true) _ (fun n cx hn => (isSome_launch?_failCtx l why but n cx lid).trans hn) _ _ ?_
      rw [(calm_failRoot m l why).launch, hl]
      rfl
    rw [← (calm_failedFrom _ l why core).launch] at hctxs
    obtain ⟨x, hx⟩ := Option.isSome_iff_exists.1 hctxs
    rw [he]
    exact ⟨_, launch?_modLaunch_same (fun _ => rfl) hx, rfl⟩

end Sys2Proof.Proofs
end

section
/-! SUPPORT. Management requests and register writes (18 R353, R357, R358; 16 R312). -/
namespace Sys2Proof.Proofs
open Sys2Proof.Machine Sys2Proof.Safety Sys2Proof.Claims

/-! Caches (requests 1 and 2). -/

theorem core_dropCode (m : Mach) (k : Nat) : (dropCode m).core k = { m.core k with icache := [] } :=
  mget_map ({} : Core) (fun c => { c with icache := [] }) rfl m.cores k
theorem core_dropTlbs (m : Mach) (k : Nat) : (dropTlbs m).core k = { m.core k with tlb := [] } :=
  mget_map ({} : Core) (fun c => { c with tlb := [] }) rfl m.cores k
theorem die_dropTlbs (m : Mach) (d : Nat) : (dropTlbs m).die d = { m.die d with tlb := [] } :=
  mget_map ({} : Die) (fun x => { x with tlb := [] }) rfl m.dies d
theorem read_reqDone (m : Mach) (result : Nat) (l : Loc) : (reqDone m result).read l = m.read l := by
  cases l <;> rfl
theorem read_dropCode (m : Mach) (l : Loc) : (dropCode m).read l = m.read l := by
  cases l <;> rfl
theorem read_dropTlbs (m : Mach) (l : Loc) : (dropTlbs m).read l = m.read l := by
  cases l <;> rfl

/-! Parked contexts (requests 6 and 7). -/

section
variable {m : Mach} {code cx : Nat} (hb : reqBusy m code = true) (ha : argCtx m = cx)
include hb ha
theorem onParked_refused (h : (m.ctx cx).life ≠ .parked) (f : Mach → Launch → Mach) : onParked code cx m f = reqDone m 2 := by
  unfold onParked
  rw [if_neg (by simp [hb, ha])]
  split
  · next hp _ => exact absurd hp h
  · rfl
theorem onParked_parked {l : Launch} (h : (m.ctx cx).life = .parked) (hl : m.launchOf cx = some l) (hcx : cx < 1280) (f : Mach → Launch → Mach) :
    onParked code cx m f = f m l := by
  unfold onParked
  rw [if_neg (by simp [hb, ha]), h, hl]
  dsimp only
  rw [if_pos hcx]
end
theorem ctx_reqDone (m : Mach) (result k : Nat) : (reqDone m result).ctx k = m.ctx k := rfl
theorem launch?_reqDone (m : Mach) (result : Nat) (lid : Word) : (reqDone m result).launch? lid = m.launch? lid := rfl
theorem parkedReplay_done {m : Mach} {cx : Nat} (h : (m.ctx cx).wroteOut = false) : parkedReplay m cx = (m, true) := by
  -- Only the definition is opened: reducing its match would run the replay of a whole block.
  delta parkedReplay
  exact if_pos (by rw [h]; rfl)
/-- A parked context with no operation written out issues again at once (R358). -/
theorem resumeParked_atOnce {m : Mach} {cx : Nat} (h : (m.ctx cx).wroteOut = false) (l : Launch) :
    resumeParked cx m l = reqDone (m.modCtx cx resumed) 0 := by
  unfold resumeParked
  dsimp only
  rw [h, parkedReplay_done h]
  dsimp only
  simp only [Bool.false_eq_true, Bool.not_true, if_false]
  rfl
theorem launch?_of_launchOf {m : Mach} {cx : Nat} {l : Launch} (h : m.launchOf cx = some l) : m.launch? l.lid = some l := by
  unfold Mach.launchOf at h
  split at h
  · rwa [lid_of_launch? h]
  · cases h
/-- FAIL_PARKED fails the launch and releases the context. -/
theorem failParked_frame {m : Mach} {cx : Nat} {l : Launch} (hl : m.launchOf cx = some l) :
    ((failParked cx m l).ctx cx).released = true ∧ (failParked cx m l).mgmtAt 0x078 = 0 ∧
      ∃ x, (failParked cx m l).launch? l.lid = some x ∧ x.phase = .failing := by
  obtain ⟨x, hx, hp⟩ := failLaunch_failing (launch?_of_launchOf hl) (.fault (m.ctx cx).faultCause) (coreOf cx) (some cx)
  obtain ⟨t, ht⟩ := launch?_releaseCtx hx cx
  unfold failParked
  rw [ctx_reqDone, mgmtAt_reqDone_zero, launch?_reqDone]
  exact ⟨(releaseCtx_rest _ cx false).1, rfl, _, ht, hp⟩

/-- A request that is asked for with its second operand runs over the machine. -/
theorem onRequest_askedBoth {s : State} {code : Nat} {v w : Word} (h : Asked s code v) (hw : arg1 s.m = w) (f : Mach → Mach) :
    onRequest code v s.m (fun m => if arg1 m == w then f m else m) = f s.m := (onRequest_asked h _).trans (if_pos (beq_iff_eq.2 hw))

/-! Queues and routes (requests 8 and 9; 05 R83; 16 R312). -/

/-- The queue's entry with the frozen flag and the failure index cleared. -/
def thawed (m : Mach) (q : Nat) : Mach := (m.qSetFlag q 2 false).qPut q 40 8 (2 ^ 64 - 1)
/-- The queue is unmapped and has entries unread, so its home die is to look at it (05 R83). -/
def Unseen (m : Mach) (q : Nat) : Prop :=
  (∀ x ∈ (m.die (m.qHome q)).slots, x.q ≠ q) ∧ m.qEnabled q = true ∧ m.qGet q 24 8 ≠ m.qGet q 16 8
theorem clearFrozen_noQueue {m : Mach} {q : Word} (h : 4096 ≤ q.toNat) : clearFrozen q m = reqDone m 2 := if_pos h
theorem clearFrozen_eq {m : Mach} {q : Word} (h : q.toNat < 4096) : clearFrozen q m =
    reqDone (if !((thawed m q.toNat).die ((thawed m q.toNat).qHome q.toNat)).slots.any (fun x => x.q == q.toNat) &&
      (thawed m q.toNat).qEnabled q.toNat && (thawed m q.toNat).qGet q.toNat 24 8 != (thawed m q.toNat).qGet q.toNat 16 8
      then (thawed m q.toNat).qSetFlag q.toNat 1 true else thawed m q.toNat) 0 := if_neg (by omega)
theorem clearFrozen_seen {m : Mach} {q : Word} (h : q.toNat < 4096) (hu : ¬Unseen (thawed m q.toNat) q.toNat) :
    clearFrozen q m = reqDone (thawed m q.toNat) 0 := by
  rw [clearFrozen_eq h, if_neg]
  simpa [Unseen, and_assoc] using hu
theorem clearFrozen_unseen {m : Mach} {q : Word} (h : q.toNat < 4096) (hu : Unseen (thawed m q.toNat) q.toNat) :
    clearFrozen q m = reqDone ((thawed m q.toNat).qSetFlag q.toNat 1 true) 0 := by
  rw [clearFrozen_eq h, if_pos]
  simpa [Unseen, and_assoc] using hu
theorem setRoute_beyond {m : Mach} {dst port : Word} (h : 1024 ≤ dst.toNat) : setRoute m dst port = reqDone m 2 := if_pos h
/-- The port that the operand of request 9 names. -/
def namedPort (port : Word) : PortId := ⟨port.extractLsb' 4 2, port.extractLsb' 0 2⟩
theorem setRoute_eq {m : Mach} {dst port : Word} (h : dst.toNat < 1024) :
    setRoute m dst port = reqDone { m with routes := mset m.routes dst.toNat (some (namedPort port)) } 0 := by
  have hport : (⟨BitVec.ofNat 2 (bits port 5 4), BitVec.ofNat 2 (bits port 1 0)⟩ : PortId) = namedPort port := by
    simp [namedPort, bits, BitVec.toNat_eq, Nat.shiftRight_eq_div_pow]
  rw [← hport]
  exact if_neg (by omega)

/-! Firmware and counters (requests 10 and 11; R353). -/

theorem die_eachDie (m : Mach) (f : Die → Die) {d : Nat} (h : d < 4) : (eachDie m f).die d = f (m.die d) := by
  show ((((m.modDie 0 f).modDie 1 f).modDie 2 f).modDie 3 f).die d = f (m.die d)
  obtain rfl | rfl | rfl | rfl : d = 0 ∨ d = 1 ∨ d = 2 ∨ d = 3 := by omega
  all_goals simp
/-- The reports that wait for a verification are answered. -/
def reported (m : Mach) : Mach := m.attest.foldl (fun m n => m.complete noTag 0 (attestation m n)) { m with attest := [] }
theorem reported_none {m : Mach} (h : m.attest = []) : reported m = m := by
  rw [reported, h, List.foldl_nil, ← h]
/-- A die's control core runs the image. -/
def inForce (bs : List Byte) (d : Die) : Die := { d with fw := 0, booted := true, image := some (imageDigest bs) }
/-- A die's control core keeps the image it runs, or notes the check that failed. -/
def keptOut (st : Nat) (d : Die) : Die := if d.booted then d else { d with fw := BitVec.ofNat 4 st }
/-- The machine once an image has been checked, and put in force or kept out (R353). -/
def checked (m : Mach) (bs : List Byte) : Mach :=
  if checkImage bs = 0 then reqDone (eachDie m (inForce bs)) 0 else reqDone (eachDie m (keptOut (checkImage bs))) 1
/-- The machine once the image that a request names has been read and checked. -/
def verified (m : Mach) (addr bytes : Word) : Mach :=
  let bad := if 256 + 2 ^ 24 < bytes.toNat then none else readFailure m addr.toNat bytes.toNat
  if 256 + 2 ^ 24 < bytes.toNat || bad.isSome then reqDone (m.logDev 0 bad) 2 else checked m (m.devRead addr.toNat bytes.toNat)
theorem attest_eachDie (m : Mach) (f : Die → Die) : (eachDie m f).attest = m.attest := 
  foldl_keeps (fun n : Mach => n.attest = m.attest) (fun n d => n.modDie d f) (fun _ _ h => h) (upFrom 0 4) m rfl
theorem attest_reqDone (m : Mach) (result : Nat) : (reqDone m result).attest = m.attest := rfl
theorem attest_logDev (m : Mach) (d : Nat) (f : Option (Nat × Nat × Nat)) : (m.logDev d f).attest = m.attest := by
  cases f <;> rfl
theorem attest_checked (m : Mach) (bs : List Byte) : (checked m bs).attest = m.attest := by
  unfold checked
  split <;> rw [attest_reqDone, attest_eachDie]
theorem attest_verified (m : Mach) (addr bytes : Word) : (verified m addr bytes).attest = m.attest := by
  unfold verified
  dsimp only
  generalize (if 256 + 2 ^ 24 < bytes.toNat then none else readFailure m addr.toNat bytes.toNat) = f
  by_cases hbad : (decide (256 + 2 ^ 24 < bytes.toNat) || f.isSome) = true
  · rw [if_pos hbad, attest_reqDone, attest_logDev]
  · rw [if_neg hbad, attest_checked]
theorem verified_tooLarge {m : Mach} {addr bytes : Word} (h : 256 + 2 ^ 24 < bytes.toNat) : verified m addr bytes = reqDone m 2 := by
  unfold verified
  dsimp only
  rw [if_pos h, if_pos (by rw [decide_eq_true h, Bool.true_or])]
  rfl
section
variable {m : Mach} {addr bytes : Word} (h : bytes.toNat ≤ 256 + 2 ^ 24)
include h
theorem verified_unreadable {f : Nat × Nat × Nat} (hf : readFailure m addr.toNat bytes.toNat = some f) :
    verified m addr bytes = reqDone (m.logDev 0 (some f)) 2 := by
  unfold verified
  dsimp only
  rw [if_neg (Nat.not_lt.2 h), hf, if_pos (by rw [Option.isSome_some, Bool.or_true])]
theorem verified_read (hf : readFailure m addr.toNat bytes.toNat = none) :
    verified m addr bytes = checked m (m.devRead addr.toNat bytes.toNat) := by
  unfold verified
  dsimp only
  rw [if_neg (Nat.not_lt.2 h), hf, if_neg (by rw [decide_eq_false (Nat.not_lt.2 h)]; exact Bool.false_ne_true)]
end
theorem checked_good {m : Mach} {bs : List Byte} (h : checkImage bs = 0) : checked m bs = reqDone (eachDie m (inForce bs)) 0 := if_pos h
theorem checked_bad {m : Mach} {bs : List Byte} (h : checkImage bs ≠ 0) : checked m bs = reqDone (eachDie m (keptOut (checkImage bs))) 1 := if_neg h
theorem die_reqDone (m : Mach) (result d : Nat) : (reqDone m result).die d = m.die d := rfl
/-- The result, and what each die runs, once an image has been checked. -/
theorem checked_frame (m : Mach) (bs : List Byte) :
    (checked m bs).mgmtAt 0x078 = (if checkImage bs = 0 then 0 else 16) ∧ ∀ d, d < 4 →
      if checkImage bs = 0 then ((checked m bs).die d).fw = 0 ∧ ((checked m bs).die d).booted = true ∧
        ((checked m bs).die d).image = some (imageDigest bs) else (m.die d).booted = true → (checked m bs).die d = m.die d := by
  by_cases h : checkImage bs = 0
  · rw [checked_good h, if_pos h]
    refine ⟨mgmtAt_reqDone_zero _, fun d hd => ?_⟩
    rw [if_pos h, die_reqDone, die_eachDie m _ hd]
    exact ⟨rfl, rfl, rfl⟩
  · rw [checked_bad h, if_neg h]
    refine ⟨mgmtAt_reqDone _ 1, fun d hd => ?_⟩
    rw [if_neg h, die_reqDone, die_eachDie m _ hd]
    exact fun hbooted => if_pos hbooted
/-- With no report waiting, request 10 is the verification alone. -/
theorem loadFirmware_eq {m : Mach} (h : m.attest = []) (addr bytes : Word) : loadFirmware m addr bytes = verified m addr bytes := by
  have hload : loadFirmware m addr bytes = reported (verified m addr bytes) := by
    unfold loadFirmware verified checked reported
    rfl
  rw [hload, reported_none ((attest_verified m addr bytes).trans h)]

theorem clearCounters_die (m : Mach) {d : Nat} (h : d < 4) : (clearCounters m).die d = { m.die d with errlog := [], errHead := 0 } := die_eachDie _ _ h
theorem clearCounters_counts (m : Mach) : (clearCounters m).eccCorrected = 0 ∧ (clearCounters m).lostNotifies = 0 ∧ (clearCounters m).lostReturns = 0 ∧
    (clearCounters m).lostFlits = 0 := ⟨rfl, rfl, rfl, rfl⟩

/-! Retraining (request 12; 16 R309). -/

theorem portKey_injective {p q : PortId} (h : portKey p = portKey q) : p = q := by
  obtain ⟨pd, pp⟩ := p
  obtain ⟨qd, qp⟩ := q
  have hp := pp.isLt
  have hq := qp.isLt
  change pd.toNat * 4 + pp.toNat = qd.toNat * 4 + qp.toNat at h
  rw [PortId.mk.injEq, BitVec.toNat_eq, BitVec.toNat_eq]
  omega
/-- A port that starts from offers, where it has its lanes and is not the bridge's. -/
def reoffer (m : Mach) (p : PortId) : Mach := if m.bridgePort p || (m.port p).phase == .down then m else dropPort m p .offering
/-- Every port of the device. -/
def allPorts : List PortId := (upFrom 0 16).map fun i => ⟨BitVec.ofNat 2 (i / 4), BitVec.ofNat 2 i⟩
theorem mem_allPorts (p : PortId) : p ∈ allPorts := by
  obtain ⟨d, n⟩ := p
  have hd := d.isLt
  have hn := n.isLt
  refine List.mem_map.2 ⟨d.toNat * 4 + n.toNat, (mem_upFrom _ _ _).2 (by omega), ?_⟩
  rw [PortId.mk.injEq, BitVec.toNat_eq, BitVec.toNat_eq, BitVec.toNat_ofNat, BitVec.toNat_ofNat]
  omega
theorem retrain_eq (m : Mach) : retrain m = allPorts.foldl reoffer m.latchNumber := rfl
theorem reoffer_frame (m : Mach) (p : PortId) : (reoffer m p).mgmt = m.mgmt ∧ (reoffer m p).grpPos = m.grpPos ∧ (reoffer m p).brgSel = m.brgSel := by
  unfold reoffer
  split <;> exact ⟨rfl, rfl, rfl⟩
theorem port_reoffer_ne (m : Mach) {p q : PortId} (h : p ≠ q) : (reoffer m p).port q = m.port q := by
  unfold reoffer
  split
  · rfl
  · exact port_setPort_ne m _ fun hk => h (portKey_injective hk)
theorem phase_reoffer_same {m : Mach} {p : PortId} (hb : m.bridgePort p = false) :
    ((reoffer m p).port p).phase = if (m.port p).phase = .down then .down else .offering := by
  unfold reoffer
  by_cases hd : (m.port p).phase = .down
  · rw [if_pos (by simp [hd]), if_pos hd, hd]
  · rw [if_neg (by simp [hb, hd]), if_neg hd, dropPort_port]
theorem bridgePort_reoffer {m : Mach} {p : PortId} (hb : m.bridgePort p = false) (q : PortId) : (reoffer m q).bridgePort p = false := by
  obtain ⟨_, _, hsel⟩ := reoffer_frame m q
  rwa [Mach.bridgePort, hsel]
theorem phase_foldl_offering {m : Mach} {p : PortId} (hb : m.bridgePort p = false) (h : (m.port p).phase = .offering) (ps : List PortId) :
    ((ps.foldl reoffer m).port p).phase = .offering := by
  refine (foldl_keeps (fun n : Mach => n.bridgePort p = false ∧ (n.port p).phase = .offering) reoffer (fun n q ⟨hn, ho⟩ =>
    ⟨bridgePort_reoffer hn q, ?_⟩) ps m ⟨hb, h⟩).2
  by_cases hq : q = p
  · subst hq
    rw [phase_reoffer_same hn, ho]
    rfl
  · rwa [port_reoffer_ne n hq]
/-- Every port with lanes that is not the bridge's starts from offers once all have been seen to. -/
theorem phase_foldl_reoffer {m : Mach} {p : PortId} (hb : m.bridgePort p = false) (hd : (m.port p).phase ≠ .down) {ps : List PortId} (hp : p ∈ ps) :
    ((ps.foldl reoffer m).port p).phase = .offering := by
  induction ps generalizing m with
  | nil => cases hp
  | cons q qs ih =>
    have hb' := bridgePort_reoffer hb q
    by_cases hq : q = p
    · subst hq
      exact phase_foldl_offering hb' (by rw [phase_reoffer_same hb, if_neg hd]) qs
    · exact ih hb' (by rwa [port_reoffer_ne m hq]) ((List.mem_cons.1 hp).resolve_left (Ne.symm hq))

theorem mgmtAt_congr {m n : Mach} (h : n.mgmt = m.mgmt) (hg : n.grpPos = m.grpPos) (o : Nat) : n.mgmtAt o = m.mgmtAt o := by
  rw [Mach.mgmtAt, h, hg, Mach.mgmtAt]
/-- Retraining writes the device's number, as DEVICE_NUMBER has it, and no other register. -/
theorem mgmtAt_retrain (m : Mach) (o : Nat) : (retrain m).mgmtAt o = m.latchNumber.mgmtAt o := by
  have hkeep := foldl_keeps (fun n : Mach => n.mgmt = m.latchNumber.mgmt ∧ n.grpPos = m.latchNumber.grpPos) reoffer (fun n p ⟨hn, hg⟩ => by
    obtain ⟨hmgmt, hpos, -⟩ := reoffer_frame n p
    exact ⟨hmgmt.trans hn, hpos.trans hg⟩) allPorts m.latchNumber ⟨rfl, rfl⟩
  exact mgmtAt_congr hkeep.1 hkeep.2 o
theorem deviceNo_retrain (m : Mach) : (retrain m).mgmtAt 0x000 = m.mgmtAt 0x008 % 1024 := by
  rw [mgmtAt_retrain, Mach.latchNumber, mgmtAt_setMgmt_same]
  omega
theorem phase_retrain {m : Mach} {p : PortId} (hb : m.bridgePort p = false) (hd : (m.port p).phase ≠ .down) :
    ((retrain m).port p).phase = .offering := by
  rw [retrain_eq]
  exact phase_foldl_reoffer (m := m.latchNumber) hb hd (mem_allPorts p)

/-! Writes to the registers (R357, R358). -/

theorem mgmtAt_writePower (m : Mach) (v : Word) : (writePower m v).mgmtAt 0x048 = max 1800 (min 3600 v.toNat) := by
  rw [writePower, mgmtAt_setMgmt_same]
  split
  · omega
  · split <;> omega
section
variable {m : Mach} {o : Nat} (hpower : o ≠ 0x048) (hrequest : o ≠ 0x070)
include hpower hrequest
theorem mgmtWrite_masked {k : Nat} (hk : mgmtMask m.brgSel o = some k) (v : Word) : mgmtWrite m o v = m.setMgmt o (v.toNat &&& k) := by
  rw [mgmtWrite, if_neg hpower, if_neg hrequest, hk]
theorem mgmtWrite_unmasked (hk : mgmtMask m.brgSel o = none) (v : Word) : mgmtWrite m o v = m := by
  rw [mgmtWrite, if_neg hpower, if_neg hrequest, hk]
end
theorem mgmtWrite_request (m : Mach) (v : Word) : mgmtWrite m 0x070 v = writeRequest m v := by
  rw [mgmtWrite, if_neg (by decide), if_pos rfl]
theorem writeRequest_busy {m : Mach} (h : m.mgmtAt 0x078 % 2 = 1) (v : Word) : writeRequest m v = m := if_pos h
/-- A write to REQUEST with none in progress names a request, which starts, or ends with result 2. -/
theorem writeRequest_frame {m : Mach} (h : m.mgmtAt 0x078 % 2 = 0) (v : Word) : (writeRequest m v).mgmtAt 0x070 = v.toNat % 256 ∧
    (writeRequest m v).mgmtAt 0x078 = if 1 ≤ v.toNat % 256 ∧ v.toNat % 256 ≤ 12 then 1 else 32 := by
  have hcode : (m.setMgmt 0x070 (v.toNat % 256)).mgmtAt 0x070 = v.toNat % 256 := by
    rw [mgmtAt_setMgmt_same]
    omega
  unfold writeRequest
  rw [if_neg (by omega)]
  dsimp only
  by_cases hnone : v.toNat % 256 = 0 ∨ 12 < v.toNat % 256
  · rw [if_pos hnone, if_neg (by omega), mgmtAt_reqDone, reqDone, mgmtAt_setMgmt_ne _ _ (by decide), hcode]
    exact ⟨rfl, rfl⟩
  · rw [if_neg hnone, if_pos (by omega), mgmtAt_setMgmt_same, mgmtAt_setMgmt_ne _ _ (by decide), hcode]
    exact ⟨rfl, rfl⟩

/-- Settles O57: each request by what it leaves, a folding over dies or ports by the one die or port; a register's write by its mask. -/
theorem managementRequests : Obligations.ManagementRequests := by
  unfold Obligations.ManagementRequests
  refine ⟨fun s hb => ?code, fun s hb => ?translations, fun s cx hb ha => ⟨fun h => ?noneParked, fun l h hl hcx hw => ?resumed⟩,
    fun s cx l hb ha h hl hcx => ?failed, fun s q ha => ⟨fun h => ?noQueue, fun h => ⟨fun hu => ?seen, fun hu => ?unseen⟩⟩,
    fun s dst port ha hport => ⟨fun h => ?noRoute, fun h => ?route⟩,
    fun s addr n ha hn hr => ⟨fun h => ?tooLarge, fun f h hf => ?unreadable, fun hf h => ?firmware⟩, fun s hb => ?counters, fun s hb => ?retrained,
    fun s v => ?power, fun s o v => ⟨fun k h48 h70 hk => ?register, fun h48 h70 hk => ?readOnly, fun hb => ?busy, fun hb => ?request⟩⟩
  case code =>
    exact ⟨_, next_put (if_pos hb), fun k => congrArg Core.icache (core_dropCode s.m k), mgmtAt_reqDone_zero _, rfl,
      fun l => (read_reqDone _ _ l).trans (read_dropCode _ l)⟩
  case translations =>
    exact ⟨_, next_put (if_pos hb), fun k => congrArg Core.tlb (core_dropTlbs s.m k), fun d => congrArg Die.tlb (die_dropTlbs s.m d),
      mgmtAt_reqDone_zero _, rfl, fun l => (read_reqDone _ _ l).trans (read_dropTlbs _ l)⟩
  case noneParked => exact next_put (onParked_refused hb ha h _)
  case resumed => exact next_put ((onParked_parked hb ha h hl hcx _).trans (resumeParked_atOnce hw l))
  case failed =>
    obtain ⟨hrel, hres, x, hx, hp⟩ := failParked_frame (cx := cx) hl
    exact ⟨_, x, next_put (onParked_parked hb ha h hl hcx _), hrel, hres, hx, hp⟩
  case noQueue => exact next_put ((onRequest_asked ha _).trans (clearFrozen_noQueue h))
  case seen => exact next_put ((onRequest_asked ha _).trans (clearFrozen_seen h hu))
  case unseen => exact next_put ((onRequest_asked ha _).trans (clearFrozen_unseen h hu))
  case noRoute => exact next_put ((onRequest_askedBoth ha hport _).trans (setRoute_beyond h))
  case route =>
    refine ⟨_, next_put ((onRequest_askedBoth ha hport _).trans (setRoute_eq h)), mgmtAt_reqDone_zero _, ?_, fun j hj => ?_⟩
    · exact mget_mset_same none s.m.routes dst.toNat _
    · exact mget_mset_ne none s.m.routes _ (Ne.symm hj)
  case tooLarge => exact next_put ((onRequest_askedBoth ha hn _).trans ((loadFirmware_eq hr addr n).trans (verified_tooLarge h)))
  case unreadable =>
    exact next_put ((onRequest_askedBoth ha hn _).trans ((loadFirmware_eq hr addr n).trans (verified_unreadable h hf)))
  case firmware =>
    exact ⟨_, next_put ((onRequest_askedBoth ha hn _).trans ((loadFirmware_eq hr addr n).trans (verified_read h hf))),
      checked_frame s.m _⟩
  case counters =>
    obtain ⟨hecc, hnot, hret, hflit⟩ := clearCounters_counts s.m
    exact ⟨_, next_put (if_pos hb), mgmtAt_reqDone_zero _, hecc, hnot, hret, hflit, fun d hd =>
      ⟨congrArg Die.errlog (clearCounters_die s.m hd), congrArg Die.errHead (clearCounters_die s.m hd)⟩⟩
  case retrained =>
    exact ⟨_, next_put (if_pos hb), mgmtAt_reqDone_zero _, (mgmtAt_setMgmt_ne _ _ (by decide)).trans (deviceNo_retrain s.m),
      fun p hp hd => phase_retrain hp hd⟩
  case power => exact ⟨_, next_put rfl, mgmtAt_writePower s.m v, fun o ho => mgmtAt_setMgmt_ne _ _ (Ne.symm ho)⟩
  case register =>
    exact ⟨_, next_put (mgmtWrite_masked h48 h70 hk v), (mgmtAt_setMgmt_same _ _ _).trans (Nat.mod_eq_of_lt (Nat.lt_of_le_of_lt Nat.and_le_left v.isLt)),
      fun j hj => mgmtAt_setMgmt_ne _ _ (Ne.symm hj)⟩
  case readOnly => exact next_put (mgmtWrite_unmasked h48 h70 hk v)
  case busy => exact next_put ((mgmtWrite_request s.m v).trans (writeRequest_busy hb v))
  case request => exact ⟨_, next_put (mgmtWrite_request s.m v), writeRequest_frame hb v⟩

end Sys2Proof.Proofs
end
